-- ==== Sys2Proof/Word.lean ====
section
/-!
DEFINITION. The plain words of the machine: bytes, 32-bit and 64-bit register values, 16-bit halves and lane
masks, and the sparse store in which State keeps registers, lanes and memory as plain data.
-/
namespace Sys2Proof

abbrev Byte := BitVec 8
abbrev Half := BitVec 16
abbrev Word := BitVec 32
abbrev DWord := BitVec 64
/-- One bit per lane of a sheaf, lane 0 in bit 0. -/
abbrev Mask := BitVec 32

/-- A sparse table: pairs of a key and a value, keys strictly rising, no value equal to the default, which is
what an unlisted key reads as. Its operations stand in Machine/Store.lean. -/
structure Store (α : Type) where
  cells : List (Nat × α) := []
  deriving DecidableEq, Repr, Inhabited

end Sys2Proof
end

