-- ==== Sys2Proof/Messages.lean ====
section
/-!
DEFINITION. What the messages of the fabric and the tables of the host bring with an event.
-/
namespace Sys2Proof

/-- The carry that is placed: that of an entry of this device, or one that a peer sent for a launch: its number on the channel, whether it is
broken, its components. Beside the carries, what a peer is told of the members of a launch here: the notice that is due, and a notice's
acknowledgement. DESIGN CHOICE (log 48). -/
inductive CarrySource where
  | own (entry : Nat)
  | peer (launch src seq : Nat) (broken : Bool) (words : List (Option Word))
  | notice (launch : Nat)
  | told (launch : Nat)
  deriving DecidableEq, Repr

/-- A `CBAR` entry, and whether a carry of its round was broken at another device, where a notice says so. DESIGN CHOICE (log 48). -/
structure RoundNotice where
  entry : Nat
  others : Option Bool
  deriving DecidableEq, Repr

/-- A remote enqueue's declared ranges (write, base, length), and the stamp of its spawner (R315, R349). -/
structure EnqueueBody where
  ranges : List (Bool × Nat × Nat)
  stamp : Option (Word × Word)
  deriving DecidableEq, Repr

/-- The device a message comes from, its number on the ordered channel, its job (R348, R384). -/
structure CrierSource where
  src : Nat
  seq : Nat
  job : Nat
  deriving DecidableEq, Repr

/-- What comes with a submission entry from the host's tables: the export the job admits (base, length), how the launch's chain goes
on at other devices: before, after, and whether it holds the first and the last member; and whether Baruri's policy turns the entry away
(R379). DESIGN CHOICE (log 48), DEDUCED (log 55). -/
structure EntryTables where
  exported : Nat × Nat
  span : Option (Nat × Nat × Bool × Bool)
  barred : Bool := false
  deriving DecidableEq, Repr

/-- What a recomputing of the routes goes by: the fabric's global links, each by the devices at its ends; the links between other devices that
are down; and the new REACH of jobs (R348, R382). -/
structure RouteLoss where
  globals : List (Nat × Nat)
  down : List (Nat × Nat)
  reach : List (Nat × Word)
  deriving DecidableEq, Repr

/-- How a copy between endpoints ends short: the cause, and the bytes of a read that had come before it (R392). -/
structure NakAnswer where
  cause : Nat
  data : List Byte
  deriving DecidableEq, Repr

/-- What a firmware image brings beside its manifest and signatures: its version, and the image itself, by its number (R429). -/
structure ImageBody where
  version : Nat
  image : Nat
  deriving DecidableEq, Repr

end Sys2Proof
end

