-- ==== Sys2Proof/Syntax.lean ====
section
/-!
DEFINITION. The steps of the machine: one constructor for each row of the manual's table of operations and events.
Words carry the fields of their encoding (R67); a one-bit field is a Bool. Events carry what names the party they happen to
and what the outside world brings with them.
-/
namespace Sys2Proof

/-- Every row of the operation table: the words of the instruction set first, in opcode order, then the events. -/
inductive Instr where
  /-- `sched` (R72). -/
  | sched (w : BitVec 12) (p : BitVec 3) (q : BitVec 3) (r : BitVec 3) (s : BitVec 3)
  /-- `limm` (R74). -/
  | limm (i : BitVec 24)
  /-- `xmod` (R75). -/
  | xmod (f : BitVec 4) (c : BitVec 4) (v : Bool) (o : BitVec 3) (p : BitVec 2) (m : BitVec 4)
  /-- `eret` (R156). -/
  | eret (g : BitVec 3)
  /-- `exit` (R157). -/
  | exit (g : BitVec 3)
  /-- `rdx` (R158). -/
  | rdx (y : Bool) (g : BitVec 3) (d : BitVec 7) (a : BitVec 7)
  /-- `wrx` (R158). -/
  | wrx (y : Bool) (g : BitVec 3) (a : BitVec 7) (b : BitVec 7)
  /-- `movs.rd` (R159). -/
  | movsRd (y : Bool) (g : BitVec 3) (d : BitVec 7) (a : BitVec 7)
  /-- `movs.wr` (R159). -/
  | movsWr (y : Bool) (g : BitVec 3) (d : BitVec 7) (a : BitVec 7)
  /-- `rdclk.cyc` (R160). -/
  | rdclkCyc (y : Bool) (g : BitVec 3) (d : BitVec 7)
  /-- `rdclk.ns` (R160). -/
  | rdclkNs (y : Bool) (g : BitVec 3) (d : BitVec 7)
  /-- `iadd` (R103). -/
  | iadd (y : Bool) (g : BitVec 3) (d : BitVec 7) (a : BitVec 7) (b : BitVec 7)
  /-- `isub` (R103). -/
  | isub (y : Bool) (g : BitVec 3) (d : BitVec 7) (a : BitVec 7) (b : BitVec 7)
  /-- `iaddi` (R103). -/
  | iaddi (y : Bool) (g : BitVec 3) (d : BitVec 7) (a : BitVec 7) (i : BitVec 7)
  /-- `imul` (R103). -/
  | imul (y : Bool) (g : BitVec 3) (d : BitVec 7) (a : BitVec 7) (b : BitVec 7)
  /-- `imulh` (R103). -/
  | imulh (y : Bool) (g : BitVec 3) (d : BitVec 7) (a : BitVec 7) (b : BitVec 7)
  /-- `imad` (R103). -/
  | imad (y : Bool) (g : BitVec 3) (d : BitVec 7) (a : BitVec 7) (b : BitVec 7)
  /-- `imin` (R103). -/
  | imin (y : Bool) (g : BitVec 3) (d : BitVec 7) (a : BitVec 7) (b : BitVec 7)
  /-- `imax` (R103). -/
  | imax (y : Bool) (g : BitVec 3) (d : BitVec 7) (a : BitVec 7) (b : BitVec 7)
  /-- `and` (R107). -/
  | and (y : Bool) (g : BitVec 3) (d : BitVec 7) (a : BitVec 7) (b : BitVec 7)
  /-- `or` (R107). -/
  | or (y : Bool) (g : BitVec 3) (d : BitVec 7) (a : BitVec 7) (b : BitVec 7)
  /-- `xor` (R107). -/
  | xor (y : Bool) (g : BitVec 3) (d : BitVec 7) (a : BitVec 7) (b : BitVec 7)
  /-- `andn` (R107). -/
  | andn (y : Bool) (g : BitVec 3) (d : BitVec 7) (a : BitVec 7) (b : BitVec 7)
  /-- `shl` (R107). -/
  | shl (y : Bool) (g : BitVec 3) (d : BitVec 7) (a : BitVec 7) (b : BitVec 7)
  /-- `shr` (R107). -/
  | shr (y : Bool) (g : BitVec 3) (d : BitVec 7) (a : BitVec 7) (b : BitVec 7)
  /-- `sar` (R107). -/
  | sar (y : Bool) (g : BitVec 3) (d : BitVec 7) (a : BitVec 7) (b : BitVec 7)
  /-- `shi` (R108). -/
  | shi (y : Bool) (g : BitVec 3) (d : BitVec 7) (a : BitVec 7) (k : BitVec 2) (c : BitVec 5)
  /-- `bfe` (R110). -/
  | bfe (y : Bool) (g : BitVec 3) (d : BitVec 7) (a : BitVec 7) (b : BitVec 7)
  /-- `bfi` (R110). -/
  | bfi (y : Bool) (g : BitVec 3) (d : BitVec 7) (a : BitVec 7) (b : BitVec 7)
  /-- `popc` (R111). -/
  | popc (y : Bool) (g : BitVec 3) (d : BitVec 7) (a : BitVec 7)
  /-- `clz` (R111). -/
  | clz (y : Bool) (g : BitVec 3) (d : BitVec 7) (a : BitVec 7)
  /-- `ctz` (R111). -/
  | ctz (y : Bool) (g : BitVec 3) (d : BitVec 7) (a : BitVec 7)
  /-- `brev` (R111). -/
  | brev (y : Bool) (g : BitVec 3) (d : BitVec 7) (a : BitVec 7)
  /-- `bswap` (R111). -/
  | bswap (y : Bool) (g : BitVec 3) (d : BitVec 7) (a : BitVec 7)
  /-- `mov` (R109). -/
  | mov (y : Bool) (g : BitVec 3) (d : BitVec 7) (b : BitVec 7)
  /-- `lea` (R106). -/
  | lea (y : Bool) (g : BitVec 3) (d : BitVec 7) (a : BitVec 7) (b : BitVec 7)
  /-- `idot4` (R105). -/
  | idot4 (y : Bool) (g : BitVec 3) (d : BitVec 7) (a : BitVec 7) (b : BitVec 7)
  /-- `imadw` (R105). -/
  | imadw (y : Bool) (g : BitVec 3) (d : BitVec 7) (a : BitVec 7) (b : BitVec 7)
  /-- `fadd` (R112). -/
  | fadd (y : Bool) (g : BitVec 3) (d : BitVec 7) (a : BitVec 7) (b : BitVec 7)
  /-- `fsub` (R112). -/
  | fsub (y : Bool) (g : BitVec 3) (d : BitVec 7) (a : BitVec 7) (b : BitVec 7)
  /-- `fmul` (R112). -/
  | fmul (y : Bool) (g : BitVec 3) (d : BitVec 7) (a : BitVec 7) (b : BitVec 7)
  /-- `ffma` (R112). -/
  | ffma (y : Bool) (g : BitVec 3) (d : BitVec 7) (a : BitVec 7) (b : BitVec 7)
  /-- `fmin` (R113). -/
  | fmin (y : Bool) (g : BitVec 3) (d : BitVec 7) (a : BitVec 7) (b : BitVec 7)
  /-- `fmax` (R113). -/
  | fmax (y : Bool) (g : BitVec 3) (d : BitVec 7) (a : BitVec 7) (b : BitVec 7)
  /-- `fabs` (R117). -/
  | fabs (y : Bool) (g : BitVec 3) (d : BitVec 7) (a : BitVec 7)
  /-- `fneg` (R117). -/
  | fneg (y : Bool) (g : BitVec 3) (d : BitVec 7) (a : BitVec 7)
  /-- `fnabs` (R117). -/
  | fnabs (y : Bool) (g : BitVec 3) (d : BitVec 7) (a : BitVec 7)
  /-- `fcls` (R117). -/
  | fcls (y : Bool) (g : BitVec 3) (d : BitVec 7) (a : BitVec 7)
  /-- `fdot2` (R114). -/
  | fdot2 (y : Bool) (g : BitVec 3) (d : BitVec 7) (a : BitVec 7) (b : BitVec 7)
  /-- `frnd` (R116). -/
  | frnd (y : Bool) (g : BitVec 3) (d : BitVec 7) (a : BitVec 7) (r : BitVec 3)
  /-- `fscl` (R115). -/
  | fscl (y : Bool) (g : BitVec 3) (d : BitVec 7) (a : BitVec 7) (b : BitVec 7)
  /-- `rcp` (R118). -/
  | rcp (y : Bool) (g : BitVec 3) (d : BitVec 7) (a : BitVec 7)
  /-- `rsq` (R118). -/
  | rsq (y : Bool) (g : BitVec 3) (d : BitVec 7) (a : BitVec 7)
  /-- `sqrt` (R118). -/
  | sqrt (y : Bool) (g : BitVec 3) (d : BitVec 7) (a : BitVec 7)
  /-- `ex2` (R118). -/
  | ex2 (y : Bool) (g : BitVec 3) (d : BitVec 7) (a : BitVec 7)
  /-- `lg2` (R118). -/
  | lg2 (y : Bool) (g : BitVec 3) (d : BitVec 7) (a : BitVec 7)
  /-- `sin` (R118). -/
  | sin (y : Bool) (g : BitVec 3) (d : BitVec 7) (a : BitVec 7)
  /-- `cos` (R118). -/
  | cos (y : Bool) (g : BitVec 3) (d : BitVec 7) (a : BitVec 7)
  /-- `tanh` (R118). -/
  | tanh (y : Bool) (g : BitVec 3) (d : BitVec 7) (a : BitVec 7)
  /-- `cvt` (R126). -/
  | cvti (y : Bool) (g : BitVec 3) (d : BitVec 7) (a : BitVec 7) (s : BitVec 2) (t : BitVec 5)
  /-- `cvt` (R126). -/
  | cvtf (y : Bool) (g : BitVec 3) (d : BitVec 7) (a : BitVec 7) (s : BitVec 2) (t : BitVec 5)
  /-- `cvt` (R126). -/
  | cvtb (y : Bool) (g : BitVec 3) (d : BitVec 7) (a : BitVec 7) (s : BitVec 5) (t : BitVec 2)
  /-- `cvts` (R128). -/
  | cvts (y : Bool) (g : BitVec 3) (d : BitVec 7) (a : BitVec 7) (b : BitVec 7)
  /-- `qblk` (R131). -/
  | qblk (y : Bool) (g : BitVec 3) (d : BitVec 7) (a : BitVec 7) (k : BitVec 4) (t : BitVec 3)
  /-- `pack` (R129). -/
  | pack (y : Bool) (g : BitVec 3) (d : BitVec 7) (a : BitVec 7) (b : BitVec 7)
  /-- `unpk` (R130). -/
  | unpk (y : Bool) (g : BitVec 3) (d : BitVec 7) (a : BitVec 7) (w : BitVec 2) (k : BitVec 3)
  /-- `icmp` (R120). -/
  | icmp (y : Bool) (g : BitVec 3) (c : BitVec 4) (p : BitVec 3) (a : BitVec 7) (b : BitVec 7)
  /-- `fcmp` (R121). -/
  | fcmp (y : Bool) (g : BitVec 3) (c : BitVec 4) (p : BitVec 3) (a : BitVec 7) (b : BitVec 7)
  /-- `sel` (R122). -/
  | sel (y : Bool) (g : BitVec 3) (d : BitVec 7) (a : BitVec 7) (b : BitVec 7)
  /-- `plop` (R123). -/
  | plop (y : Bool) (g : BitVec 3) (p : BitVec 3) (q : BitVec 3) (r : BitVec 3) (t : BitVec 4)
  /-- `pmov.p` (R124). -/
  | pmovP (y : Bool) (g : BitVec 3) (p : BitVec 3) (a : BitVec 7)
  /-- `pmov.v` (R124). -/
  | pmovV (y : Bool) (g : BitVec 3) (d : BitVec 7) (p : BitVec 3)
  /-- `pmov.m` (R124). -/
  | pmovM (y : Bool) (g : BitVec 3) (d : BitVec 7)
  /-- `pmov.s` (R124). -/
  | pmovS (y : Bool) (g : BitVec 3) (a : BitVec 7)
  /-- `icmpi` (R120). -/
  | icmpi (y : Bool) (g : BitVec 3) (c : BitVec 4) (p : BitVec 3) (a : BitVec 7) (i : BitVec 7)
  /-- `shfl` (R148). -/
  | shfl (y : Bool) (g : BitVec 3) (d : BitVec 7) (a : BitVec 7) (b : BitVec 7)
  /-- `vote.all` (R149). -/
  | voteAll (y : Bool) (g : BitVec 3) (p : BitVec 3) (q : BitVec 3)
  /-- `vote.any` (R149). -/
  | voteAny (y : Bool) (g : BitVec 3) (p : BitVec 3) (q : BitVec 3)
  /-- `vote.ballot` (R149). -/
  | voteBallot (y : Bool) (g : BitVec 3) (d : BitVec 7) (q : BitVec 3)
  /-- `vote.uni` (R149). -/
  | voteUni (y : Bool) (g : BitVec 3) (p : BitVec 3) (a : BitVec 7)
  /-- `red` (R150). -/
  | red (y : Bool) (g : BitVec 3) (d : BitVec 7) (a : BitVec 7) (o : BitVec 3) (t : BitVec 3)
  /-- `scanl` (R150). -/
  | scanl (y : Bool) (g : BitVec 3) (d : BitVec 7) (a : BitVec 7) (o : BitVec 3) (x : Bool) (t : BitVec 3)
  /-- `conf` (R151). -/
  | conf (y : Bool) (g : BitVec 3) (d : BitVec 7) (a : BitVec 7)
  /-- `bcast` (R152). -/
  | bcast (y : Bool) (g : BitVec 3) (d : BitVec 7) (a : BitVec 7)
  /-- `bra` (R134). -/
  | bra (y : Bool) (g : BitVec 3) (i : BitVec 7)
  /-- `call` (R134). -/
  | call (y : Bool) (g : BitVec 3) (d : BitVec 7) (i : BitVec 7)
  /-- `ret` (R135). -/
  | ret (y : Bool) (g : BitVec 3) (a : BitVec 7)
  /-- `join` (R140). -/
  | join (y : Bool) (g : BitVec 3)
  /-- `join.m` (R140). -/
  | joinM (y : Bool) (g : BitVec 3) (a : BitVec 7)
  /-- `loop` (R142). -/
  | loop (y : Bool) (n : BitVec 2) (a : BitVec 7) (i : BitVec 7)
  /-- `endl` (R142). -/
  | endl (y : Bool) (n : BitVec 2) (i : BitVec 7)
  /-- `lwait` (R137). -/
  | lwait (y : Bool) (g : BitVec 3) (f : BitVec 4)
  /-- `brx` (R135). -/
  | brx (y : Bool) (g : BitVec 3) (a : BitVec 7) (b : BitVec 7)
  /-- `ld` (R181). -/
  | ld (y : Bool) (g : BitVec 3) (d : BitVec 7) (a : BitVec 7) (f : BitVec 4) (m : BitVec 3)
  /-- `st` (R182). -/
  | st (y : Bool) (g : BitVec 3) (d : BitVec 7) (a : BitVec 7) (m : BitVec 3)
  /-- `ldv` (R181). -/
  | ldv (y : Bool) (g : BitVec 3) (d : BitVec 7) (a : BitVec 7) (f : BitVec 4) (m : BitVec 3)
  /-- `stv` (R182). -/
  | stv (y : Bool) (g : BitVec 3) (d : BitVec 7) (a : BitVec 7) (m : BitVec 3)
  /-- `stq` (R184). -/
  | stq (y : Bool) (g : BitVec 3) (d : BitVec 7) (a : BitVec 7) (f : BitVec 4) (m : BitVec 3)
  /-- `prf` (R187). -/
  | prf (y : Bool) (g : BitVec 3) (a : BitVec 7) (m : Bool)
  /-- `lds` (R189). -/
  | lds (y : Bool) (g : BitVec 3) (d : BitVec 7) (a : BitVec 7) (f : BitVec 4) (m : BitVec 3)
  /-- `qrd` (R199). -/
  | qrd (y : Bool) (g : BitVec 3) (d : BitVec 7) (n : BitVec 3) (f : BitVec 4)
  /-- `qwr` (R200). -/
  | qwr (y : Bool) (g : BitVec 3) (d : BitVec 7) (n : BitVec 3) (f : BitVec 4)
  /-- `atom` (R193). -/
  | atom (y : Bool) (g : BitVec 3) (d : BitVec 7) (a : BitVec 7) (f : BitVec 4) (m : BitVec 3)
  /-- `cas` (R193). -/
  | cas (y : Bool) (g : BitVec 3) (d : BitVec 7) (a : BitVec 7) (f : BitVec 4) (m : BitVec 3)
  /-- `atomf` (R193). -/
  | atomf (y : Bool) (g : BitVec 3) (d : BitVec 7) (a : BitVec 7) (f : BitVec 4) (m : BitVec 3)
  /-- `atst` (R190). -/
  | atst (y : Bool) (g : BitVec 3) (d : BitVec 7) (a : BitVec 7) (f : BitVec 4) (m : BitVec 3)
  /-- `mclaim` (R209). -/
  | mclaim (y : Bool) (g : BitVec 3) (d : BitVec 7) (n : BitVec 5) (c : BitVec 5)
  /-- `mrel` (R210). -/
  | mrel (y : Bool) (g : BitVec 3) (n : BitVec 5) (c : BitVec 5)
  /-- `mbind` (R211). -/
  | mbind (y : Bool) (g : BitVec 3) (h : BitVec 7) (a : BitVec 7) (n : BitVec 5)
  /-- `mma` (R219). -/
  | mma (y : Bool) (g : BitVec 3) (d : BitVec 7) (n : BitVec 5) (b : BitVec 5)
  /-- `mmas` (R221). -/
  | mmas (y : Bool) (g : BitVec 3) (d : BitVec 7) (n : BitVec 5) (b : BitVec 5)
  /-- `mmab` (R220). -/
  | mmab (y : Bool) (g : BitVec 3) (d : BitVec 7) (n : BitVec 5) (b : BitVec 5)
  /-- `amov.rd` (R223). -/
  | amovRd (y : Bool) (g : BitVec 3) (d : BitVec 7) (a : BitVec 7) (f : BitVec 4)
  /-- `amov.wr` (R223). -/
  | amovWr (y : Bool) (g : BitVec 3) (d : BitVec 7) (a : BitVec 7)
  /-- `azero` (R224). -/
  | azero (y : Bool) (g : BitVec 3) (d : BitVec 7) (a : BitVec 7)
  /-- `acvt` (R225). -/
  | acvt (y : Bool) (g : BitVec 3) (d : BitVec 7) (a : BitVec 7) (c : Bool) (t : BitVec 5)
  /-- `qmv` (R230). -/
  | qmv (y : Bool) (g : BitVec 3) (d : BitVec 7) (a : BitVec 7)
  /-- `rjoin` (R232). -/
  | rjoin (y : Bool) (g : BitVec 3) (a : BitVec 7)
  /-- `copy` (R248). -/
  | copy (y : Bool) (g : BitVec 3) (h : BitVec 7) (a : BitVec 7) (q : BitVec 3) (m : Bool) (r : BitVec 3)
  /-- `gather` (R253). -/
  | gather (y : Bool) (g : BitVec 3) (h : BitVec 7) (a : BitVec 7)
  /-- `sbind` (R198). -/
  | sbind (y : Bool) (g : BitVec 3) (n : BitVec 3) (a : BitVec 7)
  /-- `stream` (R255). -/
  | stream (y : Bool) (g : BitVec 3) (a : BitVec 7)
  /-- `stream.post` (R257). -/
  | streamPost (y : Bool) (g : BitVec 3) (h : BitVec 7)
  /-- `hwait.free` (R174). -/
  | hwaitFree (y : Bool) (g : BitVec 3) (h : BitVec 7)
  /-- `hwait.full` (R174). -/
  | hwaitFull (y : Bool) (g : BitVec 3) (h : BitVec 7)
  /-- `hrel` (R174). -/
  | hrel (y : Bool) (g : BitVec 3) (h : BitVec 7)
  /-- `hstat` (R175). -/
  | hstat (y : Bool) (g : BitVec 3) (d : BitVec 7) (h : BitVec 7)
  /-- `scfg` (R267). -/
  | scfg (y : Bool) (g : BitVec 3) (s : BitVec 3) (w : BitVec 2)
  /-- `scan` (R269). -/
  | scan (y : Bool) (g : BitVec 3) (a : BitVec 7)
  /-- `csend` (R273). -/
  | csend (y : Bool) (g : BitVec 3) (a : BitVec 7)
  /-- `crecv` (R274). -/
  | crecv (y : Bool) (g : BitVec 3) (a : BitVec 7)
  /-- `cbar` (R275). -/
  | cbar (y : Bool) (g : BitVec 3) (d : BitVec 7)
  /-- `grow` (R321). -/
  | grow (y : Bool) (g : BitVec 3) (d : BitVec 7) (a : BitVec 7)
  /-- `spawn` (R322). -/
  | spawn (y : Bool) (g : BitVec 3) (d : BitVec 7) (a : BitVec 7)
  /-- `qpush` (R331). -/
  | qpush (y : Bool) (g : BitVec 3) (d : BitVec 7) (a : BitVec 7) (s : BitVec 2)
  /-- `qpop` (R331). -/
  | qpop (y : Bool) (g : BitVec 3) (d : BitVec 7) (a : BitVec 7) (s : BitVec 2)
  /-- `cwait` (R318). -/
  | cwait (y : Bool) (g : BitVec 3) (l : BitVec 3)
  /-- `cancel` (R319). -/
  | cancel (y : Bool) (g : BitVec 3) (l : BitVec 3)
  /-- `incup` (R341). -/
  | incup (y : Bool) (g : BitVec 3) (d : BitVec 7) (a : BitVec 7) (p : Bool) (n : BitVec 4)
  /-- `incrd` (R342). -/
  | incrd (y : Bool) (g : BitVec 3) (d : BitVec 7) (p : Bool) (n : BitVec 4)
  /-- `bndset` (R345). -/
  | bndset (y : Bool) (g : BitVec 3) (a : BitVec 7)
  /-- `bndcfg` (R345). -/
  | bndcfg (y : Bool) (g : BitVec 3) (a : BitVec 7)
  /-- `fence` (R191). -/
  | fence (y : Bool) (g : BitVec 3) (s : BitVec 4) (m : Bool) (k : BitVec 7)
  /-- `bar.unit` (R334). -/
  | bar (y : Bool) (s : BitVec 4)
  /-- `qfence` (R252). -/
  | qfence (y : Bool) (g : BitVec 3) (m : BitVec 2) (k : BitVec 7)
  /-- `MODULE_RESET` (R12). -/
  | moduleReset
  /-- `BOOT_IMAGE_LOAD` (R429). -/
  | bootImageLoad (bank : Nat)
  /-- `RECOVERY_IMAGE_DOE` (R429). -/
  | recoveryImageDoe (manifest edSig mlSig : Nat) (body : ImageBody)
  /-- `QUADRANT_CYCLE` (R85). -/
  | quadrantCycle (core quad : Nat)
  /-- `TRAP_ENTRY` (R92). -/
  | trapEntry (sheaf : Nat)
  /-- `Y_PARK_END` (R82). -/
  | yParkEnd (sheaf : Nat)
  /-- `LOAD_REPLY` (R181). -/
  | loadReply (sheaf id : Nat)
  /-- `STORE_TRANSLATED` (R182). -/
  | storeTranslated (sheaf id : Nat)
  /-- `TLB_WALK` (R357). -/
  | tlbWalk (die ctx page : Nat)
  /-- `TLB_INVALIDATION` (R358). -/
  | tlbInvalidation (ctx first last : Nat)
  /-- `FAULT_SERVICE` (R360). -/
  | faultService (sheaf : Nat) (ok : Bool)
  /-- `DRIVER_ANSWER` (R360). -/
  | driverAnswer (sheaf : Nat) (mapped : Bool) (hwm : Nat) (tables : List (Nat × Nat))
  /-- `REPLAY_LIMIT` (R362). -/
  | replayLimit (sheaf : Nat)
  /-- `STREAM_ELEMENT_FETCH` (R198). -/
  | streamElementFetch (sheaf q : Nat)
  /-- `COPY_START` (R249). -/
  | copyStart (id : Nat)
  /-- `COPY_COMPLETE` (R249). -/
  | copyComplete (id : Nat)
  /-- `COPY_SLOW_PATH` (R258). -/
  | copySlowPath (id : Nat) (serviced : Bool) (tables : List (Nat × Nat))
  /-- `RING_CHUNK_START` (R256). -/
  | ringChunkStart (id : Nat)
  /-- `QFENCE_PASS` (R252). -/
  | qfencePass (id : Nat)
  /-- `MBIND_START` (R211). -/
  | mbindStart (id : Nat)
  /-- `MREL_START` (R210). -/
  | mrelStart (id : Nat)
  /-- `MILL_OP_START` (R213). -/
  | millOpStart (id : Nat)
  /-- `MILL_OP_RETIRE` (R214). -/
  | millOpRetire (id : Nat)
  /-- `QMV_START` (R230). -/
  | qmvStart (id : Nat)
  /-- `QUERN_ROW` (R231). -/
  | quernRow (id row : Nat)
  /-- `RJOIN_START` (R232). -/
  | rjoinStart (id : Nat)
  /-- `FALLOW_SWEEP_END` (R401). -/
  | fallowSweepEnd (rec : Nat)
  /-- `CENSUS_RANKING` (R405). -/
  | censusRanking (rec smap mlist : Nat)
  /-- `COLD_CHANGE_REPORT` (R408). -/
  | coldChangeReport (rec smap mlist : Nat) (rows : List Nat)
  /-- `MIGRATION_COMMAND` (R406). -/
  | migrationCommand (rec ctx : Nat)
  /-- `MIGRATION_COPY` (R407). -/
  | migrationCopy (rec : Nat)
  /-- `MIGRATION_INSTANT` (R407). -/
  | migrationInstant (rec : Nat)
  /-- `SCAN_START` (R269). -/
  | scanStart (id : Nat)
  /-- `SCAN_PERFORMED` (R270). -/
  | scanPerformed (id : Nat)
  /-- `CSEND_START` (R273). -/
  | csendStart (id : Nat)
  /-- `CARRY_PLACED` (R273). -/
  | carryPlaced (carry : CarrySource)
  /-- `CRECV_TAKE` (R274). -/
  | crecvTake (id : Nat)
  /-- `ROUND_COMPLETE` (R275). -/
  | roundComplete (round : RoundNotice)
  /-- `SPAWN_ARRIVAL` (R324). -/
  | spawnArrival (id : Nat)
  /-- `UNIT_ADMISSION` (R329). -/
  | unitAdmission (core : Nat)
  /-- `UNIT_COMPLETE` (R313). -/
  | unitComplete (unit : Nat)
  /-- `NODE_COMPLETE` (R325). -/
  | nodeComplete (node : Nat)
  /-- `REMOTE_ENQUEUE_RECEIVE` (R315). -/
  | remoteEnqueueReceive (job dev krec args : Nat) (body : EnqueueBody)
  /-- `REMOTE_ENQUEUE_ACK` (R315). -/
  | remoteEnqueueAck (id : Nat) (entered : Bool)
  /-- `JOB_COMPLETION_SWEEP` (R316). -/
  | jobCompletionSweep (job : Nat) (parts : List (Nat × Nat))
  /-- `JOB_END` (R433). -/
  | jobEnd (job cause : Nat)
  /-- `QUEUE_WORD_AT_HOME` (R332). -/
  | queueWordAtHome (id : Nat)
  /-- `POP_DELIVERY` (R333). -/
  | popDelivery (id : Nat)
  /-- `BARRIER_COMPLETE` (R334). -/
  | barrierComplete (unit : Nat)
  /-- `CWAIT_RELEASE` (R318). -/
  | cwaitRelease (sheaf : Nat)
  /-- `INCUMBENT_COMMIT` (R341). -/
  | incumbentCommit (id : Nat)
  /-- `INCUP_REPLY` (R341). -/
  | incupReply (id : Nat)
  /-- `INCRD_ROOT_REPLY` (R342). -/
  | incrdRootReply (id : Nat)
  /-- `CRIER_REPLICA_UPDATE` (R338). -/
  | crierReplicaUpdate (job reg : Nat) (onDie : Bool) (place : Nat)
  /-- `CRIER_FORWARD` (R348). -/
  | crierForward (source : CrierSource) (reg : Nat) (value payload : Word) (cycles : Nat)
  /-- `WATCHDOG_EXPIRY` (R374). -/
  | watchdogExpiry (sheaf : Nat)
  /-- `BUDGET_PERIOD` (R375). -/
  | budgetPeriod
  /-- `SAVE_REQUEST` (R367). -/
  | saveRequest (core ctx : Nat)
  /-- `DRAIN_END` (R368). -/
  | drainEnd (core : Nat)
  /-- `SAVE_END` (R372). -/
  | saveEnd (core : Nat)
  /-- `RESTORE` (R373). -/
  | restore (unit core : Nat)
  /-- `CONTEXT_CREATE` (R352). -/
  | contextCreate (ctx prio : Nat) (spw : Bool) (ptb pvb pspan hwm eqb eqn : Nat) (budgets : List Nat)
  /-- `CONTEXT_DESTROY` (R352). -/
  | contextDestroy (ctx : Nat)
  /-- `DOORBELL_WRITE` (R379). -/
  | doorbellWrite (offset bytes : Nat) (value : DWord)
  /-- `SUBMISSION_ENTRY` (R380). -/
  | submissionEntry (ctx queue : Nat) (incs : List (Nat × Word × Word)) (parts : List Nat) (reach : Word) (tables : EntryTables)
  /-- `PHASE_END_COMPLETION` (R380). -/
  | phaseEndCompletion (phase : Nat)
  /-- `HOST_HDM_ACCESS` (R378). -/
  | hostHdmAccess (addr : Nat) (write : Bool) (data : List (Option Byte))
  /-- `PEER_REQUEST` (R386). -/
  | peerRequest (src seq job offset : Nat) (op : Nat) (size : Nat) (x y : DWord)
  /-- `REPLY_HOLD_EXPIRY` (R383). -/
  | replyHoldExpiry (src seq : Nat)
  /-- `ROUTE_RECOMPUTE` (R382). -/
  | routeRecompute (link : Nat) (loss : RouteLoss)
  /-- `LINK_RETRAIN` (R385). -/
  | linkRetrain (link : Nat) (a1 b1 a2 b2 : Word)
  /-- `CAPABILITY_PUBLISH` (R389). -/
  | capabilityPublish (peer : Nat) (mask : Word) (exports : List (Nat × Nat))
  /-- `PEER_UNREACHABLE` (R387). -/
  | peerUnreachable (peer : Nat)
  /-- `REMOTE_STORE_FAILURE` (R366). -/
  | remoteStoreFailure (id cause : Nat)
  /-- `RDMA_COMPLETION` (R392). -/
  | rdmaCompletion (id : Nat) (data : List Byte)
  /-- `DVF_SET_POINT` (R416). -/
  | dvfSetPoint (die : Nat) (value : Word)
  /-- `DVF_GATE` (R419). -/
  | dvfGate (die : Nat) (value : Word)
  /-- `DVF_WAKE` (R421). -/
  | dvfWake (die : Nat) (value : Word)
  /-- `POINT_CHANGE_DONE` (R416). -/
  | pointChangeDone (die : Nat)
  /-- `GATING_DONE` (R419). -/
  | gatingDone (die : Nat)
  /-- `WAKE_DONE` (R421). -/
  | wakeDone (die : Nat)
  /-- `THERMAL_THROTTLE` (R418). -/
  | thermalThrottle (die : Nat)
  /-- `THROTTLE_RELEASE` (R418). -/
  | throttleRelease (die : Nat)
  /-- `SCRUB_PASS` (R425). -/
  | scrubPass (line : Nat) (kind : Nat)
  /-- `HBM_ROW_RETIRE` (R427). -/
  | hbmRowRetire (row : DWord)
  /-- `CORE_FAILURE` (R426). -/
  | coreFailure (core : Nat)
  /-- `REPAIR_RECORD_WRITE` (R428). -/
  | repairRecordWrite (fails : List Nat) (rows : List DWord) (seq edSig mlSig : Nat)
  /-- `GET_VERSION` (R431). -/
  | getVersion
  /-- `GET_CAPABILITIES` (R431). -/
  | getCapabilities
  /-- `NEGOTIATE_ALGORITHMS` (R431). -/
  | negotiateAlgorithms (hash sig dhe aead : Nat)
  /-- `GET_DIGESTS` (R431). -/
  | getDigests
  /-- `GET_CERTIFICATE` (R431). -/
  | getCertificate (slot : Nat)
  /-- `CHALLENGE` (R431). -/
  | challenge (nonce : Nat)
  /-- `GET_MEASUREMENTS` (R431). -/
  | getMeasurements (index nonce : Nat)
  /-- `KEY_EXCHANGE` (R431). -/
  | keyExchange (pub : Nat)
  /-- `FINISH` (R431). -/
  | finish (verify : Nat)
  /-- `END_SESSION` (R431). -/
  | endSession
  /-- `REGISTER_WRITE` (R4). -/
  | registerWrite (reg : Nat) (value : DWord)
  /-- `RECORD_REACHABLE_AGAIN` (R232). -/
  | recordReachableAgain (rec : Nat)
  /-- `SUBMISSION_QUEUE_CREATE` (R379). -/
  | submissionQueueCreate (ctx queue base logSize : Nat)
  /-- `QUEUE_PAIR_CREATE` (R391). -/
  | queuePairCreate (ctx qpn : Nat)
  /-- `MATRIX_RECORD_REGISTRATION` (R411). -/
  | matrixRecordRegistration (rec budget : Nat) (policy : Option (List (Nat × Nat)))
  /-- `CONGESTION_NOTIFICATION_PACKET` (R391). -/
  | congestionNotificationPacket (port : Nat)
  /-- `NAK` (R392). -/
  | nak (id : Nat) (answer : NakAnswer)
  deriving DecidableEq, Repr, Inhabited

end Sys2Proof
end

