-- ==== Sys2Proof/Decode.lean ====
section
/-!
DEFINITION. The decoder of 32-bit instruction words (R67, R90), total and rejecting by name, and the encoder, both
written from the word formats and the opcode map.
-/
namespace Sys2Proof

/-- Why a word decodes to no instruction (R92). -/
inductive DecodeError where
  /-- A major opcode to which the map of R90 assigns nothing, 0x7F among them. -/
  | unassignedOpcode (op : BitVec 7)
  /-- A selector, or a field that must hold one value, holds another. -/
  | reservedField (op : BitVec 7)
  /-- Y set on a hint word. -/
  | markedHint (op : BitVec 7)
  deriving DecidableEq, Repr

def wordY (w : Word) : Bool := w.getLsbD 31
def wordOp (w : Word) : BitVec 7 := w.extractLsb' 24 7
def wordG (w : Word) : BitVec 3 := w.extractLsb' 21 3
def wordD (w : Word) : BitVec 7 := w.extractLsb' 14 7
def wordA (w : Word) : BitVec 7 := w.extractLsb' 7 7
def wordB (w : Word) : BitVec 7 := w.extractLsb' 0 7

/-- A word of format G, M, I or E from its fields (R67). -/
def mkWord (y : Bool) (op : BitVec 7) (g : BitVec 3) (d a b : BitVec 7) : Word :=
  BitVec.ofBool y ++ op ++ g ++ d ++ a ++ b

/-- A hint word: bit 31 clear, opcode, 24 bits of payload (R71). -/
def hintWord (op : BitVec 7) (payload : BitVec 24) : Word := 0#1 ++ op ++ payload

/-- Decoding of hints: opcodes 0x00 to 0x07 (R71 to R75). -/
def decodeHint (op : BitVec 7) (p : BitVec 24) : Except DecodeError Instr :=
  match op.toNat with
  | 0x00 => .ok (.sched (p.extractLsb' 12 12) (p.extractLsb' 9 3) (p.extractLsb' 6 3) (p.extractLsb' 3 3) (p.extractLsb' 0 3))
  | 0x01 => .ok (.limm p)
  | 0x02 =>
    if p.extractLsb' 0 6 == 0#6 then
      .ok (.xmod (p.extractLsb' 20 4) (p.extractLsb' 16 4) (p.getLsbD 15) (p.extractLsb' 12 3) (p.extractLsb' 10 2) (p.extractLsb' 6 4))
    else .error (.reservedField op)
  | _ => .error (.unassignedOpcode op)

/-- Decoding of the words of formats G, M, I and E by the opcode map of R90. -/
def decodeFields (y : Bool) (op : BitVec 7) (g : BitVec 3) (d a b : BitVec 7) : Except DecodeError Instr :=
  match op.toNat with
  | 0x08 =>
    if y && d == 120#7 && a == 120#7 && b == 0#7 then .ok (.eret g)
    else .error (.reservedField op)
  | 0x09 =>
    if y && d == 120#7 && a == 120#7 && b == 0#7 then .ok (.exit g)
    else .error (.reservedField op)
  | 0x0A =>
    if b == 120#7 then .ok (.rdx y g d a)
    else .error (.reservedField op)
  | 0x0B =>
    if d == 120#7 then .ok (.wrx y g a b)
    else .error (.reservedField op)
  | 0x0C =>
    if b == 0#7 then .ok (.movsRd y g d a)
    else if b == 1#7 then .ok (.movsWr y g d a)
    else .error (.reservedField op)
  | 0x0D =>
    if a == 120#7 && b == 0#7 then .ok (.rdclkCyc y g d)
    else if a == 120#7 && b == 1#7 then .ok (.rdclkNs y g d)
    else .error (.reservedField op)
  | 0x10 =>
    .ok (.iadd y g d a b)
  | 0x11 =>
    .ok (.isub y g d a b)
  | 0x12 =>
    .ok (.iaddi y g d a b)
  | 0x13 =>
    .ok (.imul y g d a b)
  | 0x14 =>
    .ok (.imulh y g d a b)
  | 0x15 =>
    .ok (.imad y g d a b)
  | 0x16 =>
    .ok (.imin y g d a b)
  | 0x17 =>
    .ok (.imax y g d a b)
  | 0x18 =>
    .ok (.and y g d a b)
  | 0x19 =>
    .ok (.or y g d a b)
  | 0x1A =>
    .ok (.xor y g d a b)
  | 0x1B =>
    .ok (.andn y g d a b)
  | 0x1C =>
    .ok (.shl y g d a b)
  | 0x1D =>
    .ok (.shr y g d a b)
  | 0x1E =>
    .ok (.sar y g d a b)
  | 0x1F =>
    .ok (.shi y g d a (b.extractLsb' 5 2) (b.extractLsb' 0 5))
  | 0x20 =>
    .ok (.bfe y g d a b)
  | 0x21 =>
    .ok (.bfi y g d a b)
  | 0x22 =>
    if b == 0#7 then .ok (.popc y g d a)
    else if b == 1#7 then .ok (.clz y g d a)
    else if b == 2#7 then .ok (.ctz y g d a)
    else if b == 3#7 then .ok (.brev y g d a)
    else if b == 4#7 then .ok (.bswap y g d a)
    else .error (.reservedField op)
  | 0x23 =>
    if a == 120#7 then .ok (.mov y g d b)
    else .error (.reservedField op)
  | 0x24 =>
    .ok (.lea y g d a b)
  | 0x25 =>
    .ok (.idot4 y g d a b)
  | 0x26 =>
    .ok (.imadw y g d a b)
  | 0x28 =>
    .ok (.fadd y g d a b)
  | 0x29 =>
    .ok (.fsub y g d a b)
  | 0x2A =>
    .ok (.fmul y g d a b)
  | 0x2B =>
    .ok (.ffma y g d a b)
  | 0x2C =>
    .ok (.fmin y g d a b)
  | 0x2D =>
    .ok (.fmax y g d a b)
  | 0x2E =>
    if b == 0#7 then .ok (.fabs y g d a)
    else if b == 1#7 then .ok (.fneg y g d a)
    else if b == 2#7 then .ok (.fnabs y g d a)
    else .error (.reservedField op)
  | 0x2F =>
    if b == 0#7 then .ok (.fcls y g d a)
    else .error (.reservedField op)
  | 0x30 =>
    .ok (.fdot2 y g d a b)
  | 0x31 =>
    if b.extractLsb' 3 4 == 0#4 then .ok (.frnd y g d a (b.extractLsb' 0 3))
    else .error (.reservedField op)
  | 0x32 =>
    .ok (.fscl y g d a b)
  | 0x38 =>
    if b == 0#7 then .ok (.rcp y g d a)
    else if b == 1#7 then .ok (.rsq y g d a)
    else if b == 2#7 then .ok (.sqrt y g d a)
    else if b == 3#7 then .ok (.ex2 y g d a)
    else if b == 4#7 then .ok (.lg2 y g d a)
    else if b == 5#7 then .ok (.sin y g d a)
    else if b == 6#7 then .ok (.cos y g d a)
    else if b == 7#7 then .ok (.tanh y g d a)
    else .error (.reservedField op)
  | 0x40 =>
    .ok (.cvti y g d a (b.extractLsb' 5 2) (b.extractLsb' 0 5))
  | 0x41 =>
    .ok (.cvtf y g d a (b.extractLsb' 5 2) (b.extractLsb' 0 5))
  | 0x42 =>
    .ok (.cvtb y g d a (b.extractLsb' 2 5) (b.extractLsb' 0 2))
  | 0x43 =>
    .ok (.cvts y g d a b)
  | 0x44 =>
    .ok (.qblk y g d a (b.extractLsb' 3 4) (b.extractLsb' 0 3))
  | 0x45 =>
    .ok (.pack y g d a b)
  | 0x46 =>
    if b.extractLsb' 3 2 == 0#2 then .ok (.unpk y g d a (b.extractLsb' 5 2) (b.extractLsb' 0 3))
    else .error (.reservedField op)
  | 0x48 =>
    .ok (.icmp y g (d.extractLsb' 3 4) (d.extractLsb' 0 3) a b)
  | 0x49 =>
    .ok (.fcmp y g (d.extractLsb' 3 4) (d.extractLsb' 0 3) a b)
  | 0x4A =>
    .ok (.sel y g d a b)
  | 0x4B =>
    if d.extractLsb' 3 4 == 0#4 && !a.getLsbD 6 && b.extractLsb' 4 3 == 0#3 then .ok (.plop y g (d.extractLsb' 0 3) (a.extractLsb' 3 3) (a.extractLsb' 0 3) (b.extractLsb' 0 4))
    else .error (.reservedField op)
  | 0x4C =>
    if d.extractLsb' 3 4 == 0#4 && b == 0#7 then .ok (.pmovP y g (d.extractLsb' 0 3) a)
    else if a.extractLsb' 3 4 == 0#4 && b == 1#7 then .ok (.pmovV y g d (a.extractLsb' 0 3))
    else if a == 120#7 && b == 2#7 then .ok (.pmovM y g d)
    else if d == 120#7 && b == 3#7 then .ok (.pmovS y g a)
    else .error (.reservedField op)
  | 0x4D =>
    .ok (.icmpi y g (d.extractLsb' 3 4) (d.extractLsb' 0 3) a b)
  | 0x50 =>
    .ok (.shfl y g d a b)
  | 0x51 =>
    if d.extractLsb' 3 4 == 0#4 && a.extractLsb' 3 4 == 0#4 && b == 0#7 then .ok (.voteAll y g (d.extractLsb' 0 3) (a.extractLsb' 0 3))
    else if d.extractLsb' 3 4 == 0#4 && a.extractLsb' 3 4 == 0#4 && b == 1#7 then .ok (.voteAny y g (d.extractLsb' 0 3) (a.extractLsb' 0 3))
    else if a.extractLsb' 3 4 == 0#4 && b == 2#7 then .ok (.voteBallot y g d (a.extractLsb' 0 3))
    else if d.extractLsb' 3 4 == 0#4 && b == 3#7 then .ok (.voteUni y g (d.extractLsb' 0 3) a)
    else .error (.reservedField op)
  | 0x52 =>
    if !b.getLsbD 3 then .ok (.red y g d a (b.extractLsb' 4 3) (b.extractLsb' 0 3))
    else .error (.reservedField op)
  | 0x53 =>
    .ok (.scanl y g d a (b.extractLsb' 4 3) (b.getLsbD 3) (b.extractLsb' 0 3))
  | 0x54 =>
    if b == 120#7 then .ok (.conf y g d a)
    else .error (.reservedField op)
  | 0x55 =>
    if b == 120#7 then .ok (.bcast y g d a)
    else .error (.reservedField op)
  | 0x58 =>
    if d == 120#7 && a == 120#7 then .ok (.bra y g b)
    else .error (.reservedField op)
  | 0x59 =>
    if a == 120#7 then .ok (.call y g d b)
    else .error (.reservedField op)
  | 0x5A =>
    if d == 120#7 && b == 0#7 then .ok (.ret y g a)
    else .error (.reservedField op)
  | 0x5B =>
    if d == 120#7 && a == 120#7 && b == 0#7 then .ok (.join y g)
    else if d == 120#7 && b == 1#7 then .ok (.joinM y g a)
    else .error (.reservedField op)
  | 0x5C =>
    if g == 7#3 && d.extractLsb' 2 5 == 0#5 then .ok (.loop y (d.extractLsb' 0 2) a b)
    else .error (.reservedField op)
  | 0x5D =>
    if g == 7#3 && d.extractLsb' 2 5 == 0#5 && a == 120#7 then .ok (.endl y (d.extractLsb' 0 2) b)
    else .error (.reservedField op)
  | 0x5E =>
    if d == 120#7 && a == 120#7 && b.extractLsb' 0 3 == 0#3 then .ok (.lwait y g (b.extractLsb' 3 4))
    else .error (.reservedField op)
  | 0x5F =>
    if d == 120#7 then .ok (.brx y g a b)
    else .error (.reservedField op)
  | 0x60 =>
    .ok (.ld y g d a (b.extractLsb' 3 4) (b.extractLsb' 0 3))
  | 0x61 =>
    if b.extractLsb' 3 4 == 15#4 then .ok (.st y g d a (b.extractLsb' 0 3))
    else .error (.reservedField op)
  | 0x62 =>
    .ok (.ldv y g d a (b.extractLsb' 3 4) (b.extractLsb' 0 3))
  | 0x63 =>
    if b.extractLsb' 3 4 == 15#4 then .ok (.stv y g d a (b.extractLsb' 0 3))
    else .error (.reservedField op)
  | 0x64 =>
    .ok (.stq y g d a (b.extractLsb' 3 4) (b.extractLsb' 0 3))
  | 0x65 =>
    if d == 120#7 && b.extractLsb' 1 6 == 61#6 then .ok (.prf y g a (b.getLsbD 0))
    else .error (.reservedField op)
  | 0x66 =>
    .ok (.lds y g d a (b.extractLsb' 3 4) (b.extractLsb' 0 3))
  | 0x67 =>
    if a.extractLsb' 3 4 == 0#4 && b.extractLsb' 0 3 == 0#3 then .ok (.qrd y g d (a.extractLsb' 0 3) (b.extractLsb' 3 4))
    else .error (.reservedField op)
  | 0x68 =>
    if a.extractLsb' 3 4 == 0#4 && b.extractLsb' 0 3 == 0#3 then .ok (.qwr y g d (a.extractLsb' 0 3) (b.extractLsb' 3 4))
    else .error (.reservedField op)
  | 0x6C =>
    .ok (.atom y g d a (b.extractLsb' 3 4) (b.extractLsb' 0 3))
  | 0x6D =>
    .ok (.cas y g d a (b.extractLsb' 3 4) (b.extractLsb' 0 3))
  | 0x6E =>
    .ok (.atomf y g d a (b.extractLsb' 3 4) (b.extractLsb' 0 3))
  | 0x6F =>
    .ok (.atst y g d a (b.extractLsb' 3 4) (b.extractLsb' 0 3))
  | 0x70 =>
    if a.extractLsb' 5 2 == 0#2 && b.extractLsb' 5 2 == 0#2 then .ok (.mclaim y g d (a.extractLsb' 0 5) (b.extractLsb' 0 5))
    else if d == 120#7 && a.extractLsb' 5 2 == 0#2 && b.extractLsb' 5 2 == 1#2 then .ok (.mrel y g (a.extractLsb' 0 5) (b.extractLsb' 0 5))
    else if b.extractLsb' 5 2 == 2#2 then .ok (.mbind y g d a (b.extractLsb' 0 5))
    else .error (.reservedField op)
  | 0x71 =>
    if a.extractLsb' 5 2 == 0#2 && b.extractLsb' 5 2 == 0#2 then .ok (.mma y g d (a.extractLsb' 0 5) (b.extractLsb' 0 5))
    else if a.extractLsb' 5 2 == 0#2 && b.extractLsb' 5 2 == 1#2 then .ok (.mmas y g d (a.extractLsb' 0 5) (b.extractLsb' 0 5))
    else if a.extractLsb' 5 2 == 0#2 && b.extractLsb' 5 2 == 2#2 then .ok (.mmab y g d (a.extractLsb' 0 5) (b.extractLsb' 0 5))
    else .error (.reservedField op)
  | 0x72 =>
    if b.extractLsb' 0 3 == 0#3 then .ok (.amovRd y g d a (b.extractLsb' 3 4))
    else if b == 121#7 then .ok (.amovWr y g d a)
    else .error (.reservedField op)
  | 0x73 =>
    if b == 0#7 then .ok (.azero y g d a)
    else if b.getLsbD 6 then .ok (.acvt y g d a (b.getLsbD 5) (b.extractLsb' 0 5))
    else .error (.reservedField op)
  | 0x74 =>
    if b == 0#7 then .ok (.qmv y g d a)
    else if d == 120#7 && b == 64#7 then .ok (.rjoin y g a)
    else .error (.reservedField op)
  | 0x75 =>
    .ok (.copy y g d a (b.extractLsb' 4 3) (b.getLsbD 3) (b.extractLsb' 0 3))
  | 0x76 =>
    if b == 0#7 then .ok (.gather y g d a)
    else if d.extractLsb' 3 4 == 0#4 && b == 1#7 then .ok (.sbind y g (d.extractLsb' 0 3) a)
    else if d == 120#7 && b == 2#7 then .ok (.stream y g a)
    else if d == 120#7 && b == 3#7 then .ok (.streamPost y g a)
    else .error (.reservedField op)
  | 0x77 =>
    if d == 120#7 && b == 0#7 then .ok (.hwaitFree y g a)
    else if d == 120#7 && b == 1#7 then .ok (.hwaitFull y g a)
    else if d == 120#7 && b == 2#7 then .ok (.hrel y g a)
    else if b == 3#7 then .ok (.hstat y g d a)
    else .error (.reservedField op)
  | 0x78 =>
    if d == 120#7 && a == 120#7 && b.extractLsb' 5 2 == 0#2 then .ok (.scfg y g (b.extractLsb' 2 3) (b.extractLsb' 0 2))
    else if d == 120#7 && b == 32#7 then .ok (.scan y g a)
    else .error (.reservedField op)
  | 0x79 =>
    if d == 120#7 && b == 0#7 then .ok (.csend y g a)
    else if d == 120#7 && b == 32#7 then .ok (.crecv y g a)
    else if a == 120#7 && b == 64#7 then .ok (.cbar y g d)
    else .error (.reservedField op)
  | 0x7A =>
    if b == 0#7 then .ok (.grow y g d a)
    else if b == 32#7 then .ok (.spawn y g d a)
    else .error (.reservedField op)
  | 0x7B =>
    if b.extractLsb' 0 3 == 0#3 && b.extractLsb' 5 2 == 0#2 then .ok (.qpush y g d a (b.extractLsb' 3 2))
    else if b.extractLsb' 0 3 == 0#3 && b.extractLsb' 5 2 == 1#2 then .ok (.qpop y g d a (b.extractLsb' 3 2))
    else .error (.reservedField op)
  | 0x7C =>
    if d == 120#7 && a == 120#7 && b.extractLsb' 3 4 == 0#4 then .ok (.cwait y g (b.extractLsb' 0 3))
    else if d == 120#7 && a == 120#7 && b.extractLsb' 3 4 == 4#4 then .ok (.cancel y g (b.extractLsb' 0 3))
    else .error (.reservedField op)
  | 0x7D =>
    if b.extractLsb' 5 2 == 0#2 then .ok (.incup y g d a (b.getLsbD 4) (b.extractLsb' 0 4))
    else if a == 120#7 && b.extractLsb' 5 2 == 1#2 then .ok (.incrd y g d (b.getLsbD 4) (b.extractLsb' 0 4))
    else if d == 120#7 && b == 64#7 then .ok (.bndset y g a)
    else if d == 120#7 && b == 96#7 then .ok (.bndcfg y g a)
    else .error (.reservedField op)
  | 0x7E =>
    if d.extractLsb' 1 2 == 0#2 && b == 0#7 then .ok (.fence y g (d.extractLsb' 3 4) (d.getLsbD 0) a)
    else if g == 7#3 && d.extractLsb' 0 3 == 0#3 && a == 120#7 && b == 1#7 then .ok (.bar y (d.extractLsb' 3 4))
    else if d.extractLsb' 2 5 == 0#5 && b == 2#7 then .ok (.qfence y g (d.extractLsb' 0 2) a)
    else .error (.reservedField op)
  | _ => .error (.unassignedOpcode op)

/-- The instruction that a 32-bit word stands for, or why it stands for none. -/
def decode (w : Word) : Except DecodeError Instr :=
  if (wordOp w).toNat < 8 then
    if wordY w then .error (.markedHint (wordOp w)) else decodeHint (wordOp w) (w.extractLsb' 0 24)
  else decodeFields (wordY w) (wordOp w) (wordG w) (wordD w) (wordA w) (wordB w)

/-- The word of an instruction; an event has none. -/
def encode : Instr → Option Word
  | .sched w p q r s => some (hintWord 0#7 (w ++ p ++ q ++ r ++ s))
  | .limm i => some (hintWord 1#7 (i))
  | .xmod f c v o p m => some (hintWord 2#7 (f ++ c ++ BitVec.ofBool v ++ o ++ p ++ m ++ 0#6))
  | .eret g => some (mkWord true 0x08#7 g 120#7 120#7 0#7)
  | .exit g => some (mkWord true 0x09#7 g 120#7 120#7 0#7)
  | .rdx y g d a => some (mkWord y 0x0A#7 g d a 120#7)
  | .wrx y g a b => some (mkWord y 0x0B#7 g 120#7 a b)
  | .movsRd y g d a => some (mkWord y 0x0C#7 g d a 0#7)
  | .movsWr y g d a => some (mkWord y 0x0C#7 g d a 1#7)
  | .rdclkCyc y g d => some (mkWord y 0x0D#7 g d 120#7 0#7)
  | .rdclkNs y g d => some (mkWord y 0x0D#7 g d 120#7 1#7)
  | .iadd y g d a b => some (mkWord y 0x10#7 g d a b)
  | .isub y g d a b => some (mkWord y 0x11#7 g d a b)
  | .iaddi y g d a i => some (mkWord y 0x12#7 g d a i)
  | .imul y g d a b => some (mkWord y 0x13#7 g d a b)
  | .imulh y g d a b => some (mkWord y 0x14#7 g d a b)
  | .imad y g d a b => some (mkWord y 0x15#7 g d a b)
  | .imin y g d a b => some (mkWord y 0x16#7 g d a b)
  | .imax y g d a b => some (mkWord y 0x17#7 g d a b)
  | .and y g d a b => some (mkWord y 0x18#7 g d a b)
  | .or y g d a b => some (mkWord y 0x19#7 g d a b)
  | .xor y g d a b => some (mkWord y 0x1A#7 g d a b)
  | .andn y g d a b => some (mkWord y 0x1B#7 g d a b)
  | .shl y g d a b => some (mkWord y 0x1C#7 g d a b)
  | .shr y g d a b => some (mkWord y 0x1D#7 g d a b)
  | .sar y g d a b => some (mkWord y 0x1E#7 g d a b)
  | .shi y g d a k c => some (mkWord y 0x1F#7 g d a (k ++ c))
  | .bfe y g d a b => some (mkWord y 0x20#7 g d a b)
  | .bfi y g d a b => some (mkWord y 0x21#7 g d a b)
  | .popc y g d a => some (mkWord y 0x22#7 g d a 0#7)
  | .clz y g d a => some (mkWord y 0x22#7 g d a 1#7)
  | .ctz y g d a => some (mkWord y 0x22#7 g d a 2#7)
  | .brev y g d a => some (mkWord y 0x22#7 g d a 3#7)
  | .bswap y g d a => some (mkWord y 0x22#7 g d a 4#7)
  | .mov y g d b => some (mkWord y 0x23#7 g d 120#7 b)
  | .lea y g d a b => some (mkWord y 0x24#7 g d a b)
  | .idot4 y g d a b => some (mkWord y 0x25#7 g d a b)
  | .imadw y g d a b => some (mkWord y 0x26#7 g d a b)
  | .fadd y g d a b => some (mkWord y 0x28#7 g d a b)
  | .fsub y g d a b => some (mkWord y 0x29#7 g d a b)
  | .fmul y g d a b => some (mkWord y 0x2A#7 g d a b)
  | .ffma y g d a b => some (mkWord y 0x2B#7 g d a b)
  | .fmin y g d a b => some (mkWord y 0x2C#7 g d a b)
  | .fmax y g d a b => some (mkWord y 0x2D#7 g d a b)
  | .fabs y g d a => some (mkWord y 0x2E#7 g d a 0#7)
  | .fneg y g d a => some (mkWord y 0x2E#7 g d a 1#7)
  | .fnabs y g d a => some (mkWord y 0x2E#7 g d a 2#7)
  | .fcls y g d a => some (mkWord y 0x2F#7 g d a 0#7)
  | .fdot2 y g d a b => some (mkWord y 0x30#7 g d a b)
  | .frnd y g d a r => some (mkWord y 0x31#7 g d a (0#4 ++ r))
  | .fscl y g d a b => some (mkWord y 0x32#7 g d a b)
  | .rcp y g d a => some (mkWord y 0x38#7 g d a 0#7)
  | .rsq y g d a => some (mkWord y 0x38#7 g d a 1#7)
  | .sqrt y g d a => some (mkWord y 0x38#7 g d a 2#7)
  | .ex2 y g d a => some (mkWord y 0x38#7 g d a 3#7)
  | .lg2 y g d a => some (mkWord y 0x38#7 g d a 4#7)
  | .sin y g d a => some (mkWord y 0x38#7 g d a 5#7)
  | .cos y g d a => some (mkWord y 0x38#7 g d a 6#7)
  | .tanh y g d a => some (mkWord y 0x38#7 g d a 7#7)
  | .cvti y g d a s t => some (mkWord y 0x40#7 g d a (s ++ t))
  | .cvtf y g d a s t => some (mkWord y 0x41#7 g d a (s ++ t))
  | .cvtb y g d a s t => some (mkWord y 0x42#7 g d a (s ++ t))
  | .cvts y g d a b => some (mkWord y 0x43#7 g d a b)
  | .qblk y g d a k t => some (mkWord y 0x44#7 g d a (k ++ t))
  | .pack y g d a b => some (mkWord y 0x45#7 g d a b)
  | .unpk y g d a w k => some (mkWord y 0x46#7 g d a (w ++ 0#2 ++ k))
  | .icmp y g c p a b => some (mkWord y 0x48#7 g (c ++ p) a b)
  | .fcmp y g c p a b => some (mkWord y 0x49#7 g (c ++ p) a b)
  | .sel y g d a b => some (mkWord y 0x4A#7 g d a b)
  | .plop y g p q r t => some (mkWord y 0x4B#7 g (0#4 ++ p) (0#1 ++ q ++ r) (0#3 ++ t))
  | .pmovP y g p a => some (mkWord y 0x4C#7 g (0#4 ++ p) a 0#7)
  | .pmovV y g d p => some (mkWord y 0x4C#7 g d (0#4 ++ p) 1#7)
  | .pmovM y g d => some (mkWord y 0x4C#7 g d 120#7 2#7)
  | .pmovS y g a => some (mkWord y 0x4C#7 g 120#7 a 3#7)
  | .icmpi y g c p a i => some (mkWord y 0x4D#7 g (c ++ p) a i)
  | .shfl y g d a b => some (mkWord y 0x50#7 g d a b)
  | .voteAll y g p q => some (mkWord y 0x51#7 g (0#4 ++ p) (0#4 ++ q) 0#7)
  | .voteAny y g p q => some (mkWord y 0x51#7 g (0#4 ++ p) (0#4 ++ q) 1#7)
  | .voteBallot y g d q => some (mkWord y 0x51#7 g d (0#4 ++ q) 2#7)
  | .voteUni y g p a => some (mkWord y 0x51#7 g (0#4 ++ p) a 3#7)
  | .red y g d a o t => some (mkWord y 0x52#7 g d a (o ++ 0#1 ++ t))
  | .scanl y g d a o x t => some (mkWord y 0x53#7 g d a (o ++ BitVec.ofBool x ++ t))
  | .conf y g d a => some (mkWord y 0x54#7 g d a 120#7)
  | .bcast y g d a => some (mkWord y 0x55#7 g d a 120#7)
  | .bra y g i => some (mkWord y 0x58#7 g 120#7 120#7 i)
  | .call y g d i => some (mkWord y 0x59#7 g d 120#7 i)
  | .ret y g a => some (mkWord y 0x5A#7 g 120#7 a 0#7)
  | .join y g => some (mkWord y 0x5B#7 g 120#7 120#7 0#7)
  | .joinM y g a => some (mkWord y 0x5B#7 g 120#7 a 1#7)
  | .loop y n a i => some (mkWord y 0x5C#7 7#3 (0#5 ++ n) a i)
  | .endl y n i => some (mkWord y 0x5D#7 7#3 (0#5 ++ n) 120#7 i)
  | .lwait y g f => some (mkWord y 0x5E#7 g 120#7 120#7 (f ++ 0#3))
  | .brx y g a b => some (mkWord y 0x5F#7 g 120#7 a b)
  | .ld y g d a f m => some (mkWord y 0x60#7 g d a (f ++ m))
  | .st y g d a m => some (mkWord y 0x61#7 g d a (15#4 ++ m))
  | .ldv y g d a f m => some (mkWord y 0x62#7 g d a (f ++ m))
  | .stv y g d a m => some (mkWord y 0x63#7 g d a (15#4 ++ m))
  | .stq y g d a f m => some (mkWord y 0x64#7 g d a (f ++ m))
  | .prf y g a m => some (mkWord y 0x65#7 g 120#7 a (61#6 ++ BitVec.ofBool m))
  | .lds y g d a f m => some (mkWord y 0x66#7 g d a (f ++ m))
  | .qrd y g d n f => some (mkWord y 0x67#7 g d (0#4 ++ n) (f ++ 0#3))
  | .qwr y g d n f => some (mkWord y 0x68#7 g d (0#4 ++ n) (f ++ 0#3))
  | .atom y g d a f m => some (mkWord y 0x6C#7 g d a (f ++ m))
  | .cas y g d a f m => some (mkWord y 0x6D#7 g d a (f ++ m))
  | .atomf y g d a f m => some (mkWord y 0x6E#7 g d a (f ++ m))
  | .atst y g d a f m => some (mkWord y 0x6F#7 g d a (f ++ m))
  | .mclaim y g d n c => some (mkWord y 0x70#7 g d (0#2 ++ n) (0#2 ++ c))
  | .mrel y g n c => some (mkWord y 0x70#7 g 120#7 (0#2 ++ n) (1#2 ++ c))
  | .mbind y g h a n => some (mkWord y 0x70#7 g h a (2#2 ++ n))
  | .mma y g d n b => some (mkWord y 0x71#7 g d (0#2 ++ n) (0#2 ++ b))
  | .mmas y g d n b => some (mkWord y 0x71#7 g d (0#2 ++ n) (1#2 ++ b))
  | .mmab y g d n b => some (mkWord y 0x71#7 g d (0#2 ++ n) (2#2 ++ b))
  | .amovRd y g d a f => some (mkWord y 0x72#7 g d a (f ++ 0#3))
  | .amovWr y g d a => some (mkWord y 0x72#7 g d a 121#7)
  | .azero y g d a => some (mkWord y 0x73#7 g d a 0#7)
  | .acvt y g d a c t => some (mkWord y 0x73#7 g d a (1#1 ++ BitVec.ofBool c ++ t))
  | .qmv y g d a => some (mkWord y 0x74#7 g d a 0#7)
  | .rjoin y g a => some (mkWord y 0x74#7 g 120#7 a 64#7)
  | .copy y g h a q m r => some (mkWord y 0x75#7 g h a (q ++ BitVec.ofBool m ++ r))
  | .gather y g h a => some (mkWord y 0x76#7 g h a 0#7)
  | .sbind y g n a => some (mkWord y 0x76#7 g (0#4 ++ n) a 1#7)
  | .stream y g a => some (mkWord y 0x76#7 g 120#7 a 2#7)
  | .streamPost y g h => some (mkWord y 0x76#7 g 120#7 h 3#7)
  | .hwaitFree y g h => some (mkWord y 0x77#7 g 120#7 h 0#7)
  | .hwaitFull y g h => some (mkWord y 0x77#7 g 120#7 h 1#7)
  | .hrel y g h => some (mkWord y 0x77#7 g 120#7 h 2#7)
  | .hstat y g d h => some (mkWord y 0x77#7 g d h 3#7)
  | .scfg y g s w => some (mkWord y 0x78#7 g 120#7 120#7 (0#2 ++ s ++ w))
  | .scan y g a => some (mkWord y 0x78#7 g 120#7 a 32#7)
  | .csend y g a => some (mkWord y 0x79#7 g 120#7 a 0#7)
  | .crecv y g a => some (mkWord y 0x79#7 g 120#7 a 32#7)
  | .cbar y g d => some (mkWord y 0x79#7 g d 120#7 64#7)
  | .grow y g d a => some (mkWord y 0x7A#7 g d a 0#7)
  | .spawn y g d a => some (mkWord y 0x7A#7 g d a 32#7)
  | .qpush y g d a s => some (mkWord y 0x7B#7 g d a (0#2 ++ s ++ 0#3))
  | .qpop y g d a s => some (mkWord y 0x7B#7 g d a (1#2 ++ s ++ 0#3))
  | .cwait y g l => some (mkWord y 0x7C#7 g 120#7 120#7 (0#4 ++ l))
  | .cancel y g l => some (mkWord y 0x7C#7 g 120#7 120#7 (4#4 ++ l))
  | .incup y g d a p n => some (mkWord y 0x7D#7 g d a (0#2 ++ BitVec.ofBool p ++ n))
  | .incrd y g d p n => some (mkWord y 0x7D#7 g d 120#7 (1#2 ++ BitVec.ofBool p ++ n))
  | .bndset y g a => some (mkWord y 0x7D#7 g 120#7 a 64#7)
  | .bndcfg y g a => some (mkWord y 0x7D#7 g 120#7 a 96#7)
  | .fence y g s m k => some (mkWord y 0x7E#7 g (s ++ 0#2 ++ BitVec.ofBool m) k 0#7)
  | .bar y s => some (mkWord y 0x7E#7 7#3 (s ++ 0#3) 120#7 1#7)
  | .qfence y g m k => some (mkWord y 0x7E#7 g (0#5 ++ m) k 2#7)
  | _ => none

/-- The instruction read from the first four bytes of a list, least significant byte first (R2, R67), with the rest of
the list. -/
def decodeBytes : List Byte → Option (Except DecodeError Instr × List Byte)
  | b0 :: b1 :: b2 :: b3 :: rest => some (decode (b3 ++ b2 ++ b1 ++ b0), rest)
  | _ => none

/-- The bytes of a word as the hardware stores it, lowest address first. -/
def wordBytes (w : Word) : List Byte :=
  [w.extractLsb' 0 8, w.extractLsb' 8 8, w.extractLsb' 16 8, w.extractLsb' 24 8]

/-- The instruction this decoder reads from an instruction whose bits are `w`, numbered as the operation table numbers
them; every word is 32 bits long. -/
def decodeTableWord (nbits w : Nat) : Option Instr :=
  match decodeBytes (wordBytes (BitVec.ofNat 32 (w % 2 ^ nbits))) with
  | some (.ok i, _) => some i
  | _ => none

end Sys2Proof
end

