-- ==== Sys2Proof/Config.lean ====
section
/-!
DEFINITION. What an implementation fixes and what the manual leaves open. A constant without a body is a free value:
nothing can be proved of it beyond what a claim assumes.
-/
namespace Sys2Proof.Config

/-- Free choices between two outcomes the manual allows (R78, R283); the argument is a counter of State. DESIGN CHOICE (log 2). -/
opaque freeBool : Nat → Bool
/-- Free 32-bit values where the manual states an effect but no value; the argument is a counter of State. DESIGN CHOICE (log 2). -/
opaque freeWord : Nat → Word
/-- The code an approximated special function returns: function number of R118, operand. One code for one operand on
every module (R119). It is used only where it lies within the bound of R118. DEDUCED (log 16). -/
opaque sfuCode : Nat → Word → Word
/-- The code of logaddexp (R265), used only where it lies within its bound. DEDUCED (log 16). -/
opaque laeCode : Word → Word → Word
/-- FLIM, the table fused at test: MHz allowed at a supply in mV (R415). It is used below the lines of R415. DEDUCED (log 17). -/
opaque flim : Nat → Nat
/-- Whether an Ed25519 signature verifies: key, message, signature (R429, R430). DEDUCED (log 18). -/
opaque edVerify : Nat → Nat → Nat → Bool
/-- Whether an ML-DSA-65 signature verifies: key, message, signature (R429, R430). DEDUCED (log 18). -/
opaque mlVerify : Nat → Nat → Nat → Bool
/-- The module's own Ed25519 signature of a message (R430). DEDUCED (log 18). -/
opaque edSign : Nat → Nat
/-- The module's own ML-DSA-65 signature of a message (R430). DEDUCED (log 18). -/
opaque mlSign : Nat → Nat
/-- The fused verification keys: algorithm (0 Ed25519, 1 ML-DSA-65), slot 0 to 3 (R429). DEDUCED (log 18). -/
opaque fusedKey : Nat → Nat → Nat
/-- The module's public identity keys: algorithm (R430). DEDUCED (log 18). -/
opaque identityKey : Nat → Nat
/-- The message over which a record or an image is signed, from its contents as a list (R428, R429). DEDUCED (log 18). -/
opaque digest : List Nat → Nat
/-- The SHA-384 digest of an image, and the digest that a manifest holds (R429). DEDUCED (log 18). -/
opaque sha384 : Nat → Nat
opaque manifestDigest : Nat → Nat
/-- Swezal's certification of an identity key: algorithm of the key, algorithm of the signature (R430). DEDUCED (log 18). -/
opaque certificate : Nat → Nat → Nat
/-- Measurement of a block whose contents the manual does not give: index (R431). DEDUCED (log 18). -/
opaque measurement : Nat → Nat
/-- The module's public value of an exchange; the session secret agreed from its own exchange and a peer's public value; and the IDE key of each
protocol that a session carries (R377, R431). DEDUCED (log 18). -/
opaque dheValue : Nat → Nat
opaque sessionSecret : Nat → Nat → Nat
opaque ideKey : Nat → Nat → Nat

/-- The window queues of a kernel, by its first word's address: descriptor, ring, depth, item bytes. `ozas` places them in the
window and the dispatcher writes their descriptors (R330); no record says where they are. DEDUCED (log 19). -/
opaque windowQueues : Nat → List (Nat × Nat × Nat × Nat)

/-- The HBM row of a 128-byte line, named as a row entry of the repair record names it (R423, R428); no rule gives the map of addresses to rows.
DESIGN CHOICE (log 58). -/
opaque hbmRow : Nat → BitVec 64

/-- Spare rows of a bank, named as a row entry of the repair record names it (R427). DESIGN CHOICE (log 58). -/
opaque spareRows : Nat → Nat

/-- HDMSZ, GiB of the HDM window, which Baruri fixes at boot; it is at most 512 (R377). DEDUCED (log 20). -/
opaque hdmsz : Nat

/-- Cores built on a die (R10). -/
def coresBuilt : Nat := 52
/-- Cores enabled on a die, at most (R12). -/
def coresPerDie : Nat := 48
/-- Compute dies (R10). -/
def dies : Nat := 4
/-- Lanes of a sheaf (R14). -/
def lanes : Nat := 32
/-- Sheaf slots of a core, sixteen a quadrant (R14). -/
def slotsPerCore : Nat := 64
/-- Copy engines of a die (R10). -/
def copyEngines : Nat := 32
/-- Local and global links (R11, R16); the local links have the numbers 0 to 30, the global ones 31 to 38. DESIGN CHOICE (log 80). -/
def localLinks : Nat := 31
def globalLinks : Nat := 8
def links : Nat := localLinks + globalLinks
/-- Ethernet ports, all on I/O die 1 (R11). -/
def ethernetPorts : Nat := 8
/-- Devices of the largest fabric: 257 groups of 32 (R16, R382). -/
def fabricDevices : Nat := 257 * 32
/-- The numbers that stand for the host beside the devices of the fabric, and for its link beside the links. DESIGN CHOICE (log 80). -/
def host : Nat := fabricDevices
def hostLink : Nat := links
/-- What the I/O dies serve (R11): the host link, the links of the fabric and the Ethernet ports by number, the Crier, the Bucket chain and the
compute dies. -/
inductive Attachment where
  | host
  | link (n : Nat)
  | port (n : Nat)
  | crierRoot
  | crierRelay
  | chainRoot
  | chainRelay
  | compute (die : Nat)
  deriving DecidableEq, Repr

/-- The I/O die that serves an attachment, where there is one of that number (R11): of the links 16 local and 4 global ones are on die 0;
which they are is a DESIGN CHOICE (log 80). -/
def ioDie : Attachment → Option Nat
  | .host => some 0
  | .link n => if n < 16 ∨ (localLinks ≤ n ∧ n < localLinks + 4) then some 0 else if n < links then some 1 else none
  | .port n => if n < ethernetPorts then some 1 else none
  | .crierRoot => some 0
  | .crierRelay => some 1
  | .chainRoot => some 0
  | .chainRelay => some 1
  | .compute d => if d < 2 then some 0 else if d < dies then some 1 else none
/-- The capability mask that an NG7-4A publishes (R389). -/
def capabilities : Word := 0x07FFFFFF
/-- Bytes of HBM: 12 stacks of 48 GiB (R10). -/
def hbmBytes : Nat := 12 * 48 * 2 ^ 30
/-- Ticks of the model's time base in one microsecond: one for each MHz of the fastest clock of R17. DESIGN CHOICE (log 11). -/
def ticksPerMicrosecond : Nat := 2900

end Sys2Proof.Config
end

