-- ==== Sys2Proof/Machine/State.lean ====
section
/-!
DEFINITION. The state of the module as plain data: sheaves and their lanes, cores, engines' queues, units, launches,
graphs, jobs, incumbents, contexts, memory, links, power, repair and trust; the reasons a step can stop; and the state
right after module reset.
-/
namespace Sys2Proof.Machine

/-! ### Values that carry poison -/

/-- Why a value is poison (R195, R290); `lost` is that of an atomic whose reply is lost for good (R388). -/
inductive PoisonKind where
  | notPresent | highWater | brokenRemote | uncorrected | race | unserviceable | lost
  deriving DecidableEq, Repr, Inhabited

/-- Poison of a register value or of a lane's access: kind, cause code of R196 once unserviceable, address; of an uncorrected
error also the 8-byte words that read badly, each of the window or of memory, for the retry (R360). -/
structure Poison where
  kind : PoisonKind := .notPresent
  cause : Nat := 0
  addr : DWord := 0
  words : List (Bool × Nat) := []
  deriving DecidableEq, Repr, Inhabited

/-! ### Lanes and sheaves -/

/-- Life of a lane (R84): live, exited, or culled. -/
inductive Life where
  | live | exited | culled
  deriving DecidableEq, Repr, Inhabited

/-- The wait at which a lane is held (R84, R94, R137, R157, R174, R318, R332, R334): a barrier's flag operation, a trapping
word that waits for another handler, and an `EXIT` whose park has not ended, among them. -/
inductive Hold where
  | none
  | lwait (flag : Nat)
  | hwait (full : Bool) (handle : Nat)
  | bar (op : Nat)
  | cwait (level : Nat)
  | queue (id : Nat)
  | trap
  | exit
  deriving DecidableEq, Repr, Inhabited

/-- What is left of a SCHED group (R72): the stall counts still to come, and the wait mask if the first governed word
has not issued. -/
structure Sched where
  stalls : List Nat := []
  wait : BitVec 12 := 0
  deriving DecidableEq, Repr, Inhabited

/-- The fields of an XMOD hint (R75). -/
structure XMod where
  flag : BitVec 4 := 15
  scope : BitVec 4 := 0
  cv : Bool := false
  colour : BitVec 3 := 0
  cp : BitVec 2 := 0
  form : BitVec 4 := 0
  /-- Its reserved bits were set, or a second `XMOD` stood before the same word: the attached word traps. -/
  bad : Bool := false
  deriving DecidableEq, Repr, Inhabited

/-- The state of one lane that is not a numbered register. -/
structure LaneSt where
  pc : DWord := 0
  life : Life := .live
  /-- The lane is in a handler (R94). -/
  handler : Bool := false
  /-- The six-bit pass count (R85). -/
  pass : Nat := 0
  limm : Option (BitVec 24) := none
  xmod : Option XMod := none
  sched : Option Sched := none
  /-- Cycle in which the lane's last non-hint word issued (R72). -/
  lastIssue : Nat := 0
  hold : Hold := .none
  /-- It waits at a `JOIN`, `LOOP` or `ENDL`, as its quadrant last judged its position there (R139, R140). -/
  joinHeld : Bool := false
  /-- The bound `BND` (R344). -/
  bnd : Word := 0
  /-- The recorded region start (R83) and the order in which starts were passed (R361). -/
  start : DWord := 0
  startSeq : Nat := 0
  /-- `RM`, `BP`, `CLR` as they stood at the region start, and which of them the open region has written (R361). -/
  startRm : Word := 0
  startBp : Word := 32
  startClr : Word := 0
  wroteRm : Bool := false
  wroteBp : Bool := false
  wroteClr : Bool := false
  /-- Replays in a row of the open region (R362). -/
  replays : Nat := 0
  /-- The open region is replayed in stepped form (R196). -/
  stepped : Bool := false
  /-- An implied fence of R292 stands at the region start. -/
  impliedFence : Bool := false
  /-- Poison that a result of the open region has returned, or a faulted store of it (R185): the first, and those after it. -/
  poisoned : Option Poison := none
  alsoMet : List Poison := []
  /-- The page that the lane's next word waits to have translated before it issues, or to be fetched from, and how the walk for it ended
  where it found no leaf (R196, R357). -/
  asked : Option (Nat × Option PoisonKind) := none
  /-- What the lane's own access met whose service was declined, or failed, for a word held before its issue (R196). -/
  declined : Option Poison := none
  /-- Reads of the open region whose single retry has failed: met again they are unserviceable (R196). -/
  failed : List Poison := []
  /-- The lane's synchronisation region (R288). -/
  syncRegion : Nat := 0
  deriving DecidableEq, Repr, Inhabited

/-- A word in flight that raised a flag: the lanes whose part is not complete (R79). Both kinds of count are read off
these. -/
structure FlagOp where
  id : Nat := 0
  flag : Nat := 0
  lanes : Mask := 0
  deriving DecidableEq, Repr, Inhabited

/-- A fixed-latency result not yet writable: register key, the value before, the cycle from which the new one reads, and the poison
that the register held before (R77, R78, R101). -/
structure Pending where
  key : Nat := 0
  old : Word := 0
  ready : Nat := 0
  poison : Option Poison := none
  deriving DecidableEq, Repr, Inhabited

/-- Where an access goes (R178). -/
inductive Space where
  | sp | pv | g | ga
  deriving DecidableEq, Repr, Inhabited

/-- What comes back for a lane: a load's bytes, a stream element, or a value already fixed at the home. -/
inductive ReplyKind where
  | load | pop (stream : Nat) (element : Nat) | value (words : List Word)
  | poison
  deriving DecidableEq, Repr, Inhabited

/-- An outstanding part of one lane: a load, a pop or a return (R181, R192, R199). -/
structure Outstanding where
  id : Nat := 0
  lane : Nat := 0
  kind : ReplyKind := .load
  space : Space := .sp
  ea : DWord := 0
  size : Nat := 0
  /-- Sign-extend a narrow value (R180). -/
  signed : Bool := false
  /-- Destination field and how many registers it takes. -/
  dst : BitVec 7 := 120
  regs : Nat := 1
  /-- Flag operation, 0 for none. -/
  op : Nat := 0
  /-- An acquire: scope code, 0 for a plain load (R189). -/
  acquire : Nat := 0
  /-- Cache policy of the word (R75). -/
  cp : Nat := 0
  /-- The peer or the host that has performed an atomic and whose reply is still to come, and the number of the request (R383, R388). -/
  peer : Option Nat := none
  request : Nat := 0
  pc : DWord := 0
  /-- The lane's open region waits for this result; an atomic's return does not belong to one. -/
  inRegion : Bool := true
  /-- The synchronisation region that the access belongs to (R288). -/
  region : Nat := 0
  deriving DecidableEq, Repr, Inhabited

/-- One lane's part of a store-queue entry. -/
structure StorePart where
  lane : Nat := 0
  ea : DWord := 0
  bytes : List Byte := []
  /-- Where translation put it (a memory key), through a leaf of which first page and how many, or why translation faulted. -/
  phys : Option Nat := none
  span : Nat × Nat := (0, 0)
  fault : Option Poison := none
  /-- The synchronisation region that the access belongs to (R288). -/
  region : Nat := 0
  deriving DecidableEq, Repr, Inhabited

/-- A store-queue entry: one store word (R182), or a push to a write stream (R200). -/
structure StoreEntry where
  id : Nat := 0
  space : Space := .sp
  parts : List StorePart := []
  colour : Nat := 0
  /-- Cache policy of the word (R75). -/
  cp : Nat := 0
  /-- A QWR: the stream it pushes to. -/
  stream : Option Nat := none
  pc : DWord := 0
  deriving DecidableEq, Repr, Inhabited

/-- The park of a sheaf after a Y word: the lanes of the words that parked it, and those positions whose stores commit when the
park ends (R82). -/
structure Park where
  lanes : Mask := 0
  late : List Mask := []
  deriving DecidableEq, Repr, Inhabited

/-- The five kinds of trap of R35, in its order. -/
inductive TrapKind where
  | emul | lane | idle | race | refused
  deriving DecidableEq, Repr, Inhabited

/-- A trap that waits for its entry (R92): the lanes, and what the presentation registers will hold. -/
structure TrapRec where
  kind : TrapKind := .emul
  lanes : Mask := 0
  emw : Word := 0
  emg : Word := 0
  emd : Word := 0
  ema : Word := 0
  emb : Word := 0
  empc : DWord := 0
  /-- Cause, address and lanes for the error queue. -/
  cause : Nat := 0
  addr : DWord := 0
  who : Mask := 0
  /-- The faulting lanes, ascending, each with its code and its address. -/
  faults : List (Nat × Nat × DWord) := []
  deriving DecidableEq, Repr, Inhabited

/-- How far the service of a fault has come (R360). -/
inductive Service where
  | none | reported | atDriver | serviced | unserviceable
  deriving DecidableEq, Repr, Inhabited

/-- A fault of the sheaf that awaits service: the lanes that will replay and what they met. -/
structure Awaiting where
  lanes : Mask := 0
  poison : Poison := {}
  stage : Service := .reported
  /-- Met in stepped replay or by an atomic before issue: nothing replays when it is serviced. -/
  inPlace : Bool := false
  /-- Then, the lanes whose own access met it, with what each met (R196). -/
  met : List (Nat × Poison) := []
  deriving DecidableEq, Repr, Inhabited

/-- An element that a read stream has fetched: number, value, poison. -/
structure StreamElem where
  k : Nat := 0
  value : DWord := 0
  poison : Option Poison := none
  deriving DecidableEq, Repr, Inhabited

/-- A stream register (R198 to R201). -/
structure StreamReg where
  bound : Bool := false
  base : DWord := 0
  stride : DWord := 0
  count : Nat := 0
  sp : Bool := false
  write : Bool := false
  wide : Bool := false
  kind : Nat := 0
  index : DWord := 0
  /-- Next element to fetch, next to give out, next to write. -/
  fetched : Nat := 0
  given : Nat := 0
  buffer : List StreamElem := []
  /-- Tentative pops: lane and element (R201); those rewound wait to be given to their lane again. -/
  tentative : List (Nat × StreamElem) := []
  rewound : List (Nat × StreamElem) := []
  deriving DecidableEq, Repr, Inhabited

/-- A timed result: when it is written, to which lanes and registers, and the flag part that falls with it. -/
structure Timer where
  due : Nat := 0
  lanes : Mask := 0
  dst : BitVec 7 := 120
  /-- Per lane: the words to write. -/
  words : List (Nat × List Word) := []
  op : Nat := 0
  deriving DecidableEq, Repr, Inhabited

/-- A sheaf: 32 lanes and the registers they share (Part 1 of the manual). It stands at a core and a slot, or nowhere
while it is saved. -/
structure Sheaf where
  unit : Nat := 0
  /-- Index within the unit. -/
  index : Nat := 0
  place : Option (Nat × Nat) := none
  /-- Generation of the slot when the sheaf was placed (R364). -/
  gen : Nat := 0
  /-- Private sheaf number (R359). -/
  privNo : Nat := 0
  lanes : Store LaneSt := {}
  /-- Thread registers, key 32 × register + lane. -/
  v : Store Word := {}
  vPoison : Store (Option Poison) := {}
  /-- Uniform registers 0 to 63. -/
  u : Store Word := {}
  uPoison : Store (Option Poison) := {}
  /-- Predicates 0 to 6, one bit a lane. -/
  p : Store Mask := {}
  lc : Store Word := {}
  bp : Word := 32
  rm : Word := 0
  clr : Word := 0
  bndc : Word := 0
  scc : Word := 0
  emw : Word := 0
  emg : Word := 0
  emd : Word := 0
  ema : Word := 0
  emb : Word := 0
  empc : DWord := 0
  flagOps : List FlagOp := []
  /-- The flag parts as they stood when the previous cycle of the core ended: what a wait tests (R80). -/
  flagsBefore : List FlagOp := []
  /-- The lanes that the cull test of this cycle finds dominated, the replica read as the previous cycle left it (R346). -/
  doomed : Mask := 0
  pending : List Pending := []
  outstanding : List Outstanding := []
  storeQueue : List StoreEntry := []
  timers : List Timer := []
  park : Option Park := none
  trap : Option TrapRec := none
  /-- Further traps of words whose first trap has been taken: they are entered once no handler of the sheaf runs (R193). -/
  trapsAfter : List TrapRec := []
  awaiting : List Awaiting := []
  streams : Store StreamReg := {}
  /-- Stores committed, and performed at the widest scope, per colour (R333). -/
  committed : Store Nat := {}
  drained : Store Nat := {}
  /-- The watchdog count, and whether a word issued in this cycle (R374). -/
  watchdog : Nat := 0
  issued : Bool := false
  /-- A save has stopped the sheaf (R367). -/
  stopped : Bool := false
  /-- It has been restored, and no word of it but hints has issued since (R73, R373). -/
  restored : Bool := false
  deriving DecidableEq, Repr, Inhabited

/-! ### Cores and engines -/

/-- State of a handle (R173). -/
inductive HState where
  | free | filling | full | draining
  deriving DecidableEq, Repr, Inhabited

structure Handle where
  state : HState := .free
  err : Bool := false
  torn : Bool := false
  ovf : Bool := false
  size : Nat := 0
  /-- The slot its last binding named, when that binding was an MBIND (R211). -/
  lastSlot : Option Nat := none
  /-- Cycle of its core in which an `HREL` last released it (R177). -/
  relAt : Option Nat := none
  deriving DecidableEq, Repr, Inhabited

/-- A slot of operand memory with its claim and descriptor (R171, R206). -/
structure Slot where
  claim : Option Nat := none
  bound : Bool := false
  handle : Nat := 0
  elem : Nat := 0
  prec : Nat := 0
  inf : Bool := false
  masked : Bool := false
  image : Store Byte := {}
  poison : Store Bool := {}
  deriving DecidableEq, Repr, Inhabited

/-- A layout record (R238), its extents and strides innermost first. -/
structure Layout where
  base : DWord := 0
  elem : Nat := 0
  store : Nat := 0
  inf : Bool := false
  check : Bool := false
  scale : Nat := 0
  exts : List Nat := []
  strides : List DWord := []
  deriving DecidableEq, Repr, Inhabited

/-- An endpoint record (R392). -/
structure Endpoint where
  raddr : DWord := 0
  rkey : Word := 0
  len : Nat := 0
  qpn : Nat := 0
  deriving DecidableEq, Repr, Inhabited

/-- The lanes that raised an engine entry, with the flag operation and the word's address. -/
structure Owner where
  sheaf : Nat := 0
  lanes : Mask := 0
  unit : Nat := 0
  ctx : Nat := 0
  op : Nat := 0
  dst : BitVec 7 := 120
  pc : DWord := 0
  deriving DecidableEq, Repr, Inhabited

/-- A copy (R245): route, handles, record addresses, records already read, limit, sampled RM. -/
structure CopyWork where
  route : Nat := 0
  h : Nat := 0
  sh : Option Nat := none
  srec : DWord := 0
  drec : DWord := 0
  src : Option Layout := none
  dst : Option Layout := none
  endpoint : Option Endpoint := none
  limit : Nat := 0
  rm : Word := 0
  /-- A fetcher copy of an MBIND. -/
  fetch : Bool := false
  /-- A copy node of a graph: its node; no handle changes state (R380). Its block's address while the block is still to be read. -/
  node : Option Nat := none
  block : Option DWord := none
  /-- Elements that were obtained before the slow path took the entry: number, code, scale (R258). -/
  got : List (Nat × Nat × Option Byte) := []
  deriving DecidableEq, Repr, Inhabited

structure GatherWork where
  h : Nat := 0
  table : Layout := {}
  dst : Layout := {}
  /-- 0 window, 1 slot, 2 virtual. -/
  dsp : Nat := 0
  idx : DWord := 0
  count : Nat := 0
  isp : Bool := false
  wide : Bool := false
  rm : Word := 0
  /-- Elements that have arrived, in destination order, while the others wait for the slow path (R254). -/
  got : List (Nat × Nat × Option Byte) := []
  deriving DecidableEq, Repr, Inhabited

structure RingWork where
  layout : Layout := {}
  slot0 : Nat := 0
  slotB : Nat := 0
  chunk : Nat := 0
  drain : Bool := false
  selem : Nat := 0
  h0 : Nat := 0
  n : Nat := 0
  rm : Word := 0
  /-- Chunks started, those started and not done, chunks done; chunks started and posts so far for each slot. -/
  next : Nat := 0
  running : List Nat := []
  done : Nat := 0
  begun : Store Nat := {}
  posts : Store Nat := {}
  /-- Elements read and not yet written: a running chunk's, obtained before the slow path took it, and drained ones whose block is not
  complete; number, code (none for poison), scale. -/
  held : List (Nat × Option Nat × Option Byte) := []
  deriving DecidableEq, Repr, Inhabited

/-- The operation of a Mill entry (R212, R217, R224, R225). -/
inductive MillOp where
  | mma | mmas | mmab | azero | acvt
  deriving DecidableEq, Repr, Inhabited

structure MillWork where
  op : MillOp := .mma
  tile : Nat := 0
  /-- Panel length, or tile count of an AZERO. -/
  n : Nat := 1
  aSlot : Nat := 0
  bSlot : Nat := 0
  form : Nat := 0
  bitmap : Nat := 0
  rm : Word := 0
  addr : Nat := 0
  target : Nat := 0
  sc : Bool := false
  inf : Bool := false
  tr : Bool := false
  /-- It started on an unfillable slot (R215). -/
  unfillable : Bool := false
  /-- Next block of a saved panel, and the steps done so far (R222, R236). -/
  block : Nat := 0
  steps : Nat := 0
  /-- The descriptors of each block's slots as its word found them at issue: ELEM, P, INF, MASKED of A and B (R206, R210). -/
  descs : List (Nat × Slot × Slot) := []
  /-- The slots of each block as its start found them: A and B (R213). -/
  tilesRead : List (Slot × Slot) := []
  deriving DecidableEq, Repr, Inhabited

/-- The product block of R229 as read at issue. -/
structure ProductBlock where
  addr : Nat := 0
  mrec : DWord := 0
  slc : Nat := 0
  n : Nat := 0
  x : Nat := 0
  xstride : Nat := 0
  y : Nat := 0
  h : Nat := 0
  atile : Nat := 0
  deriving DecidableEq, Repr, Inhabited

/-- The matrix record's fields that a product reads (R227). -/
structure MatrixRec where
  cold : DWord := 0
  hot0 : DWord := 0
  hot1 : DWord := 0
  pmap0 : DWord := 0
  pmap1 : DWord := 0
  census : DWord := 0
  rows : Nat := 0
  k : Nat := 0
  hbud : Nat := 0
  slice : Nat := 0
  rstride : Nat := 0
  kind : Nat := 0
  inf : Bool := false
  prec : Nat := 0
  theta : Word := 0
  gen : Nat := 0
  fallow : Nat := 0
  deriving DecidableEq, Repr, Inhabited

/-- A scan block of R268 as read at issue. -/
structure ScanWork where
  input : Nat := 0
  istr : Nat := 0
  out : Nat := 0
  ostr : Nat := 0
  cin : Nat := 0
  tot : Nat := 0
  nt : Nat := 0
  ap : Bool := false
  ost : Bool := false
  ck : Nat := 0
  rm : Word := 0
  scc : Word := 0
  /-- Next tile and running carry of a scan under way (R279): components, `none` for poison. -/
  tile : Nat := 0
  carry : Option (List (Option Word)) := none
  /-- What its start has computed from that tile on (R269): each tile's outputs by window address, and the carry after it. -/
  tiles : List (List (Nat × List (Option Word)) × List (Option Word)) := []
  deriving DecidableEq, Repr, Inhabited

/-- A carry on the chain (R272): its components, `none` for poison; a broken carry has none. -/
structure Carry where
  words : List (Option Word) := []
  broken : Bool := false
  deriving DecidableEq, Repr, Inhabited

/-- What an engine entry does. -/
inductive Work where
  | copy (c : CopyWork)
  | gather (g : GatherWork)
  | ring (r : RingWork)
  | mbind (slot h : Nat) (rec : Layout) (rm : Word)
  | mrel (slot n : Nat)
  | mill (m : MillWork)
  | qmv (b : ProductBlock) (m : MatrixRec) (gen : Nat) (rows : List Nat) (opened : Bool) (err : Option Poison)
  /-- Its block; once it has started, its record as it read it, with the product's generation, the rows whose census is still to be raised with
  their fires, and whether the product counts. -/
  | rjoin (b : ProductBlock) (m : MatrixRec) (fires : List (Nat × Nat)) (begun : Option Bool)
  | scan (w : ScanWork)
  | csend (addr scc : Nat) (carry : Option Carry)
  | crecv (addr scc : Nat)
  | cbar
  | fence (id : Nat)
  deriving DecidableEq, Repr, Inhabited

/-- The queues of a core, and a die's graph copy queue (R252, R380). -/
inductive QName where
  | cq0 | cq1 | cq2 | cq3 | gq | mq | nq | sq | fq | graph
  deriving DecidableEq, Repr, Inhabited

/-- Stage of an engine entry. -/
inductive Stage where
  | queued | started | slow | done
  deriving DecidableEq, Repr, Inhabited

/-- An entry of an engine queue; entries of one queue stand in State in queue order. -/
structure Entry where
  id : Nat := 0
  queue : QName := .cq0
  /-- Core whose queue holds it, or the die for the graph copy queue. -/
  core : Nat := 0
  owner : Owner := {}
  work : Work := .cbar
  stage : Stage := .queued
  /-- Cycle before which it does not complete (R214, R270), and cycle of its core in which its word issued (R172). -/
  due : Nat := 0
  issued : Nat := 0
  /-- No lane owns it any more: every owner was culled (R235, R261). -/
  orphan : Bool := false
  /-- It lies in the saved image of its unit (R236, R262). -/
  saved : Bool := false
  deriving DecidableEq, Repr, Inhabited

/-- A loop body resident in a quadrant's buffer: first word, address of the `ENDL`, and the sheaves that have used it and not left it
(R145). -/
structure LoopBody where
  quad : Nat := 0
  first : DWord := 0
  endl : DWord := 0
  users : List Nat := []
  deriving DecidableEq, Repr, Inhabited

structure Core where
  enabled : Bool := true
  closed : Bool := false
  pword : Word := 0
  /-- GEN of each sheaf slot (R364), the sheaf each quadrant chose last (R85). -/
  slotGen : Store Nat := {}
  lastSlot : Store Nat := {}
  handles : Store Handle := {}
  slots : Store Slot := {}
  /-- Tile elements, key 1,024 × tile + 32 × row + column, with poison marks (R166, R215). -/
  tiles : Store Word := {}
  tilePoison : Store Bool := {}
  /-- Owner of each tile's last write: a unit. -/
  tileUnit : Store (Option Nat) := {}
  tileCtx : Option Nat := none
  mstep : Word := 0
  /-- Cycle in which the array is free again (R213). -/
  millFree : Nat := 0
  /-- Read cache: line keys and bytes (R283). -/
  cache : List (Nat × List Byte) := []
  /-- Resident loop bodies (R145). -/
  loops : List LoopBody := []
  /-- A save request being carried out, with the end of its drain, and those held (R367, R371). -/
  saving : Option (Nat × Nat) := none
  held : List (Nat × Bool × Nat) := []
  /-- Units whose restore here has been asked for and waits for their images, or for their numbers, to be free (R370, R373). -/
  waiting : List Nat := []
  deriving DecidableEq, Repr, Inhabited

/-- A translation held by a TLB: die, core for a core's own, context, first 64 KiB page, pages, leaf (R357). -/
structure TlbEntry where
  die : Nat := 0
  core : Option Nat := none
  ctx : Nat := 0
  page : Nat := 0
  pages : Nat := 1
  leaf : DWord := 0
  deriving DecidableEq, Repr, Inhabited

/-- A waiting miss (R357). -/
structure Miss where
  die : Nat := 0
  ctx : Nat := 0
  page : Nat := 0
  deriving DecidableEq, Repr, Inhabited

/-! ### Race detector -/

/-- A recorded access: thread, synchronisation region, whether a synchronising word made it, order (R290, R291). -/
structure AccessRec where
  sheaf : Nat := 0
  lane : Nat := 0
  region : Nat := 0
  sync : Bool := false
  seq : Nat := 0
  deriving DecidableEq, Repr, Inhabited

/-- The records of one 8-byte granule: of the virtual space (`window` none) or of a unit's window. -/
structure Granule where
  window : Option Nat := none
  key : Nat := 0
  die : Nat := 0
  write : Option AccessRec := none
  reads : List AccessRec := []
  deriving DecidableEq, Repr, Inhabited

/-! ### Units, launches, graphs, jobs -/

/-- A launch record (R326). -/
structure LaunchRec where
  kpc : DWord := 0
  pword : Word := 0
  chn : Bool := false
  sheaves : Nat := 1
  nv : Nat := 104
  win : Nat := 0
  priv : Nat := 0
  prio : Nat := 0
  extents : Nat := 1
  gx : Nat := 1
  gy : Nat := 1
  gz : Nat := 1
  args : DWord := 0
  cmap : DWord := 0
  temul : DWord := 0
  tlane : DWord := 0
  tidle : DWord := 0
  trace : DWord := 0
  tref : DWord := 0
  /-- Resource set of R34. -/
  handles : List Nat := []
  slots : List Nat := []
  deriving DecidableEq, Repr, Inhabited

/-- Where a unit stands. -/
inductive UnitStage where
  | matched | listed | resident | saved | complete | removed
  deriving DecidableEq, Repr, Inhabited

/-- What a save takes from the core for a unit (R177, R369). -/
structure Image where
  handles : Store Handle := {}
  slots : Store Slot := {}
  tiles : Store Word := {}
  tilePoison : Store Bool := {}
  tileUnit : Store (Option Nat) := {}
  /-- Slot order of the sheaves. -/
  order : List Nat := []
  deriving DecidableEq, Repr, Inhabited

/-- An address range declared by a spawn: write or read, base, length (R322). -/
structure Range where
  write : Bool := false
  base : Nat := 0
  len : Nat := 0
  deriving DecidableEq, Repr, Inhabited

structure UnitSt where
  job : Nat := 0
  ctx : Nat := 0
  launch : Nat := 0
  index : Nat := 0
  spawned : Bool := false
  grown : Bool := false
  ux : Nat := 0
  uy : Nat := 0
  uz : Nat := 0
  core : Option Nat := none
  stage : UnitStage := .matched
  lrec : LaunchRec := {}
  args : DWord := 0
  /-- Scratchpad window: bytes, poison of its 8-byte words, poison of single 4-byte outputs of an engine (R231), offset in the share
  (R167). -/
  win : Store Byte := {}
  winPoison : Store Bool := {}
  winHalf : Store Bool := {}
  winOff : Nat := 0
  image : Option Image := none
  /-- Cancel generation (R319), and the mark that its lanes are to be culled. -/
  cancelGen : Nat := 0
  cancelled : Bool := false
  parent : Option Nat := none
  ranges : List Range := []
  npred : Nat := 0
  succs : List Nat := []
  /-- Stamp of a spawn issued with a cull test in force: BNDC and BND (R349). -/
  stamp : Option (Word × Word) := none
  /-- The record named for it was unreadable or malformed: it completes without running (R322). -/
  void : Bool := false
  deriving DecidableEq, Repr, Inhabited

/-- Chain state of a member (R272): unit index, counters, buffer. -/
structure Member where
  unit : Nat := 0
  sent : Nat := 0
  rcvd : Nat := 0
  cbars : Nat := 0
  buffer : List Carry := []
  /-- Rounds whose carry to this member was broken. -/
  broken : List Nat := []
  deriving DecidableEq, Repr, Inhabited

/-- How a launch's chain goes on at other devices: the device that holds the members before it and the one that holds those after it,
and whether the first and the last member of the whole chain are its own (R276); whether the device after it has been told that the last
member here has stopped, the rounds that it has been told of, and whether it knows that no member here is left. -/
structure Span where
  before : Nat := 0
  after : Nat := 0
  first : Bool := false
  last : Bool := false
  stopTold : Bool := false
  rounds : Nat := 0
  allTold : Bool := false
  deriving DecidableEq, Repr, Inhabited

structure LaunchSt where
  job : Nat := 0
  /-- Its number within the job (R364). -/
  number : Nat := 0
  ctx : Nat := 0
  node : Nat := 0
  lrec : LaunchRec := {}
  /-- Group count and next index to dispatch. -/
  count : Nat := 0
  next : Nat := 0
  members : List Member := []
  span : Option Span := none
  /-- A cancel or the job's end has removed indices that had not been dispatched. -/
  removed : Bool := false
  deriving DecidableEq, Repr, Inhabited

inductive NodeKind where
  | launch | copy
  deriving DecidableEq, Repr, Inhabited

inductive NodeStage where
  | waiting | launched | complete
  deriving DecidableEq, Repr, Inhabited

/-- A graph node (R325, R380). -/
structure Node where
  phase : Nat := 0
  graph : Nat := 0
  index : Nat := 0
  kind : NodeKind := .launch
  npred : Nat := 0
  succs : List Nat := []
  obj : DWord := 0
  launch : Option Nat := none
  span : Option Span := none
  stage : NodeStage := .waiting
  deriving DecidableEq, Repr, Inhabited

structure Phase where
  job : Nat := 0
  ctx : Nat := 0
  queue : Nat := 0
  /-- The phase end has been taken: completion word address and value. -/
  ending : Option (DWord × DWord) := none
  refused : Bool := false
  complete : Bool := false
  deriving DecidableEq, Repr, Inhabited

/-- An incumbent register (R337): declaration word, value, payload. -/
structure Inc where
  decl : Word := 0
  value : Word := 0
  payload : Word := 0
  deriving DecidableEq, Repr, Inhabited

/-- A replica of an incumbent at a core or a die that a commit has not reached yet, with what it still holds (R338). A
replica that is not listed holds what the root holds. -/
structure Replica where
  job : Nat := 0
  reg : Nat := 0
  onDie : Bool := false
  place : Nat := 0
  value : Word := 0
  payload : Word := 0
  deriving DecidableEq, Repr, Inhabited

structure Job where
  ctx : Nat := 0
  homeDie : Nat := 0
  incs : Store Inc := {}
  dropped : Word := 0
  rcvd : DWord := 0
  /-- Remote enqueues sent and not acknowledged, spawned units so far, devices holding the other parts. -/
  remoteOut : List Nat := []
  spawned : Nat := 0
  parts : List Nat := []
  /-- Launches so far (R364). -/
  launched : Nat := 0
  reach : Word := 0
  /-- RCVD of its parts, its own first, where the last sweep found every counter zero (R316). -/
  swept : Option (List Nat) := none
  /-- Cause with which it ended (a TYPE of R365, 0 for the host's request), or completion. -/
  ended : Option Nat := none
  complete : Bool := false
  /-- Progress of its part in this cycle (R374). -/
  progressed : Bool := false
  deriving DecidableEq, Repr, Inhabited

/-- A place in a die's dispatch list (R328): a launch's undispatched indices, or a spawned unit. -/
structure Listed where
  die : Nat := 0
  prio : Nat := 0
  pass : Nat := 0
  launch : Option Nat := none
  unit : Option Nat := none
  deriving DecidableEq, Repr, Inhabited

/-- A spawn on its way to the matcher (R322, R323), or a `GROW` on its way to the dispatcher (R320). -/
structure SpawnReq where
  id : Nat := 0
  owner : Owner := {}
  core : Nat := 0
  krec : DWord := 0
  args : DWord := 0
  ranges : List Range := []
  remote : Option Nat := none
  /-- A `GROW`: its increment. -/
  grow : Option Nat := none
  /-- A remote enqueue has left and waits for its acknowledgement (R315). -/
  sent : Bool := false
  cancelGen : Nat := 0
  stamp : Option (Word × Word) := none
  deriving DecidableEq, Repr, Inhabited

/-- A cancel whose flag waits for the units it covered (R319). -/
structure Sweep where
  owner : Owner := {}
  units : List Nat := []
  deriving DecidableEq, Repr, Inhabited

/-- The name of a hardware queue: the unit for a window queue, and the descriptor's address (R330). -/
structure QKey where
  unit : Option Nat := none
  job : Nat := 0
  addr : Nat := 0
  deriving DecidableEq, Repr, Inhabited

/-- A push or pop word on its way to the queue's home, or waiting there: lanes still to serve with their items (R332). -/
structure QWord where
  id : Nat := 0
  key : QKey := {}
  push : Bool := false
  owner : Owner := {}
  size : Nat := 4
  items : List (Nat × List Byte) := []
  stamp : List Nat := []
  /-- It has reached the home and joined the waiter list. -/
  waiting : Bool := false
  deriving DecidableEq, Repr, Inhabited

/-- The stamp of an item in a ring: queue, number of the item, pusher, counts per colour (R333). -/
structure QStamp where
  key : QKey := {}
  number : Nat := 0
  sheaf : Nat := 0
  counts : List Nat := []
  deriving DecidableEq, Repr, Inhabited

/-- An item given to a lane and not yet written, with the stamp it waits on (R333). -/
structure QDelivery where
  id : Nat := 0
  word : Nat := 0
  owner : Owner := {}
  lane : Nat := 0
  bytes : List Byte := []
  sheaf : Nat := 0
  counts : List Nat := []
  deriving DecidableEq, Repr, Inhabited

/-- A message to the Crier root, or its reply: INCUP candidates, or an INCRD of the root (R341, R342). -/
structure IncMsg where
  id : Nat := 0
  owner : Owner := {}
  job : Nat := 0
  reg : Nat := 0
  read : Bool := false
  payload : Bool := false
  /-- Lane, candidate, payload on the way; lane, old value, old payload on the way back. -/
  lanes : List (Nat × Word × Word) := []
  applied : Bool := false
  deriving DecidableEq, Repr, Inhabited

/-! ### Contexts, host, fabric -/

/-- Budget kinds of R375, in the order of the descriptor. -/
inductive Budget where
  | hbm | fabric | copy | mill | quern
  deriving DecidableEq, Repr, Inhabited

structure Context where
  ptb : Nat := 0
  spw : Bool := false
  prio : Nat := 0
  hwm : Nat := 0
  pvb : Nat := 0
  pspan : Nat := 0
  eqb : Nat := 0
  eqn : Nat := 0
  head : Nat := 0
  tail : Nat := 0
  lost : Nat := 0
  /-- How often Baruri has notified the host that TAIL has moved (R363). -/
  notices : Nat := 0
  /-- Budgets per period, use in this period, overrun carried into it (R375, R376). -/
  budgets : List Nat := [0xFFFFFFFF, 0xFFFFFFFF, 0xFFFFFFFF, 0xFFFFFFFF, 0xFFFFFFFF]
  used : List Nat := [0, 0, 0, 0, 0]
  overrun : List Nat := [0, 0, 0, 0, 0]
  /-- Queue pairs it owns (R391). -/
  qps : List Nat := []
  deriving DecidableEq, Repr, Inhabited

/-- A submission queue (R379): base, size, tail the host has rung, entries taken, phase being submitted. -/
structure SubQueue where
  ctx : Nat := 0
  queue : Nat := 0
  base : Nat := 0
  size : Nat := 0
  tail : Nat := 0
  taken : Nat := 0
  phase : Option Nat := none
  /-- The rest of a refused phase is discarded. -/
  discarding : Bool := false
  deriving DecidableEq, Repr, Inhabited

/-- A failed store to host or peer memory, not yet reported (R366), with what names the sheaf as it stood at the commit. -/
structure StoreFailure where
  id : Nat := 0
  sheaf : Nat := 0
  lane : Nat := 0
  ctx : Nat := 0
  job : Nat := 0
  launch : Nat := 0
  unit : Nat := 0
  pc : DWord := 0
  addr : DWord := 0
  bytes : Nat := 0
  peer : Nat := 0
  gen : Nat := 0
  core : Nat := 0
  slot : Nat := 0
  /-- The cause it met (R386, R387). -/
  cause : Nat := 5
  deriving DecidableEq, Repr, Inhabited

/-- A link: whether it is down, the capability mask that this end has published on it (R389), the last results that its ends published, and the
lower common result to which they last retrained (R385). -/
structure Link where
  down : Bool := false
  mask : Word := Config.capabilities
  resultA : Word := 0
  resultB : Word := 0
  common : Word := 0
  deriving DecidableEq, Repr, Inhabited

/-- An entry of the route tables: the link of this device by which a route begins, and whether the route is minimal (R382). -/
structure Route where
  link : Nat := 0
  minimal : Bool := true
  deriving DecidableEq, Repr, Inhabited

/-- What this device knows of the fabric (R382): its own number; the global links, each by the devices at its ends, its own in the order of
their numbers; the links between other devices that are down; and the links of its own that have changed since the routes were last
computed. -/
structure Fabric where
  number : Nat := 0
  globals : List (Nat × Nat) := []
  down : List (Nat × Nat) := []
  stale : List Nat := []
  deriving DecidableEq, Repr, Inhabited

/-- What this device knows of a peer, or of the host: capability mask, route, the length of its export for each job that it has admitted;
while its route is broken, the cycles of each die when it broke (R382, R386, R387, R389). -/
structure Peer where
  mask : Word := 0
  known : Bool := false
  broken : Bool := false
  unreachable : Bool := false
  exports : List (Nat × Nat) := []
  brokenAt : List Nat := []
  route : Option Route := none
  deriving DecidableEq, Repr, Inhabited

/-- A message of the ordered channel: the carry of an engine entry; a notice of a chain to the device after this one, that the last member here
has stopped after so many rounds or that a round is complete here, whether a carry of it was broken and whether that holds of every later
round too (R276); or a Crier forward: job, register, value, payload (R384). -/
inductive ChanMsg where
  | carry (entry : Nat)
  | stopped (launch sent : Nat)
  | round (launch round : Nat) (broken onward : Bool)
  | offer (job reg : Nat) (value payload : Word)
  deriving DecidableEq, Repr, Inhabited

/-- The ordered channel to a peer and from it: messages sent and not acknowledged, oldest first; messages that a route change holds
back; whether old-route messages are still to be acknowledged; and how many messages have come from the peer (R384). -/
structure Channel where
  sent : List ChanMsg := []
  held : List ChanMsg := []
  draining : Bool := false
  received : Nat := 0
  deriving DecidableEq, Repr, Inhabited

/-- A reply this device holds for a peer's request: the bytes of the answer, or the cause of a refusal, and the cycles of each die when it
was made (R383). -/
structure HeldReply where
  src : Nat := 0
  seq : Nat := 0
  value : List Byte := []
  refused : Option Nat := none
  since : List Nat := []
  deriving DecidableEq, Repr, Inhabited

/-- A request of this device that its target has not acknowledged yet: its number, the peer or host, how often it has been sent (R383). -/
structure Request where
  seq : Nat := 0
  peer : Nat := 0
  sent : Nat := 1
  deriving DecidableEq, Repr, Inhabited

/-- The answer to the host's last read of the HDM window: where, its bytes, and the poison indication of CXL (R378, R424). -/
structure HostAnswer where
  addr : Nat := 0
  bytes : List Byte := []
  poison : Bool := false
  deriving DecidableEq, Repr, Inhabited

/-- An invalidation that is not complete: context, pages, and the store-queue entries translated through what it has taken from the TLBs
and not yet performed, each by sheaf, entry and lane (R358). -/
structure Invalidation where
  ctx : Nat := 0
  first : Nat := 0
  last : Nat := 0
  waits : List (Nat × Nat × Nat) := []
  deriving DecidableEq, Repr, Inhabited

/-- What the device and Baruri keep of a matrix record (R401, R405 to R408), keyed by the record's physical address. -/
structure Census where
  mrec : Nat := 0
  ctx : Nat := 0
  registered : Bool := false
  budget : Nat := 0
  policy : Option (List (Nat × Nat)) := none
  /-- Sweeps begun or owed, the rows that the sweep under way has halved, a ranking owed (R401, R405). -/
  sweeps : Nat := 0
  swept : Nat := 0
  rankOwed : Bool := false
  /-- A migration under way, the context it is charged to, the rows whose map entries it has copied, whether it holds a copy engine
  (R406, R407). -/
  migrating : Bool := false
  mctx : Nat := 0
  mapped : Nat := 0
  engine : Bool := false
  /-- Rows whose COLD bytes have changed and that are to be listed again, and where the map and the list for them go (R408). -/
  stale : List Nat := []
  relist : Nat × Nat := (0, 0)
  /-- A field of the record has changed while products were open or a migration ran (R403). -/
  upset : Bool := false
  /-- Where its counters lie in memory: keys and lengths (R400). -/
  counts : List (Nat × Nat) := []
  /-- How often Baruri has been notified of the record, and the rows whose counters it has been told are lost (R401, R407, R410). -/
  notices : Nat := 0
  lostRows : List Nat := []
  deriving DecidableEq, Repr, Inhabited

/-! ### Power, repair, trust -/

/-- A compute die: clocks, the registers of R414, its share of model ticks. -/
structure Die where
  dvf : Word := 0x009602A3#32
  dvs : Word := 0x000002A3#32
  /-- Cycles run since module reset (R160), and the fraction of a cycle accumulated in ticks. -/
  cycle : Nat := 0
  acc : Nat := 0
  /-- Whether the tick under way holds a cycle of the die. -/
  running : Bool := true
  /-- The core clock in MHz: that of the set point once it has switched (R416). -/
  clock : Nat := 2400
  /-- Clock set by throttling, in MHz (R418). -/
  throttle : Option Nat := none
  /-- The tick in which the supply takes its next step of a ramp (R416). -/
  rampAt : Nat := 0
  /-- The 128-byte lines that the die's L2 holds, and those that the directories of its controllers hold while it is gated, newest first
  (R10, R375, R420). -/
  l2 : List Nat := []
  directory : List Nat := []
  deriving DecidableEq, Repr, Inhabited

/-- The repair record (R428). -/
structure Repair where
  seq : Nat := 0
  fails : List Nat := [0, 0, 0, 0]
  rows : List DWord := []
  deriving DecidableEq, Repr, Inhabited

/-- A firmware image in flash: its manifest, signatures and version, and the image itself (R429). -/
structure FwImage where
  manifest : Nat := 0
  edSig : Nat := 0
  mlSig : Nat := 0
  version : Nat := 0
  image : Nat := 0
  deriving DecidableEq, Repr, Inhabited

/-- The boot state (R429): banks, fused revocations and counter, running image. -/
structure Trust where
  bank0 : Option FwImage := none
  bank1 : Option FwImage := none
  revokedEd : BitVec 4 := 0
  revokedMl : BitVec 4 := 0
  counter : Nat := 0
  image : Option FwImage := none
  triedBanks : List Nat := []
  recovery : Bool := false
  deriving DecidableEq, Repr, Inhabited

/-- Where an SPDM connection stands (R431). -/
inductive SpdmStage where
  | idle | version | capabilities | negotiated | keyed | session
  deriving DecidableEq, Repr, Inhabited

structure Spdm where
  stage : SpdmStage := .idle
  transcript : List Nat := []
  secret : Nat := 0
  /-- The last answer given: its parts. -/
  answer : List Nat := []
  deriving DecidableEq, Repr, Inhabited

/-- Package registers Baruri sets: DRAIN (R368), WDOG (R374), PEERTO (R387), AGE (R329), SCRUB (R425), HDMSZ (R377). -/
structure PkgRegs where
  drain : Nat := 16384
  wdog : Nat := 2 ^ 24
  peerto : Nat := 2 ^ 22
  age : Nat := 16
  scrub : Nat := 24
  hdmsz : Nat := 0
  rowThreshold : Nat := 16
  deriving DecidableEq, Repr, Inhabited

/-! ### The issue latch and the whole -/

/-- What undoes a choice one of whose words proves not ready: the sheaf chosen last before it, the lanes' pass counts before it, and
the positions that have proved not ready in this cycle (R84, R85). -/
structure Trial where
  last : Nat := 0
  passes : List Nat := []
  skip : List (Nat × Mask) := []
  deriving DecidableEq, Repr, Inhabited

/-- The positions a quadrant has chosen this cycle and that have not issued yet, in order, with the sheaf as it stood
before either word writes (R85, R87). -/
structure Latch where
  sheaf : Nat := 0
  positions : List Mask := []
  view : Sheaf := {}
  /-- Chosen positions whose next word is the `ENDL` of a resident body, with its address; and that of the position issued last,
  whose `ENDL` acts in this cycle too (R145). -/
  ends : List (Mask × DWord) := []
  tail : Option (Mask × DWord) := none
  /-- The choice has still to be tried: whether every word of it is ready after all (R84). -/
  trial : Option Trial := none
  deriving DecidableEq, Repr, Inhabited

/-- The issuing position of the word being executed. -/
structure Cur where
  sheaf : Nat := 0
  lanes : Mask := 0
  view : Sheaf := {}
  deriving DecidableEq, Repr, Inhabited

/-- The state of the module. -/
structure State where
  /-- Bytes of HBM, host memory and peer windows under one key (Machine/Ops.lean: memKey), and poison per 8-byte word. -/
  mem : List Host.Cell := []
  memPoison : Store Bool := {}
  /-- The check value that a line holds, where it is not the CRC-32C of its bytes as they stand (R422). -/
  checks : Store (Option Word) := {}
  sheaves : Store (Option Sheaf) := {}
  cores : Store Core := {}
  entries : List Entry := []
  units : Store (Option UnitSt) := {}
  launches : Store (Option LaunchSt) := {}
  nodes : Store (Option Node) := {}
  phases : Store (Option Phase) := {}
  jobs : Store (Option Job) := {}
  listed : List Listed := []
  spawns : List SpawnReq := []
  sweeps : List Sweep := []
  replicas : List Replica := []
  incMsgs : List IncMsg := []
  qwords : List QWord := []
  qstamps : List QStamp := []
  qdeliveries : List QDelivery := []
  contexts : Store (Option Context) := {}
  tlbs : List TlbEntry := []
  misses : List Miss := []
  granules : List Granule := []
  subQueues : List SubQueue := []
  storeFailures : List StoreFailure := []
  links : Store Link := {}
  peers : Store Peer := {}
  channels : Store Channel := {}
  fabric : Fabric := {}
  /-- The GiBs of the HDM window that are in device bias (R377). -/
  hdmBias : Store Bool := {}
  hostAnswer : HostAnswer := {}
  /-- What host memory implements: `ATOM` forms 0 and 4 and `CAS`, at both widths (R194, R390). -/
  hostMask : Word := 0x000C2211#32
  heldReplies : List HeldReply := []
  /-- The number of the last request that this device has sent into the fabric, and those not acknowledged (R383). -/
  requests : Nat := 0
  unacked : List Request := []
  invalidations : List Invalidation := []
  /-- Exports: job, base, length (R386). -/
  exports : List (Nat × Nat × Nat) := []
  msix : Store Nat := {}
  /-- Census queue of commands: record and context (R406); records known to Baruri. -/
  censusQueue : List (Nat × Nat) := []
  census : List Census := []
  /-- OPEN counts left raised until their record is reachable again: context, record address, parity (R232). -/
  openLeft : List (Nat × DWord × Nat) := []
  /-- Ethernet ports and how many congestion notices each has had (R391). -/
  congestion : Store Nat := {}
  dies : Store Die := {}
  ticks : Nat := 0
  period : Nat := 0
  regs : PkgRegs := {}
  /-- Corrected errors per HBM row in this scrub period, and the number of the period; rows whose pages Dzisidin has been asked to move; rows
  whose frames are retired (R423, R427). -/
  rowErrors : Store Nat := {}
  scrubPeriod : Nat := 0
  moveAsked : List DWord := []
  /-- Corrected errors per SRAM bank and per L2 set (R423). -/
  bankErrors : Store Nat := {}
  setErrors : Store Nat := {}
  retiredRows : List DWord := []
  repair : Repair := {}
  /-- The built core of its die that each logical core is, fixed by the last reset; and the mask of enabled cores that Baruri reports
  to Dzisidin (R12). -/
  built : List (Option Nat) := (List.range (Config.coresPerDie * Config.dies)).map fun k => some (k % Config.coresPerDie)
  coreMask : BitVec 192 := BitVec.allOnes 192
  trust : Trust := {}
  spdm : Spdm := {}
  /-- The IDE keys that a session has carried, one for each protocol (R377, R431). -/
  ideKeys : List Nat := []
  /-- The core and quadrant whose cycle came last in this tick. -/
  turn : Nat := 0
  /-- The first core whose turn to take in a unit has not come in this tick (R329). -/
  admitFrom : Nat := 0
  latch : Option Latch := none
  cur : Option Cur := none
  agenda : List Instr := []
  fresh : Nat := 1
  free : Nat := 0
  deriving DecidableEq, Repr, Inhabited

/-- Why the machine stops. -/
inductive Fault where
  /-- Raised by exec for a word when no position is issuing (State.cur names no sheaf that exists). Step never does so: a
  word issues only from the latch. Safe: the hardware has no such state. -/
  | noIssuer
  deriving DecidableEq, Repr

/-- Why a step is refused. -/
inductive Refusal where
  /-- An instruction whose arm has no meaning yet. Safe: the model stops where the hardware goes on. -/
  | notModelled (mnemonic : String)
  deriving DecidableEq, Repr

/-- What a step answers. -/
abbrev Out := Host.Outcome State Fault Refusal

/-- The module right after reset: the Reset values of the manual's tables, no context, no job, no sheaf, nothing listed in
memory. DESIGN CHOICE (log 4 to 9) for the values that no rule gives. -/
def State.reset : State := {}

end Sys2Proof.Machine
end

