-- ==== Sys2Proof/Machine/Store.lean ====
section
/-!
DEFINITION. Operations of the sparse store: reading, writing in canonical form, and the canonical form itself.
-/
namespace Sys2Proof
variable {α : Type}

/-- The value listed for a key, if one is. -/
def Store.find (key : Nat) : List (Nat × α) → Option α
  | [] => none
  | (k, v) :: rest => if k = key then some v else Store.find key rest

/-- Insert a pair, keeping keys strictly rising. -/
def Store.insert (key : Nat) (v : α) : List (Nat × α) → List (Nat × α)
  | [] => [(key, v)]
  | (k, w) :: rest =>
    if key < k then (key, v) :: (k, w) :: rest
    else if key = k then (key, v) :: rest
    else (k, w) :: Store.insert key v rest

/-- Remove a key. -/
def Store.erase (key : Nat) : List (Nat × α) → List (Nat × α)
  | [] => []
  | (k, w) :: rest => if k = key then Store.erase key rest else (k, w) :: Store.erase key rest

/-- What a key reads as: its listed value, or the default. -/
def Store.get [Inhabited α] (m : Store α) (key : Nat) : α :=
  (Store.find key m.cells).getD default

/-- Write one key; writing the default removes the entry, so equal tables are equal data. -/
def Store.set [Inhabited α] [DecidableEq α] (m : Store α) (key : Nat) (v : α) : Store α :=
  if v = default then ⟨Store.erase key m.cells⟩ else ⟨Store.insert key v m.cells⟩

/-- Every listed key is above `lo` and keys strictly rise from it. -/
def Store.rising : Option Nat → List (Nat × α) → Bool
  | _, [] => true
  | lo, (k, _) :: rest => (match lo with | none => true | some l => decide (l < k)) && Store.rising (some k) rest

/-- The canonical form: keys strictly rising, no listed value equal to what an unlisted key reads as. -/
def Store.wf [Inhabited α] [DecidableEq α] (m : Store α) : Bool :=
  Store.rising none m.cells && m.cells.all (fun c => decide (c.2 ≠ default))

/-- Apply a function to one key's value. -/
def Store.modify [Inhabited α] [DecidableEq α] (m : Store α) (key : Nat) (f : α → α) : Store α :=
  m.set key (f (m.get key))

/-- Write a list of pairs in order. -/
def Store.setAll [Inhabited α] [DecidableEq α] (m : Store α) (l : List (Nat × α)) : Store α :=
  l.foldl (fun acc c => acc.set c.1 c.2) m

/-- Every key at or above `lo` and below `hi` reads as the default. -/
def Store.clearRange (m : Store α) (lo hi : Nat) : Store α :=
  ⟨m.cells.filter (fun c => ¬ (lo ≤ c.1 ∧ c.1 < hi))⟩

/-- The pairs with keys in a range, each key lowered by `lo`. -/
def Store.slice (m : Store α) (lo hi : Nat) : Store α :=
  ⟨(m.cells.filter (fun c => lo ≤ c.1 ∧ c.1 < hi)).map (fun c => (c.1 - lo, c.2))⟩

end Sys2Proof
end

