-- ==== Sys2Proof/Machine/Regs.lean ====
section
/-!
DEFINITION. Access to parts of State by name: dies and clocks, cores, sheaves, lanes, registers with their poison and
their latency, predicates, flags, units, jobs, contexts.
-/
namespace Sys2Proof.Machine

/-! ### Dies, cores, clocks -/

/-- The die of a core number (R12). -/
def dieOf (core : Nat) : Nat := core / Config.coresPerDie

def State.die (s : State) (d : Nat) : Die := s.dies.get d
def State.setDie (s : State) (d : Nat) (x : Die) : State := { s with dies := s.dies.set d x }
def State.core (s : State) (c : Nat) : Core := s.cores.get c
def State.setCore (s : State) (c : Nat) (x : Core) : State := { s with cores := s.cores.set c x }
def State.updCore (s : State) (c : Nat) (f : Core → Core) : State := s.setCore c (f (s.core c))

/-- Cycles of a core's clock since module reset (R160). -/
def State.cycleOf (s : State) (core : Nat) : Nat := (s.die (dieOf core)).cycle

/-- Nanoseconds of the package clock (R160). -/
def State.nanos (s : State) : Nat := s.ticks * 1000 / Config.ticksPerMicrosecond

/-! ### Sheaves and lanes -/

def State.sheaf (s : State) (id : Nat) : Option Sheaf := s.sheaves.get id
def State.setSheaf (s : State) (id : Nat) (f : Sheaf) : State := { s with sheaves := s.sheaves.set id (some f) }
def State.updSheaf (s : State) (id : Nat) (g : Sheaf → Sheaf) : State :=
  match s.sheaf id with
  | some f => s.setSheaf id (g f)
  | none => s

def Sheaf.lane (f : Sheaf) (l : Nat) : LaneSt := f.lanes.get l
def Sheaf.setLane (f : Sheaf) (l : Nat) (x : LaneSt) : Sheaf := { f with lanes := f.lanes.set l x }
def Sheaf.updLane (f : Sheaf) (l : Nat) (g : LaneSt → LaneSt) : Sheaf := f.setLane l (g (f.lane l))

/-- The 32 lane numbers in ascending order. -/
def laneList : List Nat := List.range 32

/-- The lanes of a mask, ascending. -/
def maskLanes (m : Mask) : List Nat := laneList.filter fun l => m.getLsbD l

/-- The mask of the lanes for which a test holds. -/
def laneMask (p : Nat → Bool) : Mask := laneList.foldl (fun m l => if p l then m ||| BitVec.twoPow 32 l else m) 0

/-- The lowest lane of a mask. -/
def lowest (m : Mask) : Option Nat := (maskLanes m).head?

/-- Apply a change to every lane of a mask. -/
def Sheaf.updLanes (f : Sheaf) (m : Mask) (g : Nat → LaneSt → LaneSt) : Sheaf :=
  (maskLanes m).foldl (fun acc l => acc.updLane l (g l)) f

/-- Lanes that have not exited and have not been culled. -/
def Sheaf.liveMask (f : Sheaf) : Mask := laneMask fun l => (f.lane l).life == .live

/-- Lanes in a handler (R94). -/
def Sheaf.handlerMask (f : Sheaf) : Mask := laneMask fun l => (f.lane l).life == .live && (f.lane l).handler

/-- The cycle of a sheaf's core; 0 while it stands nowhere. -/
def State.now (s : State) (f : Sheaf) : Nat :=
  match f.place with
  | some (c, _) => s.cycleOf c
  | none => 0

def Sheaf.coreNo (f : Sheaf) : Nat := (f.place.map Prod.fst).getD 0

/-- The sheaves, with their names. -/
def State.sheafList (s : State) : List (Nat × Sheaf) :=
  s.sheaves.cells.filterMap fun c => c.2.map fun f => (c.1, f)

/-! ### Registers -/

/-- Key of a thread register of a lane, of a uniform register, and of a lane's predicate, in the list of results not yet
writable. -/
def vKey (r l : Nat) : Nat := 32 * r + l
def uKey (n : Nat) : Nat := 4096 + n
def pKey (p l : Nat) : Nat := 8192 + 32 * p + l

/-- The value of a key and its poison, given its results, the newest first: each that is not writable yet gives what stood before it
or what stands after it, freely (R78). `n` numbers the choice. -/
def settleFrom (now n : Nat) (value : Word × Option Poison) : List Pending → Word × Option Poison
  | [] => value
  | p :: older =>
    if p.ready ≤ now then value
    else if Config.freeBool n then settleFrom now (n + 2 ^ 32) (p.old, p.poison) older else value

/-- The poison that a key holds as last written: none for a predicate. -/
def Sheaf.poisonAt (f : Sheaf) (key : Nat) : Option Poison :=
  if key < 4096 then f.vPoison.get key else if key < 8192 then f.uPoison.get (key - 4096) else none

/-- Reading a key whose newest result is not writable yet gives the value before or after, freely (R78). DEDUCED (log 14). -/
def Sheaf.settle (f : Sheaf) (now free key : Nat) (value : Word) : Word :=
  (settleFrom now (free * 2 ^ 16 + key) (value, f.poisonAt key) (f.pending.filter fun p => p.key == key)).1

/-- The poison of the value so read. -/
def Sheaf.settlePoison (f : Sheaf) (now free key : Nat) : Option Poison :=
  (settleFrom now (free * 2 ^ 16 + key) (0, f.poisonAt key) (f.pending.filter fun p => p.key == key)).2

/-- Record a fixed-latency result: the old value, and the cycle from which the new one is sure (R77). From then on no result
written before it is read any more: results are written in issue order. -/
def Sheaf.note (f : Sheaf) (now lat key : Nat) (old : Word) : Sheaf :=
  if lat = 0 then f
  else { f with pending := ⟨key, old, now + lat, f.poisonAt key⟩ :: ((f.pending.filter fun p => decide (now < p.ready)).map fun p =>
    if p.key = key then { p with ready := min p.ready (now + lat) } else p) }

def Sheaf.setV (f : Sheaf) (r l : Nat) (x : Word) : Sheaf :=
  { f with v := f.v.set (vKey r l) x, vPoison := f.vPoison.set (vKey r l) none }
def Sheaf.setU (f : Sheaf) (n : Nat) (x : Word) : Sheaf :=
  { f with u := f.u.set n x, uPoison := f.uPoison.set n none }
def Sheaf.setPred (f : Sheaf) (p l : Nat) (x : Bool) : Sheaf :=
  { f with p := f.p.modify p fun m => if x then m ||| BitVec.twoPow 32 l else m &&& ~~~ BitVec.twoPow 32 l }
def Sheaf.pred (f : Sheaf) (p l : Nat) : Bool := (f.p.get p).getLsbD l

/-- Write one lane's result to a register field with a latency: thread registers, or nothing for `zr` (R68). Uniform
fields are written once, by `writeField`. -/
def Sheaf.writeV (f : Sheaf) (now lat r l : Nat) (x : Word) : Sheaf :=
  (f.note now lat (vKey r l) (f.v.get (vKey r l))).setV r l x
def Sheaf.writeU (f : Sheaf) (now lat n : Nat) (x : Word) : Sheaf :=
  (f.note now lat (uKey n) (f.u.get n)).setU n x
def Sheaf.writePred (f : Sheaf) (now lat p l : Nat) (x : Bool) : Sheaf :=
  (f.note now lat (pKey p l) (if f.pred p l then 1 else 0)).setPred p l x

/-- Write results, given in ascending lane order, to a destination field (R68): per lane to a thread register, the lowest
lane's to a uniform register, nowhere for `zr`. -/
def Sheaf.writeField (f : Sheaf) (now lat field : Nat) (vals : List (Nat × Word)) : Sheaf :=
  if field < 104 then vals.foldl (fun acc c => acc.writeV now lat field c.1 c.2) f
  else if field < 120 then
    match vals with
    | [] => f
    | c :: _ => f.writeU now lat (field - 104) c.2
  else f

/-- Write results of several registers a lane: word k of each lane's list goes to field + k (R69). -/
def Sheaf.writeWords (f : Sheaf) (now lat field n : Nat) (vals : List (Nat × List Word)) : Sheaf :=
  if field = 120 then f
  else (List.range n).foldl
    (fun acc k => acc.writeField now lat (field + k) (vals.map fun c => (c.1, c.2.getD k 0))) f

/-- Give the first entry of a key, the oldest of the list, another value before it. -/
def beforeOldest (key : Nat) (change : Pending → Pending) : List Pending → List Pending
  | [] => []
  | p :: newer => if p.key = key then change p :: newer else p :: beforeOldest key change newer

/-- A fixed-latency result of a register is still to be written (R77). -/
def Sheaf.unwritten (f : Sheaf) (now key : Nat) : Bool := f.pending.any fun p => p.key == key && decide (now < p.ready)

/-- A variable-latency result lands under the fixed-latency results that land after it: they stay, and it is what stands before
the oldest of them (R78). -/
def Sheaf.landUnder (f : Sheaf) (key : Nat) (x : Word) : Sheaf :=
  { f with pending := (beforeOldest key (fun p => { p with old := x, poison := none }) f.pending.reverse).reverse }
/-- The same for a poison. -/
def Sheaf.poisonUnder (f : Sheaf) (key : Nat) (x : Poison) : Sheaf :=
  { f with pending := (beforeOldest key (fun p => { p with poison := some x }) f.pending.reverse).reverse }

/-- A variable-latency result lands in a register of a lane, or in a uniform one: what lands last stays (R78). -/
def Sheaf.landAt (f : Sheaf) (now field l : Nat) (x : Word) : Sheaf :=
  if field < 104 then (if f.unwritten now (vKey field l) then f.landUnder (vKey field l) x else f.setV field l x)
  else if field < 120 then
    (if f.unwritten now (uKey (field - 104)) then f.landUnder (uKey (field - 104)) x else f.setU (field - 104) x)
  else f

/-- Results of several registers a lane land, given in ascending lane order (R68, R69). -/
def Sheaf.landField (f : Sheaf) (now field n : Nat) (vals : List (Nat × List Word)) : Sheaf :=
  if field = 120 then f
  else (List.range n).foldl (fun acc k =>
    (if field + k < 104 then vals else vals.take 1).foldl (fun acc c => acc.landAt now (field + k) c.1 (c.2.getD k 0)) acc) f

/-- The fixed-latency results of lanes that have not been written are lost with the lanes; a uniform register keeps its result
(R102). -/
def Sheaf.withdraw (f : Sheaf) (now : Nat) (m : Mask) : Sheaf :=
  let mine (p : Pending) : Bool := decide (now < p.ready) && m.getLsbD (p.key % 32) && (decide (p.key < 4096) || decide (8192 ≤ p.key))
  let back (acc : Sheaf) (p : Pending) : Sheaf :=
    if p.key < 4096 then { acc with v := acc.v.set p.key p.old, vPoison := acc.vPoison.set p.key p.poison }
    else acc.setPred ((p.key - 8192) / 32) (p.key % 32) (p.old != 0)
  { (f.pending.filter mine).foldl back f with pending := f.pending.filter fun p => !mine p }

/-- Mark a lane's destination registers as poison (R195). -/
def Sheaf.poisonField (f : Sheaf) (field n l : Nat) (p : Poison) : Sheaf :=
  (List.range n).foldl (fun acc k =>
    let r := field + k
    if r < 104 then { acc with vPoison := acc.vPoison.set (vKey r l) (some p) }
    else if r < 120 then { acc with uPoison := acc.uPoison.set (r - 104) (some p) }
    else acc) f

/-! ### Flags (R79) -/

/-- The sheaf count of a flag: words whose parts are not all complete. -/
def Sheaf.flagCount (f : Sheaf) (n : Nat) : Nat := (f.flagOps.filter fun o => o.flag == n).length

/-- A lane's own count of a flag. -/
def Sheaf.laneFlag (f : Sheaf) (n l : Nat) : Nat :=
  (f.flagOps.filter fun o => o.flag == n && o.lanes.getLsbD l).length

/-- A wait on a flag is satisfied in the cycle after the count it tests reads zero (R80): the sheaf count for a `SCHED`, a lane's
own for an `LWAIT`. -/
def Sheaf.flagDone (f : Sheaf) (n : Nat) : Bool :=
  f.flagCount n == 0 && f.flagsBefore.all fun o => o.flag != n
def Sheaf.laneDone (f : Sheaf) (n l : Nat) : Bool :=
  f.laneFlag n l == 0 && f.flagsBefore.all fun o => !(o.flag == n && o.lanes.getLsbD l)

/-- Lanes of a word's part complete, or are given up: their bits fall, and the word goes when none is left. -/
def Sheaf.dropParts (f : Sheaf) (id : Nat) (m : Mask) : Sheaf :=
  { f with flagOps := ((f.flagOps.map fun o => if o.id == id then { o with lanes := o.lanes &&& ~~~ m } else o).filter
      fun o => o.lanes != 0) }

/-- Lanes give up their parts of every word (R79, R361). -/
def Sheaf.dropAllParts (f : Sheaf) (m : Mask) : Sheaf :=
  { f with flagOps := ((f.flagOps.map fun o => { o with lanes := o.lanes &&& ~~~ m }).filter fun o => o.lanes != 0) }

/-- Raise a flag for the active lanes of a word; flag 15 raises none. -/
def Sheaf.raise (f : Sheaf) (id flag : Nat) (active : Mask) : Sheaf :=
  if flag < 12 && active != 0 then { f with flagOps := f.flagOps ++ [⟨id, flag, active⟩] } else f

/-! ### Units, launches, jobs, contexts -/

def State.unit (s : State) (u : Nat) : Option UnitSt := s.units.get u
def State.setUnit (s : State) (u : Nat) (x : UnitSt) : State := { s with units := s.units.set u (some x) }
def State.updUnit (s : State) (u : Nat) (g : UnitSt → UnitSt) : State :=
  match s.unit u with
  | some x => s.setUnit u (g x)
  | none => s
def State.unitOf (s : State) (f : Sheaf) : UnitSt := (s.unit f.unit).getD default

def State.launch (s : State) (l : Nat) : Option LaunchSt := s.launches.get l
def State.setLaunch (s : State) (l : Nat) (x : LaunchSt) : State := { s with launches := s.launches.set l (some x) }
def State.updLaunch (s : State) (l : Nat) (g : LaunchSt → LaunchSt) : State :=
  match s.launch l with
  | some x => s.setLaunch l (g x)
  | none => s

/-- The number of a launch within its job, for the records of R364. -/
def State.launchNo (s : State) (l : Nat) : Nat := ((s.launch l).map LaunchSt.number).getD 0

def State.node (s : State) (n : Nat) : Option Node := s.nodes.get n
def State.updNode (s : State) (n : Nat) (g : Node → Node) : State :=
  match s.node n with
  | some x => { s with nodes := s.nodes.set n (some (g x)) }
  | none => s
def State.phase (s : State) (n : Nat) : Option Phase := s.phases.get n
def State.updPhase (s : State) (n : Nat) (g : Phase → Phase) : State :=
  match s.phase n with
  | some x => { s with phases := s.phases.set n (some (g x)) }
  | none => s

def State.job (s : State) (j : Nat) : Option Job := s.jobs.get j
def State.updJob (s : State) (j : Nat) (g : Job → Job) : State :=
  match s.job j with
  | some x => { s with jobs := s.jobs.set j (some (g x)) }
  | none => s
/-- The job's part on this device made progress in this cycle (R374). -/
def State.progress (s : State) (j : Nat) : State := s.updJob j fun x => { x with progressed := true }

def State.context (s : State) (c : Nat) : Option Context := s.contexts.get c
def State.updContext (s : State) (c : Nat) (g : Context → Context) : State :=
  match s.context c with
  | some x => { s with contexts := s.contexts.set c (some (g x)) }
  | none => s

def State.unitList (s : State) : List (Nat × UnitSt) := s.units.cells.filterMap fun c => c.2.map fun u => (c.1, u)
def State.launchList (s : State) : List (Nat × LaunchSt) := s.launches.cells.filterMap fun c => c.2.map fun u => (c.1, u)
def State.nodeList (s : State) : List (Nat × Node) := s.nodes.cells.filterMap fun c => c.2.map fun u => (c.1, u)

/-- The sheaves of a unit, ascending by index. -/
def State.sheavesOf (s : State) (u : Nat) : List (Nat × Sheaf) := s.sheafList.filter fun c => c.2.unit == u

/-- A fresh name. DESIGN CHOICE (log 2). -/
def State.take (s : State) : Nat × State := (s.fresh, { s with fresh := s.fresh + 1 })

/-! ### Handles, slots, tiles: at the core, or in the image while the unit is saved (R370) -/

def State.handle (s : State) (u h : Nat) : Handle :=
  match s.unit u with
  | some x => match x.image with
    | some im => im.handles.get h
    | none => (s.core (x.core.getD 0)).handles.get h
  | none => {}

def State.setHandle (s : State) (u h : Nat) (v : Handle) : State :=
  match s.unit u with
  | some x => match x.image with
    | some im => s.setUnit u { x with image := some { im with handles := im.handles.set h v } }
    | none => s.updCore (x.core.getD 0) fun c => { c with handles := c.handles.set h v }
  | none => s

def State.slot (s : State) (u m : Nat) : Slot :=
  match s.unit u with
  | some x => match x.image with
    | some im => im.slots.get m
    | none => (s.core (x.core.getD 0)).slots.get m
  | none => {}

def State.setSlot (s : State) (u m : Nat) (v : Slot) : State :=
  match s.unit u with
  | some x => match x.image with
    | some im => s.setUnit u { x with image := some { im with slots := im.slots.set m v } }
    | none => s.updCore (x.core.getD 0) fun c => { c with slots := c.slots.set m v }
  | none => s

/-- Tiles of the accumulator share of a core (R166). -/
def tileCount (pword : Word) : Nat := min 128 (6 * (pword.extractLsb' 16 8).toNat)

end Sys2Proof.Machine
end

