-- ==== Sys2Proof/Machine/Mem.lean ====
section
/-!
DEFINITION. Memory: bytes under one key for HBM, host memory and peer windows; poison of 8-byte words; little-endian
values; page-table walks and rights; scratchpad windows; the error queue.
-/
namespace Sys2Proof.Machine

/-! ### Bytes and values -/

/-- The value of bytes, the first least significant (R2). -/
def leNat : List Byte → Nat
  | [] => 0
  | b :: rest => b.toNat + 256 * leNat rest

/-- `n` bytes of a value, the least significant first (R2). -/
def toBytes : Nat → Nat → List Byte
  | 0, _ => []
  | n + 1, x => BitVec.ofNat 8 x :: toBytes n (x / 256)

/-- The 32-bit words of bytes. -/
def toWords : List Byte → List Word
  | a :: b :: c :: d :: rest => BitVec.ofNat 32 (leNat [a, b, c, d]) :: toWords rest
  | [] => []
  | l => [BitVec.ofNat 32 (leNat l)]

def wordBytesOf (x : Word) : List Byte := toBytes 4 x.toNat
def lo32 (x : DWord) : Word := x.extractLsb' 0 32
def hi32 (x : DWord) : Word := x.extractLsb' 32 32
def pair64 (lo hi : Word) : DWord := hi ++ lo

/-- Sign extension of the low `8 * size` bits into 64. -/
def sext (size : Nat) (x : Nat) : DWord :=
  if 2 ^ (8 * size - 1) ≤ x then BitVec.ofInt 64 ((x : Int) - (2 ^ (8 * size) : Nat)) else BitVec.ofNat 64 x

/-! ### Physical memory -/

/-- The key of a byte: target of R354 (0 HBM, 1 host, 2 peer) and address in it. DESIGN CHOICE (log 1). -/
def memKey (tgt addr : Nat) : Nat := tgt * 2 ^ 60 + addr

/-- The canonical form of memory: addresses strictly rising, no listed byte zero. -/
def Memory.wf (m : List Host.Cell) : Bool := Store.wf (⟨m⟩ : Store Byte)

/-- DESIGN CHOICE (log 1). -/
def State.byteAt (s : State) (k : Nat) : Byte := (⟨s.mem⟩ : Store Byte).get k
def State.putByte (s : State) (k : Nat) (b : Byte) : State := { s with mem := ((⟨s.mem⟩ : Store Byte).set k b).cells }
def State.bytesAt (s : State) (k n : Nat) : List Byte := (List.range n).map fun j => s.byteAt (k + j)
def State.valueAt (s : State) (k n : Nat) : Nat := leNat (s.bytesAt k n)

/-- Write bytes at rising keys, with no effect on poison. -/
def State.putBytes (s : State) (k : Nat) : List Byte → State
  | [] => s
  | b :: rest => (s.putByte k b).putBytes (k + 1) rest

/-- Poison of the 8-byte word that holds a byte. -/
def State.poisonAt (s : State) (k : Nat) : Bool := s.memPoison.get (k / 8)
/-- DEDUCED (log 69). -/
def State.setPoison (s : State) (k : Nat) (p : Bool) : State := { s with memPoison := s.memPoison.set (k / 8) p }

/-! ### Check values (R422) -/

/-- One bit of CRC-32C, polynomial 0x1EDC_6F41 reflected. -/
def crcBit (c : Word) : Word := if c.getLsbD 0 then (c >>> 1) ^^^ 0x82F63B78 else c >>> 1
def crcByte (c : Word) (b : Byte) : Word := (List.range 8).foldl (fun x _ => crcBit x) (c ^^^ b.setWidth 32)
/-- The CRC-32C of bytes, with initial value and final exclusive-or of all ones. -/
def crc32c (l : List Byte) : Word := (l.foldl crcByte 0xFFFFFFFF) ^^^ 0xFFFFFFFF

/-- The check value that a 128-byte line holds. -/
def State.lineCheck (s : State) (line : Nat) : Word := (s.checks.get line).getD (crc32c (s.bytesAt (128 * line) 128))
/-- Its verification. -/
def State.checkOk (s : State) (line : Nat) : Bool :=
  (s.checks.get line).all fun c => c == crc32c (s.bytesAt (128 * line) 128)

/-- A write verifies the check of the line of a key and makes it anew; a failed one marks the line's data as carrying an uncorrected
error. -/
def State.verifyLine (s : State) (k : Nat) : State :=
  let line := k / 128
  if (s.checks.get line).isNone then s
  else
    let s1 := { s with checks := s.checks.set line none }
    if s.checkOk line then s1 else (List.range 16).foldl (fun (acc : State) w => acc.setPoison (128 * line + 8 * w) true) s1

/-- Whether keys cover all of the 8-byte word that holds `k`. -/
def coversWord (keys : List Nat) (k : Nat) : Bool := (List.range 8).all fun j => keys.contains (8 * (k / 8) + j)

/-- A write of bytes to keys: the lines' checks are verified and made anew (R422); words wholly written lose their poison, others keep
it (R424). -/
def State.store (s : State) (cells : List (Nat × Byte)) : State :=
  let keys := cells.map Prod.fst
  let s1 := cells.foldl (fun acc c => acc.putByte c.1 c.2) (keys.foldl State.verifyLine s)
  keys.foldl (fun acc k => if acc.poisonAt k && coversWord keys k then acc.setPoison k false else acc) s1

/-- Page-table entries that the driver writes, at physical addresses of HBM. -/
def State.writeTables (s : State) (l : List (Nat × Nat)) : State :=
  l.foldl (fun (acc : State) e =>
    if e.1 % 8 = 0 ∧ e.1 < Config.hbmBytes then
      acc.store ((List.range 8).zip (toBytes 8 e.2) |>.map fun c => (memKey 0 (e.1 + c.1), c.2))
    else acc) s

/-! ### Scratchpad windows (R167) -/

def UnitSt.winByte (u : UnitSt) (a : Nat) : Byte := u.win.get a
def UnitSt.winBytes (u : UnitSt) (a n : Nat) : List Byte := (List.range n).map fun j => u.winByte (a + j)
def UnitSt.winValue (u : UnitSt) (a n : Nat) : Nat := leNat (u.winBytes a n)
/-- A byte of the window reads badly: its 8-byte word is poison, or the 4-byte output in which it lies. -/
def UnitSt.badByte (u : UnitSt) (a : Nat) : Bool := u.winPoison.get (a / 8) || u.winHalf.get (a / 4)
def UnitSt.winPoisoned (u : UnitSt) (a n : Nat) : Bool := (List.range n).any fun j => u.badByte (a + j)
/-- The uncorrected error that a read of a range of the window meets, with the words that read badly. -/
def UnitSt.badWords (u : UnitSt) (a n : Nat) : Poison :=
  ⟨.uncorrected, 7, BitVec.ofNat 64 a,
    ((((List.range n).filter fun j => u.badByte (a + j)).map fun j => (a + j) / 8).eraseDups).map fun w => (true, w)⟩
/-- An 8-byte word of the window reads well again. -/
def UnitSt.winHeal (u : UnitSt) (w : Nat) : UnitSt :=
  { u with winPoison := u.winPoison.set w false, winHalf := (u.winHalf.set (2 * w) false).set (2 * w + 1) false }
/-- Write bytes; a word wholly written loses its poison, one written in part keeps it (R424). -/
def UnitSt.winStore (u : UnitSt) (cells : List (Nat × Byte)) : UnitSt :=
  let keys := cells.map Prod.fst
  let u1 := { u with win := u.win.setAll cells }
  keys.foldl (fun acc k => if acc.badByte k && coversWord keys k then acc.winHeal (k / 8) else acc) u1
def UnitSt.winWrite (u : UnitSt) (a : Nat) (bytes : List Byte) : UnitSt :=
  u.winStore ((List.range bytes.length).zip bytes |>.map fun c => (a + c.1, c.2))
/-- Write poison over the 8-byte words of a range of the window. -/
def UnitSt.winSpoil (u : UnitSt) (a n : Nat) : UnitSt :=
  { u with winPoison := (List.range n).foldl (fun acc j => acc.set ((a + j) / 8) true) u.winPoison }

/-- Write poison over one 4-byte output, and no other (R231). -/
def UnitSt.spoilHalf (u : UnitSt) (a : Nat) : UnitSt := { u with winHalf := u.winHalf.set (a / 4) true }

/-! ### Page tables (R353 to R356) -/

/-- What an access needs of its leaf (R356). -/
inductive Right where
  | read | write | atomic | fetch
  deriving DecidableEq, Repr

inductive Walk where
  | leaf (e : DWord) (pages first : Nat)
  | absent
  | malformed (e : DWord)
  deriving DecidableEq, Repr

def pteValid (e : DWord) : Bool := e.getLsbD 0
def pteLeaf (e : DWord) : Bool := e.getLsbD 5
def pteSize (e : DWord) : Nat := (e.extractLsb' 6 2).toNat
def pteFrame (e : DWord) : Nat := (e.extractLsb' 16 36).toNat * 2 ^ 16
def pteTgt (e : DWord) : Nat := (e.extractLsb' 61 3).toNat
def pteWatched (e : DWord) : Bool := e.getLsbD 60
/-- Reserved bits [59:52], [15:8] and [4] (R354). -/
def pteReserved (e : DWord) : Bool := e.extractLsb' 52 8 != 0 || e.extractLsb' 8 8 != 0 || e.getLsbD 4

/-- Pages of 64 KiB that a leaf of each SIZE covers. -/
def pagesOf (size : Nat) : Nat := if size = 1 then 32 else if size = 2 then 16384 else 1

/-- Entry `i` of a table. -/
def State.pte (s : State) (table i : Nat) : DWord := BitVec.ofNat 64 (s.valueAt (memKey 0 (table + 8 * i)) 8)

/-- A leaf at a level: malformed on reserved bits, a SIZE its level forbids, a watched large page, a frame off its
alignment, or a replica that differs (R355). -/
def State.leafAt (s : State) (level table i page : Nat) (e : DWord) : Walk :=
  let size := pteSize e
  let n := if size = 1 then 32 else if size = 2 then 8 else 1
  let okLevel := (level == 4 && size ≤ 1) || (level == 3 && size == 2)
  let pages := pagesOf size
  if pteReserved e || pteTgt e > 2 || !okLevel || (pteWatched e && size != 0)
      || (pteFrame e / 2 ^ 16) % pages != 0
      || (List.range n).any (fun j => s.pte table (i / n * n + j) != e)
  then .malformed e
  else .leaf e pages (page / pages * pages)

/-- A walk of the levels still to come, each given by the shift of its index in the 64 KiB page number and its size. -/
def State.walkFrom (s : State) (page : Nat) : List (Nat × Nat × Nat) → Nat → Walk
  | [], _ => .absent
  | (level, shift, entries) :: rest, table =>
    let i := page / 2 ^ shift % entries
    let e := s.pte table i
    if !pteValid e then .absent
    else if pteLeaf e then s.leafAt level table i page e
    else if level = 4 || pteReserved e || pteTgt e != 0 then .malformed e
    else s.walkFrom page rest (pteFrame e)

/-- The walk of a 64 KiB page number in a context. -/
def State.walk (s : State) (ctx page : Nat) : Walk :=
  match s.context ctx with
  | none => .absent
  | some c => s.walkFrom page [(1, 31, 1024), (2, 21, 1024), (3, 11, 1024), (4, 0, 2048)] c.ptb

/-- Where a leaf puts an address, or the cause for which it refuses it (R354, R356); no HBM stands beyond 576 GiB, and no device beyond those of
the largest fabric (R16). DEDUCED (log 42). -/
def leafKey (e : DWord) (va : Nat) (r : Right) : Except Nat Nat :=
  let rd := e.getLsbD 1
  let wr := e.getLsbD 2
  let ok := match r with
    | .read => rd
    | .write => wr
    | .atomic => rd && wr
    | .fetch => e.getLsbD 3
  let addr := pteFrame e + va % (pagesOf (pteSize e) * 2 ^ 16)
  if !ok then .error 1
  else if (pteTgt e == 0 && Config.hbmBytes ≤ addr) || (pteTgt e == 2 && Config.fabricDevices * 2 ^ 38 ≤ addr) then .error 4
  else .ok (memKey (pteTgt e) addr)

/-! ### Translation of lane accesses (R357) -/

/-- The leaf that the core's or the die's TLB holds for a page. -/
def State.tlbFind (s : State) (core ctx page : Nat) : Option DWord :=
  (s.tlbs.find? fun t => t.ctx == ctx && t.die == dieOf core && (t.core == none || t.core == some core)
    && decide (t.page ≤ page ∧ page < t.page + t.pages)).map fun t => t.leaf

/-- The result of a translation: a key and whether the page is watched, a miss, or a condition. -/
inductive Xlat where
  | ok (key : Nat) (watched : Bool)
  | miss (page : Nat)
  | bad (p : Poison)
  deriving DecidableEq, Repr

/-- The peer in whose window a key lies (R386). -/
def peerOf (key : Nat) : Option Nat :=
  if 2 * 2 ^ 60 ≤ key then some ((key - 2 * 2 ^ 60) / 2 ^ 38) else none

/-- Where a key lies in its peer's export. -/
def peerOffset (key : Nat) : Nat := (key - 2 * 2 ^ 60) % 2 ^ 38

/-- The peer or the host that serves a key; none for this device. -/
def remoteOf (key : Nat) : Option Nat := if key < 2 ^ 60 then none else some ((peerOf key).getD Config.host)

/-- A peer has admitted one of some jobs with an export that holds an access (R386). -/
def Peer.admits (p : Peer) (jobs : List Nat) (offset size : Nat) : Bool :=
  p.exports.any fun e => jobs.contains e.1 && decide (offset + size ≤ e.2)

/-- The condition a key's target adds to an access on behalf of a job: a broken or unreachable peer or host, or an export that does not
hold it (R194, R197, R386, R387). -/
def State.targetFault (s : State) (jobs : List Nat) (key size : Nat) (va : DWord) : Option Poison :=
  match remoteOf key with
  | none => none
  | some n =>
    let p := s.peers.get n
    if p.unreachable then some ⟨.unserviceable, 5, va, []⟩
    else if p.broken then some ⟨.brokenRemote, 5, va, []⟩
    else if (peerOf key).isSome && !p.admits jobs (peerOffset key) size then some ⟨.unserviceable, 1, va, []⟩
    else none

/-- The jobs of a context, for which an engine reads its records and tables. -/
def State.jobsOf (s : State) (ctx : Nat) : List Nat := s.jobs.cells.filterMap fun c => if c.2.any fun j => j.ctx == ctx then some c.1 else none

/-- What a leaf gives an access; what its target adds is `targetFault`. -/
def finishXlat (e : DWord) (va : DWord) (r : Right) : Xlat :=
  match leafKey e va.toNat r with
  | .error c => .bad ⟨.unserviceable, c, va, []⟩
  | .ok k => .ok k (pteWatched e)

/-- Translate a lane's address through the TLBs of its core. -/
def State.translate (s : State) (core ctx : Nat) (va : DWord) (r : Right) : Xlat :=
  match s.tlbFind core ctx (va.toNat / 2 ^ 16) with
  | none => .miss (va.toNat / 2 ^ 16)
  | some e => finishXlat e va r

/-- Translate by a walk of the tables as they stand: an engine's access. DESIGN CHOICE (log 68). -/
def State.translateNow (s : State) (ctx : Nat) (va : DWord) (r : Right) : Xlat :=
  if va.toNat ≥ 2 ^ 57 then .bad ⟨.unserviceable, 3, va, []⟩
  else match s.walk ctx (va.toNat / 2 ^ 16) with
  | .leaf e _ _ => finishXlat e va r
  | .absent => .bad ⟨.notPresent, 4, va, []⟩
  | .malformed _ => .bad ⟨.unserviceable, 4, va, []⟩

/-! ### Engine accesses -/

/-- Where an engine's access to a byte goes, or the condition it meets: that of its translation, or of its target. -/
def State.engineKey (s : State) (ctx : Nat) (va : DWord) (r : Right) : Except Poison Nat :=
  match s.translateNow ctx va r with
  | .ok k _ => match s.targetFault (s.jobsOf ctx) k 1 va with
    | some p => .error p
    | none => .ok k
  | .miss _ => .error ⟨.notPresent, 4, va, []⟩
  | .bad p => .error p

/-- Read bytes at virtual addresses, each translated on its own page: the bytes, or the first condition met. Poison
of a word is an uncorrected error (R424). -/
def State.readVa (s : State) (ctx : Nat) (va : DWord) (n : Nat) : Except Poison (List Byte) :=
  (List.range n).foldr (fun j acc => do
    let a := va + BitVec.ofNat 64 j
    let k ← s.engineKey ctx a .read
    if s.poisonAt k then throw ⟨.uncorrected, 7, a, [(false, k / 8)]⟩ else return s.byteAt k :: (← acc)) (pure [])

def State.readVaNat (s : State) (ctx : Nat) (va : DWord) (n : Nat) : Except Poison Nat := do
  return leNat (← s.readVa ctx va n)

/-- The keys of a range of virtual addresses under a right. -/
def State.keysVa (s : State) (ctx : Nat) (va : DWord) (n : Nat) (r : Right) : Except Poison (List Nat) :=
  (List.range n).foldr (fun j acc => do
    let k ← s.engineKey ctx (va + BitVec.ofNat 64 j) r
    return k :: (← acc)) (pure [])

/-- Drop the read-cache lines of a core that hold keys. -/
def State.dropLines (s : State) (core : Nat) (keys : List Nat) : State :=
  s.updCore core fun c => { c with cache := (c.cache.filter fun l => !(keys.any fun k => k / 128 == l.1)) }

/-- A copy's writes invalidate the read-cache lines of the core that issued it, and another core sees them by an acquire of its own
(R251). -/
def State.invalidate (s : State) (core : Option Nat) (keys : List Nat) : State :=
  match core with
  | none => s
  | some n => s.dropLines n keys

/-- Write bytes at virtual addresses for an engine. -/
def State.writeVa (s : State) (ctx : Nat) (va : DWord) (bytes : List Byte) : Except Poison State := do
  let keys ← s.keysVa ctx va bytes.length .write
  return s.store (keys.zip bytes)

/-- The first key of the census counter in which a key lies, of a matrix that has been joined or registered (R400). -/
def State.counterAt (s : State) (k : Nat) : Option Nat :=
  s.census.findSome? fun c => (c.counts.find? fun r => decide (r.1 ≤ k ∧ k < r.1 + r.2)).map fun r => r.1 + 2 * ((k - r.1) / 2)

/-- A write changes a field of a known matrix record that R403 fixes while products are open or MSTATE is not 0: anything before KIND, THETA and
the hardware's fields, and P and INF. -/
def State.upsets (s : State) (cells : List (Nat × Byte)) (c : Census) : Bool :=
  cells.any (fun x => decide (c.mrec ≤ x.1 ∧ x.1 ≤ c.mrec + 0x40) && (s.byteAt x.1 != x.2)
      && (x.1 != c.mrec + 0x40 || (s.byteAt x.1).extractLsb' 0 4 != x.2.extractLsb' 0 4))
    && (s.valueAt (c.mrec + 0x4C) 4 != 0 || s.valueAt (c.mrec + 0x70) 4 % 4 != 0)

/-- Such a change leaves the results of the products that are open undefined (R403). -/
def State.noteUpset (s : State) (cells : List (Nat × Byte)) : State :=
  if s.census.any (s.upsets cells) then
    { s with census := s.census.map fun c => if s.upsets cells c then { c with upset := true } else c }
  else s

/-- A write by anything other than the census hardware: the counters that it touches hold values that no rule gives, until a fallow step
has passed them (R400), and a record that it changes out of turn is upset (R403). DESIGN CHOICE (log 82). -/
def State.write (s0 : State) (cells : List (Nat × Byte)) : State :=
  let s := s0.noteUpset cells
  if cells.any fun c => (s.counterAt c.1).isSome then
    let free (k : Nat) : Nat × Byte := (k, (Config.freeWord (s.free + 2 ^ 32 * k)).setWidth 8)
    let lost := ((cells.filterMap fun c => s.counterAt c.1).flatMap fun k => [k, k + 1]).filter fun k => (s.counterAt k).isSome
    { s.store ((cells.filter fun c => (s.counterAt c.1).isNone) ++ lost.map free) with free := s.free + 1 }
  else s.store cells

/-- Where the counters of a record's census lie, page by page, as the tables stand. -/
def State.countSpans (s : State) (key ctx : Nat) : List (Nat × Nat) :=
  let va := s.valueAt (key + 0x28) 8
  let stop := va + 2 * s.valueAt (key + 0x30) 4
  (List.range (stop / 2 ^ 16 + 1 - va / 2 ^ 16)).filterMap fun p =>
    let a := max va (2 ^ 16 * (va / 2 ^ 16 + p))
    match s.translateNow ctx (BitVec.ofNat 64 a) .atomic with
    | .ok k _ => some (k, min stop (2 ^ 16 * (va / 2 ^ 16 + p + 1)) - a)
    | _ => none

/-- A read tried again has succeeded: the words of memory or of a unit's window that read badly read well, and the checks of their
lines hold (R195, R360). -/
def State.healWords (s : State) (u : Nat) (p : Poison) : State :=
  p.words.foldl (fun (acc : State) w =>
    if w.1 then acc.updUnit u fun x => x.winHeal w.2
    else { acc.setPoison (8 * w.2) false with checks := acc.checks.set (w.2 / 16) none }) s

/-! ### Error queue (R363 to R366) -/

/-- What a record says, beside the time. -/
structure ErrRec where
  typ : Nat := 0
  cause : Nat := 0
  ctx : Nat := 0
  exited : Bool := false
  pc : DWord := 0
  addr : DWord := 0
  job : Nat := 0
  launch : Nat := 0
  unit : Nat := 0
  gen : Nat := 0
  core : Nat := 0
  slot : Nat := 0
  peer : Nat := 0
  lanes : Mask := 0
  info : Nat := 0
  deriving DecidableEq, Repr, Inhabited

/-- The 64 bytes of a record (R364). -/
def ErrRec.bytes (r : ErrRec) (time : Nat) : List Byte :=
  toBytes 4 (r.typ * 2 ^ 16 + r.cause * 2 ^ 8 + r.ctx * 4 + (if r.exited then 2 else 0))
    ++ toBytes 4 0 ++ toBytes 8 r.pc.toNat ++ toBytes 8 r.addr.toNat ++ toBytes 4 r.job ++ toBytes 4 r.launch
    ++ toBytes 4 r.unit ++ toBytes 4 (r.gen % 2 ^ 16 * 2 ^ 16 + r.core * 2 ^ 8 + r.slot) ++ toBytes 4 r.peer
    ++ toBytes 4 r.lanes.toNat ++ toBytes 8 r.info ++ toBytes 8 time

/-- Write a record and notify the host, or count it lost when the queue is full (R363). A page that refuses the write loses the record, and no
count: no rule speaks of one. DESIGN CHOICE (log 77). -/
def State.report (s : State) (r : ErrRec) : State :=
  match s.context r.ctx with
  | none => s
  | some c =>
    if (c.tail + 2 ^ 32 - c.head) % 2 ^ 32 = c.eqn then s.updContext r.ctx fun x => { x with lost := (x.lost + 1) % 2 ^ 32 }
    else match s.writeVa r.ctx (BitVec.ofNat 64 (c.eqb + 64 * (c.tail % c.eqn))) (r.bytes s.nanos) with
      | .ok s1 => s1.updContext r.ctx fun x => { x with tail := (x.tail + 1) % 2 ^ 32, notices := x.notices + 1 }
      | .error _ => s

/-- A malformed entry adds a TYPE 11 record (R355). -/
def State.malformed (s : State) (ctx : Nat) (va : DWord) (e : DWord) : State :=
  s.report { typ := 11, cause := 4, ctx := ctx, addr := va, info := e.toNat }

/-- The same for an engine's access, where a condition that it met comes of a malformed entry. -/
def State.metMalformed (s : State) (ctx : Nat) (p : Poison) : State :=
  if p.kind != .unserviceable || p.cause != 4 then s
  else match s.walk ctx (p.addr.toNat / 2 ^ 16) with
  | .malformed x => s.malformed ctx p.addr x
  | _ => s

/-- The unit field of a record: linear index, or 0x8000_0000 plus the count of a spawned unit. -/
def UnitSt.recNo (u : UnitSt) : Nat := if u.spawned then 2 ^ 31 + u.index else u.index

/-- The fields of a record that name a sheaf. DESIGN CHOICE (log 28). -/
def State.nameSheaf (s : State) (f : Sheaf) (r : ErrRec) : ErrRec :=
  let u := s.unitOf f
  { r with ctx := u.ctx, job := u.job, launch := s.launchNo u.launch, unit := u.recNo, gen := f.gen, core := f.coreNo,
           slot := (f.place.map Prod.snd).getD 0 }

end Sys2Proof.Machine
end

