-- ==== Sys2Proof/Machine/Channel.lean ====
section
/-!
DEFINITION. The ordered channel of the fabric: what is sent to a peer on it, acknowledged, and held back by a change of route (R384).
-/
namespace Sys2Proof.Machine

def State.updChannel (s : State) (d : Nat) (g : Channel → Channel) : State := { s with channels := s.channels.modify d g }

/-- A route leads to a peer. -/
def State.routed (s : State) (d : Nat) : Bool := !(s.peers.get d).broken

/-- A message joins those of the channel: sent at once, or held back while old-route messages are out or no route leads to the peer. -/
def Channel.put (c : Channel) (routed : Bool) (m : ChanMsg) : Channel :=
  if c.draining || !c.held.isEmpty || !routed then { c with held := c.held ++ [m] } else { c with sent := c.sent ++ [m] }

/-- What was held back goes out once nothing is out on the old route. -/
def Channel.flush (c : Channel) (routed : Bool) : Channel :=
  if c.sent.isEmpty && routed then { c with sent := c.held, held := [], draining := false } else c

/-- The oldest message is acknowledged. -/
def Channel.acked (c : Channel) (routed : Bool) : Channel := { c with sent := c.sent.tail }.flush routed

/-- The route has changed: nothing new is sent until what is out has been acknowledged or declared lost. -/
def Channel.rerouted (c : Channel) (routed : Bool) : Channel := { c with draining := !c.sent.isEmpty }.flush routed

/-- What is out is declared lost, to be sent again before anything new (R383). -/
def Channel.lost (c : Channel) : Channel := { c with sent := [], held := c.sent ++ c.held, draining := false }

def State.sendOn (s : State) (d : Nat) (m : ChanMsg) : State := s.updChannel d fun c => c.put (s.routed d) m

/-- The oldest message out to a peer is a given one: it is acknowledged. -/
def State.ackOn (s : State) (d : Nat) (m : ChanMsg) : Option State :=
  if (s.channels.get d).sent.head? = some m then some (s.updChannel d fun c => c.acked (s.routed d)) else none

/-- The peer at the head of whose channel a message stands. -/
def State.headOf (s : State) (m : ChanMsg) : Option Nat :=
  (s.channels.cells.find? fun c => c.2.sent.head? == some m).map Prod.fst

/-- A message that was held back is withdrawn; none where it is out already. -/
def State.unsend (s : State) (d : Nat) (m : ChanMsg) : Option State :=
  if (s.channels.get d).held.contains m then some (s.updChannel d fun c => { c with held := c.held.erase m }) else none

/-- A message has come from a peer: it is the next that the peer sent, each being taken once (R383, R384). -/
def State.takenFrom (s : State) (src seq : Nat) : Option State :=
  if (s.channels.get src).received = seq then some (s.updChannel src fun c => { c with received := c.received + 1 }) else none

end Sys2Proof.Machine
end

