-- ==== Sys2Proof/Machine/Num.lean ====
section
/-!
DEFINITION. Numbers: exact values, the element formats code by code (R48 to R54), the one rounding process (R58, R59),
the conversions (R60), block scales (R61), the block dot product and the order of sums (R62 to R65).
-/
namespace Sys2Proof.Machine

/-- An exact extended value: NaN, an infinity with its sign, or (-1)^neg × m × 2^e. A zero keeps its sign. -/
inductive Ex where
  | nan
  | inf (neg : Bool)
  | fin (neg : Bool) (m : Nat) (e : Int)
  deriving DecidableEq, Repr, Inhabited

def Ex.isNan : Ex → Bool
  | .nan => true
  | _ => false

def Ex.isInf : Ex → Bool
  | .inf _ => true
  | _ => false

def Ex.isZero : Ex → Bool
  | .fin _ 0 _ => true
  | _ => false

def Ex.neg : Ex → Ex
  | .nan => .nan
  | .inf s => .inf (!s)
  | .fin s m e => .fin (!s) m e

def Ex.sign : Ex → Bool
  | .nan => false
  | .inf s => s
  | .fin s _ _ => s

/-- The magnitude. -/
def Ex.abs : Ex → Ex
  | .nan => .nan
  | .inf _ => .inf false
  | .fin _ m e => .fin false m e

/-- An integer as an exact value; zero is +0. -/
def Ex.ofInt (z : Int) : Ex := .fin (decide (z < 0)) z.natAbs 0

/-- The exact product; zero times infinity is NaN (R112). -/
def Ex.mul : Ex → Ex → Ex
  | .nan, _ => .nan
  | _, .nan => .nan
  | .inf s, .inf t => .inf (s != t)
  | .inf s, .fin t m _ => if m = 0 then .nan else .inf (s != t)
  | .fin s m _, .inf t => if m = 0 then .nan else .inf (s != t)
  | .fin s m e, .fin t n f => .fin (s != t) (m * n) (e + f)

/-- Exact scaling by a power of two. -/
def Ex.scale (x : Ex) (n : Int) : Ex :=
  match x with
  | .fin s m e => .fin s m (e + n)
  | x => x

/-- The signed mantissa of a finite value at exponent `q`, which is at most its own. -/
def Ex.at (q : Int) : Ex → Int
  | .fin s m e => (if s then -1 else 1) * ((m * 2 ^ (e - q).toNat : Nat) : Int)
  | _ => 0

/-- The least exponent among finite terms. -/
def minExp : List Ex → Int
  | [] => 0
  | [.fin _ _ e] => e
  | .fin _ _ e :: rest => min e (minExp rest)
  | _ :: rest => minExp rest

/-- Rounding modes (R55). -/
def rmMode (rm : Word) : Nat := (rm.extractLsb' 0 3).toNat
def rmSat (rm : Word) : Bool := rm.getLsbD 3

/-- The exact sum of terms: NaN for a NaN term or infinities of both signs; a zero sum is -0 when every term is -0, and
otherwise -0 under RDN when the terms are not all +0, else +0 (R112; for FDOT2, of whose zero sums R114 says nothing, DESIGN CHOICE
(log 77)). -/
def Ex.sum (rdn : Bool) (terms : List Ex) : Ex :=
  if terms.any Ex.isNan then .nan
  else
    let pos := terms.any fun t => t == .inf false
    let neg := terms.any fun t => t == .inf true
    if pos && neg then .nan
    else if pos then .inf false
    else if neg then .inf true
    else
      let q := minExp terms
      let z : Int := terms.foldl (fun acc t => acc + t.at q) 0
      if z = 0 then
        let allNeg := terms.all fun t => t.isZero && t.sign
        let allPos := terms.all fun t => t.isZero && !t.sign
        .fin (if allNeg then true else if allPos then false else rdn) 0 0
      else .fin (decide (z < 0)) z.natAbs q

/-- Comparison of magnitude-signed values: -1, 0 or 1; zeros are equal. NaN compares as 0 and is tested apart. -/
def Ex.cmp (x y : Ex) : Int :=
  match x, y with
  | .inf s, .inf t => if s = t then 0 else if s then -1 else 1
  | .inf s, _ => if s then -1 else 1
  | _, .inf t => if t then 1 else -1
  | .fin s m e, .fin t n f =>
    let q := min e f
    let d := Ex.at q (.fin s m e) - Ex.at q (.fin t n f)
    if d < 0 then -1 else if d = 0 then 0 else 1
  | _, _ => 0

/-! ### Formats -/

/-- What an overflowing or infinite value becomes in a format (R59). -/
inductive Over where
  /-- Infinities: the overflow rule of IEEE 754-2019. -/
  | ieee
  /-- NaN when SAT is clear, the largest finite magnitude when set. -/
  | nan
  /-- Always the largest finite magnitude. -/
  | max
  deriving DecidableEq, Repr, Inhabited

/-- A floating, binary8 or MX format with its infinity setting (R49, R50, R53). Codes are sign, then a magnitude field
that is exponent and trailing bits read as one integer. -/
structure Fmt where
  /-- Bits of the whole code, and of the trailing significand. -/
  bits : Nat := 32
  tb : Nat := 23
  bias : Int := 127
  signed : Bool := true
  /-- The largest finite magnitude field. -/
  maxMag : Nat := 0x7F7FFFFF
  spill : Over := .ieee
  /-- Code of NaN; none in E3M2, E2M3, E2M1. -/
  nanCode : Option Nat := some 0x7FC00000
  /-- Magnitude field of infinity. -/
  infMag : Option Nat := some 0x7F800000
  /-- A signed format without -0. -/
  oneZero : Bool := false
  deriving DecidableEq, Repr, Inhabited

def f32 : Fmt := {}
def f16 : Fmt := ⟨16, 10, 15, true, 0x7BFF, .ieee, some 0x7E00, some 0x7C00, false⟩
def bf16 : Fmt := ⟨16, 7, 127, true, 0x7F7F, .ieee, some 0x7FC0, some 0x7F80, false⟩
def e4m3 : Fmt := ⟨8, 3, 7, true, 0x7E, .nan, some 0x7F, none, false⟩
def e5m2 : Fmt := ⟨8, 2, 15, true, 0x7B, .ieee, some 0x7E, some 0x7C, false⟩
def e3m2 : Fmt := ⟨6, 2, 3, true, 0x1F, .max, none, none, false⟩
def e2m3 : Fmt := ⟨6, 3, 1, true, 0x1F, .max, none, none, false⟩
def e2m1 : Fmt := ⟨4, 1, 1, true, 0x7, .max, none, none, false⟩

/-- binary8pP (R50, R51). -/
def b8p (p : Nat) (inf : Bool) : Fmt :=
  ⟨8, p - 1, (2 ^ (7 - p) : Nat), true, if inf then 0x7E else 0x7F, if inf then .ieee else .nan, some 0x80,
    if inf then some 0x7F else none, true⟩

/-- binary8qP, unsigned (R50, R51). -/
def b8q (p : Nat) (inf : Bool) : Fmt :=
  ⟨8, p - 1, (2 ^ (8 - p) : Nat), false, if inf then 0xFD else 0xFE, if inf then .ieee else .nan, some 0xFF,
    if inf then some 0xFE else none, true⟩

/-- The formats by the codes of R125; integer codes and reserved codes have none. -/
def fmtOf (code : Nat) (inf : Bool) : Option Fmt :=
  match code with
  | 8 => some f32
  | 9 => some f16
  | 10 => some bf16
  | 11 => some e4m3
  | 12 => some e5m2
  | 13 => some e3m2
  | 14 => some e2m3
  | 15 => some e2m1
  | 17 => some (b8p 1 inf) | 18 => some (b8p 2 inf) | 19 => some (b8p 3 inf) | 20 => some (b8p 4 inf)
  | 21 => some (b8p 5 inf) | 22 => some (b8p 6 inf) | 23 => some (b8p 7 inf)
  | 25 => some (b8q 1 inf) | 26 => some (b8q 2 inf) | 27 => some (b8q 3 inf) | 28 => some (b8q 4 inf)
  | 29 => some (b8q 5 inf) | 30 => some (b8q 6 inf) | 31 => some (b8q 7 inf)
  | _ => none

/-- Bit position of the sign: none in an unsigned format. -/
def Fmt.signBit (f : Fmt) : Nat := 2 ^ (f.bits - 1)

/-- Whether a code of a format is a NaN. -/
def Fmt.isNanCode (f : Fmt) (c : Nat) : Bool :=
  match f.nanCode with
  | none => false
  | some n =>
    if f.oneZero then c == n
    else
      let mag := c % f.signBit
      match f.infMag with
      | some i => decide (i < mag)
      | none => mag == n % f.signBit

/-- The value of a magnitude field: subnormal when its exponent is 0 (R51). -/
def Fmt.magValue (f : Fmt) (neg : Bool) (mag : Nat) : Ex :=
  let e := mag / 2 ^ f.tb
  let t := mag % 2 ^ f.tb
  if e = 0 then .fin neg t (1 - f.bias - f.tb)
  else .fin neg (2 ^ f.tb + t) ((e : Int) - f.bias - f.tb)

/-- The value of a code (R49, R51, R53). Bits above the code are ignored. -/
def Fmt.decode (f : Fmt) (code : Nat) : Ex :=
  let c := code % 2 ^ f.bits
  if f.isNanCode c then .nan
  else
    let neg := f.signed && decide (f.signBit ≤ c)
    let mag := if f.signed then c % f.signBit else c
    if f.infMag = some mag then .inf neg
    else if mag = 0 then .fin (neg && !f.oneZero) 0 0
    else f.magValue neg mag

/-- A code from a sign and a magnitude field. -/
def Fmt.code (f : Fmt) (neg : Bool) (mag : Nat) : Nat :=
  if f.signed && neg then f.signBit + mag else mag

/-- The canonical NaN; +0 in a format without one (R58 step 1). -/
def Fmt.nan (f : Fmt) : Nat := f.nanCode.getD 0

/-- Largest finite value with a sign. -/
def Fmt.max (f : Fmt) (neg : Bool) : Nat := f.code neg f.maxMag

/-- The infinity with a sign, where the format has one. -/
def Fmt.infinity (f : Fmt) (neg : Bool) : Nat := f.code neg (f.infMag.getD f.maxMag)

/-- The smaller magnitude field of the grid neighbours of m × 2^e, and how the rest compares with half a step: 0 exact,
1 below half, 2 half, 3 above (R58 step 4). The grid is unbounded above. -/
def Fmt.place (f : Fmt) (m : Nat) (e : Int) : Nat × Nat :=
  if m = 0 then (0, 0)
  else
    let top := (Nat.log2 m : Int) + e
    let ex := if top < 1 - f.bias then 1 - f.bias else top
    let q := ex - f.tb
    let lift := (ex - (1 - f.bias)).toNat * 2 ^ f.tb
    if q ≤ e then (lift + m * 2 ^ (e - q).toNat, 0)
    else
      let sh := (q - e).toNat
      let k := m / 2 ^ sh
      let r := m % 2 ^ sh
      (lift + k, if r = 0 then 0 else if 2 * r < 2 ^ sh then 1 else if 2 * r = 2 ^ sh then 2 else 3)

/-- Whether the neighbour of greater magnitude is taken (R58 step 4). -/
def roundUp (mode : Nat) (neg : Bool) (lo rest : Nat) : Bool :=
  if rest = 0 then false
  else
    match mode with
    | 1 => false
    | 2 => !neg
    | 3 => neg
    | 4 => decide (2 ≤ rest)
    | _ => decide (rest = 3) || (decide (rest = 2) && decide (lo % 2 = 1))

/-- What overflow gives (R59). -/
def Fmt.overflow (f : Fmt) (mode : Nat) (sat neg : Bool) : Nat :=
  match f.spill with
  | .max => f.max neg
  | .nan => if sat then f.max neg else (if f.oneZero then f.nan else f.code neg (f.nan % f.signBit))
  | .ieee =>
    if sat then f.max neg
    else
      match mode with
      | 1 => f.max neg
      | 2 => if neg then f.max neg else f.infinity neg
      | 3 => if neg then f.infinity neg else f.max neg
      | _ => f.infinity neg

/-- What an infinite value gives (R59). A NaN of `.e4m3` has the sign of the value, as where a finite value overflows. DESIGN CHOICE (log 83). -/
def Fmt.ofInf (f : Fmt) (sat neg : Bool) : Nat :=
  match f.spill with
  | .max => f.max neg
  | .nan => if sat then f.max neg else (if f.oneZero then f.nan else f.code neg (f.nan % f.signBit))
  | .ieee => f.infinity neg

/-- `round(x, RM)` into a format (R58). -/
def Fmt.round (f : Fmt) (rm : Word) (x : Ex) : Nat :=
  match x with
  | .nan => f.nan
  | .inf neg => if !f.signed && neg then (if rmSat rm then 0 else f.nan) else f.ofInf (rmSat rm) neg
  | .fin neg m e =>
    if !f.signed && neg then (if m = 0 then 0 else if rmSat rm then 0 else f.nan)
    else
      let (lo, rest) := f.place m e
      let mag := if roundUp (rmMode rm) neg lo rest then lo + 1 else lo
      if f.maxMag < mag then f.overflow (rmMode rm) (rmSat rm) neg
      else if mag = 0 && f.oneZero then 0
      else f.code neg mag

/-- Round to nearest even without saturation, whatever RM holds. -/
def rne : Word := 0

/-- Round an exact value to an integer by a mode. -/
def roundInt (mode : Nat) (neg : Bool) (m : Nat) (e : Int) : Int :=
  let mag : Nat :=
    if 0 ≤ e then m * 2 ^ e.toNat
    else
      let sh := (-e).toNat
      let k := m / 2 ^ sh
      let r := m % 2 ^ sh
      let rest := if r = 0 then 0 else if 2 * r < 2 ^ sh then 1 else if 2 * r = 2 ^ sh then 2 else 3
      if roundUp mode neg k rest then k + 1 else k
  if neg then -(mag : Int) else (mag : Int)

/-- Integer types by the codes of R125: width and signedness. -/
def intOf (code : Nat) : Option (Nat × Bool) :=
  match code with
  | 0 => some (8, true) | 1 => some (16, true) | 2 => some (32, true) | 3 => some (64, true)
  | 4 => some (8, false) | 5 => some (16, false) | 6 => some (32, false) | 7 => some (64, false)
  | _ => none

def intMin (w : Nat) (signed : Bool) : Int := if signed then -(2 ^ (w - 1) : Nat) else 0
def intMax (w : Nat) (signed : Bool) : Int := if signed then (2 ^ (w - 1) : Nat) - 1 else (2 ^ w : Nat) - 1

def clampInt (w : Nat) (signed : Bool) (z : Int) : Int := max (intMin w signed) (min z (intMax w signed))

/-- Floating value to an integer type: NaN gives 0, otherwise rounded and clamped (R60). -/
def toInt (mode w : Nat) (signed : Bool) : Ex → Int
  | .nan => 0
  | .inf neg => if neg then intMin w signed else intMax w signed
  | .fin neg m e => clampInt w signed (roundInt mode neg m e)

/-- Integer to an integer type: wider exact, same type unchanged, narrower or the other signedness by SAT (R60). -/
def intToInt (sat : Bool) (sw : Nat) (ss : Bool) (tw : Nat) (ts : Bool) (z : Int) : Int :=
  if sw = tw && ss = ts then z
  else if sw < tw then z
  else if sat then clampInt tw ts z
  else z

/-- The low 64 bits of an integer. -/
def bits64 (z : Int) : DWord := BitVec.ofInt 64 z

/-- A code read as an integer of a width and signedness. -/
def readInt (w : Nat) (signed : Bool) (x : Nat) : Int :=
  let c := x % 2 ^ w
  if signed && decide (2 ^ (w - 1) ≤ c) then (c : Int) - (2 ^ w : Nat) else (c : Int)

/-! ### Scales and block quantisation -/

/-- The E8M0 scale's exponent; 0xFF is NaN (R54). -/
def scaleExp (s : Byte) : Option Int := if s = 0xFF then none else some ((s.toNat : Int) - 127)

/-- A value under a scale (R54). -/
def Ex.scaled (x : Ex) (s : Byte) : Ex :=
  match scaleExp s with
  | none => .nan
  | some n => x.scale n

/-- Exponent of the largest normal value: the table of R53, and floor(log2 max) for binary8 (R225, R243). -/
def Fmt.emax (f : Fmt) : Int :=
  match f.magValue false f.maxMag with
  | .fin _ m e => (Nat.log2 m : Int) + e
  | _ => 0

/-- floor(log2 x) of a positive finite value. -/
def Ex.log2 : Ex → Int
  | .fin _ m e => (Nat.log2 m : Int) + e
  | _ => 0

/-- The block rule of R61: the scale, and the code of each value. Values given as `none` (poison) take no part. -/
def quantBlock (f : Fmt) (mode : Nat) (vals : List (Option Ex)) : Byte × List Nat :=
  let live := vals.filterMap id
  if live.any (fun v => v.isNan || v.isInf) then (0xFF, vals.map fun _ => 0)
  else
    let amax := live.foldl (fun acc v => if Ex.cmp acc v.abs < 0 then v.abs else acc) (.fin false 0 0)
    let x0 : Int := if amax.isZero then -127 else amax.log2 - f.emax
    let x := min (max x0 (-127)) 127
    let rm : Word := BitVec.ofNat 32 (8 + mode)
    (BitVec.ofInt 8 (x + 127), vals.map fun v => match v with
      | none => 0
      | some v => f.round rm (v.scale (-x)))

/-! ### Sums -/

/-- A rounded sum of exact terms into a format. -/
def Fmt.roundSum (f : Fmt) (rm : Word) (terms : List Ex) : Nat := f.round rm (Ex.sum (rmMode rm == 3) terms)

/-- The block dot product of R63 over the given products with the two scales' exponents, as an exact value before its
one rounding; `none` scales are NaN. -/
def blockDot (products : List Ex) (sa sb : Option Int) : Nat :=
  match sa, sb with
  | some x, some y =>
    if products.any Ex.isNan then f32.nan
    else
      let s := Ex.sum false products
      match s with
      | .nan => f32.nan
      | .inf neg => f32.infinity neg
      | .fin neg m e =>
        if m = 0 then f32.round rne (.fin (!products.isEmpty && products.all (fun p => p.isZero && p.sign)) 0 0)
        else f32.round rne (.fin neg m (e + (x + y)))
  | _, _ => f32.nan

/-- One accumulation step of R64. -/
def accumulate (acc : Nat) (blk : Nat) : Nat := f32.roundSum rne [f32.decode acc, f32.decode blk]

/-- FMIN and FMAX on codes of a format: an operand unchanged, or the canonical NaN (R113). -/
def Fmt.minMax (f : Fmt) (isMax : Bool) (a b : Nat) : Nat :=
  let x := f.decode a
  let y := f.decode b
  if x.isNan && y.isNan then f.nan
  else if x.isNan then b % 2 ^ f.bits
  else if y.isNan then a % 2 ^ f.bits
  else
    let c := Ex.cmp x y
    let aLess := if c = 0 then x.sign && !y.sign else decide (c < 0)
    let bLess := if c = 0 then y.sign && !x.sign else decide (0 < c)
    (if isMax then (if aLess then b else a) else (if bLess then b else a)) % 2 ^ f.bits

/-- The cross-lane tree of R62 over optional values, one level at a time; `n` is a power of two. -/
def treeStep {α : Type} (op : α → α → α) : List (Option α) → List (Option α)
  | x :: y :: rest =>
    (match x, y with
     | none, y => y
     | x, none => x
     | some a, some b => some (op a b)) :: treeStep op rest
  | l => l

def treeFold {α : Type} (op : α → α → α) : Nat → List (Option α) → Option α
  | 0, l => l.headD none
  | n + 1, l => treeFold op n (treeStep op l)

end Sys2Proof.Machine
end

