-- ==== Sys2Proof/Machine/Sfu.lean ====
section
/-!
DEFINITION. Special functions in FP32 (R118, R119) and logaddexp (R265). rcp, rsq and sqrt are correctly rounded. The others
return a free code where it lies within the manual's bound of the exact result, judged against a fixed-point value whose
own error is far below the bound, and the nearest code otherwise; their exact cases and special values are fixed.
-/
namespace Sys2Proof.Machine

/-- floor of the square root, by bits from bit k down. -/
def isqrtFrom (n : Nat) : Nat → Nat → Nat
  | 0, r => r
  | k + 1, r => let t := r + 2 ^ k; isqrtFrom n k (if t * t ≤ n then t else r)

def isqrt (n : Nat) (bits : Nat) : Nat := isqrtFrom n bits 0

/-- Append a sticky bit: an exact value whose rounding equals that of (m + frac) × 2^e, frac non-zero when inexact. -/
def sticky (m : Nat) (e : Int) (inexact : Bool) : Ex := .fin false (2 * m + (if inexact then 1 else 0)) (e - 1)

/-- 1/(m × 2^e) to 64 significant bits and more, with sticky bit. -/
def recipEx (m : Nat) (e : Int) : Ex :=
  let k : Nat := Nat.log2 m + 80
  sticky (2 ^ k / m) (-(k : Int) - e) (2 ^ k % m ≠ 0)

/-- √(m × 2^e) to 60 significant bits and more, with sticky bit. -/
def sqrtEx (m : Nat) (e : Int) : Ex :=
  let sh : Nat := 128 + (if e % 2 = 0 then 0 else 1)
  let n := m * 2 ^ sh
  let r := isqrt n 100
  sticky r ((e - sh) / 2) (r * r ≠ n)

/-- 1/√(m × 2^e), with sticky bit: floor(√(2^k / m)), k chosen so that the exponent is even. -/
def rsqrtEx (m : Nat) (e : Int) : Ex :=
  let k : Nat := 240 + (if e % 2 = 0 then 0 else 1)
  let n := 2 ^ k / m
  let r := isqrt n 125
  sticky r ((-e - k) / 2) (r * r * m ≠ 2 ^ k)

def rcpCode (rm : Word) (x : Ex) : Nat :=
  match x with
  | .nan => f32.nan
  | .inf s => f32.code s 0
  | .fin s m e =>
    if m = 0 then f32.infinity s
    else f32.round rm (if s then (recipEx m e).neg else recipEx m e)

def rsqCode (rm : Word) (x : Ex) : Nat :=
  match x with
  | .nan => f32.nan
  | .inf s => if s then f32.nan else 0
  | .fin s m e => if m = 0 then f32.infinity s else if s then f32.nan else f32.round rm (rsqrtEx m e)

def sqrtCode (rm : Word) (x : Ex) : Nat :=
  match x with
  | .nan => f32.nan
  | .inf s => if s then f32.nan else f32.infinity false
  | .fin s m e => if m = 0 then f32.code s 0 else if s then f32.nan else f32.round rm (sqrtEx m e)

/-! ### Fixed point with 160 fraction bits -/

def fxBits : Nat := 160
def fxOne : Int := (2 ^ 160 : Nat)
/-- floor(ln 2 × 2^160). -/
def fxLn2 : Int := 1013035739299659071135698605846798551586536899366
/-- floor(π × 2^320). -/
def piBits320 : Int := 6710401180212168915155840974220003240804194089427148950727106424351713218671805380099500388914039

/-- A finite value in fixed point, truncated toward zero. -/
def toFx (neg : Bool) (m : Nat) (e : Int) : Int :=
  let s := e + 160
  let a : Nat := if 0 ≤ s then m * 2 ^ s.toNat else m / 2 ^ (-s).toNat
  if neg then -(a : Int) else a

def fxMul (a b : Int) : Int := (a * b) / fxOne

/-- Taylor series of e^r: terms k, k + 1, … from the term before. -/
def expTerms (r : Int) : Nat → Int → Int → Int → Int
  | 0, _, _, acc => acc
  | n + 1, k, t, acc => let t' := fxMul t r / k; expTerms r n (k + 1) t' (acc + t')

/-- e^r in fixed point for |r| ≤ 1. -/
def fxExp (r : Int) : Int := expTerms r 45 1 fxOne fxOne

/-- e^v as mantissa with 160 fraction bits and a power of two, for v in fixed point. -/
def expParts (v : Int) : Int × Int :=
  let n := v / fxLn2
  (fxExp (v - n * fxLn2), n)

/-- Odd series of atanh: z^(2k+1)/(2k+1). -/
def atanhTerms (z2 : Int) : Nat → Int → Int → Int → Int
  | 0, _, _, acc => acc
  | n + 1, k, p, acc => let p' := fxMul p z2; atanhTerms z2 n (k + 2) p' (acc + p' / k)

/-- ln of t in [1, 2], in fixed point: 2 atanh((t - 1)/(t + 1)). -/
def fxLnUnit (t : Int) : Int :=
  let z := ((t - fxOne) * fxOne) / (t + fxOne)
  2 * atanhTerms (fxMul z z) 52 3 z z

/-- Alternating series of sine: -r^2/((k)(k+1)) steps. -/
def trigTerms (r2 : Int) : Nat → Int → Int → Int → Int
  | 0, _, _, acc => acc
  | n + 1, k, t, acc => let t' := -(fxMul t r2) / (k * (k + 1)); trigTerms r2 n (k + 2) t' (acc + t')

def fxSin (r : Int) : Int := trigTerms (fxMul r r) 40 2 r r
def fxCos (r : Int) : Int := trigTerms (fxMul r r) 40 1 fxOne fxOne

/-- x reduced modulo 2π into [-π, π], in fixed point, from 320 bits of π. -/
def reducePi (neg : Bool) (m : Nat) (e : Int) : Int :=
  let s := e + 320
  let a : Int := (if 0 ≤ s then m * 2 ^ s.toNat else m / 2 ^ (-s).toNat : Nat)
  let twoPi := 2 * piBits320
  let r := a % twoPi
  let r := if piBits320 < r then r - twoPi else r
  let r := r / (2 ^ 160 : Nat)
  if neg then -r else r

/-! ### Choice within a bound -/

/-- An approximation mant × 2^ex, mant an integer. -/
structure Approx where
  mant : Int
  ex : Int

def Approx.toEx (a : Approx) : Ex := .fin (decide (a.mant < 0)) a.mant.natAbs a.ex

/-- Twice the distance of a code's value from an approximation is at most num × 2^q. -/
def within (code : Nat) (a : Approx) (num : Nat) (q : Int) : Bool :=
  match f32.decode code with
  | .fin s m e =>
    let lo := min (min e a.ex) q
    let d := (Ex.at lo (.fin s m e) - a.mant * ((2 ^ (a.ex - lo).toNat : Nat) : Int)).natAbs
    decide (2 * d ≤ num * 2 ^ (q - lo).toNat)
  | _ => false

/-- Exponent of one ulp of an exact result (R119). -/
def Approx.ulp (a : Approx) : Int :=
  if a.mant = 0 then -149
  else max ((Nat.log2 a.mant.natAbs : Int) + a.ex) (-126) - 23

/-- The free code where it lies within half-ulps of the approximation, otherwise the nearest code. DEDUCED (log 16). -/
def choose (code : Nat) (a : Approx) (halfUlps : Nat) : Nat :=
  if within code a halfUlps a.ulp then code else f32.round rne a.toEx

/-- The free code where it lies within 2^-22, otherwise the nearest code. -/
def chooseAbs (code : Nat) (a : Approx) : Nat :=
  if within code a 2 (-22) then code else f32.round rne a.toEx

/-- An approximation in fixed point kept on the side of 1 on which the exact result lies: short of it where the result is short of it,
above where it is above. -/
def shortOf (one x : Int) : Int := min x (one - 1)
def above (one x : Int) : Int := max x (one + 1)

/-- 2^x (R118 row 3): overflow by SAT only, exact for integers. -/
def ex2Code (sat : Bool) (free : Nat) (x : Ex) : Nat :=
  let spill := if sat then f32.max false else f32.infinity false
  match x with
  | .nan => f32.nan
  | .inf s => if s then 0 else f32.infinity false
  | .fin neg m e =>
    if m = 0 then 0x3F800000
    else if !neg && decide (7 ≤ (Nat.log2 m : Int) + e) then spill
    else if neg && decide (9 ≤ (Nat.log2 m : Int) + e) then choose free ⟨1, -1000⟩ 2
    else
      let v := toFx neg m e
      let n := v / fxOne
      if v % fxOne = 0 && (0 ≤ e || m % 2 ^ (-e).toNat = 0) && decide (-149 ≤ n) then f32.round rne (.fin false 1 n)
      else if v = 0 then choose free ⟨if neg then fxOne - 1 else fxOne + 1, -160⟩ 2
      else choose free ⟨shortOf (2 * fxOne) (above fxOne (fxExp (fxMul (v - n * fxOne) fxLn2))), n - 160⟩ 2

/-- log2 x (R118 row 4): exact for powers of two. -/
def lg2Code (free : Nat) (x : Ex) : Nat :=
  match x with
  | .nan => f32.nan
  | .inf s => if s then f32.nan else f32.infinity false
  | .fin neg m e =>
    if m = 0 then f32.infinity true
    else if neg then f32.nan
    else
      let k := Nat.log2 m
      let n := (k : Int) + e
      if m = 2 ^ k then f32.round rne (Ex.ofInt n)
      else
        let t := toFx false m (-(k : Int))
        choose free ⟨n * fxOne + fxLnUnit t * fxOne / fxLn2, -160⟩ 2

/-- The sine of a reduced argument, not 0 where the argument is too small for the fixed point. -/
def fxSinOf (neg : Bool) (r : Int) : Int := if fxSin r = 0 then (if neg then -1 else 1) else fxSin r
/-- The cosine of a reduced argument other than 0: short of 1. -/
def fxCosOf (r : Int) : Int := max (shortOf fxOne (fxCos r)) (1 - fxOne)

/-- sin x (R118 row 5). -/
def sinCode (free : Nat) (x : Ex) : Nat :=
  match x with
  | .fin neg m e => if m = 0 then f32.code neg 0 else chooseAbs free ⟨fxSinOf neg (reducePi neg m e), -160⟩
  | _ => f32.nan

/-- cos x (R118 row 6). -/
def cosCode (free : Nat) (x : Ex) : Nat :=
  match x with
  | .fin neg m e => if m = 0 then 0x3F800000 else chooseAbs free ⟨fxCosOf (reducePi neg m e), -160⟩
  | _ => f32.nan

/-- tanh x (R118 row 7). Below 2^-12 by the first terms of its series, which keep relative accuracy. -/
def tanhCode (free : Nat) (x : Ex) : Nat :=
  match x with
  | .nan => f32.nan
  | .inf s => f32.code s 0x3F800000
  | .fin neg m e =>
    if m = 0 then f32.code neg 0
    else
      let top := (Nat.log2 m : Int) + e
      let s : Int := if neg then -1 else 1
      if top < -12 then
        let x2 := fxMul (toFx false m e) (toFx false m e)
        let br := fxOne - x2 / 3 + 2 * fxMul x2 x2 / 15 - 17 * fxMul x2 (fxMul x2 x2) / 315
        choose free ⟨s * ((m : Int) * shortOf fxOne br), e - 160⟩ 4
      else if 6 ≤ top then choose free ⟨s * (2 ^ 200 - 1 : Nat), -200⟩ 4
      else
        let (t, n) := expParts (2 * toFx false m e)
        let y := t * ((2 ^ n.toNat : Nat) : Int)
        choose free ⟨s * (((y - fxOne) * fxOne) / (y + fxOne)), -160⟩ 4

/-- ln(1 + e^-d) for d ≥ 0 in fixed point. -/
def fxSoftplus (d : Int) : Int :=
  if 200 * fxOne < d then 0
  else
    let (t, n) := expParts (-d)
    let y := t / ((2 ^ (-n).toNat : Nat) : Int)
    fxLnUnit (fxOne + y)

/-- lae(u, v) = ln(e^u + e^v) on FP32 codes (R265); a sum too close to its larger part for the fixed point stands a little above it. -/
def laeCode (sat : Bool) (free u v : Nat) : Nat :=
  let x := f32.decode u
  let y := f32.decode v
  match x, y with
  | .nan, _ => f32.nan
  | _, .nan => f32.nan
  | .inf s, .inf t => if s = t then f32.infinity s else f32.nan
  | .inf s, _ => if s then v else f32.infinity false
  | _, .inf t => if t then u else f32.infinity false
  | .fin _ _ _, .fin _ _ _ =>
    let hi := if Ex.cmp x y < 0 then y else x
    let lo := if Ex.cmp x y < 0 then x else y
    let d := Ex.sum false [hi, lo.neg]
    let a : Approx :=
      match hi, d with
      | .fin sh mh eh, .fin _ md ed =>
        let soft := if 9 ≤ (Nat.log2 md : Int) + ed then 0 else fxSoftplus (toFx false md ed)
        let q := min eh (-160) - 640
        ⟨Ex.at q (.fin sh mh eh) + (if soft = 0 then 1 else soft * ((2 ^ (-160 - q).toNat : Nat) : Int)), q⟩
      | _, _ => ⟨0, 0⟩
    let c := choose free a 4
    if sat && c % 2 ^ 31 == 0x7F800000 then f32.max (f32.decode c).sign else c

end Sys2Proof.Machine
end

