-- ==== Sys2Proof/Machine/Flags.lean ====
section
/-!
DEFINITION. Conditions and classes: integer and floating compares, the class mask of `FCLS`, truth tables of `PLOP`, the
test of an incumbent.
-/
namespace Sys2Proof.Machine

/-- Condition of `ICMP` and `ICMPI` on values of a width (R120). -/
def intCond (cond w : Nat) (x y : Nat) : Bool :=
  let sx := readInt w true x
  let sy := readInt w true y
  let ux := readInt w false x
  let uy := readInt w false y
  match cond with
  | 0 => decide (ux = uy)
  | 1 => decide (ux ≠ uy)
  | 2 => decide (sx < sy)
  | 3 => decide (sx ≤ sy)
  | 4 => decide (sx > sy)
  | 5 => decide (sx ≥ sy)
  | 6 => decide (ux < uy)
  | 7 => decide (ux ≤ uy)
  | 8 => decide (ux > uy)
  | _ => decide (ux ≥ uy)

/-- Condition of `FCMP` (R121). -/
def floatCond (cond : Nat) (x y : Ex) : Bool :=
  let uno := x.isNan || y.isNan
  let k := Ex.cmp x y
  match cond with
  | 0 => !uno && decide (k = 0)
  | 1 => uno || decide (k ≠ 0)
  | 2 => !uno && decide (k < 0)
  | 3 => !uno && decide (k ≤ 0)
  | 4 => !uno && decide (k > 0)
  | 5 => !uno && decide (k ≥ 0)
  | 6 => !uno
  | _ => uno

/-- The bit that `FCLS` sets for a code of a format (R117). -/
def classBit (f : Fmt) (code : Nat) : Nat :=
  let c := code % 2 ^ f.bits
  match f.decode c with
  | .nan => if c.testBit (f.tb - 1) then 9 else 8
  | .inf neg => if neg then 0 else 7
  | .fin neg m _ =>
    if m = 0 then (if neg then 3 else 4)
    else if c % f.signBit / 2 ^ f.tb = 0 then (if neg then 2 else 5)
    else (if neg then 1 else 6)

/-- Truth table of `PLOP` (R123). -/
def plopBit (t : BitVec 4) (x y : Bool) : Bool :=
  t.getLsbD ((if x then 1 else 0) + 2 * (if y then 1 else 0))

/-- Whether `x` comes strictly before `y` in a direction and a format of R337: 0 f32, 1 i32, 2 n32 (R339). -/
def better (fmt : Nat) (maximise : Bool) (x y : Word) : Bool :=
  let less (a b : Word) : Bool :=
    if fmt = 0 then floatCond 2 (f32.decode a.toNat) (f32.decode b.toNat)
    else if fmt = 1 then a.slt b
    else a.ult b
  if maximise then less y x else less x y

/-- Equality in a format of R337. -/
def sameValue (fmt : Nat) (x y : Word) : Bool :=
  if fmt = 0 then floatCond 0 (f32.decode x.toNat) (f32.decode y.toNat) else x == y

/-- The cull test of R346: a held value against a bound, under a `BNDC` value. -/
def passes (bndc v bnd : Word) : Bool :=
  let fmt := (bndc.extractLsb' 8 2).toNat
  better fmt (bndc.getLsbD 5) v bnd || (bndc.getLsbD 6 && sameValue fmt v bnd)

end Sys2Proof.Machine
end

