-- ==== Sys2Proof/Machine/Operands.lean ====
section
/-!
DEFINITION. Operand forms: which register fields a word reads and writes in each FORM, which attachments it takes, and the
values its other fields may hold. A word that breaks its shape takes the emulation trap (R92).
-/
namespace Sys2Proof.Machine

/-- A register field in use: how many registers it stands for, read or written. -/
inductive Use where
  | src (field : BitVec 7) (n : Nat)
  | dst (field : BitVec 7) (n : Nat)
  /-- Read and written. -/
  | both (field : BitVec 7) (n : Nat)
  deriving DecidableEq, Repr

/-- Whether a word may name a flag. -/
inductive FlagRule where
  | never | optional | required
  deriving DecidableEq, Repr

/-- The shape of a word in one FORM, with or without a `LIMM`. -/
structure Shape where
  op : Nat := 0
  y : Bool := false
  guard : BitVec 3 := 7
  uses : List Use := []
  forms : List Nat := [0]
  limm : Bool := false
  flagRule : FlagRule := .never
  /-- The FLAG field of an M-format word; others take it from an `XMOD`. -/
  mFlag : Option (BitVec 4) := none
  scope : Bool := false
  colour : Bool := false
  cp : Nat := 1
  /-- The other fields hold values the word's description lists. -/
  fields : Bool := true
  deriving Repr

/-- Register fields of R68, groups of R69 and R181, within the unit's NV (R165). -/
def groupOk (nv : Nat) (f : BitVec 7) (n : Nat) (dest : Bool) : Bool :=
  let r := f.toNat
  if n = 1 then (if r < 104 then decide (r < nv) else !dest || decide (r ≤ 120))
  else if n = 2 then r == 120 || (r % 2 == 0 && (decide (r + 1 < nv) && decide (r ≤ 102) || decide (104 ≤ r ∧ r ≤ 118)))
  else r % n == 0 && decide (r + n ≤ nv) && decide (r + n ≤ 104)

/-- The four registers of a 64-bit `CAS`: two pairs, of thread or of uniform registers, the first number a multiple of 4 (R69,
R193). -/
def casGroupOk (nv : Nat) (f : BitVec 7) : Bool :=
  f.toNat % 4 == 0 && (decide (f.toNat + 4 ≤ nv ∧ f.toNat + 4 ≤ 104) || decide (104 ≤ f.toNat ∧ f.toNat + 4 ≤ 120))

def Use.ok (nv : Nat) : Use → Bool
  | .src f n => groupOk nv f n false
  | .dst f n => groupOk nv f n true
  | .both f n => if n = 4 then casGroupOk nv f else groupOk nv f n true

/-- The registers a use reads. -/
def Use.reads : Use → List Nat
  | .src f n => (List.range n).map fun k => f.toNat + k
  | .both f n => (List.range n).map fun k => f.toNat + k
  | .dst _ _ => []

def codeOk (t : BitVec 5) : Bool := t != 16 && t != 24
def isBinary8 (t : Nat) : Bool := decide (17 ≤ t ∧ t ≤ 23) || decide (25 ≤ t ∧ t ≤ 31)
/-- Registers an integer or floating FORM of R97 and R98 takes for an operand. -/
def wide64 (form : Nat) : Nat := if form = 2 ∨ form = 3 then 2 else 1
def wide2 (form : Nat) : Nat := if form = 2 then 2 else 1

/-- Bytes and registers of a load or store by FORM and MOD [2] (R180). -/
def memSize (form : Nat) (wide : Bool) : Option (Nat × Bool) :=
  match form, wide with
  | 0, false => some (4, false)
  | 0, true => some (8, false)
  | 1, false => some (1, false)
  | 2, false => some (1, true)
  | 3, false => some (2, false)
  | 4, false => some (2, true)
  | _, _ => none

/-- The address operands of a memory word (R178): MOD [1:0] and a. -/
def addrUses (m : BitVec 3) (a : BitVec 7) : List Use :=
  match (m.extractLsb' 0 2).toNat with
  | 2 => [.src a 1, .src 104 2]
  | 3 => [.src a 2]
  | _ => [.src a 1]

/-- A semiring's accepted formats (R263). -/
def semiringFmt (semi fmt : Nat) : Bool :=
  if semi ≤ 2 then decide (fmt ≤ 3) else if semi = 3 then decide (fmt ≤ 2) else semi == 4 && fmt == 4

/-- The shape of a word. A `LIMM` before a word of the G format that names no b operand (`RDX`, `CONF`, `BCAST`), or before `QRD` or `QWR`,
which name no address, breaks it: no rule speaks of one there (R74, R152). DESIGN CHOICE (log 77). -/
def shape (i : Instr) (form : Nat) (limm : Bool) : Shape :=
  let b1 (b : BitVec 7) (n : Nat) : List Use := if limm then [] else [.src b n]
  let alu (op : Nat) (y : Bool) (g : BitVec 3) (d a b : BitVec 7) (forms : List Nat) (n nb : Nat) : Shape :=
    { op := op, y := y, guard := g, uses := [.dst d n, .src a n] ++ b1 b nb, forms := forms, limm := true }
  let acc (op : Nat) (y : Bool) (g : BitVec 3) (d a b : BitVec 7) (forms : List Nat) (nd n : Nat) : Shape :=
    { op := op, y := y, guard := g, uses := [.both d nd, .src a n] ++ b1 b n, forms := forms, limm := true }
  let one (op : Nat) (y : Bool) (g : BitVec 3) (d a : BitVec 7) (forms : List Nat) (nd na : Nat) : Shape :=
    { op := op, y := y, guard := g, uses := [.dst d nd, .src a na], forms := forms }
  let mem (op : Nat) (y : Bool) (g : BitVec 3) (m : BitVec 3) (a : BitVec 7) (us : List Use) : Shape :=
    { op := op, y := y, guard := g, uses := us ++ addrUses m a, limm := true, cp := 4 }
  let eng (op : Nat) (y : Bool) (g : BitVec 3) (us : List Use) (fr : FlagRule) : Shape :=
    { op := op, y := y, guard := g, uses := us, flagRule := fr }
  match i with
  | .sched _ _ _ _ _ => { op := 0x00 }
  | .limm _ => { op := 0x01 }
  | .xmod _ _ _ _ _ _ => { op := 0x02 }
  | .eret g => { op := 0x08, y := true, guard := g }
  | .exit g => { op := 0x09, y := true, guard := g }
  | .rdx y g d a => one 0x0A y g d a [0] 1 1
  | .wrx y g a b => { op := 0x0B, y := y, guard := g, uses := [.src a 1] ++ b1 b 1, limm := true }
  | .movsRd y g d _ => { op := 0x0C, y := y, guard := g, uses := [.dst d 1] }
  | .movsWr y g _ a => { op := 0x0C, y := y, guard := g, uses := [.src a 1] }
  | .rdclkCyc y g d => { op := 0x0D, y := y, guard := g, uses := [.dst d 2] }
  | .rdclkNs y g d => { op := 0x0D, y := y, guard := g, uses := [.dst d 2] }
  | .iadd y g d a b => alu 0x10 y g d a b [0, 1, 2, 3, 4, 5] (wide64 form) (wide64 form)
  | .isub y g d a b => alu 0x11 y g d a b [0, 1, 2, 3, 4, 5] (wide64 form) (wide64 form)
  | .iaddi y g d a _ => { one 0x12 y g d a [0, 1, 2, 3, 4, 5] (wide64 form) (wide64 form) with limm := true }
  | .imul y g d a b => alu 0x13 y g d a b [0, 1, 2, 3] (wide64 form) (wide64 form)
  | .imulh y g d a b => alu 0x14 y g d a b [0, 1, 2, 3] (wide64 form) (wide64 form)
  | .imad y g d a b => acc 0x15 y g d a b [0, 1, 2, 3] (wide64 form) (wide64 form)
  | .imin y g d a b => alu 0x16 y g d a b [0, 1, 2, 3] (wide64 form) (wide64 form)
  | .imax y g d a b => alu 0x17 y g d a b [0, 1, 2, 3] (wide64 form) (wide64 form)
  | .and y g d a b => alu 0x18 y g d a b [0, 2] (wide2 form) (wide2 form)
  | .or y g d a b => alu 0x19 y g d a b [0, 2] (wide2 form) (wide2 form)
  | .xor y g d a b => alu 0x1A y g d a b [0, 2] (wide2 form) (wide2 form)
  | .andn y g d a b => alu 0x1B y g d a b [0, 2] (wide2 form) (wide2 form)
  | .shl y g d a b => alu 0x1C y g d a b [0, 2] (wide2 form) 1
  | .shr y g d a b => alu 0x1D y g d a b [0, 2] (wide2 form) 1
  | .sar y g d a b => alu 0x1E y g d a b [0, 2] (wide2 form) 1
  | .shi y g d a _ _ => { one 0x1F y g d a [0] 1 1 with limm := true }
  | .bfe y g d a b => alu 0x20 y g d a b [0, 1] 1 1
  | .bfi y g d a b => acc 0x21 y g d a b [0] 1 1
  | .popc y g d a => one 0x22 y g d a [0] 1 1
  | .clz y g d a => one 0x22 y g d a [0] 1 1
  | .ctz y g d a => one 0x22 y g d a [0] 1 1
  | .brev y g d a => one 0x22 y g d a [0] 1 1
  | .bswap y g d a => one 0x22 y g d a [0] 1 1
  | .mov y g d b =>
    { op := 0x23, y := y, guard := g, uses := [.dst d (wide2 form)] ++ b1 b (wide2 form), forms := [0, 2], limm := true }
  | .lea y g d a b =>
    { op := 0x24, y := y, guard := g, uses := [.dst d 2, .src a 2] ++ b1 b 1, forms := List.range 10, limm := true }
  | .idot4 y g d a b => acc 0x25 y g d a b [0, 1, 2] 1 1
  | .imadw y g d a b => acc 0x26 y g d a b [0, 1] 2 1
  | .fadd y g d a b => alu 0x28 y g d a b [0, 1, 2, 3, 4] 1 1
  | .fsub y g d a b => alu 0x29 y g d a b [0, 1, 2, 3, 4] 1 1
  | .fmul y g d a b => alu 0x2A y g d a b [0, 1, 2, 3, 4] 1 1
  | .ffma y g d a b => acc 0x2B y g d a b [0, 1, 2, 3, 4] 1 1
  | .fmin y g d a b => alu 0x2C y g d a b [0, 1, 2, 3, 4] 1 1
  | .fmax y g d a b => alu 0x2D y g d a b [0, 1, 2, 3, 4] 1 1
  | .fabs y g d a => one 0x2E y g d a [0, 1, 2, 3, 4] 1 1
  | .fneg y g d a => one 0x2E y g d a [0, 1, 2, 3, 4] 1 1
  | .fnabs y g d a => one 0x2E y g d a [0, 1, 2, 3, 4] 1 1
  | .fcls y g d a => one 0x2F y g d a [0, 1, 2] 1 1
  | .fdot2 y g d a b => acc 0x30 y g d a b [0, 1] 1 1
  | .frnd y g d a r => { one 0x31 y g d a [0, 1, 2, 3, 4] 1 1 with fields := decide (r.toNat ≤ 5) }
  | .fscl y g d a b => alu 0x32 y g d a b [0, 1, 2] 1 1
  | .rcp y g d a => one 0x38 y g d a [0] 1 1
  | .rsq y g d a => one 0x38 y g d a [0] 1 1
  | .sqrt y g d a => one 0x38 y g d a [0] 1 1
  | .ex2 y g d a => one 0x38 y g d a [0] 1 1
  | .lg2 y g d a => one 0x38 y g d a [0] 1 1
  | .sin y g d a => one 0x38 y g d a [0] 1 1
  | .cos y g d a => one 0x38 y g d a [0] 1 1
  | .tanh y g d a => one 0x38 y g d a [0] 1 1
  | .cvti y g d a s t =>
    { one 0x40 y g d a (if isBinary8 t.toNat then [0, 1] else [0]) (if t == 3 || t == 7 then 2 else 1)
        (if 2 ≤ s.toNat then 2 else 1) with fields := codeOk t }
  | .cvtf y g d a s t =>
    { one 0x41 y g d a (if isBinary8 t.toNat then [0, 1] else [0]) (if t == 3 || t == 7 then 2 else 1) 1
        with fields := codeOk t && s != 3 }
  | .cvtb y g d a s _ =>
    { one 0x42 y g d a (if isBinary8 s.toNat then [0, 1] else [0]) 1 1
        with fields := isBinary8 s.toNat || decide (11 ≤ s.toNat ∧ s.toNat ≤ 15) }
  | .cvts y g d a b => alu 0x43 y g d a b (List.range 12) 1 1
  | .qblk y g d a k t =>
    { one 0x44 y g d a [0] 1 1 with fields := decide (t.toNat ≤ 4) && d.toNat != 104 + k.toNat }
  | .pack y g d a b => if form = 0 then alu 0x45 y g d a b [0, 1, 2] 1 1 else acc 0x45 y g d a b [0, 1, 2] 1 1
  | .unpk y g d a w k =>
    { one 0x46 y g d a [0] 1 1 with fields := decide (w.toNat ≤ 2 ∧ k.toNat < 2 ^ (w.toNat + 1)) }
  | .icmp y g c p a b =>
    { op := 0x48, y := y, guard := g, uses := [.src a (wide2 form)] ++ b1 b (wide2 form), forms := [0, 2], limm := true,
      fields := decide (c.toNat ≤ 9) && p != 7 }
  | .fcmp y g c p a b =>
    { op := 0x49, y := y, guard := g, uses := [.src a 1] ++ b1 b 1, forms := [0, 1, 2], limm := true,
      fields := decide (c.toNat ≤ 7) && p != 7 }
  | .sel y g d a b => acc 0x4A y g d a b [0, 2] (wide2 form) (wide2 form)
  | .plop y g p _ _ _ => { op := 0x4B, y := y, guard := g, fields := p != 7 }
  | .pmovP y g p a => { op := 0x4C, y := y, guard := g, uses := [.src a 1], fields := p != 7 }
  | .pmovV y g d _ => { op := 0x4C, y := y, guard := g, uses := [.dst d 1] }
  | .pmovM y g d => { op := 0x4C, y := y, guard := g, uses := [.dst d 1] }
  | .pmovS y g a => { op := 0x4C, y := y, guard := g, uses := [.src a 1] }
  | .icmpi y g c p a _ =>
    { op := 0x4D, y := y, guard := g, uses := [.src a (wide2 form)], forms := [0, 2], limm := true,
      fields := decide (c.toNat ≤ 9) && p != 7 }
  | .shfl y g d a b => alu 0x50 y g d a b (List.range 8) (if 4 ≤ form then 2 else 1) 1
  | .voteAll y g p _ => { op := 0x51, y := y, guard := g, fields := p != 7 }
  | .voteAny y g p _ => { op := 0x51, y := y, guard := g, fields := p != 7 }
  | .voteBallot y g d _ => { op := 0x51, y := y, guard := g, uses := [.dst d 1] }
  | .voteUni y g p a => { op := 0x51, y := y, guard := g, uses := [.src a 1], fields := p != 7 }
  | .red y g d a o t =>
    { one 0x52 y g d a [0] (if t == 3 || t == 4 then 2 else 1) (if t == 3 || t == 4 then 2 else 1)
        with fields := decide (o.toNat ≤ 5) && t != 7 && !(decide (3 ≤ o.toNat) && (t == 2 || t == 5 || t == 6)) }
  | .scanl y g d a o _ t =>
    { one 0x53 y g d a [0] (if t == 3 || t == 4 then 2 else 1) (if t == 3 || t == 4 then 2 else 1)
        with fields := decide (o.toNat ≤ 5) && t != 7 && !(decide (3 ≤ o.toNat) && (t == 2 || t == 5 || t == 6)) }
  | .conf y g d a => one 0x54 y g d a [0, 2] 1 (wide2 form)
  | .bcast y g d a => one 0x55 y g d a [0, 2] (wide2 form) (wide2 form)
  | .bra y g _ => { op := 0x58, y := y, guard := g, limm := true }
  | .call y g d _ => { op := 0x59, y := y, guard := g, uses := [.dst d 2], limm := true }
  | .ret y g a => { op := 0x5A, y := y, guard := g, uses := [.src a 2] }
  | .join y g => { op := 0x5B, y := y, guard := g }
  | .joinM y g a => { op := 0x5B, y := y, guard := g, uses := [.src a 1] }
  | .loop y n a i =>
    { op := 0x5C, y := y, uses := [.src a 1], limm := true,
      fields := n != 3 && decide (104 ≤ a.toNat ∧ a.toNat ≤ 120) && (limm || i != 0) }
  | .endl y n i => { op := 0x5D, y := y, limm := true, fields := n != 3 && (limm || i.msb) }
  | .lwait y g f => { op := 0x5E, y := y, guard := g, mFlag := some f, flagRule := .required }
  | .brx y g a b => { op := 0x5F, y := y, guard := g, uses := [.src a 2] ++ b1 b 1, limm := true }
  | .ld y g d a f m =>
    { mem 0x60 y g m a [.dst d (if m.msb then 2 else 1)] with
      forms := [0, 1, 2, 3, 4], flagRule := .optional, mFlag := some f, fields := (memSize form m.msb).isSome }
  | .st y g d a m =>
    { mem 0x61 y g m a [.src d (if m.msb then 2 else 1)] with
      forms := [0, 1, 2, 3, 4], colour := true, mFlag := some 15, fields := (memSize form m.msb).isSome }
  | .ldv y g d a f m =>
    { mem 0x62 y g m a [.dst d 4] with flagRule := .optional, mFlag := some f, fields := !m.msb }
  | .stv y g d a m => { mem 0x63 y g m a [.src d 4] with colour := true, mFlag := some 15, fields := !m.msb }
  | .stq y g d a f m =>
    { mem 0x64 y g m a [.src d 1] with
      forms := List.range 11, colour := true, mFlag := some f, fields := !m.msb || decide (4 ≤ form) }
  | .prf y g a m =>
    { mem 0x65 y g (if m then 3 else 2) a [] with cp := 3, mFlag := some 15 }
  | .lds y g d a f m =>
    { mem 0x66 y g m a [.dst d (if m.msb then 2 else 1)] with
      forms := [0, 1, 2, 3, 4], flagRule := .optional, mFlag := some f, scope := true,
      fields := (memSize form m.msb).isSome }
  | .qrd y g d _ f => { op := 0x67, y := y, guard := g, uses := [.dst d 1], flagRule := .optional, mFlag := some f }
  | .qwr y g d _ f => { op := 0x68, y := y, guard := g, uses := [.src d 1], mFlag := some f }
  | .atom y g d a f m =>
    { mem 0x6C y g m a [.both d (if m.msb then 2 else 1)] with
      forms := List.range 9, flagRule := .optional, mFlag := some f, scope := true, colour := true }
  | .cas y g d a f m =>
    { mem 0x6D y g m a [.both d (if m.msb then 4 else 2)] with
      flagRule := .required, mFlag := some f, scope := true, colour := true }
  | .atomf y g d a f m =>
    { mem 0x6E y g m a [.both d 1] with
      forms := List.range 5, flagRule := .optional, mFlag := some f, scope := true, colour := true, fields := !m.msb }
  | .atst y g d a f m =>
    { mem 0x6F y g m a [.src d (if m.msb then 2 else 1)] with
      flagRule := .optional, mFlag := some f, scope := true, colour := true }
  | .mclaim y g d n c => { eng 0x70 y g [.dst d 1] .optional with fields := decide (n.toNat + c.toNat + 1 ≤ 32) }
  | .mrel y g n c => { eng 0x70 y g [] .never with fields := decide (n.toNat + c.toNat + 1 ≤ 32) }
  | .mbind y g _ a _ => eng 0x70 y g [.src a 1] .never
  | .mma y g _ _ _ => { eng 0x71 y g [] .optional with forms := List.range 10 }
  | .mmas y g _ _ _ => { eng 0x71 y g [] .optional with forms := List.range 10, limm := true }
  | .mmab y g _ _ _ => { eng 0x71 y g [] .optional with forms := List.range 10, limm := true, fields := limm }
  | .amovRd y g d a f => { eng 0x72 y g [.dst d 1, .src a 1] .optional with limm := true, mFlag := some f }
  | .amovWr y g d a => { eng 0x72 y g [.src d 1, .src a 1] .never with limm := true, mFlag := some 15 }
  | .azero y g _ _ => eng 0x73 y g [] .optional
  | .acvt y g _ a c t =>
    { eng 0x73 y g [.src a 1] .optional with
      forms := List.range 4,
      fields := (t == 0 || t == 10 || decide (17 ≤ t.toNat ∧ t.toNat ≤ 23))
        && (decide (17 ≤ t.toNat) || !(c || form % 2 == 1)) }
  | .qmv y g d a => eng 0x74 y g [.dst d 1, .src a 1] .optional
  | .rjoin y g a => eng 0x74 y g [.src a 1] .optional
  | .copy y g _ a q _ r =>
    { eng 0x75 y g [.src a 1] .optional with
      cp := 4, fields := decide (q.toNat ≤ 4) && ((q == 4) == decide (6 ≤ r.toNat)) }
  | .gather y g _ a => { eng 0x76 y g [.src a 1] .optional with cp := 4 }
  | .sbind y g _ a => eng 0x76 y g [.src a 1] .never
  | .stream y g a => eng 0x76 y g [.src a 1] .optional
  | .streamPost y g _ => eng 0x76 y g [] .never
  | .hwaitFree y g _ => eng 0x77 y g [] .never
  | .hwaitFull y g _ => eng 0x77 y g [] .never
  | .hrel y g _ => eng 0x77 y g [] .never
  | .hstat y g d _ => eng 0x77 y g [.dst d 2] .optional
  | .scfg y g s w =>
    { eng 0x78 y g [] .optional with forms := List.range 5, fields := semiringFmt s.toNat form && w != 3 }
  | .scan y g a => eng 0x78 y g [.src a 1] .optional
  | .csend y g a => eng 0x79 y g [.src a 1] .optional
  | .crecv y g a => eng 0x79 y g [.src a 1] .optional
  | .cbar y g d => eng 0x79 y g [.dst d 1] .optional
  | .grow y g d a => eng 0x7A y g [.dst d 1, .src a 1] .optional
  | .spawn y g d a => eng 0x7A y g [.dst d 1, .src a 1] .optional
  | .qpush y g d a s =>
    { eng 0x7B y g [.src d 1, .src a (if s == 1 then 2 else 1)] .optional with
      fields := decide (s.toNat ≤ 1 ∧ d.toNat < 104) }
  | .qpop y g d a s =>
    { eng 0x7B y g [.dst d 1, .src a (if s == 1 then 2 else 1)] .optional with
      fields := decide (s.toNat ≤ 1 ∧ d.toNat < 104) }
  | .cwait y g l => { eng 0x7C y g [] .never with fields := decide (l.toNat ≤ 4) }
  | .cancel y g l => { eng 0x7C y g [] .optional with fields := decide (l.toNat ≤ 4) }
  | .incup y g d a p _ =>
    { eng 0x7D y g [.dst d (if p then 2 else 1), .src a (if p then 2 else 1)] .optional with }
  | .incrd y g d p _ =>
    { eng 0x7D y g [.dst d (if p then 2 else 1)] .optional with scope := true, fields := d != 120 }
  | .bndset y g a => eng 0x7D y g [.src a 1] .never
  | .bndcfg y g a => eng 0x7D y g [.src a 1] .never
  | .fence y g s _ _ => { eng 0x7E y g [] .never with fields := decide (s.toNat ≤ 8) }
  | .bar y s => { eng 0x7E y 7 [] .optional with fields := s == 0 || s == 4 }
  | .qfence y g m k => { eng 0x7E y g [] .optional with fields := m != 0 || k != 0 }
  | _ => { op := 0x7F }

/-- The fixed latency of a word (R77), 0 for a variable one. -/
def latOf (op : Nat) : Nat :=
  if op ≤ 0x09 then 0
  else if op ≤ 0x0D then 4
  else if op = 0x13 ∨ op = 0x14 ∨ op = 0x15 ∨ op = 0x25 ∨ op = 0x26 then 4
  else if op ≤ 0x26 then 2
  else if op ≤ 0x32 then 4
  else if op = 0x38 then 7
  else if op = 0x44 then 6
  else if op ≤ 0x46 then 4
  else if op ≤ 0x4D then 2
  else if op ≤ 0x55 then 6
  else if op ≤ 0x5D ∨ op = 0x5F then 2
  else 0

/-- Whether a word that does not carry Y ends its region (R45, R185). -/
def opEndsRegion (op : Nat) : Bool := decide (0x6C ≤ op ∧ op ≤ 0x6F) || decide (0x70 ≤ op ∧ op ≤ 0x7E)
/-- Words whose Y commits at the end of the park (R82). -/
def opCommitsLate (op : Nat) : Bool := op == 0x5E || decide (0x60 ≤ op ∧ op ≤ 0x6B)
def opIsHint (op : Nat) : Bool := decide (op ≤ 0x07)

/-- The words of the instruction set among the rows. -/
def isWord (i : Instr) : Bool := (shape i 0 false).op != 0x7F

end Sys2Proof.Machine
end

