-- ==== Sys2Proof/Machine/Ops.lean ====
section
/-!
DEFINITION. The named operations that instructions share: where an access lies, committing stores, replaying a region,
the service of a fault, ending a job, taking a trap, and the interference budgets.
-/
namespace Sys2Proof.Machine

/-! ### Budgets (R375, R376) -/

def Budget.index : Budget → Nat
  | .hbm => 0
  | .fabric => 1
  | .copy => 2
  | .mill => 3
  | .quern => 4

/-- Use that a context may still make of a resource in this period, `none` when it is unlimited. -/
def Context.allowance (c : Context) (b : Budget) : Option Nat :=
  let n := c.budgets.getD b.index 0xFFFFFFFF
  if n = 0xFFFFFFFF then none else some (n - c.overrun.getD b.index 0)

/-- A budget is exhausted when its use reaches what the period allows. -/
def State.exhausted (s : State) (ctx : Nat) (b : Budget) : Bool :=
  match s.context ctx with
  | none => false
  | some c => match c.allowance b with
    | none => false
    | some a => decide (a ≤ c.used.getD b.index 0)

/-- DESIGN CHOICE (log 67). -/
def State.charge (s : State) (ctx : Nat) (b : Budget) (n : Nat) : State :=
  s.updContext ctx fun c =>
    if (c.allowance b).isNone then c else { c with used := c.used.set b.index (c.used.getD b.index 0 + n) }

/-- What a context was charged and does not use after all. -/
def State.refund (s : State) (ctx : Nat) (b : Budget) (n : Nat) : State :=
  s.updContext ctx fun c => { c with used := c.used.set b.index (c.used.getD b.index 0 - n) }

/-- Charge bytes that an engine reads from, or sends to, the place of a key: to HBM, or to the fabric if they are sent to a peer (R375).
DESIGN CHOICE (log 67). -/
def State.chargeKey (s : State) (ctx key : Nat) (sent : Bool) (n : Nat) : State :=
  if key < 2 ^ 60 then s.charge ctx .hbm n else if sent && (peerOf key).isSome then s.charge ctx .fabric n else s

/-- STATE of a die (R414). -/
def Die.state (d : Die) : Nat := (d.dvs.extractLsb' 30 2).toNat

/-- The die whose stacks hold a byte of HBM (R13): a quarter of the addresses each. DESIGN CHOICE (log 83). -/
def homeDie (key : Nat) : Nat := min (Config.dies - 1) (key / (Config.hbmBytes / Config.dies))

/-- The home of a key is changing, between its die's L2 and its memory controllers (R420). -/
def State.homeChanging (s : State) (key : Nat) : Bool := decide (key < 2 ^ 60) && (s.die (homeDie key)).state == 3

/-- Bytes of the HDM window (R377). -/
def State.inHdm (s : State) (addr n : Nat) : Bool :=
  decide (Config.hbmBytes - s.regs.hdmsz * 2 ^ 30 ≤ addr ∧ addr + n ≤ Config.hbmBytes)

/-- The bias of a byte of the HDM window is the device's, so that no access of the device resolves coherence with the host (R377). -/
def State.deviceBias (s : State) (addr : Nat) : Bool := s.hdmBias.get ((addr - (Config.hbmBytes - s.regs.hdmsz * 2 ^ 30)) / 2 ^ 30)

/-- An access to the HDM window in host bias, which first resolves coherence with the host, waits while the link to the host is down and the
host not known to be unreachable (R377, R385). -/
def State.biasWaits (s : State) (key : Nat) : Bool :=
  s.inHdm key 1 && !s.deviceBias key && (s.peers.get Config.host).broken && !(s.peers.get Config.host).unreachable

/-- An engine's access to the place of a key waits: its HBM or its link is exhausted until the next period, its home is changing, or
the host does not answer for it (R376, R377, R420). -/
def State.keyHeld (s : State) (ctx key : Nat) : Bool :=
  s.homeChanging key || s.biasWaits key || (if key < 2 ^ 60 then s.exhausted ctx .hbm else (peerOf key).isSome && s.exhausted ctx .fabric)

/-! ### The L2 of a die (R10, R75, R187, R375, R420) -/

/-- Lines of 128 bytes that an L2 of 48 MiB holds, and that the directories of a gated die's three controllers hold. -/
def l2Lines : Nat := 48 * 2 ^ 20 / 128
def directoryLines : Nat := 3 * 65536

/-- A list of at most `n` lines takes one in: as its newest, or as the first to go. -/
def keepLine (n : Nat) (last : Bool) (line : Nat) (l : List Nat) : List Nat :=
  let rest := (l.filter fun x => x != line).take (n - 1)
  if last then rest ++ [line] else line :: rest

/-- The L2 of a core's die, or that of the line's home, holds the line of a key. -/
def State.l2Hit (s : State) (core key : Nat) : Bool :=
  (s.die (dieOf core)).l2.contains (key / 128) || (decide (key < 2 ^ 60) && (s.die (homeDie key)).l2.contains (key / 128))

/-- A die takes a line in: into its L2, or into its directories while it is gated. -/
def State.l2Keep (s : State) (d key cp : Nat) : State :=
  let x := s.die d
  s.setDie d (if x.state = 2 then { x with directory := keepLine directoryLines false (key / 128) x.directory }
    else { x with l2 := keepLine l2Lines (cp == 1) (key / 128) x.l2 })

/-- A store at package scope leaves no copy of its line but at its home (R282). -/
def State.l2Only (s : State) (key : Nat) : State :=
  (List.range Config.dies).foldl (fun (acc : State) d =>
    if d = homeDie key then acc else acc.setDie d { acc.die d with l2 := (acc.die d).l2.filter fun x => x != key / 128 }) s

/-- A lane's access to the place of a key, in the L2s and on its context's budgets: one that misses is charged the line, which is brought in,
or its own bytes where it passes the L2 by; bytes sent to a peer are charged to the fabric (R75, R375). DESIGN CHOICE (log 67). -/
def State.laneAccess (s : State) (core ctx key : Nat) (write : Bool) (cp n : Nat) : State :=
  if (peerOf key).isSome then (if write then s.charge ctx .fabric n else s)
  else if 2 ^ 60 ≤ key then (if cp = 3 then s else s.l2Keep (dieOf core) key cp)
  else
    let hit := s.l2Hit core key
    let s1 := if hit then s else s.charge ctx .hbm (if cp = 3 then n else 128)
    let s2 := if cp = 3 && !hit then s1 else (s1.l2Keep (dieOf core) key cp).l2Keep (homeDie key) key cp
    if write then s2.l2Only key else s2

/-- A lane's access to the place of a key waits: it needs HBM or a link whose budget is exhausted, its home is changing, or the host
does not answer for it (R376, R377, R420). -/
def State.laneHeld (s : State) (core ctx key : Nat) : Bool :=
  s.homeChanging key || s.biasWaits key || (if key < 2 ^ 60 then s.exhausted ctx .hbm && !s.l2Hit core key else (peerOf key).isSome && s.exhausted ctx .fabric)

/-- The route to the peer or the host of a key is broken, and it is not known to be unreachable (R387). -/
def State.routeBroken (s : State) (key : Nat) : Bool :=
  (remoteOf key).any fun n => (s.peers.get n).broken && !(s.peers.get n).unreachable

/-! ### Where the bytes of a lane's access lie -/

/-- The place of byte `j` of an access: in the window, or at a virtual address (R178, R359). -/
def State.bytePlace (s : State) (f : Sheaf) (space : Space) (lane : Nat) (ea : DWord) (j : Nat) : Bool × Nat :=
  match space with
  | .sp => (true, ea.toNat + j)
  | .pv =>
    let c := (s.context (s.unitOf f).ctx).getD default
    let p := ea.toNat + j
    (false, c.pvb + f.privNo * c.pspan + 128 * (p / 4) + 4 * lane + p % 4)
  | _ => (false, ea.toNat + j)

def State.places (s : State) (f : Sheaf) (space : Space) (lane : Nat) (ea : DWord) (n : Nat) : List (Bool × Nat) :=
  (List.range n).map (s.bytePlace f space lane ea)

/-- The virtual address that a lane's access translates. -/
def State.vaOf (s : State) (f : Sheaf) (space : Space) (lane : Nat) (ea : DWord) : DWord :=
  BitVec.ofNat 64 (s.bytePlace f space lane ea 0).2

/-- The memory keys of the bytes of an access whose first byte translates to `key`; one access lies on one page. -/
def State.keysOf (s : State) (f : Sheaf) (space : Space) (lane : Nat) (ea : DWord) (n key : Nat) : List Nat :=
  let base := (s.bytePlace f space lane ea 0).2
  (s.places f space lane ea n).map fun c => key + c.2 - base

/-! ### Streams (R198 to R201) -/

/-- Address of element `k` of a bound stream, or the condition its index meets. -/
def State.elemAddr (s : State) (f : Sheaf) (q : StreamReg) (k : Nat) : Except Poison DWord :=
  let u := s.unitOf f
  if q.kind = 0 then .ok (q.base + BitVec.ofNat 64 k * q.stride)
  else do
    let isz := if q.kind = 1 then 4 else 8
    let at_ := q.index + BitVec.ofNat 64 (isz * k)
    let i ← if q.sp then
        (if at_.toNat + isz > u.lrec.win then throw ⟨.unserviceable, 0, at_, []⟩
         else if u.winPoisoned at_.toNat isz then throw (u.badWords at_.toNat isz)
         else pure (u.winValue at_.toNat isz))
      else s.readVaNat u.ctx at_ isz
    return q.base + BitVec.ofNat 64 (i * (if q.wide then 8 else 4))

/-- Fetch element `k`: its value, or poison with the cause (R201). -/
def State.fetchElem (s : State) (f : Sheaf) (q : StreamReg) (k : Nat) : StreamElem :=
  let u := s.unitOf f
  let sz := if q.wide then 8 else 4
  let r : Except Poison Nat := do
    let a ← s.elemAddr f q k
    if a.toNat % sz != 0 then throw ⟨.unserviceable, 2, a, []⟩
    else if q.sp then
      (if a.toNat + sz > u.lrec.win then throw ⟨.unserviceable, 0, a, []⟩
       else if u.winPoisoned a.toNat sz then throw (u.badWords a.toNat sz)
       else pure (u.winValue a.toNat sz))
    else s.readVaNat u.ctx a sz
  match r with
  | .ok x => { k := k, value := BitVec.ofNat 64 x }
  | .error p => { k := k, poison := some p }

/-- Lanes give back the elements they popped: they stay reserved for them (R201); a poisoned one is fetched again. -/
def State.rewindPops (s : State) (f : Sheaf) (m : Mask) : Sheaf :=
  { f with streams := ⟨f.streams.cells.map fun c =>
      let q := c.2
      let mine := q.tentative.filter fun t => m.getLsbD t.1
      let again := mine.map fun t => (t.1, if t.2.poison.isSome then s.fetchElem f q t.2.k else t.2)
      (c.1, { q with tentative := (q.tentative.filter fun t => !m.getLsbD t.1), rewound := again ++ q.rewound })⟩ }

/-- Pops of lanes whose region ends, or that are culled, are consumed for good. -/
def Sheaf.settlePops (f : Sheaf) (m : Mask) : Sheaf :=
  { f with streams := ⟨f.streams.cells.map fun c =>
      (c.1, { c.2 with tentative := (c.2.tentative.filter fun t => !m.getLsbD t.1) })⟩ }

/-! ### Regions (R83, R361) -/

/-- Lanes pass a region start: each lane's own program counter. -/
def Sheaf.startRegion (f : Sheaf) (seq : Nat) (m : Mask) : Sheaf :=
  (f.settlePops m).updLanes m fun _ x =>
    { x with start := x.pc, startSeq := seq, startRm := f.rm, startBp := f.bp, startClr := f.clr,
             wroteRm := false, wroteBp := false, wroteClr := false, replays := 0, stepped := false,
             impliedFence := false, poisoned := none, alsoMet := [], failed := [] }

/-- A committed store that did not reach its peer waits to be reported (R366). -/
def State.storeFailed (s : State) (id : Nat) (f : Sheaf) (lane : Nat) (pc addr : DWord) (bytes peer cause : Nat) : State :=
  let (n, s1) := s.take
  let x : StoreFailure :=
    { id := n, sheaf := id, lane := lane, ctx := (s.unitOf f).ctx, job := (s.unitOf f).job, launch := s.launchNo (s.unitOf f).launch
      unit := (s.unitOf f).recNo, pc := pc, addr := addr, bytes := bytes, peer := peer
      gen := f.gen, core := f.coreNo, slot := (f.place.map Prod.snd).getD 0, cause := cause }
  { s1 with storeFailures := s1.storeFailures ++ [x] }

/-- A request goes out to a peer or to the host under this device's next number (R383). -/
def State.sendRequest (s : State) : State := { s with requests := s.requests + 1 }

/-- Write a part's bytes at memory keys: its own core's read cache no longer holds the old line. A target that refuses it or cannot be
reached is a store failure (R366, R386). DESIGN CHOICE (log 51). -/
def State.performAt (s : State) (id : Nat) (f : Sheaf) (e : StoreEntry) (p : StorePart) (va : DWord) (keys : List Nat) : State :=
  let u := s.unitOf f
  let key := keys.headD 0
  match s.targetFault [u.job] key p.bytes.length va with
  | some q => s.storeFailed id f p.lane e.pc va p.bytes.length ((peerOf key).getD 0) q.cause
  | none =>
    let s1 := if (remoteOf key).isSome then s.sendRequest else s
    (((s1.write (keys.zip p.bytes)).dropLines f.coreNo keys).laneAccess f.coreNo u.ctx key true e.cp p.bytes.length)

/-- Write one store part whose translation is known: into the window, or at its keys. -/
def State.performPart (s : State) (id : Nat) (e : StoreEntry) (p : StorePart) : State :=
  match s.sheaf id with
  | none => s
  | some f =>
    match e.space with
    | .sp => s.updUnit f.unit fun u => u.winWrite p.ea.toNat p.bytes
    | space =>
      match p.phys with
      | none => s
      | some key => s.performAt id f e p (s.vaOf f space p.lane p.ea) (s.keysOf f space p.lane p.ea p.bytes.length key)

/-- Write one push whose translation is known as element `k` of its stream. -/
def State.performPush (s : State) (id : Nat) (e : StoreEntry) (r : StreamReg) (k : Nat) (p : StorePart) : State :=
  match s.sheaf id, p.phys with
  | some f, some key =>
    let keys := (List.range p.bytes.length).map (key + ·)
    if r.sp then s.updUnit f.unit fun u => u.winStore (keys.zip p.bytes)
    else s.performAt id f e p (match s.elemAddr f r k with | .ok a => a | .error _ => 0) keys
  | _, _ => s

/-- Perform the parts of one entry that belong to lanes of a mask, in ascending lane order; the engine of a write stream writes its pushes
in ascending element order (R182, R200). -/
def State.performEntry (s : State) (id : Nat) (m : Mask) (e : StoreEntry) : State :=
  let mine := e.parts.filter fun p => m.getLsbD p.lane
  let s1 := match e.stream with
    | none => mine.foldl (fun (acc : State) p => acc.performPart id e p) s
    | some q =>
      let r : StreamReg := ((s.sheaf id).map fun (g : Sheaf) => g.streams.get q).getD {}
      let push (acc : State) (c : Nat × StorePart) : State := acc.performPush id e r (r.given + c.1) c.2
      (((List.range mine.length).zip mine).foldl push s).updSheaf id fun f =>
        { f with streams := f.streams.modify q fun x => { x with given := x.given + mine.length } }
  s1.updSheaf id fun f =>
    { f with committed := f.committed.modify e.colour (· + mine.length), drained := f.drained.modify e.colour (· + mine.length) }

/-- Remove the parts of lanes from the store queue. -/
def Sheaf.dropStores (f : Sheaf) (m : Mask) : Sheaf :=
  { f with storeQueue := ((f.storeQueue.map fun e => { e with parts := (e.parts.filter fun p => !m.getLsbD p.lane) }).filter
      fun e => !e.parts.isEmpty) }

/-- Commit the queued stores of lanes in queue order (R182, R185). -/
def State.commit (s : State) (id : Nat) (m : Mask) : State :=
  match s.sheaf id with
  | none => s
  | some f =>
    let s1 := f.storeQueue.foldl (fun acc e => acc.performEntry id m e) s
    s1.updSheaf id fun g => g.dropStores m

/-- The lane, of those whose open region wrote a register, that passed its start first. -/
def Sheaf.firstWriter (f : Sheaf) (m : Mask) (wrote : LaneSt → Bool) : Option LaneSt :=
  (maskLanes m).foldl (fun best l =>
    let x := f.lane l
    if wrote x then (match best with
      | some b => if x.startSeq < b.startSeq then some x else best
      | none => some x) else best) none

/-- The marks of poison that a region's loads have left on registers of lanes go with the region's results; a lost reply stays
lost. DEDUCED (log 30). -/
def Sheaf.clearPoison (f : Sheaf) (m : Mask) : Sheaf :=
  let kept (p : Option Poison) : Bool := p.any fun x => x.kind == .lost
  { f with vPoison := ⟨f.vPoison.cells.filter fun c => kept c.2 || !m.getLsbD (c.1 % 32)⟩
           uPoison := ⟨f.uPoison.cells.filter fun c => kept c.2⟩
           pending := f.pending.map fun q =>
             if kept q.poison || (decide (q.key < 4096) && !m.getLsbD (q.key % 32)) then q else { q with poison := none } }

/-- Lanes whose `EXIT` has issued and whose park has not ended; the word is never rolled back (R161). -/
def Sheaf.exiting (f : Sheaf) : Mask := laneMask fun l => (f.lane l).hold == .exit

/-- A trap names a code and an address in the presentation registers (R196). -/
def TrapRec.naming (t : TrapRec) (code : Nat) (addr : DWord) : TrapRec :=
  { t with emg := BitVec.ofNat 32 code, emd := (addr.extractLsb' 32 25).setWidth 32, ema := lo32 addr, cause := code, addr := addr }

/-- A pending trap without lanes: it goes when its every faulting lane, or its every lane, has gone; else it names the lowest faulting
lane that is left, with that lane's cause and address (R196). -/
def TrapRec.less (t : TrapRec) (m : Mask) : Option TrapRec :=
  let lanes := t.lanes &&& ~~~m
  let who := t.who &&& ~~~m
  if lanes = 0 ∨ (t.who ≠ 0 ∧ who = 0) then none
  else
    let t := { t with lanes := lanes, who := who, emb := if t.who ≠ 0 then who else t.emb }
    match t.faults.find? fun x => who.getLsbD x.1 with
    | some (_, code, addr) => some (t.naming code addr)
    | none => some t

/-- The pending traps of a sheaf without lanes. -/
def Sheaf.dropTraps (f : Sheaf) (m : Mask) : Sheaf :=
  { f with trap := f.trap.bind fun t => t.less m, trapsAfter := f.trapsAfter.filterMap fun t => t.less m }

/-- Return lanes to their recorded region starts: queued stores and outstanding loads and pops discarded, pops rewound,
`RM`, `BP` and `CLR` written back, flag parts and a pending trap given up, hints executed again (R83, R186, R361). -/
def State.rollback (s : State) (id : Nat) (m : Mask) : State :=
  match s.sheaf id with
  | none => s
  | some f0 =>
    let m := m &&& ~~~f0.exiting
    let f := s.rewindPops f0 m
    let f := { f with
      rm := ((f.firstWriter m LaneSt.wroteRm).map LaneSt.startRm).getD f.rm,
      bp := ((f.firstWriter m LaneSt.wroteBp).map LaneSt.startBp).getD f.bp,
      clr := ((f.firstWriter m LaneSt.wroteClr).map LaneSt.startClr).getD f.clr,
      outstanding := (f.outstanding.filter fun o => !(m.getLsbD o.lane && o.inRegion)) }
    let f := (((f.dropStores m).dropAllParts m).clearPoison m).dropTraps m
    let f := f.updLanes m fun _ x => { x with pc := x.start, limm := none, xmod := none, sched := none, hold := .none, asked := none
                                              wroteRm := false, wroteBp := false, wroteClr := false, poisoned := none
                                              alsoMet := [] }
    s.setSheaf id f

/-- Replay the open regions of lanes (R195, R361). -/
def State.replay (s : State) (id : Nat) (m : Mask) (stepped : Bool) : State :=
  (s.rollback id m).updSheaf id fun f => f.updLanes (m &&& ~~~f.exiting) fun _ x =>
    { x with stepped := stepped, replays := x.replays + 1 }

/-! ### Service of faults (R195, R360) -/

/-- Lanes of a position that replay for poison found in it: those whose region began where a poisoned lane's did. -/
def Sheaf.replaySet (f : Sheaf) (pos bad : Mask) : Mask :=
  laneMask fun l => pos.getLsbD l && (maskLanes bad).any fun b => (f.lane b).start == (f.lane l).start

/-- Report a fault of lanes: they wait for its service. -/
def State.beginService (s : State) (id : Nat) (m : Mask) (p : Poison) (inPlace : Bool) : State :=
  s.updSheaf id fun f => { f with awaiting := f.awaiting ++ [⟨m, p, .reported, inPlace, []⟩] }

/-! ### Ending a job (R433) -/

/-- What a discarded image leaves of the engine entries of its unit: those not started go, those that run on stop as orphans. -/
def State.dropImages (s : State) (us : List Nat) : State :=
  { s with
    sheaves := ⟨(s.sheaves.cells.filter fun c => match c.2 with
      | some f => !us.contains f.unit
      | none => false)⟩
    entries := (s.entries.filter fun e => !(us.contains e.owner.unit && (e.saved || e.stage == .queued))).map fun e =>
      if us.contains e.owner.unit then { e with orphan := true, owner := { e.owner with lanes := 0 } } else e
    qwords := (s.qwords.filter fun w => !(us.contains w.owner.unit && w.waiting)).map fun w =>
      if us.contains w.owner.unit then { w with owner := { w.owner with lanes := 0 } } else w
    qdeliveries := (s.qdeliveries.filter fun q => !us.contains q.owner.unit) }

/-- The sweep of a job's end: every unit marked for the cull, queued work removed, images discarded. Lanes fall at their
next issue slot. -/
def State.endJob (s : State) (j cause : Nat) : State :=
  match s.job j with
  | none => s
  | some x =>
    if x.ended.isSome || x.complete then s
    else
      let mine := (s.unitList.filter fun c => c.2.job == j).map Prod.fst
      let saved := (s.unitList.filter fun c => c.2.job == j && c.2.stage == .saved).map Prod.fst
      let s1 : State := { s with
        jobs := s.jobs.set j (some { x with ended := some cause }),
        units := ⟨s.units.cells.map fun c => (c.1, c.2.map fun u =>
          if u.job != j then u
          else match u.stage with
            | .resident => { u with cancelled := true, cancelGen := u.cancelGen + 1 }
            | .complete => u
            | _ => { u with stage := .removed, cancelGen := u.cancelGen + 1, image := none })⟩,
        launches := ⟨s.launches.cells.map fun c => (c.1, c.2.map fun l =>
          if l.job == j then { l with removed := true, next := l.count } else l)⟩,
        nodes := ⟨s.nodes.cells.map fun c => (c.1, c.2.map fun n =>
          if (s.phase n.phase).any (fun p => p.job == j) && n.stage == .waiting then { n with stage := .complete } else n)⟩,
        phases := ⟨s.phases.cells.map fun c => (c.1, c.2.map fun p =>
          if p.job == j && !p.complete then { p with refused := true, complete := true, ending := none } else p)⟩,
        listed := (s.listed.filter fun e => match e.unit, e.launch with
          | some u, _ => !mine.contains u
          | none, some l => !((s.launch l).any fun x => x.job == j)
          | none, none => false) }
      s1.dropImages saved

/-! ### Traps (R92 to R94, R35) -/

def TrapKind.index : TrapKind → Nat
  | .emul => 0
  | .lane => 1
  | .idle => 2
  | .race => 3
  | .refused => 4

/-- The vector entry of a kind; 0 is none (R326). -/
def LaunchRec.entry (r : LaunchRec) : TrapKind → DWord
  | .emul => r.temul
  | .lane => r.tlane
  | .idle => r.tidle
  | .race => r.trace
  | .refused => r.tref

/-- Baruri ends the job for a trap: TYPE 12 for a lane fault outside a handler without an entry, else TYPE 3 (R365). -/
def State.fatalTrap (s : State) (id : Nat) (f : Sheaf) (t : TrapRec) (inHandler : Bool) : State :=
  let lane := t.kind == .lane && !inHandler
  let r := s.nameSheaf f { typ := if lane then 12 else 3, cause := if lane then t.cause else 0, pc := t.empc,
                           addr := t.addr, lanes := if t.who = 0 then t.lanes else t.who,
                           info := if lane then 0 else t.kind.index }
  let s1 := (s.updSheaf id fun g => { g with trap := none }).report r
  s1.endJob (s.unitOf f).job r.typ

/-- Enter a trap: the open region's stores commit, the presentation registers are written, and the lanes go on at the
vector entry, which starts a region (R92). The target of a trap vector starts a region when a trap is entered there, and not for a lane
that comes to it by ordinary flow. DESIGN CHOICE (log 83). -/
def State.enterTrap (s : State) (id : Nat) (t : TrapRec) : State :=
  match s.sheaf id with
  | none => s
  | some f =>
    let entry := (s.unitOf f).lrec.entry t.kind
    if entry = 0 then s.fatalTrap id f t false
    else
      let (seq, s1) := (s.commit id t.lanes).take
      s1.updSheaf id fun g =>
        let g := { g with emw := t.emw, emg := t.emg, emd := t.emd, ema := t.ema, emb := t.emb, empc := t.empc, trap := none }
        let g := g.updLanes t.lanes fun _ x =>
          { x with pc := entry, handler := true, limm := none, xmod := none, sched := none, hold := .none }
        g.startRegion seq t.lanes

/-- A field names a uniform register, whose result is written even where the lane that supplied it has been culled (R102). -/
def isUniform (d : BitVec 7) : Bool := decide (104 ≤ d.toNat ∧ d.toNat < 120)

/-- Some register still wants a result. -/
def Owner.wants (o : Owner) : Bool := (o.lanes != 0 && o.dst != 120) || isUniform o.dst

/-- The entry will still write a register: `QMV` until it starts, `CBAR` (R230, R275). -/
def Entry.writes (e : Entry) : Bool :=
  e.owner.wants && (match e.work with
    | .qmv _ _ _ _ opened _ => !opened
    | .cbar => true
    | _ => false)

/-- Whether some register result of a sheaf's variable-latency words is still out: a result that goes to `zr` is kept in a flag only
(R82). -/
def State.resultsOut (s : State) (id : Nat) (f : Sheaf) : Bool :=
  f.outstanding.any (fun o => o.dst != 120 || o.inRegion) || f.timers.any (fun t => t.dst != 120)
  || s.entries.any (fun e => e.owner.sheaf == id && e.writes)
  || s.spawns.any (fun r => r.owner.sheaf == id && r.owner.wants)
  || s.incMsgs.any (fun r => r.owner.sheaf == id && r.owner.wants)
  || s.qwords.any (fun r => r.owner.sheaf == id && r.owner.lanes != 0 && !r.push && r.owner.dst != 120)
  || s.qdeliveries.any (fun r => r.owner.sheaf == id && r.owner.dst != 120)

/-- Every fixed-latency result is writable and every variable-latency one has returned (R82). DEDUCED (log 25). -/
def State.drained (s : State) (id : Nat) (f : Sheaf) : Bool :=
  (f.pending.all fun p => decide (p.ready ≤ s.now f)) && !s.resultsOut id f

/-- Every queued store of lanes is translated. -/
def Sheaf.translated (f : Sheaf) (m : Mask) : Bool :=
  f.storeQueue.all fun e => e.parts.all fun p => !m.getLsbD p.lane || p.phys.isSome || p.fault.isSome

/-- A translated store of a lane of the mask cannot be performed yet: its HBM or its link is exhausted, its home is changing, or its route
is broken and may come back (R376, R383, R387, R420). A region end waits for it, since its stores are performed as it commits. DESIGN CHOICE
(log 51). -/
def State.commitHeld (s : State) (f : Sheaf) (m : Mask) : Bool :=
  let ctx := (s.unitOf f).ctx
  f.storeQueue.any fun e => (match e.stream with
    | none => e.space != .sp
    | some q => !(f.streams.get q).sp) && e.parts.any fun p =>
      m.getLsbD p.lane && p.phys.any fun k => s.laneHeld f.coreNo ctx k || s.routeBroken k

/-- The condition a lane's open region has met: a poison result, or a faulted store. -/
def Sheaf.laneFault (f : Sheaf) (l : Nat) : Option Poison :=
  match (f.lane l).poisoned with
  | some p => some p
  | none => f.storeQueue.findSome? fun e => e.parts.findSome? fun p => if p.lane = l then p.fault else none

/-- The lanes of a mask whose open regions have met a condition. -/
def Sheaf.faultedLanes (f : Sheaf) (m : Mask) : Mask := laneMask fun l => m.getLsbD l && (f.laneFault l).isSome

/-- The first condition met by lanes of a mask. -/
def Sheaf.firstFault (f : Sheaf) (m : Mask) : Option Poison := (maskLanes m).findSome? f.laneFault

/-- A pending trap comes to its entry once the sheaf has drained; poison in the region replays it instead, with every lane that
would have taken the trap, so that each executes its hints again (R92). A saved sheaf enters none. DEDUCED (log 33). -/
def State.tryTrap (s : State) (id : Nat) : State :=
  match s.sheaf id with
  | none => s
  | some f =>
    match f.trap with
    | none => s
    | some t =>
      if f.place.isNone || !s.drained id f || !f.translated t.lanes then s
      else
        match f.firstFault t.lanes with
        | some p => (s.setSheaf id { f with trap := none }).beginService id t.lanes p false
        | none => if s.commitHeld f t.lanes then s else s.enterTrap id t

/-- Raise a trap: inside a handler it ends the job (R94), else the sheaf parks and the trap is entered. -/
def State.raiseTrap (s : State) (id : Nat) (t : TrapRec) : State :=
  match s.sheaf id with
  | none => s
  | some f =>
    if f.handlerMask &&& t.lanes != 0 then s.fatalTrap id f t true
    else (s.setSheaf id { f with trap := some t }).tryTrap id

/-- The record of an emulation trap on a word (R93). -/
def emulTrap (w : Word) (pc : DWord) (lanes : Mask) : TrapRec :=
  { kind := .emul, lanes := lanes, emw := w, emg := (w.extractLsb' 21 3).setWidth 32, emd := (w.extractLsb' 14 7).setWidth 32,
    ema := (w.extractLsb' 7 7).setWidth 32, emb := (w.extractLsb' 0 7).setWidth 32, empc := pc }

/-- A trap of the form that names faulting lanes and an address (R196, R290, R390). -/
def laneTrap (kind : TrapKind) (w : Word) (pc : DWord) (lanes who : Mask) (code : Nat) (addr : DWord) : TrapRec :=
  ({ kind := kind, lanes := lanes, emw := w, emb := who, empc := pc, who := who } : TrapRec).naming code addr

end Sys2Proof.Machine
end

