-- ==== Sys2Proof/Machine/Issue.lean ====
section
/-!
DEFINITION. How a word issues: what it sees, what holds it, what makes it trap, and what every word does beside its own
effect (its pc, its hints, its region, its park).
-/
namespace Sys2Proof.Machine

/-- What an issuing word sees (R57, R84, R87): its sheaf as it stood before either word of the cycle wrote. -/
structure Ctx where
  id : Nat := 0
  f : Sheaf := {}
  unit : UnitSt := {}
  lanes : Mask := 0
  act : Mask := 0
  pc : DWord := 0
  limm : Option (BitVec 24) := none
  x : XMod := {}
  now : Nat := 0
  free : Nat := 0
  word : Word := 0
  /-- The flag it names, 15 for none, and the name of its part. -/
  flag : Nat := 15
  op : Nat := 0

def Ctx.form (c : Ctx) : Nat := c.x.form.toNat
def Ctx.actLanes (c : Ctx) : List Nat := maskLanes c.act
def Ctx.core (c : Ctx) : Nat := c.f.coreNo
/-- Lanes per bunch, as sampled (R88, R89). -/
def Ctx.bunch (c : Ctx) : Nat := c.f.bp.toNat % 64
/-- The immediate, sign-extended (R74). -/
def Ctx.imm (c : Ctx) : Word := (c.limm.getD 0).signExtend 32
/-- The sign-extended address offset of an M-format word. -/
def Ctx.off (c : Ctx) : DWord := (c.limm.getD 0).signExtend 64
/-- The immediate of an I-format word: IMM7 signed, or the `LIMM` value. -/
def Ctx.immOr (c : Ctx) (i : BitVec 7) : Word := if c.limm.isSome then c.imm else i.signExtend 32

/-- Read a 32-bit register field in a lane (R68). -/
def Ctx.reg (c : Ctx) (field l : Nat) : Word :=
  if field < 104 then c.f.settle c.now c.free (vKey field l) (c.f.v.get (vKey field l))
  else if field < 120 then c.f.settle c.now c.free (uKey (field - 104)) (c.f.u.get (field - 104))
  else match field with
    | 121 => BitVec.ofNat 32 l
    | 122 => BitVec.ofNat 32 (l % c.bunch)
    | 123 => BitVec.ofNat 32 (l / c.bunch)
    | 124 => BitVec.ofNat 32 c.f.index
    | 125 => BitVec.ofNat 32 c.unit.ux
    | 126 => BitVec.ofNat 32 c.unit.uy
    | 127 => BitVec.ofNat 32 c.unit.uz
    | _ => 0

/-- The poison that a register field holds in a lane, of the value that `Ctx.reg` reads (R78, R101). -/
def Ctx.poisonIn (c : Ctx) (field l : Nat) : Option Poison :=
  if field < 104 then c.f.settlePoison c.now c.free (vKey field l)
  else if field < 120 then c.f.settlePoison c.now c.free (uKey (field - 104))
  else none

def Ctx.r32 (c : Ctx) (field : BitVec 7) (l : Nat) : Word := c.reg field.toNat l
/-- A pair named by its even member (R69); `zr` is 0. -/
def Ctx.r64 (c : Ctx) (field : BitVec 7) (l : Nat) : DWord :=
  if field = 120 then 0 else pair64 (c.reg field.toNat l) (c.reg (field.toNat + 1) l)
/-- The b operand of a G-format word: the `LIMM` value if one is attached (R74, R99). -/
def Ctx.b32 (c : Ctx) (b : BitVec 7) (l : Nat) : Word := if c.limm.isSome then c.imm else c.r32 b l
def Ctx.b64 (c : Ctx) (b : BitVec 7) (l : Nat) : DWord := if c.limm.isSome then c.off else c.r64 b l
/-- A predicate as read; 7 reads true. -/
def Ctx.pred (c : Ctx) (p : BitVec 3) (l : Nat) : Bool :=
  if p = 7 then true
  else c.f.settle c.now c.free (pKey p.toNat l) (if c.f.pred p.toNat l then 1 else 0) != 0
/-- A 32-bit operand taken from the lowest-numbered active lane. -/
def Ctx.low32 (c : Ctx) (field : BitVec 7) : Word := c.r32 field ((lowest c.act).getD 0)
def Ctx.low64 (c : Ctx) (field : BitVec 7) : DWord := c.r64 field ((lowest c.act).getD 0)

/-- What came of a word's own effect. -/
inductive Eff where
  | done (s : State)
  /-- The emulation trap, with no effect. -/
  | emul
  /-- Another trap, after the effect that the word still has. -/
  | trap (t : TrapRec) (s : State)
  /-- Not ready after all; what the attempt leaves. -/
  | hold (s : State)
  /-- The word consumes poison (R101). -/
  | poison (p : Poison)

/-! ### Checks -/

/-- The attachments of a word are ones it takes (R74, R75). -/
def attachOk (sh : Shape) (limm : Bool) (x : XMod) : Bool :=
  let fl := x.flag.toNat
  let named := (sh.mFlag.map BitVec.toNat).getD fl
  (!limm || sh.limm) && !x.bad
  && (fl == 15 || (decide (fl < 12) && sh.mFlag.isNone))
  && decide (x.scope.toNat ≤ 8) && (x.scope == 0 || sh.scope)
  && (!x.cv || sh.colour) && (x.colour == 0 || x.cv)
  && decide (x.cp.toNat < sh.cp) && sh.forms.contains x.form.toNat
  && (match sh.flagRule with
    | .never => named == 15
    | .optional => named == 15 || decide (named < 12)
    | .required => decide (named < 12))

/-- A word keeps its shape. -/
def shapeOk (sh : Shape) (nv : Nat) (limm : Bool) (x : XMod) : Bool :=
  attachOk sh limm x && sh.fields && sh.uses.all (Use.ok nv)

/-- Whether some lane of the position replays in stepped form. -/
def Ctx.isStepped (c : Ctx) : Bool := (maskLanes c.lanes).any fun l => (c.f.lane l).stepped

/-- The poison an active lane reads through the word's register fields. -/
def Ctx.consumes (c : Ctx) (sh : Shape) : Option Poison :=
  c.actLanes.findSome? fun l => sh.uses.findSome? fun u => u.reads.findSome? fun r => c.poisonIn r l

/-- Whether a word closes its lanes' synchronisation region at issue (R288, R317). -/
def closesSync (i : Instr) (flag : Nat) : Bool :=
  match i with
  | .lds _ _ _ _ _ _ => true
  | .atst _ _ _ _ _ _ => true
  | .atom _ _ _ _ _ _ => flag != 15
  | .cas _ _ _ _ _ _ => true
  | .atomf _ _ _ _ _ _ => flag != 15
  | .fence _ _ _ _ _ => true
  | .bar _ _ => true
  | .copy _ _ _ _ _ _ _ => true
  | .gather _ _ _ _ => true
  | .stream _ _ _ => true
  | .streamPost _ _ _ => true
  | .hwaitFree _ _ _ => true
  | .hwaitFull _ _ _ => true
  | .csend _ _ _ => true
  | .crecv _ _ _ => true
  | .cbar _ _ _ => true
  | .qpush _ _ _ _ _ => true
  | .qpop _ _ _ _ _ => true
  | .cwait _ _ _ => true
  | .cancel _ _ _ => true
  | _ => false

/-! ### What holds a word (R84) -/

/-- Entries that stand in a core's queue; those of a saved image stand in none. -/
def State.queueLen (s : State) (core : Nat) (q : QName) : Nat :=
  (s.entries.filter fun e => e.core == core && e.queue == q && !e.saved).length
def State.queueFull (s : State) (core : Nat) (q : QName) : Bool := decide (32 ≤ s.queueLen core q)

def cqName (n : Nat) : QName :=
  match n with
  | 0 => .cq0
  | 1 => .cq1
  | 2 => .cq2
  | 3 => .cq3
  | _ => .fq

/-- The queues of a `QFENCE` mask (R252). -/
def fenceQueues (mask : Nat) : List QName :=
  ([(0, .cq0), (1, .cq1), (2, .cq2), (3, .cq3), (4, .gq), (5, .mq), (6, .nq), (7, .sq), (8, .fq)].filter
    fun c => mask.testBit c.1).map Prod.snd

/-- First tile and number of tiles a Mill operation names. -/
def MillWork.tiles (m : MillWork) : Nat × Nat := if m.op == .azero then (m.tile, m.n) else (m.tile, 1)

/-- Some Mill operation of the core that names a tile, issued in an earlier cycle, has not retired (R172). -/
def State.tileBusy (s : State) (core tile : Nat) : Bool :=
  s.entries.any fun e => e.core == core && !e.saved && decide (e.issued < s.cycleOf core) && (match e.work with
    | .mill m => decide (m.tiles.1 ≤ tile ∧ tile < m.tiles.1 + m.tiles.2)
    | _ => false)

/-- Element number that an `AMOV` lane names (R223). A sum below 0 wraps to 64 bits, which is beyond every tile and greater than every
element number. DESIGN CHOICE (log 83). -/
def Ctx.amovElem (c : Ctx) (a : BitVec 7) (l : Nat) : DWord := (c.r32 a l).setWidth 64 + c.off

/-- Conditions of R84 that belong to the word itself: a full queue, the tile interlock, elements that a stream has not
buffered yet. -/
def heldBy (i : Instr) (c : Ctx) (s : State) : Bool :=
  let full (q : QName) : Bool := s.queueFull c.core q
  match i with
  | .qrd _ _ _ n _ =>
    let q := c.f.streams.get n.toNat
    let k := (c.actLanes.filter fun l => !(q.rewound.any fun t => t.1 == l)).length
    q.bound && !q.write && decide (q.buffer.length < min k (q.count - q.given))
  | .mrel _ _ _ _ => full .mq
  | .mbind _ _ _ _ _ => full .mq
  | .mma _ _ _ _ _ => full .mq
  | .mmas _ _ _ _ _ => full .mq
  | .mmab _ _ _ _ _ => full .mq
  | .azero _ _ _ _ => full .mq
  | .acvt _ _ _ _ _ _ => full .mq
  | .amovRd _ _ _ a _ => c.actLanes.any fun l => s.tileBusy c.core ((c.amovElem a l).toNat / 1024)
  | .amovWr _ _ _ a => c.actLanes.any fun l => s.tileBusy c.core ((c.amovElem a l).toNat / 1024)
  | .copy _ _ _ _ q m _ => full (cqName q.toNat) || (m && full .mq)
  | .gather _ _ _ _ => full .gq
  | .stream _ _ a =>
    full (cqName ((((s.commit c.id c.lanes).unitOf c.f).winValue ((c.low32 a).toNat + 0x10) 4 / 2 ^ 20) % 4))
  | .qmv _ _ _ _ => full .nq
  | .rjoin _ _ _ => full .nq
  | .scan _ _ _ => full .sq
  | .csend _ _ _ => full .sq
  | .crecv _ _ _ => full .sq
  | .cbar _ _ _ => full .sq
  | .spawn _ _ _ _ => decide (16 ≤ (s.spawns.filter fun r => r.core == c.core && !r.sent && r.grow.isNone).length)
  | .qfence _ _ m k => (fenceQueues (m.toNat * 128 + k.toNat)).any full
  | _ => false

/-- The word at a position ends its region, by Y or by its opcode. -/
def Shape.endsRegion (sh : Shape) : Bool := sh.y || opEndsRegion sh.op

/-- A region end waits for the region's results and for the translation of its stores (R82, R185). -/
def regionWaits (f : Sheaf) (m : Mask) : Bool :=
  f.outstanding.any (fun o => o.inRegion && m.getLsbD o.lane) || !f.translated m

/-- A region end waits, for its region's results or for its stores to be performed. -/
def State.endWaits (s : State) (f : Sheaf) (m : Mask) : Bool := regionWaits f m || s.commitHeld f m

/-- Some lane awaits a value whose acquire orders its later accesses (R189), or the implied fence of R292. -/
def acquireWaits (f : Sheaf) (m : Mask) : Bool :=
  f.outstanding.any fun o => m.getLsbD o.lane && (o.acquire != 0 || (f.lane o.lane).impliedFence)

/-- A root reply that some lane awaits orders its later accesses (R342, R343). -/
def State.incrdWaits (s : State) (id : Nat) (m : Mask) : Bool :=
  s.incMsgs.any fun r => r.read && r.owner.sheaf == id && r.owner.lanes &&& m != 0

/-- A named flag stands at 63 (R80). Where two words of one cycle raise a flag that stands at 62, the second waits, because the
counts it tests are those the first has left. DESIGN CHOICE (log 77). -/
def flagFull (f : Sheaf) (flag : Nat) (act : Mask) : Bool :=
  decide (flag < 12) && act != 0 && (f.flagCount flag == 63 || (maskLanes act).any fun l => f.laneFlag flag l == 63)

/-- A word is held for now. -/
def wordHeld (i : Instr) (sh : Shape) (c : Ctx) (s : State) : Bool :=
  (sh.endsRegion && s.endWaits c.f c.lanes)
  || (decide (0x60 ≤ sh.op ∧ sh.op ≤ 0x7E) && (acquireWaits c.f c.act || s.incrdWaits c.id c.act))
  || (sh.op != 0x5E && flagFull ((s.sheaf c.id).getD c.f) c.flag c.act)
  || (c.act != 0 && heldBy i c s)

/-! ### Issuing -/

/-- The state in which a word's own effect begins: the stores of its region are committed if it ends the region in its issue cycle
(R82, R185). -/
def State.committedBy (s : State) (c : Ctx) (sh : Shape) : State :=
  if sh.endsRegion && !(sh.y && opCommitsLate sh.op) then s.commit c.id c.lanes else s

/-- A `SCHED` group once a word has issued: it counts on, an `ENDL` passed over (R72, R145). -/
def schedAfter (op : Nat) (g : Option Sched) : Option Sched :=
  if op = 0x5D then g else
    match g with
    | some g => if g.stalls.length ≤ 1 then none else some ⟨g.stalls.tail, 0⟩
    | none => none

/-- A lane goes on to the next word: its hints are used up, its `SCHED` group counts on (R72), its pass count falls to 0 (R85). -/
def Ctx.advanced (c : Ctx) (sh : Shape) (x : LaneSt) : LaneSt :=
  { x with
    pc := c.pc + 4
    limm := none
    xmod := none
    lastIssue := c.now
    asked := none
    declined := none
    pass := 0
    sched := schedAfter sh.op x.sched }

/-- The position's lanes go on, and the word's flag rises; `LWAIT` raises none. -/
def Sheaf.advanced (f : Sheaf) (c : Ctx) (sh : Shape) : Sheaf :=
  let f := f.updLanes c.lanes fun _ x => c.advanced sh x
  { (if sh.op = 0x5E then f else f.raise c.op c.flag c.act) with issued := true, restored := false }

/-- A word takes a name for its flag part and a free choice for its reads. -/
def State.counted (s : State) : State := { s with fresh := s.fresh + 1, free := s.free + 1 }

/-- What every word does when it issues: its region's stores commit if it ends one in its issue cycle, its lanes go on,
its hints are used up, its flag rises. -/
def State.advance (s : State) (c : Ctx) (sh : Shape) : State :=
  (((s.committedBy c sh).updSheaf c.id fun f => f.advanced c sh).counted).progress c.unit.job

/-- A closing word begins a new synchronisation region for its active lanes (R288). -/
def Sheaf.closedSync (f : Sheaf) (seq : Nat) (i : Instr) (c : Ctx) : Sheaf :=
  if closesSync i c.flag then f.updLanes c.act fun _ x => { x with syncRegion := seq } else f

/-- A region end begins a new restart region for its live lanes (R83); a late commit waits for the park's end. -/
def Sheaf.endedRegion (f : Sheaf) (seq : Nat) (c : Ctx) (sh : Shape) : Sheaf :=
  if sh.endsRegion && !(sh.y && opCommitsLate sh.op) then f.startRegion seq (c.lanes &&& f.liveMask) else f

/-- Lanes park their sheaf, beside those that have parked it in the same cycle (R82, R87). -/
def Sheaf.parked (f : Sheaf) (m : Mask) (late : List Mask) : Sheaf :=
  { f with park := some ⟨(f.park.getD {}).lanes ||| m, (f.park.getD {}).late ++ late⟩ }

/-- A word with Y parks its sheaf (R82). -/
def Sheaf.parkedBy (f : Sheaf) (c : Ctx) (sh : Shape) : Sheaf :=
  if sh.y then f.parked c.lanes (if opCommitsLate sh.op then [c.lanes] else []) else f

/-- What a word's end does to its sheaf. -/
def Sheaf.concluded (f : Sheaf) (seq : Nat) (i : Instr) (c : Ctx) (sh : Shape) : Sheaf :=
  ((f.closedSync seq i c).endedRegion seq c sh).parkedBy c sh

/-- What follows the effect. -/
def State.conclude (s : State) (i : Instr) (c : Ctx) (sh : Shape) : State :=
  let (seq, s) := s.take
  s.updSheaf c.id fun f => f.concluded seq i c sh

/-- The lanes of a trap that made no effect: those it names, or all of them. Their parts of the word's flag are given up. -/
def TrapRec.failing (t : TrapRec) : Mask := if t.who = 0 then t.lanes else t.who

/-- A trap of the word: held while another handler of the sheaf runs (R94). DEDUCED (log 33). -/
def State.trapWord (s0 s : State) (c : Ctx) (t : TrapRec) : State :=
  match s0.sheaf c.id with
  | none => s0
  | some f =>
    if f.handlerMask &&& t.lanes = 0 ∧ (f.handlerMask != 0 ∨ f.trap.isSome) then
      s0.updSheaf c.id fun f => f.updLanes c.lanes fun _ x => { x with hold := .trap }
    else s.raiseTrap c.id t

/-- A word that has no effect of its own: its hints are consumed, lanes it does not act on go on, the word counted for them (R70,
R72). DEDUCED (log 35). -/
def State.passInactive (s : State) (c : Ctx) : State :=
  s.updSheaf c.id fun f =>
    { (f.updLanes c.lanes fun l x =>
        { x with pc := if c.act.getLsbD l then x.pc else c.pc + 4, limm := none, xmod := none, lastIssue := c.now, pass := 0
                 sched := if c.act.getLsbD l then x.sched else schedAfter (wordOp c.word).toNat x.sched }) with
      issued := true
      restored := false }

/-- The emulation trap of a word: it has no effect (R92). -/
def State.emulWord (s : State) (c : Ctx) : State := s.trapWord (s.passInactive c) c (emulTrap c.word c.pc c.act)

/-- The open region of a lane has met a condition. -/
def LaneSt.met (x : LaneSt) (p : Poison) : Bool := x.poisoned == some p || x.alsoMet.contains p

/-- The lanes whose open regions hold a poison, whatever position they stand in, with those that began the region beside them
(R195). -/
def Sheaf.holders (f : Sheaf) (p : Poison) : Mask :=
  let own := laneMask fun l => (f.lane l).life == .live && (f.lane l).met p
  laneMask fun l => (f.lane l).life == .live && (maskLanes own).any fun b =>
    l == b || ((f.lane l).startSeq == (f.lane b).startSeq && (f.lane l).pc == (f.lane b).pc)

/-- A word consumes poison: it has no effect, the sheaf parks, and the open regions of its lanes, and those that hold the poison, are
replayed once it is serviced (R101, R195). DEDUCED (log 30). -/
def State.consume (s : State) (c : Ctx) (p : Poison) : State :=
  (s.updSheaf c.id fun f => { (f.parked 0 []) with issued := true }).beginService c.id
    (c.f.replaySet c.lanes c.act ||| c.f.holders p) p false

/-- The context of a position: its sheaf as it stands and as it is seen, its lanes, the lowest of them, the word. -/
def State.ctxOf (s : State) (id : Nat) (f view : Sheaf) (lanes : Mask) (l0 : Nat) (sh : Shape) (word : Word) : Ctx :=
  let x := f.lane l0
  let xm := x.xmod.getD {}
  let c : Ctx := { id := id, f := view, unit := s.unitOf f, lanes := lanes, pc := x.pc, limm := x.limm, x := xm, now := s.now f,
                   free := s.free, word := word, op := s.fresh, flag := ((sh.mFlag.map BitVec.toNat).getD xm.flag.toNat) }
  { c with act := if opIsHint sh.op then lanes else laneMask fun l => lanes.getLsbD l && c.pred sh.guard l }

/-- The shape of a word for a lane's pending hints. -/
def LaneSt.shapeOf (x : LaneSt) (i : Instr) : Shape := shape i (x.xmod.getD {}).form.toNat x.limm.isSome

/-- The context of the issuing position, if its sheaf stands and a lane of it lives. DESIGN CHOICE (log 36). -/
def State.issuing (s : State) (i : Instr) : Option (Option Ctx) :=
  match s.cur with
  | none => none
  | some cur =>
    match s.sheaf cur.sheaf with
    | none => none
    | some f =>
      let lanes := cur.lanes &&& f.liveMask
      match lowest lanes with
      | none => some none
      | some l0 => some (some (s.ctxOf cur.sheaf f cur.view lanes l0 ((f.lane l0).shapeOf i) ((encode i).getD 0)))

/-- Issue a word that is not a hint. -/
def issueWord (i : Instr) (s : State) (eff : Ctx → State → Eff) : Out :=
  match s.issuing i with
  | none => .fault .noIssuer
  | some none => .next s
  | some (some c) =>
    let sh := shape i c.form c.limm.isSome
    let bad := if sh.endsRegion then c.f.faultedLanes c.lanes else 0
    .next <|
      match c.f.firstFault bad with
      | some p => s.beginService c.id (c.f.replaySet c.lanes bad) p false
      | none =>
        if wordHeld i sh c s then s
        else if c.act = 0 then (s.advance c sh).conclude i c sh
        else if !shapeOk sh c.unit.lrec.nv c.limm.isSome c.x then s.emulWord c
        else match c.consumes sh with
          | some p => s.consume c p
          | none =>
            match eff c (s.advance c sh) with
            | .done s2 => s2.conclude i c sh
            | .emul => s.emulWord c
            | .trap t s2 => s.trapWord ((s2.updSheaf c.id fun f => f.dropParts c.op t.failing).conclude i c sh) c t
            | .hold s2 => s2
            | .poison p => s.consume c p

/-- Issue a hint: its lanes take it and go on, or it raises the emulation trap (R71 to R75). -/
def issueHint (i : Instr) (s : State) (take : LaneSt → Option LaneSt) : Out :=
  match s.issuing i with
  | none => .fault .noIssuer
  | some none => .next s
  | some (some c) =>
    if (maskLanes c.lanes).any (fun l => (take (c.f.lane l)).isNone) then .next (s.emulWord c)
    else .next ((s.updSheaf c.id fun f =>
      { (f.updLanes c.lanes fun _ x => { (take x).getD x with pc := c.pc + 4, pass := 0 }) with issued := true }).progress c.unit.job)

/-- Write a result to a destination field in the active lanes, with the word's latency (R68, R77, R100). -/
def State.result (s : State) (c : Ctx) (lat : Nat) (d : BitVec 7) (g : Nat → Word) : State :=
  s.updSheaf c.id fun f => f.writeField c.now lat d.toNat (c.actLanes.map fun l => (l, g l))
/-- The same for a pair. -/
def State.result64 (s : State) (c : Ctx) (lat : Nat) (d : BitVec 7) (g : Nat → DWord) : State :=
  s.updSheaf c.id fun f => f.writeWords c.now lat d.toNat 2 (c.actLanes.map fun l => (l, [lo32 (g l), hi32 (g l)]))
/-- Write a predicate in the active lanes. -/
def State.resultPred (s : State) (c : Ctx) (lat : Nat) (p : BitVec 3) (g : Nat → Bool) : State :=
  s.updSheaf c.id fun f => c.actLanes.foldl (fun acc l => acc.writePred c.now lat p.toNat l (g l)) f

/-- A word with one 32-bit result per lane. -/
def lane32 (i : Instr) (s : State) (lat : Nat) (d : BitVec 7) (g : Ctx → Nat → Word) : Out :=
  issueWord i s fun c t => .done (t.result c lat d (g c))
def lane64 (i : Instr) (s : State) (lat : Nat) (d : BitVec 7) (g : Ctx → Nat → DWord) : Out :=
  issueWord i s fun c t => .done (t.result64 c lat d (g c))
/-- A word whose FORM decides between one register and a pair. -/
def laneForm (i : Instr) (s : State) (lat : Nat) (d : BitVec 7) (wide : Nat → Bool)
    (g : Ctx → Nat → Word) (h : Ctx → Nat → DWord) : Out :=
  issueWord i s fun c t => .done (if wide c.form then t.result64 c lat d (h c) else t.result c lat d (g c))

end Sys2Proof.Machine
end

