-- ==== Sys2Proof/Machine/Lane.lean ====
section
/-!
DEFINITION. Lane instructions: integer, floating point, special functions, conversions, compares, selects and predicates
(the manual's chapter of that name).
-/
namespace Sys2Proof.Machine

/-! ### Shared operations -/

def wideAt (form : Nat) : Bool := form == 2 || form == 3
def pairAt (form : Nat) : Bool := form == 2

/-- Clamp of the saturating forms (R104). -/
def satInt (form : Nat) (z : Int) : Word := BitVec.ofInt 32 (clampInt 32 (form == 4) z)

/-- A 32-bit operand of forms 0, 1, 4 and 5 as an integer: signed in forms 0 and 4 (R97). -/
def readForm (form : Nat) (x : Word) : Int := if form = 0 ∨ form = 4 then x.toInt else x.toNat
def readForm64 (form : Nat) (x : DWord) : Int := if form = 2 then x.toInt else x.toNat

/-- Sum or difference in forms 0 to 5 (R103, R104). -/
def addForm (form : Nat) (x y : Word) (sub : Bool) : Word :=
  if form = 4 ∨ form = 5 then
    satInt form (if sub then readForm form x - readForm form y else readForm form x + readForm form y)
  else if sub then x - y else x + y

/-- The sum with an immediate, which is signed in every form (R103, R104). DEDUCED (log 66). -/
def addImm (form : Nat) (x imm : Word) : Word :=
  if form = 4 ∨ form = 5 then satInt form (readForm form x + imm.toInt) else x + imm

def shl32 (x c : Word) : Word := if 32 ≤ c.toNat then 0 else x <<< c.toNat
def shr32 (x c : Word) : Word := if 32 ≤ c.toNat then 0 else x >>> c.toNat
def sar32 (x c : Word) : Word := x.sshiftRight (min c.toNat 31)
def shl64 (x : DWord) (c : Word) : DWord := if 64 ≤ c.toNat then 0 else x <<< c.toNat
def shr64 (x : DWord) (c : Word) : DWord := if 64 ≤ c.toNat then 0 else x >>> c.toNat
def sar64 (x : DWord) (c : Word) : DWord := x.sshiftRight (min c.toNat 63)

/-- `SHI` (R108). -/
def shiftImm (k : Nat) (x : Word) (c : Nat) : Word :=
  match k with
  | 0 => x <<< c
  | 1 => x >>> c
  | 2 => x.sshiftRight c
  | _ => x.rotateLeft c

/-- Position and clipped length of a bit field, none when it is empty (R110). -/
def fieldOf (b : Word) : Option (Nat × Nat) :=
  let pos := (b.extractLsb' 0 8).toNat
  let len := (b.extractLsb' 8 8).toNat
  if 32 ≤ pos ∨ len = 0 then none else some (pos, min len (32 - pos))

def bfeOf (signed : Bool) (a b : Word) : Word :=
  match fieldOf b with
  | none => 0
  | some (pos, len) =>
    let x := a.toNat / 2 ^ pos % 2 ^ len
    BitVec.ofInt 32 (readInt len signed x)

def bfiOf (d a b : Word) : Word :=
  match fieldOf b with
  | none => d
  | some (pos, len) =>
    let mask : Word := BitVec.ofNat 32 ((2 ^ len - 1) * 2 ^ pos)
    (d &&& ~~~mask) ||| (BitVec.ofNat 32 (a.toNat % 2 ^ len * 2 ^ pos))

def popcount (x : Word) : Nat := (laneList.filter fun i => x.getLsbD i).length
def leadingZeros (x : Word) : Nat := if x = 0 then 32 else 31 - Nat.log2 x.toNat
def trailingZeros (x : Word) : Nat := ((laneList.find? fun i => x.getLsbD i)).getD 32
def reverseBits (x : Word) : Word := laneMask fun i => x.getLsbD (31 - i)
def swapBytes (x : Word) : Word := x.extractLsb' 0 8 ++ x.extractLsb' 8 8 ++ x.extractLsb' 16 8 ++ x.extractLsb' 24 8

/-- The index operand of `LEA`, extended and scaled (R106). -/
def leaIndex (form : Nat) (b : Word) : DWord :=
  if form < 5 then b.signExtend 64 <<< form else b.setWidth 64 <<< (form - 5)

/-- The four-byte dot product, its sum exact (R105). -/
def dot4 (form : Nat) (a b : Word) : Int :=
  let byte (x : Word) (k : Nat) (signed : Bool) : Int := readInt 8 signed (x.toNat / 2 ^ (8 * k))
  ([0, 1, 2, 3].map fun k => byte a k (form == 0) * byte b k (form != 1)).foldl (· + ·) 0

/-- The format of a floating FORM (R98). -/
def fpFmt (form : Nat) : Fmt := if form = 0 then f32 else if form = 1 ∨ form = 3 then f16 else bf16
def halves (x : Word) : Nat × Nat := ((x.extractLsb' 0 16).toNat, (x.extractLsb' 16 16).toNat)

/-- Apply an operation on codes to the elements of a FORM: one FP32, one 16-bit scalar, or a packed pair (R96, R98). -/
def perElement (form : Nat) (g : Fmt → Nat → Nat → Nat → Nat) (a b d : Word) : Word :=
  let f := fpFmt form
  if form = 0 then BitVec.ofNat 32 (g f a.toNat b.toNat d.toNat)
  else
    let lo := g f (halves a).1 (halves b).1 (halves d).1
    if form ≤ 2 then BitVec.ofNat 32 lo
    else BitVec.ofNat 16 (g f (halves a).2 (halves b).2 (halves d).2) ++ BitVec.ofNat 16 lo

/-- `FRND` on one code: an integral value, or the operand when it is one, an infinity or a zero (R116). -/
def roundIntegral (mode : Nat) (f : Fmt) (code : Nat) : Nat :=
  match f.decode code with
  | .nan => f.nan
  | .inf neg => f.infinity neg
  | .fin neg m e => if m = 0 then f.code neg 0 else f.round rne (.fin neg (roundInt mode neg m e).natAbs 0)

/-- `FSCL` on one code (R115). -/
def scaleCode (rm : Word) (f : Fmt) (code : Nat) (n : Int) : Nat :=
  match f.decode code with
  | .fin neg m e => if m = 0 then f.code neg 0 else f.round rm (.fin neg m (e + n))
  | .inf neg => f.infinity neg
  | .nan => f.nan

/-- `fabs`, `fneg`, `fnabs` on one code: the sign replaced, or the canonical NaN (R117). -/
def signed (kind : Nat) (f : Fmt) (code : Nat) : Nat :=
  if (f.decode code).isNan then f.nan
  else
    let mag := code % f.signBit
    let neg := decide (f.signBit ≤ code % 2 ^ f.bits)
    f.code (match kind with
      | 0 => false
      | 1 => !neg
      | _ => true) mag

/-- A floating value converted to a format code of R125 (R60, R126): its register value. -/
def convertEx (rm : Word) (inf : Bool) (t : Nat) (x : Ex) : DWord :=
  match intOf t with
  | some (w, sg) => bits64 (toInt (rmMode rm) w sg x)
  | none => match fmtOf t inf with
    | some f => BitVec.ofNat 64 (f.round rm x)
    | none => 0

/-- An integer converted to a format code of R125 (R60): narrow results extended by the type (R48). -/
def convertInt (rm : Word) (inf : Bool) (sw : Nat) (ss : Bool) (t : Nat) (z : Int) : DWord :=
  match intOf t with
  | some (w, sg) => bits64 (readInt w sg (bits64 (intToInt (rmSat rm) sw ss w sg z)).toNat)
  | none => match fmtOf t inf with
    | some f => BitVec.ofNat 64 (f.round rm (Ex.ofInt z))
    | none => 0

/-- Element formats of `CVTS` (R128). -/
def scaledFmt (form : Nat) : Fmt :=
  if form < 5 then (fmtOf (11 + form) false).getD f32 else (fmtOf (12 + form) false).getD f32

/-- `PACK` (R129). -/
def packOf (form : Nat) (d a b : Word) : Word :=
  match form with
  | 0 => b.extractLsb' 0 16 ++ a.extractLsb' 0 16
  | 1 => d.extractLsb' 0 16 ++ b.extractLsb' 0 8 ++ a.extractLsb' 0 8
  | _ => d.extractLsb' 0 24 ++ b.extractLsb' 0 4 ++ a.extractLsb' 0 4

/-- A floating word of R112: the sum of terms formed from the codes, rounded once. -/
def fpWord (i : Instr) (s : State) (d a b : BitVec 7) (terms : Fmt → Nat → Nat → Nat → List Ex) : Out :=
  lane32 i s 4 d fun c l =>
    perElement c.form (fun f x y z => f.roundSum c.f.rm (terms f x y z)) (c.r32 a l) (c.b32 b l) (c.r32 d l)

/-- A special function (R118). -/
def sfuWord (i : Instr) (s : State) (d a : BitVec 7) (g : Word → Word → Nat) : Out :=
  lane32 i s 7 d fun c l => BitVec.ofNat 32 (g c.f.rm (c.r32 a l))

/-- A compare: a predicate from two operands of 32 bits, or of 64 in FORM 2 (R120). -/
def icmpWord (i : Instr) (s : State) (p : BitVec 3) (cond : BitVec 4) (a : BitVec 7)
    (y32 : Ctx → Nat → Word) (y64 : Ctx → Nat → DWord) : Out :=
  issueWord i s fun c t => .done (t.resultPred c 2 p fun l =>
    if c.form = 2 then intCond cond.toNat 64 (c.r64 a l).toNat (y64 c l).toNat
    else intCond cond.toNat 32 (c.r32 a l).toNat (y32 c l).toNat)

/-! ### Integer and address words -/

def execIadd (y : Bool) (g : BitVec 3) (d a b : BitVec 7) (s : State) : Out :=
  laneForm (.iadd y g d a b) s 2 d wideAt (fun c l => addForm c.form (c.r32 a l) (c.b32 b l) false)
    (fun c l => c.r64 a l + c.b64 b l)
def execIsub (y : Bool) (g : BitVec 3) (d a b : BitVec 7) (s : State) : Out :=
  laneForm (.isub y g d a b) s 2 d wideAt (fun c l => addForm c.form (c.r32 a l) (c.b32 b l) true)
    (fun c l => c.r64 a l - c.b64 b l)
def execIaddi (y : Bool) (g : BitVec 3) (d a i : BitVec 7) (s : State) : Out :=
  laneForm (.iaddi y g d a i) s 2 d wideAt (fun c l => addImm c.form (c.r32 a l) (c.immOr i))
    (fun c l => c.r64 a l + (c.immOr i).signExtend 64)
def execImul (y : Bool) (g : BitVec 3) (d a b : BitVec 7) (s : State) : Out :=
  laneForm (.imul y g d a b) s 4 d wideAt (fun c l => c.r32 a l * c.b32 b l) (fun c l => c.r64 a l * c.b64 b l)
def execImulh (y : Bool) (g : BitVec 3) (d a b : BitVec 7) (s : State) : Out :=
  laneForm (.imulh y g d a b) s 4 d wideAt
    (fun c l => BitVec.ofInt 32 ((readForm c.form (c.r32 a l) * readForm c.form (c.b32 b l)) / (2 ^ 32 : Nat)))
    (fun c l => BitVec.ofInt 64 ((readForm64 c.form (c.r64 a l) * readForm64 c.form (c.b64 b l)) / (2 ^ 64 : Nat)))
def execImad (y : Bool) (g : BitVec 3) (d a b : BitVec 7) (s : State) : Out :=
  laneForm (.imad y g d a b) s 4 d wideAt (fun c l => c.r32 a l * c.b32 b l + c.r32 d l)
    (fun c l => c.r64 a l * c.b64 b l + c.r64 d l)
def execImin (y : Bool) (g : BitVec 3) (d a b : BitVec 7) (s : State) : Out :=
  laneForm (.imin y g d a b) s 2 d wideAt
    (fun c l => if readForm c.form (c.b32 b l) < readForm c.form (c.r32 a l) then c.b32 b l else c.r32 a l)
    (fun c l => if readForm64 c.form (c.b64 b l) < readForm64 c.form (c.r64 a l) then c.b64 b l else c.r64 a l)
def execImax (y : Bool) (g : BitVec 3) (d a b : BitVec 7) (s : State) : Out :=
  laneForm (.imax y g d a b) s 2 d wideAt
    (fun c l => if readForm c.form (c.r32 a l) < readForm c.form (c.b32 b l) then c.b32 b l else c.r32 a l)
    (fun c l => if readForm64 c.form (c.r64 a l) < readForm64 c.form (c.b64 b l) then c.b64 b l else c.r64 a l)
def execAnd (y : Bool) (g : BitVec 3) (d a b : BitVec 7) (s : State) : Out :=
  laneForm (.and y g d a b) s 2 d pairAt (fun c l => c.r32 a l &&& c.b32 b l) (fun c l => c.r64 a l &&& c.b64 b l)
def execOr (y : Bool) (g : BitVec 3) (d a b : BitVec 7) (s : State) : Out :=
  laneForm (.or y g d a b) s 2 d pairAt (fun c l => c.r32 a l ||| c.b32 b l) (fun c l => c.r64 a l ||| c.b64 b l)
def execXor (y : Bool) (g : BitVec 3) (d a b : BitVec 7) (s : State) : Out :=
  laneForm (.xor y g d a b) s 2 d pairAt (fun c l => c.r32 a l ^^^ c.b32 b l) (fun c l => c.r64 a l ^^^ c.b64 b l)
def execAndn (y : Bool) (g : BitVec 3) (d a b : BitVec 7) (s : State) : Out :=
  laneForm (.andn y g d a b) s 2 d pairAt (fun c l => c.r32 a l &&& ~~~c.b32 b l)
    (fun c l => c.r64 a l &&& ~~~c.b64 b l)
def execShl (y : Bool) (g : BitVec 3) (d a b : BitVec 7) (s : State) : Out :=
  laneForm (.shl y g d a b) s 2 d pairAt (fun c l => shl32 (c.r32 a l) (c.b32 b l))
    (fun c l => shl64 (c.r64 a l) (c.b32 b l))
def execShr (y : Bool) (g : BitVec 3) (d a b : BitVec 7) (s : State) : Out :=
  laneForm (.shr y g d a b) s 2 d pairAt (fun c l => shr32 (c.r32 a l) (c.b32 b l))
    (fun c l => shr64 (c.r64 a l) (c.b32 b l))
def execSar (y : Bool) (g : BitVec 3) (d a b : BitVec 7) (s : State) : Out :=
  laneForm (.sar y g d a b) s 2 d pairAt (fun c l => sar32 (c.r32 a l) (c.b32 b l))
    (fun c l => sar64 (c.r64 a l) (c.b32 b l))
/-- With a `LIMM`, its bits [6:0] are read in the same way and the others must be zero (R108). -/
def execShi (y : Bool) (g : BitVec 3) (d a : BitVec 7) (k : BitVec 2) (n : BitVec 5) (s : State) : Out :=
  issueWord (.shi y g d a k n) s fun c t =>
    match c.limm with
    | none => .done (t.result c 2 d fun l => shiftImm k.toNat (c.r32 a l) n.toNat)
    | some i =>
      if 128 ≤ i.toNat then .emul
      else .done (t.result c 2 d fun l => shiftImm (i.toNat / 32) (c.r32 a l) (i.toNat % 32))
def execBfe (y : Bool) (g : BitVec 3) (d a b : BitVec 7) (s : State) : Out :=
  lane32 (.bfe y g d a b) s 2 d fun c l => bfeOf (c.form == 0) (c.r32 a l) (c.b32 b l)
def execBfi (y : Bool) (g : BitVec 3) (d a b : BitVec 7) (s : State) : Out :=
  lane32 (.bfi y g d a b) s 2 d fun c l => bfiOf (c.r32 d l) (c.r32 a l) (c.b32 b l)
def execPopc (y : Bool) (g : BitVec 3) (d a : BitVec 7) (s : State) : Out :=
  lane32 (.popc y g d a) s 2 d fun c l => BitVec.ofNat 32 (popcount (c.r32 a l))
def execClz (y : Bool) (g : BitVec 3) (d a : BitVec 7) (s : State) : Out :=
  lane32 (.clz y g d a) s 2 d fun c l => BitVec.ofNat 32 (leadingZeros (c.r32 a l))
def execCtz (y : Bool) (g : BitVec 3) (d a : BitVec 7) (s : State) : Out :=
  lane32 (.ctz y g d a) s 2 d fun c l => BitVec.ofNat 32 (trailingZeros (c.r32 a l))
def execBrev (y : Bool) (g : BitVec 3) (d a : BitVec 7) (s : State) : Out :=
  lane32 (.brev y g d a) s 2 d fun c l => reverseBits (c.r32 a l)
def execBswap (y : Bool) (g : BitVec 3) (d a : BitVec 7) (s : State) : Out :=
  lane32 (.bswap y g d a) s 2 d fun c l => swapBytes (c.r32 a l)
def execMov (y : Bool) (g : BitVec 3) (d b : BitVec 7) (s : State) : Out :=
  laneForm (.mov y g d b) s 2 d pairAt (fun c l => c.b32 b l) (fun c l => c.b64 b l)
/-- `LEA` (R106): in its zero-extending forms a `LIMM` in place of b is one 32-bit value, so a negative one is extended with zeros. DESIGN
CHOICE (log 77). -/
def execLea (y : Bool) (g : BitVec 3) (d a b : BitVec 7) (s : State) : Out :=
  lane64 (.lea y g d a b) s 2 d fun c l => c.r64 a l + leaIndex c.form (c.b32 b l)
def execIdot4 (y : Bool) (g : BitVec 3) (d a b : BitVec 7) (s : State) : Out :=
  lane32 (.idot4 y g d a b) s 4 d fun c l => c.r32 d l + BitVec.ofInt 32 (dot4 c.form (c.r32 a l) (c.b32 b l))
def execImadw (y : Bool) (g : BitVec 3) (d a b : BitVec 7) (s : State) : Out :=
  lane64 (.imadw y g d a b) s 4 d fun c l =>
    c.r64 d l + BitVec.ofInt 64 (readForm c.form (c.r32 a l) * readForm c.form (c.b32 b l))

/-! ### Floating-point words -/

def execFadd (y : Bool) (g : BitVec 3) (d a b : BitVec 7) (s : State) : Out :=
  fpWord (.fadd y g d a b) s d a b fun f x z _ => [f.decode x, f.decode z]
def execFsub (y : Bool) (g : BitVec 3) (d a b : BitVec 7) (s : State) : Out :=
  fpWord (.fsub y g d a b) s d a b fun f x z _ => [f.decode x, (f.decode z).neg]
def execFmul (y : Bool) (g : BitVec 3) (d a b : BitVec 7) (s : State) : Out :=
  lane32 (.fmul y g d a b) s 4 d fun c l =>
    perElement c.form (fun f x z _ => f.round c.f.rm ((f.decode x).mul (f.decode z))) (c.r32 a l) (c.b32 b l) 0
def execFfma (y : Bool) (g : BitVec 3) (d a b : BitVec 7) (s : State) : Out :=
  fpWord (.ffma y g d a b) s d a b fun f x z w => [(f.decode x).mul (f.decode z), f.decode w]
def execFmin (y : Bool) (g : BitVec 3) (d a b : BitVec 7) (s : State) : Out :=
  lane32 (.fmin y g d a b) s 4 d fun c l =>
    perElement c.form (fun f x z _ => f.minMax false x z) (c.r32 a l) (c.b32 b l) 0
def execFmax (y : Bool) (g : BitVec 3) (d a b : BitVec 7) (s : State) : Out :=
  lane32 (.fmax y g d a b) s 4 d fun c l =>
    perElement c.form (fun f x z _ => f.minMax true x z) (c.r32 a l) (c.b32 b l) 0
def execFabs (y : Bool) (g : BitVec 3) (d a : BitVec 7) (s : State) : Out :=
  lane32 (.fabs y g d a) s 4 d fun c l => perElement c.form (fun f x _ _ => signed 0 f x) (c.r32 a l) 0 0
def execFneg (y : Bool) (g : BitVec 3) (d a : BitVec 7) (s : State) : Out :=
  lane32 (.fneg y g d a) s 4 d fun c l => perElement c.form (fun f x _ _ => signed 1 f x) (c.r32 a l) 0 0
def execFnabs (y : Bool) (g : BitVec 3) (d a : BitVec 7) (s : State) : Out :=
  lane32 (.fnabs y g d a) s 4 d fun c l => perElement c.form (fun f x _ _ => signed 2 f x) (c.r32 a l) 0 0
def execFcls (y : Bool) (g : BitVec 3) (d a : BitVec 7) (s : State) : Out :=
  lane32 (.fcls y g d a) s 4 d fun c l => BitVec.twoPow 32 (classBit (fpFmt c.form) (c.r32 a l).toNat)
def execFdot2 (y : Bool) (g : BitVec 3) (d a b : BitVec 7) (s : State) : Out :=
  lane32 (.fdot2 y g d a b) s 4 d fun c l =>
    let f := if c.form = 0 then bf16 else f16
    let x := halves (c.r32 a l)
    let z := halves (c.b32 b l)
    BitVec.ofNat 32 (f32.roundSum c.f.rm [(f.decode x.1).mul (f.decode z.1), (f.decode x.2).mul (f.decode z.2),
      f32.decode (c.r32 d l).toNat])
def execFrnd (y : Bool) (g : BitVec 3) (d a : BitVec 7) (r : BitVec 3) (s : State) : Out :=
  lane32 (.frnd y g d a r) s 4 d fun c l =>
    perElement c.form (fun f x _ _ => roundIntegral (if r = 5 then rmMode c.f.rm else r.toNat) f x) (c.r32 a l) 0 0
def execFscl (y : Bool) (g : BitVec 3) (d a b : BitVec 7) (s : State) : Out :=
  lane32 (.fscl y g d a b) s 4 d fun c l =>
    perElement c.form (fun f x _ _ => scaleCode c.f.rm f x (c.b32 b l).toInt) (c.r32 a l) 0 0

/-! ### Special functions -/

def execRcp (y : Bool) (g : BitVec 3) (d a : BitVec 7) (s : State) : Out :=
  sfuWord (.rcp y g d a) s d a fun rm x => rcpCode rm (f32.decode x.toNat)
def execRsq (y : Bool) (g : BitVec 3) (d a : BitVec 7) (s : State) : Out :=
  sfuWord (.rsq y g d a) s d a fun rm x => rsqCode rm (f32.decode x.toNat)
def execSqrt (y : Bool) (g : BitVec 3) (d a : BitVec 7) (s : State) : Out :=
  sfuWord (.sqrt y g d a) s d a fun rm x => sqrtCode rm (f32.decode x.toNat)
def execEx2 (y : Bool) (g : BitVec 3) (d a : BitVec 7) (s : State) : Out :=
  sfuWord (.ex2 y g d a) s d a fun rm x => ex2Code (rmSat rm) (Config.sfuCode 3 x).toNat (f32.decode x.toNat)
def execLg2 (y : Bool) (g : BitVec 3) (d a : BitVec 7) (s : State) : Out :=
  sfuWord (.lg2 y g d a) s d a fun _ x => lg2Code (Config.sfuCode 4 x).toNat (f32.decode x.toNat)
def execSin (y : Bool) (g : BitVec 3) (d a : BitVec 7) (s : State) : Out :=
  sfuWord (.sin y g d a) s d a fun _ x => sinCode (Config.sfuCode 5 x).toNat (f32.decode x.toNat)
def execCos (y : Bool) (g : BitVec 3) (d a : BitVec 7) (s : State) : Out :=
  sfuWord (.cos y g d a) s d a fun _ x => cosCode (Config.sfuCode 6 x).toNat (f32.decode x.toNat)
def execTanh (y : Bool) (g : BitVec 3) (d a : BitVec 7) (s : State) : Out :=
  sfuWord (.tanh y g d a) s d a fun _ x => tanhCode (Config.sfuCode 7 x).toNat (f32.decode x.toNat)

/-! ### Conversions -/

def wideCode (t : BitVec 5) : Bool := t == 3 || t == 7

/-- `cvt` from integers (R126): source width and signedness by the selector. -/
def execCvti (y : Bool) (g : BitVec 3) (d a : BitVec 7) (k : BitVec 2) (t : BitVec 5) (s : State) : Out :=
  issueWord (.cvti y g d a k t) s fun c st =>
    let w := if k.toNat < 2 then 32 else 64
    let sg := k.toNat % 2 == 0
    let conv (l : Nat) : DWord :=
      let x := if k.toNat < 2 then (c.r32 a l).toNat else (c.r64 a l).toNat
      convertInt c.f.rm (c.form == 1) w sg t.toNat (readInt w sg x)
    .done (if wideCode t then st.result64 c 4 d conv else st.result c 4 d fun l => lo32 (conv l))
def execCvtf (y : Bool) (g : BitVec 3) (d a : BitVec 7) (k : BitVec 2) (t : BitVec 5) (s : State) : Out :=
  issueWord (.cvtf y g d a k t) s fun c st =>
    let conv (l : Nat) : DWord :=
      convertEx c.f.rm (c.form == 1) t.toNat ((fpFmt k.toNat).decode (c.r32 a l).toNat)
    .done (if wideCode t then st.result64 c 4 d conv else st.result c 4 d fun l => lo32 (conv l))
def execCvtb (y : Bool) (g : BitVec 3) (d a : BitVec 7) (k : BitVec 5) (t : BitVec 2) (s : State) : Out :=
  lane32 (.cvtb y g d a k t) s 4 d fun c l =>
    let f := (fmtOf k.toNat (c.form == 1)).getD f32
    lo32 (convertEx c.f.rm (c.form == 1) (if t = 3 then 2 else 8 + t.toNat) (f.decode (c.r32 a l).toNat))
def execCvts (y : Bool) (g : BitVec 3) (d a b : BitVec 7) (s : State) : Out :=
  lane32 (.cvts y g d a b) s 4 d fun c l =>
    BitVec.ofNat 32 (f32.round c.f.rm
      (((scaledFmt c.form).decode (c.r32 a l).toNat).scaled ((c.b32 b l).extractLsb' 0 8)))
/-- `QBLK` (R131, R132): one block of the active lanes; the scale goes to a uniform register. -/
def execQblk (y : Bool) (g : BitVec 3) (d a : BitVec 7) (k : BitVec 4) (t : BitVec 3) (s : State) : Out :=
  issueWord (.qblk y g d a k t) s fun c st =>
    if c.bunch != 32 then .emul
    else
      let f := (fmtOf (11 + t.toNat) false).getD f32
      let q := quantBlock f (rmMode c.f.rm) (c.actLanes.map fun l => some (f32.decode (c.r32 a l).toNat))
      .done (st.updSheaf c.id fun x =>
        (x.writeField c.now 6 d.toNat (c.actLanes.zip (q.2.map (BitVec.ofNat 32)))).writeU c.now 6 k.toNat
          (q.1.setWidth 32))
def execPack (y : Bool) (g : BitVec 3) (d a b : BitVec 7) (s : State) : Out :=
  lane32 (.pack y g d a b) s 4 d fun c l => packOf c.form (c.r32 d l) (c.r32 a l) (c.b32 b l)
def execUnpk (y : Bool) (g : BitVec 3) (d a : BitVec 7) (w : BitVec 2) (k : BitVec 3) (s : State) : Out :=
  lane32 (.unpk y g d a w k) s 4 d fun c l =>
    let width := 16 / 2 ^ w.toNat
    BitVec.ofNat 32 ((c.r32 a l).toNat / 2 ^ (k.toNat * width) % 2 ^ width)

/-! ### Compare, select, predicates -/

def execIcmp (y : Bool) (g : BitVec 3) (cond : BitVec 4) (p : BitVec 3) (a b : BitVec 7) (s : State) : Out :=
  icmpWord (.icmp y g cond p a b) s p cond a (fun c l => c.b32 b l) (fun c l => c.b64 b l)
def execFcmp (y : Bool) (g : BitVec 3) (cond : BitVec 4) (p : BitVec 3) (a b : BitVec 7) (s : State) : Out :=
  issueWord (.fcmp y g cond p a b) s fun c t => .done (t.resultPred c 2 p fun l =>
    floatCond cond.toNat ((fpFmt c.form).decode (c.r32 a l).toNat) ((fpFmt c.form).decode (c.b32 b l).toNat))
def execSel (y : Bool) (g : BitVec 3) (d a b : BitVec 7) (s : State) : Out :=
  laneForm (.sel y g d a b) s 2 d pairAt (fun c l => if c.r32 d l != 0 then c.r32 a l else c.b32 b l)
    (fun c l => if c.r64 d l != 0 then c.r64 a l else c.b64 b l)
def execPlop (y : Bool) (g p q r : BitVec 3) (t : BitVec 4) (s : State) : Out :=
  issueWord (.plop y g p q r t) s fun c st => .done (st.resultPred c 2 p fun l => plopBit t (c.pred r l) (c.pred q l))
def execPmovP (y : Bool) (g p : BitVec 3) (a : BitVec 7) (s : State) : Out :=
  issueWord (.pmovP y g p a) s fun c st => .done (st.resultPred c 2 p fun l => c.r32 a l != 0)
def execPmovV (y : Bool) (g : BitVec 3) (d : BitVec 7) (p : BitVec 3) (s : State) : Out :=
  lane32 (.pmovV y g d p) s 2 d fun c l => if c.pred p l then 0xFFFFFFFF else 0
def execPmovM (y : Bool) (g : BitVec 3) (d : BitVec 7) (s : State) : Out :=
  lane32 (.pmovM y g d) s 2 d fun c l =>
    BitVec.ofNat 32 (([0, 1, 2, 3, 4, 5, 6].map fun p => if c.pred (BitVec.ofNat 3 p) l then 2 ^ p else 0).foldl (· + ·) 0)
def execPmovS (y : Bool) (g : BitVec 3) (a : BitVec 7) (s : State) : Out :=
  issueWord (.pmovS y g a) s fun c st => .done ([0, 1, 2, 3, 4, 5, 6].foldl
    (fun acc p => acc.resultPred c 2 (BitVec.ofNat 3 p) fun l => (c.r32 a l).getLsbD p) st)
def execIcmpi (y : Bool) (g : BitVec 3) (cond : BitVec 4) (p : BitVec 3) (a i : BitVec 7) (s : State) : Out :=
  icmpWord (.icmpi y g cond p a i) s p cond a (fun c _ => c.immOr i) (fun c _ => (c.immOr i).signExtend 64)

end Sys2Proof.Machine
end

