-- ==== Sys2Proof/Machine/Control.lean ====
section
/-!
DEFINITION. Hints, system words, branches and calls, waits and joins, hardware loops.
-/
namespace Sys2Proof.Machine

/-! ### Hints (R72, R74, R75) -/

def execSched (w : BitVec 12) (p q r t : BitVec 3) (s : State) : Out :=
  issueHint (.sched w p q r t) s fun x =>
    some { x with sched := some ⟨[p.toNat, q.toNat, r.toNat, t.toNat], w⟩ }
/-- A second `LIMM` before the first is consumed traps (R74). -/
def execLimm (i : BitVec 24) (s : State) : Out :=
  issueHint (.limm i) s fun x => if x.limm.isSome then none else some { x with limm := some i }
/-- A second `XMOD` before the same word makes that word trap (R75). -/
def execXmod (f c : BitVec 4) (v : Bool) (o : BitVec 3) (p : BitVec 2) (m : BitVec 4) (s : State) : Out :=
  issueHint (.xmod f c v o p m) s fun x => some { x with xmod := some ⟨f, c, v, o, p, m, x.xmod.isSome⟩ }

/-! ### Moving lanes -/

/-- Lanes go to addresses: a taken branch ends their `SCHED` group (R72, R134). -/
def State.branch (s : State) (c : Ctx) (m : Mask) (target : Nat → DWord) : State :=
  s.updSheaf c.id fun f => f.updLanes m fun l x => { x with pc := target l, sched := none }

/-- A relative target in words (R133). -/
def Ctx.rel (c : Ctx) (off : Word) : DWord := c.pc + 4 * off.signExtend 64

/-- A target that `RET` and `BRX` refuse (R135). -/
def badTarget (t : DWord) : Bool := t.extractLsb' 57 7 != 0 || t.extractLsb' 0 2 != 0

/-- Lanes hold at the word for a wait of its description. -/
def State.holdLanes (s : State) (c : Ctx) (m : Mask) (h : Hold) : State :=
  s.updSheaf c.id fun f => f.updLanes m fun _ x => { x with pc := c.pc, hold := h }

/-- Lanes held at a word go on to the next; where the word ended a region, the next one starts there. DEDUCED (log 62). -/
def State.releaseLanes (s : State) (id : Nat) (m : Mask) (newRegion : Bool) : State :=
  let (seq, s) := s.take
  s.updSheaf id fun f =>
    let f := f.updLanes m fun _ x => { x with pc := x.pc + 4, hold := .none }
    if newRegion then f.startRegion seq m else f

/-- Lanes leave for good: exited or culled. Their flag parts fall, their hints and pass counts go (R79, R95). -/
def Sheaf.endLanes (f : Sheaf) (m : Mask) (how : Life) : Sheaf :=
  let f := (f.dropAllParts m).settlePops m
  let f := { f with outstanding := (f.outstanding.filter fun o => !m.getLsbD o.lane) }
  f.updLanes m fun _ x => { x with life := how, handler := false, pass := 0, limm := none, xmod := none, sched := none,
                                   hold := .none, poisoned := none, alsoMet := [], declined := none }

/-- The live lanes that a loop word must hold: a lane in a handler is not counted (R84, R143). DEDUCED (log 21). -/
def Sheaf.loopSet (f : Sheaf) : Mask :=
  laneMask fun l => (f.lane l).life == .live && !(f.lane l).handler

/-- A position holds every live lane (R143, R146). DEDUCED (log 21). -/
def Sheaf.holdsAll (f : Sheaf) (m : Mask) : Bool := f.loopSet &&& ~~~m == 0

/-! ### System words -/

def execEret (g : BitVec 3) (s : State) : Out :=
  issueWord (.eret g) s fun c t =>
    if c.actLanes.any fun l => !(c.f.lane l).handler then .emul
    else .done (t.updSheaf c.id fun f => f.updLanes c.act fun _ x =>
      { x with pc := c.f.empc + 4, handler := false, sched := none })
/-- The lanes of an `EXIT` exit when its park ends (R157, R161). -/
def execExit (g : BitVec 3) (s : State) : Out :=
  issueWord (.exit g) s fun c t => .done (t.updSheaf c.id fun f => f.updLanes c.act fun _ x => { x with hold := .exit })

/-- Register number that `RDX` or `WRX` names in a lane; none traps (R158, R165). -/
def numbered (nv : Nat) (n : Word) (write : Bool) : Option Nat :=
  let k := n.toNat
  if 128 ≤ k then none
  else if k < 104 then (if k < nv then some k else none)
  else if write && decide (120 < k) then none
  else some k

def execRdx (y : Bool) (g : BitVec 3) (d a : BitVec 7) (s : State) : Out :=
  issueWord (.rdx y g d a) s fun c t =>
    if c.actLanes.any fun l => (numbered c.unit.lrec.nv (c.r32 a l) false).isNone then .emul
    else match c.actLanes.findSome? fun l => c.poisonIn (c.r32 a l).toNat l with
      | some p => .poison p
      | none => .done (t.result c 4 d fun l => c.reg (c.r32 a l).toNat l)
def execWrx (y : Bool) (g : BitVec 3) (a b : BitVec 7) (s : State) : Out :=
  issueWord (.wrx y g a b) s fun c t =>
    if c.actLanes.any fun l => (numbered c.unit.lrec.nv (c.r32 a l) true).isNone then .emul
    else
      let first (l : Nat) : Bool := c.actLanes.all fun k => decide (l ≤ k) || c.r32 a k != c.r32 a l
      let writers := c.actLanes.filter fun l => decide ((c.r32 a l).toNat < 104) || first l
      .done (writers.foldl (fun acc l => acc.updSheaf c.id fun f =>
        f.writeField c.now 4 (c.r32 a l).toNat [(l, c.b32 b l)]) t)

/-- Value of a sheaf register by selector; none traps (R159). -/
def Ctx.special (c : Ctx) (sel : Nat) : Option Word :=
  if sel < 64 then some (c.f.settle c.now c.free (uKey sel) (c.f.u.get sel))
  else if sel < 67 then some (c.f.lc.get (sel - 64))
  else match sel with
    | 67 => some c.f.bp
    | 68 => some c.f.rm
    | 69 => some c.f.clr
    | 70 => some c.f.bndc
    | 71 => some c.f.emw
    | 72 => some c.f.emg
    | 73 => some c.f.emd
    | 74 => some c.f.ema
    | 75 => some c.f.emb
    | 76 => some (lo32 c.f.empc)
    | 77 => some ((c.f.empc.extractLsb' 32 25).setWidth 32)
    | _ => none

def legalBunch (v : Word) : Bool :=
  let n := v.toNat % 64
  n == 2 || n == 4 || n == 8 || n == 16 || n == 32

/-- Write a sheaf register by selector; none traps (R56, R88, R159). A later read of `lc`, `BP`, `RM`, `CLR` or `EMPC` gives the new value
at once. DESIGN CHOICE (log 83). -/
def Sheaf.writeSpecial (f : Sheaf) (now : Nat) (m : Mask) (sel : Nat) (v : Word) : Option Sheaf :=
  if sel < 64 then some (f.writeU now 4 sel v)
  else if sel < 67 then some { f with lc := f.lc.set (sel - 64) v }
  else match sel with
    | 67 => if legalBunch v then
        some ({ f with bp := v &&& 63 }.updLanes m fun _ x => { x with wroteBp := true }) else none
    | 68 => if 5 ≤ rmMode v then none
        else some ({ f with rm := v &&& 15 }.updLanes m fun _ x => { x with wroteRm := true })
    | 69 => some ({ f with clr := v &&& 7 }.updLanes m fun _ x => { x with wroteClr := true })
    | 76 => some { f with empc := f.empc.extractLsb' 32 32 ++ v }
    | 77 => some { f with empc := ((v.extractLsb' 0 25).setWidth 32) ++ lo32 f.empc }
    | _ => none

def execMovsRd (y : Bool) (g : BitVec 3) (d sel : BitVec 7) (s : State) : Out :=
  issueWord (.movsRd y g d sel) s fun c t =>
    match c.special sel.toNat with
    | none => .emul
    | some v =>
      match (if sel.toNat < 64 then c.f.settlePoison c.now c.free (uKey sel.toNat) else none) with
      | some p => .poison p
      | none => .done (t.result c 4 d fun _ => v)
def execMovsWr (y : Bool) (g : BitVec 3) (sel a : BitVec 7) (s : State) : Out :=
  issueWord (.movsWr y g sel a) s fun c t =>
    match t.sheaf c.id with
    | none => .done t
    | some f =>
      match f.writeSpecial c.now c.lanes sel.toNat (c.low32 a) with
      | none => .emul
      | some f' => .done (t.setSheaf c.id f')
def execRdclkCyc (y : Bool) (g : BitVec 3) (d : BitVec 7) (s : State) : Out :=
  issueWord (.rdclkCyc y g d) s fun c t => .done (t.result64 c 4 d fun _ => BitVec.ofNat 64 (t.cycleOf c.core))
def execRdclkNs (y : Bool) (g : BitVec 3) (d : BitVec 7) (s : State) : Out :=
  issueWord (.rdclkNs y g d) s fun c t => .done (t.result64 c 4 d fun _ => BitVec.ofNat 64 t.nanos)

/-! ### Branches and calls -/

def execBra (y : Bool) (g : BitVec 3) (i : BitVec 7) (s : State) : Out :=
  issueWord (.bra y g i) s fun c t => .done (t.branch c c.act fun _ => c.rel (c.immOr i))
def execCall (y : Bool) (g : BitVec 3) (d i : BitVec 7) (s : State) : Out :=
  issueWord (.call y g d i) s fun c t =>
    .done ((t.result64 c 2 d fun _ => c.pc + 4).branch c c.act fun _ => c.rel (c.immOr i))
def execRet (y : Bool) (g : BitVec 3) (a : BitVec 7) (s : State) : Out :=
  issueWord (.ret y g a) s fun c t =>
    if c.actLanes.any fun l => badTarget (c.r64 a l) then .emul
    else .done (t.branch c c.act fun l => c.r64 a l)
def execBrx (y : Bool) (g : BitVec 3) (a b : BitVec 7) (s : State) : Out :=
  issueWord (.brx y g a b) s fun c t =>
    let target (l : Nat) : DWord := c.r64 a l + 4 * (c.b32 b l).signExtend 64
    if c.actLanes.any fun l => badTarget (target l) then .emul
    else .done (t.branch c c.act target)

/-! ### Joins, loops, per-lane waits -/

/-- A `JOIN` that issues has no effect beyond advancing (R140); when it may issue is the quadrant's choice. -/
def execJoin (y : Bool) (g : BitVec 3) (s : State) : Out :=
  issueWord (.join y g) s fun _ t => .done t
def execJoinM (y : Bool) (g : BitVec 3) (a : BitVec 7) (s : State) : Out :=
  issueWord (.joinM y g a) s fun _ t => .done t

def Sheaf.setLoop (f : Sheaf) (n : Nat) (v : Word) : Sheaf := { f with lc := f.lc.set n v }

/-- A position without every live lane traps: at once where none of the absent lanes is coming, for the rule has a trap only where
the word is forced. DESIGN CHOICE (log 77). -/
def execLoop (y : Bool) (n : BitVec 2) (a i : BitVec 7) (s : State) : Out :=
  issueWord (.loop y n a i) s fun c t =>
    let dist : Nat := match c.limm with
      | some x => x.toNat
      | none => i.toNat
    if !c.f.holdsAll c.lanes || dist = 0 then .emul
    else
      let count := c.low32 a
      let t := t.updSheaf c.id fun f => f.setLoop n.toNat count
      .done (if count = 0 then t.branch c c.lanes fun _ => c.pc + BitVec.ofNat 64 (4 * (dist + 1)) else t)

/-- The quadrant of a slot. -/
def quadOf (slot : Nat) : Nat := slot / 16

def LoopBody.words (b : LoopBody) : Nat := (b.endl.toNat - b.first.toNat) / 4 + 1

/-- The sheaves that keep a body resident: those that have used it and not fallen through its `ENDL`, but for those whose lanes have all
ended and those saved (R145). -/
def State.usersOf (s : State) (core : Nat) (b : LoopBody) : List Nat :=
  b.users.filter fun id => (s.sheaf id).any fun f =>
    f.liveMask != 0 && f.place.any fun p => p.1 == core && quadOf p.2 == b.quad

/-- Residence of loop bodies as an `ENDL` acts (R145): bodies that no sheaf keeps go; a sheaf that branches back uses the body, which
becomes resident if it fits beside the others; one that falls through leaves it. -/
def State.residence (s : State) (id : Nat) (f : Sheaf) (first : Option DWord) (endl : DWord) : State :=
  match f.place with
  | none => s
  | some (core, slot) =>
    let q := quadOf slot
    s.updCore core fun k =>
      let leave (b : LoopBody) : List Nat :=
        (s.usersOf core b).filter fun u => !(first.isNone && b.quad == q && b.endl == endl && u == id)
      let kept := (k.loops.map fun b => { b with users := leave b }).filter fun b => !b.users.isEmpty
      match first with
      | none => { k with loops := kept }
      | some lo =>
        let mine (b : LoopBody) : Bool := b.quad == q && b.first == lo && b.endl == endl
        let new : LoopBody := ⟨q, lo, endl, [id]⟩
        let used := ((kept.filter fun b => b.quad == q).map LoopBody.words).foldl (· + ·) 0
        if kept.any mine then { k with loops := kept.map fun b => if mine b && !b.users.contains id then { b with users := id :: b.users } else b }
        else if 256 < used + new.words then { k with loops := kept }
        else { k with loops := kept ++ [new] }

/-- The trap of a position that lacks live lanes is that of `LOOP`. DESIGN CHOICE (log 77). -/
def execEndl (y : Bool) (n : BitVec 2) (i : BitVec 7) (s : State) : Out :=
  issueWord (.endl y n i) s fun c t =>
    let off := c.immOr i
    if !c.f.holdsAll c.lanes || !off.msb then .emul
    else
      let count := c.f.lc.get n.toNat
      if count = 0 then .done (t.residence c.id c.f none c.pc)
      else
        let t := t.updSheaf c.id fun f => f.setLoop n.toNat (count - 1)
        if count = 1 then .done (t.residence c.id c.f none c.pc)
        else .done ((t.branch c c.lanes fun _ => c.rel off).residence c.id c.f (some (c.rel off)) c.pc)

def execLwait (y : Bool) (g : BitVec 3) (f : BitVec 4) (s : State) : Out :=
  issueWord (.lwait y g f) s fun c t =>
    .done (t.holdLanes c (laneMask fun l => c.act.getLsbD l && !c.f.laneDone f.toNat l) (.lwait f.toNat))

end Sys2Proof.Machine
end

