-- ==== Sys2Proof/Machine/Formats.lean ====
section
/-!
DEFINITION. Storage formats of the copy engines: layout records, where elements and scales lie, reading a tensor's elements
and forming a destination's (R238 to R244).
-/
namespace Sys2Proof.Machine

/-! ### Layout records (R238, R239) -/

/-- Element bytes of a format code (R239). -/
def elemBytes (e : Nat) : Nat :=
  if e = 1 ∨ e = 5 ∨ e = 9 ∨ e = 10 then 2 else if e = 2 ∨ e = 6 ∨ e = 8 then 4 else if e = 3 ∨ e = 7 then 8 else 1
/-- Bits of an MX or binary8 code. -/
def codeBits (e : Nat) : Nat := if e = 13 ∨ e = 14 then 6 else if e = 15 then 4 else 8 * elemBytes e
/-- Formats that carry scales (R54, R240). -/
def scaledElem (e : Nat) : Bool := decide (11 ≤ e ∧ e ≤ 15) || decide (17 ≤ e)
/-- Elements of canonical tiles (R204). -/
def tileElem (e : Nat) : Bool := e == 0 || e == 10 || decide (17 ≤ e ∧ e ≤ 23)

def Layout.nd (r : Layout) : Nat := r.exts.length
def Layout.ext (r : Layout) (k : Nat) : Nat := r.exts.getD k 1
def Layout.str (r : Layout) (k : Nat) : DWord := r.strides.getD k 0
/-- Elements of a record. -/
def Layout.count (r : Layout) : Nat := r.exts.foldl (· * ·) 1
def Layout.isStream (r : Layout) : Bool := decide (5 ≤ r.store)
def Layout.isTile (r : Layout) : Bool := r.store == 2 || r.store == 3

/-- Bytes of the record whose first 64 bytes are given (R238). -/
def recordSize (b : List Byte) : Nat := 64 + 16 * (leNat ((b.drop 8).take 4) / 2 ^ 19 % 16 - 1)

/-- The constraints of R239 and R240 on a record's fields. -/
def Layout.fits (r : Layout) : Bool :=
  (r.scale == 0 || scaledElem r.elem) &&
  match r.store with
  | 0 => r.scale != 1 && (r.scale == 0 || r.ext 0 % 32 == 0)
  | 1 => (decide (11 ≤ r.elem ∧ r.elem ≤ 15) || decide (17 ≤ r.elem ∧ r.elem ≤ 23)) && r.ext 0 % 32 == 0 && r.scale != 0
  | 2 => r.exts == [32, 32] && tileElem r.elem && r.scale != 1
  | 3 => r.exts == [32, 32] && tileElem r.elem && r.scale != 1
  | 4 => tileElem r.elem && r.scale != 1 && r.ext 0 % 32 == 0 && r.ext 1 % (if r.elem = 10 then 2 else 4) == 0
  | 5 => r.nd == 2 && r.scale == 0 && r.ext 0 % 16 == 0 && r.ext 1 % 16 == 0
  | 6 => r.nd == 2 && r.scale != 1 && r.ext 0 % 32 == 0 && r.ext 1 % 32 == 0
  | 7 => r.scale == 0
  | _ => false

/-- Read a record from its bytes; none when it is malformed (R238 to R242). -/
def parseLayout (b : List Byte) : Option Layout :=
  let at4 (o : Nat) : Nat := leNat ((b.drop o).take 4)
  let at8 (o : Nat) : Nat := leNat ((b.drop o).take 8)
  let attr := at4 8
  let nd := attr / 2 ^ 19 % 16 + 1
  let off (k : Nat) : Nat := if k < 2 then 0x20 + 16 * k else 0x40 + 16 * (k - 2)
  let r : Layout :=
    { base := BitVec.ofNat 64 (at8 0), elem := attr / 2 ^ 27, store := attr / 2 ^ 23 % 16, inf := attr.testBit 18,
      check := attr.testBit 17, scale := attr / 2 ^ 15 % 4,
      exts := (List.range nd).map fun k => at4 (off k),
      strides := (List.range nd).map fun k => BitVec.ofNat 64 (at8 (off k + 8)) }
  let holes := attr % 2 ^ 15 == 0 && ((b.drop 0x0C).take 20).all (· == 0)
    && (List.range (max nd 2)).all fun k => at4 (off k + 4) == 0
  if holes && (nd != 1 || at4 0x30 == 1) && r.exts.all (fun e => decide (1 ≤ e)) && decide (r.count < 2 ^ 48)
      && r.elem != 16 && r.elem != 24 && r.scale != 3 && r.fits
  then some r else none

/-! ### Sides of a copy -/

/-- A tensor in a space: 0 the virtual space of a context, 1 a unit's window, 2 a slot of a unit. -/
structure Side where
  kind : Nat := 0
  ctx : Nat := 0
  unit : Nat := 0
  /-- The core that issued the work, whose read cache its writes invalidate; none for a graph's copy. -/
  core : Option Nat := none
  lay : Layout := {}
  deriving DecidableEq, Repr, Inhabited

/-- Address of a side's first byte; a slot's image is addressed from 0. -/
def Side.base (d : Side) : DWord := if d.kind = 2 then 0 else d.lay.base
def Side.slotNo (d : Side) : Nat := d.lay.base.toNat % 32

/-- A check value that fails where a record asks for verification: the data count as carrying an uncorrected error (R258, R422). -/
def State.failedCheck (s : State) (d : Side) (a : DWord) (n : Nat) : Option Poison :=
  if !d.lay.check then none
  else match (s.keysVa d.ctx a n .read) with
    | .ok keys => if keys.all fun k => s.checkOk (k / 128) then none
                  else some ⟨.uncorrected, 7, a, (keys.map fun k => (false, k / 8)).eraseDups⟩
    | .error _ => none

/-- Read bytes at a side's address, little-endian. -/
def State.sideRead (s : State) (d : Side) (a : DWord) (n : Nat) : Except Poison Nat :=
  match d.kind with
  | 0 => match s.failedCheck d a n with
    | some p => throw p
    | none => s.readVaNat d.ctx a n
  | 1 =>
    let u := (s.unit d.unit).getD default
    if u.lrec.win < a.toNat + n then throw ⟨.unserviceable, 0, a, []⟩
    else if u.winPoisoned a.toNat n then throw (u.badWords a.toNat n)
    else pure (u.winValue a.toNat n)
  | _ =>
    let sl := s.slot d.unit d.slotNo
    pure (leNat ((List.range n).map fun j => sl.image.get (a.toNat + j)))

/-- Whether an address can be written on a side, and the condition it meets. -/
def State.sideMeets (s : State) (d : Side) (a : DWord) : Option Poison :=
  match d.kind with
  | 0 => match s.engineKey d.ctx a .write with
    | .error p => some p
    | .ok _ => none
  | 1 => if ((s.unit d.unit).getD default).lrec.win ≤ a.toNat then some ⟨.unserviceable, 0, a, []⟩ else none
  | _ => none

/-- Write bytes on a side, skipping addresses that refuse; engine writes drop the read-cache lines they change (R251). -/
def State.sideWrite (s : State) (d : Side) (cells : List (DWord × Byte)) : State :=
  let good := cells.filter fun c => (s.sideMeets d c.1).isNone
  match d.kind with
  | 0 =>
    let keyed := good.filterMap fun c => match s.engineKey d.ctx c.1 .write with
      | .ok k => some (k, c.2)
      | .error _ => none
    (s.write keyed).invalidate d.core (keyed.map Prod.fst)
  | 1 => s.updUnit d.unit fun u => u.winStore (good.map fun c => (c.1.toNat, c.2))
  | _ =>
    let sl := s.slot d.unit d.slotNo
    s.setSlot d.unit d.slotNo { sl with
      image := sl.image.setAll (good.map fun c => (c.1.toNat, c.2)),
      poison := sl.poison.setAll (good.map fun c => (c.1.toNat / 8, false)) }

/-- Turn the 8-byte words of addresses into poison. -/
def State.sideSpoil (s : State) (d : Side) (addrs : List DWord) : State :=
  let good := addrs.filter fun a => (s.sideMeets d a).isNone
  match d.kind with
  | 0 =>
    let keys := good.filterMap fun a => match s.translateNow d.ctx a .write with
      | .ok k _ => some k
      | _ => none
    (keys.foldl (fun acc k => acc.setPoison k true) s).invalidate d.core keys
  | 1 => s.updUnit d.unit fun u => good.foldl (fun acc a => acc.winSpoil a.toNat 1) u
  | _ =>
    let sl := s.slot d.unit d.slotNo
    s.setSlot d.unit d.slotNo { sl with poison := sl.poison.setAll (good.map fun a => (a.toNat / 8, true)) }

/-! ### Elements -/

/-- An element as read: its code and the scale of its block, or why not. -/
structure Elem where
  code : Except Poison Nat := .ok 0
  scale : Except Poison (Option Byte) := .ok none

/-- What an element is worth: its code with its scale, or the condition. -/
def Elem.get (e : Elem) : Except Poison (Nat × Option Byte) := do
  return (← e.code, ← e.scale)

/-- Index vector of element `n` in linear order, i0 fastest. -/
def indexOf : List Nat → Nat → List Nat
  | [], _ => []
  | e :: rest, n => n % e :: indexOf rest (n / e)

/-- Address of the dimension-0 run of an index vector: BASE + Σ over k ≥ 1 of ik × STRk. -/
def Layout.rowBase (r : Layout) (base : DWord) (ix : List Nat) : DWord :=
  (List.range (r.nd - 1)).foldl (fun a k => a + BitVec.ofNat 64 (ix.getD (k + 1) 0) * r.str (k + 1)) base

/-- Whether a side's blocks carry scales (R240). DEDUCED (log 39). -/
def Layout.scaled (r : Layout) : Bool :=
  if r.isTile then decide (17 ≤ r.elem) else r.scale != 0

/-- Bits of a presence mask below bit `k`. -/
def bitsBelow (m k : Nat) : Nat := ((List.range k).filter fun j => m.testBit j).length

/-- A row of a compacted image: the code of element `k`, with the masks of the rows up to its own and the offsets of masks
and values (R204). -/
def State.maskedCode (s : State) (d : Side) (base : DWord) (masks vals row k eb : Nat) : Except Poison Nat := do
  let at_ (r : Nat) : Except Poison Nat := s.sideRead d (base + BitVec.ofNat 64 (masks + 4 * r)) 4
  let below ← (List.range row).foldlM (fun n r => do return n + bitsBelow (← at_ r) 32) 0
  let m ← at_ row
  if m.testBit k then s.sideRead d (base + BitVec.ofNat 64 (vals + eb * (below + bitsBelow m k))) eb else return 0

/-- Offsets of masks, scales and values in a masked tile image (R204). -/
def maskedVals (elem : Nat) : Nat := if 17 ≤ elem then 0xA0 else 0x80

def byteOf (x : Except Poison Nat) : Except Poison (Option Byte) := do return some (BitVec.ofNat 8 (← x))

/-- One element of a side that is no stream. -/
def State.sideElem (s : State) (d : Side) (n : Nat) : Elem :=
  let r := d.lay
  let ix := indexOf r.exts n
  let i0 := ix.getD 0 0
  let eb := elemBytes r.elem
  let row := r.rowBase d.base ix
  let one (a : DWord) : Except Poison (Option Byte) := byteOf (s.sideRead d a 1)
  match r.store with
  | 0 =>
    { code := s.sideRead d (row + BitVec.ofNat 64 i0 * r.str 0) eb
      scale := if r.scale = 2 then one (row + BitVec.ofNat 64 (r.ext 0) * r.str 0 + BitVec.ofNat 64 (i0 / 32)) else .ok none }
  | 1 =>
    let w := codeBits r.elem
    let blk := 4 * w + (if r.scale = 1 then 1 else 0)
    let b := row + BitVec.ofNat 64 (i0 / 32 * blk)
    { code := do
        let lo := w * (i0 % 32)
        let x ← s.sideRead d (b + BitVec.ofNat 64 (lo / 8)) ((lo % 8 + w + 7) / 8)
        return x / 2 ^ (lo % 8) % 2 ^ w
      scale := one (if r.scale = 1 then b + BitVec.ofNat 64 (4 * w)
                    else row + BitVec.ofNat 64 (r.ext 0 / 32 * (4 * w) + i0 / 32)) }
  | 2 =>
    let k := ix.getD 1 0
    { code := s.sideRead d (d.base + BitVec.ofNat 64 (32 * eb * k + eb * i0)) eb
      scale := if 17 ≤ r.elem then one (d.base + BitVec.ofNat 64 (0x400 + k)) else .ok none }
  | 3 =>
    let k := ix.getD 1 0
    { code := s.maskedCode d d.base 0 (maskedVals r.elem) k i0 eb
      scale := if 17 ≤ r.elem then one (d.base + BitVec.ofNat 64 (0x80 + k)) else .ok none }
  | _ =>
    let g := if r.elem = 10 then 2 else 4
    let i1 := ix.getD 1 0
    let line := r.rowBase (d.base + BitVec.ofNat 64 (i0 / 32 * 128) + BitVec.ofNat 64 (i1 / g) * r.str 1) (ix.set 1 0)
    { code := s.maskedCode d line 0 (if r.elem = 10 then 8 else 0x14) (i1 % g) (i0 % 32) eb
      scale := if r.scale = 2 then one (line + BitVec.ofNat 64 (0x10 + i1 % g)) else .ok none }

/-- The condition of an element that an incomplete stream lacks. -/
def lacking : Poison := ⟨.uncorrected, 7, 0, []⟩

/-- Block size of a block-sparse format. -/
def Layout.blockSide (r : Layout) : Nat := if r.store = 5 then 16 else 32
/-- Bytes of a block row, its scale included, and of the padded bitmap (R242). -/
def Layout.blockRow (r : Layout) : Nat := r.blockSide * elemBytes r.elem + (if r.scale = 2 then 1 else 0)
def Layout.blocks (r : Layout) : Nat := (r.ext 1 / r.blockSide) * (r.ext 0 / r.blockSide)
def Layout.bitmapBytes (r : Layout) : Nat := (r.blocks + 127) / 128 * 16

/-- Read bytes of a stream body at an offset from its base; past its length they are lacking. -/
def State.streamRead (s : State) (d : Side) (len off n : Nat) : Except Poison Nat :=
  if len < off + n then throw lacking else s.sideRead d (d.base + BitVec.ofNat 64 off) n

/-- Offset of chunk `c` of a zero-line stream: each chunk is its map and the lines of its set bits (R242). -/
def State.chunkOff (s : State) (d : Side) (len : Nat) : Nat → Except Poison Nat
  | 0 => pure 16
  | c + 1 => do
    let o ← s.chunkOff d len c
    let m ← s.streamRead d len o 4
    return o + 4 + 128 * bitsBelow m 32

/-- The code and scale of an element of a stream, given the stream's length (R242). -/
def State.streamElem (s : State) (d : Side) (len n : Nat) : Elem :=
  let r := d.lay
  let eb := elemBytes r.elem
  if r.store = 7 then
    { code := do
        let a := n * eb
        let o ← s.chunkOff d len (a / 4096)
        let m ← s.streamRead d len o 4
        let ln := a / 128 % 32
        if m.testBit ln then s.streamRead d len (o + 4 + 128 * bitsBelow m ln + a % 128) eb else return 0 }
  else
    let B := r.blockSide
    let i0 := n % r.ext 0
    let i1 := n / r.ext 0
    let bi := (i1 / B) * (r.ext 0 / B) + i0 / B
    let bit (j : Nat) : Except Poison Bool := do return (← s.streamRead d len (16 + j / 8) 1).testBit (j % 8)
    let rowAt : Except Poison (Option Nat) := do
      let before ← (List.range bi).foldlM (fun k j => do return k + (if ← bit j then 1 else 0)) 0
      if ← bit bi then return some (16 + r.bitmapBytes + before * B * r.blockRow + (i1 % B) * r.blockRow) else return none
    { code := do
        match ← rowAt with
        | none => return 0
        | some o => s.streamRead d len (o + (i0 % B) * eb) eb
      scale := if r.scale = 2 then do
          match ← rowAt with
          | none => return some 0x7F
          | some o => byteOf (s.streamRead d len (o + B * eb) 1)
        else .ok none }

/-- Every element of a side in linear order. -/
def State.sideElems (s : State) (d : Side) : List Elem :=
  let n := d.lay.count
  if d.lay.isStream then
    match s.sideRead d d.base 4 with
    | .error p => List.replicate n { code := .error p }
    | .ok len => (List.range n).map (s.streamElem d len)
  else (List.range n).map (s.sideElem d)

/-- A stream that does not hold its whole tensor (R259). -/
def State.sidePrefix (s : State) (d : Side) : Bool :=
  d.lay.isStream && (match s.sideRead d (d.base + 4) 4 with
    | .ok x => x % 2 == 0
    | .error _ => false)

/-! ### Conversion (R243) -/

/-- The value of a code under its scale (R54, R60). -/
def elemValue (elem : Nat) (inf : Bool) (code : Nat) (scale : Option Byte) : Ex :=
  match intOf elem with
  | some (w, sg) => Ex.ofInt (readInt w sg code)
  | none =>
    let x := ((fmtOf elem inf).getD f32).decode code
    match scale with
    | some b => x.scaled b
    | none => x

/-- Rule 4: the code of a value in the destination's format (R60). -/
def convCode (se : Nat) (sinf : Bool) (de : Nat) (dinf : Bool) (rm : Word) (code : Nat) (scale : Option Byte) : Nat :=
  match intOf se, intOf de with
  | some (sw, ss), some (tw, ts) => (BitVec.ofInt tw (intToInt (rmSat rm) sw ss tw ts (readInt sw ss code))).toNat
  | none, some (tw, ts) => (BitVec.ofInt tw (toInt (rmMode rm) tw ts (elemValue se sinf code scale))).toNat
  | _, none => ((fmtOf de dinf).getD f32).round rm (elemValue se sinf code scale)

/-- Elements formed for a destination: codes or conditions, and a scale for each block of 32 where it carries scales. -/
structure Formed where
  codes : List (Except Poison Nat) := []
  scales : List Byte := []

/-- Cut a list into pieces of 32. -/
def cut32 {α : Type} : Nat → List α → List (List α)
  | 0, _ => []
  | n + 1, l => l.take 32 :: cut32 n (l.drop 32)

/-- Rules 1 to 4 of R243 from source elements to a destination record. -/
def formElems (src dst : Layout) (rm : Word) (l : List Elem) : Formed :=
  let blocks := cut32 (l.length / 32) l
  if src.elem = dst.elem then
    { codes := l.map fun e => do return (← e.get).1 % 2 ^ codeBits dst.elem
      scales := if dst.scaled then
          (if src.scaled then blocks.map fun b => (b.findSome? fun e => match e.scale with
              | .ok (some x) => some x
              | _ => none).getD 0
           else blocks.map fun _ => 0x7F)
        else [] }
  else if dst.scaled then
    let f := (fmtOf dst.elem dst.inf).getD f32
    let done := blocks.map fun b =>
      let vals := b.map fun e => e.get.map fun c => f32.decode (f32.round rm (elemValue src.elem src.inf c.1 c.2))
      let q := quantBlock f (rmMode rm) (vals.map fun v => match v with
        | .ok x => some x
        | .error _ => none)
      (q.1, (vals.zip q.2).map fun c => c.1.map fun _ => c.2)
    { codes := done.flatMap Prod.snd
      scales := done.map Prod.fst }
  else
    { codes := l.map fun e => do
        let (c, sc) ← e.get
        return convCode src.elem src.inf dst.elem dst.inf rm c sc }

/-! ### Writing a destination -/

/-- What is to be written: bytes in order, addresses of poison elements, addresses of elements that could not be obtained,
the size to report, and whether the output overflowed. -/
structure Output where
  cells : List (DWord × Byte) := []
  poison : List DWord := []
  lost : List DWord := []
  size : Nat := 0
  ovf : Bool := false

/-- One output after another: where they share bytes, the later remains (R249). -/
def Output.append (a b : Output) : Output :=
  let kept (l : List DWord) : List DWord := l.filter fun x => !b.cells.any fun c => c.1 == x
  { cells := a.cells ++ b.cells, poison := kept a.poison ++ b.poison, lost := kept a.lost ++ b.lost, size := a.size + b.size,
    ovf := a.ovf || b.ovf }

/-- Bytes at an address. -/
def spread (a : DWord) (b : List Byte) : List (DWord × Byte) :=
  (List.range b.length).zip b |>.map fun c => (a + BitVec.ofNat 64 c.1, c.2)
def addrsOf (a : DWord) (n : Nat) : List DWord := (List.range n).map fun j => a + BitVec.ofNat 64 j

/-- The output of one element at an address of its own. -/
def emitCode (a : DWord) (n : Nat) (c : Except Poison Nat) : Output :=
  match c with
  | .ok x => { cells := spread a (toBytes n x), size := n }
  | .error p => if p.kind == .uncorrected then { cells := spread a (toBytes n 0), poison := addrsOf a n, size := n }
                else { lost := addrsOf a n, size := n }
def emitByte (a : DWord) (b : Byte) : Output := { cells := [(a, b)], size := 1 }

/-- Absent in a masked, sparse or block-sparse destination (R244). The rule names the zero codes of binary8, `.i8` and BF16; of the other
formats code 0 alone is one. DESIGN CHOICE (log 83). -/
def isZeroCode (elem : Nat) (c : Except Poison Nat) : Bool :=
  match c with
  | .ok x => x == 0 || (elem == 10 && x == 0x8000)
  | .error _ => false

def maskOf (elem : Nat) (row : List (Except Poison Nat)) : Nat :=
  ((List.range row.length).zip row).foldl (fun m c => if isZeroCode elem c.2 then m else m + 2 ^ c.1) 0

/-- Compacted values at rising addresses. -/
def emitVals (a : DWord) (eb : Nat) (vals : List (Except Poison Nat)) : Output :=
  ((List.range vals.length).zip vals).foldl
    (fun o c => o.append (emitCode (a + BitVec.ofNat 64 (eb * c.1)) eb c.2)) {}

/-- A masked tile image at a base (R204), with at most 960 BF16 values (R259). -/
def emitMasked (r : Layout) (base : DWord) (f : Formed) : Output :=
  let eb := elemBytes r.elem
  let vals := f.codes.filter fun c => !isZeroCode r.elem c
  if r.elem = 10 && decide (960 < vals.length) then { ovf := true, size := 0x80 + 2 * vals.length }
  else
    let masks := ((List.range 32).zip (cut32 32 f.codes)).foldl (fun x c =>
      x.append { cells := spread (base + BitVec.ofNat 64 (4 * c.1)) (toBytes 4 (maskOf r.elem c.2)), size := 4 }) ({} : Output)
    let scaled := ((List.range f.scales.length).zip f.scales).foldl (fun x c =>
      x.append (emitByte (base + BitVec.ofNat 64 (0x80 + c.1)) c.2)) masks
    scaled.append (emitVals (base + BitVec.ofNat 64 (maskedVals r.elem)) eb vals)

/-- An element at its own place, in a plain record or a dense tile (R204, R239). -/
def emitElem (d : Side) (n : Nat) (c : Except Poison Nat) : Output :=
  let r := d.lay
  let ix := indexOf r.exts n
  let eb := elemBytes r.elem
  emitCode (if r.store = 2 then d.base + BitVec.ofNat 64 (eb * n)
    else r.rowBase d.base ix + BitVec.ofNat 64 (ix.getD 0 0) * r.str 0) eb c

/-- The scale of block `j` of a plain record or a dense tile. -/
def emitScale (d : Side) (j : Nat) (b : Byte) : Output :=
  let r := d.lay
  let ix := indexOf r.exts (32 * j)
  emitByte (if r.store = 2 then d.base + BitVec.ofNat 64 (0x400 + j)
    else r.rowBase d.base ix + BitVec.ofNat 64 (r.ext 0) * r.str 0 + BitVec.ofNat 64 (ix.getD 0 0 / 32)) b

/-- Block `j` of a packed record: its codes and its scale (R240). -/
def emitPack (d : Side) (j : Nat) (codes : List (Except Poison Nat)) (sc : Byte) : Output :=
  let r := d.lay
  let w := codeBits r.elem
  let ix := indexOf r.exts (32 * j)
  let row := r.rowBase d.base ix
  let bn := ix.getD 0 0 / 32
  let a := row + BitVec.ofNat 64 (bn * (4 * w + (if r.scale = 1 then 1 else 0)))
  let bits := ((List.range 32).zip codes).foldl (fun n k => n + (match k.2 with
    | .ok x => x
    | .error _ => 0) * 2 ^ (w * k.1)) 0
  let touched (p : Poison → Bool) : List DWord := (((List.range 32).zip codes).filter fun k => match k.2 with
    | .error e => p e
    | .ok _ => false).flatMap fun k => addrsOf (a + BitVec.ofNat 64 (w * k.1 / 8)) ((w * k.1 % 8 + w + 7) / 8)
  let lost := touched fun e => e.kind != .uncorrected
  let body : Output := { cells := ((spread a (toBytes (4 * w) bits)).filter fun x => !lost.contains x.1),
                         poison := touched fun e => e.kind == .uncorrected, lost := lost, size := 4 * w }
  body.append (emitByte (if r.scale = 1 then a + BitVec.ofNat 64 (4 * w)
    else row + BitVec.ofNat 64 (r.ext 0 / 32 * (4 * w) + bn)) sc)

/-- Elements from number `n0` on, with the scales of their blocks where they have any: of a plain record, a packed one, or a dense
tile. -/
def emitGroup (d : Side) (n0 : Nat) (f : Formed) : Output :=
  let scales := (List.range f.scales.length).zip f.scales
  if d.lay.store = 1 then
    scales.foldl (fun (o : Output) c => o.append (emitPack d (n0 / 32 + c.1) ((f.codes.drop (32 * c.1)).take 32) c.2)) {}
  else
    let els := ((List.range f.codes.length).zip f.codes).foldl (fun (o : Output) c => o.append (emitElem d (n0 + c.1) c.2)) {}
    scales.foldl (fun (o : Output) c => o.append (emitScale d (n0 / 32 + c.1) c.2)) els

/-- The lines of an `lsparse` destination in ascending order; a line that does not hold its values ends the output (R241,
R259). -/
def emitLines (r : Layout) (base : DWord) (f : Formed) : Output :=
  let eb := elemBytes r.elem
  let g := if r.elem = 10 then 2 else 4
  let nb := r.ext 0 / 32
  let nm := r.ext 1 / g
  let outer := r.count / (r.ext 0 * r.ext 1)
  (List.range (outer * nm * nb)).foldl (fun (o : Output) j =>
    if o.ovf then o
    else
      let b := j % nb
      let m := j / nb % nm
      let q := j / (nb * nm)
      let first := q * (r.ext 0 * r.ext 1) + m * g * r.ext 0 + 32 * b
      let ix := indexOf r.exts first
      let a := r.rowBase (base + BitVec.ofNat 64 (128 * b) + BitVec.ofNat 64 m * r.str 1) (ix.set 1 0)
      let row (k : Nat) : List (Except Poison Nat) := (f.codes.drop (first + k * r.ext 0)).take 32
      let rows := (List.range g).map row
      let vals := rows.flatMap fun l => l.filter fun c => !isZeroCode r.elem c
      if (if r.elem = 10 then 60 else 108) < vals.length then { o with ovf := true, size := 0xFFFFFFFF }
      else
        let clear : Output := { cells := spread a (List.replicate 128 0), size := 128 }
        let masks : Output := { cells := spread a (rows.flatMap fun l => toBytes 4 (maskOf r.elem l)) }
        let sc : Output := if r.elem = 10 then {} else
          { cells := spread (a + 0x10) ((List.range 4).map fun k =>
              if r.scale = 2 then f.scales.getD ((first + k * r.ext 0) / 32) 0x7F else 0x7F) }
        let v := emitVals (a + (if r.elem = 10 then 8 else 0x14)) eb vals
        o.append (((clear.append masks).append sc).append { v with size := 0 })) {}

/-- The header of a stream (R242). -/
def streamHeader (len : Nat) (complete : Bool) (count : Nat) : List Byte :=
  toBytes 4 len ++ toBytes 4 (if complete then 1 else 0) ++ toBytes 4 count ++ toBytes 4 0

/-- A stream from its pieces, each written whole or not at all, under a limit (R259). The header comes last. -/
def emitStream (base : DWord) (limit count : Nat) (pieces : List Output) : Output :=
  let total := pieces.foldl (fun n p => n + p.size) 16
  let fitsIn (n : Nat) : Bool := limit == 0 || decide (n ≤ limit)
  let (body, len) := pieces.foldl (fun (acc : Output × Nat) p =>
    if acc.1.ovf || !fitsIn (acc.2 + p.size) then ({ acc.1 with ovf := true }, acc.2)
    else (acc.1.append p, acc.2 + p.size)) (({} : Output), 16)
  let head : Output := if fitsIn 16 then { cells := spread base (streamHeader len (!body.ovf) count) } else { ovf := true }
  { body.append head with size := if body.ovf || head.ovf then total else len }

/-- Pieces of a block-sparse stream: the padded bitmap, then the present blocks. -/
def blockPieces (r : Layout) (base : DWord) (f : Formed) : List Output :=
  let B := r.blockSide
  let eb := elemBytes r.elem
  let perRow := r.ext 0 / B
  let blockRows (bi : Nat) : List (Nat × List (Except Poison Nat)) := (List.range B).map fun k =>
    let first := (bi / perRow * B + k) * r.ext 0 + bi % perRow * B
    (first, (f.codes.drop first).take B)
  let isThere (bi : Nat) : Bool := (blockRows bi).any fun l => l.2.any fun c => !isZeroCode r.elem c
  let here := (List.range r.blocks).filter isThere
  let bitmap := (List.range r.bitmapBytes).map fun j =>
    BitVec.ofNat 8 ((List.range 8).foldl (fun n k => if here.contains (8 * j + k) then n + 2 ^ k else n) 0)
  let bytes := B * r.blockRow
  { cells := spread (base + 16) bitmap, size := r.bitmapBytes } ::
    ((List.range here.length).zip here).map fun c =>
      let at_ := base + BitVec.ofNat 64 (16 + r.bitmapBytes + c.1 * bytes)
      let o := ((List.range B).zip (blockRows c.2)).foldl (fun (o : Output) l =>
        let a := at_ + BitVec.ofNat 64 (l.1 * r.blockRow)
        let vals := o.append (emitVals a eb l.2.2)
        if r.scale = 2 then vals.append (emitByte (a + BitVec.ofNat 64 (B * eb)) (f.scales.getD (l.2.1 / 32) 0x7F)) else vals) {}
      { o with size := bytes }

/-- Pieces of a zero-line stream: chunks of 32 lines of the dense image, each its map and its lines that are not all
zero (R242). -/
def linePieces (r : Layout) (base : DWord) (f : Formed) : List Output :=
  let eb := elemBytes r.elem
  let perLine := 128 / eb
  let nLines := (r.count * eb + 127) / 128
  let line (j : Nat) : List (Except Poison Nat) := (f.codes.drop (j * perLine)).take perLine
  let isThere (j : Nat) : Bool := (line j).any fun c => match c with
    | .ok x => x != 0
    | .error _ => true
  ((List.range ((nLines + 31) / 32)).foldl (fun (acc : List Output × Nat) c =>
    let here := (List.range 32).filter fun k => 32 * c + k < nLines && isThere (32 * c + k)
    let map := here.foldl (fun n k => n + 2 ^ k) 0
    let at_ := base + BitVec.ofNat 64 acc.2
    let body := ((List.range here.length).zip here).foldl (fun (o : Output) k =>
      let a := at_ + BitVec.ofNat 64 (4 + 128 * k.1)
      let l := line (32 * c + k.2)
      (o.append { cells := spread a (List.replicate 128 0) }).append (emitVals a eb l)) {}
    let size := 4 + 128 * here.length
    (acc.1 ++ [{ ({ cells := spread at_ (toBytes 4 map) } : Output).append body with size := size }], acc.2 + size))
    ([], 16)).1

/-- Everything a destination receives. -/
def emit (d : Side) (limit : Nat) (f : Formed) : Output :=
  let r := d.lay
  match r.store with
  | 3 => emitMasked r d.base f
  | 4 => emitLines r d.base f
  | 5 => emitStream d.base limit r.count (blockPieces r d.base f)
  | 6 => emitStream d.base limit r.count (blockPieces r d.base f)
  | 7 => emitStream d.base limit r.count (linePieces r d.base f)
  | _ => emitGroup d 0 f

/-- The first condition among elements that could not be obtained, poison ones counted. -/
def Formed.fault (f : Formed) : Option Poison :=
  f.codes.findSome? fun c => match c with
    | .error p => some p
    | .ok _ => none

/-- The first condition that writing an output meets. -/
def State.outFault (s : State) (d : Side) (o : Output) : Option Poison := o.cells.findSome? fun c => s.sideMeets d c.1

/-- Write an output: bytes, then poison; elements that could not be obtained are poison in a window or a slot and left
unwritten in memory (R258). -/
def State.putOutput (s : State) (d : Side) (o : Output) : State :=
  if o.ovf && d.lay.isTile then s
  else
    let s1 := s.sideWrite d o.cells
    s1.sideSpoil d (if d.kind = 0 then o.poison else o.poison ++ o.lost)

end Sys2Proof.Machine
end

