-- ==== Sys2Proof/Machine/Race.lean ====
section
/-!
DEFINITION. The race detector of watched memory: granule records, the check of an access, force-closing, capacities
(R288 to R293).
-/
namespace Sys2Proof.Machine

/-- The lanes that stand in one position with a lane (R84). -/
def Sheaf.positionOf (f : Sheaf) (l : Nat) : Mask :=
  let x := f.lane l
  laneMask fun k =>
    let z := f.lane k
    z.life == .live && z.pc == x.pc && z.limm == x.limm && z.xmod == x.xmod && z.sched == x.sched
      && (z.hold == .none) == (x.hold == .none)

/-- The region of a record is still open: its lane stands in it and has not been culled (R290, R293). -/
def State.regionOpen (s : State) (r : AccessRec) : Bool :=
  match s.sheaf r.sheaf with
  | some f => (f.lane r.lane).syncRegion == r.region && (f.lane r.lane).life != .culled
  | none => false

/-- A record of another thread conflicts with an access (R286). -/
def AccessRec.conflicts (r : AccessRec) (rWrite : Bool) (sheaf lane : Nat) (write sync : Bool) : Bool :=
  (r.sheaf != sheaf || r.lane != lane) && (rWrite || write) && !(r.sync && sync)

/-- KIND of a conflict (R290). -/
def raceKind (r : AccessRec) (rWrite write sync : Bool) : Nat :=
  if r.sync || sync then 3 else if rWrite && write then 2 else if rWrite then 0 else 1

def Granule.isAt (g : Granule) (win : Option Nat) (key : Nat) : Bool := g.window == win && g.key == key
def State.granule (s : State) (win : Option Nat) (key : Nat) : Granule :=
  (s.granules.find? fun g => g.isAt win key).getD { window := win, key := key }

/-- The conflict reported for an access to a granule: the write record first, else the older read (R290). -/
def State.raceAt (s : State) (win : Option Nat) (key sheaf lane : Nat) (write sync : Bool) : Option (AccessRec × Nat) :=
  let g := s.granule win key
  let hit (w : Bool) (r : AccessRec) : Bool := s.regionOpen r && r.conflicts w sheaf lane write sync
  match g.write.filter (hit true) with
  | some r => some (r, raceKind r true write sync)
  | none => (g.reads.find? (hit false)).map fun r => (r, raceKind r false write sync)

def Granule.keep (g : Granule) (p : AccessRec → Bool) : Granule := { g with write := g.write.filter p, reads := g.reads.filter p }
def Granule.recs (g : Granule) : List AccessRec := g.write.toList ++ g.reads

/-- Drop the records that a test refuses. -/
def State.dropRecords (s : State) (p : AccessRec → Bool) : State :=
  { s with granules := ((s.granules.map fun g => g.keep p).filter fun g => !g.recs.isEmpty) }

/-- The lanes that the force-close of a record's region rolls back: those of its lane's position (R292). -/
def State.closing (s : State) (r : AccessRec) : Mask :=
  match s.sheaf r.sheaf with
  | none => 0
  | some f => f.positionOf r.lane &&& f.liveMask

/-- Force-close a lane's region: its position rolls back, an implied fence stands at the start, its records go (R292). -/
def State.forceClose (s : State) (r : AccessRec) : State :=
  match s.sheaf r.sheaf with
  | none => s
  | some f =>
    let m := s.closing r
    let (seq, s1) := s.take
    let s2 := (s1.rollback r.sheaf m).updSheaf r.sheaf fun g => g.updLanes m fun l x =>
      { x with impliedFence := true, syncRegion := if l = r.lane then seq else x.syncRegion }
    s2.dropRecords fun q => !(q.sheaf == r.sheaf && (q.lane == r.lane && q.region == r.region
      || m.getLsbD q.lane && decide ((f.lane q.lane).startSeq ≤ q.seq)))

/-- The records of a core's sheaves in regions still open; a saved sheaf stands on none. -/
def State.coreRecs (s : State) (core : Nat) : List AccessRec :=
  (s.granules.flatMap Granule.recs).filter fun r =>
    s.regionOpen r && (s.sheaf r.sheaf).any fun f => f.place.any fun p => p.1 == core

/-- The outcome of bringing an access to the detector. -/
inductive Detected where
  | clear (s : State)
  | race (r : Option AccessRec) (kind : Nat) (granule : Nat)
  /-- The accessing lane was itself rolled back: the access is made again when it reruns (R292). -/
  | withdrawn (s : State)

/-- The oldest of some records by a number of theirs. -/
def oldestBy (n : AccessRec → Nat) (l : List AccessRec) : Option AccessRec :=
  l.foldl (fun best r => match best with
    | none => some r
    | some b => if n r < n b then some r else best) none

/-- Two records belong to one region of one lane. -/
def AccessRec.sameRegion (a b : AccessRec) : Bool := a.sheaf == b.sheaf && a.lane == b.lane && a.region == b.region

/-- The region to close for room in the core's table of 512 open regions: the oldest but for the accessing lane's (R291). -/
def State.roomRegion (s : State) (core : Nat) (me : AccessRec) : List AccessRec :=
  let rs := s.coreRecs core
  let regions := (rs.map fun r => (r.sheaf, r.lane, r.region)).eraseDups
  if regions.contains (me.sheaf, me.lane, me.region) || regions.length < 512 then []
  else (oldestBy AccessRec.region (rs.filter fun r => !(r.sheaf == me.sheaf && r.lane == me.lane))).toList

/-- The records to close for room among the die's 65,536 tagged lines, those that hold a record of an open region: those of the line
whose newest record is oldest, lines that hold a record of the accessing lane's own open restart region passed over; none left is
KIND 4 (R291). DESIGN CHOICE (log 73). -/
def State.roomLine (s : State) (die key : Nat) (me : AccessRec) (start : Nat) : Option (List AccessRec) :=
  let live := (s.granules.filter fun g => g.window.isNone && g.die == die).flatMap fun g =>
    (g.recs.filter s.regionOpen).map fun r => (g.key / 16, r)
  let lines := (live.map Prod.fst).eraseDups
  if lines.contains (key / 16) || lines.length < 65536 then some []
  else
    let of (ln : Nat) : List AccessRec := (live.filter fun x => x.1 == ln).map Prod.snd
    let newest (ln : Nat) : Nat := (of ln).foldl (fun m r => max m r.seq) 0
    let own (ln : Nat) : Bool := (of ln).any fun r => r.sheaf == me.sheaf && r.lane == me.lane && decide (start ≤ r.seq)
    let pick := (lines.filter fun ln => !own ln).foldl (fun best ln => match best with
      | none => some ln
      | some b => if newest ln < newest b then some ln else best) (none : Option Nat)
    pick.map of

/-- The region to close where a third open reader comes to a granule: the older of the two recorded (R291). -/
def State.roomReader (s : State) (win : Option Nat) (key : Nat) (me : AccessRec) (write : Bool) : List AccessRec :=
  let alive := (s.granule win key).reads.filter fun r => s.regionOpen r && !r.sameRegion me
  if !write && 2 ≤ alive.length then (oldestBy AccessRec.seq alive).toList else []

/-- Record an access in its granule. -/
def State.recordAt (s : State) (win : Option Nat) (die key : Nat) (me : AccessRec) (write : Bool) : State :=
  let g := s.granule win key
  let kept := g.reads.filter fun r => s.regionOpen r && !r.sameRegion me
  let g2 : Granule := if write then { g with die := die, write := some me, reads := kept }
                      else { g with die := die, reads := kept ++ [me] }
  { s with granules := (s.granules.filter fun x => !x.isAt win key) ++ [g2] }

/-- Bring an access to the detector: one granule at a time, checked before it is recorded. A force-close that rolls the accessing lane
back withdraws its access. -/
def State.detectAll (s : State) (core : Nat) (win : Option Nat) (me : AccessRec) (write : Bool) : List Nat → Detected
  | [] => .clear s
  | key :: rest =>
    match s.raceAt win key me.sheaf me.lane write me.sync with
    | some (r, k) => .race (some r) k key
    | none =>
      let start := ((s.sheaf me.sheaf).map fun f => (f.lane me.lane).startSeq).getD 0
      match (if win.isSome then some [] else s.roomLine (dieOf core) key me start) with
      | none => .race none 4 key
      | some line =>
        let victims := s.roomRegion core me ++ line ++ s.roomReader win key me write
        let s1 := victims.foldl (fun (acc : State) r => if acc.regionOpen r then acc.forceClose r else acc) s
        if victims.any fun r => r.sheaf == me.sheaf && (s.closing r).getLsbD me.lane then .withdrawn s1
        else (s1.recordAt win (dieOf core) key me write).detectAll core win me write rest

/-- The 8-byte granules that bytes touch. -/
def granulesOf (addrs : List Nat) : List Nat := (addrs.map fun a => a / 8).eraseDups

/-- Check and record a lane's access to watched memory, if it is watched (R289, R290); `region` is the synchronisation region it
belongs to. -/
def State.detect (s : State) (id lane region : Nat) (watched : Bool) (win : Option Nat) (addrs : List Nat) (write sync : Bool) :
    Detected :=
  if !watched then .clear s
  else match s.sheaf id with
    | none => .clear s
    | some f =>
      let (seq, s1) := s.take
      s1.detectAll f.coreNo win ⟨id, lane, region, sync, seq⟩ write (granulesOf addrs)

/-- The address that names the granule of a lane's access at which a race is found: its window address, or the virtual address of its
bytes (R290). -/
def State.granuleAt (s : State) (f : Sheaf) (space : Space) (lane : Nat) (ea : DWord) (keys : List Nat) (g : Nat) : DWord :=
  let hit := (keys.zip (s.places f space lane ea keys.length)).find? fun c => c.1 / 8 == g
  BitVec.ofNat 64 ((hit.map fun c => c.2.2 / 8 * 8).getD 0)

/-- The window of a sheaf is watched when its context says so (R289, R352). -/
def State.windowWatched (s : State) (f : Sheaf) : Bool := ((s.context (s.unitOf f).ctx).map Context.spw).getD false

/-- A culled lane's records go at once (R293). -/
def State.forgetLanes (s : State) (id : Nat) (m : Mask) : State :=
  s.dropRecords fun r => !(r.sheaf == id && m.getLsbD r.lane)

/-- The error-queue record of a memory-model exception: the earlier party's core, slot and lane (R290, R365). -/
def State.raceRecord (s : State) (id : Nat) (pc addr : DWord) (m : Mask) (r : Option AccessRec) : State :=
  match s.sheaf id with
  | none => s
  | some f =>
    let info := match r with
      | none => 0
      | some r =>
        let g := (s.sheaf r.sheaf).getD {}
        g.coreNo * 2 ^ 16 + (g.place.map Prod.snd).getD 0 * 2 ^ 8 + r.lane
    s.report (s.nameSheaf f { typ := 6, pc := pc, addr := addr, lanes := m, info := info })

end Sys2Proof.Machine
end

