-- ==== Sys2Proof/Machine/Access.lean ====
section
/-!
DEFINITION. A lane's access to a place: its checks, its translation, forwarding, the read cache, and landing a result (R178 to R185,
R283, R376).
-/
namespace Sys2Proof.Machine

/-! ### Where an access goes -/

def spaceOf (m : BitVec 3) : Space :=
  match (m.extractLsb' 0 2).toNat with
  | 0 => .sp
  | 1 => .pv
  | 2 => .g
  | _ => .ga

/-- Effective address of a lane (R178). -/
def Ctx.ea (c : Ctx) (m : BitVec 3) (a : BitVec 7) (l : Nat) : DWord :=
  match spaceOf m with
  | .ga => c.r64 a l + c.off
  | .g => c.r64 104 l + (c.r32 a l).setWidth 64 + c.off
  | _ => (c.r32 a l).setWidth 64 + c.off

/-- The checks of R179 before translation, in their order: the cause of the first that fails. -/
def checkEa (u : UnitSt) (space : Space) (ea : DWord) (size : Nat) : Option Nat :=
  let virt := space == .g || space == .ga
  if virt && ea.extractLsb' 57 7 != 0 then some 3
  else if ea.toNat % size != 0 then some 2
  else if space == .sp && decide (u.lrec.win < ea.toNat + size) then some 0
  else if space == .pv && decide (u.lrec.priv < ea.toNat + size) then some 0
  else none

/-- A place that bytes can be read from and written to: window addresses, or memory keys. -/
structure Acc where
  win : Bool := false
  keys : List Nat := []
  watched : Bool := false
  /-- First page and number of pages of the leaf. -/
  span : Nat × Nat := (0, 0)
  /-- Plain global memory, which the read cache may serve; a watched page is read at its home, so that an execution stays sequentially
  consistent with respect to it (R292). -/
  cached : Bool := false
  deriving DecidableEq, Repr, Inhabited

inductive Loc where
  | here (a : Acc) (s : State)
  | miss (page : Nat)
  | bad (p : Poison)

/-- A core's TLB takes in a page that its die's second-level TLB holds, the oldest leaving when it is full (R357). DESIGN CHOICE
(log 68). -/
def State.tlbTouch (s : State) (core ctx page : Nat) : State :=
  let holds (t : TlbEntry) : Bool := t.ctx == ctx && decide (t.page ≤ page ∧ page < t.page + t.pages)
  if s.tlbs.any fun t => holds t && t.core == some core then s
  else match s.tlbs.find? fun t => holds t && t.core == none && t.die == dieOf core with
    | none => s
    | some t =>
      { s with tlbs := { t with core := some core } :: ((s.tlbs.filter fun x => x.core == some core).take 127
          ++ s.tlbs.filter fun x => x.core != some core) }

/-- A miss enters its die's table, unless its page is there already or the table is full (R357). -/
def State.addMiss (s : State) (die ctx page : Nat) : State :=
  let m : Miss := ⟨die, ctx, page⟩
  if s.misses.contains m || 4096 ≤ (s.misses.filter fun x => x.die == die).length then s
  else { s with misses := s.misses ++ [m] }

/-- The place of a checked access: the high-water mark (R359), then translation through the TLBs, then its target. `inPlace` says that the word
has not issued, so that it meets the end of the walk that it has waited for; a queued store meets its target once it is performed (R197). -/
def State.locate (s : State) (f : Sheaf) (space : Space) (lane : Nat) (ea : DWord) (size : Nat) (r : Right) (inPlace : Bool) : Loc :=
  let u := s.unitOf f
  match space with
  | .sp => .here { win := true, keys := (List.range size).map fun j => ea.toNat + j, watched := s.windowWatched f } s
  | space =>
    let c := (s.context u.ctx).getD default
    let va := s.vaOf f space lane ea
    if space == .pv && decide (c.hwm < ea.toNat + size) then .bad ⟨.highWater, 4, va, []⟩
    else match s.translate f.coreNo u.ctx va r with
      | .miss p => (match (f.lane lane).asked with
        | some (q, some k) => if inPlace && q == p then .bad ⟨k, 4, va, []⟩ else .miss p
        | _ => .miss p)
      | .bad p => .bad p
      | .ok key w =>
        match (if r = .write then none else s.targetFault [u.job] key size va) with
        | some q => .bad q
        | none =>
          let page := va.toNat / 2 ^ 16
          let n := ((s.tlbFind f.coreNo u.ctx page).map fun e => pagesOf (pteSize e)).getD 1
          .here { keys := s.keysOf f space lane ea size key, watched := w, span := (page / n * n, n)
                  cached := space != .pv && !w } (s.tlbTouch f.coreNo u.ctx page)

def State.accBytes (s : State) (u : Nat) (a : Acc) : List Byte :=
  if a.win then
    let x := (s.unit u).getD default
    a.keys.map x.winByte
  else a.keys.map s.byteAt

def State.accPoisoned (s : State) (u : Nat) (a : Acc) : Bool :=
  if a.win then
    let x := (s.unit u).getD default
    a.keys.any x.badByte
  else a.keys.any s.poisonAt

/-- The uncorrected error of an access: its address, and the words of its place that read badly (R195). -/
def State.badAcc (s : State) (u : Nat) (a : Acc) (va : DWord) : Poison :=
  let x := (s.unit u).getD default
  let words := ((a.keys.filter fun k => if a.win then x.badByte k else s.poisonAt k).map fun k => k / 8).eraseDups
  ⟨.uncorrected, 7, va, words.map fun w => (a.win, w)⟩

/-- Write bytes at a place; lines of the writer's own core cache follow. -/
def State.accWrite (s : State) (u core : Nat) (a : Acc) (bytes : List Byte) : State :=
  let cells := a.keys.zip bytes
  if a.win then s.updUnit u fun x => x.winStore cells else (s.write cells).dropLines core a.keys

/-- Discard a core's read cache (R283). -/
def State.dropCache (s : State) (core : Nat) : State := s.updCore core fun k => { k with cache := [] }

/-- An acquire of a sheaf: the read cache of the core on which it stands is discarded. One that is saved stands on none. -/
def State.acquireAt (s : State) (id : Nat) : State :=
  match (s.sheaf id).bind Sheaf.place with
  | some p => s.dropCache p.1
  | none => s

/-- Scope of an ordering word: `XMOD` SCOPE, or the default of its space (R188). -/
def scopeCode (space : Space) (scope : Nat) : Nat :=
  if scope != 0 then scope
  else match space with
    | .sp => 4
    | .pv => 1
    | _ => 8

/-! ### Reading for a lane -/

/-- The byte that the lane's youngest earlier queued store holds for a place (R183). -/
def State.forward (s : State) (f : Sheaf) (lane opNo : Nat) (place : Bool × Nat) : Option Byte :=
  f.storeQueue.reverse.findSome? fun e =>
    if e.id < opNo && e.stream.isNone then
      e.parts.findSome? fun p =>
        if p.lane = lane then
          (((s.places f e.space lane p.ea p.bytes.length).zip p.bytes).find? fun b => b.1 == place).map Prod.snd
        else none
    else none

/-- Read a place's bytes from memory, or from the core's read cache where the choice falls on it; a line read from its home
is kept in the cache. DEDUCED (log 15). -/
def State.readHome (s : State) (core u : Nat) (a : Acc) (acquire : Bool) : List Byte × State :=
  if !a.cached || a.win then (s.accBytes u a, s)
  else
    let line := (a.keys.headD 0) / 128
    match (s.core core).cache.find? fun l => l.1 == line with
    | some l =>
      if !acquire && Config.freeBool s.free then (a.keys.map fun k => l.2.getD (k % 128) 0, { s with free := s.free + 1 })
      else
        let fresh := s.bytesAt (128 * line) 128
        (s.accBytes u a, { s with free := s.free + 1 }.updCore core fun k =>
          { k with cache := (line, fresh) :: (k.cache.filter fun x => x.1 != line) })
    | none =>
      (s.accBytes u a, s.updCore core fun k => { k with cache := (line, s.bytesAt (128 * line) 128) :: k.cache })

/-- What reading for a lane gives. -/
inductive Got where
  | bytes (b : List Byte) (s : State)
  | bad (p : Poison) (s : State)
  | wait (s : State)

/-- Perform a lane's load: translation, poison, the race detector, forwarding (R181, R183, R195, R290). `checked` says that the
detector has seen the access already. -/
def State.loadLane (s : State) (id : Nat) (o : Outstanding) (opNo : Nat) (inPlace checked : Bool) : Got :=
  match s.sheaf id with
  | none => .wait s
  | some f =>
    let u := s.unitOf f
    match s.locate f o.space o.lane o.ea o.size .read inPlace with
    | .miss page => .wait (s.addMiss (dieOf f.coreNo) u.ctx page)
    | .bad p => .bad p s
    | .here a s1 =>
      if !a.win && s1.laneHeld f.coreNo u.ctx (a.keys.headD 0) then .wait s
      else
        let own := (s.places f o.space o.lane o.ea o.size).map (s.forward f o.lane opNo)
        let bare := { a with keys := (a.keys.zip own).filterMap fun c => if c.2.isNone then some c.1 else none }
        if s1.accPoisoned f.unit bare then .bad (s1.badAcc f.unit bare (s.vaOf f o.space o.lane o.ea)) s1
        else match s1.detect id o.lane o.region (a.watched && !checked) (if a.win then some f.unit else none) a.keys false
            (o.acquire != 0) with
          | .race _ _ g => .bad ⟨.race, 0, s.granuleAt f o.space o.lane o.ea a.keys g, []⟩ s1
          | .withdrawn s2 => .wait s2
          | .clear s2 =>
            let s2 := if decide (6 ≤ o.acquire) then s2.dropCache f.coreNo else s2
            let (b, s3) := s2.readHome f.coreNo f.unit a (o.acquire != 0)
            let key := a.keys.headD 0
            let s3 := if a.win then s3
              else (if (remoteOf key).isSome then s3.sendRequest else s3).laneAccess f.coreNo u.ctx key false o.cp o.size
            .bytes ((own.zip b).map fun c => c.1.getD c.2) s3

/-- The registers that loaded bytes fill: narrow values extended, wide ones in several registers (R180, R181). -/
def loadWords (size : Nat) (signed : Bool) (b : List Byte) : List Word :=
  if size < 4 then [lo32 (if signed then sext size (leNat b) else BitVec.ofNat 64 (leNat b))] else toWords b

/-- Write a lane's returned words; a fixed-latency result that lands later stays (R78). -/
def Sheaf.landWords (f : Sheaf) (now : Nat) (dst : BitVec 7) (lane : Nat) (ws : List Word) : Sheaf :=
  f.landField now dst.toNat ws.length [(lane, ws)]

/-- Mark a lane's destination registers as poison; where a fixed-latency result lands later, what stands before it is poison (R78,
R195). -/
def Sheaf.landPoison (f : Sheaf) (now field n l : Nat) (p : Poison) : Sheaf :=
  (List.range n).foldl (fun acc k =>
    let r := field + k
    let key := if r < 104 then vKey r l else uKey (r - 104)
    if 120 ≤ r then acc else if acc.unwritten now key then acc.poisonUnder key p else acc.poisonField r 1 l p) f

/-- The open region of a lane meets a condition. -/
def LaneSt.meet (x : LaneSt) (p : Poison) : LaneSt :=
  if x.poisoned.isNone then { x with poisoned := some p } else { x with alsoMet := x.alsoMet ++ [p] }

/-- A lane's part of a load comes home: its value, or poison, and its flag part falls (R181, R195). -/
def State.land (s : State) (id : Nat) (o : Outstanding) (r : Except Poison (List Word)) : State :=
  s.updSheaf id fun f =>
    let f := { f with outstanding := (f.outstanding.filter fun x => x.id != o.id) }
    let f := f.dropParts o.op (BitVec.twoPow 32 o.lane)
    match r with
    | .ok ws => f.landWords (s.now f) o.dst o.lane ws
    | .error p =>
      let f := f.landPoison (s.now f) o.dst.toNat o.regs o.lane p
      if o.inRegion then f.updLane o.lane fun x => x.meet p else f

/-- The poison as the driver's decline or the stepped replay leaves it: an unserviceable cause. -/
def Poison.final (p : Poison) : Poison := { p with kind := .unserviceable }

/-- Whether Baruri or the driver can do something about a condition (R195). -/
def Poison.serviceable (p : Poison) : Bool :=
  match p.kind with
  | .notPresent => true
  | .highWater => true
  | .brokenRemote => true
  | .uncorrected => true
  | _ => false

/-- What the detector says of a lane's access before the word does anything. -/
inductive Checked where
  | clear (s : State)
  | race (p : Poison) (r : Option AccessRec) (kind : Nat)
  | withdrawn (s : State)

/-- Bring a lane's access to the detector before its word does anything; one that its checks or its translation stop is not brought
(R290). -/
def State.checkAccess (s : State) (id : Nat) (u : UnitSt) (space : Space) (lane : Nat) (ea : DWord) (size : Nat) (r : Right)
    (region : Nat) (write sync : Bool) : Checked :=
  match s.sheaf id, checkEa u space ea size with
  | some f, none =>
    match s.locate f space lane ea size r true with
    | .here a s1 =>
      if !a.watched then .clear s
      else match s1.detect id lane region true (if a.win then some f.unit else none) a.keys write sync with
        | .clear s2 => .clear s2
        | .withdrawn s2 => .withdrawn s2
        | .race q k g => .race ⟨.race, 0, s.granuleAt f space lane ea a.keys g, []⟩ q k
    | _ => .clear s
  | _, _ => .clear s

/-- The lanes of a word found racing, each with its poison, the earlier party and the KIND. -/
abbrev Races := List (Nat × Poison × Option AccessRec × Nat)

/-- Bring a word's lanes to the detector in ascending order, before any of them is performed: the racing ones, or the state in which a
force-close has withdrawn the word (R290, R292). -/
def checkLanes (check : State → Nat → Checked) : State → List Nat → Races → State × Option Races
  | s, [], got => (s, some got)
  | s, l :: rest, got =>
    match check s l with
    | .clear s1 => checkLanes check s1 rest got
    | .race p r k => checkLanes check s rest (got ++ [(l, p, r, k)])
    | .withdrawn s1 => (s1, none)

/-- Lanes whose part of a word failed, with why. -/
abbrev Failed := List (Nat × Poison)

def Failed.mask (l : Failed) : Mask := laneMask fun k => l.any fun c => c.1 == k

/-- A trap of a word whose lanes name a code and an address each. -/
def Ctx.laneTrapOf (c : Ctx) (kind : TrapKind) (l : List (Nat × Nat × DWord)) : Option TrapRec :=
  (l.head?).map fun x => { laneTrap kind c.word c.pc c.act (laneMask fun k => l.any fun y => y.1 == k) x.2.1 x.2.2 with faults := l }

/-- What follows once a word's other lanes have completed: the lane-fault trap, the memory-model exception, the refused-atomic trap; where
lanes of one word call for more than one, the first is taken and the others after its handler (R193, R196, R290, R390). DESIGN CHOICE
(log 43). -/
def State.afterLanes (s : State) (c : Ctx) (faults races : Failed) (race : Option AccessRec) (kind : Nat)
    (refused : List (Nat × Nat × DWord)) : Eff :=
  let s1 := match races with
    | (_, p) :: _ => s.raceRecord c.id c.pc p.addr races.mask race
    | [] => s
  let traps := [c.laneTrapOf .lane (faults.map fun x => (x.1, x.2.cause, x.2.addr)),
    c.laneTrapOf .race (races.map fun x => (x.1, kind, x.2.addr)), c.laneTrapOf .refused refused].filterMap id
  match traps with
  | [] => .done s1
  | t :: rest => .trap t (if rest.isEmpty then s1 else s1.updSheaf c.id fun f => { f with trapsAfter := f.trapsAfter ++ rest })

/-- Two lanes of a word met one fault: the same, or the same absent page. -/
def Poison.alike (p q : Poison) : Bool :=
  p == q || (p.kind == .notPresent && q.kind == .notPresent && p.addr.toNat / 2 ^ 16 == q.addr.toNat / 2 ^ 16)

/-- A word is held before its issue while a serviceable fault of it is serviced: the first that its lanes meet, for those that meet it
(R196). -/
def State.holdForService (s : State) (c : Ctx) (met : List (Nat × Poison)) : State :=
  match met with
  | [] => s
  | (_, p) :: _ => s.updSheaf c.id fun f =>
      { (f.updLanes c.lanes fun _ x => { x with asked := none }) with
        awaiting := f.awaiting ++ [⟨c.lanes, p, .reported, true, met.filter fun x => x.2.alike p⟩] }

/-- The lanes of a word wait, before it issues, for the translations that the TLBs of their core do not hold; none where they hold all
(R196, R357). A lane that its checks stop, or for which a service has been declined, waits for none. -/
def State.askPages (s : State) (c : Ctx) (space : Space) (size : Nat) (ea : Nat → DWord) (r : Right) : Option State :=
  match s.sheaf c.id with
  | none => none
  | some f =>
    let misses := c.actLanes.filterMap fun l =>
      if (f.lane l).declined.isSome || (checkEa c.unit space (ea l) size).isSome then none
      else match s.locate f space l (ea l) size r true with
        | .miss p => some (l, p)
        | _ => none
    if misses.isEmpty then none
    else some (misses.foldl (fun (acc : State) x => (acc.addMiss (dieOf f.coreNo) c.unit.ctx x.2).updSheaf c.id fun g =>
      g.updLane x.1 fun y => { y with asked := some (x.2, none) }) s)

/-- The lane-fault trap of a word whose block or record is off its alignment or outside the window (R432, R198); it names every active
lane, since the word as a whole has no effect. DESIGN CHOICE (log 83). -/
def Ctx.blockTrap (c : Ctx) (cause : Nat) (addr : DWord) : TrapRec := laneTrap .lane c.word c.pc c.act c.act cause addr

/-- The alignment and bounds of an area in the window: the cause of the check that fails (R432). -/
def checkBlock (u : UnitSt) (a align size : Nat) : Option Nat :=
  if a % align != 0 then some 2 else if u.lrec.win < a + size then some 0 else none

/-- What a lane's own access met whose service has been declined: the lane's cause, with which the word issues (R196). -/
def Ctx.declined (c : Ctx) (s : State) (l : Nat) : Option Poison :=
  match s.sheaf c.id with
  | some f => (f.lane l).declined.map Poison.final
  | none => none

/-- Whether a fault that a lane's word meets before its issue is to be serviced: it is serviceable, nothing has been declined for the
word, and no retry of the same read has failed since the region began (R195, R196). `s` is the state before the word. -/
def Ctx.asks (c : Ctx) (s : State) (l : Nat) (p : Poison) : Bool :=
  p.serviceable && (c.declined s l).isNone && match s.sheaf c.id with
    | some f => !((f.lane l).failed.any fun q => q.kind == p.kind && q.addr == p.addr)
    | none => true

/-- A word that meets poison before it issues: held while it is serviced, or trapping where the service has been declined (R195,
R196). -/
def Ctx.serve (c : Ctx) (s t : State) (p : Poison) : Eff :=
  match c.actLanes.findSome? (c.declined s) with
  | some d => .trap (c.blockTrap d.cause d.addr) t
  | none => .hold (s.holdForService c (c.actLanes.map fun l => (l, p)))

/-- What reading a block in the window at issue meets: its alignment and bounds (R432), or words that read badly, which are read
once more before the word traps (R195). DEDUCED (log 78). -/
def Ctx.block (c : Ctx) (s t : State) (u : UnitSt) (w align size : Nat) : Option Eff :=
  match checkBlock u w align size with
  | some k => some (.trap (c.blockTrap k (BitVec.ofNat 64 w)) t)
  | none =>
    if u.winPoisoned w size then some (c.serve s t (u.badWords w size)) else none

end Sys2Proof.Machine
end

