-- ==== Sys2Proof/Machine/Memory.lean ====
section
/-!
DEFINITION. Loads, stores, atomics and streams (the manual's chapter of that name): the words of opcodes 0x60 to 0x6F and
`SBIND`.
-/
namespace Sys2Proof.Machine

/-! ### Loads -/

/-- The destination field as a lane sees it: a uniform one takes only the lowest active lane's result (R68). -/
def Ctx.dstFor (c : Ctx) (d : BitVec 7) (l : Nat) : BitVec 7 :=
  if d.toNat < 104 ∨ lowest c.act = some l then d else 120

/-- The synchronisation region in which a lane issues the word (R288). -/
def Ctx.region (c : Ctx) (l : Nat) : Nat := (c.f.lane l).syncRegion

/-- The lane's part of a load word. -/
def Ctx.part (c : Ctx) (m : BitVec 3) (d a : BitVec 7) (size regs : Nat) (signed : Bool) (acquire l : Nat) : Outstanding :=
  { id := 32 * c.op + l, lane := l, kind := .load, space := spaceOf m, ea := c.ea m a l, size := size, signed := signed,
    dst := c.dstFor d l, regs := regs, op := c.op, acquire := acquire, cp := c.x.cp.toNat, pc := c.pc, region := c.region l }

/-- A load issues: lanes that fail a check of R179 receive poison, the others wait for their replies (R181). -/
def State.loadIssue (s : State) (c : Ctx) (part : Nat → Outstanding) : State :=
  c.actLanes.foldl (fun acc l =>
    let o := part l
    match checkEa c.unit o.space o.ea o.size with
    | some k => acc.land c.id o (.error ⟨.unserviceable, k, o.ea, []⟩)
    | none => acc.updSheaf c.id fun f => { f with outstanding := f.outstanding ++ [o] }) s

/-- What one lane's access meets in stepped replay. -/
inductive Step1 where
  | good (words : List Word)
  | fault (p : Poison)
  | later

/-- The racing lanes of a word, and the first conflict, which the exception reports (R290). -/
def Races.failed (r : Races) : Failed := r.map fun x => (x.1, x.2.1)
def Races.first (r : Races) : Option AccessRec × Nat := match r with
  | x :: _ => x.2.2
  | [] => (none, 4)

/-- A load in stepped replay completes at its issue: its lanes come to the detector, then each is read; a serviceable fault holds the
word (R196, R290, R362). `s0` is the state before the word. -/
def State.loadStepped (s0 : State) (c : Ctx) (sh : Shape) (part : Nat → Outstanding) : Eff :=
  let check (s : State) (l : Nat) : Checked :=
    let o := part l
    s.checkAccess c.id c.unit o.space l o.ea o.size .read o.region false (o.acquire != 0)
  let any := part ((lowest c.act).getD 0)
  match s0.askPages c any.space any.size (fun l => (part l).ea) .read with
  | some s1 => .hold s1
  | none =>
  match checkLanes check s0 c.actLanes [] with
  | (s1, none) => .hold s1
  | (s1, some races) =>
    let step1 (acc : State × List (Nat × Step1)) (l : Nat) : State × List (Nat × Step1) :=
      let o := part l
      match c.declined s0 l, checkEa c.unit o.space o.ea o.size with
      | some p, _ => (acc.1, acc.2 ++ [(l, .fault p)])
      | none, some k => (acc.1, acc.2 ++ [(l, .fault ⟨.unserviceable, k, o.ea, []⟩)])
      | none, none =>
        match acc.1.loadLane c.id o c.op true true with
        | .bytes b t => (t, acc.2 ++ [(l, .good (loadWords o.size o.signed b))])
        | .wait t => (t, acc.2 ++ [(l, .later)])
        | .bad p t => (t, acc.2 ++ [(l, .fault p)])
    let clean := c.actLanes.filter fun l => !races.any fun x => x.1 == l
    let (t, got) := clean.foldl step1 (s1.advance c sh, [])
    let asked := got.filterMap fun x => match x.2 with
      | .fault p => if c.asks s0 x.1 p then some (x.1, p) else none
      | _ => none
    if !asked.isEmpty then .hold (s0.holdForService c asked)
    else
      if got.any fun x => match x.2 with | .later => true | _ => false then .hold s0
      else
        let t := got.foldl (fun acc x => match x.2 with
          | .good ws => acc.land c.id (part x.1) (.ok ws)
          | _ => acc.updSheaf c.id fun f => f.dropParts c.op (BitVec.twoPow 32 x.1)) t
        let t := t.updSheaf c.id fun f => f.dropParts c.op races.failed.mask
        let faults : Failed := got.filterMap fun x => match x.2 with
          | .fault p => some (x.1, p.final)
          | _ => none
        t.afterLanes c faults races.failed races.first.1 races.first.2 []

/-- A load word. -/
def loadWord (i : Instr) (s : State) (part : Ctx → Nat → Outstanding) : Out :=
  issueWord i s fun c t =>
    if c.isStepped then s.loadStepped c (shape i c.form c.limm.isSome) (part c) else .done (t.loadIssue c (part c))

def execLd (y : Bool) (g : BitVec 3) (d a : BitVec 7) (f : BitVec 4) (m : BitVec 3) (s : State) : Out :=
  loadWord (.ld y g d a f m) s fun c l =>
    let sz := (memSize c.form m.msb).getD (4, false)
    c.part m d a sz.1 (if sz.1 = 8 then 2 else 1) sz.2 0 l
def execLdv (y : Bool) (g : BitVec 3) (d a : BitVec 7) (f : BitVec 4) (m : BitVec 3) (s : State) : Out :=
  loadWord (.ldv y g d a f m) s fun c l => c.part m d a 16 4 false 0 l
/-- A load-acquire (R189). -/
def execLds (y : Bool) (g : BitVec 3) (d a : BitVec 7) (f : BitVec 4) (m : BitVec 3) (s : State) : Out :=
  loadWord (.lds y g d a f m) s fun c l =>
    let sz := (memSize c.form m.msb).getD (4, false)
    c.part m d a sz.1 (if sz.1 = 8 then 2 else 1) sz.2 (scopeCode (spaceOf m) c.x.scope.toNat) l

/-! ### Stores -/

/-- Make room in a full store queue: other positions that hold entries roll back, the one whose region started latest first
(R186). -/
def State.makeRoom (s : State) (c : Ctx) : Nat → State
  | 0 => s
  | n + 1 =>
    match s.sheaf c.id with
    | none => s
    | some f =>
      if f.storeQueue.length < 64 then s
      else
        let holders := (laneMask fun l => f.storeQueue.any fun e => e.parts.any fun p => p.lane == l) &&& ~~~c.lanes
        let last := (maskLanes holders).foldl (fun best l => match best with
          | none => some l
          | some b => if (f.lane b).startSeq < (f.lane l).startSeq then some l else best) (none : Option Nat)
        match last with
        | none => s
        | some l => (s.rollback c.id ((f.positionOf l &&& ~~~c.lanes) ||| BitVec.twoPow 32 l)).makeRoom c n

/-- The colour of a store: `XMOD` COLOUR when CV is set, else `CLR` as the word reads it (R182). -/
def Ctx.colour (c : Ctx) : Nat := if c.x.cv then c.x.colour.toNat else c.f.clr.toNat % 8

/-- Put an entry into the sheaf's store queue. -/
def State.enqueue (s : State) (c : Ctx) (e : StoreEntry) : State :=
  s.updSheaf c.id fun f => { f with storeQueue := f.storeQueue ++ [e] }

/-- Translate one store part, bringing it to the race detector (R182, R290). -/
inductive PartRes where
  | ok (p : StorePart) (s : State)
  | miss (page : Nat)
  | again (s : State)

def State.translatePart (s : State) (id : Nat) (space : Space) (p : StorePart) : PartRes :=
  match s.sheaf id with
  | none => .again s
  | some f =>
    match s.locate f space p.lane p.ea p.bytes.length .write false with
    | .miss page => .miss page
    | .bad q => .ok { p with fault := some q } s
    | .here a s1 =>
      match s1.detect id p.lane p.region a.watched (if a.win then some f.unit else none) a.keys true false with
      | .clear s2 => .ok { p with phys := some (a.keys.headD 0), span := a.span } s2
      | .withdrawn s2 => .again s2
      | .race _ _ g => .ok { p with fault := some ⟨.race, 0, s.granuleAt f space p.lane p.ea a.keys g, []⟩ } s1

/-- The translation of a part whose access the detector has seen. -/
def State.translateChecked (s : State) (id : Nat) (space : Space) (p : StorePart) : PartRes :=
  match s.sheaf id with
  | none => .again s
  | some f =>
    match s.locate f space p.lane p.ea p.bytes.length .write true with
    | .miss page => .miss page
    | .bad q => .ok { p with fault := some q } s
    | .here a s1 => .ok { p with phys := some (a.keys.headD 0), span := a.span } s1

/-- A store word in stepped replay, its parts translated: a serviceable fault holds it, the lanes that fail or race trap, the
others' parts are queued (R196, R290). `s0` is the state before the word. -/
def State.stepStore (s s0 : State) (c : Ctx) (entry : List StorePart → StoreEntry) (done : List StorePart) (races : Races) : Eff :=
  let failed : Failed := done.filterMap fun p => p.fault.map fun q => (p.lane, q)
  match failed.filter fun x => c.asks s0 x.1 x.2 with
  | x :: rest => .hold (s0.holdForService c (x :: rest))
  | [] =>
    (s.enqueue c (entry (done.filter fun p => p.fault.isNone))).afterLanes c (failed.map fun x => (x.1, x.2.final)) races.failed
      races.first.1 races.first.2 []

/-- The parts of a stepped store that no race stops, translated one after another. -/
def translateAll (tr : State → StorePart → PartRes) (t : State) (parts : List StorePart) : State × List StorePart :=
  parts.foldl (fun (acc : State × List StorePart) p =>
    if p.fault.isSome then (acc.1, acc.2 ++ [p])
    else match tr acc.1 p with
      | .ok q u => (u, acc.2 ++ [q])
      | .miss _ => (acc.1, acc.2 ++ [p])
      | .again u => (u, acc.2 ++ [p])) (t, [])

/-- A store word: one entry of the queue with every active lane's bytes (R182); in stepped replay its lanes come to the detector and are
translated at issue, and a lane that fails traps there (R196). -/
def storeWord (i : Instr) (s : State) (m : BitVec 3) (a : BitVec 7) (bytes : Ctx → Nat → List Byte) : Out :=
  issueWord i s fun c t =>
    let t := t.makeRoom c 64
    match t.sheaf c.id with
    | none => .done t
    | some f =>
      if 64 ≤ f.storeQueue.length then .hold (s.makeRoom c 64)
      else
        let parts := c.actLanes.map fun l =>
          let ea := c.ea m a l
          let b := bytes c l
          ({ lane := l, ea := ea, bytes := b, region := c.region l
             fault := match c.declined s l with
               | some p => some p
               | none => (checkEa c.unit (spaceOf m) ea b.length).map fun k => ⟨.unserviceable, k, ea, []⟩ } : StorePart)
        let entry (ps : List StorePart) : StoreEntry :=
          { id := c.op, space := spaceOf m, parts := ps, colour := c.colour, cp := c.x.cp.toNat, pc := c.pc }
        if !c.isStepped then .done (t.enqueue c (entry parts))
        else match (s.makeRoom c 64).askPages c (spaceOf m) ((parts.head?.map fun p => p.bytes.length).getD 1) (c.ea m a) .write with
        | some s1 => .hold s1
        | none =>
          let check (s : State) (l : Nat) : Checked :=
            s.checkAccess c.id c.unit (spaceOf m) l (c.ea m a l) (bytes c l).length .write (c.region l) true false
          match checkLanes check (s.makeRoom c 64) c.actLanes [] with
          | (s1, none) => .hold s1
          | (s1, some races) =>
            let mine := parts.filter fun p => !races.any fun x => x.1 == p.lane
            let r := translateAll (fun u p => u.translateChecked c.id (spaceOf m) p)
              (s1.advance c (shape i c.form c.limm.isSome)) mine
            r.1.stepStore s c entry r.2 races

def wordLow (n : Nat) (x : Word) : List Byte := toBytes n x.toNat

def execSt (y : Bool) (g : BitVec 3) (d a : BitVec 7) (m : BitVec 3) (s : State) : Out :=
  storeWord (.st y g d a m) s m a fun c l =>
    let sz := ((memSize c.form m.msb).getD (4, false)).1
    if sz = 8 then toBytes 8 (c.r64 d l).toNat else wordLow sz (c.r32 d l)
def execStv (y : Bool) (g : BitVec 3) (d a : BitVec 7) (m : BitVec 3) (s : State) : Out :=
  storeWord (.stv y g d a m) s m a fun c l =>
    (List.range 4).flatMap fun k => wordBytesOf (c.reg (d.toNat + k) l)

/-- Targets of a quantising store (R184). -/
def stqFmt (form : Nat) (inf : Bool) : Fmt :=
  match form with
  | 0 => bf16
  | 1 => f16
  | 2 => e4m3
  | 3 => e5m2
  | _ => b8p (form - 3) inf

def execStq (y : Bool) (g : BitVec 3) (d a : BitVec 7) (f : BitVec 4) (m : BitVec 3) (s : State) : Out :=
  storeWord (.stq y g d a f m) s m a fun c l =>
    toBytes (if c.form ≤ 1 then 2 else 1) ((stqFmt c.form m.msb).round c.f.rm (f32.decode (c.r32 d l).toNat))

/-- A prefetch brings a lane's line into the L2 of the die that owns it, where the TLBs hold its page and nothing holds the access up; it
is dropped otherwise (R187). DEDUCED (log 72). -/
def State.prefetch (s : State) (c : Ctx) (ea : DWord) : State :=
  match s.translate c.core c.unit.ctx ea .read with
  | .ok key _ =>
    if 2 ^ 60 ≤ key ∨ s.laneHeld c.core c.unit.ctx key ∨ s.l2Hit c.core key then s
    else (s.charge c.unit.ctx .hbm 128).l2Keep (homeDie key) key c.x.cp.toNat
  | _ => s

/-- A prefetch changes no state that programs can see (R187). -/
def execPrf (y : Bool) (g : BitVec 3) (a : BitVec 7) (m : Bool) (s : State) : Out :=
  issueWord (.prf y g a m) s fun c t => .done (c.actLanes.foldl (fun (acc : State) l => acc.prefetch c (c.ea (if m then 3 else 2) a l)) t)

/-! ### Streams (R198 to R201) -/

/-- Element a lane pops: one reserved for it, or the next buffered, or none past the end. -/
def StreamReg.pop (q : StreamReg) (l : Nat) : Option (StreamElem × StreamReg) :=
  match q.rewound.find? fun t => t.1 == l with
  | some (_, e) =>
    some (e, { q with rewound := (q.rewound.filter fun t => !(t.1 == l && t.2.k == e.k)), tentative := q.tentative ++ [(l, e)] })
  | none =>
    match q.buffer with
    | e :: rest => some (e, { q with buffer := rest, given := q.given + 1, tentative := q.tentative ++ [(l, e)] })
    | [] => none

/-- A condition of a pop or push that nothing can serve: cause 6 (R200). No rule says what address it reports: the number of the next
element. DESIGN CHOICE (log 83). -/
def streamFault (q : StreamReg) : Poison := ⟨.unserviceable, 6, BitVec.ofNat 64 q.given, []⟩

/-- The place of element `k` of a stream under a right (R198, R356). -/
def State.elemPlace (s : State) (f : Sheaf) (q : StreamReg) (k : Nat) (r : Right) : Except Poison Acc := do
  let a ← s.elemAddr f q k
  let sz := if q.wide then 8 else 4
  let u := s.unitOf f
  if a.toNat % sz != 0 then throw ⟨.unserviceable, 2, a, []⟩
  else if q.sp then
    (if u.lrec.win < a.toNat + sz then throw ⟨.unserviceable, 0, a, []⟩
     else pure { win := true, keys := (List.range sz).map (a.toNat + ·), watched := s.windowWatched f })
  else match s.translateNow u.ctx a r with
    | .ok key w => pure { keys := (List.range sz).map (key + ·), watched := w }
    | .miss _ => throw ⟨.notPresent, 4, a, []⟩
    | .bad p => throw p

/-- The granule of an element by its own address (R290). -/
def State.elemGranule (s : State) (f : Sheaf) (q : StreamReg) (k : Nat) : DWord :=
  match s.elemAddr f q k with
  | .ok a => BitVec.ofNat 64 (a.toNat / 8 * 8)
  | .error _ => 0

/-- Bring a stream element to the detector for a lane before its word does anything (R289, R290); the granule is named by the element's
address. -/
def State.checkElem (s : State) (id lane region : Nat) (q : StreamReg) (k : Nat) (write : Bool) : Checked :=
  match s.sheaf id with
  | none => .clear s
  | some f =>
    match s.elemPlace f q k (if write then .write else .read) with
    | .error _ => .clear s
    | .ok a =>
      if !a.watched then .clear s
      else match s.detect id lane region true (if a.win then some f.unit else none) a.keys write false with
        | .clear t => .clear t
        | .withdrawn t => .withdrawn t
        | .race r n _ => .race ⟨.race, 0, s.elemGranule f q k, []⟩ r n

/-- The elements that a word's lanes take, in ascending lane order: none past the end, or where the register cannot be popped. -/
def StreamReg.pops (q : StreamReg) (lanes : List Nat) : StreamReg × List (Nat × Option StreamElem) :=
  lanes.foldl (fun (acc : StreamReg × List (Nat × Option StreamElem)) l =>
    match (if q.bound && !q.write then acc.1.pop l else none) with
    | some (e, q') => (q', acc.2 ++ [(l, some e)])
    | none => (acc.1, acc.2 ++ [(l, none)])) (q, [])

/-- A pop in stepped replay completes at its issue: an element whose fetch failed is fetched once more, and a serviceable fault of it
holds the word; its lanes come to the detector (R196, R201, R290). `s0` is the state before the word. -/
def State.popStepped (s0 : State) (c : Ctx) (sh : Shape) (n : Nat) (q : StreamReg) (part : Nat → Nat → Outstanding) : Eff :=
  let again (e : StreamElem) : StreamElem := if e.poison.isSome then s0.fetchElem c.f q e.k else e
  let pops := q.pops c.actLanes
  let got := pops.2.map fun p => (p.1, p.2.map again)
  let asked := got.filterMap fun p => ((p.2.bind StreamElem.poison).filter fun x => c.asks s0 p.1 x).map fun x => (p.1, x)
  if !asked.isEmpty then .hold (s0.holdForService c asked)
  else
    let elemOf (l : Nat) : Option StreamElem := (got.find? fun p => p.1 == l).bind Prod.snd
    let check (s : State) (l : Nat) : Checked := match elemOf l with
      | some e => if e.poison.isSome then .clear s else s.checkElem c.id l (c.region l) q e.k false
      | none => .clear s
    match checkLanes check s0 c.actLanes [] with
    | (s1, none) => .hold s1
    | (s1, some races) =>
      let t := (s1.advance c sh).updSheaf c.id fun f => { f with streams := f.streams.set n pops.1 }
      let faults : Failed := got.filterMap fun p => match p.2 with
        | some e => match c.declined s0 p.1 with
          | some x => some (p.1, x)
          | none => e.poison.map fun x => (p.1, x.final)
        | none => some (p.1, streamFault q)
      let bad := faults.mask ||| races.failed.mask
      let t := got.foldl (fun (acc : State) p => match p.2 with
        | some e => if bad.getLsbD p.1 then acc else acc.land c.id (part p.1 e.k) (.ok (toWords (toBytes (part p.1 e.k).size e.value.toNat)))
        | none => acc) (t.updSheaf c.id fun f => f.dropParts c.op bad)
      t.afterLanes c faults races.failed races.first.1 races.first.2 []

def execQrd (y : Bool) (g : BitVec 3) (d : BitVec 7) (n : BitVec 3) (f : BitVec 4) (s : State) : Out :=
  issueWord (.qrd y g d n f) s fun c t =>
    match t.sheaf c.id with
    | none => .done t
    | some h =>
      let q := h.streams.get n.toNat
      if q.wide && !groupOk c.unit.lrec.nv d 2 true then .emul
      else
        let regs := if q.wide then 2 else 1
        let part (l k : Nat) : Outstanding :=
          { id := 32 * c.op + l, lane := l, kind := .pop n.toNat k, size := 4 * regs, dst := c.dstFor d l, regs := regs,
            op := c.op, pc := c.pc, region := c.region l }
        if c.isStepped then s.popStepped c (shape (.qrd y g d n f) c.form c.limm.isSome) n.toNat q part
        else
          let pops := q.pops c.actLanes
          let t := t.updSheaf c.id fun f => { f with streams := f.streams.set n.toNat pops.1 }
          .done (pops.2.foldl (fun acc p => match p.2 with
            | some e => acc.updSheaf c.id fun f => { f with outstanding := f.outstanding ++ [part p.1 e.k] }
            | none => acc.land c.id (part p.1 0) (.error (streamFault q))) t)

/-- Pushes that a sheaf's store queue holds for a stream, in entries before one (R200). -/
def Sheaf.pushesBefore (f : Sheaf) (n entry : Nat) : Nat :=
  ((f.storeQueue.takeWhile fun e => e.id != entry).filter fun e => e.stream == some n).foldl (fun k e => k + e.parts.length) 0

/-- Translate one push, the element it will write being number `k`, and bring it to the race detector unless it has been there (R200,
R290). -/
def State.translatePush (s : State) (id : Nat) (q : StreamReg) (k : Nat) (p : StorePart) (checked : Bool) : PartRes :=
  match s.sheaf id with
  | none => .again s
  | some f =>
    match s.elemPlace f q k .write with
    | .error x => .ok { p with fault := some x } s
    | .ok a =>
      match s.detect id p.lane p.region (a.watched && !checked) (if a.win then some f.unit else none) a.keys true false with
      | .clear s2 => .ok { p with phys := some (a.keys.headD 0) } s2
      | .withdrawn s2 => .again s2
      | .race _ _ _ => .ok { p with fault := some ⟨.race, 0, s.elemGranule f q k, []⟩ } s

def execQwr (y : Bool) (g : BitVec 3) (d : BitVec 7) (n : BitVec 3) (f : BitVec 4) (s : State) : Out :=
  issueWord (.qwr y g d n f) s fun c t =>
    let t := t.makeRoom c 64
    match t.sheaf c.id with
    | none => .done t
    | some h =>
      let q := h.streams.get n.toNat
      if q.wide && !groupOk c.unit.lrec.nv d 2 false then .emul
      else if 64 ≤ h.storeQueue.length then .hold (s.makeRoom c 64)
      else
        let first := q.given + h.pushesBefore n.toNat c.op
        let parts := ((List.range 32).zip c.actLanes).map fun x =>
          let b := if q.wide then toBytes 8 (c.r64 d x.2).toNat else wordBytesOf (c.r32 d x.2)
          (x.1, ({ lane := x.2, bytes := b, region := c.region x.2
                   fault := match c.declined s x.2 with
                     | some p => some p
                     | none => if q.bound && q.write && decide (first + x.1 < q.count) then none else some (streamFault q) } : StorePart))
        let entry (ps : List StorePart) : StoreEntry :=
          { id := c.op, parts := ps, colour := c.colour, cp := c.x.cp.toNat, stream := some n.toNat, pc := c.pc }
        if !c.isStepped then .done (t.enqueue c (entry (parts.map Prod.snd)))
        else
          let numberOf (l : Nat) : Nat := first + ((parts.find? fun x => x.2.lane == l).map Prod.fst).getD 0
          let usable := (parts.filter fun x => x.2.fault.isNone).map fun x => x.2.lane
          let check (s : State) (l : Nat) : Checked := s.checkElem c.id l (c.region l) q (numberOf l) true
          match checkLanes check (s.makeRoom c 64) usable [] with
          | (s1, none) => .hold s1
          | (s1, some races) =>
            let mine := (parts.map Prod.snd).filter fun p => !races.any fun x => x.1 == p.lane
            let r := translateAll (fun u p => u.translatePush c.id q (numberOf p.lane) p true)
              (s1.advance c (shape (.qwr y g d n f) c.form c.limm.isSome)) mine
            r.1.stepStore s c entry r.2 races

/-- `SBIND` (R198): the record is read at issue; a reserved value or a count of 0 traps. -/
def execSbind (y : Bool) (g n : BitVec 3) (a : BitVec 7) (s : State) : Out :=
  issueWord (.sbind y g n a) s fun c t =>
    let u := t.unitOf c.f
    let w := (c.low32 a).toNat
    match c.block s t u w 32 32 with
    | some e => e
    | none =>
      let ctl := u.winValue (w + 0x14) 4
      let kind := ctl % 4
      let count := u.winValue (w + 0x10) 4
      if 32 ≤ ctl ∨ count = 0 then .emul
      else
        let q : StreamReg :=
          if kind = 3 then {}
          else { bound := true, base := BitVec.ofNat 64 (u.winValue w 8), stride := BitVec.ofNat 64 (u.winValue (w + 8) 8),
                 count := count, kind := kind, wide := ctl.testBit 2, write := ctl.testBit 3, sp := ctl.testBit 4,
                 index := BitVec.ofNat 64 (u.winValue (w + 0x18) 8) }
        .done (t.updSheaf c.id fun f => { f with streams := f.streams.set n.toNat q })

/-! ### Atomics (R192, R193) -/

/-- New value and whether a target's mask lacks it (R193, R389): mask bit for a word's operation at a width. -/
def atomBit (op form : Nat) (wide : Bool) : Option Nat :=
  match op with
  | 0x6C => some (if wide then 9 + form else form)
  | 0x6D => some (if wide then 19 else 18)
  | 0x6E => some (20 + form)
  | _ => none

/-- Whether a key's target refuses an operation, and the KIND of R390. DEDUCED (log 43). -/
def State.refuses (s : State) (a : Acc) (op form : Nat) (wide : Bool) : Option Nat :=
  let key := a.keys.headD 0
  if a.win || key < 2 ^ 60 then none
  else
    let mask := match peerOf key with
      | some n => (s.peers.get n).mask
      | none => s.hostMask
    match atomBit op form wide with
    | none => none
    | some b =>
      if mask.getLsbD b then none
      else match atomBit op form (!wide) with
        | some b' => some (if b' != b && mask.getLsbD b' then 1 else 0)
        | none => some 0

/-- `ATOM` by FORM on values of a width (R193). -/
def atomNew (form w : Nat) (old x : Nat) : Nat :=
  match form with
  | 0 => (old + x) % 2 ^ w
  | 1 => Nat.land old x
  | 2 => Nat.lor old x
  | 3 => Nat.xor old x
  | 4 => x
  | 5 => if readInt w true x < readInt w true old then x else old
  | 6 => if readInt w true old < readInt w true x then x else old
  | 7 => min old x
  | _ => max old x

/-- `ATOMF` by FORM (R193): FP32, or two 16-bit halves. -/
def atomfNew (rm : Word) (form old x : Nat) : Nat :=
  let half (f : Fmt) : Nat :=
    f.roundSum rm [f.decode (old / 65536), f.decode (x / 65536)] * 65536
      + f.roundSum rm [f.decode (old % 65536), f.decode (x % 65536)]
  match form with
  | 0 => f32.roundSum rm [f32.decode old, f32.decode x]
  | 1 => f32.minMax false old x
  | 2 => f32.minMax true old x
  | 3 => half bf16
  | _ => half f16

/-- What one lane of an atomic word met: its old value, with the peer or the host that performed it and the request's number, or why it was
not performed. -/
inductive AtomRes where
  | done (old : Nat) (peer : Option Nat) (request : Nat)
  | later
  | fault (p : Poison)
  | refused (kind : Nat) (va : DWord)

/-- One lane of an atomic word is performed at its home (R192, R193, R424). `new` gives the new value from the old. -/
def State.atomLane (s : State) (c : Ctx) (space : Space) (op : Nat) (wide : Bool) (ea : DWord) (l : Nat)
    (right : Right) (new : Nat → Nat) : State × AtomRes :=
  let size := if wide then 8 else 4
  match s.sheaf c.id with
  | none => (s, .fault {})
  | some f =>
    match checkEa c.unit space ea size with
    | some k => (s, .fault ⟨.unserviceable, k, ea, []⟩)
    | none =>
      match s.locate f space l ea size right true with
      | .miss _ => (s, .fault ⟨.notPresent, 4, ea, []⟩)
      | .bad p => (s, .fault p)
      | .here a s1 =>
        let key := a.keys.headD 0
        let va := s.vaOf f space l ea
        match (if a.win then none else s1.targetFault [c.unit.job] key size va) with
        | some p => (s1, .fault p)
        | none =>
        match s1.refuses a op c.form wide with
        | some k => (s1, .refused k va)
        | none =>
          if !a.win && s1.laneHeld f.coreNo c.unit.ctx key then (s, .later)
          else
            let s2 := if a.win then s1 else a.keys.foldl State.verifyLine s1
            if s2.accPoisoned f.unit a then (s2, .fault ⟨.unserviceable, 7, va, []⟩)
            else
              let old := leNat (s2.accBytes f.unit a)
              let s3 := s2.accWrite f.unit f.coreNo a (toBytes size (new old))
              let peer := if a.win then none else remoteOf key
              let s4 := if peer.isSome then s3.sendRequest else s3
              (if a.win then s4 else s4.laneAccess f.coreNo c.unit.ctx key true c.x.cp.toNat size, .done old peer s4.requests)

/-- The lanes of an atomic word that the detector let through, performed in ascending order (R192, R193). -/
def State.atomLanes (s s0 : State) (c : Ctx) (space : Space) (op : Nat) (wide : Bool) (m : BitVec 3) (a : BitVec 7) (right : Right)
    (new : Nat → Nat → Nat) (lanes : List Nat) : State × List (Nat × AtomRes) :=
  lanes.foldl (fun (acc : State × List (Nat × AtomRes)) l =>
    match c.declined s0 l with
    | some p => (acc.1, acc.2 ++ [(l, .fault p)])
    | none =>
      let r := acc.1.atomLane c space op wide (c.ea m a l) l right (new l)
      (r.1, acc.2 ++ [(l, r.2)])) (s, [])

/-- What a performed lane's old value comes back as: an outstanding return, or nothing but its flag part (R192). -/
def State.atomReturn (s : State) (c : Ctx) (space : Space) (wide returns : Bool) (m : BitVec 3) (d a : BitVec 7) (x : Nat × AtomRes) :
    State :=
  match x.2 with
  | .done old peer request =>
    if c.flag != 15 && returns then
      let s1 : State := match peer with
        | some n => { s with unacked := s.unacked ++ [{ seq := request, peer := n }] }
        | none => s
      let o : Outstanding :=
        { id := 32 * c.op + x.1, lane := x.1, kind := .value (toWords (toBytes (if wide then 8 else 4) old)), space := space
          ea := c.ea m a x.1, size := if wide then 8 else 4, dst := c.dstFor d x.1, regs := if wide then 2 else 1, op := c.op
          acquire := scopeCode space c.x.scope.toNat, peer := peer, request := request, pc := c.pc, inRegion := false }
      s1.updSheaf c.id fun f => { f with outstanding := f.outstanding ++ [o] }
    else s.updSheaf c.id fun f => f.dropParts c.op (BitVec.twoPow 32 x.1)
  | _ => s.updSheaf c.id fun f => f.dropParts c.op (BitVec.twoPow 32 x.1)

/-- An atomic word: it waits until its lanes' addresses are translated; its lanes come to the detector before any is performed; it is held
while a serviceable fault is serviced, or while a lane waits for HBM or a link; then every lane is performed, and the traps of R193
follow. `s0` is the state before the word, `new` gives a lane's new value from the old one. DEDUCED (log 43). -/
def State.atomEff (s0 : State) (c : Ctx) (sh : Shape) (op : Nat) (wide : Bool) (m : BitVec 3) (d a : BitVec 7) (right : Right)
    (returns : Bool) (new : Nat → Nat → Nat) : Eff :=
  let space := spaceOf m
  let check (s : State) (l : Nat) : Checked :=
    if (c.declined s0 l).isSome then .clear s
    else s.checkAccess c.id c.unit space l (c.ea m a l) (if wide then 8 else 4) right (c.region l) true true
  match s0.askPages c space (if wide then 8 else 4) (c.ea m a) right with
  | some s1 => .hold s1
  | none =>
  match checkLanes check s0 c.actLanes [] with
  | (s1, none) => .hold s1
  | (s1, some races) =>
    let clean := c.actLanes.filter fun l => !races.any fun x => x.1 == l
    let (t2, got) := (s1.advance c sh).atomLanes s0 c space op wide m a right new clean
    let asked := got.filterMap fun x => match x.2 with
      | .fault p => if p.serviceable then some (x.1, p) else none
      | _ => none
    if !asked.isEmpty then .hold (s0.holdForService c asked)
    else if got.any fun x => match x.2 with | .later => true | _ => false then .hold s0
    else
      let faults : Failed := got.filterMap fun x => match x.2 with
        | .fault p => some (x.1, p)
        | _ => none
      let refused := got.filterMap fun x => match x.2 with
        | .refused k va => some (x.1, k, va)
        | _ => none
      let refMask := laneMask fun l => refused.any fun x => x.1 == l
      let t3 := got.foldl (fun acc x => acc.atomReturn c space wide returns m d a x)
        (t2.updSheaf c.id fun f => f.dropParts c.op races.failed.mask)
      let t4 := if c.flag != 15 && decide (6 ≤ scopeCode space c.x.scope.toNat) then t3.dropCache c.core else t3
      match refused with
      | (_, _, va) :: _ =>
        if c.flag != 15 then t4.afterLanes c faults races.failed races.first.1 races.first.2 refused
        else
          (t4.report (t4.nameSheaf c.f { typ := 2, pc := c.pc, addr := va, lanes := refMask, info := c.word.toNat })).afterLanes
            c faults races.failed races.first.1 races.first.2 []
      | [] => t4.afterLanes c faults races.failed races.first.1 races.first.2 []

/-- An atomic word (R192, R193). DEDUCED (log 43). -/
def atomWord (i : Instr) (s : State) (op : Nat) (wide : Bool) (m : BitVec 3) (d a : BitVec 7) (right : Right)
    (returns : Bool) (new : Ctx → Nat → Nat → Nat) : Out :=
  issueWord i s fun c _ => s.atomEff c (shape i c.form c.limm.isSome) op wide m d a right returns (new c)

def execAtom (y : Bool) (g : BitVec 3) (d a : BitVec 7) (f : BitVec 4) (m : BitVec 3) (s : State) : Out :=
  atomWord (.atom y g d a f m) s 0x6C m.msb m d a .atomic true fun c l old =>
    if m.msb then atomNew c.form 64 old (c.r64 d l).toNat else atomNew c.form 32 old (c.r32 d l).toNat
def execCas (y : Bool) (g : BitVec 3) (d a : BitVec 7) (f : BitVec 4) (m : BitVec 3) (s : State) : Out :=
  atomWord (.cas y g d a f m) s 0x6D m.msb m d a .atomic true fun c l old =>
    if m.msb then
      (if old = (c.r64 d l).toNat then (pair64 (c.reg (d.toNat + 2) l) (c.reg (d.toNat + 3) l)).toNat else old)
    else if old = (c.r32 d l).toNat then (hi32 (c.r64 d l)).toNat else old
def execAtomf (y : Bool) (g : BitVec 3) (d a : BitVec 7) (f : BitVec 4) (m : BitVec 3) (s : State) : Out :=
  atomWord (.atomf y g d a f m) s 0x6E false m d a .atomic true fun c l old => atomfNew c.f.rm c.form old (c.r32 d l).toNat
/-- A release store (R190): performed at its issue, after the region's stores. -/
def execAtst (y : Bool) (g : BitVec 3) (d a : BitVec 7) (f : BitVec 4) (m : BitVec 3) (s : State) : Out :=
  atomWord (.atst y g d a f m) s 0x6F m.msb m d a .write false fun c l _ =>
    if m.msb then (c.r64 d l).toNat else (c.r32 d l).toNat

end Sys2Proof.Machine
end

