-- ==== Sys2Proof/Machine/Engine.lean ====
section
/-!
DEFINITION. Engine queues in common: entries in queue order, when one may start, its end and its flag, handles and who moves
them, error records of engine entries, and what a cull leaves of an entry (R173, R212, R235, R248, R261).
-/
namespace Sys2Proof.Machine

/-! ### Entries -/

def State.entry (s : State) (id : Nat) : Option Entry := s.entries.find? fun e => e.id == id
def State.updEntry (s : State) (id : Nat) (g : Entry → Entry) : State :=
  { s with entries := (s.entries.map fun e => if e.id == id then g e else e) }
def State.dropEntry (s : State) (id : Nat) : State := { s with entries := (s.entries.filter fun e => e.id != id) }

/-- The entries of a queue that stand at the core, in order. -/
def State.queueOf (s : State) (core : Nat) (q : QName) : List Entry :=
  s.entries.filter fun e => e.core == core && e.queue == q && !e.saved

/-- Whether entries of a queue start as soon as the one before has started (`mq`, `nq`), or only once it is performed. -/
def QName.overlaps : QName → Bool
  | .mq => true
  | .nq => true
  | _ => false

/-- An entry has not started: it waits for its turn, or at the head of `nq` for its record. -/
def Entry.waiting (e : Entry) : Bool := e.stage == .queued || (e.queue == .nq && e.stage == .slow)

/-- An entry's turn has come in its queue (R213, R230, R249). -/
def State.turnOf (s : State) (e : Entry) : Bool :=
  !e.saved && e.waiting &&
  (if e.queue.overlaps then ((s.queueOf e.core e.queue).find? Entry.waiting).any fun x => x.id == e.id
   else ((s.queueOf e.core e.queue).head?).any fun x => x.id == e.id)

/-- The job of a unit. -/
def State.jobOf (s : State) (u : Nat) : Nat := ((s.unit u).map UnitSt.job).getD 0

/-- Put an entry into a queue. -/
def State.addEntry (s : State) (e : Entry) : State :=
  let (id, s) := s.take
  { s with entries := s.entries ++ [{ e with id := id }] }

/-- The owner of what a word starts. -/
def Ctx.owner (c : Ctx) (dst : BitVec 7) : Owner :=
  { sheaf := c.id, lanes := c.act, unit := c.f.unit, ctx := c.unit.ctx, op := c.op, dst := dst, pc := c.pc }

/-- Put a word's work into a queue of its core. -/
def State.push (s : State) (c : Ctx) (q : QName) (w : Work) (dst : BitVec 7) : State :=
  s.addEntry { queue := q, core := c.core, owner := c.owner dst, work := w, issued := c.now }

/-- The flag falls for every lane that still holds a part. -/
def State.flagDown (s : State) (o : Owner) : State := s.updSheaf o.sheaf fun f => f.dropParts o.op o.lanes

/-- An entry is performed: it leaves its queue and its flag falls. -/
def State.performed (s : State) (e : Entry) : State :=
  ((s.flagDown e.owner).dropEntry e.id).progress (s.jobOf e.owner.unit)

/-- A variable-latency result comes to the lanes that still want it, or to a uniform register from the first of its lanes, culled or not
(R68, R102): registers now, flag parts with them. -/
def State.deliver (s : State) (o : Owner) (words : List (Nat × List Word)) : State :=
  s.updSheaf o.sheaf fun f =>
    let mine := if isUniform o.dst then words.take 1 else words.filter fun w => o.lanes.getLsbD w.1
    let n := ((mine.head?).map fun w => w.2.length).getD 0
    (f.landField (s.now f) o.dst.toNat n mine).dropParts o.op o.lanes

/-- The same words come to every lane that still wants them. -/
def State.deliverAll (s : State) (o : Owner) (ws : List Word) : State := s.deliver o (laneList.map fun l => (l, ws))

/-- A count of cycles that the manual leaves open. DESIGN CHOICE (log 13). -/
def State.freeCycles (s : State) : Nat × State := (1 + (Config.freeWord s.free).toNat % 256, { s with free := s.free + 1 })

/-- A result written, and its flag lowered, after some cycles. -/
def State.later (s : State) (c : Ctx) (cycles : Nat) (d : BitVec 7) (words : List (Nat × List Word)) : State :=
  s.updSheaf c.id fun f =>
    { f with timers := f.timers ++ [{ due := c.now + cycles, lanes := c.act, dst := d, words := words, op := c.op }] }

/-- The same word for every active lane. -/
def Ctx.each (c : Ctx) (ws : List Word) : List (Nat × List Word) := c.actLanes.map fun l => (l, ws)

/-! ### Handles -/

def State.updHandle (s : State) (u h : Nat) (g : Handle → Handle) : State := s.setHandle u h (g (s.handle u h))

/-- `HREL`'s effect on a handle. What SIZE reads for a free handle no rule says: it keeps the last count. DESIGN CHOICE (log 77). -/
def Handle.released (h : Handle) : Handle := { h with state := .free, err := false, torn := false, ovf := false }
/-- A copy starts into a handle. -/
def Handle.fill (h : Handle) (slot : Option Nat) : Handle :=
  { h with state := .filling, err := false, torn := false, ovf := false, size := 0, lastSlot := slot }
/-- A copy starts from a handle; with OVF set SIZE keeps the bytes that the output requires (R175). -/
def Handle.drain (h : Handle) : Handle := { h with state := .draining, size := if h.ovf then h.size else 0 }
/-- That copy has read its bytes; no bit changes (R173). DESIGN CHOICE (log 77) for SIZE. -/
def Handle.drained (h : Handle) (n : Nat) : Handle := { h with state := .free, size := if h.ovf then h.size else min n 0xFFFFFFFF }
/-- A copy ends in a handle. -/
def Handle.fullWith (h : Handle) (size : Nat) (err ovf : Bool) : Handle :=
  { h with state := .full, size := min size 0xFFFFFFFF, err := err, ovf := ovf }
def Handle.tornFree (h : Handle) : Handle := { h with state := .free, torn := true }

/-- Chunks of a ring, and those not yet performed, by handle offset (R256). -/
def RingWork.total (r : RingWork) : Nat := (r.layout.count + r.chunk - 1) / r.chunk
/-- The next chunk for slot `k`. -/
def RingWork.chunkAt (r : RingWork) (k : Nat) : Nat := k + r.n * r.begun.get k
def RingWork.left (r : RingWork) (k : Nat) : Bool := r.running.any (fun c => c % r.n == k) || decide (r.chunkAt k < r.total)
def RingWork.handles (r : RingWork) : List Nat := (List.range r.n).filter (r.left ·) |>.map fun k => r.h0 + k

/-- Handles that an entry will turn full, and handles that it will turn free (R174, R256). DEDUCED (log 40). -/
def Work.fills : Work → List Nat
  | .copy c => if c.node.isSome then [] else [c.h]
  | .gather g => [g.h]
  | .ring r => if r.drain then [] else r.handles
  | .mbind _ h _ _ => [h]
  | .qmv b _ _ _ _ _ => [b.h]
  | _ => []
def Work.frees : Work → List Nat
  | .copy c => if c.node.isSome then [] else c.sh.toList
  | .ring r => if r.drain then r.handles else []
  | _ => []

def State.willFill (s : State) (u h : Nat) : Bool := s.entries.any fun e => e.owner.unit == u && e.work.fills.contains h
def State.willFree (s : State) (u h : Nat) : Bool := s.entries.any fun e => e.owner.unit == u && e.work.frees.contains h

/-- What a wait on a handle finds in a cycle: release, a trap with its cause, or nothing yet (R174). -/
inductive WaitRes where
  | go | stay
  | trap (cause : Nat)
  deriving DecidableEq, Repr

def State.waitTest (s : State) (u h : Nat) (full : Bool) : WaitRes :=
  let x := s.handle u h
  if full then
    if x.state == .full then (if x.err then .trap 1 else if x.ovf then .trap 3 else .go)
    else if s.willFill u h then .stay
    else if x.state == .free && x.torn then .trap 2
    else .trap 0
  else if x.state == .free then .go
  else if s.willFree u h then .stay
  else .trap 0

/-- A handle-idle trap (R176). -/
def idleTrap (w : Word) (pc : DWord) (lanes : Mask) (h cause : Nat) : TrapRec :=
  { emulTrap w pc lanes with kind := .idle, ema := BitVec.ofNat 32 h, emb := BitVec.ofNat 32 cause }

/-! ### Error records of engine entries -/

/-- The fields of a record that an owner gives (R364). -/
def State.nameOwner (s : State) (o : Owner) (r : ErrRec) : ErrRec :=
  let u := (s.unit o.unit).getD default
  let r := { r with ctx := o.ctx, job := u.job, launch := s.launchNo u.launch, unit := u.recNo, pc := o.pc, lanes := o.lanes }
  match s.sheaf o.sheaf with
  | none => r
  | some f => { r with gen := f.gen, core := f.coreNo, slot := (f.place.map Prod.snd).getD 0, exited := f.liveMask == 0 }

/-- A record that an engine entry ended with ERR (R365); a malformed table entry that it met has one of its own before it (R355). -/
def State.reportEntry (s : State) (o : Owner) (h cause : Nat) (addr : DWord) : State :=
  let t := match (if cause = 4 then s.walk o.ctx (addr.toNat / 2 ^ 16) else .absent) with
    | .malformed x => s.malformed o.ctx addr x
    | _ => s
  t.report (t.nameOwner o { typ := 4, cause := cause, addr := addr, info := h })

/-! ### Budgets of entries (R216, R260) -/

/-- A tensor of an entry in a space. -/
def Entry.side (e : Entry) (kind : Nat) (r : Layout) : Side :=
  { kind := kind, ctx := e.owner.ctx, unit := e.owner.unit, core := if e.queue == .graph then none else some e.core, lay := r }

/-- The budget of an entry's own engine. -/
def Work.budget : Work → Option Budget
  | .copy _ => some .copy
  | .gather _ => some .copy
  | .ring _ => some .copy
  | .mbind _ _ _ _ => some .copy
  | .mill _ => some .mill
  | .qmv _ _ _ _ _ _ => some .quern
  | _ => none

/-- The virtual addresses at which an entry's tensors, or the records that describe them, begin. -/
def Work.places : Work → List DWord
  | .copy c => (match c.src with | some r => if c.route % 4 = 0 ∨ c.route = 1 ∨ c.route = 3 then [r.base] else [] | none => [c.srec])
      ++ (match c.dst with | some r => if c.route = 2 ∨ c.route = 3 ∨ c.route = 7 then [r.base] else [] | none => [c.drec])
  | .gather g => [g.table.base] ++ (if g.dsp = 2 then [g.dst.base] else []) ++ (if g.isp then [] else [g.idx])
  | .ring r => [r.layout.base]
  | .mbind _ _ r _ => [r.base]
  | .qmv b m _ _ opened _ => [if opened then m.cold else b.mrec]
  | _ => []

/-- An entry needs a resource whose budget is exhausted: that of its engine, or the HBM or the link where its tensors lie (R260, R376). -/
def State.overBudget (s : State) (e : Entry) : Bool :=
  e.work.budget.any (s.exhausted e.owner.ctx)
    || e.work.places.any fun a => match s.translateNow e.owner.ctx a .read with
      | .ok k _ => s.keyHeld e.owner.ctx k
      | _ => false

/-- Work that takes one of a die's copy engines. -/
def Work.usesEngine : Work → Bool
  | .copy _ => true
  | .gather _ => true
  | .ring _ => true
  | .mbind _ _ _ _ => true
  | _ => false

/-- The die whose engines an entry uses. -/
def Entry.die (e : Entry) : Nat := if e.queue == .graph then e.core else dieOf e.core

/-- The die whose engines sweep and migrate a record: its home, or where that is gated die d xor 1, or where both are the lowest-numbered
running die (R420). -/
def State.censusDie (s : State) (key : Nat) : Nat :=
  let d := homeDie key
  let up (n : Nat) : Bool := (s.die n).state != 2
  if up d then d else if up (d ^^^ 1) then d ^^^ 1 else ((List.range Config.dies).find? up).getD d

/-- Copy engines of a die that entries and migrations hold (R10, R407). An entry that Baruri's slow path has taken over holds none. DESIGN
CHOICE (log 79). -/
def State.enginesHeld (s : State) (d : Nat) : Nat :=
  (s.entries.filter fun x => x.work.usesEngine && x.stage == .started && !x.saved && x.die == d).length
    + (s.census.filter fun c => c.engine && s.censusDie c.mrec == d).length

/-- One of the 32 copy engines of the entry's die is free, where it needs one (R10). -/
def State.engineFree (s : State) (e : Entry) : Bool := !e.work.usesEngine || decide (s.enginesHeld e.die < Config.copyEngines)

/-- An entry whose turn has come, whose budget is not exhausted, and for which there is an engine. -/
def State.mayStart (s : State) (e : Entry) : Bool := s.turnOf e && !s.overBudget e && s.engineFree e

/-! ### Culls (R235, R261) -/

/-- Lower an open product's count at its record, and clear the block's OPN (R235). -/
def State.lowerOpen (s : State) (ctx : Nat) (mrec : DWord) (parity : Nat) : Option State :=
  let a := mrec + (if parity = 0 then 0x4C else 0x4E)
  match s.readVaNat ctx a 2 with
  | .error _ => none
  | .ok n => match s.writeVa ctx a (toBytes 2 (n - 1)) with
    | .ok s1 => some s1
    | .error _ => none

/-- An OPEN that cannot be lowered now is left for Baruri (R232). -/
def State.closeProduct (s : State) (ctx : Nat) (mrec : DWord) (parity : Nat) : State :=
  match s.lowerOpen ctx mrec parity with
  | some s1 => s1
  | none => { s with openLeft := s.openLeft ++ [(ctx, mrec, parity)] }

end Sys2Proof.Machine
end

