-- ==== Sys2Proof/Machine/Mill.lean ====
section
/-!
DEFINITION. The Mill: claiming, binding and releasing slots, products, words on accumulator tiles, and the events of the Mill
queue (the first parts of the manual's chapter The Mill and the Querns).
-/
namespace Sys2Proof.Machine

/-! ### Slots (R204 to R211) -/

/-- Field codes of a descriptor from a record's element format (R206). -/
def descElem (e : Nat) : Nat := if e = 0 then 1 else if e = 10 then 2 else 0
def descPrec (e : Nat) : Nat := if 17 ≤ e then e - 16 else 0
/-- The element format that a descriptor names. -/
def Slot.format (x : Slot) : Nat := if x.elem = 1 then 0 else if x.elem = 2 then 10 else 16 + x.prec

/-- A descriptor written from a record (R206); the handle is written apart. -/
def Slot.describe (x : Slot) (r : Layout) (masked : Bool) : Slot :=
  { x with bound := true, elem := descElem r.elem, prec := descPrec r.elem, inf := r.inf, masked := masked }

/-- The part of a release that is made at issue: all of the descriptor but HANDLE is cleared (R210). -/
def Slot.undescribed (x : Slot) : Slot := { x with bound := false, elem := 0, prec := 0, inf := false, masked := false }

/-- The part that is made when the release starts: a slot that the unit holds becomes unclaimed and unbound, and the binding to its
handle is dropped (R210). -/
def State.freeSlot (s : State) (u m : Nat) : State :=
  let x := s.slot u m
  if x.claim = some u then
    (s.setSlot u m { x with claim := none, bound := false, handle := 0 }).updHandle u x.handle fun h =>
      if h.lastSlot = some m then { h with lastSlot := none } else h
  else s

/-- The part made at issue, on a slot that the unit holds. -/
def State.undescribe (s : State) (u m : Nat) : State :=
  if (s.slot u m).claim = some u then s.setSlot u m (s.slot u m).undescribed else s

/-- A result written after four cycles (R209). -/
def execMclaim (y : Bool) (g : BitVec 3) (d : BitVec 7) (n k : BitVec 5) (s : State) : Out :=
  issueWord (.mclaim y g d n k) s fun c t =>
    let u := c.f.unit
    let range := (List.range (k.toNat + 1)).map (n.toNat + ·)
    let mine (m : Nat) : Bool := let x := (t.slot u m).claim; x == none || x == some u
    let ok := range.all mine
    let t := if ok then range.foldl (fun acc m => acc.setSlot u m { acc.slot u m with claim := some u }) t else t
    .done (t.later c 4 d (c.each [if ok then 1 else 0]))

/-- `MREL` clears all but HANDLE of the descriptors of its held slots at once, and releases them when it starts (R210). -/
def execMrel (y : Bool) (g : BitVec 3) (n k : BitVec 5) (s : State) : Out :=
  issueWord (.mrel y g n k) s fun c t =>
    let u := c.f.unit
    let t := (List.range (k.toNat + 1)).foldl (fun (acc : State) j => acc.undescribe u (n.toNat + j)) t
    .done (t.push c .mq (.mrel n.toNat (k.toNat + 1)) 120)

/-- `MBIND` (R211): the record is read and the descriptor written at issue. DEDUCED (log 38). -/
def execMbind (y : Bool) (g : BitVec 3) (h a : BitVec 7) (n : BitVec 5) (s : State) : Out :=
  issueWord (.mbind y g h a n) s fun c t =>
    let u := t.unitOf c.f
    let w := (c.low32 a).toNat
    match c.block s t u w 64 64 with
    | some x => x
    | none =>
      match parseLayout (u.winBytes w 64) with
      | none => .emul
      | some r =>
        let x := t.slot c.f.unit n.toNat
        if r.exts != [32, 32] || !tileElem r.elem || x.claim != some c.f.unit || !u.lrec.handles.contains h.toNat then .emul
        else
          let t := t.setSlot c.f.unit n.toNat (x.describe r (r.store == 3))
          .done (t.push c .mq (.mbind n.toNat h.toNat r c.f.rm) 120)

/-! ### Products (R217 to R222) -/

/-- Blocks of a product that are multiplied: block numbers. -/
def MillWork.blocks (m : MillWork) : List Nat :=
  match m.op with
  | .mmab => (List.range m.n).filter fun q => m.bitmap.testBit q
  | .mma => [0]
  | .mmas => List.range m.n
  | _ => []

/-- Whether a slot's descriptor suits a FORM (R217, R218). -/
def Slot.suits (x : Slot) (form : Nat) : Bool :=
  if form = 0 then x.elem == 0
  else if form ≤ 7 then x.elem == 0 && x.prec == form
  else if form = 8 then x.elem == 2
  else x.elem == 1

/-- What a product reads of a slot's descriptor at issue. -/
def Slot.desc (x : Slot) : Slot := { elem := x.elem, prec := x.prec, inf := x.inf, masked := x.masked }
/-- A slot read by a descriptor as it stood at issue: an `MREL` or `MBIND` issued behind the product has changed the slot's own. -/
def Slot.readBy (x d : Slot) : Slot := { x with elem := d.elem, prec := d.prec, inf := d.inf, masked := d.masked }

/-- The descriptors that a product finds at issue. -/
def State.withDescs (s : State) (u : Nat) (m : MillWork) : MillWork :=
  { m with descs := m.blocks.map fun q => (q, (s.slot u (m.aSlot + q)).desc, (s.slot u (m.bSlot + q)).desc) }

/-- The checks of R218 on a product. -/
def State.productOk (s : State) (u : Nat) (m : MillWork) : Bool :=
  let pword := ((s.unit u).map fun x => x.lrec.pword).getD 0
  let slotOk (q : Nat) : Bool :=
    let x := s.slot u q
    x.claim == some u && x.bound && x.suits m.form && (m.op == .mmas || !x.masked)
  decide (m.tile < tileCount pword) && decide (m.aSlot + m.n ≤ 32 ∧ m.bSlot + m.n ≤ 32)
    && decide (m.bitmap < 2 ^ m.n)
    && m.blocks.all fun q => slotOk (m.aSlot + q) && slotOk (m.bSlot + q)

/-- The Mill operation that a word of opcode 0x71, or `AZERO`, stands for in a FORM with an immediate; none where R217, R218
or R224 raise the emulation trap. -/
def State.millWork (s : State) (u : Nat) (i : Instr) (form : Nat) (imm : Option (BitVec 24)) : Option MillWork :=
  let ok (m : MillWork) : Option MillWork := if s.productOk u m then some (s.withDescs u m) else none
  let x := (imm.getD 0).toNat
  match i with
  | .mma _ _ d n b =>
    if imm.isSome then none
    else ok { op := .mma, tile := d.toNat, aSlot := n.toNat, bSlot := b.toNat, form := form }
  | .mmas _ _ d n b =>
    if x / 2 ^ 20 != 0 || x % 2 ^ 16 != 0 then none
    else ok { op := .mmas, tile := d.toNat, n := x / 2 ^ 16 + 1, aSlot := n.toNat, bSlot := b.toNat, form := form }
  | .mmab _ _ d n b =>
    if imm.isNone || x / 2 ^ 20 != 0 then none
    else ok { op := .mmab, tile := d.toNat, n := x / 2 ^ 16 + 1, aSlot := n.toNat, bSlot := b.toNat, form := form,
              bitmap := x % 2 ^ 16 }
  | .azero _ _ d a =>
    let pword := ((s.unit u).map fun x => x.lrec.pword).getD 0
    if imm.isSome || tileCount pword < d.toNat + a.toNat + 1 then none
    else some { op := .azero, tile := d.toNat, n := a.toNat + 1 }
  | _ => none

/-- A word that becomes a Mill operation. -/
def millWord (i : Instr) (s : State) : Out :=
  issueWord i s fun c t =>
    match t.millWork c.f.unit i c.form c.limm with
    | none => .emul
    | some m => .done (t.push c .mq (.mill m) 120)

def execMma (y : Bool) (g : BitVec 3) (d : BitVec 7) (n b : BitVec 5) (s : State) : Out := millWord (.mma y g d n b) s
def execMmas (y : Bool) (g : BitVec 3) (d : BitVec 7) (n b : BitVec 5) (s : State) : Out := millWord (.mmas y g d n b) s
def execMmab (y : Bool) (g : BitVec 3) (d : BitVec 7) (n b : BitVec 5) (s : State) : Out := millWord (.mmab y g d n b) s
def execAzero (y : Bool) (g : BitVec 3) (d a : BitVec 7) (s : State) : Out := millWord (.azero y g d a) s

/-! ### `AMOV` and `ACVT` (R223, R225) -/

/-- Cycles at the pool for the elements that lanes name: the words of the busiest of 96 banks (R169). -/
def bankCycles (words : List Nat) : Nat :=
  let ws := words.eraseDups
  (List.range 96).foldl (fun m b => max m (ws.filter fun w => w % 96 == b).length) 0

/-- Elements that `AMOV` lanes may not reach, with the reason. -/
def Ctx.amovFaults (c : Ctx) (k : Core) (a : BitVec 7) (read : Bool) : Failed :=
  c.actLanes.filterMap fun l =>
    let e := (c.amovElem a l).toNat
    if 1024 * tileCount c.unit.lrec.pword ≤ e then some (l, ⟨.unserviceable, 0, c.amovElem a l, []⟩)
    else if read && k.tilePoison.get e then some (l, ⟨.unserviceable, 7, c.amovElem a l, []⟩)
    else none

/-- The lane-fault trap of `AMOV`, with the lowest faulting element for its address. -/
def State.amovEnd (s : State) (c : Ctx) (bad : Failed) : Eff :=
  let low := bad.foldl (fun m x => min m x.2.addr.toNat) (2 ^ 64)
  s.afterLanes c (bad.map fun x => (x.1, { x.2 with addr := BitVec.ofNat 64 (low % 2 ^ 32) })) [] none 0 []

/-- Note who wrote a tile last (R166). -/
def State.ownTile (s : State) (core tile u : Nat) : State :=
  let ctx := (s.unit u).map UnitSt.ctx
  s.updCore core fun k => { k with tileUnit := k.tileUnit.set tile (some u), tileCtx := ctx }

def execAmovRd (y : Bool) (g : BitVec 3) (d a : BitVec 7) (f : BitVec 4) (s : State) : Out :=
  issueWord (.amovRd y g d a f) s fun c t =>
    let k := t.core c.core
    let bad := c.amovFaults k a true
    let good := c.actLanes.filter fun l => !bad.any fun x => x.1 == l
    let cyc := bankCycles (good.map fun l => (c.amovElem a l).toNat / 2)
    let words := good.map fun l => (l, [k.tiles.get (c.amovElem a l).toNat])
    let t := t.updSheaf c.id fun f => f.dropParts c.op (laneMask fun l => bad.any fun x => x.1 == l)
    let low := lowest c.act
    let words := if d.toNat < 104 then words else words.filter fun w => some w.1 == low
    let t := if good.isEmpty then t else t.updSheaf c.id fun f =>
      { f with timers := f.timers ++
          [{ due := c.now + cyc + 3, lanes := (laneMask fun l => good.contains l), dst := d, words := words, op := c.op }] }
    t.amovEnd c bad

def execAmovWr (y : Bool) (g : BitVec 3) (d a : BitVec 7) (s : State) : Out :=
  issueWord (.amovWr y g d a) s fun c t =>
    let bad := c.amovFaults (t.core c.core) a false
    let t := c.actLanes.foldl (fun (acc : State) l =>
      if bad.any fun x => x.1 == l then acc
      else
        let e := (c.amovElem a l).toNat
        (acc.updCore c.core fun k => { k with tiles := k.tiles.set e (c.r32 d l), tilePoison := k.tilePoison.set e false }).ownTile
          c.core (e / 1024) c.f.unit) t
    t.amovEnd c bad

/-- `ACVT` (R225). A tile beyond the tile count takes the emulation trap before the window of the output is looked at. DESIGN CHOICE (log 83). -/
def execAcvt (y : Bool) (g : BitVec 3) (d a : BitVec 7) (sc : Bool) (t : BitVec 5) (s : State) : Out :=
  issueWord (.acvt y g d a sc t) s fun c st =>
    let w := (c.low32 a).toNat
    let size := if t = 0 then 1024 else if t = 10 then 2048 else 1056
    if tileCount c.unit.lrec.pword ≤ d.toNat then .emul
    else match checkBlock c.unit w 64 size with
      | some k => .trap (c.blockTrap k (BitVec.ofNat 64 w)) st
      | none =>
        let m : MillWork :=
          { op := .acvt, tile := d.toNat, addr := w, target := t.toNat, sc := sc, inf := c.form.testBit 0
            tr := c.form.testBit 1, rm := c.f.rm }
        .done (st.push c .mq (.mill m) 120)

/-! ### What a Mill operation computes -/

/-- Presence mask of a row of a slot; a dense tile has every bit set (R221). -/
def Slot.rowMask (x : Slot) (r : Nat) : Nat :=
  if x.masked then leNat ((List.range 4).map fun j => x.image.get (4 * r + j)) else 2 ^ 32 - 1

/-- The code of element (r, k) of a slot (R204). -/
def Slot.code (x : Slot) (r k : Nat) : Nat :=
  let eb := if x.elem = 2 then 2 else 1
  let at_ (o : Nat) : Nat := leNat ((List.range eb).map fun j => x.image.get (o + j))
  if !x.masked then at_ (32 * eb * r + eb * k)
  else
    let below := (List.range r).foldl (fun n i => n + bitsBelow (x.rowMask i) 32) 0
    if (x.rowMask r).testBit k then at_ (maskedVals x.format + eb * (below + bitsBelow (x.rowMask r) k)) else 0

/-- Scale exponent of a row: 0 for elements that carry none (R63). -/
def Slot.scale (x : Slot) (r : Nat) : Option Int :=
  if x.elem = 0 then scaleExp (x.image.get ((if x.masked then 0x80 else 0x400) + r)) else some 0

/-- One element of an outer product: the row of A with the row of B over the positions present in both (R219, R221). -/
def blockElem (a b : Slot) (i j : Nat) (acc : Word) : Word :=
  let ks := (List.range 32).filter fun k => (a.rowMask i).testBit k && (b.rowMask j).testBit k
  if ks.isEmpty then acc
  else if a.elem = 1 then
    ks.foldl (fun (z : Word) k =>
      z + BitVec.ofInt 32 (readInt 8 true (a.code i k) * readInt 8 true (b.code j k))) acc
  else
    let va (x : Slot) (r k : Nat) : Ex := elemValue x.format x.inf (x.code r k) none
    let blk := blockDot (ks.map fun k => (va a i k).mul (va b j k)) (a.scale i) (b.scale j)
    BitVec.ofNat 32 (accumulate acc.toNat blk)

/-- Outer-product steps of a block (R221). -/
def blockSteps (a b : Slot) : Nat :=
  let union (x : Slot) : Nat := (List.range 32).foldl (fun m r => Nat.lor m (x.rowMask r)) 0
  bitsBelow (Nat.land (union a) (union b)) 32

/-- Array cycles of a dense block, and positions taken in one cycle by `MMAS` (R214). -/
def denseCycles (a b : Slot) : Nat :=
  if a.elem = 2 then 8 else if a.elem = 0 && decide (a.prec ≤ 3 ∧ b.prec ≤ 3) then 1 else 2
def stepsPerCycle (a b : Slot) : Nat :=
  if a.elem = 2 then 4 else if a.elem = 0 && decide (a.prec ≤ 3 ∧ b.prec ≤ 3) then 32 else 16

def MillOp.isProduct : MillOp → Bool
  | .mma => true
  | .mmas => true
  | .mmab => true
  | _ => false

/-- Array cycles of one block that an operation multiplies. -/
def MillWork.blockCycles (m : MillWork) (p : Slot × Slot) : Nat :=
  if m.op == .mmas then (blockSteps p.1 p.2 + stepsPerCycle p.1 p.2 - 1) / stepsPerCycle p.1 p.2 else denseCycles p.1 p.2

/-- Array cycles of an operation (R214), over the slots it reads. -/
def MillWork.cycles (m : MillWork) (read : List (Slot × Slot)) : Nat :=
  match m.op with
  | .azero => m.n
  | .acvt => 4
  | _ => if m.unfillable then 0 else read.foldl (fun n p => n + m.blockCycles p) 0

/-- The blocks still to do: all of them, or those from MSTEP.BLOCK on (R221, R236). -/
def MillWork.todo (m : MillWork) : List Nat := m.blocks.filter fun q => decide (m.block ≤ q)

/-- Of the first blocks of a panel, how many are performed when a number of array cycles has passed. -/
def MillWork.doneBy (m : MillWork) (cycles : Nat) : List (Slot × Slot) → Nat
  | [] => 0
  | p :: rest => if cycles < m.blockCycles p then 0 else 1 + m.doneBy (cycles - m.blockCycles p) rest

/-- MSTEP when a number of array cycles of an `MMAS` has passed: the steps performed so far and the next block (R221, R222). -/
def MillWork.mstepAt (m : MillWork) (cycles : Nat) : Word :=
  let n := m.doneBy cycles m.tilesRead
  let steps := (m.tilesRead.take n).foldl (fun k p => k + blockSteps p.1 p.2) m.steps
  if m.op == .mmas then BitVec.ofNat 32 (steps % 2 ^ 16 * 256 + (m.block + n) % 16) else 0

/-- Bytes of the image that a slot's tile takes (R204). -/
def Slot.used (x : Slot) : Nat :=
  let eb := if x.elem = 2 then 2 else 1
  if x.masked then maskedVals x.format + eb * (List.range 32).foldl (fun n r => n + bitsBelow (x.rowMask r) 32) 0
  else 1024 * eb + (if x.elem = 0 then 32 else 0)

/-- The tile holds words that read badly (R424). -/
def Slot.spoilt (x : Slot) : Bool := !x.poison.cells.isEmpty && (List.range ((x.used + 7) / 8)).any x.poison.get

/-- The slots of a block: the images as they stand, the descriptors as the word found them at issue (R210, R213). -/
def State.slotPair (s : State) (u : Nat) (m : MillWork) (q : Nat) : Slot × Slot :=
  let x := (s.slot u (m.aSlot + q), s.slot u (m.bSlot + q))
  match m.descs.find? fun d => d.1 == q with
  | some d => (x.1.readBy d.2.1, x.2.readBy d.2.2)
  | none => x

/-- A slot's handle allows its reader to start, and whether it is unfillable (R213, R215). -/
def State.slotReady (s : State) (u m : Nat) : Bool × Bool :=
  let x := s.slot u m
  let h := s.handle u x.handle
  let unfillable := (h.state == .full && (h.err || h.ovf)) || (h.state == .free && !s.willFill u x.handle)
  (h.state == .full || unfillable, unfillable)

/-- Apply a block to a tile. -/
def Core.multiply (k : Core) (tile : Nat) (p : Slot × Slot) : Core :=
  { k with tiles := (List.range 1024).foldl (fun acc e =>
      acc.set (1024 * tile + e) (blockElem p.1 p.2 (e / 32) (e % 32) (acc.get (1024 * tile + e)))) k.tiles }

/-- The 32 values of an output row of `ACVT`, none for poison. -/
def Core.acvtRow (k : Core) (m : MillWork) (r : Nat) : List (Option Word) :=
  (List.range 32).map fun c =>
    let e := 1024 * m.tile + (if m.tr then 32 * c + r else 32 * r + c)
    if k.tilePoison.get e then none else some (k.tiles.get e)

/-- The bytes of an output row of `ACVT`: elements, and the scale byte of a binary8 target (R225). -/
def acvtBytes (m : MillWork) (row : List (Option Word)) : List Byte × Option Byte :=
  let words := row.map fun x => x.getD 0
  if m.target = 0 then
    (words.map fun x => BitVec.ofInt 8 (intToInt (rmSat m.rm) 32 true 8 true x.toInt), none)
  else if m.target = 10 then
    (words.flatMap fun x => toBytes 2 (bf16.round m.rm (f32.decode x.toNat)), none)
  else
    let f := b8p (m.target - 16) m.inf
    if m.sc then
      let q := quantBlock f (rmMode m.rm) (words.map fun x => some (f32.decode x.toNat))
      (q.2.map (BitVec.ofNat 8), some q.1)
    else (words.map fun x => BitVec.ofNat 8 (f.round m.rm (f32.decode x.toNat)), some 0x7F)

/-- Write the image of an `ACVT`, then poison over the rows that hold a poison element, in every byte they write. -/
def State.acvt (s : State) (u core : Nat) (m : MillWork) : State :=
  let n := 32 * (if m.target = 10 then 2 else 1)
  let rows := (List.range 32).map fun r => (s.core core).acvtRow m r
  let scales := rows.filterMap fun row => (acvtBytes m row).2
  s.updUnit u fun x =>
    let x := (x.winWrite m.addr (rows.flatMap fun row => (acvtBytes m row).1)).winWrite (m.addr + 0x400) scales
    ((List.range 32).filter fun r => (rows.getD r []).any Option.isNone).foldl (fun (acc : UnitSt) r =>
      let acc := acc.winSpoil (m.addr + n * r) n
      if scales.isEmpty then acc else acc.winSpoil (m.addr + 0x400 + r) 1) x

/-- The effect of an operation at its retirement (R214, R215, R219 to R225). -/
def State.millEffect (s : State) (u core : Nat) (m : MillWork) : State :=
  match m.op with
  | .azero =>
    (List.range m.n).foldl (fun (acc : State) j => acc.ownTile core (m.tile + j) u)
      (s.updCore core fun k => { k with tiles := k.tiles.clearRange (1024 * m.tile) (1024 * (m.tile + m.n)),
                                        tilePoison := k.tilePoison.clearRange (1024 * m.tile) (1024 * (m.tile + m.n)) })
  | .acvt => s.acvt u core m
  | _ =>
    let s1 := if m.unfillable then s.updCore core fun k =>
        { k with tilePoison := (List.range 1024).foldr (fun e acc => acc.set (1024 * m.tile + e) true) k.tilePoison }
      else s.updCore core fun k => m.tilesRead.foldl (fun (acc : Core) p => acc.multiply m.tile p) k
    s1.ownTile core m.tile u

/-! ### Events of the Mill queue -/

/-- A started Mill operation of the core that reads a slot has array cycles left (R213). -/
def State.slotInUse (s : State) (core : Nat) (slots : List Nat) (id : Nat) : Bool :=
  (s.queueOf core .mq).any fun e => e.id != id && e.stage == .started && decide (s.cycleOf core + 11 < e.due) && (match e.work with
    | .mill m => m.todo.any fun q => slots.contains (m.aSlot + q) || slots.contains (m.bSlot + q)
    | _ => false)

/-- A started entry starts once. -/
def State.start (s : State) (e : Entry) (w : Work) (due : Nat) : State :=
  (s.updEntry e.id fun x => { x with stage := .started, work := w, due := due }).progress (s.jobOf e.owner.unit)

def execMbindStart (id : Nat) (s : State) : Out :=
  .next <| match s.entry id with
  | none => s
  | some e =>
    match e.work with
    | .mbind m h r rm =>
      let u := e.owner.unit
      let x := s.handle u h
      let s1 := if x.state == .full && x.lastSlot == some m then s.setHandle u h x.released else s
      if !s.mayStart e || s.slotInUse e.core [m] id || (s1.handle u h).state != .free then s
      else
        let s2 := s1.setSlot u m { s1.slot u m with handle := h }
        let dst : Layout := { base := BitVec.ofNat 64 m, elem := r.elem, store := if r.store = 3 then 3 else 2, inf := r.inf,
                              exts := [32, 32], strides := [0, 0] }
        if e.orphan then (s2.updHandle u h fun x => (x.fill (some m)).tornFree).performed e
        else (s2.updHandle u h fun x => x.fill (some m)).start e
          (.copy { route := 1, h := h, src := some r, dst := some dst, rm := rm, fetch := true }) 0
    | _ => s

def execMrelStart (id : Nat) (s : State) : Out :=
  .next <| match s.entry id with
  | none => s
  | some e =>
    match e.work with
    | .mrel n k =>
      let range := (List.range k).map (n + ·)
      if !s.mayStart e || s.slotInUse e.core range id then s
      else
        let u := e.owner.unit
        (range.foldl (fun (acc : State) m => acc.freeSlot u m) s).performed e
    | _ => s

/-- An operation whose slot holds words that read badly counts as one with an unfillable slot (R215, R424). DEDUCED (log 31). -/
def execMillOpStart (id : Nat) (s : State) : Out :=
  .next <| match s.entry id with
  | none => s
  | some e =>
    match e.work with
    | .mill m =>
      let u := e.owner.unit
      let now := s.cycleOf e.core
      let states := m.todo.flatMap fun q => [s.slotReady u (m.aSlot + q), s.slotReady u (m.bSlot + q)]
      let needs := if m.op.isProduct then states else []
      if !s.mayStart e || decide (now < (s.core e.core).millFree) || needs.any (fun r => !r.1) then s
      else
        let worn (q : Nat) : Bool := (s.slotPair u m q).1.spoilt || (s.slotPair u m q).2.spoilt
        let bad := needs.any Prod.snd || (m.op.isProduct && m.todo.any worn)
        let pairs := if bad || !m.op.isProduct then [] else m.todo.map (s.slotPair u m)
        let m := { m with unfillable := bad, tilesRead := pairs }
        let cyc := m.cycles pairs
        let s1 := s.start e (.mill m) (if cyc = 0 then now + 1 else now + cyc + 11)
        (s1.updCore e.core fun k => { k with millFree := max k.millFree (now + cyc), mstep := m.mstepAt 0 }).charge e.owner.ctx .mill cyc
    | _ => s

/-- MSTEP of each core whose array runs an `MMAS`, as a cycle of its clock finds it (R222). -/
def State.stepMills (s : State) : State :=
  s.entries.foldl (fun (acc : State) e => match e.work with
    | .mill m =>
      let now := s.cycleOf e.core
      if m.op == .mmas && e.stage == .started && !e.saved && decide (now + 11 ≤ e.due) then
        acc.updCore e.core fun k => { k with mstep := m.mstepAt (now + 11 + m.cycles m.tilesRead - e.due) }
      else acc
    | _ => acc) s

/-- The operation started first among those not retired. -/
def State.firstMill (s : State) (core : Nat) : Option Entry :=
  (s.queueOf core .mq).find? fun e => e.stage == .started && (match e.work with
    | .mill _ => true
    | _ => false)

/-- The operation that started first retires: its tile is written, and MSTEP reads 0 unless a later `MMAS` runs already (R214, R222). -/
def execMillOpRetire (id : Nat) (s : State) : Out :=
  .next <| match s.entry id with
  | none => s
  | some e =>
    match e.work with
    | .mill m =>
      if (s.firstMill e.core).map Entry.id != some id || decide (s.cycleOf e.core < e.due) then s
      else
        let later := (s.queueOf e.core .mq).any fun x => x.id != id && x.stage == .started && (match x.work with
          | .mill y => y.op == .mmas
          | _ => false)
        ((s.millEffect e.owner.unit e.core m).updCore e.core fun k => { k with mstep := if later then k.mstep else 0 }).performed e
    | _ => s

end Sys2Proof.Machine
end

