-- ==== Sys2Proof/Machine/Copy.lean ====
section
/-!
DEFINITION. Copy engines: `COPY`, `GATHER`, rings, handle words, `QFENCE`, and the events of their queues (the manual's chapter
Copy engines and storage formats).
-/
namespace Sys2Proof.Machine

/-! ### Reading records -/

/-- A record as an engine or a word finds it: malformed, off its alignment or outside, unreadable, or good. -/
inductive RecRes where
  | ok (r : Layout)
  | malformed
  | bad (cause : Nat) (addr : DWord)
  | unread (p : Poison)
  deriving Repr

/-- Read a layout record from the window at issue (R247). -/
def UnitSt.windowRecord (u : UnitSt) (a : DWord) : RecRes :=
  let w := a.toNat
  match checkBlock u w 64 64 with
  | some k => .bad k a
  | none =>
    let n := recordSize (u.winBytes w 64)
    if u.winPoisoned w 64 then .unread (u.badWords w 64)
    else if u.lrec.win < w + n then .bad 0 a
    else if u.winPoisoned w n then .unread (u.badWords w n)
    else match parseLayout (u.winBytes w n) with
      | some r => .ok r
      | none => .malformed

/-- Read a layout record at a virtual address. Of one that is off its alignment and not canonical the alignment is reported. DESIGN CHOICE
(log 83). -/
def State.virtualRecord (s : State) (ctx : Nat) (a : DWord) : RecRes :=
  if a.toNat % 64 != 0 then .bad 2 a
  else match s.readVa ctx a 64 with
    | .error p => .unread p
    | .ok b =>
      match s.readVa ctx a (recordSize b) with
      | .error p => .unread p
      | .ok b => match parseLayout b with
        | some r => .ok r
        | none => .malformed

/-- An endpoint record from its 64 bytes; none on a reserved value (R392). -/
def parseEndpoint (b : List Byte) : Option Endpoint :=
  let at4 (o : Nat) : Nat := leNat ((b.drop o).take 4)
  let len := at4 0x0C
  if len = 0 ∨ 2 ^ 31 < len ∨ 2 ^ 24 ≤ at4 0x10 ∨ (b.drop 0x14).any (· != 0) then none
  else some { raddr := BitVec.ofNat 64 (leNat (b.take 8)), rkey := BitVec.ofNat 32 (at4 8), len := len, qpn := at4 0x10 }

/-- Kinds of the two sides of a route (R245): 0 virtual, 1 window, 2 slot, 3 endpoint. -/
def routeSides (route : Nat) : Nat × Nat :=
  match route with
  | 0 => (0, 1)
  | 1 => (0, 2)
  | 2 => (1, 0)
  | 3 => (0, 0)
  | 4 => (1, 1)
  | 5 => (1, 2)
  | 6 => (0, 3)
  | _ => (3, 0)

/-- A slot side's record is a 32 × 32 `tile` or `tilemask` whose BASE is a slot number (R238, R247). -/
def Layout.slotRecord (r : Layout) : Bool := r.isTile && decide (r.base.toNat < 32)

/-- The local record of a network copy: plain, dense, unscaled, with as many bytes as the endpoint says (R392). -/
def Layout.denseBytes (r : Layout) : Bool :=
  r.store == 0 && r.scale == 0 &&
  ((List.range r.nd).foldl (fun (acc : Bool × Nat) k =>
    (acc.1 && r.str k == BitVec.ofNat 64 acc.2, acc.2 * r.ext k)) (true, elemBytes r.elem)).1
def endpointFits (r : Layout) (e : Endpoint) : Bool := r.denseBytes && r.count * elemBytes r.elem == e.len

/-- The two records of a copy agree (R243, R247, R392). -/
def CopyWork.agrees (c : CopyWork) : Bool :=
  match c.src, c.dst, c.endpoint with
  | some a, some b, none => a.count == b.count && ((routeSides c.route).2 != 2 || b.slotRecord)
  | some a, none, some e => endpointFits a e
  | none, some b, some e => endpointFits b e
  | _, _, _ => false

/-! ### `COPY` (R245 to R250) -/

/-- A copy block's fields (R246). -/
structure CopyBlock where
  srec : DWord
  drec : DWord
  mcmd : Word
  mimm : Option (BitVec 24)
  limit : Nat
  rsp : Bool
  ff : Nat
  sh : Option Nat

/-- Read a copy block; none on a reserved value. -/
def parseCopyBlock (b : List Byte) : Option CopyBlock :=
  let at4 (o : Nat) : Nat := leNat ((b.drop o).take 4)
  let x := at4 0x14
  let w := at4 0x1C
  let ff := w / 2 ^ 8 % 16
  if 2 ^ 25 ≤ x ∨ 2 ^ 13 ≤ w ∨ (12 ≤ ff ∧ ff ≤ 14) then none
  else some { srec := BitVec.ofNat 64 (leNat (b.take 8)), drec := BitVec.ofNat 64 (leNat ((b.drop 8).take 8)),
              mcmd := BitVec.ofNat 32 (at4 0x10), mimm := if x.testBit 24 then some (BitVec.ofNat 24 x) else none,
              limit := at4 0x18, rsp := w.testBit 12, ff := ff, sh := if w.testBit 7 then some (w % 128) else none }

/-- What reading the records at issue gives: the copy with the records read, or how the word ends. -/
inductive IssueRec where
  | ok (c : CopyWork)
  | emul
  | trap (cause : Nat) (addr : DWord)
  | serve (p : Poison)

/-- Put one record that was read into a copy. -/
def CopyWork.with (c : CopyWork) (isSrc : Bool) (r : RecRes) : IssueRec :=
  match r with
  | .ok l => .ok (if isSrc then { c with src := some l } else { c with dst := some l })
  | .malformed => .emul
  | .bad k a => .trap k a
  | .unread p => if p.serviceable then .serve p else .trap p.cause p.addr

/-- An endpoint record read from the window at issue. -/
def CopyWork.withEndpoint (c : CopyWork) (u : UnitSt) (a : DWord) : IssueRec :=
  match checkBlock u a.toNat 64 64 with
  | some k => .trap k a
  | none =>
    if u.winPoisoned a.toNat 64 then .serve (u.badWords a.toNat 64)
    else match parseEndpoint (u.winBytes a.toNat 64) with
      | some e => .ok { c with endpoint := some e }
      | none => .emul

def IssueRec.bind (x : IssueRec) (f : CopyWork → IssueRec) : IssueRec :=
  match x with
  | .ok c => f c
  | y => y

/-- Read what R247 has a `COPY` read at its issue. -/
def State.copyRecords (s : State) (u : UnitSt) (b : CopyBlock) (c : CopyWork) : IssueRec :=
  let sides := routeSides c.route
  if b.rsp then
    ((if sides.1 = 3 then c.withEndpoint u b.srec else c.with true (u.windowRecord b.srec)).bind fun c =>
      if sides.2 = 3 then c.withEndpoint u b.drec else c.with false (u.windowRecord b.drec)).bind fun c =>
      if c.agrees then .ok c else .emul
  else if sides.2 = 2 then
    (c.with false (s.virtualRecord u.ctx b.drec)).bind fun c =>
      if (c.dst.map Layout.slotRecord).getD false then .ok c else .emul
  else .ok c

/-- Write the descriptor of a copy's slot (R248); none where the unit has not claimed it. -/
def State.describeSlot (s : State) (u : Nat) (r : Layout) (h : Nat) : Option State :=
  let x := s.slot u (r.base.toNat % 32)
  if x.claim = some u then some (s.setSlot u (r.base.toNat % 32) { x.describe r (r.store == 3) with handle := h }) else none

/-- Put a follow-on Mill word into `mq` with its own flag (R250). DEDUCED (log 41). -/
def State.followOn (s : State) (c : Ctx) (b : CopyBlock) : Option State :=
  match decode b.mcmd with
  | .error _ => none
  | .ok i =>
    let sh := shape i 0 b.mimm.isSome
    if sh.y || sh.guard != 7 || !sh.fields then none
    else match s.millWork c.f.unit i 0 b.mimm with
      | none => none
      | some m =>
        let (op, s1) := s.take
        let s2 := s1.updSheaf c.id fun f => f.raise op b.ff c.act
        some (s2.addEntry { queue := .mq, core := c.core, owner := { c.owner 120 with op := op }, work := .mill m,
                             issued := c.now })

def execCopy (y : Bool) (g : BitVec 3) (h a : BitVec 7) (q : BitVec 3) (m : Bool) (r : BitVec 3) (s : State) : Out :=
  issueWord (.copy y g h a q m r) s fun c t =>
    let u := t.unitOf c.f
    let w := (c.low32 a).toNat
    match c.block s t u w 32 32 with
    | some x => x
    | none =>
      match parseCopyBlock (u.winBytes w 32) with
      | none => .emul
      | some b =>
        let own (x : Nat) : Bool := u.lrec.handles.contains x
        if !own h.toNat || !(b.sh.all own) then .emul
        else
          let base : CopyWork := { route := r.toNat, h := h.toNat, sh := b.sh, srec := b.srec, drec := b.drec,
                                   limit := b.limit, rm := c.f.rm }
          match t.copyRecords u b base with
          | .emul => .emul
          | .trap k ad => .trap (c.blockTrap k ad) t
          | .serve p => c.serve s t p
          | .ok cw =>
            let described := if (routeSides r.toNat).2 = 2 then cw.dst.bind fun d => t.describeSlot c.f.unit d h.toNat
                             else some t
            match described with
            | none => .emul
            | some t =>
              let t := t.push c (cqName q.toNat) (.copy cw) 120
              if !m then .done t
              else if flagFull ((t.sheaf c.id).getD c.f) b.ff c.act then .hold s
              else match t.followOn c b with
                | some t => .done t
                | none => .emul

/-! ### `GATHER` (R253) -/

def execGather (y : Bool) (g : BitVec 3) (h a : BitVec 7) (s : State) : Out :=
  issueWord (.gather y g h a) s fun c t =>
    let u := t.unitOf c.f
    let w := (c.low32 a).toNat
    match c.block s t u w 32 32 with
    | some x => x
    | none =>
      let v (o n : Nat) : Nat := u.winValue (w + o) n
      let ctl := v 0x14 4
      let dsp := ctl / 8 % 4
      let count := v 0x10 4
      if 32 ≤ ctl ∨ dsp = 3 ∨ 2 ≤ ctl % 4 ∨ v 0x18 8 ≠ 0 ∨ count = 0 ∨ !u.lrec.handles.contains h.toNat then .emul
      else
        let ra := u.windowRecord (BitVec.ofNat 64 (v 0 4))
        let rd := u.windowRecord (BitVec.ofNat 64 (v 4 4))
        match ra, rd with
        | .bad k ad, _ => .trap (c.blockTrap k ad) t
        | _, .bad k ad => .trap (c.blockTrap k ad) t
        | .unread p, _ => c.serve s t p
        | _, .unread p => c.serve s t p
        | .ok A, .ok D =>
          let per := A.count / A.exts.getLastD 1
          if D.count ≠ count * per ∨ (dsp = 1 ∧ !D.slotRecord) then .emul
          else
            let described := if dsp = 1 then t.describeSlot c.f.unit D h.toNat else some t
            match described with
            | none => .emul
            | some t => .done (t.push c .gq (.gather
                { h := h.toNat, table := A, dst := D, dsp := dsp, idx := BitVec.ofNat 64 (v 8 8), count := count,
                  isp := ctl.testBit 2, wide := ctl % 4 == 1, rm := c.f.rm }) 120)
        | _, _ => .emul

/-! ### Rings (R255 to R257) -/

def execStream (y : Bool) (g : BitVec 3) (a : BitVec 7) (s : State) : Out :=
  issueWord (.stream y g a) s fun c t =>
    let u := t.unitOf c.f
    let w := (c.low32 a).toNat
    match c.block s t u w 32 32 with
    | some x => x
    | none =>
      let v (o : Nat) : Nat := u.winValue (w + o) 4
      let ctl := v 0x10
      let q := ctl / 2 ^ 20 % 8
      let selem := ctl / 2 ^ 14 % 32
      let h0 := ctl / 2 ^ 7 % 128
      let n := ctl % 128
      let chunk := v 0x0C
      let handles := (List.range n).map (h0 + ·)
      let rest := u.winBytes (w + 0x14) 12
      if 2 ^ 23 ≤ ctl ∨ 4 ≤ q ∨ selem = 16 ∨ selem = 24 ∨ n = 0 ∨ 32 < n ∨ 128 < h0 + n ∨ chunk = 0
          ∨ v 0x08 % 128 ≠ 0 ∨ v 0x08 < chunk * elemBytes selem ∨ v 0x04 % 128 ≠ 0 ∨ rest.any (· != 0)
          ∨ handles.any (fun h => !u.lrec.handles.contains h || (t.handle c.f.unit h).state != .free) then .emul
      else match u.windowRecord (BitVec.ofNat 64 (v 0)) with
        | .bad k ad => .trap (c.blockTrap k ad) t
        | .unread p => c.serve s t p
        | .ok r => .done (t.push c (cqName q) (.ring
            { layout := r, slot0 := v 0x04, slotB := v 0x08, chunk := chunk, drain := ctl.testBit 19, selem := selem, h0 := h0,
              n := n, rm := c.f.rm }) 120)
        | _ => .emul

/-- The drain ring of a unit that a handle belongs to. -/
def State.drainRing (s : State) (u h : Nat) : Option (Entry × RingWork) :=
  s.entries.findSome? fun e => match e.work with
    | .ring r => if e.owner.unit == u && r.drain && decide (r.h0 ≤ h ∧ h < r.h0 + r.n) then some (e, r) else none
    | _ => none

/-- Chunks of a ring that use its slot `k`. -/
def RingWork.chunksOf (r : RingWork) (k : Nat) : Nat := (r.total + (r.n - 1 - k)) / r.n

def execStreamPost (y : Bool) (g : BitVec 3) (h : BitVec 7) (s : State) : Out :=
  issueWord (.streamPost y g h) s fun c t =>
    match t.drainRing c.f.unit h.toNat with
    | none => .emul
    | some (e, r) =>
      let k := h.toNat - r.h0
      if (t.handle c.f.unit h.toNat).state != .free then .trap (idleTrap c.word c.pc c.act h.toNat 4) t
      else if r.chunksOf k ≤ r.posts.get k then .trap (idleTrap c.word c.pc c.act h.toNat 0) t
      else
        let t := t.updHandle c.f.unit h.toNat fun x => { x with state := .full }
        .done (t.updEntry e.id fun x => { x with work := .ring { r with posts := r.posts.modify k (· + 1) } })

/-! ### Handle words (R174) -/

/-- A wait tests its handle at once, and holds its lanes while the answer stands out. -/
def hwaitWord (i : Instr) (h : Nat) (full : Bool) (s : State) : Out :=
  issueWord i s fun c t =>
    if !c.unit.lrec.handles.contains h then .emul
    else match t.waitTest c.f.unit h full with
      | .go => .done t
      | .stay => .done (t.holdLanes c c.act (.hwait full h))
      | .trap k => .trap (idleTrap c.word c.pc c.act h k) t

def execHwaitFree (y : Bool) (g : BitVec 3) (h : BitVec 7) (s : State) : Out := hwaitWord (.hwaitFree y g h) h.toNat false s
def execHwaitFull (y : Bool) (g : BitVec 3) (h : BitVec 7) (s : State) : Out := hwaitWord (.hwaitFull y g h) h.toNat true s

/-- Of two `HREL` words on one handle in one cycle the second has no effect (R177). -/
def execHrel (y : Bool) (g : BitVec 3) (h : BitVec 7) (s : State) : Out :=
  issueWord (.hrel y g h) s fun c t =>
    let x := t.handle c.f.unit h.toNat
    if !c.unit.lrec.handles.contains h.toNat then .emul
    else if x.relAt = some c.now then .done t
    else if x.state == .filling || x.state == .draining then .trap (idleTrap c.word c.pc c.act h.toNat 4) t
    else .done (t.setHandle c.f.unit h.toNat { x.released with relAt := some c.now })

def HState.code : HState → Nat
  | .free => 0
  | .filling => 1
  | .full => 2
  | .draining => 3

/-- Status word of `HSTAT` (R175). -/
def Handle.status (h : Handle) : Word :=
  BitVec.ofNat 32 (h.state.code + (if h.err then 4 else 0) + (if h.torn then 8 else 0) + (if h.ovf then 16 else 0))

def execHstat (y : Bool) (g : BitVec 3) (d h : BitVec 7) (s : State) : Out :=
  issueWord (.hstat y g d h) s fun c t =>
    let x := t.handle c.f.unit h.toNat
    if !c.unit.lrec.handles.contains h.toNat then .emul
    else
      let (k, t) := t.freeCycles
      .done (t.later c k d (c.each [x.status, BitVec.ofNat 32 x.size]))

/-- One fence entry in every named queue, under one name (R252). -/
def execQfence (y : Bool) (g : BitVec 3) (m : BitVec 2) (k : BitVec 7) (s : State) : Out :=
  issueWord (.qfence y g m k) s fun c t =>
    .done ((fenceQueues (m.toNat * 128 + k.toNat)).foldl (fun (acc : State) q => acc.push c q (.fence c.op) 120) t)

/-! ### Performing a copy -/

/-- Elements obtained so far, to be kept when the slow path takes the rest (R258). -/
def gotOf (els : List Elem) : List (Nat × Nat × Option Byte) :=
  ((List.range els.length).zip els).filterMap fun x => match x.2.get with
    | .ok c => some (x.1, c.1, c.2)
    | .error _ => none

/-- Elements as they are now read, in place of which those obtained before stand. -/
def overlay (els : List Elem) (got : List (Nat × Nat × Option Byte)) : List Elem :=
  if got.isEmpty then els
  else ((List.range els.length).zip els).map fun x => match got.find? fun y => y.1 == x.1 with
    | some y => { code := .ok y.2.1, scale := .ok y.2.2 }
    | none => x.2

/-- The first condition of elements that the slow path may serve: one that a stream does not hold is none (R259). -/
def firstCond (els : List Elem) : Option Poison :=
  els.findSome? fun x => match x.get with
    | .error p => if p == lacking then none else some p
    | .ok _ => none

/-- The two sides of a copy as tensors in their spaces. -/
def CopyWork.sides (c : CopyWork) (e : Entry) : Side × Side :=
  let k := routeSides c.route
  (e.side k.1 (c.src.getD {}), e.side k.2 (c.dst.getD {}))

/-- What a transfer did: the state, the size, whether the output overflowed, and the first condition met. -/
structure Moved where
  s : State
  size : Nat := 0
  ovf : Bool := false
  cond : Option Poison := none
  /-- The condition that writing the destination meets. -/
  stop : Option Poison := none

/-- Move a tensor from one side to another (R243). With `last` false nothing is written when a condition is met. -/
def State.move (s : State) (src dst : Side) (limit : Nat) (rm : Word) (els : List Elem) (last : Bool) : Moved :=
  let f := formElems src.lay dst.lay rm els
  let o := emit dst limit f
  let stop := s.outFault dst o
  let cond := f.fault <|> stop
  if cond.isSome && !last then { s := s, cond := cond, stop := stop }
  else { s := s.putOutput dst o, size := o.size, ovf := o.ovf, cond := cond, stop := stop }

/-- Bytes that a tensor takes in its storage format (R239 to R242). -/
def State.sideBytes (s : State) (d : Side) : Nat :=
  let r := d.lay
  let eb := elemBytes r.elem
  let blocks := r.count / 32
  match r.store with
  | 0 => r.count * eb + (if r.scale = 2 then blocks else 0)
  | 1 => blocks * (4 * codeBits r.elem + 1)
  | 2 => r.count * eb + (if 17 ≤ r.elem then 32 else 0)
  | 3 => maskedVals r.elem + eb * ((List.range 32).foldl (fun n k => n + (match s.sideRead d (d.base + BitVec.ofNat 64 (4 * k)) 4 with
      | .ok m => bitsBelow m 32
      | .error _ => 32)) 0)
  | 4 => r.count / (32 * (if r.elem = 10 then 2 else 4)) * 128
  | _ => match s.sideRead d d.base 4 with
    | .ok n => n
    | .error _ => 16

/-- Charge the bytes of a tensor in memory by the page of its first byte: to HBM those read or written there, to the fabric those
sent to a peer (R375). DESIGN CHOICE (log 67). -/
def State.chargeBytes (s : State) (d : Side) (sent : Bool) (n : Nat) : State :=
  if d.kind != 0 then s
  else match s.translateNow d.ctx d.base .read with
    | .ok k _ => s.chargeKey d.ctx k sent n
    | _ => s

/-- Charge an entry's bytes and the engine's cycles (R260, R375). -/
def State.chargeMove (s : State) (src dst : Side) (read written : Nat) : State :=
  let (k, s) := s.freeCycles
  ((s.chargeBytes src false read).chargeBytes dst true written).charge src.ctx .copy k

/-- A copy ends: handles change together with the flag (R249); a node's copy changes no handle (R380). -/
def State.endCopy (s : State) (e : Entry) (c : CopyWork) (m : Moved) : State :=
  let u := e.owner.unit
  let nodeJob (n : Nat) : Nat := (((s.node n).bind fun x => s.phase x.phase).map Phase.job).getD 0
  let s1 := match m.cond, c.node with
    | some p, some n => s.report { typ := 4, cause := p.cause, ctx := e.owner.ctx, job := nodeJob n, addr := p.addr,
                                   info := ((s.node n).map Node.index).getD 0 }
    | some p, none => s.reportEntry e.owner c.h p.cause p.addr
    | none, _ => s
  let s2 := if c.node.isSome then s1.progress (nodeJob (c.node.getD 0)) else
    let s1 := s1.updHandle u c.h fun x => x.fullWith m.size m.cond.isSome m.ovf
    match c.sh with
    | some h => s1.updHandle u h fun x => x.drained (((c.src.map fun r => r.count * elemBytes r.elem)).getD 0)
    | none => s1
  s2.performed e

/-- The copy of a copy node, from its block; `emul` where the block breaks R380. No word issues it, so it samples no `RM`: it rounds under
RM 0. DESIGN CHOICE (log 77). -/
def State.nodeBlock (s : State) (ctx : Nat) (a : DWord) (n : Nat) : IssueRec :=
  if a.toNat % 32 != 0 then .emul
  else match s.readVa ctx a 32 with
    | .error p => .serve p
    | .ok b => match parseCopyBlock b with
      | none => .emul
      | some k =>
        let route := (k.mcmd.extractLsb' 0 3).toNat
        if k.rsp || k.sh.isSome || !(route == 3 || route == 6 || route == 7) || k.mcmd.getLsbD 3 then .emul
        else .ok { route := route, srec := k.srec, drec := k.drec, limit := k.limit, rm := 0, node := some n }

/-- Read what is still to be read at a copy's start: a node's block (R380), and records at virtual addresses (R247). -/
def State.startRecords (s : State) (ctx : Nat) (c : CopyWork) : IssueRec :=
  let getEnd (c : CopyWork) (a : DWord) : IssueRec :=
    if a.toNat % 64 != 0 then .trap 2 a
    else match s.readVa ctx a 64 with
      | .error p => .serve p
      | .ok b => match parseEndpoint b with
        | some e => .ok { c with endpoint := some e }
        | none => .emul
  let get (c : CopyWork) (isSrc : Bool) (a : DWord) : IssueRec :=
    match s.virtualRecord ctx a with
    | .unread p => .serve p
    | r => c.with isSrc r
  let records (c : CopyWork) : IssueRec :=
    let sides := routeSides c.route
    ((if sides.1 = 3 then (if c.endpoint.isSome then .ok c else getEnd c c.srec)
      else if c.src.isSome then .ok c else get c true c.srec).bind fun c =>
      if sides.2 = 3 then (if c.endpoint.isSome then .ok c else getEnd c c.drec)
      else if c.dst.isSome then .ok c else get c false c.drec).bind fun c =>
      if c.agrees then .ok c else .emul
  match c.block with
  | some a => (s.nodeBlock ctx a (c.node.getD 0)).bind records
  | none => records c

/-- The queue pair of a network copy belongs to the context (R392). -/
def State.ownsPair (s : State) (ctx : Nat) (c : CopyWork) : Bool :=
  match c.endpoint with
  | none => true
  | some e => ((s.context ctx).map fun x => x.qps.contains e.qpn).getD false

/-- Carry a started copy on: to its end, or into the slow path. Network copies wait for the network. DESIGN CHOICE (log 26). -/
def State.runCopy (s : State) (e : Entry) (c : CopyWork) (last : Bool) : State :=
  let fail (cause : Nat) (a : DWord) : State := s.endCopy e c { s := s, cond := some ⟨.unserviceable, cause, a, []⟩ }
  match s.startRecords e.owner.ctx c with
  | .emul => fail 0 0
  | .trap k a => fail k a
  | .serve p => if last then fail p.cause p.addr else s.updEntry e.id fun x => { x with stage := .slow }
  | .ok c =>
    let (src, dst) := c.sides e
    let s1 := s.updEntry e.id fun x => { x with work := .copy c }
    if c.endpoint.isSome then
      (if !s.ownsPair e.owner.ctx c then fail 1 0
       else
        let cond := if c.route = 6 then (s.sideElems src).findSome? (fun x => match x.get with
            | .error p => some p
            | .ok _ => none)
          else (addrsOf dst.base (dst.lay.count * elemBytes dst.lay.elem)).findSome? (s.sideMeets dst)
        match cond with
        | some p => if last then fail p.cause p.addr else s1.updEntry e.id fun x => { x with stage := .slow }
        | none => s1.updEntry e.id fun x => { x with stage := .started })
    else
      let els := overlay (s.sideElems src) c.got
      let m := s1.move src dst c.limit c.rm els true
      if !last && (firstCond els <|> m.stop).isSome then
        s.updEntry e.id fun x => { x with work := .copy { c with got := gotOf els }, stage := .slow }
      else (m.s.chargeMove src dst (s.sideBytes src) m.size).endCopy e c
        (if s.sidePrefix src && m.cond.isNone then { m with cond := some lacking } else m)

/-! ### Performing a gather (R253, R254) -/

def GatherWork.rows (g : GatherWork) : Nat := g.table.exts.getLastD 1
def GatherWork.per (g : GatherWork) : Nat := g.table.count / g.rows

/-- Index `i` of a gather. -/
def State.gatherIndex (s : State) (o : Owner) (g : GatherWork) (i : Nat) : Except Poison Nat :=
  let isz := if g.wide then 8 else 4
  s.sideRead { kind := if g.isp then 1 else 0, ctx := o.ctx, unit := o.unit } (g.idx + BitVec.ofNat 64 (isz * i)) isz

/-- The source elements of a gather in destination order; a row past the table is poison, and at the last so is one whose
peer stays unreachable (R254). -/
def State.gatherElems (s : State) (o : Owner) (g : GatherWork) (last : Bool) : List Elem :=
  let A : Side := { kind := 0, ctx := o.ctx, unit := o.unit, lay := g.table }
  let len := s.sideRead A A.base 4
  (List.range g.count).flatMap fun i =>
    match s.gatherIndex o g i with
    | .error p => List.replicate g.per { code := .error p }
    | .ok j =>
      if g.rows ≤ j then List.replicate g.per { code := .error ⟨.uncorrected, 0, 0, []⟩ }
      else (List.range g.per).map fun k =>
        if g.table.isStream then (match len with
          | .ok n => s.streamElem A n (j * g.per + k)
          | .error p => { code := .error p })
        else
          let x := s.sideElem A (j * g.per + k)
          match x.code with
          | .error p => if last && p.cause == 5 then { x with code := .error { p with kind := .uncorrected } } else x
          | .ok _ => x

/-- The first index past the table. DESIGN CHOICE (log 37). -/
def State.gatherBad (s : State) (o : Owner) (g : GatherWork) : Option (Nat × Nat) :=
  (List.range g.count).findSome? fun i => match s.gatherIndex o g i with
    | .ok j => if g.rows ≤ j then some (i, j) else none
    | .error _ => none

/-- The two sides of a gather. -/
def GatherWork.sides (g : GatherWork) (e : Entry) : Side × Side :=
  (e.side 0 g.table, e.side (if g.dsp = 0 then 1 else if g.dsp = 1 then 2 else 0) g.dst)

/-- Elements of rows past the table are poison and no condition. -/
def gatherCond (els : List Elem) : Option Poison :=
  els.findSome? fun x => match x.get with
    | .error p => if p == lacking || (p.kind == .uncorrected && p.cause == 0) then none else some p
    | .ok _ => none

/-- Carry a started gather on: to its end, or into the slow path with the rows that have arrived kept (R254, R258). -/
def State.runGather (s : State) (e : Entry) (g : GatherWork) (last : Bool) : State :=
  let o := e.owner
  let (src, dst) := g.sides e
  let bad := s.gatherBad o g
  let els := overlay (s.gatherElems o g last) g.got
  let m := s.move { src with lay := { g.table with exts := [g.count * g.per] } } dst 0 g.rm els true
  let cond := gatherCond els <|> m.stop
  if cond.isSome && !last then s.updEntry e.id fun x => { x with work := .gather { g with got := gotOf els }, stage := .slow }
  else
    let isz := if g.wide then 8 else 4
    let s1 := (m.s.chargeMove src dst (s.sideBytes src * g.count / max g.rows 1) m.size).chargeBytes
      { src with kind := if g.isp then 1 else 0, lay := { base := g.idx } } false (g.count * isz)
    let s2 := match bad with
      | some (i, j) => s1.reportEntry o g.h 0 (BitVec.ofNat 64 (i * 2 ^ 32 + j % 2 ^ 32))
      | none => s1
    let s3 := match cond with
      | some p => s2.reportEntry o g.h p.cause p.addr
      | none => s2
    (s3.updHandle o.unit g.h fun x => x.fullWith m.size (bad.isSome || cond.isSome || s.sidePrefix src) m.ovf).performed e

/-! ### Performing a ring's chunks (R256) -/

/-- The window side of a chunk. -/
def RingWork.slotSide (r : RingWork) (e : Entry) (c n : Nat) : Side :=
  e.side 1 { base := BitVec.ofNat 64 (r.slot0 + c % r.n * r.slotB), elem := r.selem, store := 0, inf := r.layout.inf,
             exts := [n], strides := [BitVec.ofNat 64 (elemBytes r.selem)] }
def RingWork.length (r : RingWork) (c : Nat) : Nat := min r.chunk (r.layout.count - c * r.chunk)

/-- An element that a ring holds: number, code (none for poison), scale. -/
abbrev HeldElem := Nat × Option Nat × Option Byte

def Elem.held (x : Elem) (n : Nat) : HeldElem := match x.get with
  | .ok c => (n, some c.1, c.2)
  | .error _ => (n, none, none)
def heldElem (x : HeldElem) : Elem := match x.2.1 with
  | some c => { code := .ok c, scale := .ok x.2.2 }
  | none => { code := .error lacking }

/-- How many elements of a drained tensor are written together: one, a scaled block, or all where the storage format compacts them,
whose image is written with the last chunk. DESIGN CHOICE (log 79). -/
def RingWork.grain (r : RingWork) : Nat :=
  if 3 ≤ r.layout.store then r.layout.count else if r.layout.scaled then 32 else 1

/-- What drained elements let be written: the output of every group that is complete, and the elements that wait for others. -/
def RingWork.drainOutput (r : RingWork) (mem : Side) (slot : Layout) (els : List HeldElem) : Output × List HeldElem :=
  let form (l : List HeldElem) : Formed := formElems slot mem.lay r.rm (l.map heldElem)
  if r.grain = 1 then (emitGroup mem ((els.head?.map Prod.fst).getD 0) (form els), [])
  else
    let groups := (els.map fun x => x.1 / r.grain).eraseDups
    let group (g : Nat) : List HeldElem := (List.range r.grain).filterMap fun k => els.find? fun x => x.1 == g * r.grain + k
    let full := groups.filter fun g => (group g).length == r.grain
    (full.foldl (fun (o : Output) g =>
      o.append (if 3 ≤ r.layout.store then emit mem 0 (form (group g)) else emitGroup mem (g * r.grain) (form (group g)))) {},
     els.filter fun x => !full.contains (x.1 / r.grain))

/-- A started ring with no chunk running and none that can start makes no progress (R262). -/
def State.ringStuck (s : State) (u : Nat) (r : RingWork) : Bool :=
  r.running.isEmpty && (List.range r.n).all fun k =>
    decide (r.total ≤ r.chunkAt k) || (s.handle u (r.h0 + k)).state != (if r.drain then .full else .free)

/-- An entry goes with the image of its saved unit, which names no core (R262, R369). -/
def Entry.leave (e : Entry) : Entry := { e with saved := true, core := 0, issued := 0 }

/-- A ring that can make no progress goes with its unit's image, and releases its engine; those of the unit that are queued behind it go
with it, so that none starts before it is performed (R262). -/
def State.leaveRing (s : State) (e : Entry) : State :=
  let behind (x : Entry) : Bool :=
    x.owner.unit == e.owner.unit && x.queue == e.queue && x.core == e.core && x.stage == .queued && decide (e.id < x.id)
  { s with entries := s.entries.map fun x =>
      if x.id == e.id then { x.leave with stage := .queued } else if behind x then x.leave else x }

/-- A ring of a saved unit that can make no progress is saved with its chunks (R262). -/
def State.parkRing (s : State) (id : Nat) : State :=
  match s.entry id with
  | none => s
  | some e =>
    match e.work with
    | .ring r =>
      if e.stage == .started && ((s.unit e.owner.unit).any fun x => x.stage == .saved) && s.ringStuck e.owner.unit r then s.leaveRing e
      else s
    | _ => s

/-- Carry one running chunk to its end, or into the slow path. -/
def State.runChunk (s : State) (e : Entry) (r : RingWork) (c : Nat) (last : Bool) : State :=
  let o := e.owner
  let n := r.length c
  let lo := c * r.chunk
  let win := r.slotSide e c n
  let mem := e.side 0 r.layout
  let mine (x : HeldElem) : Bool := decide (lo ≤ x.1 ∧ x.1 < lo + n)
  let got := (r.held.filter mine).filterMap fun x => x.2.1.map fun k => (x.1 - lo, k, x.2.2)
  let els := overlay (if r.drain then s.sideElems win else ((s.sideElems mem).drop lo).take n) got
  let kept := r.held.filter fun x => !mine x
  let all := kept ++ ((List.range n).zip els).map fun x => x.2.held (lo + x.1)
  let (out, rest) := if r.drain then r.drainOutput mem win.lay all else ({}, [])
  let m : Moved := if r.drain then
      { s := s.putOutput mem out, size := n * elemBytes r.selem, ovf := out.ovf, cond := firstCond els <|> s.outFault mem out
        stop := s.outFault mem out }
    else s.move mem win 0 r.rm els true
  if !last && (firstCond els <|> m.stop).isSome then
    s.updEntry e.id fun x =>
      { x with work := .ring { r with held := kept ++ (gotOf els).map fun y => (lo + y.1, some y.2.1, y.2.2) }, stage := .slow }
  else
    let h := r.h0 + c % r.n
    let part := s.sideBytes mem * n / max r.layout.count 1
    let s1 := if r.drain then m.s.chargeMove win mem 0 part else m.s.chargeMove mem win part 0
    let s2 := match m.cond with
      | some p => s1.reportEntry o h p.cause p.addr
      | none => s1
    let s3 := if r.drain then s2.updHandle o.unit h fun x => x.drained m.size
              else s2.updHandle o.unit h fun x => x.fullWith m.size m.cond.isSome m.ovf
    let r' := { r with running := r.running.erase c, done := r.done + 1, held := if r.drain then rest else kept }
    let s4 := (s3.updEntry e.id fun x => { x with work := .ring r', stage := .started }).progress (s.jobOf o.unit)
    if r'.total ≤ r'.done then s4.performed e else s4.parkRing e.id

/-! ### Culls (R235, R261) -/

/-- The lines of an output that a copy which stops at its next 128-byte line has written: a free number of them, in their order, without
the header of a stream (R261). DESIGN CHOICE (log 79). -/
def State.partLines (s : State) (d : Side) (o : Output) : Output × Nat × Nat :=
  let line (a : DWord) : Nat := a.toNat / 128
  let head (a : DWord) : Bool := d.lay.isStream && decide (d.base.toNat ≤ a.toNat ∧ a.toNat < d.base.toNat + 16)
  let cells := o.cells.filter fun c => !head c.1 && !o.poison.contains c.1
  let lines := (cells.map fun c => line c.1).eraseDups
  let keep := lines.take ((Config.freeWord s.free).toNat % (lines.length + 1))
  ({ cells := cells.filter fun c => keep.contains (line c.1) }, keep.length, lines.length)

/-- What stands written of a move that is stopped; its bytes are charged as far as it has come (R260, R375). -/
def State.partMove (s : State) (src dst : Side) (read : Nat) (o : Output) : State :=
  let (part, done, all) := s.partLines dst o
  let t : State := ({ s with free := s.free + 1 }).putOutput dst part
  t.chargeMove src dst (read * done / max all 1) part.cells.length

/-- Bytes that a peer has sent and the model does not know. -/
def State.freeBytes (s : State) (n : Nat) : List Byte := (List.range n).map fun k => (Config.freeWord (s.free + 1 + k)).setWidth 8

/-- A stopped copy; of a read from the network, the lines that had been received (R261, R393). -/
def State.partCopy (s : State) (e : Entry) (c : CopyWork) : State :=
  let (src, dst) := c.sides e
  match c.src, c.dst, c.endpoint with
  | some _, some _, none =>
    s.partMove src dst (s.sideBytes src) (emit dst c.limit (formElems src.lay dst.lay c.rm (overlay (s.sideElems src) c.got)))
  | none, some _, some p =>
    let cells := (addrsOf dst.base p.len).zip (s.freeBytes p.len)
    let t := s.partMove src dst 0 { cells := cells }
    { t with free := t.free + p.len }
  | _, _, _ => s

def State.partGather (s : State) (e : Entry) (g : GatherWork) : State :=
  let (src, dst) := g.sides e
  s.partMove src dst (s.sideBytes src * g.count / max g.rows 1) (emit dst 0 (formElems
    { g.table with exts := [g.count * g.per] } dst.lay g.rm (overlay (s.gatherElems e.owner g false) g.got)))

def State.partChunk (s : State) (e : Entry) (r : RingWork) (c : Nat) : State :=
  let n := r.length c
  let win := r.slotSide e c n
  let mem := e.side 0 r.layout
  if r.drain then
    s.partMove win mem 0 (r.drainOutput mem win.lay
      (r.held ++ ((List.range n).zip (s.sideElems win)).map fun x => x.2.held (c * r.chunk + x.1))).1
  else s.partMove mem win (s.sideBytes mem * n / max r.layout.count 1)
    (emit win 0 (formElems mem.lay win.lay r.rm (((s.sideElems mem).drop (c * r.chunk)).take n)))

/-- What becomes of an entry whose every owner has been culled. -/
def State.orphanEntry (s : State) (e : Entry) : State :=
  let u := e.owner.unit
  match e.work with
  | .copy c =>
    if e.stage == .queued then s.dropEntry e.id
    else
      let s1 := (s.partCopy e c).updHandle u c.h Handle.tornFree
      let s2 := match c.sh with
        | some h => s1.updHandle u h Handle.tornFree
        | none => s1
      s2.dropEntry e.id
  | .gather g => if e.stage == .queued then s.dropEntry e.id else ((s.partGather e g).updHandle u g.h Handle.tornFree).dropEntry e.id
  | .ring r =>
    (r.running.foldl (fun (acc : State) c =>
      (acc.partChunk e r c).updHandle u (r.h0 + c % r.n) Handle.tornFree) s).dropEntry e.id
  | .qmv b _ gen _ opened _ =>
    if opened then
      let s1 := s.closeProduct e.owner.ctx b.mrec (gen % 2)
      let s2 := s1.updUnit u fun x => x.winWrite (b.addr + 0x28) (toBytes 4 (x.winValue (b.addr + 0x28) 4 / 2 * 2))
      (s2.updHandle u b.h Handle.tornFree).dropEntry e.id
    else
      let x := s.handle u b.h
      (if e.stage != .queued || x.state == .free then s.setHandle u b.h x.tornFree else s).dropEntry e.id
  | _ => s.updEntry e.id fun x => { x with orphan := true }

/-! ### Events -/

/-- At the start of a copy its records are read; a bad one ends it (R247). -/
def State.beginCopy (s : State) (e : Entry) (c : CopyWork) : State :=
  match s.startRecords e.owner.ctx c with
  | .ok c' => if c'.endpoint.isSome then s.runCopy { e with stage := .started } c false
              else s.updEntry e.id fun x => { x with work := .copy c' }
  | .serve _ => s.updEntry e.id fun x => { x with stage := .slow }
  | _ => s.runCopy { e with stage := .started } c false

/-- An entry of the copy, gather or fabric queues, or of a die's graph queue, starts (R249, R253, R256, R380). -/
def execCopyStart (id : Nat) (s : State) : Out :=
  .next <| match s.entry id with
  | none => s
  | some e =>
    if !s.mayStart e then s
    else
      let u := e.owner.unit
      match e.work with
      | .copy c =>
        if c.node.isSome then (s.start e e.work 0).beginCopy e c
        else if (s.handle u c.h).state != .free || !(c.sh.all fun h => (s.handle u h).state == .full) then s
        else
          let s1 := s.updHandle u c.h fun x => x.fill none
          let s2 := match c.sh with
            | some h => s1.updHandle u h Handle.drain
            | none => s1
          (s2.start e e.work 0).beginCopy e c
      | .gather g => if (s.handle u g.h).state != .free then s
                     else (s.updHandle u g.h fun x => x.fill none).start e e.work 0
      | .ring _ => (s.start e e.work 0).parkRing e.id
      | _ => s

/-- A started entry, or a running chunk of a ring, is performed; or a condition hands it to the slow path (R249, R258).
DESIGN CHOICE (log 27). -/
def execCopyComplete (id : Nat) (s : State) : Out :=
  .next <| match s.entry id with
  | none => s
  | some e =>
    if e.stage != .started then s
    else if e.orphan then s.orphanEntry e
    else match e.work with
      | .copy c => if c.endpoint.isSome then s else s.runCopy e c false
      | .gather g => s.runGather e g false
      | .ring r => match r.running with
        | c :: _ => s.runChunk e r c false
        | [] => s
      | _ => s

/-- The condition that holds an entry in the slow path. -/
def State.slowCause (s : State) (e : Entry) : Option Poison :=
  match e.work with
  | .copy c => match s.startRecords e.owner.ctx c with
    | .serve p => some p
    | .ok c => firstCond (overlay (s.sideElems (c.sides e).1) c.got)
    | _ => none
  | .gather g => gatherCond (overlay (s.gatherElems e.owner g false) g.got)
  | .ring r => match r.running with
    | c :: _ =>
      let n := r.length c
      firstCond (if r.drain then s.sideElems (r.slotSide e c n) else ((s.sideElems (e.side 0 r.layout)).drop (c * r.chunk)).take n)
    | [] => none
  | _ => none

/-- A ring's chunk starts: of the slots whose handle lets their next chunk start, that of the lowest chunk (R256). -/
def State.nextChunk (s : State) (u : Nat) (r : RingWork) : Option Nat :=
  let can (k : Nat) : Bool :=
    decide (r.chunkAt k < r.total) && (s.handle u (r.h0 + k)).state == (if r.drain then .full else .free)
  ((List.range r.n).filter can).foldl (fun best k => match best with
    | none => some (r.chunkAt k)
    | some c => some (min c (r.chunkAt k))) none

/-- The next chunk of a started ring starts on its slot's handle (R256). -/
def execRingChunkStart (id : Nat) (s : State) : Out :=
  .next <| match s.entry id with
  | none => s
  | some e =>
    match e.work with
    | .ring r =>
      let u := e.owner.unit
      if e.stage != .started || e.saved then s
      else match s.nextChunk u r with
        | none => s
        | some c =>
          let h := r.h0 + c % r.n
          let s1 := if r.drain then s.updHandle u h Handle.drain else s.updHandle u h fun x => x.fill none
          let r' := { r with next := r.next + 1, running := r.running ++ [c], begun := r.begun.modify (c % r.n) (· + 1) }
          s1.updEntry id fun y => { y with work := .ring r' }
    | _ => s

/-- A fence is passed when every entry before it in all its queues has been performed (R252). -/
def execQfencePass (id : Nat) (s : State) : Out :=
  .next <| match s.entry id with
  | none => s
  | some e =>
    match e.work with
    | .fence n =>
      let all := s.entries.filter fun x => x.work == .fence n
      let line (x : Entry) : List Entry :=
        (s.queueOf x.core x.queue).filter fun y => x.queue != .sq || y.owner.unit == x.owner.unit
      if all.all fun x => !x.saved && ((line x).head?).any fun y => y.id == x.id then
        all.foldl (fun acc x => acc.dropEntry x.id) (s.flagDown e.owner)
      else s
    | _ => s

/-! ### Culls of owners -/

/-- Culled lanes give up their share of every engine entry, and an entry that loses its last owner is dealt with. -/
def State.cullOwners (s : State) (id : Nat) (m : Mask) : State :=
  let hit := s.entries.filter fun e => e.owner.sheaf == id && e.owner.lanes &&& m != 0
  hit.foldl (fun acc e =>
    let left := e.owner.lanes &&& ~~~m
    let acc := acc.updEntry e.id fun x => { x with owner := { x.owner with lanes := left } }
    if left = 0 then (match acc.entry e.id with
      | some x => acc.orphanEntry x
      | none => acc) else acc) s


end Sys2Proof.Machine
end

