-- ==== Sys2Proof/Machine/Quern.lean ====
section
/-!
DEFINITION. Split products: the matrix record, the product block, `QMV`, `RJOIN`, the rows of a Quern, and the slow path of
every engine entry (the manual's chapter The Mill and the Querns, from R227 on; R258).
-/
namespace Sys2Proof.Machine

/-! ### Records and blocks (R227, R229) -/

/-- Fields of a matrix record from its 128 bytes; none where a field breaks R227. -/
def parseMatrix (b : List Byte) : Option MatrixRec :=
  let at4 (o : Nat) : Nat := leNat ((b.drop o).take 4)
  let at8 (o : Nat) : DWord := BitVec.ofNat 64 (leNat ((b.drop o).take 8))
  let w38 := at4 0x38
  let w40 := at4 0x40
  let m : MatrixRec :=
    { cold := at8 0, hot0 := at8 8, hot1 := at8 0x10, pmap0 := at8 0x18, pmap1 := at8 0x20, census := at8 0x28
      rows := at4 0x30, k := at4 0x34, hbud := w38 / 2 ^ 16, slice := w38 % 2 ^ 16, rstride := at4 0x3C
      kind := w40 / 16 % 4, inf := w40.testBit 3, prec := w40 % 8, theta := BitVec.ofNat 32 (at4 0x44), gen := at4 0x48
      fallow := at4 0x54 }
  if 1 ≤ m.rows ∧ m.rows ≤ 2 ^ 24 ∧ m.k % 32 = 0 ∧ 32 ≤ m.k ∧ m.k ≤ 65536 ∧ m.slice % 32 = 0 ∧ 32 ≤ m.slice ∧ m.slice ≤ 4096
      ∧ m.hbud % 32 = 0 ∧ m.hbud ≤ m.slice ∧ m.rstride % 128 = 0 ∧ m.k + m.k / 32 ≤ m.rstride ∧ w40 < 64 ∧ m.prec ≠ 0
  then some m else none

def MatrixRec.pmap (m : MatrixRec) (parity : Nat) : DWord := if parity = 0 then m.pmap0 else m.pmap1
def MatrixRec.hot (m : MatrixRec) (parity : Nat) : DWord := if parity = 0 then m.hot0 else m.hot1

/-- A record as an engine finds it. -/
inductive MatRes where
  | ok (m : MatrixRec)
  | malformed
  | unread (p : Poison)

def State.matrix (s : State) (ctx : Nat) (mrec : DWord) : MatRes :=
  if mrec.toNat % 128 != 0 then .malformed
  else match s.readVa ctx mrec 128 with
    | .error p => .unread p
    | .ok b => match parseMatrix b with
      | some m => .ok m
      | none => .malformed

/-- Read a product block at issue: none on a reserved value, N out of range, or a tile out of range (R229). -/
def parseProduct (u : UnitSt) (w : Nat) : Option ProductBlock :=
  let at4 (o : Nat) : Nat := u.winValue (w + o) 4
  let b : ProductBlock :=
    { addr := w, mrec := BitVec.ofNat 64 (u.winValue w 8), slc := at4 8, n := at4 0x0C, x := at4 0x10, xstride := at4 0x14
      y := at4 0x18, h := at4 0x1C, atile := at4 0x20 }
  if b.n = 0 ∨ 32 < b.n ∨ 128 ≤ b.h ∨ 128 ≤ b.atile ∨ 2 ≤ at4 0x28 ∨ (u.winBytes (w + 0x2C) 20).any (· != 0)
      ∨ tileCount u.lrec.pword ≤ b.atile ∨ !u.lrec.handles.contains b.h then none
  else some b

/-- The start checks of R229. -/
def startOk (u : UnitSt) (b : ProductBlock) (m : MatrixRec) : Bool :=
  decide (b.atile + m.hbud / 32 ≤ tileCount u.lrec.pword) && decide (b.x + b.n * b.xstride ≤ u.lrec.win)
    && decide (b.y + 4 * b.n * m.slice ≤ u.lrec.win)

/-- A word that enters `nq` with a product block. Of a block that calls for the emulation trap and has its Y off its alignment the emulation
trap is taken (R229). DESIGN CHOICE (log 83). -/
def productWord (i : Instr) (s : State) (a d : BitVec 7) (work : ProductBlock → Work) : Out :=
  issueWord i s fun c t =>
    let u := t.unitOf c.f
    let w := (c.low32 a).toNat
    match c.block s t u w 64 64 with
    | some x => x
    | none =>
      match parseProduct u w with
      | none => .emul
      | some b =>
        if b.y % 8 != 0 then .trap (c.blockTrap 2 (BitVec.ofNat 64 b.y)) t
        else .done (t.push c .nq (work b) d)

def execQmv (y : Bool) (g : BitVec 3) (d a : BitVec 7) (s : State) : Out :=
  productWord (.qmv y g d a) s a d fun b => .qmv b {} 0 [] false none
def execRjoin (y : Bool) (g : BitVec 3) (a : BitVec 7) (s : State) : Out :=
  productWord (.rjoin y g a) s a 120 fun b => .rjoin b {} [] none

/-! ### What is kept of a matrix record -/

def State.censusOf (s : State) (key : Nat) : Option Census := s.census.find? fun c => c.mrec == key
def State.putCensus (s : State) (key : Nat) (g : Census → Census) : State :=
  { s with census := (s.census.map fun c => if c.mrec == key then g c else c) }

/-- A matrix record that a product has opened or that Baruri knows, by its key; one not known yet is taken in. -/
def State.updCensus (s : State) (key ctx : Nat) (g : Census → Census) : State :=
  if s.census.any fun c => c.mrec == key then
    { s with census := (s.census.map fun c => if c.mrec == key then g { c with ctx := ctx, counts := s.countSpans key ctx } else c) }
  else { s with census := s.census ++ [g { mrec := key, ctx := ctx, counts := s.countSpans key ctx }] }

/-- The physical address of the record of a product. -/
def State.recKey (s : State) (ctx : Nat) (mrec : DWord) : Nat :=
  match s.translateNow ctx mrec .read with
  | .ok k _ => k
  | _ => 0

/-- The results of a record's open products are undefined (R403). -/
def State.isUpset (s : State) (ctx : Nat) (mrec : DWord) : Bool := (s.censusOf (s.recKey ctx mrec)).any Census.upset

/-- A product's values: as computed, or where its record is upset values that no rule gives. DESIGN CHOICE (log 83). -/
def State.settleVals (s : State) (ctx : Nat) (mrec : DWord) (vals : List (Option Word)) : State × List (Option Word) :=
  if s.isUpset ctx mrec then
    ({ s with free := s.free + vals.length }, (List.range vals.length).map fun j => some (Config.freeWord (s.free + j)))
  else (s, vals)

/-! ### `QMV` (R230, R231) -/

/-- GEN and OPN of a block as they stand. -/
def State.blockGen (s : State) (u : Nat) (b : ProductBlock) : Nat := ((s.unit u).getD default).winValue (b.addr + 0x24) 4
def State.blockOpn (s : State) (u : Nat) (b : ProductBlock) : Bool :=
  (((s.unit u).getD default).winValue (b.addr + 0x28) 4).testBit 0
def State.setOpn (s : State) (u : Nat) (b : ProductBlock) (v : Bool) : State :=
  s.updUnit u fun x => x.winWrite (b.addr + 0x28) (toBytes 4 (if v then 1 else 0))

/-- A `QMV` or `RJOIN` ends with ERR: H full, a record, the flag down. -/
def State.failProduct (s : State) (e : Entry) (h cause : Nat) (addr : DWord) : State :=
  ((s.updHandle e.owner.unit h fun x => x.fullWith 0 true false).reportEntry e.owner h cause addr).performed e

/-- Entry of a placement map: hot, and its position (R228). -/
def State.mapEntry (s : State) (ctx : Nat) (pmap : DWord) (r : Nat) : Except Poison (Bool × Nat) := do
  let x ← s.readVaNat ctx (pmap + BitVec.ofNat 64 (2 * r)) 2
  return (x.testBit 15, x % 2 ^ 12)

/-- Local rows of a slice that lie in the matrix. -/
def sliceRows (b : ProductBlock) (m : MatrixRec) : List Nat :=
  (List.range m.slice).filter fun i => decide (b.slc * m.slice + i < m.rows)

/-- MSTATE of a record (R402). -/
def State.mstate (s : State) (ctx : Nat) (mrec : DWord) : Nat :=
  match s.readVaNat ctx (mrec + 0x70) 4 with
  | .ok x => x % 4
  | .error _ => 0

/-- OPEN of a parity. -/
def State.openCount (s : State) (ctx : Nat) (mrec : DWord) (parity : Nat) : Except Poison Nat :=
  s.readVaNat ctx (mrec + (if parity = 0 then 0x4C else 0x4E)) 2

/-- A product is opened: GEN sampled, OPEN raised, the block written, d and the flag given, the cold rows dispatched. The sample acquires
what the migration that wrote GEN has written (R409). -/
def State.openProduct (s : State) (e : Entry) (b : ProductBlock) (m : MatrixRec) : Except Poison State := do
  let ctx := e.owner.ctx
  let u := e.owner.unit
  let g := m.gen
  let par := g % 2
  let marks ← (sliceRows b m).mapM fun i => do return (i, (← s.mapEntry ctx (m.pmap par) (b.slc * m.slice + i)).1)
  let n ← s.openCount ctx b.mrec par
  let s1 ← s.writeVa ctx (b.mrec + (if par = 0 then 0x4C else 0x4E)) (toBytes 2 (n + 1))
  let idle := (s.valueAt (s.recKey ctx b.mrec + 0x4C) 4) == 0 && s.mstate ctx b.mrec == 0
  let s1 := s1.updCensus (s.recKey ctx b.mrec) ctx fun c => { c with upset := c.upset && !idle }
  let s2 := s1.updUnit u fun x => x.winWrite (b.addr + 0x24) (toBytes 4 g)
  let s3 := ((s2.setOpn u b true).dropCache e.core).deliver e.owner ((maskLanes e.owner.lanes).map fun l => (l, [BitVec.ofNat 32 g]))
  let cold := (marks.filter fun x => !x.2).map Prod.fst
  let s4 := s3.start e (.qmv b m g cold true none) 0
  if cold.isEmpty then return (s4.updHandle u b.h fun x => x.fullWith 0 false false).performed e else return s4

/-- A `QMV` at the head of `nq` with its handle filling: it opens its product, waits for a pending switch or its record, or
fails. `last`: the slow path has given up; a PMAP entry that cannot be read fails it as an unreadable record does. DESIGN CHOICE (log 83). -/
def State.tryQmv (s : State) (e : Entry) (b : ProductBlock) (last : Bool) : State :=
  let ctx := e.owner.ctx
  let wait (p : Poison) : State := if last then s.failProduct e b.h p.cause p.addr else s
  match s.matrix ctx b.mrec with
  | .unread p => wait p
  | .malformed => s.failProduct e b.h 0 b.mrec
  | .ok m =>
    if !startOk ((s.unit e.owner.unit).getD default) b m || s.blockOpn e.owner.unit b then s.failProduct e b.h 0 b.mrec
    else if s.mstate ctx b.mrec = 3 then s
    else match s.openProduct e b m with
      | .ok s1 => s1
      | .error p => wait p

def execQmvStart (id : Nat) (s : State) : Out :=
  .next <| match s.entry id with
  | none => s
  | some e =>
    match e.work with
    | .qmv b _ _ _ _ _ =>
      if e.stage == .slow then (if s.turnOf e then s.tryQmv e b false else s)
      else if !s.mayStart e || (s.handle e.owner.unit b.h).state != .free then s
      else
        let s1 := (s.updHandle e.owner.unit b.h fun x => x.fill none).updEntry id fun x => { x with stage := .slow }
        s1.tryQmv { e with stage := .slow } b false
    | _ => s

/-- A vector's block: codes and scale, from the window (R229). -/
def vectorBlock (u : UnitSt) (b : ProductBlock) (m : MatrixRec) (j kb : Nat) : List Nat × Byte :=
  let base := b.x + j * b.xstride
  ((u.winBytes (base + 32 * kb) 32).map BitVec.toNat, u.winByte (base + m.k + kb))

/-- The output of a row for a vector from the row's bytes (R231): the codes, then a scale for each block. -/
def quernElem (u : UnitSt) (b : ProductBlock) (m : MatrixRec) (row : List Byte) (j : Nat) : Word :=
  let f := b8p m.prec m.inf
  BitVec.ofNat 32 ((List.range (m.k / 32)).foldl (fun y kb =>
    let w := (row.drop (32 * kb)).take 32
    let x := vectorBlock u b m j kb
    accumulate y (blockDot ((w.zip x.1).map fun c => (f.decode c.1.toNat).mul (f.decode c.2))
      (scaleExp (row.getD (m.k + kb) 0)) (scaleExp x.2))) 0)

/-- Whether a vector's codes or scales hold poison. -/
def vectorBad (u : UnitSt) (b : ProductBlock) (m : MatrixRec) (j : Nat) : Bool :=
  u.winPoisoned (b.x + j * b.xstride) (m.k + m.k / 32)
/-- The error of the first vector that holds poison. -/
def vectorFault (u : UnitSt) (b : ProductBlock) (m : MatrixRec) : Option Poison :=
  ((List.range b.n).find? (vectorBad u b m)).map fun j => u.badWords (b.x + j * b.xstride) (m.k + m.k / 32)

/-- Write a row of outputs, `none` for poison. -/
def UnitSt.putRow (u : UnitSt) (b : ProductBlock) (i : Nat) (vals : List (Option Word)) : UnitSt :=
  let at_ := b.y + 4 * (i * b.n)
  let u1 := u.winWrite at_ (vals.flatMap fun v => wordBytesOf (v.getD 0))
  ((List.range vals.length).zip vals).foldl (fun x c => if c.2.isNone then x.spoilHalf (at_ + 4 * c.1) else x) u1

/-- A Quern's row has been written: the product's cold part ends with the last. A record names the first error. -/
def State.endRow (s : State) (e : Entry) (b : ProductBlock) (m : MatrixRec) (gen : Nat) (rows : List Nat) (i : Nat)
    (err : Option Poison) : State :=
  let left := rows.erase i
  let cold := (sliceRows b m).length
  if left.isEmpty then
    let s1 := match err with
      | some p => s.reportEntry e.owner b.h p.cause p.addr
      | none => s
    let done := (s1.handle e.owner.unit b.h).size + 4 * b.n
    (s1.updHandle e.owner.unit b.h fun x => x.fullWith (min done (4 * b.n * cold)) err.isSome false).performed e
  else
    ((s.updHandle e.owner.unit b.h fun x => { x with size := x.size + 4 * b.n }).updEntry e.id fun x =>
      { x with work := .qmv b m gen left true err }).progress (s.jobOf e.owner.unit)

/-- A cold row's weights as a Quern finds them. -/
def State.coldRow (s : State) (e : Entry) (b : ProductBlock) (m : MatrixRec) (i : Nat) : Except Poison (List Byte) :=
  s.readVa e.owner.ctx (m.cold + BitVec.ofNat 64 ((b.slc * m.slice + i) * m.rstride)) (m.k + m.k / 32)

/-- Compute one cold row; a fault in the weights waits for the slow path, and at the last gives poison with ERR (R231). -/
def State.quernRow (s : State) (e : Entry) (b : ProductBlock) (m : MatrixRec) (gen : Nat) (rows : List Nat) (i : Nat)
    (err : Option Poison) (last : Bool) : State :=
  let u := (s.unit e.owner.unit).getD default
  let js := List.range b.n
  match s.coldRow e b m i with
  | .ok row =>
    let vals := js.map fun j => if vectorBad u b m j then none else some (quernElem u b m row j)
    let cyc := max ((b.n * m.k + 127) / 128) ((m.rstride + 99) / 100)
    let (s, vals) := s.settleVals e.owner.ctx b.mrec vals
    let s1 := ((s.updUnit e.owner.unit fun x => x.putRow b i vals).charge e.owner.ctx .quern cyc).charge
      e.owner.ctx .hbm (m.k + m.k / 32)
    s1.endRow e b m gen rows i (err <|> vectorFault u b m)
  | .error p =>
    if last then (s.updUnit e.owner.unit fun x => x.putRow b i (js.map fun _ => none)).endRow e b m gen rows i (err <|> some p)
    else s

def execQuernRow (id row : Nat) (s : State) : Out :=
  .next <| match s.entry id with
  | none => s
  | some e =>
    match e.work with
    | .qmv b m gen rows opened err =>
      if e.orphan then s.orphanEntry e
      else if opened && rows.contains row then s.quernRow e b m gen rows row err false else s
    | _ => s

/-! ### `RJOIN` (R232) -/

/-- The fire test of a joined value (R232). -/
def fires (m : MatrixRec) (y : Option Word) : Bool :=
  match y with
  | none => false
  | some y =>
    let v := f32.decode y.toNat
    let t := f32.decode m.theta.toNat
    match m.kind with
    | 0 => floatCond 4 v t
    | 1 => floatCond 4 v.abs t
    | 2 => !v.isNan && !v.isZero
    | _ => false

/-- One atomic on a census counter; a counter with an uncorrectable error takes its whole word to 0, and Baruri is notified of the rows
(R410). -/
def State.censusAtomic (s : State) (rec ctx : Nat) (census : DWord) (r : Nat) (new : Nat → Nat) : State :=
  let a := census + BitVec.ofNat 64 (2 * r)
  match s.translateNow ctx a .atomic with
  | .ok k _ =>
    if s.poisonAt k then
      let first := r - a.toNat % 8 / 2
      (s.store ((List.range 8).map fun j => (8 * (k / 8) + j, 0))).putCensus rec fun c =>
        { c with notices := c.notices + 1, lostRows := c.lostRows ++ (List.range 4).map (first + ·) }
    else ((s.store [(k, BitVec.ofNat 8 (new (s.valueAt k 2))), (k + 1, BitVec.ofNat 8 (new (s.valueAt k 2) / 256))]).charge
      ctx .hbm 2)
  | _ => s

/-- The joined values of a local row: the hot part from the tiles, the cold part as it stands. -/
def State.joinRow (s : State) (e : Entry) (b : ProductBlock) (m : MatrixRec) (g i : Nat) : State × List (Option Word) :=
  let r := b.slc * m.slice + i
  let u := e.owner.unit
  match s.mapEntry e.owner.ctx (m.pmap (g % 2)) r with
  | .ok (true, p) =>
    let k := s.core e.core
    let vals := (List.range b.n).map fun j =>
      let x := 1024 * (b.atile + p / 32) + 32 * (p % 32) + j
      if k.tilePoison.get x then none else some (k.tiles.get x)
    let (s, vals) := s.settleVals e.owner.ctx b.mrec vals
    (s.updUnit u fun x => x.putRow b i vals, vals)
  | _ =>
    let x := (s.unit u).getD default
    let at_ := b.y + 4 * (i * b.n)
    (s, (List.range b.n).map fun j =>
      if x.winPoisoned (at_ + 4 * j) 4 then none else some (BitVec.ofNat 32 (x.winValue (at_ + 4 * j) 4)))

/-- The product counter, and the fallow step it may bring (R232, R401). -/
def State.countProduct (s : State) (ctx : Nat) (b : ProductBlock) (m : MatrixRec) : State :=
  let a := b.mrec + 0x50
  match s.readVaNat ctx a 4 with
  | .error _ => s
  | .ok n =>
    let n' := (n + 1) % 2 ^ 32
    let fallow := m.fallow != 0 && n' == m.fallow
    let s1 := match s.writeVa ctx a (toBytes 4 (if fallow then 0 else n')) with
      | .ok x => x
      | .error _ => s
    s1.updCensus (s1.recKey ctx b.mrec) ctx fun c => if fallow then { c with sweeps := c.sweeps + 1 } else c

/-- What a product's join meets in the placement map, the census and the record: it goes to the slow path (R232, R258). -/
def State.joinFault (s : State) (e : Entry) (b : ProductBlock) (m : MatrixRec) : Option Poison :=
  let u := e.owner.unit
  let ctx := e.owner.ctx
  let counts := !(s.handle u b.h).err
  let row (i : Nat) : Option Poison :=
    let r := b.slc * m.slice + i
    match s.mapEntry ctx (m.pmap (s.blockGen u b % 2)) r with
    | .error p => some p
    | .ok _ =>
      if !counts then none
      else match s.translateNow ctx (m.census + BitVec.ofNat 64 (2 * r)) .atomic with
        | .bad p => some p
        | _ => none
  let count : Option Poison := match s.readVaNat ctx (b.mrec + 0x50) 4, s.keysVa ctx (b.mrec + 0x50) 4 .write with
    | .error p, _ => some p
    | _, .error p => some p
    | _, _ => none
  ((sliceRows b m).findSome? row) <|> (if counts then count else none)

/-- An `RJOIN` with an open product starts: OPN is cleared, Y takes the hot rows, and the fires of each row are known. -/
def State.beginJoin (s : State) (e : Entry) (b : ProductBlock) (m : MatrixRec) : State :=
  let u := e.owner.unit
  let ok := !(s.handle u b.h).err
  let (s1, counts) := (sliceRows b m).foldl (fun (acc : State × List (Nat × Nat)) i =>
    let (t, vals) := acc.1.joinRow e b m (s.blockGen u b) i
    (t, acc.2 ++ if ok then [(b.slc * m.slice + i, (vals.filter (fires m)).length)] else [])) (s.setOpn u b false, [])
  s1.start e (.rjoin b { m with gen := s.blockGen u b } counts (some ok)) 0

/-- A started `RJOIN` goes on: the census of one of its rows is raised, a free one, for the rows are unordered (R400); after the last it counts
the product and is performed. A row whose counter has lost its page meanwhile is passed over. DESIGN CHOICE (log 27). -/
def State.joinStep (s : State) (e : Entry) (b : ProductBlock) (m : MatrixRec) (counts : List (Nat × Nat)) (ok : Bool) : State :=
  let u := e.owner.unit
  let ctx := e.owner.ctx
  match counts[(Config.freeWord s.free).toNat % counts.length]? with
  | some (r, n) =>
    let t := ({ s with free := s.free + 1 } : State).censusAtomic (s.recKey ctx b.mrec) ctx m.census r fun c => min 65535 (c + n)
    (t.updEntry e.id fun x => { x with work := .rjoin b m (counts.erase (r, n)) (some ok) }).progress (s.jobOf u)
  | none =>
    let s1 := if ok then s.countProduct ctx b m else s
    ((s1.closeProduct ctx b.mrec (m.gen % 2)).updHandle u b.h fun x => { x with state := .full }).performed e

/-- Every earlier Mill operation that names a hot tile of the product has retired (R172, R232). -/
def State.hotTilesDone (s : State) (e : Entry) (b : ProductBlock) (m : MatrixRec) : Bool :=
  !s.entries.any fun x => x.core == e.core && !x.saved && decide (x.id < e.id) && (match x.work with
    | .mill k => decide (m.hbud / 32 ≠ 0 ∧ k.tiles.1 < b.atile + m.hbud / 32 ∧ b.atile < k.tiles.1 + k.tiles.2)
    | _ => false)

/-- An `RJOIN` at the head of `nq`. Where the slow path gives up on a map or a counter, it ends as it does for a record that fails the
start checks. DESIGN CHOICE (log 79). -/
def State.tryRjoin (s : State) (e : Entry) (b : ProductBlock) (last : Bool) : State :=
  let u := e.owner.unit
  match s.matrix e.owner.ctx b.mrec with
  | .unread p =>
    if last then
      (let s1 := { s with openLeft := s.openLeft ++ (if s.blockOpn u b then [(e.owner.ctx, b.mrec, s.blockGen u b % 2)] else []) }
       (s1.setOpn u b false).failProduct e b.h p.cause p.addr)
    else s.updEntry e.id fun x => { x with stage := .slow }
  | .malformed =>
    let s1 := if s.blockOpn u b then s.closeProduct e.owner.ctx b.mrec (s.blockGen u b % 2) else s
    (s1.setOpn u b false).failProduct e b.h 0 b.mrec
  | .ok m =>
    let h := s.handle u b.h
    let torn := h.state == .free && h.torn
    if !startOk ((s.unit u).getD default) b m then
      (let s1 := if s.blockOpn u b then s.closeProduct e.owner.ctx b.mrec (s.blockGen u b % 2) else s
       (s1.setOpn u b false).failProduct e b.h 0 b.mrec)
    else if !(h.state == .full || torn) || !s.hotTilesDone e b m then s
    else if torn then s.performed e
    else if !s.blockOpn u b then s.failProduct e b.h 0 b.mrec
    else match s.joinFault e b m with
      | none => s.beginJoin e b m
      | some p =>
        if last then ((s.closeProduct e.owner.ctx b.mrec (s.blockGen u b % 2)).setOpn u b false).failProduct e b.h p.cause p.addr
        else s.updEntry e.id fun x => { x with stage := .slow }

def execRjoinStart (id : Nat) (s : State) : Out :=
  .next <| match s.entry id with
  | none => s
  | some e =>
    match e.work with
    | .rjoin b m counts (some ok) => s.joinStep e b m counts ok
    | .rjoin b _ _ none => if s.turnOf e then s.tryRjoin e b false else s
    | _ => s

/-- Baruri lowers the OPEN counts left raised for a record that can be written again (R232). -/
def execRecordReachableAgain (rec : Nat) (s : State) : Out :=
  .next <| (s.openLeft.filter fun x => x.2.1.toNat == rec).foldl (fun (acc : State) x =>
    match acc.lowerOpen x.1 x.2.1 x.2.2 with
    | some t => { t with openLeft := t.openLeft.erase x }
    | none => acc) s

/-! ### The slow path (R258) -/

/-- The conditions that hold an entry of `nq` in the slow path. -/
def State.nqCauses (s : State) (e : Entry) : List Poison :=
  let ctx := e.owner.ctx
  match e.work with
  | .qmv b m _ rows true _ => rows.filterMap fun i => match s.coldRow e b m i with
    | .error p => some p
    | .ok _ => none
  | .qmv b _ _ _ false _ => match s.matrix ctx b.mrec with
    | .unread p => [p]
    | .malformed => []
    | .ok m => match s.openProduct e b m with
      | .error p => [p]
      | .ok _ => []
  | .rjoin b _ _ none => match s.matrix ctx b.mrec with
    | .unread p => [p]
    | .malformed => []
    | .ok m => (s.joinFault e b m).toList
  | _ => []

/-- Rows of an open product whose weights the slow path could not obtain are poison (R231). -/
def State.giveUpRows (s : State) (id : Nat) : List Nat → State
  | [] => s
  | i :: rest =>
    let s1 := match s.entry id with
      | some e => match e.work with
        | .qmv b m gen rows true err => match s.coldRow e b m i with
          | .error _ => s.quernRow e b m gen rows i err true
          | .ok _ => s
        | _ => s
      | none => s
    s1.giveUpRows id rest

/-- Baruri's slow path goes on with an entry: every cause serviced, the driver having written page-table entries, or not (R230 to
R232, R258). DESIGN CHOICE (log 26). -/
def execCopySlowPath (id : Nat) (serviced : Bool) (tables : List (Nat × Nat)) (s0 : State) : Out :=
  .next <| match s0.entry id with
  | none => s0
  | some e =>
    let s := if serviced then s0.writeTables tables else s0
    let healed := if serviced then (s.nqCauses e).foldl (fun (acc : State) p => acc.healWords e.owner.unit p) s else s
    match e.work with
    | .qmv b _ _ rows opened _ =>
      if e.orphan then s.orphanEntry e
      else if opened then (if serviced then healed else s.giveUpRows id rows)
      else if e.stage == .slow && s.turnOf e then healed.tryQmv e b (!serviced) else s
    | .rjoin b _ _ _ => if e.stage == .slow && s.turnOf e then healed.tryRjoin e b (!serviced) else s
    | _ =>
      if e.stage != .slow then s
      else if e.orphan then s.orphanEntry e
      else if !s.engineFree e then s
      else
        let s := match s.slowCause e with
          | some p => if serviced then s.healWords e.owner.unit p else s
          | none => s
        let e := { e with stage := .started }
        match e.work with
        | .copy c => s.runCopy e c (!serviced)
        | .gather g => s.runGather e g (!serviced)
        | .ring r => match r.running with
          | c :: _ => s.runChunk e r c (!serviced)
          | [] => s
        | _ => s

end Sys2Proof.Machine
end

