-- ==== Sys2Proof/Machine/Scan.lean ====
section
/-!
DEFINITION. The scan engine and the Bucket chain: `SCFG`, `SCAN`, `CSEND`, `CRECV`, `CBAR`, and the events of the scan queue
(the manual's chapter of that name).
-/
namespace Sys2Proof.Machine

/-! ### The operator (R263 to R266) -/

def sccFmt (scc : Nat) : Nat := scc / 32 % 8
def sccSemi (scc : Nat) : Nat := scc / 4 % 8
/-- State width: 1, 2 or 4. -/
def sccWidth (scc : Nat) : Nat := 2 ^ (scc % 4)
/-- Components of an element. -/
def comps (w : Nat) : Nat := w * w + w
/-- Bytes of a full element of 4-byte components (R264). -/
def elemC (scc : Nat) : Nat := 4 * comps (sccWidth scc)
def isFloatFmt (fmt : Nat) : Bool := decide (fmt ≤ 2)

/-- Z and the ⊗-identity (R263). -/
def semiZero (semi fmt : Nat) : Word :=
  match semi with
  | 1 => if isFloatFmt fmt then 0xFF800000 else 0x80000000
  | 2 => if isFloatFmt fmt then 0x7F800000 else 0x7FFFFFFF
  | 3 => 0xFF800000
  | _ => 0
def semiOne (semi fmt : Nat) : Word :=
  match semi with
  | 0 => if isFloatFmt fmt then 0x3F800000 else 1
  | 4 => 0xFFFFFFFF
  | _ => 0

/-- ⊗ of the semirings that add. -/
def semiTimes (fmt : Nat) (rm u v : Word) : Word :=
  if isFloatFmt fmt then BitVec.ofNat 32 (f32.roundSum rm [f32.decode u.toNat, f32.decode v.toNat]) else u + v

/-- ⊕ of two terms, for the semirings that take them from the left. -/
def semiPlus (semi fmt : Nat) (rm u v : Word) : Word :=
  match semi with
  | 1 => if isFloatFmt fmt then BitVec.ofNat 32 (f32.minMax true u.toNat v.toNat) else if u.slt v then v else u
  | 2 => if isFloatFmt fmt then BitVec.ofNat 32 (f32.minMax false u.toNat v.toNat) else if v.slt u then v else u
  | _ => BitVec.ofNat 32 (laeCode (rmSat rm) (Config.laeCode u v).toNat u.toNat v.toNat)

/-- `fold` of R265: products in order, then a last term if there is one. The sum of `.addmul` is rounded once; an exact zero sum is +0
unless every term is −0. -/
def semiFold (semi fmt : Nat) (rm : Word) (products : List (Word × Word)) (last : Option Word) : Word :=
  match semi with
  | 0 =>
    if isFloatFmt fmt then
      BitVec.ofNat 32 (f32.round rm (Ex.sum false ((products.map fun p => (f32.decode p.1.toNat).mul (f32.decode p.2.toNat))
        ++ last.toList.map fun x => f32.decode x.toNat)))
    else products.foldl (fun acc p => acc + p.1 * p.2) (last.getD 0)
  | 4 => products.foldl (fun acc p => acc ||| (p.1 &&& p.2)) (last.getD 0)
  | _ =>
    match (products.map fun p => semiTimes fmt rm p.1 p.2) ++ last.toList with
    | [] => semiZero semi fmt
    | x :: rest => rest.foldl (semiPlus semi fmt rm) x

/-- An element as its components: A in row-major order, then b; `none` is poison. -/
abbrev ScanElem := List (Option Word)

/-- Composition, x first and then y (R265). -/
def compose (scc : Nat) (rm : Word) (x y : ScanElem) : ScanElem :=
  let w := sccWidth scc
  let semi := sccSemi scc
  let fmt := sccFmt scc
  if x.any Option.isNone || y.any Option.isNone then List.replicate (comps w) none
  else
    let at_ (e : ScanElem) (k : Nat) : Word := (e.getD k none).getD 0
    ((List.range (w * w)).map fun n =>
      let i := n / w
      let j := n % w
      some (semiFold semi fmt rm ((List.range w).map fun m => (at_ y (w * i + m), at_ x (w * m + j))) none))
    ++ (List.range w).map fun i =>
      some (semiFold semi fmt rm ((List.range w).map fun m => (at_ y (w * i + m), at_ x (w * w + m))) (some (at_ y (w * w + i))))

/-- (I, Z). -/
def scanIdentity (scc : Nat) : ScanElem :=
  let w := sccWidth scc
  let z := semiZero (sccSemi scc) (sccFmt scc)
  ((List.range (w * w)).map fun n => some (if n / w = n % w then semiOne (sccSemi scc) (sccFmt scc) else z))
    ++ List.replicate w (some z)

/-- `SCFG` writes `SCC` at issue (R267). -/
def execScfg (y : Bool) (g s : BitVec 3) (w : BitVec 2) (st : State) : Out :=
  issueWord (.scfg y g s w) st fun c t =>
    let v : Word := BitVec.ofNat 32 (c.form * 32 + s.toNat * 4 + w.toNat)
    let t := t.updSheaf c.id fun f => { f with scc := v }
    .done (t.later c 1 120 [])

/-! ### Window data -/

/-- Components of 4 bytes, or of a format's size, widened exactly (R264). -/
def UnitSt.readComps (u : UnitSt) (fmt : Nat) (narrow : Bool) (a n : Nat) : ScanElem :=
  let half := narrow && (fmt == 1 || fmt == 2)
  let sz := if half then 2 else 4
  (List.range n).map fun k =>
    if u.winPoisoned (a + sz * k) sz then none
    else
      let x := u.winValue (a + sz * k) sz
      some (BitVec.ofNat 32 (if half then f32.round rne ((if fmt = 1 then bf16 else f16).decode x) else x))

/-- Write components, poison over those that are. -/
def UnitSt.writeComps (u : UnitSt) (a : Nat) (e : ScanElem) : UnitSt :=
  let u1 := u.winWrite a (e.flatMap fun x => wordBytesOf (x.getD 0))
  ((List.range e.length).zip e).foldl (fun x c => if c.2.isNone then x.spoilHalf (a + 4 * c.1) else x) u1

/-- Bytes of an input and an output tile (R268). -/
def ScanWork.inTile (w : ScanWork) : Nat :=
  let n := comps (sccWidth w.scc.toNat)
  let fmt := sccFmt w.scc.toNat
  32 * n * (if w.ap then 4 else if fmt = 1 ∨ fmt = 2 then 2 else 4)
def ScanWork.outTile (w : ScanWork) : Nat :=
  if w.ost then 32 * 4 * sccWidth w.scc.toNat else 32 * elemC w.scc.toNat

/-! ### `SCAN` (R268 to R270) -/

/-- Read a scan block; none on a reserved value (R268, R269). -/
def parseScan (u : UnitSt) (a : Nat) (scc rm : Word) : Option ScanWork :=
  let at4 (o : Nat) : Nat := u.winValue (a + o) 4
  let ctl := at4 0x18
  let w : ScanWork :=
    { input := at4 0, istr := at4 4, out := at4 8, ostr := at4 0x0C, cin := at4 0x10, tot := at4 0x14, nt := ctl / 2 ^ 16 + 1
      ap := ctl.testBit 3, ost := ctl.testBit 2, ck := ctl % 4, rm := rm, scc := scc }
  if ctl / 16 % 2 ^ 12 ≠ 0 ∨ w.ck = 3 ∨ at4 0x1C ≠ 0 ∨ (1 < w.nt ∧ (w.istr < w.inTile ∨ w.ostr < w.outTile)) then none
  else some w

/-- The alignment and bounds checks of a scan block: the cause and address of the first that fails (R269). -/
def ScanWork.check (w : ScanWork) (win : Nat) : Option (Nat × Nat) :=
  let odd := ([w.input, w.out, w.tot] ++ (if w.ck = 0 then [] else [w.cin]) ++ (if 1 < w.nt then [w.istr, w.ostr] else [])).find? fun x => x % 4 != 0
  match odd with
  | some x => some (2, x)
  | none =>
    let n := comps (sccWidth w.scc.toNat)
    let areas := [(w.input, (w.nt - 1) * w.istr + w.inTile), (w.out, (w.nt - 1) * w.ostr + w.outTile), (w.tot, 4 * n)]
      ++ (if w.ck = 1 then [(w.cin, 4 * n)] else if w.ck = 2 then [(w.cin, 4 * sccWidth w.scc.toNat)] else [])
    (areas.find? fun x => decide (win < x.1 + x.2)).map fun x => (0, x.1)

def execScan (y : Bool) (g : BitVec 3) (a : BitVec 7) (s : State) : Out :=
  issueWord (.scan y g a) s fun c t =>
    let u := t.unitOf c.f
    let w := (c.low32 a).toNat
    match c.block s t u w 32 32 with
    | some x => x
    | none =>
      match parseScan u w c.f.scc c.f.rm with
      | none => .emul
      | some b => match b.check u.lrec.win with
        | some (k, x) => .trap (c.blockTrap k (BitVec.ofNat 64 x)) t
        | none => .done (t.push c .sq (.scan b) 120)

/-- One level of the prefix: every element reads the values of the level before (R269). -/
def scanLevel (scc : Nat) (rm : Word) (d : Nat) (x : List ScanElem) : List ScanElem :=
  (List.range x.length).map fun k =>
    if k < d then x.getD k [] else compose scc rm (x.getD (k - d) []) (x.getD k [])

/-- The prefixes of a tile. -/
def scanTile (w : ScanWork) (e : List ScanElem) : List ScanElem :=
  if w.ap then e else [1, 2, 4, 8, 16].foldl (fun x d => scanLevel w.scc.toNat w.rm d x) e

/-- Carry-in of a scan (R269). -/
def ScanWork.carryIn (w : ScanWork) (u : UnitSt) : Option ScanElem :=
  let wd := sccWidth w.scc.toNat
  match w.ck with
  | 1 => some (u.readComps 0 false w.cin (comps wd))
  | 2 => some (List.replicate (wd * wd) (some (semiZero (sccSemi w.scc.toNat) (sccFmt w.scc.toNat)))
      ++ u.readComps 0 false w.cin wd)
  | _ => none

/-- What one tile of a scan gives: its outputs by address, and the carry that goes on. -/
def ScanWork.tileOut (w : ScanWork) (u : UnitSt) (c : Option ScanElem) (t : Nat) : List (Nat × ScanElem) × ScanElem :=
  let scc := w.scc.toNat
  let wd := sccWidth scc
  let esz := w.inTile / 32
  let e := (List.range 32).map fun k => u.readComps (sccFmt scc) (!w.ap) (w.input + t * w.istr + k * esz) (comps wd)
  let ys := (scanTile w e).map fun v => match c with
    | none => v
    | some c => compose scc w.rm c v
  let osz := w.outTile / 32
  (((List.range 32).zip ys).map fun k => (w.out + t * w.ostr + k.1 * osz, if w.ost then k.2.drop (wd * wd) else k.2), ys.getD 31 [])

/-- Outputs are written. -/
def UnitSt.writeTile (u : UnitSt) (outs : List (Nat × ScanElem)) : UnitSt := outs.foldl (fun acc x => acc.writeComps x.1 x.2) u

/-- What tiles `t`, `t + 1`, … of a scan give, each tile reading the window as those before it leave it (R269). -/
def ScanWork.plan (w : ScanWork) (u : UnitSt) (c : Option ScanElem) (t : Nat) : Nat → List (List (Nat × ScanElem) × ScanElem)
  | 0 => []
  | n + 1 => let r := w.tileOut u c t; r :: w.plan (u.writeTile r.1) (some r.2) (t + 1) n

/-- The first `n` of a scan's computed tiles are performed: the window, and the carry after them. -/
def ScanWork.finish (w : ScanWork) (u : UnitSt) (n : Nat) : UnitSt × Option ScanElem :=
  (w.tiles.take n).foldl (fun acc x => (acc.1.writeTile x.1, some x.2)) (u, w.carry)

/-- Engine cycles of one tile (R270). -/
def ScanWork.tileCycles (w : ScanWork) : Nat :=
  let wd := sccWidth w.scc.toNat
  if w.ap then 2 * wd * wd else 8 * wd * wd

/-- An `sq` entry's turn has come in its unit's own order (R277). -/
def State.scanTurn (s : State) (e : Entry) : Bool :=
  !e.saved && e.stage == .queued &&
  (((s.queueOf e.core .sq).filter fun x => x.owner.unit == e.owner.unit).head?).any fun x => x.id == e.id

def execScanStart (id : Nat) (s : State) : Out :=
  .next <| match s.entry id with
  | none => s
  | some e =>
    match e.work with
    | .scan w =>
      if !s.scanTurn e then s
      else
        let u := (s.unit e.owner.unit).getD default
        let w := if w.tile = 0 then { w with carry := w.carryIn u } else w
        let w := { w with tiles := w.plan u w.carry w.tile (w.nt - w.tile) }
        s.start e (.scan w) (s.cycleOf e.core + (w.nt - w.tile) * w.tileCycles + 11)
    | _ => s

def execScanPerformed (id : Nat) (s : State) : Out :=
  .next <| match s.entry id with
  | none => s
  | some e =>
    match e.work with
    | .scan w =>
      if e.stage != .started || e.saved || decide (s.cycleOf e.core < e.due) then s
      else
        (s.updUnit e.owner.unit fun u =>
          let r := w.finish u w.tiles.length
          r.1.writeComps w.tot (r.2.getD [])).performed e
    | _ => s

/-! ### The chain (R271, R272) -/

/-- The launch and position of a member; none for a unit that is none (R271). -/
def State.memberOf (s : State) (u : Nat) : Option (Nat × Nat) :=
  match s.unit u with
  | none => none
  | some x =>
    if x.spawned || x.grown || !x.lrec.chn then none
    else match s.launch x.launch with
      | none => none
      | some l => ((List.range l.members.length).find? fun p => ((l.members.getD p {}).unit == x.index)).map fun p => (x.launch, p)

/-- A member has retired (R278): its unit is complete, removed or cancelled, or every lane of it is gone; an index that will never be
dispatched counts as retired. From then on its SENT and RCVD stand, whatever of its issued entries is still performed (R275, R310). DEDUCED
(log 23). -/
def State.memberEnd (s : State) (l : Nat) (m : Member) : Bool :=
  match s.unitList.find? fun c => c.2.launch == l && !c.2.spawned && c.2.index == m.unit with
  | some (u, x) =>
    let sheaves := s.sheavesOf u
    x.stage == .complete || x.stage == .removed || x.cancelled || (!sheaves.isEmpty && sheaves.all fun c => c.2.liveMask == 0)
  | none => ((s.launch l).map LaunchSt.removed).getD true

/-- The members of a chain in order, each with whether it has retired. -/
def State.chain (s : State) (l : Nat) : List (Member × Bool) :=
  (((s.launch l).map LaunchSt.members).getD []).map fun m => (m, s.memberEnd l m)

/-- How the chain of a launch goes on at other devices, if it does (R276). -/
def State.span (s : State) (l : Nat) : Option Span := (s.launch l).bind LaunchSt.span

def State.member (s : State) (l p : Nat) : Member := (((s.launch l).map LaunchSt.members).getD []).getD p {}
def State.memberCount (s : State) (l : Nat) : Nat := ((s.launch l).map fun x => x.members.length).getD 0
def State.updMember (s : State) (l p : Nat) (g : Member → Member) : State :=
  s.updLaunch l fun x => { x with members := x.members.set p (g (x.members.getD p {})) }

/-- A chain word of an address operand: its checks, then its place in `sq` (R273, R274). -/
def chainWord (i : Instr) (s : State) (a : BitVec 7) (work : Nat → Nat → Work) : Out :=
  issueWord i s fun c t =>
    let w := (c.low32 a).toNat
    if (t.memberOf c.f.unit).isNone then .emul
    else match checkBlock (t.unitOf c.f) w 4 (elemC c.f.scc.toNat) with
      | some k => .trap (c.blockTrap k (BitVec.ofNat 64 w)) t
      | none => .done (t.push c .sq (work w c.f.scc.toNat) 120)

def execCsend (y : Bool) (g : BitVec 3) (a : BitVec 7) (s : State) : Out :=
  chainWord (.csend y g a) s a fun w scc => .csend w scc none
def execCrecv (y : Bool) (g : BitVec 3) (a : BitVec 7) (s : State) : Out :=
  chainWord (.crecv y g a) s a fun w scc => .crecv w scc
def execCbar (y : Bool) (g : BitVec 3) (d : BitVec 7) (s : State) : Out :=
  issueWord (.cbar y g d) s fun c t =>
    if (t.memberOf c.f.unit).isNone then .emul else .done (t.push c .sq .cbar d)

/-- The device that holds the successor of a unit's member, where the chain goes on there after the launch's last member (R276). -/
def State.peerNext (s : State) (u : Nat) : Option Nat :=
  match s.memberOf u with
  | none => none
  | some (l, p) => if p + 1 = s.memberCount l then (s.span l).map Span.after else none

/-- The unit of an entry is a member that has retired. -/
def State.hasStopped (s : State) (e : Entry) : Bool := (s.memberOf e.owner.unit).any fun m => s.memberEnd m.1 (s.member m.1 m.2)

/-- `CSEND` starts: it reads its carry, poison included (R273), and a carry for a peer goes onto the ordered channel (R384), its bytes charged
(R375); a member that has retired sends nothing (R278). -/
def execCsendStart (id : Nat) (s : State) : Out :=
  .next <| match s.entry id with
  | none => s
  | some e =>
    match e.work with
    | .csend a scc none =>
      if !s.scanTurn e then s
      else
        let u := (s.unit e.owner.unit).getD default
        let s1 := s.start e (.csend a scc (some { words := u.readComps 0 false a (comps (sccWidth scc)) })) 0
        match s.peerNext e.owner.unit with
        | some d => if s.hasStopped e then s1 else (s1.sendOn d (.carry id)).charge e.owner.ctx .fabric (elemC scc)
        | none => s1
    | _ => s

/-- A carry comes to a member's buffer of four: placed there, or absorbed by a member that has retired (R272, R278, R310); none where it has
to wait for room. -/
def State.placeCarry (s : State) (l q : Nat) (c : Carry) : Option State :=
  let m := s.member l q
  if s.memberEnd l m then some s
  else if 4 ≤ m.buffer.length then none
  else some (s.updMember l q fun m => { m with buffer := m.buffer ++ [c] })

/-- A `CSEND` has been performed (R273); one of a member that has retired no longer counts (R275, R278). -/
def State.carrySent (s : State) (e : Entry) (l p : Nat) : State :=
  (if s.memberEnd l (s.member l p) then s else s.updMember l p fun m => { m with sent := m.sent + 1 }).performed e

/-- A carry of an entry is under way to a peer. -/
def State.carryOut (s : State) (d id : Nat) : Bool :=
  (s.channels.get d).sent.contains (.carry id) || (s.channels.get d).held.contains (.carry id)

/-- The carry of an entry is placed in its successor's buffer (R273); one for a peer is the oldest that is out on the ordered channel, and
its placement is acknowledged (R384). What a member that has retired did not send before is placed nowhere, its successor taking those rounds
as broken (R278). -/
def State.placeOwn (s : State) (id : Nat) : State :=
  match s.entry id with
  | none => match s.headOf (.carry id) with
    | some d => (s.ackOn d (.carry id)).getD s
    | none => s
  | some e =>
    match e.work, s.memberOf e.owner.unit with
    | .csend _ _ (some c), some (l, p) =>
      if e.stage != .started || e.saved then s
      else match s.peerNext e.owner.unit with
        | some d => match s.ackOn d (.carry id) with
          | some t => t.carrySent e l p
          | none => if s.hasStopped e && !s.carryOut d id then s.carrySent e l p else s
        | none =>
          if s.hasStopped e then s.carrySent e l p
          else match s.placeCarry l ((p + 1) % s.memberCount l) c with
          | some t => t.carrySent e l p
          | none => s
    | _, _ => s

/-- A carry that a peer has sent, in its turn, for the first member of a launch whose chain goes on from there (R276, R384). -/
def State.placeRemote (s : State) (l src seq : Nat) (c : Carry) : State :=
  if !((s.span l).any fun x => x.before == src) then s
  else match s.takenFrom src seq with
    | none => s
    | some t => match t.placeCarry l 0 c with
      | some t => t.progress (((s.launch l).map LaunchSt.job).getD 0)
      | none => s

/-- The member before one in the ring. -/
def prevMember (n p : Nat) : Nat := (p + n - 1) % n

/-- The member before one has stopped and sends no more; one on a peer sends broken carries itself. -/
def State.prevStopped (s : State) (l p : Nat) : Bool :=
  let n := s.memberCount l
  let q := prevMember n p
  (p != 0 || (s.span l).isNone) && s.memberEnd l (s.member l q)

/-- The performance of a chain word is an acquire: its unit's core discards its read cache (R274, R275). -/
def State.acquireUnit (s : State) (u : Nat) : State :=
  match (s.unit u).bind UnitSt.core with
  | some c => s.dropCache c
  | none => s

/-- `CRECV` takes the oldest carry, or (I, Z) for the first member's round 0, or a broken carry (R274, R278). That of a member that has retired
takes none, its carries being discarded, and counts no more (R275, R310). -/
def execCrecvTake (id : Nat) (s : State) : Out :=
  .next <| match s.entry id with
  | none => s
  | some e =>
    match e.work, s.memberOf e.owner.unit with
    | .crecv a scc, some (l, p) =>
      if !s.scanTurn e then s
      else
        let m := s.member l p
        let n := comps (sccWidth scc)
        let broken := List.replicate n (none : Option Word)
        let put (t : State) (x : ScanElem) (buffer : List Carry) (bad : Bool) : State :=
          let t := t.updUnit e.owner.unit fun u => u.writeComps a x
          ((t.updMember l p fun m => { m with rcvd := m.rcvd + 1, buffer := buffer,
                                              broken := if bad then m.broken ++ [m.rcvd] else m.broken }).performed e).acquireUnit
            e.owner.unit
        if s.memberEnd l m then ((s.updUnit e.owner.unit fun u => u.writeComps a broken).performed e).acquireUnit e.owner.unit
        else if p = 0 ∧ m.rcvd = 0 ∧ (s.span l).all Span.first then put s (scanIdentity scc) m.buffer false
        else match m.buffer with
          | c :: rest =>
            if c.broken then put s broken rest true
            else if c.words.length != n then
              put (s.report (s.nameOwner e.owner { typ := 10, info := c.words.length * 4 * 2 ^ 32 + 4 * n })) broken rest true
            else put s c.words rest false
          | [] => if s.prevStopped l p then put s broken [] true else s
    | _, _ => s

/-- Round `b` is complete as far as the members of one device go (R275): every member but the chain's last has sent it, the chain's last,
if it is here, has received it; retired members count for what they have not done. -/
def roundDone (ms : List (Member × Bool)) (lastHere : Bool) (b : Nat) : Bool :=
  let sent (m : Member × Bool) : Bool := m.2 || decide (b < m.1.sent)
  let rcvd (m : Member × Bool) : Bool := m.2 || decide (b < m.1.rcvd)
  ms.dropLast.all sent && (ms.getLast?).all (if lastHere then rcvd else sent)

/-- Some carry of round `b` was broken (R275, R278): one that the round's completion asks for, or one that its receiver has
taken. DEDUCED (log 23). -/
def roundBroken (ms : List (Member × Bool)) (lastHere : Bool) (b : Nat) : Bool :=
  let unsent (m : Member × Bool) : Bool := m.2 && decide (m.1.sent ≤ b)
  let unrcvd (m : Member × Bool) : Bool := m.2 && decide (m.1.rcvd ≤ b)
  ms.dropLast.any unsent || (ms.getLast?).any (if lastHere then unrcvd else unsent) || ms.any (fun m => m.1.broken.contains b)

/-- What the device after this one in a chain is to be told next: that the last member here has stopped, with the rounds it has sent, every later
one being broken (R278); then each round that is complete here, and whether a carry of it was broken; of a chain none of whose members is left
one notice tells all later rounds (R276). DESIGN CHOICE (log 48). -/
def State.noticeDue (s : State) (l : Nat) : Option (Nat × ChanMsg) :=
  (s.span l).bind fun sp =>
    let ms := s.chain l
    let lastHere := sp.last
    let onward := ms.all fun m => m.2 && decide (m.1.sent ≤ sp.rounds) && decide (m.1.rcvd ≤ sp.rounds)
    if !sp.stopTold && (ms.getLast?).any Prod.snd then some (sp.after, .stopped l (((ms.getLast?).map fun m => m.1.sent).getD 0))
    else if !sp.allTold && roundDone ms lastHere sp.rounds then
      some (sp.after, .round l sp.rounds (roundBroken ms lastHere sp.rounds) onward)
    else none

/-- The notice that is due goes onto the ordered channel (R276, R384). -/
def State.giveNotice (s : State) (l : Nat) : State :=
  let mark (g : Span → Span) (t : State) : State := t.updLaunch l fun x => { x with span := x.span.map g }
  match s.noticeDue l with
  | some (d, .round l b bad onward) => mark (fun sp => { sp with rounds := b + 1, allTold := onward }) (s.sendOn d (.round l b bad onward))
  | some (d, m) => mark (fun sp => { sp with stopTold := true }) (s.sendOn d m)
  | none => s

/-- The notice of a launch's chain at the head of the channel has come to the device after this one. -/
def State.noticeTold (s : State) (l : Nat) : State :=
  match s.span l with
  | none => s
  | some sp =>
    let mine (m : ChanMsg) : Bool := match m with
      | .stopped k _ => k == l
      | .round k _ _ _ => k == l
      | _ => false
    match (s.channels.get sp.after).sent.head? with
    | some m => if mine m then (s.ackOn sp.after m).getD s else s
    | none => s

/-- A carry is placed: that of an entry of this device, or one that a peer sent (R273); or a notice goes to the device after this one, or has come
there (R276). -/
def execCarryPlaced (carry : CarrySource) (s : State) : Out :=
  .next <| match carry with
  | .own id => s.placeOwn id
  | .peer l src seq broken words => s.placeRemote l src seq { words := words, broken := broken }
  | .notice l => s.giveNotice l
  | .told l => s.noticeTold l

/-- A `CBAR` learns that its round is complete, an acquire (R275). Of a chain that goes on at other devices the notice brings whether a carry
of the round was broken there; without it the round is not complete. DESIGN CHOICE (log 48). -/
def execRoundComplete (round : RoundNotice) (s : State) : Out :=
  .next <| match s.entry round.entry with
  | none => s
  | some e =>
    match e.work, s.memberOf e.owner.unit with
    | .cbar, some (l, p) =>
      let ms := s.chain l
      let lastHere := (s.span l).all Span.last
      let b := (s.member l p).cbars
      if !s.scanTurn e || !roundDone ms lastHere b || ((s.span l).isSome && round.others.isNone) then s
      else
        let away := (s.span l).isSome && round.others.getD false
        let v : Word := if roundBroken ms lastHere b || away then 1 else 0
        let s1 := s.updMember l p fun m => { m with cbars := m.cbars + 1 }
        ((s1.deliverAll e.owner [v]).performed e).acquireUnit e.owner.unit
    | _, _ => s

end Sys2Proof.Machine
end

