-- ==== Sys2Proof/Machine/Units.lean ====
section
/-!
DEFINITION. Units, launches, graphs and jobs: the launch record, counters, `GROW`, `SPAWN` and the range matcher, `CWAIT` and
`CANCEL`, dispatch, and the events that move units along (the manual's chapter of that name, but for its queues and barriers).
-/
namespace Sys2Proof.Machine

/-! ### The launch record (R326) -/

/-- Rows per bank of a partition word's shares: registers, scratchpad, accumulator (R162). -/
def poolShares (pword : Word) : Nat × Nat × Nat :=
  ((pword.extractLsb' 0 8).toNat, (pword.extractLsb' 8 8).toNat, (pword.extractLsb' 16 8).toNat)
/-- A valid partition word (R163). -/
def poolOk (pword : Word) : Bool :=
  let p := poolShares pword
  decide (1 ≤ p.1 ∧ p.1 + p.2.1 + p.2.2 = 96) && pword.extractLsb' 24 8 == 0

/-- Numbers of the set bits of a mask given as a number. -/
def bitsOf (n m : Nat) : List Nat := (List.range n).filter fun k => m.testBit k

/-- A launch record from its 128 bytes, its resource set apart; none where the dispatcher refuses it (R326, R163). DEDUCED (log 46). -/
def parseLaunch (b : List Byte) : Option LaunchRec :=
  let at4 (o : Nat) : Nat := leNat ((b.drop o).take 4)
  let at8 (o : Nat) : DWord := BitVec.ofNat 64 (leNat ((b.drop o).take 8))
  let w := at4 0x0C
  let r : LaunchRec :=
    { kpc := at8 0, pword := BitVec.ofNat 32 (at4 8), chn := w.testBit 12, sheaves := w / 2 ^ 8 % 16 + 1, nv := w % 2 ^ 8
      win := at4 0x10, priv := at4 0x14, prio := at4 0x18 % 8, extents := at4 0x1C % 4 + 1, gx := at4 0x20, gy := at4 0x24
      gz := at4 0x28, args := at8 0x30, cmap := at8 0x38, temul := at8 0x40, tlane := at8 0x48, tidle := at8 0x50
      trace := at8 0x58, tref := at8 0x60 }
  if w < 2 ^ 13 ∧ at4 0x18 < 8 ∧ at4 0x1C < 3 ∧ at4 0x2C = 0 ∧ (b.drop 0x70).all (· == 0) ∧ r.kpc.toNat % 4 = 0
      ∧ poolOk r.pword ∧ r.nv % 8 = 0 ∧ 8 ≤ r.nv ∧ r.nv ≤ 104 ∧ r.win % 768 = 0 ∧ r.priv % 4 = 0
      ∧ r.gx ≠ 0 ∧ r.gy ≠ 0 ∧ r.gz ≠ 0
      ∧ [r.temul, r.tlane, r.tidle, r.trace, r.tref].all (fun x => x.toNat % 4 == 0)
  then some r else none

def LaunchRec.groups (r : LaunchRec) : Nat := r.gx * r.gy * r.gz

/-- Read a launch record and its resource set in a context; none where it cannot be read or is malformed, or where PSPAN does
not cover its private limit (R359). -/
def State.readLaunch (s : State) (ctx : Nat) (a : DWord) : Option LaunchRec :=
  if a.toNat % 64 != 0 then none
  else match s.readVa ctx a 128 with
    | .error _ => none
    | .ok b => match parseLaunch b with
      | none => none
      | some r =>
        let span := ((s.context ctx).map Context.pspan).getD 0
        if span < 32 * r.priv then none
        else
          let set := BitVec.ofNat 64 (leNat ((b.drop 0x68).take 8))
          if set = 0 then some r
          else match s.readVa ctx set 20 with
            | .error _ => none
            | .ok x => some { r with handles := bitsOf 128 (leNat (x.take 16)), slots := bitsOf 32 (leNat (x.drop 16)) }

/-- The chain members of a launch record: its map, or ascending indices, and none of them where it holds no chain word. No answer
where the map breaks R327, chain word or not, or the chain is too long (R271). DEDUCED (log 24). -/
def State.chainMembers (s : State) (ctx : Nat) (r : LaunchRec) : Option (List Nat) :=
  let n := r.groups
  if r.chn && decide (65536 < n) then none
  else if r.cmap = 0 then some (if r.chn then List.range n else [])
  else match s.readVa ctx r.cmap (4 * n) with
    | .error _ => none
    | .ok b =>
      let m := (toWords b).map BitVec.toNat
      if (List.range n).all fun k => m.contains k then some (if r.chn then m else []) else none

/-! ### Counters (R313, R314) -/

/-- A unit is complete, or has been removed. -/
def UnitSt.gone (u : UnitSt) : Bool := u.stage == .complete || u.stage == .removed

/-- Whether unit `u` is an ancestor of a unit, along at most `n` steps. -/
def State.descends (s : State) (u : Nat) : Nat → Nat → Bool
  | 0, _ => false
  | n + 1, x =>
    match s.unit x with
    | some y => match y.parent with
      | some p => p == u || s.descends u n p
      | none => false
    | none => false
def State.isUnder (s : State) (u x : Nat) : Bool := s.descends u s.units.cells.length x

/-- Something raised by a unit is still on its way: an engine entry or a spawn (R313). -/
def State.worksOf (s : State) (u : Nat) : Bool :=
  s.entries.any (fun e => e.owner.unit == u) || s.spawns.any (fun r => r.owner.unit == u)

/-- Incomplete work of a unit set: units in it that are not over, and spawns on their way from it. -/
def State.busyUnits (s : State) (p : Nat → UnitSt → Bool) : Bool :=
  s.unitList.any (fun c => p c.1 c.2 && !c.2.gone)
    || s.spawns.any (fun r => match s.unit r.owner.unit with
      | some x => p r.owner.unit x
      | none => false)

/-- Group indices of a launch that have not been dispatched; a cancel passes over those it removes. -/
def LaunchSt.left (l : LaunchSt) : Nat := l.count - l.next

/-- A launch's counter, with unit `u` taken as complete, reads zero. -/
def State.launchZero (s : State) (l : Nat) (u : Option Nat) : Bool :=
  ((s.launch l).map LaunchSt.left).getD 0 == 0
    && !s.unitList.any (fun c => c.2.launch == l && !c.2.gone && some c.1 != u)
    && !s.spawns.any (fun r => ((s.unit r.owner.unit).map UnitSt.launch).getD 0 == l)

/-- A unit that came by a remote enqueue belongs to no launch (R315). DESIGN CHOICE (log 44). -/
def State.strangers (s : State) (j : Nat) (u : Option Nat) : Bool :=
  s.unitList.any fun c => c.2.job == j && c.2.launch == 0 && !c.2.gone && some c.1 != u

def State.phaseList (s : State) : List (Nat × Phase) := s.phases.cells.filterMap fun c => c.2.map fun x => (c.1, x)

/-- What a launch node's phase and graph are, for a unit. -/
def State.nodeOfUnit (s : State) (u : UnitSt) : Option (Nat × Node) :=
  match s.launch u.launch with
  | none => none
  | some l => (s.node l.node).map fun n => (l.node, n)

/-- The phase that holds a unit: its launch node's; that of a unit which came by a remote enqueue is the earliest phase of the job's part
that is not complete. DESIGN CHOICE (log 44). -/
def State.phaseOf (s : State) (x : UnitSt) : Option Nat :=
  match s.nodeOfUnit x with
  | some n => some n.2.phase
  | none => ((s.phaseList.find? fun c => c.2.job == x.job && !c.2.complete).map Prod.fst)

/-- The unit from which a unit descends in the end, along at most `n` steps. -/
def State.rootOf (s : State) : Nat → Nat → Nat
  | 0, u => u
  | n + 1, u => match (s.unit u).bind UnitSt.parent with
    | some p => s.rootOf n p
    | none => u
def State.root (s : State) (u : Nat) : Nat := s.rootOf s.units.cells.length u

/-- Whether unit `k` belongs to the instance, at a level of R317, that holds unit `u`; a unit that came by a remote enqueue stands, with its
descendants, for its launch and its graph. DESIGN CHOICE (log 44). -/
def State.inInstance (s : State) (u : Nat) (x : UnitSt) (level k : Nat) (y : UnitSt) : Bool :=
  let kin := y.job == x.job && y.launch == x.launch && (x.launch != 0 || s.root k == s.root u)
  match level with
  | 0 => s.isUnder u k
  | 1 => kin
  | 2 => kin || (s.nodeOfUnit x).any fun a => (s.nodeOfUnit y).any fun b => a.2.phase == b.2.phase && a.2.graph == b.2.graph
  | 3 => y.job == x.job && s.phaseOf y == s.phaseOf x
  | _ => y.job == x.job

/-- Every node of a phase, of one graph or of all, is complete but for those excepted. -/
def State.nodesZero (s : State) (phase : Nat) (graph : Option Nat) (skip : List Nat) : Bool :=
  s.nodeList.all fun c => c.2.phase != phase || !(graph.all fun g => c.2.graph == g) || c.2.stage == .complete || skip.contains c.1

/-- A phase's counter reads zero. -/
def State.phaseZero (s : State) (p : Nat) : Bool :=
  s.nodesZero p none [] && !s.unitList.any fun c => c.2.launch == 0 && !c.2.gone && s.phaseOf c.2 == some p

/-- A job part's counter reads zero (R314, R315). -/
def State.jobZero (s : State) (j : Nat) : Bool :=
  s.phaseList.all (fun c => c.2.job != j || c.2.complete) && ((s.job j).all fun x => x.remoteOut.isEmpty) && !s.strangers j none

/-- The nodes that depend on a node, directly or through others. -/
def State.dependents (s : State) (phase : Nat) : Nat → List Nat → List Nat
  | 0, acc => acc
  | n + 1, acc =>
    let ix := acc.flatMap fun k => ((s.node k).map Node.succs).getD []
    let next := (s.nodeList.filter fun c => c.2.phase == phase && ix.contains c.2.index && !acc.contains c.1).map Prod.fst
    if next.isEmpty then acc else s.dependents phase n (acc ++ next)

/-! ### Completion, removal, listing -/

/-- Put a place into a die's dispatch list (R328). -/
def State.list (s : State) (e : Listed) : State := { s with listed := s.listed ++ [e] }

/-- A spawned unit whose predecessors are complete joins its job's home die's list (R325). -/
def State.listUnit (s : State) (u : Nat) : State :=
  match s.unit u with
  | none => s
  | some x =>
    let s1 := s.setUnit u { x with stage := .listed }
    if x.void then s1
    else s1.list { die := ((s.job x.job).map Job.homeDie).getD 0, prio := x.lrec.prio, unit := some u }

/-- The predecessor counts of a unit's successors fall by one. -/
def State.releaseSuccs (s : State) (succs : List Nat) : State :=
  succs.foldl (fun (acc : State) k =>
    match acc.unit k with
    | none => acc
    | some x =>
      let acc := acc.setUnit k { x with npred := x.npred - 1 }
      if x.stage == .matched && x.npred ≤ 1 then acc.listUnit k else acc) s

/-- A job that has ended or is complete, with no unit left, releases its incumbent registers (R433). -/
def State.settleJob (s : State) (j : Nat) : State :=
  if ((s.job j).any fun x => x.ended.isSome || x.complete) && s.unitList.all (fun c => c.2.job != j || c.2.gone) then
    { (s.updJob j fun x => { x with incs := {} }) with replicas := (s.replicas.filter fun r => r.job != j) }
  else s

/-- Cancels whose covered units are all over: their flags fall (R319). -/
def State.endSweeps (s : State) : State :=
  let done (w : Sweep) : Bool := w.units.all fun u => ((s.unit u).map UnitSt.gone).getD true
  let s1 := (s.sweeps.filter done).foldl (fun (acc : State) w => acc.flagDown w.owner) s
  { s1 with sweeps := (s.sweeps.filter fun w => !done w) }

/-- A unit leaves: complete, or removed before it ran. -/
def State.finishUnit (s : State) (u : Nat) (how : UnitStage) : State :=
  match s.unit u with
  | none => s
  | some x =>
    let s1 := { (s.setUnit u { x with stage := how, succs := [] }) with
      listed := (s.listed.filter fun e => e.unit != some u) }
    ((s1.releaseSuccs x.succs).endSweeps.settleJob x.job).progress x.job

/-- One more request of a job dropped (R320). -/
def State.dropOne (s : State) (j : Nat) : State := s.updJob j fun x => { x with dropped := x.dropped + 1 }

/-! ### Launching nodes (R325) -/

/-- The dispatcher refuses a launch: a TYPE 5 record, and the job ends (R326). -/
def State.refuseLaunch (s : State) (ctx job launch : Nat) : State :=
  ((s.report { typ := 5, ctx := ctx, job := job, launch := launch }).endJob job 5).settleJob job

/-- A die is open to the dispatcher: it runs, and one of its cores is open. -/
def State.dieOpen (s : State) (d : Nat) : Bool :=
  (s.die d).dvs.extractLsb' 30 2 != 2 && (s.die d).dvs.extractLsb' 30 2 != 3
    && (List.range Config.coresPerDie).any fun k =>
      (s.core (d * Config.coresPerDie + k)).enabled && !(s.core (d * Config.coresPerDie + k)).closed

/-- The devices on which a chain goes on have the ordered channel (R389). -/
def State.spanOk (s : State) (sp : Option Span) : Bool :=
  sp.all fun x => (s.peers.get x.before).mask.getLsbD 25 && (s.peers.get x.after).mask.getLsbD 25

/-- A job's parts on other devices all forward incumbents (R389). -/
def State.partsForward (s : State) (j : Nat) : Bool :=
  (s.job j).all fun x => x.parts.all fun d => (s.peers.get d).mask.getLsbD 26

/-- Place a launch's indices in the list of every open die (R325). -/
def State.listLaunch (s : State) (l : Nat) : State :=
  match s.launch l with
  | none => s
  | some x =>
    (List.range Config.dies).foldl (fun (acc : State) d =>
      if acc.dieOpen d && !(acc.listed.any fun e => e.die == d && e.launch == some l) then
        acc.list { die := d, prio := x.lrec.prio, launch := some l }
      else acc) s

/-- A launch node launches. -/
def State.launchNode (s : State) (n : Nat) (x : Node) (ctx job : Nat) : State :=
  let (l, s0) := s.take
  let k := ((s.job job).map Job.launched).getD 0
  let s1 := s0.updJob job fun y => { y with launched := k + 1 }
  match s1.readLaunch ctx x.obj with
  | none => s1.refuseLaunch ctx job k
  | some r =>
    match s1.chainMembers ctx r with
    | none => s1.refuseLaunch ctx job k
    | some ms =>
      if !s1.partsForward job || !s1.spanOk x.span then s1.refuseLaunch ctx job k
      else
        let s2 := s1.setLaunch l
          { job := job, number := k, ctx := ctx, node := n, lrec := r, count := r.groups
            members := ms.map fun k => ({ unit := k } : Member), span := if ms.isEmpty then none else x.span }
        (s2.updNode n fun y => { y with stage := .launched, launch := some l }).listLaunch l

/-- A node whose count reads zero launches; a copy node waits where the graph copy queue of its die holds 256 entries. One whose block meets a
fault enters it too, and the block is read again at its start, where the slow path may service the fault (R380). -/
def State.startNode (s : State) (n : Nat) : State :=
  match s.node n with
  | none => s
  | some x =>
    match s.phase x.phase with
    | none => s
    | some p =>
      if x.stage != .waiting || ((s.job p.job).any fun j => j.ended.isSome) then s
      else match x.kind with
        | .launch => s.launchNode n x p.ctx p.job
        | .copy =>
          let c : Option CopyWork := match s.nodeBlock p.ctx x.obj n with
            | .ok c => some c
            | .serve _ => some { node := some n, block := some x.obj }
            | _ => none
          match c with
          | none =>
            (s.report { typ := 4, ctx := p.ctx, job := p.job, info := x.index }).updNode n fun y => { y with stage := .launched }
          | some c =>
            if 256 ≤ s.queueLen (((s.job p.job).map Job.homeDie).getD 0) .graph then s
            else
              let x : Entry := { queue := .graph, core := ((s.job p.job).map Job.homeDie).getD 0, owner := { ctx := p.ctx }, work := .copy c }
              (s.addEntry x).updNode n fun y => { y with stage := .launched }

/-- The predecessor counts of a node's successors fall; those at zero launch. -/
def State.releaseNodes (s : State) (phase : Nat) (succs : List Nat) : State :=
  succs.foldl (fun (acc : State) k =>
    match acc.nodeList.find? fun c => c.2.phase == phase && c.2.index == k with
    | none => acc
    | some (n, x) =>
      let acc := acc.updNode n fun y => { y with npred := y.npred - 1 }
      if x.stage == .waiting && x.npred ≤ 1 then acc.startNode n else acc) s

/-- A node is complete when its launch's counter reads zero, or its copy is performed. -/
def State.nodeDone (s : State) (n : Nat) (x : Node) : Bool :=
  x.stage == .launched && (match x.kind, x.launch with
    | .launch, some l => s.launchZero l none
    | .launch, none => false
    | .copy, _ => !s.entries.any fun e => match e.work with
      | .copy c => c.node == some n
      | _ => false)

def State.completeNode (s : State) (n : Nat) : State :=
  match s.node n with
  | none => s
  | some x => (s.updNode n fun y => { y with stage := .complete }).releaseNodes x.phase x.succs

/-- Copy nodes that wait for room among the 256 entries of their die's graph copy queue enter it (R380). -/
def State.feedGraph (s : State) : State :=
  (s.nodeList.filter fun c => c.2.stage == .waiting && c.2.kind == .copy && c.2.npred == 0).foldl (fun (acc : State) c => acc.startNode c.1) s

def execNodeComplete (node : Nat) (s : State) : Out :=
  .next <| match s.node node with
  | none => s
  | some x => if s.nodeDone node x then (s.completeNode node).feedGraph else s

/-! ### `GROW` (R321) -/

/-- The request leaves for the dispatcher with the generation of its unit (R320). DESIGN CHOICE (log 45). -/
def execGrow (y : Bool) (g : BitVec 3) (d a : BitVec 7) (s : State) : Out :=
  issueWord (.grow y g d a) s fun c t =>
    if (t.launch c.unit.launch).any fun l => l.lrec.extents != 1 then .emul
    else
      let (id, t) := t.take
      .done { t with spawns := t.spawns ++
        [{ id := id, owner := c.owner d, core := c.core, grow := some (c.low32 a).toNat, cancelGen := c.unit.cancelGen }] }

/-- A `GROW` reaches the dispatcher: the group count rises, or overflows and stays; a unit that belongs to no launch of this device grows
none (R321). -/
def State.growLaunch (s : State) (o : Owner) (launch n : Nat) : State :=
  match s.launch launch with
  | none => s.deliverAll o [0xFFFFFFFF]
  | some l =>
    if 2 ^ 32 - 1 < l.count + n then s.deliverAll o [0xFFFFFFFF]
    else
      let s1 := s.updLaunch launch fun x => { x with count := x.count + n }
      (if n = 0 then s1 else s1.listLaunch launch).deliverAll o [BitVec.ofNat 32 l.count]

/-! ### `SPAWN` (R322 to R324) -/

/-- The ranges of a spawn record: reads first, then writes; none on a reserved value. -/
def spawnRanges (u : UnitSt) (w nr nw : Nat) : Option (List Range) :=
  (List.range (nr + nw)).foldr (fun i acc =>
    let base := u.winValue (w + 0x20 + 16 * i) 8
    let len := u.winValue (w + 0x28 + 16 * i) 4
    if len = 0 ∨ 2 ^ 57 < base + len ∨ u.winValue (w + 0x2C + 16 * i) 4 ≠ 0 then none
    else acc.map fun l => { write := decide (nr ≤ i), base := base, len := len } :: l) (some [])

/-- The stamp of R349: `BNDC` and the lowest active lane's `BND`, while the cull test is in force. -/
def Ctx.stamp (c : Ctx) : Option (Word × Word) :=
  if c.f.bndc.getLsbD 7 then some (c.f.bndc, (c.f.lane ((lowest c.act).getD 0)).bnd) else none

def execSpawn (y : Bool) (g : BitVec 3) (d a : BitVec 7) (s : State) : Out :=
  issueWord (.spawn y g d a) s fun c t =>
    let u := t.unitOf c.f
    let w := (c.low32 a).toNat
    match c.block s t u w 32 32 with
    | some e => e
    | none =>
      let x := u.winValue (w + 0x10) 4
      let nr := x % 16
      let nw := x / 16 % 16
      if 2 ^ 24 ≤ x ∨ x.testBit 8 ∨ 4 < nr ∨ 4 < nw ∨ (u.winBytes (w + 0x14) 12).any (· != 0) then .emul
      else match c.block s t u w 32 (32 + 16 * (nr + nw)) with
        | some e => e
        | none =>
          match spawnRanges u w nr nw with
          | none => .emul
          | some rs =>
            let (id, t) := t.take
            .done { t with spawns := t.spawns ++
              [{ id := id, owner := c.owner d, core := c.core, krec := BitVec.ofNat 64 (u.winValue w 8)
                 args := BitVec.ofNat 64 (u.winValue (w + 8) 8), ranges := rs
                 remote := if x.testBit 23 then some (x / 2 ^ 9 % 2 ^ 14) else none
                 cancelGen := u.cancelGen, stamp := c.stamp }] }

/-- The value and payload that a core's or a die's replica of an incumbent holds (R338). -/
def State.replica (s : State) (j n : Nat) (onDie : Bool) (place : Nat) : Word × Word :=
  match s.replicas.find? fun r => r.job == j && r.reg == n && r.onDie == onDie && r.place == place with
  | some r => (r.value, r.payload)
  | none =>
    let i := ((s.job j).map fun x => x.incs.get n).getD {}
    (i.value, i.payload)

/-- A stamp is passed by a die's replica (R349). -/
def State.stampPassed (s : State) (j die : Nat) (st : Option (Word × Word)) : Bool :=
  match st with
  | none => false
  | some (bndc, bnd) => passes bndc (s.replica j (bndc.extractLsb' 0 4).toNat true die).1 bnd

/-- A spawn is dropped before it is entered, or a `GROW` before it acts: DROPPED rises, and the result is 0, or 0xFFFF_FFFF. -/
def State.dropSpawn (s : State) (r : SpawnReq) : State :=
  let s1 := { s with spawns := (s.spawns.filter fun x => x.id != r.id) }
  (s1.dropOne (s1.jobOf r.owner.unit)).deliverAll r.owner [if r.grow.isSome then 0xFFFFFFFF else 0]

/-- Two ranges share a byte. -/
def Range.meets (a b : Range) : Bool := decide (a.base < b.base + b.len ∧ b.base < a.base + a.len)

/-- Whether a child with some ranges depends on a unit with others (R324). -/
def dependsOn (c u : List Range) : Bool := c.any fun a => u.any fun b => (a.write || b.write) && a.meets b

/-- Units that a die's range matcher holds. -/
def State.matcherLoad (s : State) (die : Nat) : Nat :=
  (s.unitList.filter fun c => c.2.spawned && !c.2.gone && ((s.job c.2.job).map Job.homeDie).getD 0 == die).length

/-- A child is entered into the matcher: its record is read, its predecessor count taken (R322, R324). -/
def State.enterChild (s : State) (job ctx launch : Nat) (parent : Option Nat) (krec args : DWord) (ranges : List Range)
    (stamp : Option (Word × Word)) : State :=
  let lrec := s.readLaunch ctx krec
  let preds := (s.unitList.filter fun c => c.2.job == job && c.2.spawned && !c.2.gone && dependsOn ranges c.2.ranges).map Prod.fst
  let (id, s1) := s.take
  let n := ((s.job job).map Job.spawned).getD 0
  let s2 := s1.setUnit id
    { job := job, ctx := ctx, launch := launch, index := n, spawned := true, lrec := lrec.getD {}, args := args, parent := parent
      ranges := ranges, npred := preds.length, stamp := stamp, void := lrec.isNone }
  let s3 := preds.foldl (fun (acc : State) p => acc.updUnit p fun x => { x with succs := x.succs ++ [id] }) s2
  let s4 := s3.updJob job fun x => { x with spawned := x.spawned + 1 }
  let s5 := if lrec.isNone then s4.report { typ := 5, ctx := ctx, job := job, unit := 2 ^ 31 + n } else s4
  if preds.isEmpty then s5.listUnit id else s5

/-- A request of the same core's buffer, of the same job, stands before another: it arrives first (R324). -/
def State.spawnBefore (s : State) (r : SpawnReq) : Bool :=
  (s.spawns.takeWhile fun x => x.id != r.id).any fun x =>
    !x.sent && x.core == r.core && s.jobOf x.owner.unit == s.jobOf r.owner.unit

/-- A spawn reaches the matcher, or leaves for another device; a `GROW` reaches the dispatcher (R315, R320 to R322, R324, R349). One whose
stamp the replica of the die that holds it passes, its core's or the home die's, is dropped. -/
def execSpawnArrival (id : Nat) (s : State) : Out :=
  .next <| match s.spawns.find? fun r => r.id == id && !r.sent with
  | none => s
  | some r =>
    match s.unit r.owner.unit with
    | none => s.dropSpawn r
    | some p =>
      let die := ((s.job p.job).map Job.homeDie).getD 0
      if s.spawnBefore r then s
      else if p.cancelGen != r.cancelGen || s.stampPassed p.job (dieOf r.core) r.stamp || s.stampPassed p.job die r.stamp then s.dropSpawn r
      else
        let s1 := { s with spawns := (s.spawns.filter fun x => x.id != id) }
        match r.grow, r.remote with
        | some n, _ => s1.growLaunch r.owner p.launch n
        | none, some _ =>
          { (s.updJob p.job fun x => { x with remoteOut := x.remoteOut ++ [id] }) with
            spawns := (s.spawns.map fun x => if x.id == id then { x with sent := true } else x) }
        | none, none =>
          if 8192 ≤ s.matcherLoad die then s
          else (s1.enterChild p.job p.ctx p.launch (some r.owner.unit) r.krec r.args r.ranges r.stamp).deliverAll r.owner [1]

/-- A part of a job on this device receives an enqueue from another part, with its stamp; a child whose stamp the home die's replica passes
is dropped (R315, R316, R349). -/
def execRemoteEnqueueReceive (job dev krec args : Nat) (body : EnqueueBody) (s : State) : Out :=
  .next <| match s.job job with
  | none => s
  | some x =>
    if x.ended.isSome || x.complete || !x.parts.contains dev || 8192 ≤ s.matcherLoad x.homeDie then s
    else
      let s1 := s.updJob job fun y => { y with rcvd := y.rcvd + 1 }
      (if s1.stampPassed job x.homeDie body.stamp then s1.dropOne job
       else s1.enterChild job x.ctx 0 none (BitVec.ofNat 64 krec) (BitVec.ofNat 64 args)
        (body.ranges.map fun r => { write := r.1, base := r.2.1, len := r.2.2 }) body.stamp).progress job

/-- The acknowledgement of a remote enqueue: the counter falls, the result is given (R315, R322). -/
def execRemoteEnqueueAck (id : Nat) (entered : Bool) (s : State) : Out :=
  .next <| match s.spawns.find? fun r => r.id == id && r.sent with
  | none => s
  | some r =>
    let j := s.jobOf r.owner.unit
    let s1 := { s with spawns := (s.spawns.filter fun x => x.id != id) }
    let s2 := s1.updJob j fun x => { x with remoteOut := x.remoteOut.erase id }
    (s2.deliverAll r.owner [if entered then 1 else 0]).progress j

/-- Children not yet admitted whose stamps the die's replica passes are removed; buffered spawns are dropped (R349). -/
def State.stampSweep (s : State) (j die : Nat) : State :=
  let kids := (s.unitList.filter fun c => c.2.job == j && (c.2.stage == .matched || c.2.stage == .listed)
    && ((s.job j).map Job.homeDie).getD 0 == die && s.stampPassed j die c.2.stamp).map Prod.fst
  let s1 := kids.foldl (fun (acc : State) u => (acc.finishUnit u .removed).dropOne j) s
  (s1.spawns.filter fun r => !r.sent && s1.jobOf r.owner.unit == j && dieOf r.core == die
    && s1.stampPassed j die r.stamp).foldl (fun (acc : State) r => acc.dropSpawn r) s1

/-! ### `CWAIT` and `CANCEL` (R317 to R319) -/

/-- Units of the range matcher that cannot start before those given are complete, directly or through others, beside the given (R324). -/
def State.unitsAfter (s : State) : Nat → List Nat → List Nat
  | 0, acc => acc
  | n + 1, acc =>
    let next := ((acc.flatMap fun k => ((s.unit k).map UnitSt.succs).getD []).filter fun k => !acc.contains k).eraseDups
    if next.isEmpty then acc else s.unitsAfter n (acc ++ next)
def State.after (s : State) (u : Nat) : List Nat := s.unitsAfter s.units.cells.length [u]

/-- A `CWAIT` of a unit waits for unit `k`: one of its instance other than the unit itself, of no later phase, that can complete without it
(R318). -/
def State.awaits (s : State) (u : Nat) (x : UnitSt) (level k : Nat) (y : UnitSt) : Bool :=
  s.inInstance u x level k y && ((s.phaseOf y).all fun p => (s.phaseOf x).all fun q => decide (p ≤ q)) && !(s.after u).contains k

/-- The counter that a `CWAIT` tests reads zero, the issuing unit taken as complete and what depends on it left out, nodes and children in
the matcher alike (R318); a `GROW` on its way counts for its launch, not for the unit (R314). -/
def State.cwaitTest (s : State) (u level : Nat) : Bool :=
  match s.unit u with
  | none => true
  | some x =>
    let skip := match s.nodeOfUnit x with
      | some n => s.dependents n.2.phase s.nodes.cells.length [n.1]
      | none => []
    let others (k : Nat) (y : UnitSt) : Bool := k != u && s.awaits u x level k y
    let nodes (graph : Option Nat) : Bool := (s.phaseOf x).all fun p => s.nodesZero p graph skip
    !s.spawns.any (fun r => r.owner.unit == u && (level != 0 || r.grow.isNone)) && !s.busyUnits others
    && (level == 0 || ((s.launch x.launch).map LaunchSt.left).getD 0 == 0)
    && (match level with
      | 0 => true
      | 1 => true
      | 2 => (s.nodeOfUnit x).all fun n => s.nodesZero n.2.phase (some n.2.graph) skip
      | 3 => nodes none
      | _ => nodes none && ((s.job x.job).all fun j => j.remoteOut.isEmpty)
          && s.phaseList.all fun p => p.2.job != x.job || p.2.complete || ((s.phaseOf x).all fun q => decide (q ≤ p.1)))

/-- Lanes whose `CWAIT` is over observe the completed work (R318). -/
def execCwait (y : Bool) (g l : BitVec 3) (s : State) : Out :=
  issueWord (.cwait y g l) s fun c t =>
    if t.cwaitTest c.f.unit l.toNat then .done (t.dropCache c.core) else .done (t.holdLanes c c.act (.cwait l.toNat))

/-- Lanes of a sheaf held at a wait that a test names. -/
def Sheaf.heldAt (f : Sheaf) (p : Hold → Bool) : Mask := laneMask fun l => (f.lane l).life == .live && p (f.lane l).hold

def execCwaitRelease (sheaf : Nat) (s : State) : Out :=
  .next <| match s.sheaf sheaf with
  | none => s
  | some f =>
    let m := f.heldAt fun h => match h with
      | .cwait k => s.cwaitTest f.unit k
      | _ => false
    if m = 0 then s else (s.releaseLanes sheaf m true).acquireAt sheaf

/-- The sweep of a cancel: running units marked for the cull, queued ones removed, launches and nodes that a test names
stopped (R319). DEDUCED (log 47). -/
def State.cancelSweep (s : State) (units : List Nat) (launches nodes : List Nat) : State :=
  let s1 := launches.foldl (fun (acc : State) l => acc.updLaunch l fun x => { x with removed := true, next := x.count }) s
  let s2 := { s1 with listed := (s1.listed.filter fun e => !(e.launch.any fun l => launches.contains l)) }
  let s3 := units.foldl (fun (acc : State) u =>
    match acc.unit u with
    | none => acc
    | some x =>
      if x.gone then acc
      else if x.stage == .resident || x.stage == .saved then
        acc.setUnit u { x with cancelled := true, cancelGen := x.cancelGen + 1 }
      else (acc.setUnit u { x with cancelGen := x.cancelGen + 1 }).finishUnit u .removed) s2
  let gone := nodes.filterMap fun n => (s3.node n).bind fun x => if x.stage == .waiting then some (n, x) else none
  let s4 := gone.foldl (fun (acc : State) n => acc.updNode n.1 fun x => { x with stage := .complete }) s3
  gone.foldl (fun (acc : State) n => acc.releaseNodes n.2.phase n.2.succs) s4

/-- The nodes of the instance at a level that holds a unit. -/
def State.nodesIn (s : State) (x : UnitSt) (level : Nat) : List Nat :=
  let home := s.nodeOfUnit x
  let inNodes (n : Node) : Bool :=
    match level with
    | 2 => home.any fun h => h.2.phase == n.phase && h.2.graph == n.graph
    | 3 => s.phaseOf x == some n.phase
    | 4 => (s.phase n.phase).any fun p => p.job == x.job
    | _ => false
  (s.nodeList.filter fun n => inNodes n.2).map Prod.fst

/-- The cancel of an instance, the unit that issued it spared; the units that it covered are named (R319). -/
def State.cancelInstance (s : State) (me : Nat) (x : UnitSt) (level : Nat) : State × List Nat :=
  let nodes := s.nodesIn x level
  let launches := (s.launchList.filter fun l => l.1 == x.launch && decide (1 ≤ level) || nodes.contains l.2.node).map Prod.fst
  let units := (s.unitList.filter fun y => y.1 != me && !y.2.gone && s.inInstance me x level y.1 y.2).map Prod.fst
  (s.cancelSweep units launches nodes, units)

def execCancel (y : Bool) (g l : BitVec 3) (s : State) : Out :=
  issueWord (.cancel y g l) s fun c t =>
    let (t, units) := t.cancelInstance c.f.unit c.unit l.toNat
    let w : Sweep := { owner := c.owner 120, units := units }
    let t : State := { t with sweeps := t.sweeps ++ [w] }
    .done t.endSweeps

/-- A cancel of a job that another of its parts carries here covers every unit of the part (R319). -/
def State.cancelJob (s : State) (j : Nat) : State :=
  match s.job j with
  | none => s
  | some _ => (s.cancelInstance 0 { job := j } 4).1

/-! ### Dispatch (R328, R329) -/

/-- Sheaves that occupy slots of a core, by slot. -/
def State.slotsTaken (s : State) (core : Nat) : List (Nat × Sheaf) :=
  s.sheafList.filterMap fun c => match c.2.place with
    | some (k, sl) => if k == core && c.2.liveMask != 0 then some (sl, c.2) else none
    | none => none

/-- Units that reside on a core. -/
def State.residents (s : State) (core : Nat) : List (Nat × UnitSt) :=
  s.unitList.filter fun c => c.2.stage == .resident && c.2.core == some core

/-- The lowest window offset, a multiple of 768, at which a size fits beside others: R167 names none. DESIGN CHOICE (log 77). -/
def firstFit (share size : Nat) (taken : List (Nat × Nat)) : Option Nat :=
  let free (o : Nat) : Bool := taken.all fun t => decide (o + size ≤ t.1 ∨ t.1 + t.2 ≤ o) || t.2 == 0 || size == 0
  let spots := (0 :: taken.map fun t => t.1 + t.2).filter fun o => decide (o + size ≤ share) && free o
  spots.foldl (fun best o => match best with
    | none => some o
    | some b => some (min b o)) none

/-- A core has room for a unit: partition word, registers, slots, the set's numbers, a place for its window (R328). -/
def State.hasRoom (s : State) (core : Nat) (r : LaunchRec) : Option Nat :=
  let k := s.core core
  let res := s.residents core
  let p := poolShares (if res.isEmpty then r.pword else k.pword)
  let taken := s.slotsTaken core
  let regs := (taken.map fun t => (s.unitOf t.2).lrec.nv * 128).foldl (· + ·) 0
  let dieOk := (s.die (dieOf core)).dvs.extractLsb' 31 1 == 0
  if !k.enabled || k.closed || k.saving.isSome || !dieOk || (!res.isEmpty && k.pword != r.pword) then none
  else if p.1 * 24576 < regs + r.sheaves * (r.nv * 128) ∨ 64 < taken.length + r.sheaves then none
  else if r.slots.any (fun m => (k.slots.get m).claim.isSome)
      || res.any (fun u => u.2.lrec.handles.any r.handles.contains) then none
  else firstFit (p.2.1 * 24576) r.win (res.map fun u => (u.2.winOff, u.2.lrec.win))

/-- A record and context fit a core for admission: none of the context's budgets is exhausted either (R328). -/
def State.fits (s : State) (core : Nat) (r : LaunchRec) (ctx : Nat) : Option Nat :=
  if [Budget.hbm, .fabric, .copy, .mill, .quern].any (s.exhausted ctx) then none else s.hasRoom core r

/-- The slot for the next sheaf of a unit: on the quadrant with the most free slots, the lowest free one (R328). -/
def pickSlot (taken : List Nat) : Nat :=
  let free (q : Nat) : List Nat := ((List.range 16).map (16 * q + ·)).filter fun n => !taken.contains n
  let best := (List.range 4).foldl (fun b q => if (free b).length < (free q).length then q else b) 0
  (free best).headD 0

/-- The lowest private sheaf number free in a context (R359). -/
def State.freePriv (s : State) (ctx : Nat) : Nat :=
  let used := (s.sheafList.filter fun c => c.2.liveMask != 0 && (s.unitOf c.2).ctx == ctx).map fun c => c.2.privNo
  ((List.range (used.length + 1)).find? fun k => !used.contains k).getD 0

/-- The empty descriptors of a kernel's window queues (R330). DEDUCED (log 19). -/
def queueImage (kpc : DWord) : List (Nat × Byte) :=
  (Config.windowQueues kpc.toNat).flatMap fun q =>
    ((List.range 16).zip (toBytes 8 q.2.1 ++ toBytes 4 q.2.2.1 ++ toBytes 4 q.2.2.2)).map fun c => (q.1 + c.1, c.2)

/-- The tiles of a core read +0 with no poison (R166). -/
def Core.clearTiles (k : Core) : Core := { k with tiles := {}, tilePoison := {}, tileUnit := {} }

/-- The core as a unit's admission leaves it: the word loaded if it was empty, tiles cleared where R166 says, slots claimed. -/
def Core.takeUnit (k : Core) (u : Nat) (x : UnitSt) (empty : Bool) : Core :=
  let k1 := if empty then { k.clearTiles with pword := x.lrec.pword, tileCtx := none } else k
  let k2 := if k1.tileCtx.all (· == x.ctx) then k1 else { k1.clearTiles with tileCtx := none }
  { k2 with slots := x.lrec.slots.foldl (fun acc m => acc.modify m fun y => { y with claim := some u }) k2.slots }

/-- A sheaf at its first instruction (R41). DESIGN CHOICE (log 4). -/
def newSheaf (u index core slot gen privNo seq : Nat) (x : UnitSt) : Sheaf :=
  let lanes : Store LaneSt := ⟨laneList.map fun l =>
    (l, { pc := x.lrec.kpc, start := x.lrec.kpc, startSeq := seq, syncRegion := seq })⟩
  { unit := u, index := index, place := some (core, slot), gen := gen, privNo := privNo, lanes := lanes
    u := (({} : Store Word).set 0 (lo32 x.args)).set 1 (hi32 x.args) }

/-- Place a unit's sheaves on a core, in ascending index. -/
def State.placeSheaves (s : State) (u core : Nat) (x : UnitSt) : State :=
  (List.range x.lrec.sheaves).foldl (fun (acc : State) i =>
    let slot := pickSlot ((acc.slotsTaken core).map Prod.fst)
    let gen := ((acc.core core).slotGen.get slot + 1) % 2 ^ 16
    let (id, a1) := acc.take
    let (seq, a2) := a1.take
    (a2.updCore core fun k => { k with slotGen := k.slotGen.set slot gen }).setSheaf id
      (newSheaf u i core slot gen (acc.freePriv x.ctx) seq x)) s

/-- A unit is admitted to a core at a window offset; its first instruction acquires what its start releases, so the core's read cache is
discarded (R323, R325, R381). -/
def State.letIn (s : State) (core u off : Nat) (x : UnitSt) : State :=
  let empty := (s.residents core).isEmpty
  let x := { x with core := some core, stage := .resident, winOff := off, win := {}, winPoison := {}, winHalf := {} }
  let x := x.winStore (queueImage x.lrec.kpc)
  let s1 := ((s.setUnit u x).updCore core fun k => k.takeUnit u x empty).dropCache core
  (s1.placeSheaves u core x).progress x.job

/-- A die's dispatch list in order: descending priority, then arrival. -/
def State.dieList (s : State) (d : Nat) : List Listed :=
  (List.range 8).reverse.flatMap fun p => s.listed.filter fun e => e.die == d && e.prio == p

/-- The record and context of a place in a list. -/
def State.listedRec (s : State) (e : Listed) : LaunchRec × Nat :=
  match e.unit, e.launch with
  | some u, _ => ((s.unit u).map fun x => (x.lrec, x.ctx)).getD ({}, 0)
  | none, some l => ((s.launch l).map fun x => (x.lrec, x.ctx)).getD ({}, 0)
  | none, none => ({}, 0)

/-- Admit the unit of a place: a spawned unit, or the launch's next index. -/
def State.admitListed (s : State) (core off : Nat) (e : Listed) : State :=
  match e.unit, e.launch with
  | some u, _ =>
    match s.unit u with
    | none => s
    | some x => ({ s with listed := (s.listed.filter fun y => y.unit != some u) }).letIn core u off x
  | none, some l =>
    match s.launch l with
    | none => s
    | some x =>
      let (u, s1) := s.take
      let i := x.next
      let grown := decide (x.lrec.groups ≤ i)
      let unit : UnitSt :=
        { job := x.job, ctx := x.ctx, launch := l, index := i, grown := grown, lrec := x.lrec, args := x.lrec.args
          ux := if grown then i else i % x.lrec.gx
          uy := if grown then 0 else i / x.lrec.gx % x.lrec.gy
          uz := if grown then 0 else i / (x.lrec.gx * x.lrec.gy) }
      let s2 := s1.updLaunch l fun y => { y with next := i + 1 }
      let s3 := { s2 with listed := if x.count ≤ i + 1 then (s2.listed.filter fun y => y.launch != some l)
                                    else (s2.listed.map fun (y : Listed) => if y.launch == some l then { y with pass := 0 } else y) }
      s3.letIn core u off unit
  | none, none => s

/-- A core in its turn in a cycle of its die admits the first unit of the die's list that fits, as AGE allows; the cores take
their turns in ascending number (R329). DEDUCED (log 76). -/
def execUnitAdmission (core : Nat) (s0 : State) : Out :=
  .next <|
    let d := dieOf core
    let s := { s0 with admitFrom := core + 1 }
    let fit (e : Listed) : Option Nat := let r := s.listedRec e; s.fits core r.1 r.2
    if core < s0.admitFrom ∨ !(s0.die d).running then s0
    else match s.dieList d with
    | [] => s0
    | head :: rest =>
      match fit head with
      | some off => s.admitListed core off head
      | none =>
        if s.regs.age ≤ head.pass then s0
        else match rest.find? fun e => (fit e).isSome with
          | none => s0
          | some e =>
            let elsewhere := (List.range Config.coresPerDie).any fun k =>
              let r := s.listedRec head
              (s.fits (d * Config.coresPerDie + k) r.1 r.2).isSome
            let s1 := s.admitListed core ((fit e).getD 0) e
            if elsewhere then s1
            else { s1 with listed := (s1.listed.map fun y => if y == head then { y with pass := min 255 (y.pass + 1) } else y) }

/-- A sheaf has no live lane, and nothing that it committed is still to be performed. -/
def Sheaf.retired (f : Sheaf) : Bool :=
  f.liveMask == 0

/-- A unit's sheaves have all retired and its work is done: it completes, its slots are released as an `MREL` releases them, the counts above
it fall (R237, R313, R314). -/
def execUnitComplete (unit : Nat) (s : State) : Out :=
  .next <| match s.unit unit with
  | none => s
  | some x =>
    let done := if x.void then x.stage == .listed
      else x.stage == .resident && (s.sheavesOf unit).all (fun c => c.2.retired) && !s.worksOf unit
    if !done then s
    else ((List.range 32).foldl (fun (acc : State) m => (acc.undescribe unit m).freeSlot unit m) s).finishUnit unit .complete

/-! ### Jobs (R316, R433) -/

/-- Baruri sweeps over the parts of a job: the counter and RCVD of each of the others come with the sweep, and its own are read. Counters of
zero everywhere and the RCVD of the sweep before mean complete; a job that one device holds needs no second sweep. -/
def execJobCompletionSweep (job : Nat) (parts : List (Nat × Nat)) (s : State) : Out :=
  .next <| match s.job job with
  | none => s
  | some x =>
    let totals := x.rcvd.toNat :: parts.map Prod.snd
    if x.ended.isSome || parts.length != x.parts.length then s
    else if !s.jobZero job || parts.any (fun p => p.1 != 0) then s.updJob job fun y => { y with swept := none }
    else if x.parts.isEmpty || x.swept == some totals then (s.updJob job fun y => { y with complete := true }).settleJob job
    else s.updJob job fun y => { y with swept := some totals }

/-- Baruri ends a job, at the host's request or for a cause that a record names (R433); 16 stands for a cancel of the job that another of
its parts carries here (R319). DESIGN CHOICE (log 81). -/
def execJobEnd (job cause : Nat) (s : State) : Out :=
  .next (if cause = 16 then s.cancelJob job else (s.endJob job cause).settleJob job)

end Sys2Proof.Machine
end

