-- ==== Sys2Proof/Machine/Queues.lean ====
section
/-!
DEFINITION. Queues between units, and unit barriers (R330 to R334).
-/
namespace Sys2Proof.Machine

/-! ### Issue (R331) -/

/-- Colours' counts of stores that a sheaf has committed (R333). -/
def Sheaf.stamp (f : Sheaf) : List Nat := (List.range 8).map f.committed.get

/-- Bytes of an item, read from the descriptor that a queue word names; or how the word ends. -/
inductive QIssue where
  | ok (item : Nat) (key : QKey)
  | trap (cause : Nat) (addr : DWord)
  | serve (p : Poison)

/-- The descriptor a queue word names, in the window or at a virtual address (R331, R432). Of an address that is not canonical and off its
alignment the first is reported. DESIGN CHOICE (log 83). -/
def State.queueAt (s : State) (c : Ctx) (a : BitVec 7) (virt : Bool) : QIssue :=
  let u := s.unitOf c.f
  if !virt then
    let w := (c.low32 a).toNat
    match checkBlock u w 64 64 with
    | some k => .trap k (BitVec.ofNat 64 w)
    | none =>
      if u.winPoisoned (w + 0x0C) 4 then .serve (u.badWords (w + 0x0C) 4)
      else .ok (u.winValue (w + 0x0C) 4) { unit := some c.f.unit, job := u.job, addr := w }
  else
    let va := c.low64 a
    if va.extractLsb' 57 7 != 0 then .trap 3 va
    else if va.toNat % 64 != 0 then .trap 2 va
    else match s.readVaNat u.ctx (va + 0x0C) 4 with
      | .ok n => .ok n { job := u.job, addr := va.toNat }
      | .error p => if p.serviceable then .serve p else .trap p.cause p.addr

/-- Whether a data register suits items of a size (R331). -/
def itemFits (nv d size : Nat) : Bool := decide (d % (size / 4) = 0 ∧ d + size / 4 ≤ nv)

/-- A queue word: one item for each active lane, its lanes held at the word. -/
def queueWord (i : Instr) (s : State) (push : Bool) (d a : BitVec 7) (virt : Bool) : Out :=
  issueWord i s fun c t =>
    match t.queueAt c a virt with
    | .trap k va => .trap (c.blockTrap k va) t
    | .serve p => c.serve s t p
    | .ok size key =>
      if !([4, 8, 16, 32].contains size) || !itemFits c.unit.lrec.nv d.toNat size then .emul
      else
        let regs := List.range (size / 4)
        match (if push then c.actLanes.findSome? fun l => regs.findSome? fun k => c.poisonIn (d.toNat + k) l else none) with
        | some p => .poison p
        | none =>
          let (id, t) := t.take
          let w : QWord :=
            { id := id, key := key, push := push, owner := c.owner d, size := size
              items := c.actLanes.map fun l => (l, if push then regs.flatMap fun k => wordBytesOf (c.reg (d.toNat + k) l) else [])
              stamp := ((t.sheaf c.id).map Sheaf.stamp).getD [] }
          let t : State := { t with qwords := t.qwords ++ [w] }
          .done (t.holdLanes c c.act (.queue id))

def execQpush (y : Bool) (g : BitVec 3) (d a : BitVec 7) (m : BitVec 2) (s : State) : Out :=
  queueWord (.qpush y g d a m) s true d a (m == 1)
def execQpop (y : Bool) (g : BitVec 3) (d a : BitVec 7) (m : BitVec 2) (s : State) : Out :=
  queueWord (.qpop y g d a m) s false d a (m == 1)

/-! ### At the home (R332) -/

/-- Read and write a queue's storage: its unit's window, or the job's context. -/
def State.qRead (s : State) (k : QKey) (ctx a n : Nat) : Option Nat :=
  match k.unit with
  | some u => (s.unit u).map fun x => x.winValue a n
  | none => match s.readVaNat ctx (BitVec.ofNat 64 a) n with
    | .ok x => some x
    | .error _ => none
def State.qWrite (s : State) (k : QKey) (ctx a : Nat) (b : List Byte) : Option State :=
  match k.unit with
  | some u => some (s.updUnit u fun x => x.winWrite a b)
  | none => match s.keysVa ctx (BitVec.ofNat 64 a) b.length .write with
    | .ok keys => some (s.write (keys.zip b))
    | .error _ => none

/-- A queue's ring, depth, head and tail. -/
structure QDesc where
  ring : Nat
  depth : Nat
  head : Nat
  tail : Nat

def State.qDesc (s : State) (k : QKey) (ctx : Nat) : Option QDesc := do
  let ring ← s.qRead k ctx k.addr 8
  let depth ← s.qRead k ctx (k.addr + 8) 4
  let head ← s.qRead k ctx (k.addr + 0x10) 8
  let tail ← s.qRead k ctx (k.addr + 0x18) 8
  return ⟨ring, depth, head, tail⟩

def QDesc.items (q : QDesc) : Nat := (q.tail + 2 ^ 64 - q.head) % 2 ^ 64
def QDesc.slot (q : QDesc) (n size : Nat) : Nat := q.ring + n % q.depth * size

/-- A queue word is over: its lanes go on together, those of a pop with an acquire, and its flag falls (R332, R333). -/
def State.finishQWord (s : State) (id : Nat) (push : Bool) (o : Owner) : State :=
  let m := ((s.sheaf o.sheaf).map fun f => f.heldAt fun h => h == .queue id).getD 0
  let s1 := (s.releaseLanes o.sheaf (m &&& o.lanes) true).progress (s.jobOf o.unit)
  (if push then s1 else s1.acquireAt o.sheaf).flagDown o

/-- A word whose every lane is served leaves its queue; a pop is over once its last item is written (R332). -/
def State.endQWord (s : State) (w : QWord) : State :=
  let s1 := { s with qwords := (s.qwords.filter fun x => x.id != w.id) }
  if s1.qdeliveries.any fun q => q.word == w.id then s1 else s1.finishQWord w.id w.push w.owner

/-- What is left of a word once some of its lanes are served. -/
def State.putQWord (s : State) (w : QWord) : State :=
  if w.items.isEmpty then s.endQWord w
  else { s with qwords := (s.qwords.map fun x => if x.id == w.id then w else x) }

/-- Place a word's next item in the ring (R332, R333). -/
def State.placeItem (s : State) (w : QWord) (item : List Byte) : Option State := do
  let q ← s.qDesc w.key w.owner.ctx
  let s1 ← s.qWrite w.key w.owner.ctx (q.slot q.tail w.size) item
  let s2 ← s1.qWrite w.key w.owner.ctx (w.key.addr + 0x18) (toBytes 8 (q.tail + 1))
  return { s2 with qstamps := s2.qstamps ++ [{ key := w.key, number := q.tail, sheaf := w.owner.sheaf, counts := w.stamp }] }

/-- Give an item to a lane of a pop word; that of a lane which has been culled is lost (R335). -/
def State.giveItem (s : State) (w : QWord) (lane : Nat) (item : List Byte) (sheaf : Nat) (counts : List Nat) : State :=
  if !w.owner.lanes.getLsbD lane then s else
  let (id, s1) := s.take
  { s1 with qdeliveries := s1.qdeliveries ++
      [{ id := id, word := w.id, owner := w.owner, lane := lane, bytes := item, sheaf := sheaf, counts := counts }] }

/-- The oldest waiter of a queue, of pops or of pushes. -/
def State.waiter (s : State) (k : QKey) (push : Bool) : Option QWord :=
  s.qwords.find? fun w => w.key == k && w.push == push && w.waiting

/-- One item of a push at its turn: to the oldest pop waiter, into the ring, or it has to wait. -/
def State.pushOne (s : State) (w : QWord) (item : List Byte) : Option State :=
  match s.waiter w.key false with
  | some p => match p.items with
    | (l, _) :: rest => some ((s.giveItem p l item w.owner.sheaf w.stamp).putQWord { p with items := rest })
    | [] => none
  | none => match s.qDesc w.key w.owner.ctx with
    | some q => if q.items < q.depth then s.placeItem w item else none
    | none => none

/-- A push waiter places its next item in the room that a pop has made. -/
def State.refill (s : State) (k : QKey) : State :=
  match s.waiter k true with
  | none => s
  | some w => match w.items with
    | (_, b) :: rest => match s.placeItem w b with
      | some t => t.putQWord { w with items := rest }
      | none => s
    | [] => s

/-- One lane of a pop at its turn: the oldest item, or it has to wait. -/
def State.popOne (s : State) (w : QWord) (lane : Nat) : Option State := do
  let q ← s.qDesc w.key w.owner.ctx
  if q.items = 0 then none
  let x ← s.qRead w.key w.owner.ctx (q.slot q.head w.size) w.size
  let st := (s.qstamps.find? fun t => t.key == w.key && t.number == q.head).getD {}
  let s1 ← s.qWrite w.key w.owner.ctx (w.key.addr + 0x10) (toBytes 8 (q.head + 1))
  let s2 := { s1 with qstamps := (s1.qstamps.filter fun t => !(t.key == w.key && t.number == q.head)) }
  return (s2.giveItem w lane (toBytes w.size x) st.sheaf st.counts).refill w.key

/-- Serve a word's lanes in ascending order; those left join the waiters as one, without the lanes that have been culled (R335). -/
def State.serve (s : State) (w : QWord) : List (Nat × List Byte) → State
  | [] => s.endQWord w
  | (l, b) :: rest =>
    match (if w.push then s.pushOne w b else s.popOne w l) with
    | some t => t.serve w rest
    | none =>
      let left := ((l, b) :: rest).filter fun x => w.owner.lanes.getLsbD x.1
      if left.isEmpty then s.endQWord w
      else { s with qwords := (s.qwords.filter fun x => x.id != w.id) ++ [{ w with items := left, waiting := true }] }

/-- A push or pop reaches its queue's home; a word whose descriptor cannot be reached waits on its way. -/
def execQueueWordAtHome (id : Nat) (s : State) : Out :=
  .next <| match s.qwords.find? fun w => w.id == id && !w.waiting with
  | none => s
  | some w => if (s.qDesc w.key w.owner.ctx).isNone then s else s.serve w w.items

/-! ### Delivery (R333) -/

/-- The producer's drained counts have reached a stamp, or it has retired. -/
def State.stampDrained (s : State) (sheaf : Nat) (counts : List Nat) : Bool :=
  match s.sheaf sheaf with
  | none => true
  | some f => f.liveMask == 0 || (List.range counts.length).all fun c => decide (counts.getD c 0 ≤ f.drained.get c)

def execPopDelivery (id : Nat) (s : State) : Out :=
  .next <| match s.qdeliveries.find? fun q => q.id == id with
  | none => s
  | some q =>
    if !s.stampDrained q.sheaf q.counts then s
    else
      let s1 := { s with qdeliveries := (s.qdeliveries.filter fun x => x.id != id) }
      let s2 := s1.updSheaf q.owner.sheaf fun f => f.landWords (s1.now f) q.owner.dst q.lane (toWords q.bytes)
      let more := s2.qdeliveries.any (fun x => x.word == q.word) || s2.qwords.any (fun w => w.id == q.word)
      if more then s2.progress (s.jobOf q.owner.unit) else s2.finishQWord q.word false q.owner

/-! ### Barriers (R334) -/

def execBar (y : Bool) (m : BitVec 4) (s : State) : Out :=
  issueWord (.bar y m) s fun c t => .done (t.holdLanes c c.act (.bar c.op))

/-- A hold at a `BAR`, with its flag operation. -/
def Hold.barrier : Hold → Option Nat
  | .bar op => some op
  | _ => Option.none

/-- Every live lane of the unit is held at a `BAR`: they go on together, and the flags fall. -/
def execBarrierComplete (unit : Nat) (s : State) : Out :=
  .next <|
    let fs := s.sheavesOf unit
    let live := fs.any fun c => c.2.liveMask != 0
    let all := fs.all fun c => (maskLanes c.2.liveMask).all fun l => (c.2.lane l).hold.barrier.isSome
    if !live || !all then s
    else fs.foldl (fun (acc : State) c =>
      let m := c.2.liveMask
      let acc := acc.updSheaf c.1 fun f => (maskLanes m).foldl (fun (g : Sheaf) l =>
        match (c.2.lane l).hold.barrier with
        | some op => g.dropParts op (BitVec.twoPow 32 l)
        | none => g) f
      ((acc.releaseLanes c.1 m true).acquireAt c.1).progress (s.jobOf unit)) s

end Sys2Proof.Machine
end

