-- ==== Sys2Proof/Machine/Incumbents.lean ====
section
/-!
DEFINITION. Incumbents: `INCUP`, `INCRD`, `BNDSET`, `BNDCFG`, the Crier root and its replicas; and `FENCE` (the manual's chapter
Incumbents and the cull; R191).
-/
namespace Sys2Proof.Machine

/-! ### Registers (R337) -/

def Inc.fmt (i : Inc) : Nat := (i.decl.extractLsb' 0 2).toNat
def Inc.maximise (i : Inc) : Bool := i.decl.getLsbD 2
def Inc.payloads (i : Inc) : Bool := i.decl.getLsbD 3
def Inc.declared (i : Inc) : Bool := i.decl.getLsbD 4

def State.inc (s : State) (j n : Nat) : Inc := ((s.job j).map fun x => x.incs.get n).getD {}

/-- An incumbent word names a declared register, and one that carries a payload where it asks for one (R340). -/
def Inc.usable (i : Inc) (p : Bool) : Bool := i.declared && (!p || i.payloads)

/-! ### Commits (R338, R341) -/

/-- Cores on which a unit of a job resides. -/
def State.coresOf (s : State) (j : Nat) : List Nat :=
  ((s.unitList.filter fun c => c.2.job == j && c.2.stage == .resident).filterMap fun c => c.2.core).eraseDups

/-- Before a commit, every replica that is up to date keeps what it holds until the Crier reaches it. -/
def State.lagReplicas (s : State) (j n : Nat) : State :=
  let i := s.inc j n
  let places := ((List.range Config.dies).map fun d => (true, d)) ++ (s.coresOf j).map fun c => (false, c)
  let fresh := places.filter fun p => !s.replicas.any fun r => r.job == j && r.reg == n && r.onDie == p.1 && r.place == p.2
  { s with replicas := s.replicas ++ fresh.map fun p =>
      { job := j, reg := n, onDie := p.1, place := p.2, value := i.value, payload := i.payload } }

/-- The root takes one candidate: a better one is committed and broadcast. -/
def State.offer (s : State) (j n : Nat) (value payload : Word) : State :=
  let i := s.inc j n
  if i.declared && better i.fmt i.maximise value i.value then
    (s.lagReplicas j n).updJob j fun x => { x with incs := x.incs.set n { i with value := value, payload := payload } }
  else s

/-- The root takes a candidate of its own device; what it commits is forwarded to the job's parts on other devices, on the ordered channel
(R348, R384). -/
def State.commitOffer (s : State) (j n : Nat) (value payload : Word) : State :=
  let i := s.inc j n
  let t := s.offer j n value payload
  if i.declared && better i.fmt i.maximise value i.value then
    (((s.job j).map Job.parts).getD []).foldl (fun (acc : State) d => acc.sendOn d (.offer j n value payload)) t
  else t

/-- The root handles the lanes of a message in ascending order, each seeing the one before; the lanes' old values come out. -/
def State.applyOffers (s : State) (m : IncMsg) : List (Nat × Word × Word) → State × List (Nat × Word × Word)
  | [] => (s, [])
  | (l, v, p) :: rest =>
    let i := s.inc m.job m.reg
    let (t, olds) := (s.commitOffer m.job m.reg v (if m.payload then p else 0)).applyOffers m rest
    (t, (l, i.value, i.payload) :: olds)

def State.updIncMsg (s : State) (id : Nat) (g : IncMsg → IncMsg) : State :=
  { s with incMsgs := (s.incMsgs.map fun m => if m.id == id then g m else m) }
def State.incMsg (s : State) (id : Nat) : Option IncMsg := s.incMsgs.find? fun m => m.id == id
def State.dropIncMsg (s : State) (id : Nat) : State := { s with incMsgs := (s.incMsgs.filter fun m => m.id != id) }

/-- The root applies an `INCUP` (R341). -/
def execIncumbentCommit (id : Nat) (s : State) : Out :=
  .next <| match s.incMsg id with
  | none => s
  | some m =>
    if m.read || m.applied then s
    else
      let (t, olds) := s.applyOffers m m.lanes
      t.updIncMsg id fun x => { x with applied := true, lanes := olds }

/-- Words of a reply for the lanes: the value, and the payload where asked for. -/
def IncMsg.reply (m : IncMsg) (l : List (Nat × Word × Word)) : List (Nat × List Word) :=
  l.map fun x => (x.1, if m.payload then [x.2.1, x.2.2] else [x.2.1])

/-- The root's reply to an `INCUP` arrives. -/
def execIncupReply (id : Nat) (s : State) : Out :=
  .next <| match s.incMsg id with
  | none => s
  | some m => if m.read || !m.applied then s else (s.dropIncMsg id).deliver m.owner (m.reply m.lanes)

/-- The root's reply to an `INCRD` of package scope: value and payload as it holds them, an acquire (R342, R343); a uniform register is written
whether or not an issuing lane is left (R102, R350). -/
def execIncrdRootReply (id : Nat) (s : State) : Out :=
  .next <| match s.incMsg id with
  | none => s
  | some m =>
    if !m.read then s
    else
      let i := s.inc m.job m.reg
      let s1 := s.acquireAt m.owner.sheaf
      (s1.dropIncMsg id).deliver m.owner (m.reply ((if isUniform m.owner.dst then [0] else maskLanes m.owner.lanes).map fun l => (l, i.value, i.payload)))

/-- A forward at the head of a peer's channel is acknowledged: the root there has applied it (R348, R384). -/
def State.forwarded (s : State) (job reg d : Nat) : State :=
  match (s.channels.get d).sent.head? with
  | some (.offer j n v p) => if j = job ∧ n = reg then (s.ackOn d (.offer j n v p)).getD s else s
  | _ => s

/-- The Crier brings a replica up to what the root holds; children whose stamps a die's replica now passes go (R338, R349). A place of 256 + d
is the part of the job on device d, which has applied what was forwarded to it. DESIGN CHOICE (log 48). -/
def execCrierReplicaUpdate (job reg : Nat) (onDie : Bool) (place : Nat) (s : State) : Out :=
  .next <|
    if !onDie && decide (256 ≤ place) then s.forwarded job reg (place - 256) else
    let at_ (r : Replica) : Bool := r.job == job && r.reg == reg && r.onDie == onDie && r.place == place
    if !s.replicas.any at_ then s
    else
      let s1 := { s with replicas := (s.replicas.filter fun r => !at_ r) }
      if onDie then s1.stampSweep job place else s1

/-- An update from another device's root, in its turn on the ordered channel, is applied as an offer and forwarded no further; one that took
more cycles than REACH is recorded (R348, R384). -/
def execCrierForward (source : CrierSource) (reg : Nat) (value payload : Word) (cycles : Nat) (s : State) : Out :=
  .next <| match s.job source.job, s.takenFrom source.src source.seq with
  | some x, some t =>
    let i := s.inc source.job reg
    let s1 := t.offer source.job reg value (if i.payloads then payload else 0)
    let s2 := if cycles ≤ x.reach.toNat then s1
      else s1.report { typ := 9, ctx := x.ctx, job := source.job, peer := source.src, info := cycles - x.reach.toNat }
    s2.progress source.job
  | none, some t => t
  | _, none => s

/-! ### Words (R340 to R345) -/

/-- A result register is named with a flag, and only then (R340). -/
def execIncup (y : Bool) (g : BitVec 3) (d a : BitVec 7) (p : Bool) (n : BitVec 4) (s : State) : Out :=
  issueWord (.incup y g d a p n) s fun c t =>
    if !(t.inc c.unit.job n.toNat).usable p || (c.flag == 15) != (d == 120) then .emul
    else
      let (id, t) := t.take
      let m : IncMsg :=
        { id := id, owner := c.owner d, job := c.unit.job, reg := n.toNat, payload := p
          lanes := c.actLanes.map fun l => if p then (l, lo32 (c.r64 a l), hi32 (c.r64 a l)) else (l, c.r32 a l, 0) }
      .done { t with incMsgs := t.incMsgs ++ [m] }

def execIncrd (y : Bool) (g : BitVec 3) (d : BitVec 7) (p : Bool) (n : BitVec 4) (s : State) : Out :=
  issueWord (.incrd y g d p n) s fun c t =>
    let scope := c.x.scope.toNat
    if !(t.inc c.unit.job n.toNat).usable p || !(scope == 0 || scope == 7) then .emul
    else if scope = 0 then
      let v := t.replica c.unit.job n.toNat false c.core
      .done ((t.dropCache c.core).later c 4 d (c.each (if p then [v.1, v.2] else [v.1])))
    else
      let (id, t) := t.take
      let m : IncMsg := { id := id, owner := c.owner d, job := c.unit.job, reg := n.toNat, payload := p, read := true }
      .done { t with incMsgs := t.incMsgs ++ [m] }

def execBndset (y : Bool) (g : BitVec 3) (a : BitVec 7) (s : State) : Out :=
  issueWord (.bndset y g a) s fun c t =>
    .done (t.updSheaf c.id fun f => f.updLanes c.act fun l x => { x with bnd := c.r32 a l })

/-- The checks of R345 on a new `BNDC`: its reserved bits always, the other fields where EN is set. DEDUCED (log 50). -/
def bndcOk (i : Inc) (v : Word) : Bool :=
  v &&& ~~~0x3EF == 0 && (!v.getLsbD 7 || (i.declared && (v.extractLsb' 8 2).toNat == i.fmt && v.getLsbD 5 == i.maximise))

/-- `BNDCFG` writes `BNDC`. -/
def execBndcfg (y : Bool) (g : BitVec 3) (a : BitVec 7) (s : State) : Out :=
  issueWord (.bndcfg y g a) s fun c t =>
    let v := c.low32 a
    if !bndcOk (t.inc c.unit.job (v.extractLsb' 0 4).toNat) v then .emul
    else .done (t.updSheaf c.id fun f => { f with bndc := v })

/-- `FENCE` (R191): it ends its lanes' region, so their earlier loads have returned and their earlier stores of every colour are
performed when it issues. DEDUCED (log 49). -/
def execFence (y : Bool) (g : BitVec 3) (m : BitVec 4) (k7 : Bool) (k : BitVec 7) (s : State) : Out :=
  issueWord (.fence y g m k7 k) s fun _ t => .done t

end Sys2Proof.Machine
end

