-- ==== Sys2Proof/Machine/Life.lean ====
section
/-!
DEFINITION. The cull of lanes: what a lane leaves behind (R79, R95, R202, R293, R335, R350).
-/
namespace Sys2Proof.Machine

/-- Lanes leave a mask of an owner. -/
def Owner.less (o : Owner) (m : Mask) : Owner := { o with lanes := o.lanes &&& ~~~m }

/-- A queue word loses culled lanes: a waiting push their unplaced items, a waiting pop the lanes; one that is still on its way to the
home stays in force (R335). -/
def QWord.less (w : QWord) (m : Mask) : QWord :=
  { w with owner := w.owner.less m, items := if w.waiting then (w.items.filter fun x => !m.getLsbD x.1) else w.items }

/-- Queue words and items under delivery lose culled lanes; a word that was waiting for them alone is over (R335). -/
def State.cullQWords (s : State) (id : Nat) (m : Mask) : State :=
  let gone := s.qdeliveries.filter fun q => q.owner.sheaf == id && m.getLsbD q.lane
  let s1 : State := { s with
    qwords := (s.qwords.map fun w => if w.owner.sheaf == id then w.less m else w)
    qdeliveries := (s.qdeliveries.filter fun q => !(q.owner.sheaf == id && m.getLsbD q.lane)).map fun q =>
      if q.owner.sheaf == id then { q with owner := q.owner.less m } else q }
  let s2 := (s1.qwords.filter fun w => w.owner.sheaf == id && w.waiting && w.items.isEmpty).foldl
    (fun (acc : State) w => acc.endQWord w) s1
  ((gone.map fun q => (q.word, q.owner.less m)).eraseDups).foldl (fun (acc : State) w =>
    if acc.qdeliveries.any (fun q => q.word == w.1) || acc.qwords.any (fun q => q.id == w.1) then acc
    else acc.finishQWord w.1 false w.2) s2

/-- Requests that culled lanes sent stay in force; their results reach no one (R335, R341). -/
def State.cullRequests (s : State) (id : Nat) (m : Mask) : State :=
  { s with
    spawns := (s.spawns.map fun r => if r.owner.sheaf == id then { r with owner := r.owner.less m } else r)
    incMsgs := (s.incMsgs.map fun r => if r.owner.sheaf == id then { r with owner := r.owner.less m } else r)
    sweeps := (s.sweeps.map fun r => if r.owner.sheaf == id then { r with owner := r.owner.less m } else r) }

/-- What a sheaf keeps of its waits once lanes have left it. -/
def Sheaf.cullWaits (f : Sheaf) (m : Mask) : Sheaf :=
  { f.dropTraps m with
    timers := ((f.timers.map fun t => { t with lanes := t.lanes &&& ~~~m }).filter fun t => t.lanes != 0 || isUniform t.dst)
    awaiting := ((f.awaiting.map fun a => { a with lanes := a.lanes &&& ~~~m }).filter fun a => a.lanes != 0) }

/-- Lanes of a sheaf are culled (R350). -/
def State.cullLanes (s : State) (id : Nat) (m : Mask) : State :=
  match s.sheaf id with
  | none => s
  | some f =>
    let dead := m &&& f.liveMask
    if dead = 0 then s
    else
      let s1 := ((s.cullOwners id dead).cullQWords id dead).cullRequests id dead
      let s2 := s1.updSheaf id fun g =>
        (((g.withdraw (s1.now g) dead).dropStores dead).endLanes dead .culled).cullWaits dead
      s2.forgetLanes id dead

end Sys2Proof.Machine
end

