-- ==== Sys2Proof/Machine/Replies.lean ====
section
/-!
DEFINITION. What comes back from memory: replies, translations, walks, faults and their service, stream elements, the end of a
park and the entry of a trap (the manual's chapters on memory words and on contexts).
-/
namespace Sys2Proof.Machine

/-! ### Replies -/

/-- The 128-byte lines of an outstanding load, of the window or of memory; of the virtual space where its page has no leaf. -/
def State.linesOf (s : State) (f : Sheaf) (o : Outstanding) : List (Nat × Nat) :=
  let ctx := (s.unitOf f).ctx
  (s.places f o.space o.lane o.ea o.size).map fun c =>
    if c.1 then (0, c.2 / 128)
    else match s.translate f.coreNo ctx (BitVec.ofNat 64 c.2) .read with
      | .ok k _ => (1, k / 128)
      | _ => match s.translateNow ctx (BitVec.ofNat 64 c.2) .read with
        | .ok k _ => (1, k / 128)
        | _ => (2, c.2 / 128)

/-- Two outstanding loads of one lane touch one 128-byte line; their replies come in issue order (R285, R295). -/
def State.sameLine (s : State) (f : Sheaf) (a b : Outstanding) : Bool :=
  a.lane == b.lane && (a.id == b.id || (s.linesOf f a).any fun x => (s.linesOf f b).contains x)

/-- The reply to a request of this device has come: it is acknowledged, and the target drops its copy (R383). -/
def State.acknowledge (s : State) (o : Outstanding) : State :=
  match o.peer with
  | none => s
  | some n => { s with unacked := s.unacked.filter fun r => !(r.seq == o.request && r.peer == n) }

/-- A reply from another device is progress of the job's part here (R374). -/
def State.remoteProgress (s : State) (f : Sheaf) (remote : Bool) : State := if remote then s.progress (s.unitOf f).job else s

/-- A pop is performed: its element is brought to the race detector, then lands; its lane reads nothing older of that line from the read
cache any more (R199, R283, R290). -/
def State.landPop (s : State) (id : Nat) (f : Sheaf) (o : Outstanding) (n k : Nat) : State :=
  let q := f.streams.get n
  match q.tentative.find? fun t => t.1 == o.lane && t.2.k == k with
  | none => s.land id o (.error (streamFault q))
  | some (_, e) =>
    match e.poison with
    | some p => s.land id o (.error p)
    | none =>
      let words : Except Poison (List Word) := .ok (toWords (toBytes o.size e.value.toNat))
      match s.elemPlace f q k .read with
      | .error _ => s.land id o words
      | .ok a =>
        match s.detect id o.lane o.region a.watched (if a.win then some f.unit else none) a.keys false false with
        | .race _ _ _ => s.land id o (.error ⟨.race, 0, s.elemGranule f q k, []⟩)
        | .withdrawn t => t
        | .clear t => (if a.win then t else t.dropLines f.coreNo a.keys).land id o words

/-- The reply to a lane's load or pop, or the return of its atomic, comes home; one from a peer or the host comes by a whole route only
(R181, R192, R197, R388). -/
def execLoadReply (sheaf id : Nat) (s : State) : Out :=
  .next <| match s.sheaf sheaf with
  | none => s
  | some f =>
    match f.outstanding.find? fun o => o.id == id with
    | none => s
    | some o =>
      let first := f.outstanding.find? fun x => x.kind == .load && s.sameLine f x o
      let turn := o.kind != .load || first.any fun x => x.id == id
      if !turn then s
      else
        let t := match o.kind with
          | .load => match s.loadLane sheaf o o.op false false with
            | .wait t => t
            | .bad p t => t.land sheaf o (.error p)
            | .bytes b t => (t.land sheaf o (.ok (loadWords o.size o.signed b))).remoteProgress f (t.requests != s.requests)
          | .pop n k => s.landPop sheaf f o n k
          | .value ws =>
            if o.peer.any fun n => (s.peers.get n).broken then s
            else ((s.acknowledge o).land sheaf o (.ok ws)).remoteProgress f o.peer.isSome
          | .poison => (s.acknowledge o).land sheaf o (.error ⟨.lost, 5, s.vaOf f o.space o.lane o.ea, []⟩)
        t

/-! ### Translation -/

def Sheaf.updEntry (f : Sheaf) (id : Nat) (g : StoreEntry → StoreEntry) : Sheaf :=
  { f with storeQueue := (f.storeQueue.map fun e => if e.id == id then g e else e) }

def StorePart.open (p : StorePart) : Bool := p.phys.isNone && p.fault.isNone

/-- Translate one lane's part of a queued store, if it still waits. -/
def State.translateEntry (s : State) (sheaf id lane : Nat) : State :=
  match s.sheaf sheaf with
  | none => s
  | some f =>
    match f.storeQueue.find? fun e => e.id == id with
    | none => s
    | some e =>
      match e.parts.find? fun p => p.lane == lane && p.open with
      | none => s
      | some p =>
        let res : PartRes := match e.stream with
          | none => s.translatePart sheaf e.space p
          | some n =>
            let q := f.streams.get n
            let i := (e.parts.takeWhile fun x => x.lane != lane).length
            s.translatePush sheaf q (q.given + f.pushesBefore n id + i) p false
        match res with
        | .ok q t => t.updSheaf sheaf fun g => g.updEntry id fun x =>
            { x with parts := (x.parts.map fun y => if y.lane == lane && y.open then q else y) }
        | .miss page => s.addMiss (dieOf f.coreNo) (s.unitOf f).ctx page
        | .again t => t

/-- The translation of a store-queue entry (R182, R290). -/
def execStoreTranslated (sheaf id : Nat) (s : State) : Out :=
  .next (if (s.sheaf sheaf).any fun f => f.place.isNone then s
    else (List.range Config.lanes).foldl (fun (acc : State) l => acc.translateEntry sheaf id l) s)

/-- The first page that a lane's access lies on. -/
def State.pageOf (s : State) (f : Sheaf) (space : Space) (lane : Nat) (ea : DWord) : Nat :=
  (s.vaOf f space lane ea).toNat / 2 ^ 16

/-- A walk that found no leaf ends all of its merged misses: loads receive poison, store parts a fault, and words that wait for the page
before they issue, or to be fetched, learn of it (R357). -/
def State.failMisses (s : State) (die ctx page : Nat) (kind : PoisonKind) : State :=
  let mine := s.sheafList.filter fun c => c.2.place.isSome && dieOf c.2.coreNo == die && (s.unitOf c.2).ctx == ctx
  let hwm := ((s.context ctx).map Context.hwm).getD 0
  let hit (f : Sheaf) (space : Space) (lane : Nat) (ea : DWord) : Bool :=
    space != .sp && s.pageOf f space lane ea == page && !(space == .pv && decide (hwm ≤ ea.toNat))
  mine.foldl (fun (acc : State) c =>
    let f := c.2
    let acc := (f.outstanding.filter fun o => o.kind == .load && hit f o.space o.lane o.ea).foldl
      (fun (acc : State) o => acc.land c.1 o (.error ⟨kind, 4, s.vaOf f o.space o.lane o.ea, []⟩)) acc
    (acc.updSheaf c.1 fun g => g.updLanes (laneMask fun l => (g.lane l).asked == some (page, none)) fun _ x =>
      { x with asked := some (page, some kind) }).updSheaf c.1 fun g => { g with storeQueue := g.storeQueue.map fun e =>
      if e.stream.isSome then e
      else { e with parts := (e.parts.map fun p =>
        if p.open && hit f e.space p.lane p.ea then { p with fault := some ⟨kind, 4, s.vaOf f e.space p.lane p.ea, []⟩ } else p) } }) s

/-- A walker ends a waiting miss (R357, R355). -/
def execTlbWalk (die ctx page : Nat) (s : State) : Out :=
  .next <|
    let m : Miss := ⟨die, ctx, page⟩
    if !((s.misses.filter fun x => x.die == die).take 32).contains m then s
    else
      let s1 := { s with misses := (s.misses.filter fun x => x != m) }
      match s1.walk ctx page with
      | .leaf e pages first =>
        let base := s1.tlbs.filter fun t => !(t.ctx == ctx && t.die == die && t.core == none && t.page == first && t.pages == pages)
        let dies := (base.filter fun t => t.core == none && t.die == die).take 16383
        { s1 with tlbs := [⟨die, none, ctx, first, pages, e⟩] ++ dies
                    ++ base.filter fun t => !(t.core == none && t.die == die) }
      | .absent => s1.failMisses die ctx page .notPresent
      | .malformed e => (s1.malformed ctx (BitVec.ofNat 64 (page * 2 ^ 16)) e).failMisses die ctx page .unserviceable

/-- The queued store parts of a context that were translated through a leaf that holds one of some pages, or through one that the TLBs hold
for them, and that are not performed: sheaf, entry, lane. -/
def State.translatedThrough (s : State) (ctx first last : Nat) : List (Nat × Nat × Nat) :=
  let meets (a n : Nat) : Bool := decide (a ≤ last ∧ first < a + n)
  s.sheafList.flatMap fun c =>
    if (s.unitOf c.2).ctx != ctx then []
    else c.2.storeQueue.flatMap fun e => e.parts.filterMap fun p =>
      if e.space != .sp && p.phys.isSome && meets p.span.1 p.span.2 then some (c.1, e.id, p.lane) else none

/-- A store part of an invalidation's list is still to be performed. -/
def State.unperformed (s : State) (w : Nat × Nat × Nat) : Bool :=
  (s.sheaf w.1).any fun f => f.storeQueue.any fun e => e.id == w.2.1 && e.parts.any fun p => p.lane == w.2.2 && p.phys.isSome

/-- An invalidation of pages `first` to `last` of a context: no TLB holds them any more. It is complete, and leaves State.invalidations, once
every access translated through what the TLBs held has been performed (R358); its event comes again until then. -/
def execTlbInvalidation (ctx first last : Nat) (s : State) : Out :=
  .next <|
    let mine (x : Invalidation) : Bool := x.ctx == ctx && x.first == first && x.last == last
    match s.invalidations.find? mine with
    | some x =>
      let left := x.waits.filter s.unperformed
      let rest := s.invalidations.erase x
      if left.isEmpty then { s with invalidations := rest }
      else { s with invalidations := s.invalidations.map fun y => if y == x then { x with waits := left } else y }
    | none =>
      let waits := s.translatedThrough ctx first last
      { s with
        tlbs := (s.tlbs.filter fun t => !(t.ctx == ctx && decide (t.page ≤ last ∧ first < t.page + t.pages)))
        invalidations := if waits.isEmpty then s.invalidations else s.invalidations ++ [⟨ctx, first, last, waits⟩] }

/-! ### Service of faults (R195, R196, R360) -/

def Sheaf.setAwaiting (f : Sheaf) (l : List Awaiting) : Sheaf := { f with awaiting := l }

/-- The service of a fault is over: its lanes replay, or the word that was held goes on, with the lanes whose own access met a declined
fault in its lane-fault mask (R195, R196). -/
def State.serviced (s : State) (id : Nat) (f : Sheaf) (a : Awaiting) (stepped : Bool) : State :=
  let s1 := s.setSheaf id (f.setAwaiting (f.awaiting.erase a))
  if !a.inPlace then
    (s1.replay id (a.lanes &&& f.liveMask) stepped).updSheaf id fun g =>
      if stepped && a.poison.kind == .uncorrected then
        g.updLanes (a.lanes &&& f.liveMask &&& ~~~g.exiting) fun _ x => { x with failed := a.poison :: x.failed }
      else g
  else if stepped then s1.updSheaf id fun g => a.met.foldl (fun (acc : Sheaf) x =>
    if f.liveMask.getLsbD x.1 then acc.updLane x.1 fun y => { y with declined := some x.2 } else acc) g
  else s1

/-- The single retry of an uncorrected error succeeds: the words that read badly read well again (R195, R360). DEDUCED (log 60). -/
def State.healRead (s : State) (f : Sheaf) (p : Poison) : State := s.healWords f.unit p

/-- Baruri turns to the sheaf's first reported fault: the driver is asked, or the route or the read is tried again, with
success or not, or the region goes to stepped replay (R360). -/
def execFaultService (sheaf : Nat) (ok : Bool) (s : State) : Out :=
  .next <| match s.sheaf sheaf with
  | none => s
  | some f =>
    match f.awaiting.find? fun a => a.stage == .reported with
    | none => s
    | some a =>
      match a.poison.kind with
      | .notPresent => s.setSheaf sheaf (f.setAwaiting (f.awaiting.map fun x => if x == a then { x with stage := .atDriver } else x))
      | .highWater => s.setSheaf sheaf (f.setAwaiting (f.awaiting.map fun x => if x == a then { x with stage := .atDriver } else x))
      | .brokenRemote => s.serviced sheaf f a (!ok)
      | .uncorrected => if ok then (s.healRead f a.poison).serviced sheaf f a false else s.serviced sheaf f a true
      | .race => s.serviced sheaf f a true
      | .unserviceable => s.serviced sheaf f a true
      | .lost => s.serviced sheaf f a true

/-- The byte of a lane's private memory that lies at a virtual address (R359). -/
def Context.privByte (c : Context) (f : Sheaf) (va : Nat) : Nat :=
  let o := va - (c.pvb + f.privNo * c.pspan)
  4 * (o / 128) + o % 4

/-- A high-water mark that the driver may set (R359). -/
def Context.hwmOk (c : Context) (f : Sheaf) (va hwm : Nat) : Bool :=
  decide (hwm % 512 = 0 ∧ c.hwm ≤ hwm ∧ c.privByte f va < hwm ∧ hwm ≤ c.pspan / 32)

/-- The driver's answer to the sheaf's first fault that it was asked about (R360). -/
def execDriverAnswer (sheaf : Nat) (mapped : Bool) (hwm : Nat) (tables : List (Nat × Nat)) (s : State) : Out :=
  .next <| match s.sheaf sheaf with
  | none => s
  | some f =>
    match f.awaiting.find? fun a => a.stage == .atDriver with
    | none => s
    | some a =>
      let ctx := (s.unitOf f).ctx
      let high := a.poison.kind == .highWater
      let fine := mapped && (!high || ((s.context ctx).map fun c => c.hwmOk f a.poison.addr.toNat hwm).getD false)
      if !fine then s.serviced sheaf f a true
      else
        let s1 := s.writeTables tables
        let s2 := if high then s1.updContext ctx fun c => { c with hwm := hwm } else s1
        s2.serviced sheaf f a false

/-- A region replayed eight times in a row without reaching its end is next replayed in stepped form (R362). DEDUCED (log 29). -/
def execReplayLimit (sheaf : Nat) (s : State) : Out :=
  .next (s.updSheaf sheaf fun f =>
    f.updLanes (laneMask fun l => (f.lane l).life == .live && decide (9 ≤ (f.lane l).replays)) fun _ x => { x with stepped := true })

/-! ### Streams (R198, R200, R201) -/

/-- The engine of a read stream fetches its next element, at most 256 ahead of the reader; a malformed table entry that it meets is recorded
(R198, R201, R355). -/
def execStreamElementFetch (sheaf q : Nat) (s : State) : Out :=
  .next <| match s.sheaf sheaf with
  | none => s
  | some f =>
    let r := f.streams.get q
    let ctx := (s.unitOf f).ctx
    if !r.bound || r.write || (!r.sp && s.exhausted ctx .hbm) || decide (256 ≤ r.buffer.length ∨ r.count ≤ r.fetched) then s
    else
      let e := s.fetchElem f r r.fetched
      let t := s.updSheaf sheaf fun g =>
        { g with streams := g.streams.set q { r with buffer := r.buffer ++ [e], fetched := r.fetched + 1 } }
      match e.poison with
      | some p => t.metMalformed ctx p
      | none => t.charge ctx .hbm (if r.sp then 0 else if r.wide then 8 else 4)

/-! ### Parks and traps (R82, R92) -/

/-- The late commit of a position: a load, pop, store or push that failed replays its region instead. -/
def State.endLate (s : State) (id : Nat) (f : Sheaf) (lanes : Mask) : State :=
  match f.firstFault lanes with
  | some q => s.beginService id lanes q false
  | none =>
    let (seq, s1) := (s.commit id lanes).take
    s1.updSheaf id fun g => g.startRegion seq lanes

/-- The park of words that carry Y ends once their sheaf has drained; positions whose stores wait for that commit, and the lanes of an
`EXIT` exit (R82, R157). A saved sheaf stays parked until it is restored (R161, R351). DEDUCED (log 61). -/
def execYParkEnd (sheaf : Nat) (s : State) : Out :=
  .next <| match s.sheaf sheaf with
  | none => s
  | some f =>
    match f.park with
    | none => s
    | some p =>
      let late := p.late.map fun m => m &&& f.liveMask
      if f.place.isNone || !s.drained sheaf f || late.any (fun m => !f.translated m || s.commitHeld f m) then s
      else
        let s1 := late.foldl (fun (acc : State) m => acc.endLate sheaf f m) (s.setSheaf sheaf { f with park := none })
        s1.updSheaf sheaf fun g => g.endLanes g.exiting .exited

/-- A pending trap is entered (R92). -/
def execTrapEntry (sheaf : Nat) (s : State) : Out := .next (s.tryTrap sheaf)

end Sys2Proof.Machine
end

