-- ==== Sys2Proof/Machine/Quadrant.lean ====
section
/-!
DEFINITION. Time, and a quadrant's cycle: the clock ticks, watchdog counts, the cull test, waits that end by polling, and the choice
of the sheaf and the positions that issue (R84 to R87, R139, R140, R143, R160, R346, R374).
-/
namespace Sys2Proof.Machine

/-! ### Time (R160, R416 to R418) -/

/-- One tick of the model's time base on a die: its clock gains its MHz, and each `ticksPerMicrosecond` of them hold a cycle. -/
def Die.tick (d : Die) : Die :=
  if d.state = 2 then { d with running := false }
  else
    let a := d.acc + min d.clock (d.throttle.getD d.clock)
    if Config.ticksPerMicrosecond ≤ a then { d with acc := a - Config.ticksPerMicrosecond, cycle := d.cycle + 1, running := true }
    else { d with acc := a, running := false }

/-- A wait of a sheaf depends on a unit: a `CWAIT` on those that it waits for and on those that these wait for in the matcher (R318, R324), a
wait at a queue of the job on those of the job, and chain words that are not performed on the members of the chain (R279, R336). -/
def State.waitsOnUnit (s : State) (f : Sheaf) (k : Nat) (y : UnitSt) : Bool :=
  let x := s.unitOf f
  let held := laneList.any fun l => (f.lane l).life == .live && (match (f.lane l).hold with
    | .cwait n => s.awaits f.unit x n k y || (s.after k).any fun z => (s.unit z).any fun w => z != k && !w.gone && s.awaits f.unit x n z w
    | .queue id => y.job == x.job && s.qwords.any fun w => w.id == id && w.key.unit.isNone
    | _ => false)
  let chained := y.launch == x.launch && s.entries.any fun e => e.owner.unit == f.unit && (match e.work with
    | .csend _ _ _ => true
    | .crecv _ _ => true
    | .cbar => true
    | _ => false)
  k != f.unit && (held || chained)

/-- A cycle is not counted by a sheaf's watchdog (R374). -/
def State.uncounted (s : State) (f : Sheaf) : Bool :=
  let u := s.unitOf f
  f.place.isNone || f.stopped || !f.awaiting.isEmpty
    || s.unitList.any (fun c => c.2.stage == .saved && s.waitsOnUnit f c.1 c.2)
    || s.entries.any (fun e => e.owner.ctx == u.ctx && s.turnOf e && s.overBudget e)

/-- The watchdog count of a sheaf at the end of a tick (R374). -/
def State.watch (s : State) (f : Sheaf) : Sheaf :=
  let job := (s.job (s.unitOf f).job).getD {}
  let n := if f.issued || job.progressed then 0
    else if f.liveMask = 0 ∨ s.uncounted f then f.watchdog
    else if f.place.any fun p => (s.die (dieOf p.1)).running then f.watchdog + 1
    else f.watchdog
  { f with watchdog := n, issued := false }

/-- The live lanes of a sheaf whose bound the core's replica passes (R346). -/
def State.dominated (s : State) (f : Sheaf) : Mask :=
  if !f.bndc.getLsbD 7 then 0
  else
    let v := (s.replica (s.unitOf f).job (f.bndc.extractLsb' 0 4).toNat false f.coreNo).1
    laneMask fun l => (f.lane l).life == .live && passes f.bndc v (f.lane l).bnd

/-- What a cycle of a sheaf's core finds as the previous one left it: the flag counts that waits test (R80), and the lanes that its
cull test finds dominated (R346). -/
def State.enterCycle (s : State) (dies : Store Die) (f : Sheaf) : Sheaf :=
  if f.place.any fun p => (dies.get (dieOf p.1)).running then { f with flagsBefore := f.flagOps, doomed := s.dominated f } else f

/-- A tick ends and the next begins. DESIGN CHOICE (log 11). -/
def State.tick (s : State) : State :=
  let dies := (List.range Config.dies).foldl (fun (acc : Store Die) d => acc.modify d Die.tick) s.dies
  let t : State := { s with
    ticks := s.ticks + 1
    dies := dies
    sheaves := ⟨s.sheaves.cells.map fun c => (c.1, c.2.map fun f => s.enterCycle dies (s.watch f))⟩
    jobs := ⟨s.jobs.cells.map fun c => (c.1, c.2.map fun j => { j with progressed := false })⟩
    turn := 0
    admitFrom := 0
    free := s.free + 1 }
  t.stepMills

/-! ### The cull test (R346, R319) -/

/-- The dominated lanes of a sheaf are culled, or all of them where its unit has been cancelled. -/
def State.cullSheaf (s : State) (id : Nat) : State :=
  match s.sheaf id with
  | none => s
  | some f => if f.stopped then s else s.cullLanes id (if (s.unitOf f).cancelled then f.liveMask else f.doomed)

/-! ### Fetch (R135) -/

/-- The word at an address as a core of a context fetches it; none where no leaf allows it, or its target does not give it. -/
def State.fetch (s : State) (core ctx : Nat) (pc : DWord) : Option Word :=
  let key := match s.translate core ctx pc .fetch with
    | .ok k _ => some k
    | .bad _ => none
    | .miss _ => match s.translateNow ctx pc .fetch with
      | .ok k _ => some k
      | _ => none
  key.bind fun k => if s.poisonAt k || (s.targetFault (s.jobsOf ctx) k 4 pc).isSome then none else some (BitVec.ofNat 32 (s.valueAt k 4))

/-- The page of a lane's next word, where the TLBs of its core do not hold it and no walk has ended without a leaf for it (R357). -/
def State.fetchPage (s : State) (f : Sheaf) (l : Nat) : Option Nat :=
  match s.translate f.coreNo (s.unitOf f).ctx (f.lane l).pc .fetch with
  | .miss p => match (f.lane l).asked with
    | some (q, some _) => if q = p then none else some p
    | _ => some p
  | _ => none

/-- The lanes of a sheaf ask for the pages that their next words are to be fetched from. -/
def State.askFetch (s : State) (id : Nat) : State :=
  match s.sheaf id with
  | none => s
  | some f => ((maskLanes f.liveMask).filterMap fun l => (s.fetchPage f l).map fun p => (l, p)).foldl (fun (acc : State) x =>
      (acc.addMiss (dieOf f.coreNo) (s.unitOf f).ctx x.2).updSheaf id fun g => g.updLane x.1 fun y => { y with asked := some (x.2, none) }) s

/-- The word at which a lane stands. -/
def State.wordAt (s : State) (f : Sheaf) (l : Nat) : Option Word := s.fetch f.coreNo (s.unitOf f).ctx (f.lane l).pc

/-! ### Timers and polled waits -/

/-- Results whose time has come are written, and their flag parts fall. -/
def State.fireTimers (s : State) (id : Nat) : State :=
  match s.sheaf id with
  | none => s
  | some f =>
    let now := s.now f
    let due := f.timers.filter fun t => decide (t.due ≤ now)
    let s1 := s.setSheaf id { f with timers := (f.timers.filter fun t => decide (now < t.due))
                                     pending := (f.pending.filter fun p => decide (now < p.ready)) }
    due.foldl (fun (acc : State) t => acc.deliver { sheaf := id, lanes := t.lanes, op := t.op, dst := t.dst } t.words) s1

/-- Lanes held at an `LWAIT` go on in the cycle after their own counts read zero (R80, R137); where the `LWAIT` stands at a region's start, that
start moves on with them. -/
def State.releaseLwait (s : State) (id : Nat) : State :=
  match s.sheaf id with
  | none => s
  | some f =>
    let m := laneMask fun l => (f.lane l).life == .live && (match (f.lane l).hold with
      | .lwait n => f.laneDone n l
      | _ => false)
    let atStart := laneMask fun l => m.getLsbD l && (f.lane l).start == (f.lane l).pc
    if m = 0 then s else (s.releaseLanes id (m &&& ~~~atStart) false).releaseLanes id atStart true

/-- Once a handler has returned, a further trap of its word is entered; with none, trapping words that waited for the handler come back to
their positions (R94, R193). -/
def State.releaseTraps (s : State) (id : Nat) : State :=
  match s.sheaf id with
  | none => s
  | some f =>
    if f.handlerMask != 0 || f.trap.isSome then s
    else match f.trapsAfter with
      | t :: rest => (s.setSheaf id { f with trapsAfter := rest }).raiseTrap id t
      | [] => s.setSheaf id (f.updLanes (f.heldAt fun h => h == .trap) fun _ x => { x with hold := .none })

/-- The `HWAIT`s at which lanes of a sheaf are held: address, state and handle, with the lanes. -/
def Sheaf.hwaits (f : Sheaf) : List (DWord × Bool × Nat × Mask) :=
  let here (l : Nat) : Option (DWord × Bool × Nat) := if (f.lane l).life != .live then none else match (f.lane l).hold with
    | .hwait full h => some ((f.lane l).pc, full, h)
    | _ => none
  ((laneList.filterMap here).eraseDups).map fun k => (k.1, k.2.1, k.2.2, laneMask fun l => here l == some k)

/-- Each cycle a wait on a handle looks at it: its lanes go on, or trap (R174, R176). -/
def State.pollHwaits (s : State) (id : Nat) : State :=
  match s.sheaf id with
  | none => s
  | some f => f.hwaits.foldl (fun (acc : State) w =>
      match acc.sheaf id with
      | none => acc
      | some g =>
        if (g.trap.any fun t => t.lanes &&& w.2.2.2 != 0) then acc
        else match acc.waitTest g.unit w.2.2.1 w.2.1 with
          | .stay => acc
          | .go => acc.releaseLanes id w.2.2.2 true
          | .trap k =>
            if g.trap.isSome || (g.handlerMask != 0 && g.handlerMask &&& w.2.2.2 = 0) then acc
            else acc.raiseTrap id (idleTrap ((acc.wordAt g ((lowest w.2.2.2).getD 0)).getD 0) w.1 w.2.2.2 w.2.2.1 k)) s

/-- Every wait on a handle looks at it at the start of a cycle of its core, so that those on one handle go on together (R174, R177). -/
def State.pollAll (s : State) : State :=
  (s.sheafList.filter fun c => !c.2.stopped && c.2.place.any fun p => (s.die (dieOf p.1)).running).foldl
    (fun (acc : State) c => acc.pollHwaits c.1) s

/-! ### Positions (R84) -/

/-- A lane may stand in an issue position. -/
def Sheaf.free (f : Sheaf) (l : Nat) : Bool :=
  (f.lane l).life == .live && (f.lane l).hold == .none && !(f.awaiting.any fun a => a.lanes.getLsbD l)

/-- Two lanes share what makes a position, and both stand in a handler or neither does: the rule's list does not name the handler.
DESIGN CHOICE (log 77). -/
def LaneSt.sameSpot (x y : LaneSt) : Bool :=
  x.pc == y.pc && x.limm == y.limm && x.xmod == y.xmod && x.sched == y.sched && x.handler == y.handler

/-- Two lanes stand in one position (R84). At an `ENDL`, which `SCHED` passes over, their `SCHED` state may differ (R145). -/
def LaneSt.together (x y : LaneSt) (endl : Bool) : Bool :=
  x.sameSpot (if endl then { y with sched := x.sched } else y)

/-- The issue positions of a sheaf; `endl` tells where an `ENDL` stands. -/
def Sheaf.positions (f : Sheaf) (endl : Nat → Bool) : List Mask :=
  laneList.foldl (fun (acc : List Mask) l =>
    if !f.free l || acc.any (fun m => m.getLsbD l) then acc
    else
      let e := endl l
      acc ++ [laneMask fun k => f.free k && (f.lane k).together (f.lane l) e]) []

/-- The stall count and the wait mask of a lane's next word; a sheaf's first word after a restore falls under R73 (R72, R73, R373). -/
def LaneSt.governed (x : LaneSt) (restored : Bool) : Nat × BitVec 12 :=
  match (if restored then none else x.sched) with
  | some g => (g.stalls.headD 7, g.wait)
  | none => (7, BitVec.allOnes 12)

/-- The stall count and wait mask of a position are satisfied; an `ENDL` obeys neither (R72, R145). -/
def Sheaf.schedOk (f : Sheaf) (m : Mask) (l0 now op : Nat) : Bool :=
  if op = 0x5D then true
  else
    let g := (f.lane l0).governed f.restored
    let last := (maskLanes m).foldl (fun n l => max n (f.lane l).lastIssue) 0
    decide (last + max g.1 1 ≤ now) && (List.range 12).all fun n => !g.2.getLsbD n || f.flagDone n

/-- A shared unit of R77: 1 the SFU, 2 the lane network, 3 the memory port, 4 the engine front end; 0 for none. -/
def sharedUnit (op : Nat) : Nat :=
  if op = 0x38 then 1
  else if op = 0x44 ∨ (0x50 ≤ op ∧ op ≤ 0x55) then 2
  else if op = 0x5E ∨ (0x60 ≤ op ∧ op ≤ 0x6F) then 3
  else if 0x70 ≤ op ∧ op ≤ 0x7E then 4
  else 0

/-- Words at which lanes meet: `JOIN`, `LOOP`, `ENDL`. -/
def opMeets (op : Nat) : Bool := op == 0x5B || op == 0x5C || op == 0x5D

/-- A ready position. -/
structure Ready where
  lanes : Mask := 0
  pc : DWord := 0
  unit : Nat := 0
  /-- It waits at a `JOIN`, `LOOP` or `ENDL` (R140, R143). -/
  waiting : Bool := false
  /-- Its next word is the `ENDL` of a resident body, which acts in the same cycle (R145). -/
  tail : Option DWord := none
  deriving DecidableEq, Repr, Inhabited

/-- A lane of a join set is coming (R139). DEDUCED (log 21). -/
def State.coming (s : State) (f : Sheaf) (pc : DWord) (l : Nat) : Bool :=
  let x := f.lane l
  let stuck := match x.hold with
    | .none => false
    | .lwait _ => false
    | .exit => false
    | _ => true
  x.life == .live && x.pc != pc && !stuck && !x.handler
    && !(x.joinHeld && (s.wordAt f l).any fun w => opMeets (wordOp w).toNat)

/-- The lanes that a `JOIN` names; a `LOOP` or `ENDL` names all (R139, R143). -/
def joinMask (i : Instr) (c : Ctx) : Mask :=
  match i with
  | .joinM _ _ a => c.low32 a
  | _ => BitVec.allOnes 32

/-- A position at a meeting word waits (R140, R143). -/
def State.joinWaits (s : State) (f : Sheaf) (c : Ctx) (i : Instr) (op : Nat) : Bool :=
  opMeets op && !(op != 0x5B && f.holdsAll c.lanes) && (maskLanes (joinMask i c)).any (s.coming f c.pc)

/-- The shape of a word that decodes to no instruction, from its raw fields. -/
def rawShape (w : Word) : Shape :=
  { op := (wordOp w).toNat, y := wordY w && decide (8 ≤ (wordOp w).toNat), guard := wordG w }

/-- The address of the `ENDL` that takes no slot after the word at an address: that of a body resident in the sheaf's quadrant
(R145). A load, store or atomic does not take its `ENDL` along: its own result or store is still to come, and the `ENDL` waits for it
(R82). DEDUCED (log 22). -/
def State.tailOf (s : State) (f : Sheaf) (pc : DWord) (op : Nat) : Option DWord :=
  match f.place with
  | none => none
  | some (core, slot) =>
    if 0x60 ≤ op ∧ op ≤ 0x6F then none
    else if (s.core core).loops.any fun b => b.quad == quadOf slot && b.endl == pc + 4 && !(s.usersOf core b).isEmpty then some (pc + 4)
    else none

/-- A word ends its region, by itself or with the `ENDL` that goes with it, and the region has met a condition: it does not issue,
and its region is to be replayed (R82, R185). -/
def Sheaf.spoilt (f : Sheaf) (m : Mask) (ends : Bool) : Bool := ends && f.faultedLanes m != 0

/-- A position, if it is ready. -/
def State.ready (s : State) (id : Nat) (f : Sheaf) (m : Mask) : Option Ready :=
  match lowest m with
  | none => none
  | some l0 =>
    let pc := (f.lane l0).pc
    if (s.fetchPage f l0).isSome then none
    else match s.wordAt f l0 with
    | none => some { lanes := m, pc := pc }
    | some w =>
      let op := (wordOp w).toNat
      let tail := s.tailOf f pc op
      let waits (ends : Bool) : Bool := f.spoilt m (ends || tail.isSome) || (tail.isSome && s.endWaits f m)
      if opIsHint op then (if waits false then none else some { lanes := m, pc := pc, tail := tail })
      else if !f.schedOk m l0 (s.now f) op then none
      else match decode w with
        | .error _ =>
          let ends := (rawShape w).endsRegion
          if waits ends || (ends && s.endWaits f m) then none else some { lanes := m, pc := pc }
        | .ok i =>
          let sh := (f.lane l0).shapeOf i
          let c := s.ctxOf id f f m l0 sh w
          if waits sh.endsRegion || wordHeld i sh c s then none
          else some { lanes := m, pc := pc, unit := sharedUnit op, waiting := s.joinWaits f c i op, tail := tail }

/-- The region ends at which positions of a sheaf stand with a condition met send their regions to service (R185, R195). -/
def State.serveRegions (s : State) (id : Nat) : State :=
  match s.sheaf id with
  | none => s
  | some f =>
    if f.park.isSome || f.trap.isSome || f.stopped then s
    else (f.positions fun l => (s.wordAt f l).any fun w => wordOp w == 0x5D#7).foldl (fun (acc : State) m =>
      let l0 := (lowest m).getD 0
      match s.wordAt f l0 with
      | none => acc
      | some w =>
        let ends := match decode w with
          | .ok i => ((f.lane l0).shapeOf i).endsRegion
          | .error _ => (rawShape w).endsRegion
        let ends := ends || (s.tailOf f (f.lane l0).pc (wordOp w).toNat).isSome
        match f.firstFault m with
        | some p => if ends && !regionWaits f m then acc.beginService id (f.replaySet m (f.faultedLanes m)) p false else acc
        | none => acc) s

/-- The ready positions of a sheaf; a sheaf that is parked, stopped or about to enter a trap has none (R82, R92, R367). -/
def State.readyList (s : State) (id : Nat) (f : Sheaf) : List Ready :=
  if f.park.isSome || f.trap.isSome || f.stopped then []
  else (f.positions fun l => (s.wordAt f l).any fun w => wordOp w == 0x5D#7).filterMap (s.ready id f)

/-- Exactly the lanes of the positions that wait are held at their `JOIN`, `LOOP` or `ENDL`. -/
def Sheaf.markJoins (f : Sheaf) (ps : List Ready) : Sheaf :=
  f.updLanes (BitVec.allOnes 32) fun l x => { x with joinHeld := ps.any fun p => p.waiting && p.lanes.getLsbD l }

/-- The positions of a sheaf, with the sheaf as they leave it: a lane that was held at another `JOIN` when last judged is not
coming, one that has newly reached its own is. Positions that hold each other up go on when nothing else is ready (R139, R140).
DEDUCED (log 21). -/
def State.judge (s : State) (id : Nat) : Nat → Sheaf → List Ready × Sheaf
  | 0, f => (s.readyList id f, f)
  | n + 1, f =>
    let ps := s.readyList id f
    let g := f.markJoins ps
    if g == f || ps.any (fun p => !p.waiting) then (ps, g) else s.judge id n g

/-! ### Choosing (R85) -/

def maskCount (m : Mask) : Nat := (maskLanes m).length
def lowLane (m : Mask) : Nat := (lowest m).getD 32

/-- Whether `a` comes before `b`: more lanes, then the lower address, then the lower lowest lane. -/
def Ready.before (a b : Ready) : Bool :=
  if maskCount a.lanes ≠ maskCount b.lanes then decide (maskCount b.lanes < maskCount a.lanes)
  else if a.pc ≠ b.pc then decide (a.pc.toNat < b.pc.toNat)
  else decide (lowLane a.lanes < lowLane b.lanes)

def bestBy (before : Ready → Ready → Bool) (l : List Ready) : Option Ready :=
  l.foldl (fun best r => match best with
    | none => some r
    | some b => if before r b then some r else best) none

/-- The highest pass count in a position. -/
def Sheaf.passOf (f : Sheaf) (m : Mask) : Nat := (maskLanes m).foldl (fun n l => max n (f.lane l).pass) 0

/-- The positions that issue, in order, among the ready ones. -/
def Sheaf.choose (f : Sheaf) (ps : List Ready) : List Ready :=
  match bestBy Ready.before (ps.filter fun p => !p.waiting) with
  | none => []
  | some a =>
    let others := ps.filter fun p => p.lanes != a.lanes
    let forced := others.filter fun p => decide (16 ≤ f.passOf p.lanes)
    let second := if forced.isEmpty then bestBy Ready.before (others.filter fun p => !p.waiting)
      else bestBy (fun x y => decide (f.passOf y.lanes < f.passOf x.lanes)
        || (f.passOf x.lanes == f.passOf y.lanes && decide (lowLane x.lanes < lowLane y.lanes))) forced
    match second with
    | none => [a]
    | some b =>
      if a.unit ≠ 0 ∧ a.unit = b.unit then (if forced.isEmpty then [a] else [b])
      else [a, b]

/-- Pass counts after the choice: those of a position passed over rise; those of one that issues fall to 0 as it does (R85). -/
def Sheaf.countPasses (f : Sheaf) (ps chosen : List Ready) : Sheaf :=
  ps.foldl (fun (acc : Sheaf) p =>
    let issued := chosen.any fun c => c.lanes == p.lanes
    acc.updLanes p.lanes fun _ x => { x with pass := if issued then x.pass else min 63 (x.pass + 1), joinHeld := x.joinHeld && !issued }) f

/-! ### The cycle -/

/-- The sheaves that stand on a quadrant, in ascending slot order after the one chosen last. -/
def State.quadSheaves (s : State) (core quad : Nat) : List Nat :=
  let mine := s.sheafList.filterMap fun c => match c.2.place with
    | some (k, sl) => if k == core && quadOf sl == quad then some (sl % 16, c.1) else none
    | none => none
  let last := (s.core core).lastSlot.get quad
  let slots := (List.range 16).map fun i => (last + i) % 16
  slots.flatMap fun sl => (mine.filter fun c => c.1 == sl).map Prod.snd

/-- A quadrant has nothing to do in a cycle. -/
def State.quadIdle (s : State) (core quad : Nat) : Bool :=
  s.sheafList.all fun c => match c.2.place with
    | some (k, sl) => k != core || quadOf sl != quad || (c.2.liveMask == 0 && c.2.timers.isEmpty)
    | none => true

/-- The first sheaf with a ready position that does not wait is chosen: its positions stand in the latch, to be tried and to issue in
order. Positions of `skip` have proved not ready. -/
def State.chooseSheaf (s : State) (core quad : Nat) (skip : List (Nat × Mask)) : List Nat → State
  | [] => s
  | id :: rest =>
    match s.sheaf id with
    | none => s.chooseSheaf core quad skip rest
    | some f0 =>
      let (all, f) := s.judge id 4 f0
      let ps := all.filter fun p => !skip.contains (id, p.lanes)
      match f.choose ps with
      | [] => (s.setSheaf id f).chooseSheaf core quad skip rest
      | chosen =>
        let g := f.countPasses ps chosen
        let s1 := (s.setSheaf id g).updCore core fun k =>
          { k with lastSlot := k.lastSlot.set quad ((f.place.map Prod.snd).getD 0 % 16 + 1) }
        let trial : Trial := ⟨(s.core core).lastSlot.get quad, laneList.map fun l => (f.lane l).pass, skip⟩
        { s1 with latch := some { sheaf := id, positions := chosen.map Ready.lanes, view := g, trial := some trial
                                  ends := chosen.filterMap fun r => r.tail.map fun a => (r.lanes, a) } }

/-- A choice is undone, and the quadrant chooses again without a position that has proved not ready (R84, R85). -/
def State.chooseAgain (s : State) (l : Latch) (t : Trial) (m : Mask) : State :=
  match (s.sheaf l.sheaf).bind Sheaf.place with
  | none => { s with latch := none }
  | some (core, slot) =>
    let q := quadOf slot
    let s1 := (s.updSheaf l.sheaf fun f => f.updLanes (BitVec.allOnes 32) fun k x => { x with pass := t.passes.getD k x.pass }).updCore core
      fun k => { k with lastSlot := k.lastSlot.set q t.last }
    { s1 with latch := none, cur := none }.chooseSheaf core q ((l.sheaf, m) :: t.skip) (s1.quadSheaves core q)

/-- What a quadrant does in a cycle: culls, waits that end, the choice. -/
def State.quadrantRun (s : State) (core quad : Nat) : State :=
  let ids := s.quadSheaves core quad
  let s1 := ids.foldl (fun (acc : State) id => acc.cullSheaf id) s
  let s2 := ids.foldl (fun (acc : State) id =>
    let acc := acc.fireTimers id
    if (acc.sheaf id).any Sheaf.stopped then acc
    else (((acc.releaseLwait id).releaseTraps id).askFetch id).serveRegions id) s1
  s2.chooseSheaf core quad [] ids

/-- Cores of the package times quadrants. -/
def quadTotal : Nat := 4 * Config.coresPerDie * Config.dies

/-- A quadrant's cycle comes in its turn: after those of the lower numbers in its tick, which have nothing to do if they are
passed over; a number before the turn opens the next tick. DESIGN CHOICE (log 11). -/
def execQuadrantCycle (core quad : Nat) (s : State) : Out :=
  .next <|
    let k := 4 * core + quad
    let passed := if s.turn ≤ k then (List.range (k - s.turn)).map (s.turn + ·)
      else (List.range (quadTotal - s.turn)).map (s.turn + ·) ++ List.range k
    if 4 ≤ quad ∨ quadTotal ≤ k ∨ s.latch.isSome ∨ passed.any (fun n => !s.quadIdle (n / 4) (n % 4)) then s
    else
      let s1 := if k < s.turn then s.tick.pollAll else s
      let s2 := { s1 with turn := k + 1 }
      if (s2.die (dieOf core)).running then s2.quadrantRun core quad else s2

end Sys2Proof.Machine
end

