-- ==== Sys2Proof/Machine/Preempt.lean ====
section
/-!
DEFINITION. Pre-emption: saves, drains, images and restores; the orphan wait; budget periods (R367 to R376).
-/
namespace Sys2Proof.Machine

/-! ### Save requests (R367, R371) -/

/-- The sheaves of a context that stand on a core. -/
def State.ctxSheaves (s : State) (core ctx : Nat) : List (Nat × Sheaf) :=
  s.sheafList.filter fun c => c.2.place.any (fun p => p.1 == core) && (s.unitOf c.2).ctx == ctx

/-- A save begins: every sheaf of the context on the core stops. -/
def State.beginSave (s : State) (core ctx : Nat) : State :=
  let s1 := (s.ctxSheaves core ctx).foldl (fun (acc : State) c => acc.updSheaf c.1 fun f => { f with stopped := true }) s
  s1.updCore core fun k => { k with saving := some (ctx, s.cycleOf core + s.regs.drain) }

/-- A request that reaches a core during a save is held. -/
def State.holdRequest (s : State) (core ctx : Nat) (isRestore : Bool) (unit : Nat) : State :=
  s.updCore core fun k => { k with held := k.held ++ [(ctx, isRestore, unit)] }

def execSaveRequest (core ctx : Nat) (s : State) : Out :=
  .next <|
    if (s.context ctx).isNone then s
    else if (s.core core).saving.isSome then s.holdRequest core ctx false 0
    else s.beginSave core ctx

/-! ### The drain (R203, R368) -/

/-- The lanes that a drain's end rolls back: positions with an outstanding result of their open region, and regions whose fault
awaits service. -/
def Sheaf.undrained (f : Sheaf) : Mask :=
  let out := laneMask fun l => f.outstanding.any fun o => o.inRegion && o.lane == l
  let moved := laneMask fun l => (maskLanes out).any fun k => (f.positionOf k).getLsbD l || k == l
  (moved ||| laneMask fun l => f.awaiting.any fun a => !a.inPlace && a.lanes.getLsbD l) &&& f.liveMask &&& ~~~f.exiting

/-- A stopped sheaf as its drain leaves it. -/
def State.endDrain (s : State) (id : Nat) : State :=
  match s.sheaf id with
  | none => s
  | some f =>
    let m := f.undrained
    (s.rollback id m).updSheaf id fun g =>
      { g with awaiting := [], park := g.park.map fun p => { p with late := p.late.filter fun q => q &&& m == 0 } }

/-- The drain of a save is over: every result of the stopped sheaves has returned, or DRAIN cycles have passed. -/
def execDrainEnd (core : Nat) (s : State) : Out :=
  .next <| match (s.core core).saving with
  | none => s
  | some (ctx, until_) =>
    let fs := s.ctxSheaves core ctx
    if until_ = 0 ∨ (s.cycleOf core < until_ ∧ fs.any fun c => s.resultsOut c.1 c.2) then s
    else (fs.foldl (fun (acc : State) c => acc.endDrain c.1) s).updCore core fun k => { k with saving := some (ctx, 0) }

/-! ### The image (R177, R236, R262, R279, R369) -/

def Entry.asSaved (e : Entry) (w : Work) : Entry := { e.leave with work := w, stage := .queued, due := 0 }

/-- Of the first blocks of a panel, how many are performed or under way when a number of array cycles has passed. -/
def MillWork.blocksBy (m : MillWork) (cycles : Nat) : List (Slot × Slot) → Nat
  | [] => 0
  | p :: rest => if cycles < m.blockCycles p then 1 else 1 + m.blocksBy (cycles - m.blockCycles p) rest

/-- A running Mill operation finishes its current block; a panel with blocks left is saved with MSTEP. The array is free, and the context
is charged, up to the end of that block (R213, R216, R236). -/
def State.cutMill (s : State) (e : Entry) (m : MillWork) : State :=
  let total := m.cycles m.tilesRead
  let passed := s.cycleOf e.core + 11 + total - e.due
  let n := m.blocksBy passed m.tilesRead
  let done := m.tilesRead.take n
  if m.unfillable || m.tilesRead.length ≤ n then
    ((s.millEffect e.owner.unit e.core m).updCore e.core fun k => { k with mstep := 0 }).performed e
  else
    let ran := m.cycles done
    let s1 := (s.updCore e.core fun k =>
      { done.foldl (fun (acc : Core) p => acc.multiply m.tile p) k with mstep := 0, millFree := e.due - 11 - total + ran }).ownTile
        e.core m.tile e.owner.unit
    (s1.refund e.owner.ctx .mill (total - ran)).updEntry e.id fun x => x.asSaved (.mill
      { m with block := (m.todo.getD n 0), steps := done.foldl (fun k p => k + blockSteps p.1 p.2) m.steps, tilesRead := [] })

/-- A running `SCAN` finishes its current tile (R279). -/
def State.cutScan (s : State) (e : Entry) (w : ScanWork) : State :=
  let start := e.due - 11 - (w.nt - w.tile) * w.tileCycles
  let n := min (w.nt - w.tile) ((s.cycleOf e.core - start) / w.tileCycles + 1)
  let u := (s.unit e.owner.unit).getD default
  let r := w.finish u n
  if w.nt ≤ w.tile + n then (s.setUnit e.owner.unit (r.1.writeComps w.tot (r.2.getD []))).performed e
  else (s.setUnit e.owner.unit r.1).updEntry e.id fun x => x.asSaved (.scan { w with tile := w.tile + n, carry := r.2, tiles := [] })

/-- A `CSEND` that has read its carry completes its transfer where there is room; else it will start again (R279). One whose carry is out on
the ordered channel runs on until it is placed. -/
def State.cutCsend (s : State) (e : Entry) (a scc : Nat) : State :=
  let again (t : State) : State := t.updEntry e.id fun x => x.asSaved (.csend a scc none)
  match s.peerNext e.owner.unit with
  | some d => match s.unsend d (.carry e.id) with
    | some t => again t
    | none => s
  | none =>
    let t := s.placeOwn e.id
    if (t.entry e.id).isNone then t else again t

/-- What a save makes of an engine entry of the unit. DEDUCED (log 52). -/
def State.saveEntry (s : State) (e : Entry) : State :=
  let keep : State := s.updEntry e.id Entry.leave
  let own := e.queue == .mq || e.queue == .nq || e.queue == .sq
  match e.work with
  | .mill m => if e.stage == .started then s.cutMill e m else keep
  | .scan w => if e.stage == .started then s.cutScan e w else keep
  | .csend a scc (some _) => s.cutCsend e a scc
  | .ring r =>
    if e.stage == .started && s.ringStuck e.owner.unit r then s.leaveRing e else s
  | _ => if own && e.waiting then keep else s

/-- The sheaves of a unit in slot order. -/
def State.slotOrder (s : State) (u : Nat) : List Nat :=
  let fs := (s.sheavesOf u).filterMap fun c => c.2.place.map fun p => (p.2, c.1)
  (List.range Config.slotsPerCore).flatMap fun n => (fs.filter fun c => c.1 == n).map Prod.snd

/-- The tiles of a unit at a save: those that it wrote last, for a unit claims none. DESIGN CHOICE (log 83). -/
def tilesOf (k : Core) (u : Nat) : List Nat := (List.range 128).filter fun t => k.tileUnit.get t == some u

/-- The slots that a unit holds on a core: those of its resource set and those it has claimed since (R171). -/
def slotsOf (k : Core) (u : Nat) : List Nat := (List.range 32).filter fun m => (k.slots.get m).claim == some u

/-- What a save takes from a core for a unit. -/
def State.imageOf (s : State) (core u : Nat) (x : UnitSt) : Image :=
  let k := s.core core
  let ts := tilesOf k u
  let mine (key : Nat) : Bool := ts.contains (key / 1024)
  { handles := x.lrec.handles.foldl (fun acc h => acc.set h { k.handles.get h with relAt := none }) {}
    slots := (slotsOf k u).foldl (fun acc m => acc.set m (k.slots.get m)) {}
    tiles := ⟨k.tiles.cells.filter fun c => mine c.1⟩
    tilePoison := ⟨k.tilePoison.cells.filter fun c => mine c.1⟩
    tileUnit := ⟨k.tileUnit.cells.filter fun c => ts.contains c.1⟩
    order := s.slotOrder u }

/-- The core gives up what a unit held; its tiles keep what the unit left in them (R166). -/
def Core.release (k : Core) (u : Nat) (x : UnitSt) : Core :=
  { k with
    handles := x.lrec.handles.foldl (fun acc h => acc.set h {}) k.handles
    slots := (slotsOf k u).foldl (fun acc m => acc.set m {}) k.slots
    tileUnit := ⟨k.tileUnit.cells.filter fun c => c.2 != some u⟩ }

/-- The core takes back what a save took from it: handles, slots, and the tiles of the image as they were. -/
def Core.takeImage (k : Core) (x : UnitSt) (im : Image) : Core :=
  let clear {α : Type} (m : Store α) : Store α := im.tileUnit.cells.foldl (fun acc c => acc.clearRange (1024 * c.1) (1024 * (c.1 + 1))) m
  { k with
    handles := x.lrec.handles.foldl (fun acc h => acc.set h (im.handles.get h)) k.handles
    slots := k.slots.setAll im.slots.cells
    tiles := (clear k.tiles).setAll im.tiles.cells
    tilePoison := (clear k.tilePoison).setAll im.tilePoison.cells
    tileUnit := k.tileUnit.setAll im.tileUnit.cells
    tileCtx := if im.tileUnit.cells.isEmpty then k.tileCtx else some x.ctx }

/-- Timed results are written into the image at once, and fixed-latency results are all writable. -/
def State.settleSheaf (s : State) (id : Nat) : State :=
  match s.sheaf id with
  | none => s
  | some f => f.timers.foldl (fun (acc : State) t =>
      acc.deliver { sheaf := id, lanes := t.lanes, op := t.op, dst := t.dst } t.words)
      (s.setSheaf id { f with timers := [], pending := [] })

/-- The saved image holds no physical location: queued stores are translated again after the restore (R203). -/
def Sheaf.unplaced (f : Sheaf) : Sheaf :=
  { f with storeQueue := f.storeQueue.map fun e =>
      if e.space == .sp && e.stream.isNone then e else { e with parts := e.parts.map fun p => { p with phys := none } } }

/-- A resident unit leaves its core for its image. -/
def State.saveUnit (s : State) (core u : Nat) : State :=
  let s1 := ((s.entries.filter fun e => e.owner.unit == u && e.core == core).map Entry.id).foldl (fun (acc : State) id =>
    match acc.entry id with
    | some e => acc.saveEntry e
    | none => acc) s
  match s1.unit u with
  | none => s1
  | some x =>
    let im := s1.imageOf core u x
    let s2 := (s1.setUnit u { x with stage := .saved, core := none, image := some im }).updCore core fun k => k.release u x
    (s2.sheavesOf u).foldl (fun (acc : State) c =>
      (acc.settleSheaf c.1).updSheaf c.1 fun f => { f.unplaced with place := none }) s2

/-! ### Restores (R370, R371, R373) -/

/-- The numbers of a saved unit are free on a core: its window's place, its tiles, slots and handles. -/
def State.fitsAgain (s : State) (core : Nat) (x : UnitSt) (im : Image) : Bool :=
  let k := s.core core
  (s.hasRoom core { x.lrec with slots := im.slots.cells.map Prod.fst }).isSome
    && (s.residents core).all (fun u => u.2.lrec.win == 0 || x.lrec.win == 0
        || decide (x.winOff + x.lrec.win ≤ u.2.winOff ∨ u.2.winOff + u.2.lrec.win ≤ x.winOff))
    && im.tileUnit.cells.all (fun c => (k.tileUnit.get c.1).all fun v => !(s.residents core).any fun u => u.1 == v)

/-- No started entry writes into the image any more. -/
def State.imageQuiet (s : State) (u : Nat) : Bool :=
  s.entries.all fun e => e.owner.unit != u || e.saved || e.stage == .queued

/-- A lane on its new core: stall counts run from the restore, whose clock is another. -/
def LaneSt.restored (x : LaneSt) (now : Nat) : LaneSt := { x with lastIssue := now, joinHeld := false }

/-- A saved unit is placed on a core. The core's read cache is discarded: its lanes read nothing older than they have read, and waits that
ended in the image were acquires (R283, R336). A restore counts as an admission for the clearing of tiles that another context wrote
last: R166 speaks of admissions only. DESIGN CHOICE (log 77). Lanes that are dominated, or whose unit has been cancelled, are culled at
once (R351, R373). -/
def State.restoreUnit (s : State) (u core : Nat) : State :=
  match s.unit u with
  | none => s
  | some x =>
    match x.image with
    | none => s
    | some im =>
      if x.stage != .saved || !s.imageQuiet u || !s.fitsAgain core x im then s
      else
        let empty := (s.residents core).isEmpty
        let held := { x with lrec := { x.lrec with slots := im.slots.cells.map Prod.fst } }
        let s1 := ((s.setUnit u { x with stage := .resident, core := some core, image := none }).updCore core fun k =>
          (k.takeUnit u held empty).takeImage x im).dropCache core
        let now := s.cycleOf core
        let s2 := im.order.foldl (fun (acc : State) id =>
          let slot := pickSlot ((acc.slotsTaken core).map Prod.fst)
          let gen := ((acc.core core).slotGen.get slot + 1) % 2 ^ 16
          let placed := (acc.updCore core fun k => { k with slotGen := k.slotGen.set slot gen }).updSheaf id fun f =>
            { (f.updLanes f.liveMask fun _ l => l.restored now) with place := some (core, slot), gen := gen, stopped := false, restored := true }
          (placed.updSheaf id fun f => { f with flagsBefore := f.flagOps, doomed := placed.dominated f }).cullSheaf id) s1
        let mine (e : Entry) : Bool := e.owner.unit == u && (e.saved || e.stage == .queued)
        { s2 with entries := (s2.entries.filter fun e => !mine e)
            ++ (s2.entries.filter mine).map fun e => { e with saved := false, core := core, issued := 0 } }

/-- A restore of a unit on a core: it takes place, or the unit waits there until its image is quiet and its numbers are free; a unit that
is no longer saved waits no more (R370, R373). -/
def State.tryRestore (s : State) (u core : Nat) : State :=
  let saved (t : State) : Bool := (t.unit u).any fun x => x.stage == .saved
  let t := s.restoreUnit u core
  t.updCore core fun k =>
    { k with waiting := if !saved t then k.waiting.erase u else if k.waiting.contains u then k.waiting else k.waiting ++ [u] }

/-- A request that was held during a save is taken up: that of the context of highest PRIO, the oldest first; of restores, all that are
held for that context. The others stay held (R371). -/
def State.loadHeld (s : State) (core : Nat) : State :=
  let prio (h : Nat × Bool × Nat) : Nat := ((s.context h.1).map Context.prio).getD 0
  let best := (s.core core).held.foldl (fun b h => match b with
    | none => some h
    | some x => if prio x < prio h then some h else b) (none : Option (Nat × Bool × Nat))
  match best with
  | none => s
  | some h =>
    let mine (x : Nat × Bool × Nat) : Bool := if h.2.1 then x.2.1 && x.1 == h.1 else x == h
    let s1 := s.updCore core fun k => { k with held := if h.2.1 then k.held.filter (!mine ·) else k.held.erase h }
    if h.2.1 then ((s.core core).held.filter mine).foldl (fun (acc : State) x => acc.tryRestore x.2.2 core) s1 else s1.beginSave core h.1

/-- Units that a save took down after their job had ended: their images are discarded without restore (R433). -/
def State.dropEnded (s : State) (us : List Nat) : State :=
  let ended := us.filter fun u => (s.unit u).any fun x => x.stage == .saved && (s.job x.job).any fun j => j.ended.isSome
  let s1 := ended.foldl (fun (acc : State) u => acc.updUnit u fun x => { x with stage := .removed, image := none }) (s.dropImages ended)
  (ended.filterMap fun u => (s.unit u).map UnitSt.job).eraseDups.foldl (fun (acc : State) j => acc.settleJob j) s1.endSweeps

/-- A save ends: the context's units on the core lie in their images, and a held request is taken up (R371, R372). -/
def execSaveEnd (core : Nat) (s : State) : Out :=
  .next <| match (s.core core).saving with
  | some (ctx, 0) =>
    let us := ((s.residents core).filter fun c => c.2.ctx == ctx).map Prod.fst
    let s1 := us.foldl (fun (acc : State) u => acc.saveUnit core u) s
    ((s1.dropEnded us).updCore core fun k => { k with saving := none }).loadHeld core
  | _ => s

/-- Baruri asks for the restore of a saved unit on a core; during a save there the request is held. -/
def execRestore (unit core : Nat) (s : State) : Out :=
  .next <|
    if (s.core core).saving.isSome then
      match s.unit unit with
      | some x => if x.stage == .saved then s.holdRequest core x.ctx true unit else s
      | none => s
    else s.tryRestore unit core

/-! ### Orphan waits and budgets (R374 to R376) -/

/-- A sheaf's watchdog count has reached WDOG: a TYPE 7 record, and the job ends. -/
def execWatchdogExpiry (sheaf : Nat) (s : State) : Out :=
  .next <| match s.sheaf sheaf with
  | none => s
  | some f =>
    if f.watchdog < s.regs.wdog ∨ f.liveMask = 0 then s
    else (s.report (s.nameSheaf f { typ := 7, pc := (f.lane (lowLane f.liveMask)).pc, lanes := f.liveMask, info := f.watchdog })).endJob
      (s.unitOf f).job 7

/-- A context at the start of a period: use beyond a budget is carried into it (R376). -/
def Context.newPeriod (c : Context) : Context :=
  let excess (b : Budget) : Nat := match c.allowance b with
    | none => 0
    | some a => c.used.getD b.index 0 - a
  { c with used := [0, 0, 0, 0, 0], overrun := [Budget.hbm, .fabric, .copy, .mill, .quern].map excess }

/-- `rdclk.ns` has passed a multiple of 10,000: a period begins (R375). -/
def execBudgetPeriod (s : State) : Out :=
  .next <|
    let p := s.nanos / 10000
    if p ≤ s.period then s
    else { s with period := p, contexts := ⟨s.contexts.cells.map fun c => (c.1, c.2.map Context.newPeriod)⟩ }

end Sys2Proof.Machine
end

