-- ==== Sys2Proof/Machine/Routes.lean ====
section
/-!
DEFINITION. The routes of the fabric (R382, R383, R385): where the links lead, minimal routes and those through an intermediate group, what a link
that goes down breaks, and the recomputing of the routes.
-/
namespace Sys2Proof.Machine

/-- The devices at the other ends of a device's global links, in the order of the links. -/
def Fabric.ends (f : Fabric) (a : Nat) : List Nat :=
  f.globals.filterMap fun p => if p.1 = a then some p.2 else if p.2 = a then some p.1 else none

/-- The device at the other end of a link of this one: a local link to each other device of its group, in the order of their numbers, and the
global links (R382). DESIGN CHOICE (log 80). -/
def Fabric.farEnd (f : Fabric) (link : Nat) : Option Nat :=
  if link < Config.localLinks then some (f.number / 32 * 32 + if link < f.number % 32 then link else link + 1)
  else (f.ends f.number)[link - Config.localLinks]?

/-- A link between two devices other than this one works, as far as this one knows. -/
def Fabric.works (f : Fabric) (a b : Nat) : Bool :=
  a != f.number && b != f.number && !f.down.contains (a, b) && !f.down.contains (b, a)

/-- At most one local hop leads from one device to another. -/
def Fabric.near (f : Fabric) (a d : Nat) : Bool := a == d || (a / 32 == d / 32 && f.works a d)

/-- One global hop, and at most one local hop after it, lead from one device to another. -/
def Fabric.across (f : Fabric) (a d : Nat) : Bool := (f.ends a).any fun y => f.works a y && f.near y d

/-- A minimal route leads from one device to another: at most one local hop, one global hop and one local hop (R382). -/
def Fabric.minimal (f : Fabric) (a d : Nat) : Bool :=
  f.near a d || (List.range 32).any fun i => f.near a (a / 32 * 32 + i) && f.across (a / 32 * 32 + i) d

/-- A minimal route to a device goes on from the end of a link of this one. -/
def Fabric.minimalBy (f : Fabric) (link x d : Nat) : Bool :=
  if link < Config.localLinks then x == d || f.across x d else f.near x d

/-- A route through an intermediate group goes on from the end of a link of this one: a global hop has led there, and a minimal route leads
on. -/
def Fabric.otherBy (f : Fabric) (link x d : Nat) : Bool :=
  if link < Config.localLinks then (f.ends x).any fun y => f.works x y && f.minimal y d else f.minimal x d

/-- The links of this device that are up, with the devices at their ends. -/
def State.upLinks (s : State) : List (Nat × Nat) :=
  (List.range Config.links).filterMap fun n => if (s.links.get n).down then none else (s.fabric.farEnd n).map fun x => (n, x)

/-- The route to a peer or to the host: a minimal one, or one through an intermediate group where that is lost; the first of each kind in the
order of this device's links (R382). DESIGN CHOICE (log 83): no rule chooses among routes of one kind. -/
def State.routeTo (s : State) (d : Nat) : Option Route :=
  if d = Config.host then (if (s.links.get Config.hostLink).down then none else some ⟨Config.hostLink, true⟩)
  else match s.upLinks.find? fun n => s.fabric.minimalBy n.1 n.2 d with
    | some n => some ⟨n.1, true⟩
    | none => (s.upLinks.find? fun n => s.fabric.otherBy n.1 n.2 d).map fun n => ⟨n.1, false⟩

/-- The cycles that each die has run. -/
def State.cyclesNow (s : State) : List Nat := (List.range Config.dies).map fun d => (s.die d).cycle

/-- One of some dies has run a number of cycles since a point of time. -/
def State.elapsed (s : State) (dies since : List Nat) (n : Nat) : Bool := dies.any fun d => decide (since.getD d 0 + n ≤ (s.die d).cycle)

/-- The peers that this device keeps a record of, and the host. -/
def State.known (s : State) : List Nat := ((s.peers.cells.map Prod.fst).filter fun d => d != Config.host) ++ [Config.host]

/-- A link changes: it is not used while it is down, so what its routes lead to is broken until the routes are recomputed (R382, R385). -/
def State.linkChanged (s : State) (link : Nat) (x : Link) : State :=
  let uses (d : Nat) : Bool := ((s.peers.get d).route <|> s.routeTo d).any fun r => r.link == link
  let cut := if x.down then s.known.filter uses else []
  { s with
    links := s.links.set link x
    fabric := if (s.links.get link).down == x.down then s.fabric else { s.fabric with stale := s.fabric.stale ++ [link] }
    peers := cut.foldl (fun (acc : Store Peer) d => acc.modify d fun p =>
      if p.broken then p else { p with broken := true, brokenAt := s.cyclesNow }) s.peers }

/-- Whether the route of a peer changes when the routes are recomputed. -/
def State.routeMoves (s : State) (d : Nat) : Bool := (s.routeTo d).isSome && ((s.peers.get d).broken || (s.peers.get d).route != s.routeTo d)

/-- Baruri recomputes the routes: peers with none left are broken, the others reached again; requests not acknowledged go out again on a route
that has changed (R383); on the ordered channels nothing new goes out before what is out on the old routes (R384). -/
def State.reroute (s : State) : State :=
  let found (p : Peer) (d : Nat) : Peer := match s.routeTo d with
    | some r => { p with broken := false, unreachable := false, brokenAt := [], route := some r }
    | none => { p with broken := true, brokenAt := if p.broken then p.brokenAt else s.cyclesNow, route := none }
  let t : State := { s with
    fabric := { s.fabric with stale := [] }
    peers := s.known.foldl (fun (acc : Store Peer) d => acc.modify d fun p => found p d) s.peers
    unacked := s.unacked.map fun r => if s.routeMoves r.peer then { r with sent := r.sent + 1 } else r }
  { t with channels := ⟨t.channels.cells.map fun c => (c.1, c.2.rerouted (t.routed c.1))⟩ }

end Sys2Proof.Machine
end

