-- ==== Sys2Proof/Machine/Host.lean ====
section
/-!
DEFINITION. The host, contexts, submission queues, the fabric and the network (R352, R377 to R393), and the registers that Baruri
writes (R4).
-/
namespace Sys2Proof.Machine

/-! ### Contexts (R352, R379, R391) -/

def powerOfTwo (n lo hi : Nat) : Bool := (List.range 64).any fun k => n == 2 ^ k && decide (lo ≤ n ∧ n ≤ hi)

/-- A descriptor that Baruri may write: its fields within their widths and alignments. -/
def contextOk (ctx : Nat) (c : Context) : Bool :=
  decide (ctx < 64 ∧ c.prio < 8 ∧ c.ptb % 8192 = 0 ∧ c.ptb < Config.hbmBytes ∧ c.pvb % 2 ^ 16 = 0 ∧ c.pvb < 2 ^ 57
    ∧ c.pspan % 2 ^ 16 = 0 ∧ c.pspan < 2 ^ 32 ∧ c.hwm % 512 = 0 ∧ c.hwm ≤ c.pspan / 32 ∧ c.eqb % 64 = 0 ∧ c.eqb < 2 ^ 57)
  && powerOfTwo c.eqn 16 65536 && c.budgets.length == 5 && c.budgets.all fun b => decide (b < 2 ^ 32)

/-- The 128 bytes of a context's descriptor (R352). Baruri keeps it in device memory that no context maps, at an address that no rule gives. -/
def Context.descriptor (c : Context) (ctx : Nat) : List Byte :=
  let b (k : Nat) : List Byte := toBytes 4 (c.budgets.getD k 0)
  toBytes 8 c.ptb ++ toBytes 4 (c.spw.toNat * 2 ^ 9 + c.prio * 2 ^ 6 + ctx) ++ toBytes 4 c.hwm ++ toBytes 8 c.pvb ++ toBytes 4 c.pspan
    ++ toBytes 4 0 ++ toBytes 8 c.eqb ++ toBytes 4 c.eqn ++ toBytes 4 c.head ++ toBytes 4 c.tail ++ toBytes 4 c.lost ++ toBytes 4 0
    ++ b 0 ++ b 1 ++ b 2 ++ b 3 ++ b 4 ++ List.replicate 48 0

def execContextCreate (ctx prio : Nat) (spw : Bool) (ptb pvb pspan hwm eqb eqn : Nat) (budgets : List Nat) (s : State) : Out :=
  .next <|
    let c : Context := { ptb := ptb, spw := spw, prio := prio, hwm := hwm, pvb := pvb, pspan := pspan, eqb := eqb, eqn := eqn,
                         budgets := budgets }
    if (s.context ctx).isSome || !contextOk ctx c then s else { s with contexts := s.contexts.set ctx (some c) }

/-- Keep the pairs of a table whose value passes a test. -/
def keepSome {α : Type} (m : Store (Option α)) (p : Nat → α → Bool) : Store (Option α) :=
  ⟨m.cells.filter fun c => match c.2 with
    | some x => p c.1 x
    | none => false⟩

/-- Everything that a context holds goes: its jobs end, its lanes are culled, its engine entries leave their queues. -/
def State.dropContext (s : State) (ctx : Nat) : State :=
  let jobs := s.jobs.cells.filterMap fun c => c.2.bind fun j => if j.ctx == ctx then some c.1 else none
  let s1 := jobs.foldl (fun (acc : State) j => acc.endJob j 0) s
  let mine := (s1.sheafList.filter fun c => (s1.unitOf c.2).ctx == ctx).map Prod.fst
  let s2 := mine.foldl (fun (acc : State) id => acc.cullLanes id (BitVec.allOnes 32)) s1
  let units := (s2.unitList.filter fun c => c.2.ctx == ctx)
  let s3 := units.foldl (fun (acc : State) u => match u.2.core with
    | some c => acc.updCore c fun k => k.release u.1 u.2
    | none => acc) s2
  { s3 with
    sheaves := keepSome s3.sheaves fun id _ => !mine.contains id
    units := keepSome s3.units fun _ u => u.ctx != ctx
    launches := keepSome s3.launches fun _ l => l.ctx != ctx
    nodes := keepSome s3.nodes fun _ n => (s3.phase n.phase).all fun p => p.ctx != ctx
    phases := keepSome s3.phases fun _ p => p.ctx != ctx
    jobs := keepSome s3.jobs fun _ j => j.ctx != ctx
    entries := (s3.entries.filter fun e => e.owner.ctx != ctx)
    spawns := (s3.spawns.filter fun r => r.owner.ctx != ctx)
    sweeps := (s3.sweeps.filter fun r => r.owner.ctx != ctx)
    incMsgs := (s3.incMsgs.filter fun r => r.owner.ctx != ctx)
    qwords := (s3.qwords.filter fun r => r.owner.ctx != ctx)
    qdeliveries := (s3.qdeliveries.filter fun r => r.owner.ctx != ctx)
    qstamps := (s3.qstamps.filter fun t => !jobs.contains t.key.job)
    replicas := (s3.replicas.filter fun r => !jobs.contains r.job)
    exports := (s3.exports.filter fun e => !jobs.contains e.1)
    contexts := s3.contexts.set ctx none
    tlbs := (s3.tlbs.filter fun t => t.ctx != ctx)
    misses := (s3.misses.filter fun m => m.ctx != ctx)
    subQueues := (s3.subQueues.filter fun q => q.ctx != ctx)
    censusQueue := (s3.censusQueue.filter fun q => q.2 != ctx)
    openLeft := (s3.openLeft.filter fun o => o.1 != ctx) }

/-- The driver asks Baruri to destroy a context: commands that were never accepted are discarded (R410). -/
def execContextDestroy (ctx : Nat) (s : State) : Out := .next (if (s.context ctx).isNone then s else s.dropContext ctx)

def execSubmissionQueueCreate (ctx queue base logSize : Nat) (s : State) : Out :=
  .next <|
    if (s.context ctx).isNone ∨ 8 ≤ queue ∨ logSize < 4 ∨ 16 < logSize ∨ base % 64 ≠ 0 ∨ Config.hbmBytes < base + 64 * 2 ^ logSize
        ∨ s.subQueues.any (fun q => q.ctx == ctx && q.queue == queue) then s
    else { s with subQueues := s.subQueues ++ [{ ctx := ctx, queue := queue, base := base, size := 2 ^ logSize }] }

/-- A queue pair belongs to one context. -/
def execQueuePairCreate (ctx qpn : Nat) (s : State) : Out :=
  .next <|
    if 2 ^ 24 ≤ qpn ∨ s.contexts.cells.any (fun c => c.2.any fun x => x.qps.contains qpn) then s
    else s.updContext ctx fun c => { c with qps := c.qps ++ [qpn] }

/-! ### Submission (R379 to R381) -/

def State.updQueue (s : State) (ctx queue : Nat) (g : SubQueue → SubQueue) : State :=
  { s with subQueues := (s.subQueues.map fun q => if q.ctx == ctx && q.queue == queue then g q else q) }

/-- The submission queue whose doorbell stands at an offset of the register window, of 64 KiB: that of queue n of context c at
0x1000 + 64c + 8n (R377, R379). -/
def doorbellAt (offset : Nat) : Option (Nat × Nat) :=
  if 0x1000 ≤ offset ∧ offset < 0x1000 + 64 * 64 ∧ offset % 8 = 0 then some ((offset - 0x1000) / 64, offset / 8 % 8) else none

/-- The host writes to the register window: an 8-byte write of a doorbell gives the ring's new tail count; no other write there changes
anything. DESIGN CHOICE (log 83). -/
def execDoorbellWrite (offset bytes : Nat) (value : DWord) (s : State) : Out :=
  .next <| match (if bytes = 8 then doorbellAt offset else none) with
  | some q => s.updQueue q.1 q.2 fun x => { x with tail := value.toNat }
  | none => s

/-- A submission entry (R380). -/
structure SubEntry where
  kind : Nat
  node : Nat
  npred : Nat
  obj : DWord
  succs : List Nat
  graph : Nat
  value : DWord
  /-- Its reserved fields are zero and its KIND is one of the four. -/
  ok : Bool

def parseSub (b : List Byte) : SubEntry :=
  let at_ (o n : Nat) : Nat := leNat ((b.drop o).take n)
  let w := at_ 0 4
  let kind := w / 2 ^ 28
  { kind := kind, node := w % 2 ^ 16, npred := at_ 6 2, obj := BitVec.ofNat 64 (at_ 8 8)
    succs := ([0x10, 0x12, 0x14, 0x16].map fun o => at_ o 2).filter fun n => n != 0xFFFF
    graph := at_ 0x18 4, value := BitVec.ofNat 64 (at_ 0x20 8)
    ok := decide (1 ≤ kind ∧ kind ≤ 4 ∧ w / 2 ^ 16 % 2 ^ 12 = 0 ∧ at_ 4 2 = 0 ∧ at_ 0x1C 4 = 0) && (b.drop 0x28).all (· == 0) }

/-- A refused entry: a TYPE 5 record, and the rest of its phase is discarded; nodes already accepted run. DEDUCED (log 32). -/
def State.refuseEntry (s : State) (q : SubQueue) (last : Bool) : State :=
  let job := (q.phase.bind fun p => (s.phase p).map Phase.job).getD 0
  let s1 := s.report { typ := 5, ctx := q.ctx, job := job }
  let s2 := match q.phase with
    | some p => s1.updPhase p fun x => { x with refused := true }
    | none => s1
  s2.updQueue q.ctx q.queue fun x => { x with phase := none, discarding := !last }

/-- The running die of lowest number, on which a new job is homed. DESIGN CHOICE (log 53). -/
def State.homeOf (s : State) : Nat := ((List.range Config.dies).find? fun d => s.dieOpen d).getD 0

/-- A phase begin: the job is new, or one of the context's that goes on (R314, R337, R348, R386). DESIGN CHOICE (log 54). -/
def State.beginPhase (s : State) (q : SubQueue) (j : Nat) (incs : List (Nat × Word × Word)) (parts : List Nat) (reach : Word)
    (exported : Nat × Nat) : State :=
  let open_ (t : State) : State :=
    let (p, t) := t.take
    let x : Phase := { job := j, ctx := q.ctx, queue := q.queue }
    ({ t with phases := t.phases.set p (some x) }).updQueue q.ctx q.queue fun y => { y with phase := some p, discarding := false }
  match s.job j with
  | some x =>
    if x.ctx ≠ q.ctx then s.refuseEntry q false
    else if x.ended.isSome || x.complete then s.updQueue q.ctx q.queue fun y => { y with phase := none, discarding := true }
    else open_ s
  | none =>
    let table := (incs.filter fun i => decide (i.1 < 16)).foldl (fun (acc : Store Inc) i =>
      acc.set i.1 { decl := i.2.1 &&& 0x1F, value := i.2.2 }) {}
    let x : Job := { ctx := q.ctx, homeDie := s.homeOf, incs := table, parts := parts, reach := reach }
    open_ { s with
      jobs := s.jobs.set j (some x)
      exports := if exported.2 = 0 then s.exports else s.exports ++ [(j, exported.1, exported.2)] }

/-- A node is created: predecessors that are complete already have released it (R325). -/
def State.createNode (s : State) (q : SubQueue) (e : SubEntry) (span : Option Span) : State :=
  match q.phase with
  | none => s.refuseEntry q false
  | some p =>
    let mates := s.nodeList.filter fun c => c.2.phase == p
    let badCopy := e.kind == 3 && (match s.nodeBlock q.ctx e.obj 0 with
      | .ok _ => false
      | .serve _ => false
      | _ => true)
    if mates.any (fun c => c.2.index == e.node) || badCopy then s.refuseEntry q false
    else
      let gone := (mates.filter fun c => c.2.stage == .complete && c.2.succs.contains e.node).length
      let (n, s1) := s.take
      let x : Node := { phase := p, graph := e.graph, index := e.node, kind := if e.kind = 3 then .copy else .launch,
                        npred := e.npred - gone, succs := e.succs, obj := e.obj, span := span }
      let s2 := { s1 with nodes := s1.nodes.set n (some x) }
      if x.npred = 0 then s2.startNode n else s2

/-- A phase end: every successor must name a node of the phase. -/
def State.endPhase (s : State) (q : SubQueue) (e : SubEntry) : State :=
  match q.phase with
  | none => s.refuseEntry q true
  | some p =>
    let mates := s.nodeList.filter fun c => c.2.phase == p
    if mates.any fun c => c.2.succs.any fun k => !mates.any fun d => d.2.index == k then s.refuseEntry q true
    else (s.updPhase p fun x => { x with ending := some (e.obj, e.value) }).updQueue q.ctx q.queue fun y => { y with phase := none }

/-- Baruri takes the next entry of a queue. The job table's contents for a new job come with the event: incumbent declarations and
start values, the devices that hold its other parts, REACH, and the export it admits (DEDUCED, log 55); so does how the chain of a launch
goes on at other devices: before, after, and whether it holds the first and the last member, DESIGN CHOICE (log 48); and what Baruri's policy
says of the entry (R379), one that it bars being refused like one that breaks the layout, DESIGN CHOICE (log 83). -/
def execSubmissionEntry (ctx queue : Nat) (incs : List (Nat × Word × Word)) (parts : List Nat) (reach : Word)
    (tables : EntryTables) (s : State) : Out :=
  .next <| match s.subQueues.find? fun q => q.ctx == ctx && q.queue == queue with
  | none => s
  | some q =>
    if q.taken = q.tail then s
    else
      let e := parseSub (s.bytesAt (memKey 0 (q.base + 64 * (q.taken % q.size))) 64)
      let s1 := s.updQueue ctx queue fun x => { x with taken := (x.taken + 1) % 2 ^ 64 }
      if q.discarding && (e.kind != 1 || !e.ok) then
        (if e.kind = 4 then s1.updQueue ctx queue fun x => { x with discarding := false } else s1)
      else if !e.ok || tables.barred then s1.refuseEntry q (e.kind == 4)
      else if e.kind = 1 then
        (if q.phase.isSome then s1.refuseEntry q false
         else s1.beginPhase q (e.obj.toNat % 2 ^ 32) incs parts reach tables.exported)
      else if e.kind = 4 then s1.endPhase q e
      else s1.createNode q e (tables.span.map fun x => { before := x.1, after := x.2.1, first := x.2.2.1, last := x.2.2.2 })

/-- A phase whose end has been taken and whose counter reads zero writes its completion word and raises the context's vector; a
refused phase only ends. DEDUCED (log 71). -/
def execPhaseEndCompletion (phase : Nat) (s : State) : Out :=
  .next <| match s.phase phase with
  | none => s
  | some p =>
    if p.complete || !(p.refused || p.ending.isSome) || !s.phaseZero phase then s
    else
      let s1 : State := match p.ending with
        | some (a, v) =>
          let t := s.store (((List.range 8).zip (toBytes 8 v.toNat)).map fun c => (memKey 1 (a.toNat + c.1), c.2))
          { t with msix := t.msix.modify p.ctx (· + 1) }
        | none => s
      (s1.updPhase phase fun x => { x with complete := true }).progress p.job

/-! ### The HDM window (R377, R378) -/

/-- Bytes that come from outside, poison among them, are written at a key: a word that holds poison is poison (R424). -/
def State.writeFrom (s : State) (key : Nat) (data : List (Option Byte)) : State :=
  let cells := (List.range data.length).zip data
  let t := s.write (cells.map fun c => (key + c.1, c.2.getD 0))
  (cells.filter fun c => c.2.isNone).foldl (fun (acc : State) c => acc.setPoison (key + c.1) true) t

/-- The host writes or reads the HDM window (R378): a read is answered with the bytes and the poison indication of CXL, and what the host sends
as poison is local poison (R424). An address of 2^60 or more is one of the host's own memory, or of a peer's, which their owners write.
DESIGN CHOICE (log 83). -/
def execHostHdmAccess (addr : Nat) (write : Bool) (data : List (Option Byte)) (s : State) : Out :=
  .next <|
    if write then (if s.inHdm addr data.length ∨ 2 ^ 60 ≤ addr then s.writeFrom addr data else s)
    else if !s.inHdm addr data.length then s
    else
      let keys := (List.range data.length).map (addr + ·)
      let t := keys.foldl State.verifyLine s
      { t with hostAnswer := { addr := addr, bytes := t.bytesAt addr data.length, poison := keys.any t.poisonAt } }

/-! ### The fabric (R382 to R389) -/

/-- What a peer's request does at this device's HBM, the checks of its lines verified first (R422): the bytes of the answer or a refusal, and
the state. -/
def State.peerDo (s0 : State) (key op size : Nat) (x y : DWord) : State × List Byte × Option Nat :=
  let keys := (List.range size).map (key + ·)
  let s := keys.foldl State.verifyLine s0
  let old := s.valueAt key size
  let put (v : List Byte) : State := s.write (keys.zip v)
  if op = 1 then (put (toBytes 8 x.toNat ++ toBytes 8 y.toNat), [], none)
  else if op = 65 then (s.writeFrom key (List.replicate size none), [], none)
  else if keys.any s.poisonAt then (s, [], some 7)
  else if op = 0 then (s, toBytes size old, none)
  else
    let v := if op = 2 then (if old = x.toNat % 2 ^ (8 * size) then y.toNat else old)
      else if op < 32 then atomNew (op - 16) (8 * size) old (x.toNat % 2 ^ (8 * size))
      else atomfNew (lo32 y) (op - 32) old (x.toNat % 2 ^ 32)
    (put (toBytes size v), toBytes size old, none)

/-- A held reply of a request of a peer goes. -/
def State.dropReply (s : State) (src seq : Nat) (p : HeldReply → Bool) : State :=
  { s with heldReplies := s.heldReplies.filter fun r => !(r.src == src && r.seq == seq && p r) }

/-- A request of a peer for a job's export, performed at most once; the reply is held (R383, R386, R387). `op`: 0 load, 1 store of x and then y,
2 `CAS`, 16 + FORM `ATOM`, 32 + FORM `ATOMF`, 65 a store of poison (R424); 64 acknowledges a reply, which is held no longer. DESIGN CHOICE
(log 59). -/
def execPeerRequest (src seq job offset : Nat) (op : Nat) (size : Nat) (x y : DWord) (s : State) : Out :=
  .next <|
    if op = 64 then s.dropReply src seq (fun _ => true)
    else if s.heldReplies.any fun r => r.src == src && r.seq == seq then s
    else
      let good := [1, 2, 4, 8, 16].contains size && (op ≤ 1 || op == 65 || size == 4 || size == 8)
        && (op ≤ 2 || op == 65 || (16 ≤ op && op ≤ 24) || (32 ≤ op && op ≤ 36 && size == 4))
      let (t, v, cause) : State × List Byte × Option Nat :=
        match s.exports.find? fun e => e.1 == job with
        | none => (s, [], some 1)
        | some e =>
          if e.2.2 < offset + size ∨ !good then (s, [], some 1)
          else if offset % size ≠ 0 then (s, [], some 2)
          else s.peerDo (memKey 0 (e.2.1 + offset)) op size x y
      let r : HeldReply := { src := src, seq := seq, value := v, refused := cause, since := s.cyclesNow }
      ({ t with heldReplies := t.heldReplies ++ [r] }).progress job

/-- A held reply that was not acknowledged within PEERTO, of any die's cycles, is discarded (R383). No sheaf of this device waits for it, and no
rule says whose cycles count. DESIGN CHOICE (log 83). -/
def execReplyHoldExpiry (src seq : Nat) (s : State) : Out :=
  .next (s.dropReply src seq fun r => s.elapsed (List.range Config.dies) r.since s.regs.peerto)

/-- A link has gone down, unless it is one whose change is noted already, and Baruri recomputes the routes, and with them the REACH of jobs, from
what it knows of the fabric (R348, R382). -/
def execRouteRecompute (link : Nat) (loss : RouteLoss) (s : State) : Out :=
  .next <|
    if Config.hostLink < link then s
    else
      let t := if s.fabric.stale.contains link then s else s.linkChanged link { s.links.get link with down := true }
      let t : State := { t with fabric := { t.fabric with globals := loss.globals, down := loss.down } }
      loss.reach.foldl (fun (acc : State) r => acc.updJob r.1 fun x => { x with reach := r.2 }) t.reroute

/-- A result word's reserved bits read zero (R4, R385). -/
def linkResult (w : Word) : Word := w &&& 0x00FFFFFF

/-- The lower common result of two: the lower WIDTH and the slower SPEED, on the lanes as the first end maps them (R385). DESIGN CHOICE
(log 80): where the ends map different lanes no rule gives the bits of MAP. -/
def lowerCommon (a b : Word) : Word :=
  (a &&& 0x00FF0000) ||| (if (a &&& 0xFF00) ≤ (b &&& 0xFF00) then b &&& 0xFF00 else a &&& 0xFF00)
    ||| (if (a &&& 0xFF) ≤ (b &&& 0xFF) then a &&& 0xFF else b &&& 0xFF)

/-- What a link is after retraining, from the results that its ends publish and a second pair where the first differ; this end publishes its
capability mask as the link comes up (R385, R389). -/
def retrained (a1 b1 a2 b2 : Word) : Link :=
  if linkResult a1 = linkResult b1 then
    { down := false, resultA := linkResult a1, resultB := linkResult b1, common := linkResult a1 }
  else { down := linkResult a2 != linkResult b2, resultA := linkResult a2, resultB := linkResult b2, common := lowerCommon a1 b1 }

/-- A link is retrained; one whose ends still disagree goes down, and what its routes lead to is broken until the routes are recomputed
(R382, R385). -/
def execLinkRetrain (link : Nat) (a1 b1 a2 b2 : Word) (s : State) : Out :=
  .next (if Config.hostLink < link then s else s.linkChanged link (retrained a1 b1 a2 b2))

/-- A peer publishes its capability mask (R389), and the length of its export for each job that it admits (R386). DESIGN CHOICE (log 48). -/
def execCapabilityPublish (peer : Nat) (mask : Word) (exports : List (Nat × Nat)) (s : State) : Out :=
  .next <|
    if Config.fabricDevices ≤ peer then s
    else { s with peers := s.peers.modify peer fun p =>
      { p with mask := mask &&& Config.capabilities, known := true, exports := exports.map fun e => (e.1, min e.2 (2 ^ 38)) } }

/-- An atomic that waits for its reply from a peer, or from the host. -/
def Outstanding.waitsFor (o : Outstanding) (peer : Nat) : Bool := o.peer == some peer && (match o.kind with
  | .value _ => true
  | _ => false)

/-- One atomic word of a sheaf whose replies are lost: its lanes receive poison in their turn, and a TYPE 13 record is written (R388). -/
def State.loseReplies (s : State) (id peer op : Nat) : State :=
  match s.sheaf id with
  | none => s
  | some f =>
    match f.outstanding.filter fun o => o.waitsFor peer && o.op == op with
    | [] => s
    | o :: rest =>
      let lose (x : Outstanding) : Outstanding := if x.waitsFor peer && x.op == op then { x with kind := .poison } else x
      (s.updSheaf id fun f => { f with outstanding := f.outstanding.map lose }).report
          (s.nameSheaf f { typ := 13, pc := o.pc, addr := s.vaOf f o.space o.lane o.ea
                           lanes := laneMask fun l => (o :: rest).any fun x => x.lane == l
                           peer := if peer = Config.host then 0 else peer })

/-- The dies whose cycles PEERTO counts for a peer: those of the cores that hold sheaves waiting for it (R417); where none waits, any.
DESIGN CHOICE (log 83) for the last. -/
def State.waitDies (s : State) (peer : Nat) : List Nat :=
  let l := s.sheafList.filterMap fun c =>
    if c.2.place.isSome && c.2.outstanding.any fun o => o.waitsFor peer then some (dieOf c.2.coreNo) else none
  if l.isEmpty then List.range Config.dies else l

/-- A peer, or the host, whose route has stayed broken for PEERTO: what is out to it on the ordered channel is declared lost (R384);
atomics that wait for its replies receive poison, and a TYPE 13 record is written for each such word (R387, R388). -/
def execPeerUnreachable (peer : Nat) (s : State) : Out :=
  .next <|
    let p := s.peers.get peer
    if !p.broken || p.unreachable || !s.elapsed (s.waitDies peer) p.brokenAt s.regs.peerto then s
    else
      let s1 := { s with peers := s.peers.modify peer fun p => { p with unreachable := true }, channels := s.channels.modify peer Channel.lost }
      s.sheafList.foldl (fun (acc : State) c =>
        (((c.2.outstanding.filter fun o => o.waitsFor peer).map Outstanding.op).eraseDups).foldl (fun (acc : State) op =>
          acc.loseReplies c.1 peer op) acc) s1

/-- The failure of a committed store is reported, with the cause that it met, to the issuing core's home: a TYPE 1 record, which names the
sheaf as it stood at the commit (R366). -/
def execRemoteStoreFailure (id cause : Nat) (s : State) : Out :=
  .next <| match s.storeFailures.find? fun x => x.id == id && x.cause == cause with
  | none => s
  | some x =>
    let r : ErrRec :=
      { typ := 1, cause := x.cause, ctx := x.ctx, exited := (s.sheaf x.sheaf).all fun f => f.liveMask == 0, pc := x.pc, addr := x.addr
        job := x.job, launch := x.launch, unit := x.unit, gen := x.gen, core := x.core, slot := x.slot, peer := x.peer
        lanes := BitVec.twoPow 32 x.lane, info := x.bytes }
    ({ s with storeFailures := (s.storeFailures.filter fun y => y.id != id) }).report r

/-! ### The network (R391, R392) -/

/-- The network copy of an entry that is under way. -/
def State.netCopy (s : State) (id : Nat) : Option (Entry × CopyWork × Endpoint) :=
  match s.entry id with
  | none => none
  | some e => match e.work with
    | .copy c => match c.endpoint with
      | some p => if e.stage == .started then some (e, c, p) else none
      | none => none
    | _ => none

/-- The last acknowledgement, or the last read response with the data, has arrived. -/
def execRdmaCompletion (id : Nat) (data : List Byte) (s : State) : Out :=
  .next <| match s.netCopy id with
  | none => s
  | some (e, c, p) =>
    let (src, dst) := c.sides e
    if c.route = 6 then (s.chargeMove src dst p.len 0).endCopy e c { s := s, size := p.len }
    else if c.route ≠ 7 ∨ data.length ≠ p.len then s
    else
      let cells := (List.range p.len).zip data |>.map fun x => (dst.base + BitVec.ofNat 64 x.1, x.2)
      match cells.findSome? fun x => s.sideMeets dst x.1 with
      | some _ => s.updEntry e.id fun x => { x with stage := .slow }
      | none => ((s.putOutput dst { cells := cells }).chargeMove src dst 0 p.len).endCopy e c { s := s, size := p.len }

/-- A NAK, or a retry count exhausted: ERR, with cause 1 or 5. Of a read, the bytes that had come stand written, as far as the destination takes
them (R392). -/
def execNak (id : Nat) (answer : NakAnswer) (s : State) : Out :=
  .next <| match s.netCopy id with
  | none => s
  | some (e, c, p) =>
    let dst := (c.sides e).2
    let got := if c.route = 7 then answer.data.take p.len else []
    let cells := ((List.range got.length).zip got |>.map fun x => (dst.base + BitVec.ofNat 64 x.1, x.2)).filter fun x =>
      (s.sideMeets dst x.1).isNone
    (s.putOutput dst { cells := cells }).endCopy e c
      { s := s, size := cells.length, cond := some ⟨.unserviceable, if answer.cause = 1 then 1 else 5, 0, []⟩ }

/-- A congestion notification packet arrives at a port, which lowers its rate. -/
def execCongestionNotificationPacket (port : Nat) (s : State) : Out :=
  .next (if Config.ethernetPorts ≤ port then s else { s with congestion := s.congestion.modify port (· + 1) })

/-! ### Registers that Baruri writes (R4) -/

/-- Baruri homes a job on another running die, with its units' places in the range matcher and the dispatch list (R324, R336, R419); children
whose stamps the replica there passes go at once (R349). -/
def State.rehome (s : State) (j die : Nat) : State :=
  if Config.dies ≤ die || !s.dieOpen die || (s.job j).isNone then s
  else
    let move (e : Listed) : Listed := if (e.unit.bind s.unit).any fun x => x.job == j then { e with die := die } else e
    ({ s with listed := s.listed.map move }.updJob j fun x => { x with homeDie := die }).stampSweep j die

/-- THETA, KIND or FALLOW of a matrix record takes a value. -/
def State.setMatrixField (s : State) (key field v : Nat) : State :=
  let put (off n x : Nat) : State := s.store (((List.range n).map fun j => key + off + j).zip (toBytes n x))
  if Config.hbmBytes < key + 128 then s
  else match field with
    | 0 => put 0x44 4 v
    | 1 => put 0x40 1 ((s.byteAt (key + 0x40)).toNat % 16 + 16 * (v % 4) + (s.byteAt (key + 0x40)).toNat / 64 * 64)
    | 2 => put 0x54 4 v
    | _ => s

/-- The register map of the event: 0 DRAIN, 1 WDOG, 2 PEERTO, 3 AGE, 4 SCRUB, 5 the row threshold, 6 the device's fabric number (R382), 64 + c HEAD of context c,
256 + core whether the dispatcher may use the core, 512 + g whether GiB g of the HDM window is in device bias (R377), 2^32 + j the home die of
job j; 2^60 + 4k + 0, 1 or 2 THETA, KIND or FALLOW of the matrix record at 128k, which Baruri sets on Dzisidin's request (R399, R403). A value outside a register's range, or another number, changes nothing. DESIGN CHOICE (log 70). -/
def execRegisterWrite (reg : Nat) (value : DWord) (s : State) : Out :=
  .next <|
    let v := value.toNat
    let put (ok : Bool) (r : PkgRegs) : State := if ok then { s with regs := r } else s
    match reg with
    | 0 => put (decide (1024 ≤ v ∧ v ≤ 2 ^ 20)) { s.regs with drain := v }
    | 1 => put (powerOfTwo v (2 ^ 20) (2 ^ 30)) { s.regs with wdog := v }
    | 2 => put (decide (2 ^ 16 ≤ v ∧ v ≤ 2 ^ 26)) { s.regs with peerto := v }
    | 3 => put (decide (v ≤ 255)) { s.regs with age := v }
    | 4 => put (decide (1 ≤ v ∧ v ≤ 168)) { s.regs with scrub := v }
    | 5 => { s with regs := { s.regs with rowThreshold := v } }
    | 6 => if v < Config.fabricDevices then { s with fabric := { s.fabric with number := v } } else s
    | n =>
      if 64 ≤ n ∧ n < 128 then s.updContext (n - 64) fun c => { c with head := v % 2 ^ 32 }
      else if 256 ≤ n ∧ n < 256 + Config.coresPerDie * Config.dies then
        s.updCore (n - 256) fun k => { k with closed := value.getLsbD 0 }
      else if 512 ≤ n ∧ n < 1024 ∧ n < 512 + s.regs.hdmsz then { s with hdmBias := s.hdmBias.set (n - 512) (value.getLsbD 0) }
      else if 2 ^ 60 ≤ n then s.setMatrixField (128 * ((n - 2 ^ 60) / 4)) (n % 4) v
      else if 2 ^ 32 ≤ n then s.rehome (n - 2 ^ 32) v
      else s

end Sys2Proof.Machine
end

