-- ==== Sys2Proof/Machine/Census.lean ====
section
/-!
DEFINITION. The row census: fallow sweeps, ranking, staged maps and migrations (the manual's chapter of that name).
-/
namespace Sys2Proof.Machine

/-! ### The record by its physical key (R402, R406) -/

def State.matrixAt (s : State) (key : Nat) : Option MatrixRec := parseMatrix (s.bytesAt key 128)
def State.recField (s : State) (key off n : Nat) : Nat := s.valueAt (key + off) n
def State.setRec (s : State) (key off n v : Nat) : State :=
  s.store (((List.range n).map fun j => key + off + j).zip (toBytes n v))
def State.mstateAt (s : State) (key : Nat) : Nat := s.recField key 0x70 4 % 4
def State.mcauseAt (s : State) (key : Nat) : Nat := s.recField key 0x70 4 / 16 % 16
def State.setMstate (s : State) (key state : Nat) : State := s.setRec key 0x70 4 (s.mcauseAt key * 16 + state)
def State.setMcause (s : State) (key cause : Nat) : State := s.setRec key 0x70 4 (cause * 16 + s.mstateAt key)

/-- Baruri is notified of a record (R401, R407). -/
def State.notify (s : State) (key : Nat) : State := s.putCensus key fun c => { c with notices := c.notices + 1 }

/-- Entry `r` of a placement map. -/
def State.mapRow (s : State) (ctx : Nat) (a : DWord) (r : Nat) : Except Poison Nat := s.readVaNat ctx (a + BitVec.ofNat 64 (2 * r)) 2

/-- Entries of a placement map. -/
def State.mapRows (s : State) (ctx : Nat) (a : DWord) (rows : Nat) : Except Poison (List Nat) := do
  let b ← s.readVa ctx a (2 * rows)
  return (List.range rows).map fun r => leNat ((b.drop (2 * r)).take 2)

def entryHot (x : Nat) : Bool := x.testBit 15
def entryPos (x : Nat) : Nat := x % 2 ^ 12
/-- Its reserved bits are clear, and its position lies below HBUD when it is hot (R228, R404). -/
def entryOk (m : MatrixRec) (x : Nat) : Bool := x / 2 ^ 12 % 8 == 0 && (!entryHot x || decide (entryPos x < m.hbud))

/-! ### The fallow step (R401, R410) -/

/-- A sweep of a record's counters goes on: one row's counter is halved by one atomic, in the order of the rows; after the last FSTEPS rises and
Baruri is notified. It waits at a counter whose page does not translate. DESIGN CHOICE (log 27). -/
def execFallowSweepEnd (rec : Nat) (s : State) : Out :=
  .next <| match s.censusOf rec, s.matrixAt rec with
  | some c, some m =>
    if c.sweeps = 0 then s
    else if c.swept < m.rows then
      match s.translateNow c.ctx (m.census + BitVec.ofNat 64 (2 * c.swept)) .atomic with
      | .ok _ _ => (s.censusAtomic rec c.ctx m.census c.swept (· / 2)).putCensus rec fun x => { x with swept := x.swept + 1 }
      | _ => s
    else
      ((s.setRec rec 0x6C 4 (s.recField rec 0x6C 4 + 1)).putCensus rec fun x =>
        { x with sweeps := x.sweeps - 1, swept := 0, rankOwed := x.registered }).notify rec
  | _, _ => s

/-! ### Ranking (R404, R405) -/

/-- A row of a slice while Baruri ranks: number, count, position if it is hot. -/
structure Ranked where
  row : Nat
  count : Nat
  pos : Option Nat
  deriving DecidableEq, Repr, Inhabited

/-- `a` is ranked before `b`. -/
def Ranked.before (a b : Ranked) : Bool := decide (b.count < a.count) || (a.count == b.count && decide (a.row < b.row))

/-- Insertion into rank order. -/
def Ranked.insert (x : Ranked) : List Ranked → List Ranked
  | [] => [x]
  | y :: rest => if x.before y then x :: y :: rest else y :: Ranked.insert x rest

/-- The hot row of least count, the higher row first on a tie: the last in rank order. -/
def leastHot (l : List Ranked) : Option Ranked := (l.filter fun x => x.pos.isSome).getLast?
def hotCount (l : List Ranked) : Nat := (l.filter fun x => x.pos.isSome).length
def setPos (l : List Ranked) (row : Nat) (p : Option Nat) : List Ranked := l.map fun x => if x.row == row then { x with pos := p } else x

/-- Step 2: hot rows beyond the budget become cold. -/
def rankTrim (b : Nat) : Nat → List Ranked → List Ranked
  | 0, l => l
  | n + 1, l => if hotCount l ≤ b then l else match leastHot l with
    | some x => rankTrim b n (setPos l x.row none)
    | none => l

/-- Step 3: the cold rows that become hot, in rank order, with the list as it stands; position 2^16 stands for one not given
yet. -/
def rankFill (b : Nat) : List Ranked → List Ranked → List Ranked
  | [], l => l
  | x :: rest, l =>
    if x.pos.isSome then rankFill b rest l
    else if hotCount l < b then (if x.count = 0 then rankFill b rest l else rankFill b rest (setPos l x.row (some (2 ^ 16))))
    else match leastHot l with
      | some y => if y.count + y.count / 8 + 1 < x.count then rankFill b rest (setPos (setPos l y.row none) x.row (some (2 ^ 16)))
                  else rankFill b rest l
      | none => rankFill b rest l

/-- Step 4: newly hot rows take the lowest free positions. -/
def rankPlace (hbud : Nat) : List Ranked → List Ranked → List Ranked
  | [], l => l
  | x :: rest, l =>
    match (l.find? fun y => y.row == x.row).bind Ranked.pos with
    | some p =>
      if p = 2 ^ 16 then
        let used := l.filterMap Ranked.pos
        let free := ((List.range hbud).find? fun k => !used.contains k).getD 0
        rankPlace hbud rest (setPos l x.row (some free))
      else rankPlace hbud rest l
    | none => rankPlace hbud rest l

/-- Baruri's policy on one slice. -/
def rankSlice (hbud b : Nat) (l : List Ranked) : List Ranked :=
  let order := l.foldl (fun acc x => Ranked.insert x acc) []
  let trimmed := rankTrim b order.length order
  rankPlace hbud trimmed (rankFill b trimmed trimmed)

/-- The hot rows and positions that a replacement policy lists, as far as R404 lets them stand: rows of the matrix, positions below HBUD and
distinct in their slice, at most B in a slice, the first listed first. -/
def policyRows (m : MatrixRec) (b : Nat) : List (Nat × Nat) → List (Nat × Nat) → List (Nat × Nat)
  | [], acc => acc
  | (r, p) :: rest, acc =>
    let mates := acc.filter fun x => x.1 / m.slice == r / m.slice
    if m.rows ≤ r ∨ m.hbud ≤ p ∨ b ≤ mates.length ∨ mates.any (fun x => x.1 == r || x.2 == p) then policyRows m b rest acc
    else policyRows m b rest (acc ++ [(r, p)])

/-- The new map of a matrix from the current one and the counters, slice by slice, or as a replacement policy lists it. -/
def newMap (m : MatrixRec) (c : Census) (current counts : List Nat) : List Nat :=
  match c.policy with
  | some l =>
    let hot := policyRows m (min c.budget m.hbud) l []
    (List.range m.rows).map fun r => match hot.find? fun x => x.1 == r with
      | some x => 2 ^ 15 + x.2
      | none => 0
  | none =>
    let slices := (m.rows + m.slice - 1) / m.slice
    let ranked := (List.range slices).flatMap fun k =>
      let rows := ((List.range m.slice).map (m.slice * k + ·)).filter fun r => decide (r < m.rows)
      rankSlice m.hbud (min c.budget m.hbud) (rows.map fun r =>
        let x := current.getD r 0
        { row := r, count := counts.getD r 0, pos := if entryHot x then some (entryPos x) else none })
    (List.range m.rows).map fun r => match (ranked.find? fun x => x.row == r).bind Ranked.pos with
      | some p => 2 ^ 15 + p
      | none => 0

/-- Step 5: rows hot in the new map and not hot at the same position in the spare parity's. -/
def migrationList (new spare : List Nat) : List Nat :=
  (List.range new.length).filter fun r => entryHot (new.getD r 0) && new.getD r 0 != spare.getD r 0

/-- Write a staged map, aligned to 128, and a migration list, name them in the record, and put the command into the census queue. -/
def State.stage (s : State) (key ctx smap mlist : Nat) (map rows : List Nat) : Option State :=
  if 256 ≤ s.censusQueue.length ∨ smap % 128 ≠ 0 then none
  else match s.writeVa ctx (BitVec.ofNat 64 smap) (map.flatMap (toBytes 2)) with
    | .error _ => none
    | .ok s1 => match s1.writeVa ctx (BitVec.ofNat 64 mlist) (rows.flatMap (toBytes 4)) with
      | .error _ => none
      | .ok s2 =>
        let s3 := ((s2.setRec key 0x58 8 smap).setRec key 0x60 8 mlist).setRec key 0x68 4 rows.length
        some { s3 with censusQueue := s3.censusQueue ++ [(key, ctx)] }

/-- The maps of the current and the spare parity. -/
def State.bothMaps (s : State) (ctx : Nat) (m : MatrixRec) : Except Poison (List Nat × List Nat) := do
  let g := m.gen % 2
  return (← s.mapRows ctx (m.pmap g) m.rows, ← s.mapRows ctx (m.pmap (1 - g)) m.rows)

/-- The counters of a matrix; one that cannot be read counts as 0. -/
def State.counters (s : State) (ctx : Nat) (m : MatrixRec) : List Nat :=
  (List.range m.rows).map fun r => match s.readVaNat ctx (m.census + BitVec.ofNat 64 (2 * r)) 2 with
    | .ok n => n
    | .error _ => 0

/-- Baruri ranks a registered record after a completed sweep, once MSTATE reads 0. -/
def execCensusRanking (rec smap mlist : Nat) (s : State) : Out :=
  .next <| match s.censusOf rec, s.matrixAt rec with
  | some c, some m =>
    if !c.rankOwed || !c.registered || s.mstateAt rec != 0 then s
    else match s.bothMaps c.ctx m with
      | .error _ => s
      | .ok (current, spare) =>
        let new := newMap m c current (s.counters c.ctx m)
        if new = current then s.putCensus rec fun x => { x with rankOwed := false }
        else match s.stage rec c.ctx smap mlist new (migrationList new spare) with
          | some t => t.putCensus rec fun x => { x with rankOwed := false }
          | none => s
  | _, _ => s

/-- Dzisidin registers a matrix record, its hot-row budget and, in place of Baruri's policy, another. -/
def execMatrixRecordRegistration (rec budget : Nat) (policy : Option (List (Nat × Nat))) (s : State) : Out :=
  .next <|
    let ctx := ((s.censusOf rec).map Census.ctx).getD 0
    s.updCensus rec ctx fun c => { c with registered := true, budget := budget, policy := policy }

/-- Baruri relists the rows that wait for it, with the map unchanged, once MSTATE reads 0 and the queue has room (R402, R408). -/
def State.relist (s : State) (rec : Nat) (c : Census) (m : MatrixRec) : State :=
  if c.stale.isEmpty || s.mstateAt rec != 0 then s
  else match s.bothMaps c.ctx m with
    | .error _ => s
    | .ok (current, spare) =>
      let due := migrationList current spare
      let list := (List.range m.rows).filter fun r => entryHot (current.getD r 0) && (c.stale.contains r || due.contains r)
      match s.stage rec c.ctx c.relist.1 c.relist.2 current list with
      | some t => t.putCensus rec fun x => { x with stale := [] }
      | none => s

/-- Dzisidin reports rows of a registered record whose COLD bytes have changed: Baruri keeps them until it can relist them (R408, R411).
DEDUCED (log 63). -/
def execColdChangeReport (rec smap mlist : Nat) (rows : List Nat) (s : State) : Out :=
  .next <| match s.censusOf rec, s.matrixAt rec with
  | some c, some m =>
    if !c.registered then s
    else
      let c := { c with stale := c.stale ++ rows, relist := (smap, mlist) }
      (s.putCensus rec fun _ => c).relist rec c m
  | _, _ => s

/-! ### Migration (R406, R407) -/

/-- The hardware takes a command from the census queue; a record that is busy only says so. -/
def execMigrationCommand (rec ctx : Nat) (s : State) : Out :=
  .next <|
    if !s.censusQueue.contains (rec, ctx) then s
    else
      let s := { s with censusQueue := s.censusQueue.erase (rec, ctx) }
      if (s.context ctx).isNone || (s.matrixAt rec).isNone then s
      else if s.mstateAt rec != 0 then s.setMcause rec 5
      else (((s.setMcause rec 0).setMstate rec 1).setRec rec 0x74 4 0).putCensus rec fun c =>
        { c with migrating := true, mctx := ctx, mapped := 0, engine := false }

/-- A migration is over: it gives its engine back. -/
def State.leaveMigration (s : State) (key : Nat) : State := s.putCensus key fun c => { c with migrating := false, engine := false }

def State.failMigration (s : State) (key cause : Nat) : State :=
  (((s.setMcause key cause).setMstate key 0).leaveMigration key).notify key

/-- What one step of a migration comes to. -/
inductive MigrationStep where
  | went (s : State)
  | cause (n : Nat)
  | fault (p : Poison)

/-- The next entry of the staged map is checked and copied (R404, R407). -/
def State.copyEntry (s : State) (key : Nat) (c : Census) (m : MatrixRec) : MigrationStep :=
  let pmap := m.pmap ((m.gen + 1) % 2)
  let r := c.mapped
  let earlier (k : Nat) : Bool := match s.mapRow c.mctx pmap (r / m.slice * m.slice + k) with
    | .ok x => entryHot x
    | .error _ => false
  let used (k : Nat) : Nat := match s.mapRow c.mctx pmap (r / m.slice * m.slice + k) with
    | .ok x => entryPos x
    | .error _ => 0
  match s.mapRow c.mctx (BitVec.ofNat 64 (s.recField key 0x58 8)) r with
  | .error p => .fault p
  | .ok x =>
    if !entryOk m x then .cause 1
    else if entryHot x && (List.range (r % m.slice)).any fun k => earlier k && used k == entryPos x then .cause 2
    else match s.writeVa c.mctx (pmap + BitVec.ofNat 64 (2 * r)) (toBytes 2 x) with
      | .error p => .fault p
      | .ok t => .went ((t.charge c.mctx .hbm 4).putCensus key fun y => { y with mapped := r + 1 })

/-- The next listed row is copied, bit for bit, into the spare hot store (R407). -/
def State.copyListed (s : State) (key : Nat) (c : Census) (m : MatrixRec) (i : Nat) : MigrationStep :=
  let n := (m.gen + 1) % 2
  match s.readVaNat c.mctx (BitVec.ofNat 64 (s.recField key 0x60 8 + 4 * i)) 4 with
  | .error p => .fault p
  | .ok r =>
    if m.rows ≤ r then .cause 3
    else match s.mapRow c.mctx (BitVec.ofNat 64 (s.recField key 0x58 8)) r with
    | .error p => .fault p
    | .ok x =>
      if !entryHot x then .cause 3
      else
        let q := r / m.slice * m.hbud + entryPos x
        match s.readVa c.mctx (m.cold + BitVec.ofNat 64 (r * m.rstride)) m.rstride with
        | .error p => .fault p
        | .ok b => match s.writeVa c.mctx (m.hot n + BitVec.ofNat 64 (q * m.rstride)) b with
          | .error p => .fault p
          | .ok t => .went ((t.setRec key 0x74 4 (i + 1)).charge c.mctx .hbm (2 * m.rstride))

/-- The next step of a migration that copies. -/
def State.migrateStep (s : State) (key : Nat) (c : Census) (m : MatrixRec) : MigrationStep :=
  if c.mapped < m.rows then s.copyEntry key c m
  else if s.recField key 0x74 4 < s.recField key 0x68 4 then s.copyListed key c m (s.recField key 0x74 4)
  else .went (s.setMstate key 3)

/-- The copying of a migration, step by step: it waits for the spare parity to close, for an engine of the record's die and for its budgets
(R10, R407, R410); each step's engine cycles are charged. A fault that Baruri's slow path may still serve makes it wait, freely, and go on
with the row that met it, or fails it. DEDUCED (log 75). -/
def execMigrationCopy (rec : Nat) (s : State) : Out :=
  .next <| match s.censusOf rec, s.matrixAt rec with
  | some c, some m =>
    let st := s.mstateAt rec
    if !c.migrating then s
    else if st = 1 then (if s.recField rec (if m.gen % 2 = 1 then 0x4C else 0x4E) 2 != 0 then s else s.setMstate rec 2)
    else if st ≠ 2 ∨ s.exhausted c.mctx .hbm ∨ s.exhausted c.mctx .copy then s
    else if !c.engine then
      (if s.enginesHeld (s.censusDie rec) < Config.copyEngines then s.putCensus rec fun x => { x with engine := true } else s)
    else
      let (k, s1) := s.freeCycles
      let s1 := s1.charge c.mctx .copy k
      match s1.migrateStep rec c m with
      | .went t => t
      | .cause k => s1.failMigration rec k
      | .fault p => if Config.freeBool s.free then s1.healWords 0 p else s1.failMigration rec 4
  | _, _ => s

/-- The migration instant: the record's generation changes. -/
def execMigrationInstant (rec : Nat) (s : State) : Out :=
  .next <|
    if s.mstateAt rec != 3 || !((s.censusOf rec).any fun c => c.migrating) then s
    else ((s.setRec rec 0x48 4 (s.recField rec 0x48 4 + 1)).setMstate rec 0).leaveMigration rec

end Sys2Proof.Machine
end

