-- ==== Sys2Proof/Machine/Cross.lean ====
section
/-!
DEFINITION. Lane-crossing words: shuffles, votes, reductions, scans over lanes, conflicts and broadcasts within a bunch.
-/
namespace Sys2Proof.Machine

/-- The lowest lane of a lane's bunch, and the bunch's lanes (R89). -/
def Ctx.base (c : Ctx) (l : Nat) : Nat := l / c.bunch * c.bunch
def Ctx.bunchLanes (c : Ctx) (l : Nat) : List Nat := (List.range c.bunch).map fun k => c.base l + k
/-- The active lanes of a lane's bunch. -/
def Ctx.peers (c : Ctx) (l : Nat) : List Nat := (c.bunchLanes l).filter fun k => c.act.getLsbD k

/-- The lane that `SHFL` reads (R148). -/
def shuffleFrom (kind n base l : Nat) (b : Word) : Nat :=
  let i := l - base
  let k := b.toNat
  match kind with
  | 0 => base + k % n
  | 1 => if k ≤ i then l - k else l
  | 2 => if i + k < n then l + k else l
  | _ => base + Nat.xor i (k % n)

def Ctx.shuffleLane (c : Ctx) (b : BitVec 7) (l : Nat) : Nat := shuffleFrom (c.form % 4) c.bunch (c.base l) l (c.b32 b l)

/-- The poison among the values that lanes supply. -/
def Ctx.suppliedPoison (c : Ctx) (lanes : List Nat) (field n : Nat) : Option Poison :=
  lanes.findSome? fun l => (List.range n).findSome? fun k => c.poisonIn (field + k) l

def Ctx.alive (c : Ctx) (l : Nat) : Bool := (c.f.lane l).life == .live

/-- An operation of `RED` and `SCANL` on 64-bit register values (R150). -/
def redOp (rm : Word) (o t : Nat) (x y : DWord) : DWord :=
  let fl (f : Fmt) : DWord :=
    BitVec.ofNat 64 (match o with
      | 0 => f.roundSum rm [f.decode x.toNat, f.decode y.toNat]
      | 1 => f.minMax false x.toNat y.toNat
      | _ => f.minMax true x.toNat y.toNat)
  let w := if t = 3 ∨ t = 4 then 64 else 32
  let sg := t == 0 || t == 3
  let lt := decide (readInt w sg y.toNat < readInt w sg x.toNat)
  match t with
  | 2 => fl f32
  | 5 => fl f16
  | 6 => fl bf16
  | _ =>
    match o with
    | 0 => x + y
    | 1 => if lt then y else x
    | 2 => if lt then x else y
    | 3 => x &&& y
    | 4 => x ||| y
    | _ => x ^^^ y

/-- What an operation gives over no lanes (R62, R150). -/
def redIdentity (o t : Nat) : DWord :=
  let ends (lo : Bool) : DWord :=
    match t with
    | 0 => BitVec.ofInt 64 (if lo then intMin 32 true else intMax 32 true)
    | 1 => BitVec.ofInt 64 (if lo then intMin 32 false else intMax 32 false)
    | 3 => BitVec.ofInt 64 (if lo then intMin 64 true else intMax 64 true)
    | 4 => BitVec.ofInt 64 (if lo then intMin 64 false else intMax 64 false)
    | 2 => BitVec.ofNat 64 (f32.infinity lo)
    | 5 => BitVec.ofNat 64 (f16.infinity lo)
    | _ => BitVec.ofNat 64 (bf16.infinity lo)
  match o with
  | 0 => 0
  | 1 => ends false
  | 2 => ends true
  | 3 => BitVec.allOnes 64
  | _ => 0

def wideType (t : BitVec 3) : Bool := t == 3 || t == 4

/-- A lane's operand of a type: a pair, a register, or the low half of one (R96). -/
def Ctx.redRead (c : Ctx) (a : BitVec 7) (t : BitVec 3) (l : Nat) : DWord :=
  if wideType t then c.r64 a l
  else if t == 5 || t == 6 then ((c.r32 a l).extractLsb' 0 16).setWidth 64
  else (c.r32 a l).setWidth 64

def State.redWrite (s : State) (c : Ctx) (d : BitVec 7) (t : BitVec 3) (g : Nat → DWord) : State :=
  if wideType t then s.result64 c 6 d g else s.result c 6 d fun l => lo32 (g l)

/-- The exclusive or inclusive running value of `SCANL` at a lane, ascending within the bunch. -/
def Ctx.running (c : Ctx) (a : BitVec 7) (o t : BitVec 3) (before : List Nat) : Option DWord :=
  before.foldl (fun acc l => match acc with
    | none => some (c.redRead a t l)
    | some x => some (redOp c.f.rm o.toNat t.toNat x (c.redRead a t l))) none

def execShfl (y : Bool) (g : BitVec 3) (d a b : BitVec 7) (s : State) : Out :=
  issueWord (.shfl y g d a b) s fun c t =>
    let src (l : Nat) : Nat := c.shuffleLane b l
    let wide := decide (4 ≤ c.form)
    match c.suppliedPoison ((c.actLanes.map src).filter c.alive) a.toNat (if wide then 2 else 1) with
    | some p => .poison p
    | none =>
      .done (if wide then t.result64 c 6 d fun l => if c.alive (src l) then c.r64 a (src l) else 0
             else t.result c 6 d fun l => if c.alive (src l) then c.r32 a (src l) else 0)
def execVoteAll (y : Bool) (g p q : BitVec 3) (s : State) : Out :=
  issueWord (.voteAll y g p q) s fun c t => .done (t.resultPred c 6 p fun l => (c.peers l).all (c.pred q))
def execVoteAny (y : Bool) (g p q : BitVec 3) (s : State) : Out :=
  issueWord (.voteAny y g p q) s fun c t => .done (t.resultPred c 6 p fun l => (c.peers l).any (c.pred q))
def execVoteBallot (y : Bool) (g : BitVec 3) (d : BitVec 7) (q : BitVec 3) (s : State) : Out :=
  lane32 (.voteBallot y g d q) s 6 d fun c l => laneMask fun k => (c.peers l).contains k && c.pred q k
def execVoteUni (y : Bool) (g p : BitVec 3) (a : BitVec 7) (s : State) : Out :=
  issueWord (.voteUni y g p a) s fun c t => .done (t.resultPred c 6 p fun l => (c.peers l).all fun k => c.r32 a k == c.r32 a l)
/-- `RED` (R150): the tree of R62 over the bunch, written to every active lane. -/
def execRed (y : Bool) (g : BitVec 3) (d a : BitVec 7) (o t : BitVec 3) (s : State) : Out :=
  issueWord (.red y g d a o t) s fun c st => .done (st.redWrite c d t fun l =>
    (treeFold (redOp c.f.rm o.toNat t.toNat) 5
      ((c.bunchLanes l).map fun k => if c.act.getLsbD k then some (c.redRead a t k) else none)).getD
      (redIdentity o.toNat t.toNat))
def execScanl (y : Bool) (g : BitVec 3) (d a : BitVec 7) (o : BitVec 3) (x : Bool) (t : BitVec 3) (s : State) : Out :=
  issueWord (.scanl y g d a o x t) s fun c st => .done (st.redWrite c d t fun l =>
    (c.running a o t ((c.peers l).filter fun k => if x then decide (k < l) else decide (k ≤ l))).getD
      (redIdentity o.toNat t.toNat))
def execConf (y : Bool) (g : BitVec 3) (d a : BitVec 7) (s : State) : Out :=
  lane32 (.conf y g d a) s 6 d fun c l => laneMask fun k =>
    (c.peers l).contains k && decide (k < l)
      && (if c.form = 2 then c.r64 a k == c.r64 a l else c.r32 a k == c.r32 a l)
def execBcast (y : Bool) (g : BitVec 3) (d a : BitVec 7) (s : State) : Out :=
  laneForm (.bcast y g d a) s 6 d pairAt (fun c l => c.r32 a ((c.peers l).headD l)) (fun c l => c.r64 a ((c.peers l).headD l))

end Sys2Proof.Machine
end

