-- ==== Sys2Proof/Machine/Power.lean ====
section
/-!
DEFINITION. Power, integrity, repair and trust: voltage and frequency, gating, scrubbing, core failures, the repair record, module
reset, boot images and attestation (the manual's chapter of that name).
-/
namespace Sys2Proof.Machine

/-! ### Voltage and frequency (R414 to R418) -/

def dvfGate (v : Word) : Bool := v.getLsbD 31
def dvfMhz (v : Word) : Nat := (v.extractLsb' 12 12).toNat
def dvfMv (v : Word) : Nat := (v.extractLsb' 0 10).toNat
def Die.curMv (d : Die) : Nat := (d.dvs.extractLsb' 0 10).toNat
def Die.refusal (d : Die) : Nat := (d.dvs.extractLsb' 27 3).toNat

/-- DVS from its fields. -/
def dvsWord (state refuse mv : Nat) : Word := BitVec.ofNat 32 (state % 4 * 2 ^ 30 + refuse % 8 * 2 ^ 27 + mv % 2 ^ 10)
/-- DEDUCED (log 65). -/
def Die.setState (d : Die) (st : Nat) : Die := { d with dvs := dvsWord st d.refusal d.curMv }
def Die.refuse (d : Die) (cause : Nat) : Die := { d with dvs := dvsWord d.state cause d.curMv }

/-- The highest frequency of the lines of R415 at a supply, rounded down to a multiple of 25 MHz. -/
def lineMhz (mv : Nat) : Nat :=
  (if mv ≤ 675 then (600 * 255 + (mv - 420) * 1800) / 255 else (2400 * 105 + (mv - 675) * 500) / 105) / 25 * 25
/-- FLIM: the fused table, which never lies above the lines. DEDUCED (log 17). -/
def flimMhz (mv : Nat) : Nat := min (Config.flim mv) (lineMhz mv)

/-- The cause for which a point is refused, 0 for none. -/
def pointCause (v : Word) : Nat :=
  if dvfMv v < 420 ∨ 780 < dvfMv v ∨ dvfMv v % 10 ≠ 0 then 1
  else if dvfMhz v < 600 ∨ flimMhz (dvfMv v) < dvfMhz v ∨ dvfMhz v % 25 ≠ 0 then 2
  else 0

/-- DVF keeps its fields; reserved bits read zero. -/
def dvfKeep (v : Word) : Word := v &&& 0x80FFF3FF

/-- The supply has arrived and the clock runs at the set point (R416). -/
def Die.arrive (d : Die) : Die := { d with clock := dvfMhz d.dvf, dvs := dvsWord 0 d.refusal (dvfMv d.dvf) }

/-- A write of DVF with GATE = 0 to a die that is not gated (R415, R416); while a die gates or wakes every write is refused (R421). Of
several causes of R415 the first in its list is named. DEDUCED (log 65). -/
def execDvfSetPoint (die : Nat) (value : Word) (s : State) : Out :=
  .next <|
    let d := s.die die
    if Config.dies ≤ die ∨ dvfGate value ∨ d.state = 2 then s
    else
      let k := pointCause value
      if d.state = 3 then s.setDie die (d.refuse 3)
      else if k ≠ 0 then s.setDie die (d.refuse k)
      else if d.state ≠ 0 then s.setDie die (d.refuse 3)
      else
        let d1 := { d with dvf := dvfKeep value }
        if d.curMv = dvfMv value then s.setDie die d1.arrive
        else s.setDie die { d1.setState 1 with clock := min d.clock (dvfMhz value), rampAt := s.ticks + Config.ticksPerMicrosecond }

/-- The supply takes a step of at most 10 mV towards the set point. -/
def Die.ramp (d : Die) (tick : Nat) : Die :=
  let mv := dvfMv d.dvf
  let next := if d.curMv < mv then min mv (d.curMv + 10) else max mv (d.curMv - 10)
  if next = mv then d.arrive else { d with dvs := dvsWord 1 d.refusal next, rampAt := tick }

/-- The supply ramps at 10 mV per µs, and at the set point the change is done (R416). -/
def execPointChangeDone (die : Nat) (s : State) : Out :=
  .next (if (s.die die).state = 1 ∧ (s.die die).rampAt ≤ s.ticks then
    s.setDie die ((s.die die).ramp (s.ticks + Config.ticksPerMicrosecond)) else s)

/-- A sensor finds a limit exceeded: the die's clock falls by 25 MHz (R418). DESIGN CHOICE (log 64). -/
def execThermalThrottle (die : Nat) (s : State) : Out :=
  .next <|
    let d := s.die die
    if Config.dies ≤ die then s
    else s.setDie die { d with throttle := some (max 25 (min d.clock (d.throttle.getD d.clock) - 25)) }
def execThrottleRelease (die : Nat) (s : State) : Out :=
  .next (if Config.dies ≤ die then s else s.setDie die { s.die die with throttle := none })

/-! ### Gating (R419 to R421) -/

/-- Logical cores of a die. -/
def dieCores (d : Nat) : List Nat := (List.range Config.coresPerDie).map (d * Config.coresPerDie + ·)

/-- What forbids gating a die (R419). -/
def State.dieBusy (s : State) (d : Nat) : Bool :=
  s.unitList.any (fun u => u.2.stage == .resident && u.2.core.any fun c => dieOf c == d)
    || (dieCores d).any (fun c => (s.core c).saving.isSome)
    || s.entries.any (fun e => !e.saved && e.die == d)
    || s.jobs.cells.any (fun c => c.2.any fun j => j.homeDie == d && j.ended.isNone && !j.complete)
    || s.census.any (fun c => s.censusDie c.mrec == d && (c.migrating || c.sweeps != 0))

/-- A core's pools, operand memory, handles and caches are cleared. -/
def Core.wiped (k : Core) : Core :=
  { enabled := k.enabled, closed := k.closed, slotGen := k.slotGen, held := k.held, waiting := k.waiting }

/-- What a die's cores, its L2 and its controllers' directories hold is lost (R420, R421). -/
def State.wipeDie (s : State) (d : Nat) : State :=
  let t := (dieCores d).foldl (fun (acc : State) c => acc.updCore c Core.wiped) s
  t.setDie d { t.die d with l2 := [], directory := [] }

/-- A write of DVF with GATE = 1; to a die that is gated already it changes only the point at which the die will wake. -/
def execDvfGate (die : Nat) (value : Word) (s : State) : Out :=
  .next <|
    let d := s.die die
    if Config.dies ≤ die ∨ !dvfGate value then s
    else
      let k := pointCause value
      let others := (List.range Config.dies).filter fun n => n != die && (s.die n).state != 2
      if d.state = 3 then s.setDie die (d.refuse 3)
      else if k ≠ 0 then s.setDie die (d.refuse k)
      else if d.state = 2 then s.setDie die { d with dvf := dvfKeep value }
      else if d.state ≠ 0 || s.dieBusy die then s.setDie die (d.refuse 3)
      else if others.isEmpty then s.setDie die (d.refuse 4)
      else s.setDie die ({ d with dvf := dvfKeep value }.setState 3)

/-- The die is gated; what its cores, its TLBs and its miss table held is lost. -/
def execGatingDone (die : Nat) (s : State) : Out :=
  .next <|
    let d := s.die die
    if d.state = 3 ∧ dvfGate d.dvf then
      let t := s.wipeDie die
      { t.setDie die ((t.die die).setState 2) with
        tlbs := (s.tlbs.filter fun t => t.die != die), misses := (s.misses.filter fun m => m.die != die) }
    else s

def execDvfWake (die : Nat) (value : Word) (s : State) : Out :=
  .next <|
    let d := s.die die
    if Config.dies ≤ die ∨ dvfGate value then s
    else if d.state = 3 then s.setDie die (d.refuse 3)
    else if d.state ≠ 2 then s
    else
      let k := pointCause value
      if k ≠ 0 then s.setDie die (d.refuse k) else s.setDie die ({ d with dvf := dvfKeep value }.setState 3)

/-- The die runs again, its pools and operand memory zero, its handles free. -/
def execWakeDone (die : Nat) (s : State) : Out :=
  .next <|
    let d := s.die die
    if d.state = 3 ∧ !dvfGate d.dvf then (let t := s.wipeDie die; t.setDie die (t.die die).arrive) else s

/-! ### Errors (R423 to R427) -/

/-- An uncorrected error of a word of a unit's window, of a thread register, of an accumulator pair, of a slot's word, or of a carry in the
chain table, as the number of the line names it (R177, R280, R423). DESIGN CHOICE (log 58). -/
def State.upset (s : State) (line : Nat) : Nat → State
  | 19 => s.updUnit (line / 2 ^ 20) fun u => { u with winPoison := u.winPoison.set (line % 2 ^ 20) true }
  | 20 => s.updSheaf (line / 2 ^ 12) fun f =>
      { f with vPoison := f.vPoison.set (line % 2 ^ 12) (some { kind := .lost, cause := 7 }) }
  | 21 => s.updCore (line / 2 ^ 17) fun k =>
      let a := line % 2 ^ 17 / 2 * 2
      { k with tilePoison := (k.tilePoison.set a true).set (a + 1) true }
  | 22 => s.updCore (line / 2 ^ 13) fun k =>
      { k with slots := k.slots.modify (line / 2 ^ 8 % 2 ^ 5) fun x => { x with poison := x.poison.set (line % 2 ^ 8) true } }
  | 23 => s.updLaunch (line / 2 ^ 18) fun l => { l with members := l.members.modify (line / 4 % 2 ^ 16) fun m =>
      { m with buffer := m.buffer.modify (line % 4) fun c => { c with words := c.words.map fun _ => none } } }
  | _ => s

/-- The scrub period that is under way (R425). -/
def State.scrubNow (s : State) : Nat := s.nanos / (s.regs.scrub * 3600 * 10 ^ 9)

/-- The reserved bits [23:1] of a row entry read zero (R4, R428). -/
def rowEntry (row : DWord) : DWord := row &&& 0xFFFFFFFFFF000001

/-- The row of a line. -/
def lineRow (line : Nat) : DWord := Config.hbmRow line &&& 0xFFFFFFFFFF000000

/-- Baruri asks Dzisidin to move every page mapped on a row's frames (R427). -/
def State.askMove (s : State) (row : DWord) : State := if s.moveAsked.contains row then s else { s with moveAsked := s.moveAsked ++ [row] }

/-- A corrected error of a line is counted for its row, from 0 in each scrub period; a row that exceeds the threshold is to be retired
(R423, R427). -/
def State.rowError (s : State) (line : Nat) : State :=
  let counts := if s.scrubPeriod = s.scrubNow then s.rowErrors else {}
  let row := lineRow line
  let t : State := { s with rowErrors := counts.modify row.toNat (· + 1), scrubPeriod := s.scrubNow }
  if s.regs.rowThreshold < t.rowErrors.get row.toNat then t.askMove row else t

/-- The scrubber reads a line of HBM: `kind` 0 finds nothing, 1 corrects an error, 2 + w finds that word w cannot be corrected; 18 that
the line's bytes no longer have the check value it holds (R422). From 19 on, an upset that is found elsewhere: 24 and 25 an error that
the ECC of the bank or the L2 set of that number corrects, which is counted (R423). DESIGN CHOICE (log 58). -/
def execScrubPass (line kind : Nat) (s : State) : Out :=
  .next <|
    if kind = 24 then { s with bankErrors := s.bankErrors.modify line (· + 1) }
    else if kind = 25 then { s with setErrors := s.setErrors.modify line (· + 1) }
    else if 19 ≤ kind then s.upset line kind
    else if Config.hbmBytes ≤ 128 * line then s
    else if kind = 1 then s.rowError line
    else if kind = 18 then (if s.checkOk line then { s with checks := s.checks.set line (some (s.lineCheck line ^^^ 1)) } else s)
    else if 2 ≤ kind then (s.setPoison (memKey 0 (128 * line + 8 * (kind - 2))) true).askMove (lineRow line)
    else s

/-- A row entry of the repair record: without its applied bit. -/
def rowOf (row : DWord) : DWord := row &&& ~~~(1#64)

/-- A row is recorded, not applied yet; SEQ rises with the rewrite (R427, R428). -/
def Repair.record (r : Repair) (row : DWord) : Repair :=
  if r.rows.any fun x => rowOf x == rowOf row then r else { r with seq := r.seq + 1, rows := r.rows ++ [rowOf row] }

/-- Baruri retires the frames of a row whose pages it has asked Dzisidin to move, and records it (R427); it is the driver that moves the pages,
by new page table entries. -/
def execHbmRowRetire (row : DWord) (s : State) : Out :=
  .next (if !s.moveAsked.contains row then s else { s with
    moveAsked := s.moveAsked.erase row
    retiredRows := if s.retiredRows.contains row then s.retiredRows else s.retiredRows ++ [row]
    repair := s.repair.record row })

/-- A failed core of the record, by its die and its index among those built (R426, R428). -/
def Repair.failCore (r : Repair) (die built : Nat) : Repair :=
  let mask := r.fails.getD die 0
  if mask.testBit built then r else { r with seq := r.seq + 1, fails := r.fails.set die (mask + 2 ^ built) }

/-- A core fails: it is marked in the repair record, the dispatcher uses it no more, and saves of its contexts begin or are held (R426). -/
def execCoreFailure (core : Nat) (s : State) : Out :=
  .next <|
    if Config.coresPerDie * Config.dies ≤ core then s
    else
      let ctxs := ((s.residents core).map fun u => u.2.ctx).eraseDups
      ctxs.foldl (fun (acc : State) c =>
        if (acc.core core).saving.isSome then acc.holdRequest core c false 0 else acc.beginSave core c)
        ({ s with
            coreMask := s.coreMask &&& ~~~BitVec.twoPow 192 core
            repair := match s.built.getD core none with
              | some b => s.repair.failCore (dieOf core) b
              | none => s.repair }.updCore core fun k => { k with enabled := false, closed := true })

/-! ### Repair record (R428) -/

/-- The bytes of the record: COUNT, SEQ, the masks of failed cores, the row entries (R428). -/
def Repair.bytes (r : Repair) : List Byte :=
  toBytes 4 r.rows.length ++ toBytes 4 0 ++ toBytes 8 r.seq ++ (List.range Config.dies).flatMap (fun d => toBytes 8 (r.fails.getD d 0))
    ++ r.rows.flatMap fun row => toBytes 8 row.toNat

/-- What the record measures and is signed over. -/
def Repair.digest (r : Repair) : Nat := Config.digest (r.bytes.map BitVec.toNat)

/-- A record's reserved bits read zero (R4, R428). -/
def Repair.trimmed (r : Repair) : Repair := { r with fails := r.fails.map fun f => f % 2 ^ 52, rows := r.rows.map rowEntry }

/-- A record is written; one that fails either signature, or whose SEQ is not higher, is ignored. -/
def execRepairRecordWrite (fails : List Nat) (rows : List DWord) (seq edSig mlSig : Nat) (s : State) : Out :=
  .next <|
    let r : Repair := { seq := seq, fails := fails, rows := rows }
    if fails.length = 4 && decide (s.repair.seq < seq)
        && Config.edVerify (Config.identityKey 0) r.digest edSig && Config.mlVerify (Config.identityKey 1) r.digest mlSig
    then { s with repair := r.trimmed } else s

/-- Built cores of a die that work, at most 48 of them (R426, R428). -/
def Repair.enabledCores (r : Repair) (d : Nat) : Nat :=
  min Config.coresPerDie ((List.range Config.coresBuilt).filter fun k => !(r.fails.getD d 0).testBit k).length

/-- The built core of a die that its logical core k is: the working ones are numbered in ascending physical order (R12). -/
def Repair.builtOf (r : Repair) (d k : Nat) : Option Nat :=
  ((List.range Config.coresBuilt).filter fun b => !(r.fails.getD d 0).testBit b)[k]?

/-- The built cores of all logical ones, in the order of their numbers; none for a number that is absent. -/
def Repair.built (r : Repair) : List (Option Nat) :=
  (List.range Config.dies).flatMap fun d => (List.range Config.coresPerDie).map fun k => r.builtOf d k

/-- The numbers of the logical cores that are absent after a reset. -/
def Repair.absent (r : Repair) : List Nat :=
  (List.range Config.dies).flatMap fun d => (List.range Config.coresPerDie).filterMap fun k =>
    if r.enabledCores d ≤ k then some (d * Config.coresPerDie + k) else none

/-- The cores that are absent after a reset. -/
def Repair.cores (r : Repair) : Store Core :=
  r.absent.foldl (fun (acc : Store Core) c => acc.set c { enabled := false }) {}

/-- The mask of enabled cores that Baruri reports (R12). -/
def Repair.coreMask (r : Repair) : BitVec 192 := r.absent.foldl (fun m c => m &&& ~~~BitVec.twoPow 192 c) (BitVec.allOnes 192)

/-- The bank of a row: its stack, channel and bank. -/
def bankOf (row : DWord) : Nat := row.toNat / 2 ^ 48

/-- Rows that a reset repairs, in the record's order, while their bank has a spare row left (R427). DESIGN CHOICE (log 58). -/
def Repair.applied (r : Repair) : List DWord :=
  r.rows.foldl (fun (acc : List DWord) row =>
    if row.getLsbD 0 || decide ((acc.filter fun x => bankOf x == bankOf row).length < Config.spareRows (bankOf row))
    then acc ++ [row ||| 1] else acc) []

/-- The record as a reset leaves it: the rows that it has repaired are marked applied, a rewrite that raises SEQ (R427, R428). -/
def Repair.afterReset (r : Repair) : Repair :=
  let rows := r.rows.map fun x => if r.applied.contains (x ||| 1) then x ||| 1 else x
  if rows = r.rows then r else { r with seq := r.seq + 1, rows := rows }

/-- Module reset: everything starts again, but for what flash and fuses hold, memory outside the module, and what the outside
world is about to do. What HBM and its poison hold after the reset of a module that has run no rule says: it reads as memory that nothing
has written. DESIGN CHOICE (log 77). -/
def execModuleReset (s : State) : Out :=
  .next { State.reset with
    mem := (s.mem.filter fun c => decide (2 ^ 60 ≤ c.1))
    memPoison := ⟨s.memPoison.cells.filter fun c => decide (2 ^ 60 / 8 ≤ c.1)⟩
    checks := ⟨s.checks.cells.filter fun c => decide (2 ^ 60 / 128 ≤ c.1)⟩
    cores := s.repair.cores
    built := s.repair.built
    coreMask := s.repair.coreMask
    repair := s.repair.afterReset
    moveAsked := s.moveAsked
    retiredRows := (s.retiredRows.filter fun r => !s.repair.applied.contains (r ||| 1))
    trust := { s.trust with image := none, triedBanks := [], recovery := false }
    agenda := s.agenda
    free := s.free }

/-! ### Boot (R429) -/

/-- The checks that an image passes: a signature of each algorithm over its manifest under an unrevoked key, the digest of the image that the
manifest holds, and its version. DEDUCED (log 18). -/
def Trust.accepts (t : Trust) (i : FwImage) : Bool :=
  (List.range 4).any (fun k => !t.revokedEd.getLsbD k && Config.edVerify (Config.fusedKey 0 k) i.manifest i.edSig)
    && (List.range 4).any (fun k => !t.revokedMl.getLsbD k && Config.mlVerify (Config.fusedKey 1 k) i.manifest i.mlSig)
    && Config.manifestDigest i.manifest == Config.sha384 i.image
    && decide (t.counter ≤ i.version)

/-- An accepted image runs, and a higher version burns the counter forward. -/
def Trust.run (t : Trust) (i : FwImage) : Trust :=
  { t with image := some i, counter := max t.counter i.version, recovery := false, triedBanks := [] }

/-- Gigabytes of the HDM window, within its range (R377). -/
def bootHdmsz : Nat := min 512 Config.hdmsz

/-- Baruri's image takes over; it fixes HDMSZ. DEDUCED (log 20). -/
def State.boot (s : State) (i : FwImage) : State :=
  { s with trust := s.trust.run i, regs := { s.regs with hdmsz := bootHdmsz } }

/-- The boot ROM tries a flash bank; when neither passes, the module stays in recovery. DESIGN CHOICE (log 9). -/
def execBootImageLoad (bank : Nat) (s : State) : Out :=
  .next <|
    let t := s.trust
    if 2 ≤ bank ∨ t.image.isSome then s
    else
      let failed : Trust :=
        let tried := if t.triedBanks.contains bank then t.triedBanks else t.triedBanks ++ [bank]
        { t with triedBanks := tried, recovery := decide (tried.length = 2) }
      match (if bank = 0 then t.bank0 else t.bank1) with
      | some i => if t.accepts i then s.boot i else { s with trust := failed }
      | none => { s with trust := failed }

/-- In recovery an image comes through CXL.io DOE, under the same checks. -/
def execRecoveryImageDoe (manifest edSig mlSig : Nat) (body : ImageBody) (s : State) : Out :=
  .next <|
    let i : FwImage := { manifest := manifest, edSig := edSig, mlSig := mlSig, version := body.version, image := body.image }
    if s.trust.recovery && s.trust.accepts i then s.boot i else s

/-! ### Attestation (R431) -/

/-- Identifiers of what the N7 offers: SHA-384, Ed25519, secp384r1, AES-256-GCM. -/
def spdmOffer : List Nat := [384, 25519, 384, 256]

/-- An answer is given, and the exchange goes on at a stage. PRESUMED (log 56). -/
def State.answer (s : State) (stage : SpdmStage) (req ans : List Nat) : State :=
  { s with spdm := { s.spdm with stage := stage, transcript := s.spdm.transcript ++ req ++ ans, answer := ans } }

/-- Algorithms have been agreed. -/
def SpdmStage.agreed : SpdmStage → Bool
  | .negotiated => true
  | .keyed => true
  | .session => true
  | _ => false

/-- The identity signatures of a message, by both algorithms (R430). -/
def signBoth (msg : Nat) : List Nat := [Config.edSign msg, Config.mlSign msg]
/-- DEDUCED (log 18). -/
def State.signed (s : State) (parts : List Nat) : List Nat := parts ++ signBoth (Config.digest (s.spdm.transcript ++ parts))

/-- The measurement blocks; the registers of block 5 are measured as a reset leaves them. -/
def State.measure (s : State) (index : Nat) : Nat :=
  let r : PkgRegs := {}
  match index with
  | 2 => ((s.trust.image).map fun i => Config.sha384 i.image).getD 0
  | 3 => Config.digest [s.trust.counter, s.trust.revokedEd.toNat, s.trust.revokedMl.toNat]
  | 4 => s.repair.digest
  | 5 => Config.digest [Config.measurement 5, bootHdmsz, r.scrub, r.age, r.drain, r.wdog]
  | n => Config.measurement n

/-- The identity keys, each with Swezal's certifications under both algorithms (R430). -/
def identityChain : List Nat := [0, 1].flatMap fun k => [Config.identityKey k, Config.certificate k 0, Config.certificate k 1]

def execGetVersion (s : State) : Out :=
  .next ({ s with spdm := {} }.answer .version [0x84] [0x13])
def execGetCapabilities (s : State) : Out :=
  .next (if s.spdm.stage == .version then s.answer .capabilities [0xE1] [0x61] else s)
def execNegotiateAlgorithms (hash sig dhe aead : Nat) (s : State) : Out :=
  .next (if s.spdm.stage == .capabilities && [hash, sig, dhe, aead] == spdmOffer then s.answer .negotiated spdmOffer spdmOffer else s)
def execGetDigests (s : State) : Out :=
  .next (if s.spdm.stage.agreed then s.answer s.spdm.stage [0x81] [Config.digest identityChain] else s)
def execGetCertificate (slot : Nat) (s : State) : Out :=
  .next (if s.spdm.stage.agreed && slot == 0 then s.answer s.spdm.stage [0x82, slot] identityChain else s)
def execChallenge (nonce : Nat) (s : State) : Out :=
  .next (if s.spdm.stage.agreed then
    s.answer s.spdm.stage [0x83, nonce] (s.signed (nonce :: ([1, 2, 3, 4, 5].map s.measure))) else s)
/-- What the request for a measurement asks for: block 1 to 5, for 0 how many there are, for 0xFF all of them (R431). PRESUMED (log 56). -/
def State.measured (s : State) (index : Nat) : Option (List Nat) :=
  if index = 0 then some [5]
  else if index = 0xFF then some ([1, 2, 3, 4, 5].map s.measure)
  else if index ≤ 5 then some [s.measure index]
  else none
def execGetMeasurements (index nonce : Nat) (s : State) : Out :=
  .next <| match s.measured index with
  | some l => if s.spdm.stage.agreed then s.answer s.spdm.stage [0xE0, index, nonce] (s.signed (nonce :: index :: l)) else s
  | none => s
/-- The answer gives the module's own public value; each exchange has one of its own. -/
def execKeyExchange (pub : Nat) (s : State) : Out :=
  .next (if s.spdm.stage == .negotiated then
    let t := s.answer .keyed [0xE4, pub] (s.signed [pub, Config.dheValue s.free])
    { t with spdm := { t.spdm with secret := Config.sessionSecret s.free pub }, free := t.free + 1 } else s)
/-- The requester proves that it holds the secret; the session carries the IDE keys of the three protocols (R377). -/
def execFinish (verify : Nat) (s : State) : Out :=
  .next (if s.spdm.stage == .keyed && verify == Config.digest (s.spdm.secret :: s.spdm.transcript) then
    { s.answer .session [0xE5, verify] [] with ideKeys := (List.range 3).map (Config.ideKey s.spdm.secret) } else s)
def execEndSession (s : State) : Out :=
  .next (if s.spdm.stage == .session then
    let t := s.answer .negotiated [0xEC] []
    { t with spdm := { t.spdm with secret := 0 } } else s)

end Sys2Proof.Machine
end

