-- ==== Sys2Proof/Machine/Dispatch.lean ====
section
/-!
DEFINITION. One arm for each row of the operation table: its meaning.
-/
namespace Sys2Proof.Machine

/-- What a step of the machine does. -/
def exec (i : Instr) (s : State) : Host.Outcome State Fault Refusal :=
  match i with
  | .sched w p q r s1 => Sys2Proof.Machine.execSched w p q r s1 s
  | .limm k1 => Sys2Proof.Machine.execLimm k1 s
  | .xmod f c v o p m => Sys2Proof.Machine.execXmod f c v o p m s
  | .eret g => Sys2Proof.Machine.execEret g s
  | .exit g => Sys2Proof.Machine.execExit g s
  | .rdx y g d a => Sys2Proof.Machine.execRdx y g d a s
  | .wrx y g a b => Sys2Proof.Machine.execWrx y g a b s
  | .movsRd y g d a => Sys2Proof.Machine.execMovsRd y g d a s
  | .movsWr y g d a => Sys2Proof.Machine.execMovsWr y g d a s
  | .rdclkCyc y g d => Sys2Proof.Machine.execRdclkCyc y g d s
  | .rdclkNs y g d => Sys2Proof.Machine.execRdclkNs y g d s
  | .iadd y g d a b => Sys2Proof.Machine.execIadd y g d a b s
  | .isub y g d a b => Sys2Proof.Machine.execIsub y g d a b s
  | .iaddi y g d a k1 => Sys2Proof.Machine.execIaddi y g d a k1 s
  | .imul y g d a b => Sys2Proof.Machine.execImul y g d a b s
  | .imulh y g d a b => Sys2Proof.Machine.execImulh y g d a b s
  | .imad y g d a b => Sys2Proof.Machine.execImad y g d a b s
  | .imin y g d a b => Sys2Proof.Machine.execImin y g d a b s
  | .imax y g d a b => Sys2Proof.Machine.execImax y g d a b s
  | .and y g d a b => Sys2Proof.Machine.execAnd y g d a b s
  | .or y g d a b => Sys2Proof.Machine.execOr y g d a b s
  | .xor y g d a b => Sys2Proof.Machine.execXor y g d a b s
  | .andn y g d a b => Sys2Proof.Machine.execAndn y g d a b s
  | .shl y g d a b => Sys2Proof.Machine.execShl y g d a b s
  | .shr y g d a b => Sys2Proof.Machine.execShr y g d a b s
  | .sar y g d a b => Sys2Proof.Machine.execSar y g d a b s
  | .shi y g d a k c => Sys2Proof.Machine.execShi y g d a k c s
  | .bfe y g d a b => Sys2Proof.Machine.execBfe y g d a b s
  | .bfi y g d a b => Sys2Proof.Machine.execBfi y g d a b s
  | .popc y g d a => Sys2Proof.Machine.execPopc y g d a s
  | .clz y g d a => Sys2Proof.Machine.execClz y g d a s
  | .ctz y g d a => Sys2Proof.Machine.execCtz y g d a s
  | .brev y g d a => Sys2Proof.Machine.execBrev y g d a s
  | .bswap y g d a => Sys2Proof.Machine.execBswap y g d a s
  | .mov y g d b => Sys2Proof.Machine.execMov y g d b s
  | .lea y g d a b => Sys2Proof.Machine.execLea y g d a b s
  | .idot4 y g d a b => Sys2Proof.Machine.execIdot4 y g d a b s
  | .imadw y g d a b => Sys2Proof.Machine.execImadw y g d a b s
  | .fadd y g d a b => Sys2Proof.Machine.execFadd y g d a b s
  | .fsub y g d a b => Sys2Proof.Machine.execFsub y g d a b s
  | .fmul y g d a b => Sys2Proof.Machine.execFmul y g d a b s
  | .ffma y g d a b => Sys2Proof.Machine.execFfma y g d a b s
  | .fmin y g d a b => Sys2Proof.Machine.execFmin y g d a b s
  | .fmax y g d a b => Sys2Proof.Machine.execFmax y g d a b s
  | .fabs y g d a => Sys2Proof.Machine.execFabs y g d a s
  | .fneg y g d a => Sys2Proof.Machine.execFneg y g d a s
  | .fnabs y g d a => Sys2Proof.Machine.execFnabs y g d a s
  | .fcls y g d a => Sys2Proof.Machine.execFcls y g d a s
  | .fdot2 y g d a b => Sys2Proof.Machine.execFdot2 y g d a b s
  | .frnd y g d a r => Sys2Proof.Machine.execFrnd y g d a r s
  | .fscl y g d a b => Sys2Proof.Machine.execFscl y g d a b s
  | .rcp y g d a => Sys2Proof.Machine.execRcp y g d a s
  | .rsq y g d a => Sys2Proof.Machine.execRsq y g d a s
  | .sqrt y g d a => Sys2Proof.Machine.execSqrt y g d a s
  | .ex2 y g d a => Sys2Proof.Machine.execEx2 y g d a s
  | .lg2 y g d a => Sys2Proof.Machine.execLg2 y g d a s
  | .sin y g d a => Sys2Proof.Machine.execSin y g d a s
  | .cos y g d a => Sys2Proof.Machine.execCos y g d a s
  | .tanh y g d a => Sys2Proof.Machine.execTanh y g d a s
  | .cvti y g d a s1 t => Sys2Proof.Machine.execCvti y g d a s1 t s
  | .cvtf y g d a s1 t => Sys2Proof.Machine.execCvtf y g d a s1 t s
  | .cvtb y g d a s1 t => Sys2Proof.Machine.execCvtb y g d a s1 t s
  | .cvts y g d a b => Sys2Proof.Machine.execCvts y g d a b s
  | .qblk y g d a k t => Sys2Proof.Machine.execQblk y g d a k t s
  | .pack y g d a b => Sys2Proof.Machine.execPack y g d a b s
  | .unpk y g d a w k => Sys2Proof.Machine.execUnpk y g d a w k s
  | .icmp y g c p a b => Sys2Proof.Machine.execIcmp y g c p a b s
  | .fcmp y g c p a b => Sys2Proof.Machine.execFcmp y g c p a b s
  | .sel y g d a b => Sys2Proof.Machine.execSel y g d a b s
  | .plop y g p q r t => Sys2Proof.Machine.execPlop y g p q r t s
  | .pmovP y g p a => Sys2Proof.Machine.execPmovP y g p a s
  | .pmovV y g d p => Sys2Proof.Machine.execPmovV y g d p s
  | .pmovM y g d => Sys2Proof.Machine.execPmovM y g d s
  | .pmovS y g a => Sys2Proof.Machine.execPmovS y g a s
  | .icmpi y g c p a k1 => Sys2Proof.Machine.execIcmpi y g c p a k1 s
  | .shfl y g d a b => Sys2Proof.Machine.execShfl y g d a b s
  | .voteAll y g p q => Sys2Proof.Machine.execVoteAll y g p q s
  | .voteAny y g p q => Sys2Proof.Machine.execVoteAny y g p q s
  | .voteBallot y g d q => Sys2Proof.Machine.execVoteBallot y g d q s
  | .voteUni y g p a => Sys2Proof.Machine.execVoteUni y g p a s
  | .red y g d a o t => Sys2Proof.Machine.execRed y g d a o t s
  | .scanl y g d a o x t => Sys2Proof.Machine.execScanl y g d a o x t s
  | .conf y g d a => Sys2Proof.Machine.execConf y g d a s
  | .bcast y g d a => Sys2Proof.Machine.execBcast y g d a s
  | .bra y g k1 => Sys2Proof.Machine.execBra y g k1 s
  | .call y g d k1 => Sys2Proof.Machine.execCall y g d k1 s
  | .ret y g a => Sys2Proof.Machine.execRet y g a s
  | .join y g => Sys2Proof.Machine.execJoin y g s
  | .joinM y g a => Sys2Proof.Machine.execJoinM y g a s
  | .loop y n a k1 => Sys2Proof.Machine.execLoop y n a k1 s
  | .endl y n k1 => Sys2Proof.Machine.execEndl y n k1 s
  | .lwait y g f => Sys2Proof.Machine.execLwait y g f s
  | .brx y g a b => Sys2Proof.Machine.execBrx y g a b s
  | .ld y g d a f m => Sys2Proof.Machine.execLd y g d a f m s
  | .st y g d a m => Sys2Proof.Machine.execSt y g d a m s
  | .ldv y g d a f m => Sys2Proof.Machine.execLdv y g d a f m s
  | .stv y g d a m => Sys2Proof.Machine.execStv y g d a m s
  | .stq y g d a f m => Sys2Proof.Machine.execStq y g d a f m s
  | .prf y g a m => Sys2Proof.Machine.execPrf y g a m s
  | .lds y g d a f m => Sys2Proof.Machine.execLds y g d a f m s
  | .qrd y g d n f => Sys2Proof.Machine.execQrd y g d n f s
  | .qwr y g d n f => Sys2Proof.Machine.execQwr y g d n f s
  | .atom y g d a f m => Sys2Proof.Machine.execAtom y g d a f m s
  | .cas y g d a f m => Sys2Proof.Machine.execCas y g d a f m s
  | .atomf y g d a f m => Sys2Proof.Machine.execAtomf y g d a f m s
  | .atst y g d a f m => Sys2Proof.Machine.execAtst y g d a f m s
  | .mclaim y g d n c => Sys2Proof.Machine.execMclaim y g d n c s
  | .mrel y g n c => Sys2Proof.Machine.execMrel y g n c s
  | .mbind y g h a n => Sys2Proof.Machine.execMbind y g h a n s
  | .mma y g d n b => Sys2Proof.Machine.execMma y g d n b s
  | .mmas y g d n b => Sys2Proof.Machine.execMmas y g d n b s
  | .mmab y g d n b => Sys2Proof.Machine.execMmab y g d n b s
  | .amovRd y g d a f => Sys2Proof.Machine.execAmovRd y g d a f s
  | .amovWr y g d a => Sys2Proof.Machine.execAmovWr y g d a s
  | .azero y g d a => Sys2Proof.Machine.execAzero y g d a s
  | .acvt y g d a c t => Sys2Proof.Machine.execAcvt y g d a c t s
  | .qmv y g d a => Sys2Proof.Machine.execQmv y g d a s
  | .rjoin y g a => Sys2Proof.Machine.execRjoin y g a s
  | .copy y g h a q m r => Sys2Proof.Machine.execCopy y g h a q m r s
  | .gather y g h a => Sys2Proof.Machine.execGather y g h a s
  | .sbind y g n a => Sys2Proof.Machine.execSbind y g n a s
  | .stream y g a => Sys2Proof.Machine.execStream y g a s
  | .streamPost y g h => Sys2Proof.Machine.execStreamPost y g h s
  | .hwaitFree y g h => Sys2Proof.Machine.execHwaitFree y g h s
  | .hwaitFull y g h => Sys2Proof.Machine.execHwaitFull y g h s
  | .hrel y g h => Sys2Proof.Machine.execHrel y g h s
  | .hstat y g d h => Sys2Proof.Machine.execHstat y g d h s
  | .scfg y g s1 w => Sys2Proof.Machine.execScfg y g s1 w s
  | .scan y g a => Sys2Proof.Machine.execScan y g a s
  | .csend y g a => Sys2Proof.Machine.execCsend y g a s
  | .crecv y g a => Sys2Proof.Machine.execCrecv y g a s
  | .cbar y g d => Sys2Proof.Machine.execCbar y g d s
  | .grow y g d a => Sys2Proof.Machine.execGrow y g d a s
  | .spawn y g d a => Sys2Proof.Machine.execSpawn y g d a s
  | .qpush y g d a s1 => Sys2Proof.Machine.execQpush y g d a s1 s
  | .qpop y g d a s1 => Sys2Proof.Machine.execQpop y g d a s1 s
  | .cwait y g l => Sys2Proof.Machine.execCwait y g l s
  | .cancel y g l => Sys2Proof.Machine.execCancel y g l s
  | .incup y g d a p n => Sys2Proof.Machine.execIncup y g d a p n s
  | .incrd y g d p n => Sys2Proof.Machine.execIncrd y g d p n s
  | .bndset y g a => Sys2Proof.Machine.execBndset y g a s
  | .bndcfg y g a => Sys2Proof.Machine.execBndcfg y g a s
  | .fence y g s1 m k => Sys2Proof.Machine.execFence y g s1 m k s
  | .bar y s1 => Sys2Proof.Machine.execBar y s1 s
  | .qfence y g m k => Sys2Proof.Machine.execQfence y g m k s
  | .moduleReset => Sys2Proof.Machine.execModuleReset s
  | .bootImageLoad bank => Sys2Proof.Machine.execBootImageLoad bank s
  | .recoveryImageDoe manifest edSig mlSig body => Sys2Proof.Machine.execRecoveryImageDoe manifest edSig mlSig body s
  | .quadrantCycle core quad => Sys2Proof.Machine.execQuadrantCycle core quad s
  | .trapEntry sheaf => Sys2Proof.Machine.execTrapEntry sheaf s
  | .yParkEnd sheaf => Sys2Proof.Machine.execYParkEnd sheaf s
  | .loadReply sheaf id => Sys2Proof.Machine.execLoadReply sheaf id s
  | .storeTranslated sheaf id => Sys2Proof.Machine.execStoreTranslated sheaf id s
  | .tlbWalk die ctx page => Sys2Proof.Machine.execTlbWalk die ctx page s
  | .tlbInvalidation ctx first last => Sys2Proof.Machine.execTlbInvalidation ctx first last s
  | .faultService sheaf ok => Sys2Proof.Machine.execFaultService sheaf ok s
  | .driverAnswer sheaf mapped hwm tables => Sys2Proof.Machine.execDriverAnswer sheaf mapped hwm tables s
  | .replayLimit sheaf => Sys2Proof.Machine.execReplayLimit sheaf s
  | .streamElementFetch sheaf q => Sys2Proof.Machine.execStreamElementFetch sheaf q s
  | .copyStart id => Sys2Proof.Machine.execCopyStart id s
  | .copyComplete id => Sys2Proof.Machine.execCopyComplete id s
  | .copySlowPath id serviced tables => Sys2Proof.Machine.execCopySlowPath id serviced tables s
  | .ringChunkStart id => Sys2Proof.Machine.execRingChunkStart id s
  | .qfencePass id => Sys2Proof.Machine.execQfencePass id s
  | .mbindStart id => Sys2Proof.Machine.execMbindStart id s
  | .mrelStart id => Sys2Proof.Machine.execMrelStart id s
  | .millOpStart id => Sys2Proof.Machine.execMillOpStart id s
  | .millOpRetire id => Sys2Proof.Machine.execMillOpRetire id s
  | .qmvStart id => Sys2Proof.Machine.execQmvStart id s
  | .quernRow id row => Sys2Proof.Machine.execQuernRow id row s
  | .rjoinStart id => Sys2Proof.Machine.execRjoinStart id s
  | .fallowSweepEnd rec => Sys2Proof.Machine.execFallowSweepEnd rec s
  | .censusRanking rec smap mlist => Sys2Proof.Machine.execCensusRanking rec smap mlist s
  | .migrationCommand rec ctx => Sys2Proof.Machine.execMigrationCommand rec ctx s
  | .migrationCopy rec => Sys2Proof.Machine.execMigrationCopy rec s
  | .migrationInstant rec => Sys2Proof.Machine.execMigrationInstant rec s
  | .scanStart id => Sys2Proof.Machine.execScanStart id s
  | .scanPerformed id => Sys2Proof.Machine.execScanPerformed id s
  | .csendStart id => Sys2Proof.Machine.execCsendStart id s
  | .carryPlaced carry => Sys2Proof.Machine.execCarryPlaced carry s
  | .crecvTake id => Sys2Proof.Machine.execCrecvTake id s
  | .roundComplete round => Sys2Proof.Machine.execRoundComplete round s
  | .spawnArrival id => Sys2Proof.Machine.execSpawnArrival id s
  | .unitAdmission core => Sys2Proof.Machine.execUnitAdmission core s
  | .unitComplete unit => Sys2Proof.Machine.execUnitComplete unit s
  | .nodeComplete node => Sys2Proof.Machine.execNodeComplete node s
  | .remoteEnqueueReceive job dev krec args body => Sys2Proof.Machine.execRemoteEnqueueReceive job dev krec args body s
  | .remoteEnqueueAck id entered => Sys2Proof.Machine.execRemoteEnqueueAck id entered s
  | .jobCompletionSweep job parts => Sys2Proof.Machine.execJobCompletionSweep job parts s
  | .jobEnd job cause => Sys2Proof.Machine.execJobEnd job cause s
  | .queueWordAtHome id => Sys2Proof.Machine.execQueueWordAtHome id s
  | .popDelivery id => Sys2Proof.Machine.execPopDelivery id s
  | .barrierComplete unit => Sys2Proof.Machine.execBarrierComplete unit s
  | .cwaitRelease sheaf => Sys2Proof.Machine.execCwaitRelease sheaf s
  | .incumbentCommit id => Sys2Proof.Machine.execIncumbentCommit id s
  | .incupReply id => Sys2Proof.Machine.execIncupReply id s
  | .incrdRootReply id => Sys2Proof.Machine.execIncrdRootReply id s
  | .crierReplicaUpdate job reg onDie place => Sys2Proof.Machine.execCrierReplicaUpdate job reg onDie place s
  | .crierForward source reg value payload cycles => Sys2Proof.Machine.execCrierForward source reg value payload cycles s
  | .watchdogExpiry sheaf => Sys2Proof.Machine.execWatchdogExpiry sheaf s
  | .budgetPeriod => Sys2Proof.Machine.execBudgetPeriod s
  | .saveRequest core ctx => Sys2Proof.Machine.execSaveRequest core ctx s
  | .drainEnd core => Sys2Proof.Machine.execDrainEnd core s
  | .saveEnd core => Sys2Proof.Machine.execSaveEnd core s
  | .restore unit core => Sys2Proof.Machine.execRestore unit core s
  | .contextCreate ctx prio spw ptb pvb pspan hwm eqb eqn budgets => Sys2Proof.Machine.execContextCreate ctx prio spw ptb pvb pspan hwm eqb eqn budgets s
  | .contextDestroy ctx => Sys2Proof.Machine.execContextDestroy ctx s
  | .doorbellWrite offset bytes value => Sys2Proof.Machine.execDoorbellWrite offset bytes value s
  | .submissionEntry ctx queue incs parts reach tables => Sys2Proof.Machine.execSubmissionEntry ctx queue incs parts reach tables s
  | .phaseEndCompletion phase => Sys2Proof.Machine.execPhaseEndCompletion phase s
  | .hostHdmAccess addr write data => Sys2Proof.Machine.execHostHdmAccess addr write data s
  | .peerRequest src seq job offset op size x y => Sys2Proof.Machine.execPeerRequest src seq job offset op size x y s
  | .routeRecompute link loss => Sys2Proof.Machine.execRouteRecompute link loss s
  | .linkRetrain link a1 b1 a2 b2 => Sys2Proof.Machine.execLinkRetrain link a1 b1 a2 b2 s
  | .capabilityPublish peer mask exports => Sys2Proof.Machine.execCapabilityPublish peer mask exports s
  | .peerUnreachable peer => Sys2Proof.Machine.execPeerUnreachable peer s
  | .remoteStoreFailure id cause => Sys2Proof.Machine.execRemoteStoreFailure id cause s
  | .rdmaCompletion id data => Sys2Proof.Machine.execRdmaCompletion id data s
  | .dvfSetPoint die value => Sys2Proof.Machine.execDvfSetPoint die value s
  | .dvfGate die value => Sys2Proof.Machine.execDvfGate die value s
  | .dvfWake die value => Sys2Proof.Machine.execDvfWake die value s
  | .pointChangeDone die => Sys2Proof.Machine.execPointChangeDone die s
  | .gatingDone die => Sys2Proof.Machine.execGatingDone die s
  | .wakeDone die => Sys2Proof.Machine.execWakeDone die s
  | .thermalThrottle die => Sys2Proof.Machine.execThermalThrottle die s
  | .throttleRelease die => Sys2Proof.Machine.execThrottleRelease die s
  | .scrubPass line kind => Sys2Proof.Machine.execScrubPass line kind s
  | .hbmRowRetire row => Sys2Proof.Machine.execHbmRowRetire row s
  | .coreFailure core => Sys2Proof.Machine.execCoreFailure core s
  | .repairRecordWrite fails rows seq edSig mlSig => Sys2Proof.Machine.execRepairRecordWrite fails rows seq edSig mlSig s
  | .getVersion => Sys2Proof.Machine.execGetVersion s
  | .getCapabilities => Sys2Proof.Machine.execGetCapabilities s
  | .negotiateAlgorithms hash sig dhe aead => Sys2Proof.Machine.execNegotiateAlgorithms hash sig dhe aead s
  | .getDigests => Sys2Proof.Machine.execGetDigests s
  | .getCertificate slot => Sys2Proof.Machine.execGetCertificate slot s
  | .challenge nonce => Sys2Proof.Machine.execChallenge nonce s
  | .getMeasurements index nonce => Sys2Proof.Machine.execGetMeasurements index nonce s
  | .keyExchange pub => Sys2Proof.Machine.execKeyExchange pub s
  | .finish verify => Sys2Proof.Machine.execFinish verify s
  | .endSession => Sys2Proof.Machine.execEndSession s
  | .registerWrite reg value => Sys2Proof.Machine.execRegisterWrite reg value s
  | .recordReachableAgain rec => Sys2Proof.Machine.execRecordReachableAgain rec s
  | .submissionQueueCreate ctx queue base logSize => Sys2Proof.Machine.execSubmissionQueueCreate ctx queue base logSize s
  | .queuePairCreate ctx qpn => Sys2Proof.Machine.execQueuePairCreate ctx qpn s
  | .matrixRecordRegistration rec budget policy => Sys2Proof.Machine.execMatrixRecordRegistration rec budget policy s
  | .coldChangeReport rec smap mlist rows => Sys2Proof.Machine.execColdChangeReport rec smap mlist rows s
  | .congestionNotificationPacket port => Sys2Proof.Machine.execCongestionNotificationPacket port s
  | .nak id answer => Sys2Proof.Machine.execNak id answer s
  | .replyHoldExpiry src seq => Sys2Proof.Machine.execReplyHoldExpiry src seq s

end Sys2Proof.Machine
end

