-- ==== Sys2Proof/Machine/Front.lean ====
section
/-!
DEFINITION. The front of issue: the position that stands first in the latch, the word it fetches, and what becomes of a word that
cannot be fetched or decodes to nothing (R75, R84, R92, R135).
-/
namespace Sys2Proof.Machine

/-- What the front of issue comes to: nothing to issue, a state reached without an instruction, or an instruction to execute. -/
inductive Front where
  | idle
  | went (s : State)
  | issue (i : Instr) (s : State)

/-- The lanes of a chosen position that still stand as they were chosen. DEDUCED (log 34). -/
def Latch.still (l : Latch) (f : Sheaf) (m : Mask) : Mask :=
  laneMask fun k => m.getLsbD k && f.free k && (f.lane k).sameSpot (l.view.lane k)

/-- An instruction-fetch fault: a TYPE 8 record, and the job ends (R135, R365). -/
def State.fetchFault (s : State) (f : Sheaf) (lanes : Mask) (pc : DWord) : State :=
  (s.report (s.nameSheaf f { typ := 8, pc := pc, addr := pc, lanes := lanes })).endJob (s.unitOf f).job 8

/-- An `XMOD` word whose reserved bits are set: it attaches, and the word it attaches to takes the emulation trap (R75). -/
def State.badXmod (s : State) (id : Nat) (lanes : Mask) (job : Nat) : State :=
  (s.updSheaf id fun f =>
    { (f.updLanes lanes fun _ x => { x with xmod := some { bad := true }, pc := x.pc + 4, pass := 0 }) with issued := true }).progress job

/-- A word that decodes to no instruction issues: the emulation trap, once its region may end (R90, R92). -/
def State.rawIssue (s : State) (c : Ctx) (sh : Shape) : State :=
  let bad := if sh.endsRegion then c.f.faultedLanes c.lanes else 0
  match c.f.firstFault bad with
  | some p => s.beginService c.id (c.f.replaySet c.lanes bad) p false
  | none =>
    if sh.endsRegion && s.endWaits c.f c.lanes then s
    else if c.act = 0 then (s.advance c sh).conclude (.limm 0) c sh
    else s.emulWord c

/-- The `ENDL` of a resident body acts for lanes that the word before it has just brought there, where R82 lets it issue and they are
all the live lanes; else it issues later as a word of its own. The `ENDL` of a body around it may follow in turn (R143, R145). -/
def State.frontTail (s : State) (l : Latch) (m : Mask) (endl : DWord) : Front :=
  let after (tail : Option (Mask × DWord)) : State :=
    { s with latch := if l.positions.isEmpty && tail.isNone then none else some { l with tail := tail }, cur := none }
  let s1 := after none
  match s1.sheaf l.sheaf with
  | none => .went s1
  | some f =>
    let lanes := laneMask fun k => m.getLsbD k && f.free k && (f.lane k).pc == endl
    match lowest lanes with
    | none => .went s1
    | some l0 =>
      if !f.holdsAll lanes || s1.endWaits f lanes || f.faultedLanes lanes != 0 then .went s1
      else match (s1.wordAt f l0).map decode with
        | some (.ok (.endl y n i)) =>
          .issue (.endl y n i) { after ((s.tailOf f endl 0x5D).map fun a => (lanes, a)) with cur := some ⟨l.sheaf, lanes, f⟩ }
        | _ => .went s1

/-- The word of a chosen position is fetched, in a state from whose latch the position has gone. -/
def State.frontWord (s1 : State) (l : Latch) (m : Mask) : Front :=
  match s1.sheaf l.sheaf with
  | none => .went s1
  | some f =>
    let lanes := l.still f m
    match lowest lanes with
    | none => .went s1
    | some l0 =>
      match s1.wordAt f l0 with
      | none => .went (s1.fetchFault f lanes (f.lane l0).pc)
      | some w =>
        match decode w with
        | .ok i => .issue i { s1 with cur := some ⟨l.sheaf, lanes, l.view⟩ }
        | .error _ =>
          if wordOp w = 2#7 ∧ !wordY w then .went (s1.badXmod l.sheaf lanes (s1.unitOf f).job)
          else .went (s1.rawIssue (s1.ctxOf l.sheaf f l.view lanes l0 (rawShape w) w) (rawShape w))

/-- What trying a position's word comes to where it proves not ready: what its attempt leaves (R84, R94, R196). -/
def State.notReady (s : State) (l : Latch) (m : Mask) : Option State :=
  let s0 := s.updSheaf l.sheaf fun f => { f with issued := false }
  let held (u : State) : Bool := (u.sheaf l.sheaf).any fun f => !f.issued
  match s0.frontWord l m with
  | .idle => none
  | .went u => if held u && (u.sheaf l.sheaf).any (fun f => f.heldAt (fun h => h == .trap) &&& m != 0) then some u else none
  | .issue i t =>
    match exec i t with
    | .next u => if held u then some u else none
    | _ => none

/-- A new choice is tried: if a word of it proves not ready, the quadrant chooses again without its position (R84, R85). -/
def State.tryLatch (s : State) (l : Latch) (t : Trial) : State :=
  match l.positions.findSome? fun m => (s.notReady l m).map fun u => (m, u) with
  | some (m, u) => u.chooseAgain l t m
  | none => { s with latch := some { l with trial := none } }

/-- The first position of the latch leaves it and fetches its word; an `ENDL` that goes with the position before comes first, and a new
choice is tried before any of it issues. -/
def State.front (s : State) : Front :=
  match s.latch with
  | none => .idle
  | some l =>
    match l.trial with
    | some t => .went (s.tryLatch l t)
    | none =>
    match l.tail with
    | some t => s.frontTail l t.1 t.2
    | none =>
    match l.positions with
    | [] => .went { s with latch := none }
    | m :: rest =>
      let tail := l.ends.find? fun e => e.1 == m
      { s with latch := if rest.isEmpty && tail.isNone then none else some { l with positions := rest, tail := tail }
               cur := none }.frontWord l m

/-! ### A word placed where the machine fetches next -/

/-- Where a placed program stands: the second 64 KiB page, virtual and physical. -/
def placedPc : DWord := 0x10000

/-- The unit of a placed program. -/
def placedUnit : UnitSt :=
  { job := 1, ctx := 1, core := some 0, stage := .resident, lrec := { kpc := placedPc } }

/-- Its sheaf, in slot 0 of core 0. -/
def placedSheaf (unit : Nat) : Sheaf := newSheaf unit 0 0 0 1 0 0 placedUnit

/-- A sheaf of a new unit stands at a word's bytes and is about to issue it: a context with an executable page, a job, the unit, its
sheaf, and the choice of the sheaf's one position. DESIGN CHOICE (log 10). -/
def State.placeWord (s : State) (bytes : List Byte) : State :=
  let u := s.fresh
  let f := placedSheaf u
  let page := placedPc.toNat / 2 ^ 16
  let s1 := s.store ((List.range bytes.length).zip bytes |>.map fun c => (memKey 0 (placedPc.toNat + c.1), c.2))
  { s1 with
    contexts := s.contexts.set 1 (some {})
    jobs := s.jobs.set 1 (some { ctx := 1 })
    units := s.units.set u (some placedUnit)
    sheaves := s.sheaves.set (u + 1) (some f)
    tlbs := { die := 0, core := none, ctx := 1, page := page, pages := 1, leaf := placedPc ||| 0x2F } :: s.tlbs
    latch := some { sheaf := u + 1, positions := [BitVec.allOnes 32], view := f }
    cur := none
    fresh := u + 2 }

end Sys2Proof.Machine
end

