-- ==== Sys2Proof/Machine/Pump.lean ====
section
/-!
DEFINITION. What may happen next: the events of the hardware and of the firmware's standing duties, in the order in which the model
offers them, and the quadrant whose cycle comes next. The order is the model's choice; an event that cannot happen yet leaves the
state as it is.
-/
namespace Sys2Proof.Machine

/-- Events of one sheaf. -/
def sheafEvents (s : State) (id : Nat) (f : Sheaf) : List Instr :=
  [.replayLimit id, .trapEntry id, .yParkEnd id]
    ++ f.outstanding.map (fun o => .loadReply id o.id)
    ++ f.storeQueue.map (fun e => .storeTranslated id e.id)
    ++ (if f.awaiting.isEmpty then [] else [.faultService id (Config.freeBool s.free)])
    ++ (f.streams.cells.map fun c => .streamElementFetch id c.1)
    ++ [.cwaitRelease id, .watchdogExpiry id]

/-- Events of one engine entry. -/
def entryEvents (s : State) (e : Entry) : List Instr :=
  let slow : Instr := .copySlowPath e.id (Config.freeBool s.free) []
  match e.work with
  | .copy _ => [.copyStart e.id, .copyComplete e.id, slow]
  | .gather _ => [.copyStart e.id, .copyComplete e.id, slow]
  | .ring _ => [.copyStart e.id, .ringChunkStart e.id, .copyComplete e.id, slow]
  | .mbind _ _ _ _ => [.mbindStart e.id]
  | .mrel _ _ => [.mrelStart e.id]
  | .mill _ => [.millOpStart e.id, .millOpRetire e.id]
  | .qmv _ _ _ rows _ _ => [.qmvStart e.id] ++ rows.map (fun r => .quernRow e.id r) ++ [slow]
  | .rjoin _ _ _ _ => [.rjoinStart e.id, slow]
  | .scan _ => [.scanStart e.id, .scanPerformed e.id]
  | .csend _ _ _ => [.csendStart e.id, .carryPlaced (.own e.id)]
  | .crecv _ _ => [.crecvTake e.id]
  | .cbar => [.roundComplete ⟨e.id, none⟩]
  | .fence _ => [.qfencePass e.id]

/-- Events of launches, units, queues and incumbents. -/
def jobEvents (s : State) : List Instr :=
  (s.spawns.map fun r => .spawnArrival r.id)
    ++ (s.storeFailures.map fun x => .remoteStoreFailure x.id x.cause)
    ++ (s.qwords.map fun w => .queueWordAtHome w.id)
    ++ (s.qdeliveries.map fun q => .popDelivery q.id)
    ++ (s.incMsgs.flatMap fun m => [.incumbentCommit m.id, .incupReply m.id, .incrdRootReply m.id])
    ++ (s.replicas.map fun r => .crierReplicaUpdate r.job r.reg r.onDie r.place)
    ++ (s.unitList.flatMap fun u => [.barrierComplete u.1, .unitComplete u.1])
    ++ (s.launches.cells.filterMap fun x => if x.2.any (fun l => l.span.isSome) then some (.carryPlaced (.notice x.1)) else none)
    ++ (s.nodeList.map fun n => .nodeComplete n.1)
    ++ (s.phaseList.map fun p => .phaseEndCompletion p.1)
    ++ (if s.listed.isEmpty then [] else
        (List.range (Config.coresPerDie * Config.dies)).map fun c => .unitAdmission c)

/-- Events of cores, dies and the firmware. DESIGN CHOICE (log 74). -/
def packageEvents (s : State) : List Instr :=
  [.budgetPeriod]
    ++ (s.invalidations.map fun x => .tlbInvalidation x.ctx x.first x.last)
    ++ (s.misses.map fun m => .tlbWalk m.die m.ctx m.page)
    ++ (s.cores.cells.flatMap fun c =>
      if c.2.saving.isSome then [.drainEnd c.1, .saveEnd c.1] else c.2.waiting.map fun u => .restore u c.1)
    ++ (s.censusQueue.map fun q => .migrationCommand q.1 q.2)
    ++ (s.census.flatMap fun c => [.fallowSweepEnd c.mrec, .migrationCopy c.mrec, .migrationInstant c.mrec]
      ++ if c.stale.isEmpty then [] else [.coldChangeReport c.mrec c.relist.1 c.relist.2 []])
    ++ (s.fabric.stale.map fun l => .routeRecompute l ⟨s.fabric.globals, s.fabric.down, []⟩)
    ++ (s.peers.cells.map fun p => .peerUnreachable p.1)
    ++ (s.heldReplies.map fun r => .replyHoldExpiry r.src r.seq)
    ++ (s.openLeft.map fun x => .recordReachableAgain x.2.1.toNat)
    ++ ((List.range Config.dies).flatMap fun d => [.pointChangeDone d, .gatingDone d, .wakeDone d])

/-- Every event that the model offers, in order. DESIGN CHOICE (log 3). -/
def candidates (s : State) : List Instr :=
  (s.sheafList.flatMap fun c => sheafEvents s c.1 c.2)
    ++ (s.entries.flatMap (entryEvents s))
    ++ jobEvents s ++ packageEvents s

/-- The numbers of the quadrants that have something to do. -/
def busyQuadrants (s : State) : List Nat :=
  s.sheafList.filterMap fun c => match c.2.place with
    | some (core, slot) => if c.2.liveMask == 0 && c.2.timers.isEmpty then none else some (4 * core + quadOf slot)
    | none => none

def leastOf (l : List Nat) : Option Nat :=
  l.foldl (fun best n => match best with
    | none => some n
    | some b => some (min b n)) none

/-- The quadrant whose cycle comes next: the first at or after the turn that has something to do, else the first of the next
tick. -/
def nextQuadrant (s : State) : Instr :=
  let busy := busyQuadrants s
  let k := match leastOf (busy.filter fun n => decide (s.turn ≤ n)) with
    | some n => n
    | none => (leastOf busy).getD 0
  .quadrantCycle (k / 4) (k % 4)

/-- An instruction changes the state. -/
def changes (s : State) (o : Out) : Bool :=
  match o with
  | .next t => decide (t ≠ s)
  | _ => false

end Sys2Proof.Machine
end

