-- ==== Sys2Proof/Machine/Step.lean ====
section
/-!
DEFINITION. One step: the next position of the latch issues its word; with the latch empty, the outside world's next event
happens; with none, the first event of the hardware that can happen, and at last a quadrant's cycle.
-/
namespace Sys2Proof.Machine

/-- The event that comes next of its own: the first candidate that changes something, else a quadrant's cycle. DESIGN CHOICE (log 3). -/
def State.nextEvent (s : State) : Instr :=
  ((candidates s).find? fun i => changes s (exec i s)).getD (nextQuadrant s)

def step (s : State) : Host.Outcome State Fault Refusal :=
  match s.front with
  | .went t => .next t
  | .issue i t => exec i t
  | .idle =>
    let t := { s with cur := none }
    match s.agenda with
    | e :: rest => exec e { t with agenda := rest }
    | [] => exec t.nextEvent t

/-- `s` with a word of the operation table stored where the next step fetches it. -/
def State.withFetchWord (s : State) (nbits w : Nat) : State :=
  s.placeWord (wordBytes (BitVec.ofNat 32 (w % 2 ^ nbits)))

end Sys2Proof.Machine
end

