-- ==== Sys2Proof/WellFormed.lean ====
section
/-!
DEFINITION. Well-formed steps. A word is well-formed if its fields hold values that its description lists and its registers are
ones it can name, in some FORM, with or without a `LIMM` (R68, R69, R92); one that is not takes the emulation trap whatever is
attached to it. An event is well-formed if it names a party that the package has.
-/
namespace Sys2Proof

/-- The flag that an M-format word names is one that it takes (R67, R90, R137). -/
def Machine.Shape.flagOk (sh : Machine.Shape) : Bool :=
  match sh.mFlag with
  | none => true
  | some f => match sh.flagRule with
    | .never => f == 15
    | .optional => f == 15 || decide (f.toNat < 12)
    | .required => decide (f.toNat < 12)

/-- A word's fields and registers are in order in one FORM. -/
def Instr.formOk (i : Instr) (form : Nat) (limm : Bool) : Bool :=
  let sh := Machine.shape i form limm
  sh.forms.contains form && (!limm || sh.limm) && sh.fields && sh.flagOk && sh.uses.all (Machine.Use.ok 104)

/-- A word is in order in some FORM. -/
def Instr.wordOk (i : Instr) : Bool := (List.range 16).any fun f => i.formOk f false || i.formOk f true

/-- A core of the package, by its logical number (R10, R12). -/
def isCore (c : Nat) : Bool := decide (c < Config.coresPerDie * Config.dies)
def isDie (d : Nat) : Bool := decide (d < Config.dies)

/-- What an event names exists in the package. -/
def Instr.eventOk : Instr → Bool
  | .bootImageLoad bank => decide (bank < 2)
  | .quadrantCycle core quad => isCore core && decide (quad < 4)
  | .tlbWalk die ctx _ => isDie die && decide (ctx < 64)
  | .streamElementFetch _ q => decide (q < 8)
  | .unitAdmission core => isCore core
  | .crierReplicaUpdate _ reg onDie place => decide (reg < 16)
    && (if onDie then isDie place else isCore place || decide (256 ≤ place ∧ place < 256 + Config.fabricDevices))
  | .carryPlaced (.peer _ src _ _ _) => decide (src < Config.fabricDevices)
  | .crierForward source reg _ _ _ => decide (source.src < Config.fabricDevices ∧ reg < 16)
  | .peerRequest src _ _ _ _ _ _ _ => decide (src < Config.fabricDevices)
  | .doorbellWrite offset bytes _ => decide (offset + bytes ≤ 2 ^ 16 ∧ bytes ≤ 8)
  | .routeRecompute link loss => decide (link ≤ Config.hostLink)
    && (loss.globals ++ loss.down).all fun p => decide (p.1 < Config.fabricDevices ∧ p.2 < Config.fabricDevices)
  | .linkRetrain link _ _ _ _ => decide (link = Config.hostLink) || (Config.ioDie (.link link)).isSome
  | .capabilityPublish peer _ _ => decide (peer < Config.fabricDevices)
  | .peerUnreachable peer => decide (peer ≤ Config.host)
  | .congestionNotificationPacket port => (Config.ioDie (.port port)).isSome
  | .saveRequest core _ => isCore core
  | .drainEnd core => isCore core
  | .saveEnd core => isCore core
  | .restore _ core => isCore core
  | .contextCreate ctx prio _ _ _ _ _ _ _ _ => decide (ctx < 64) && decide (prio < 8)
  | .dvfSetPoint die _ => isDie die
  | .dvfGate die _ => isDie die
  | .dvfWake die _ => isDie die
  | .pointChangeDone die => isDie die
  | .gatingDone die => isDie die
  | .wakeDone die => isDie die
  | .thermalThrottle die => isDie die
  | .throttleRelease die => isDie die
  | .censusRanking _ smap _ => decide (smap % 128 = 0)
  | .coldChangeReport _ smap _ _ => decide (smap % 128 = 0)
  | .scrubPass line kind => decide (19 ≤ kind ∨ 128 * line < Config.hbmBytes)
  | .coreFailure core => isCore core
  | _ => true

/-- The check on every step. -/
def Instr.wellFormed (i : Instr) : Bool := if (encode i).isSome then i.wordOk else i.eventOk

end Sys2Proof
end

