-- ==== Sys2Proof/Safety.lean ====
section
/-!
DEFINITION. The terms in which claims about this machine are made: when a word runs, what a word leaves as it was, what a state must
keep, and what a safe run is.
-/
namespace Sys2Proof.Machine

/-! ### Safe runs -/

/-- The machine goes on. -/
def goesOn (o : Out) : Prop := ∃ t, o = .next t

/-- `k` steps from a state without a stop. -/
def SafeRun (k : Nat) (s : State) : Prop := ∃ t, Host.Core.run core k s = .next t

/-! ### What every step keeps -/

/-- Package registers lie in the ranges that the manual gives them (R329, R368, R374, R377, R387, R425). -/
def PkgRegs.ok (r : PkgRegs) : Bool :=
  decide (1024 ≤ r.drain ∧ r.drain ≤ 2 ^ 20) && powerOfTwo r.wdog (2 ^ 20) (2 ^ 30)
    && decide (2 ^ 16 ≤ r.peerto ∧ r.peerto ≤ 2 ^ 26) && decide (r.age ≤ 255) && decide (1 ≤ r.scrub ∧ r.scrub ≤ 168)
    && decide (r.hdmsz ≤ 512)

/-- The invariant: memory is in its canonical form, and the package registers are in range. -/
structure Inv (s : State) : Prop where
  mem : Memory.wf s.mem = true
  regs : s.regs.ok = true

/-- What a state keeps of the invariant on the way to another. -/
structure Keeps (s t : State) : Prop where
  mem : Memory.wf s.mem = true → Memory.wf t.mem = true
  regs : s.regs.ok = true → t.regs.ok = true

/-! ### When a word runs -/

/-- The shape of a word as a position issues it. -/
def Ctx.shapeOf (c : Ctx) (i : Instr) : Shape := shape i c.form c.limm.isSome

/-- A position issues `i` as `c` describes it, an active lane among its lanes, and nothing stands in the word's way: its region has met
no fault if it ends there, nothing holds it, its fields and attachments are in order, and no active lane reads poison through it. -/
structure Runs (i : Instr) (s : State) (c : Ctx) : Prop where
  issuing : s.issuing i = some (some c)
  sound : c.f.firstFault (if (c.shapeOf i).endsRegion then c.f.faultedLanes c.lanes else 0) = none
  ready : wordHeld i (c.shapeOf i) c s = false
  active : c.act ≠ 0
  inOrder : shapeOk (c.shapeOf i) c.unit.lrec.nv c.limm.isSome c.x = true
  clean : c.consumes (c.shapeOf i) = none

/-- A position issues a hint. -/
structure RunsHint (i : Instr) (s : State) (c : Ctx) : Prop where
  issuing : s.issuing i = some (some c)

/-! ### What a word leaves as it was -/

/-- Beside one sheaf, the names given out and the count of free choices, only a job's mark of progress differs (R374). -/
structure OnlySheaf (s t : State) (id job : Nat) : Prop where
  others : ∀ k, k ≠ id → t.sheaf k = s.sheaf k
  jobs : ∀ j, t.job j = if j = job then (s.job j).map (fun x => { x with progressed := true }) else s.job j
  rest : t = { s with sheaves := t.sheaves, jobs := t.jobs, fresh := t.fresh, free := t.free }

/-- Of a sheaf only registers, predicates, results on their way, lanes, flag parts, pops and the park differ. -/
def Sheaf.OnlyRegs (f g : Sheaf) : Prop :=
  g = { f with v := g.v, vPoison := g.vPoison, u := g.u, uPoison := g.uPoison, p := g.p, pending := g.pending, lanes := g.lanes
               flagOps := g.flagOps, streams := g.streams, issued := g.issued, restored := g.restored, park := g.park }

/-- The lanes of the issuing position stand at the addresses given, their hints used up; the other lanes stand as they stood. -/
structure LanesGo (f g : Sheaf) (c : Ctx) (pcOf : Nat → DWord) : Prop where
  went : ∀ l, l < 32 → c.lanes.getLsbD l = true →
    (g.lane l).pc = pcOf l ∧ (g.lane l).limm = none ∧ (g.lane l).xmod = none ∧ (g.lane l).life = (f.lane l).life
      ∧ (g.lane l).handler = (f.lane l).handler ∧ (g.lane l).hold = (f.lane l).hold ∧ (g.lane l).bnd = (f.lane l).bnd
  stood : ∀ l, l < 32 → c.lanes.getLsbD l = false → g.lane l = f.lane l

/-- The lowest lane of a mask; 0 for the empty mask. -/
def lowLaneOf (m : Mask) : Nat := (lowest m).getD 0

/-- A result on its way as another one was: an older one becomes sure no later than a newer one of the same register. -/
def Pending.From (bound : Nat) (p q : Pending) : Prop :=
  p.key = q.key ∧ p.old = q.old ∧ p.poison = q.poison ∧ (p.ready = q.ready ∨ p.ready = min q.ready bound)

/-- A destination field of `n` registers is written in the active lanes, word `k` of `val l` to register `k` of lane `l`: per lane for
thread registers, the lowest active lane's words for uniform ones, nothing for `zr` (R68, R69). Nothing else is. Until `lat` cycles have
passed, a read may still give the old value (R77, R78). -/
structure Writes (c : Ctx) (lat : Nat) (d : BitVec 7) (n : Nat) (val : Nat → List Word) (f g : Sheaf) : Prop where
  thread : ∀ r l, r < 104 → l < 32 → g.v.get (vKey r l) =
    if d.toNat ≤ r ∧ r < d.toNat + n ∧ c.act.getLsbD l = true then (val l).getD (r - d.toNat) 0 else f.v.get (vKey r l)
  uniform : ∀ k, k < 64 → g.u.get k =
    if k < 16 ∧ d.toNat ≤ 104 + k ∧ 104 + k < d.toNat + n then (val (lowLaneOf c.act)).getD (104 + k - d.toNat) 0 else f.u.get k
  poison : ∀ r l, r < 104 → l < 32 → g.vPoison.get (vKey r l) =
    if d.toNat ≤ r ∧ r < d.toNat + n ∧ c.act.getLsbD l = true then none else f.vPoison.get (vKey r l)
  poisonU : ∀ k, k < 64 → g.uPoison.get k =
    if k < 16 ∧ d.toNat ≤ 104 + k ∧ 104 + k < d.toNat + n then none else f.uPoison.get k
  preds : g.p = f.p
  late : ∀ r l, r < 104 → l < 32 → d.toNat ≤ r → r < d.toNat + n → c.act.getLsbD l = true → lat ≠ 0 →
    ⟨vKey r l, f.v.get (vKey r l), c.now + lat, f.vPoison.get (vKey r l)⟩ ∈ g.pending
  lateU : ∀ k, k < 16 → d.toNat ≤ 104 + k → 104 + k < d.toNat + n → lat ≠ 0 → ⟨uKey k, f.u.get k, c.now + lat, f.uPoison.get k⟩ ∈ g.pending
  rest : ∀ p ∈ g.pending, (∃ q ∈ f.pending, p.From (c.now + lat) q) ∨ (p.ready = c.now + lat
    ∧ ((∃ r l, p.key = vKey r l ∧ d.toNat ≤ r ∧ r < d.toNat + n ∧ c.act.getLsbD l = true)
      ∨ ∃ k, p.key = uKey k ∧ d.toNat ≤ 104 + k ∧ 104 + k < d.toNat + n))

/-- A predicate is written in the active lanes; no register is. -/
structure WritesPred (c : Ctx) (lat : Nat) (p : BitVec 3) (val : Nat → Bool) (f g : Sheaf) : Prop where
  pred : ∀ q l, q < 7 → l < 32 → g.pred q l = if q = p.toNat ∧ c.act.getLsbD l = true then val l else f.pred q l
  thread : g.v = f.v
  uniform : g.u = f.u
  poison : g.vPoison = f.vPoison ∧ g.uPoison = f.uPoison
  late : ∀ l, l < 32 → c.act.getLsbD l = true → lat ≠ 0 →
    ⟨pKey p.toNat l, if f.pred p.toNat l then 1 else 0, c.now + lat, none⟩ ∈ g.pending
  rest : ∀ x ∈ g.pending, (∃ q ∈ f.pending, x.From (c.now + lat) q) ∨ (x.ready = c.now + lat ∧ ∃ l, x.key = pKey p.toNat l ∧ c.act.getLsbD l = true)

/-- No register and no predicate is written. -/
def WritesNothing (f g : Sheaf) : Prop :=
  g.v = f.v ∧ g.u = f.u ∧ g.p = f.p ∧ g.vPoison = f.vPoison ∧ g.uPoison = f.uPoison ∧ g.pending = f.pending

/-- `i` runs to the next word, or to the addresses given, changing only what `E` says of the sheaf's registers. -/
def Completes (i : Instr) (s : State) (c : Ctx) (pcOf : Nat → DWord) (E : Sheaf → Sheaf → Prop) : Prop :=
  ∃ t f g, exec i s = .next t ∧ (s.committedBy c (c.shapeOf i)).sheaf c.id = some f ∧ t.sheaf c.id = some g
    ∧ OnlySheaf (s.committedBy c (c.shapeOf i)) t c.id c.unit.job ∧ f.OnlyRegs g ∧ LanesGo f g c pcOf ∧ E f g

/-- The next word. -/
def Ctx.after (c : Ctx) : Nat → DWord := fun _ => c.pc + 4

end Sys2Proof.Machine
end

