-- ==== Sys2Proof/Certificates/Slice0/Obligations.lean ====
section
/-!
DEFINITION. The statements about this machine that are to be proved, and the terms they are made in.
-/
namespace Sys2Proof.Claims
open Sys2Proof.Machine

/-! ### Words with results in registers -/

/-- Whenever `i` runs, it completes at the next word, its destination field of `n` registers written with `val`, sure after `lat` cycles;
nothing else of the machine changes. -/
def Gives (i : Instr) (lat : Nat) (d : BitVec 7) (n : Ctx → Nat) (val : Ctx → Nat → List Word) : Prop :=
  ∀ s c, Runs i s c → Completes i s c c.after (Writes c lat d (n c) (val c))

/-- The same for a predicate. -/
def GivesPred (i : Instr) (lat : Nat) (p : BitVec 3) (val : Ctx → Nat → Bool) : Prop :=
  ∀ s c, Runs i s c → Completes i s c c.after (WritesPred c lat p (val c))

/-- One register, and the two registers of a pair, that hold an integer modulo 2^32 or 2^64 (R69). -/
def one (z : Int) : List Word := [BitVec.ofInt 32 z]
def two (z : Int) : List Word := [lo32 (BitVec.ofInt 64 z), hi32 (BitVec.ofInt 64 z)]

/-- The two registers of a pair that holds a 64-bit pattern. -/
def pair (x : DWord) : List Word := [lo32 x, hi32 x]

/-- Forms 2 and 3 of R97 take pairs. -/
def pairs (c : Ctx) : Bool := c.form == 2 || c.form == 3
def regsOf (c : Ctx) : Nat := if pairs c then 2 else 1
/-- FORM 2 of the logic words takes pairs. -/
def wideRegs (c : Ctx) : Nat := if c.form = 2 then 2 else 1

/-- Operands of R97 as integers: signed in forms 0, 2 and 4, unsigned in 1, 3 and 5. -/
def asInt (form w : Nat) (x : BitVec w) : Int := if form % 2 = 0 then x.toInt else x.toNat
def opA (c : Ctx) (a : BitVec 7) (l : Nat) : Int := if pairs c then asInt c.form 64 (c.r64 a l) else asInt c.form 32 (c.r32 a l)
def opB (c : Ctx) (b : BitVec 7) (l : Nat) : Int := if pairs c then asInt c.form 64 (c.b64 b l) else asInt c.form 32 (c.b32 b l)
/-- The immediate of an I-format word, IMM7 or the `LIMM` value, signed. -/
def opImm (c : Ctx) (i : BitVec 7) : Int := match c.limm with
  | some x => x.toInt
  | none => i.toInt

/-- An exact integer as the result of a form: clamped in forms 4 and 5, else its low bits (R103, R104). -/
def result (c : Ctx) (z : Int) : List Word :=
  if pairs c then two z
  else if c.form = 4 then one (max (-2 ^ 31) (min z (2 ^ 31 - 1)))
  else if c.form = 5 then one (max 0 (min z (2 ^ 32 - 1)))
  else one z

/-- `SHI` (R108): what its immediate selects, from IMM7 or from bits [6:0] of a `LIMM` whose other bits are zero. -/
def shiftSelect (c : Ctx) (k : BitVec 2) (n : BitVec 5) : Option (Nat × Nat) :=
  match c.limm with
  | none => some (k.toNat, n.toNat)
  | some x => if x.toNat < 128 then some (x.toNat / 32, x.toNat % 32) else none
/-- The four shifts of R108. -/
def shifted (op : Nat) (x : Word) (m : Nat) : Word :=
  match op with
  | 0 => BitVec.ofNat 32 (x.toNat * 2 ^ m)
  | 1 => BitVec.ofNat 32 (x.toNat / 2 ^ m)
  | 2 => BitVec.ofInt 32 (x.toInt / 2 ^ m)
  | _ => BitVec.ofNat 32 (x.toNat * 2 ^ m + x.toNat / 2 ^ (32 - m))

/-- A word whose bit k is what a test says of k. -/
def bitsWhere (p : Nat → Bool) : Word := laneMask p

/-- The field of R110: position and length, `none` where it is empty. -/
def bitField (b : Word) : Option (Nat × Nat) :=
  let pos := b.toNat % 256
  let len := b.toNat / 256 % 256
  if 32 ≤ pos ∨ len = 0 then none else some (pos, min len (32 - pos))

/-! ### Floating point -/

/-- The format of a FORM of R98, and whether it holds two elements. -/
def floatFmt (form : Nat) : Fmt := if form = 0 then f32 else if form = 1 ∨ form = 3 then f16 else bf16

/-- An operation on the elements of a FORM of R98: the whole register, its low half with zeros above, or both halves. -/
def elementwise (form : Nat) (h : Fmt → Nat → Nat → Nat → Nat) (a b d : Word) : Word :=
  let f := floatFmt form
  let low : Nat := h f (a.toNat % 65536) (b.toNat % 65536) (d.toNat % 65536)
  if form = 0 then BitVec.ofNat 32 (h f a.toNat b.toNat d.toNat)
  else if form ≤ 2 then BitVec.ofNat 32 low
  else BitVec.ofNat 16 (h f (a.toNat / 65536) (b.toNat / 65536) (d.toNat / 65536)) ++ BitVec.ofNat 16 low

/-- The exact sum of terms rounded once by `RM` into a format; an exact zero takes its sign by MODE (R112). -/
def rounded (f : Fmt) (rm : Word) (terms : List Ex) : Nat := f.round rm (Ex.sum (rm.toNat % 8 == 3) terms)

/-- The special functions of R118 on the code of an operand. -/
def special (k : Nat) (rm x : Word) : Nat :=
  let v := f32.decode x.toNat
  match k with
  | 0 => rcpCode rm v
  | 1 => rsqCode rm v
  | 2 => sqrtCode rm v
  | 3 => ex2Code (rm.getLsbD 3) (Config.sfuCode 3 x).toNat v
  | 4 => lg2Code (Config.sfuCode 4 x).toNat v
  | 5 => sinCode (Config.sfuCode 5 x).toNat v
  | 6 => cosCode (Config.sfuCode 6 x).toNat v
  | _ => tanhCode (Config.sfuCode 7 x).toNat v

/-- What R118 and R119 fix of a special function. `d` is the operand's value. -/
def SpecialOk (k : Nat) (sat : Bool) (x : Ex) (code : Nat) : Prop :=
  match k, x with
  | _, .nan => code = 0x7FC00000
  | 0, .inf s => code = if s then 0x80000000 else 0
  | 1, .inf s => code = if s then 0x7FC00000 else 0
  | 2, .inf s => code = if s then 0x7FC00000 else 0x7F800000
  | 3, .inf s => code = if s then 0 else 0x7F800000
  | 4, .inf s => code = if s then 0x7FC00000 else 0x7F800000
  | 7, .inf s => code = if s then 0xBF800000 else 0x3F800000
  | _, .inf _ => code = 0x7FC00000
  | 0, .fin s 0 _ => code = if s then 0xFF800000 else 0x7F800000
  | 1, .fin s 0 _ => code = if s then 0xFF800000 else 0x7F800000
  | 3, .fin _ 0 _ => code = 0x3F800000
  | 4, .fin _ 0 _ => code = 0xFF800000
  | 6, .fin _ 0 _ => code = 0x3F800000
  | _, .fin s 0 _ => code = if s then 0x80000000 else 0
  | 1, .fin true _ _ => code = 0x7FC00000
  | 2, .fin true _ _ => code = 0x7FC00000
  | 4, .fin true _ _ => code = 0x7FC00000
  | 3, .fin false m e => 7 ≤ (Nat.log2 m : Int) + e → code = if sat then 0x7F7FFFFF else 0x7F800000
  | _, _ => True

/-- The exact cases of R118: 2^n is exact for n from −149 to 127, and the logarithm of a power of two is exact, that of 1 being +0. -/
def SpecialExact (k : Nat) (x : Ex) (code : Nat) : Prop :=
  match k with
  | 3 => ∀ n : Int, -149 ≤ n → n ≤ 127 → x ≠ .nan → x.cmp (Ex.ofInt n) = 0 → (f32.decode code).cmp (.fin false 1 n) = 0
  | 4 => ∀ n : Int, x ≠ .nan → x.cmp (.fin false 1 n) = 0 → (f32.decode code).cmp (Ex.ofInt n) = 0 ∧ (n = 0 → code = 0)
  | _ => True

/-! ### Conversions -/

/-- An element of an integer type in a 64-bit pattern, a value narrower than 32 bits extended by its type (R48, R60). -/
def intResult (t : Nat) (z : Int) : DWord :=
  match intOf t with
  | some (w, sg) => BitVec.ofInt 64 (readInt w sg (BitVec.ofInt 64 z).toNat)
  | none => 0

/-- A floating value converted to a format of R125. -/
def fromFloat (c : Ctx) (t : Nat) (x : Ex) : DWord :=
  match intOf t with
  | some (w, sg) => BitVec.ofInt 64 (toInt (c.f.rm.toNat % 8) w sg x)
  | none => match fmtOf t (c.form == 1) with
    | some f => BitVec.ofNat 64 (f.round c.f.rm x)
    | none => 0

/-- An integer of a source type converted to a format of R125: a wider type is exact, a narrower one or one of the other signedness
clamps under SAT and keeps its low bits otherwise (R60). -/
def fromInt (c : Ctx) (w : Nat) (sg : Bool) (t : Nat) (z : Int) : DWord :=
  match intOf t with
  | some (tw, ts) => intResult t (if tw ≤ w ∧ ¬ (tw = w ∧ ts = sg) ∧ c.f.rm.getLsbD 3 = true
      then max (intMin tw ts) (min z (intMax tw ts)) else z)
  | none => match fmtOf t (c.form == 1) with
    | some f => BitVec.ofNat 64 (f.round c.f.rm (.fin (decide (z < 0)) z.natAbs 0))
    | none => 0

/-- A converted value in one register or, for a 64-bit target, two. -/
def convRegs (t : Nat) : Nat := if t = 3 ∨ t = 7 then 2 else 1
def convWords (t : Nat) (x : DWord) : List Word := if t = 3 ∨ t = 7 then pair x else [lo32 x]

/-- The element formats of `CVTS` by FORM (R128). -/
def scaledBy (form : Nat) : Option Fmt :=
  if form < 5 then fmtOf (11 + form) false else if form < 12 then fmtOf (12 + form) false else none

/-- One block of the active lanes, quantised by R61. -/
def laneBlock (c : Ctx) (a : BitVec 7) (f : Fmt) : Byte × List Nat :=
  quantBlock f (c.f.rm.toNat % 8) (c.actLanes.map fun l => some (f32.decode (c.r32 a l).toNat))
/-- The code of a lane of the block. -/
def laneCode (c : Ctx) (codes : List Nat) (l : Nat) : Word :=
  BitVec.ofNat 32 (codes.getD ((c.actLanes.takeWhile fun k => k != l).length) 0)

/-! ### Compares and lanes -/

/-- The conditions of R120 on patterns of a width. -/
def holds (cond : BitVec 4) (w : Nat) (x y : BitVec w) : Bool :=
  match cond.toNat with
  | 0 => decide (x = y)
  | 1 => decide (x ≠ y)
  | 2 => x.slt y
  | 3 => x.sle y
  | 4 => y.slt x
  | 5 => y.sle x
  | 6 => x.ult y
  | 7 => x.ule y
  | 8 => y.ult x
  | _ => y.ule x

/-- The conditions of R121: a NaN is unordered, and the zeros are equal. -/
def floatHolds (cond : BitVec 4) (x y : Ex) : Bool :=
  let ordered := !(x.isNan || y.isNan)
  match cond.toNat with
  | 0 => ordered && decide (x.cmp y = 0)
  | 1 => !(ordered && decide (x.cmp y = 0))
  | 2 => ordered && decide (x.cmp y < 0)
  | 3 => ordered && decide (x.cmp y ≤ 0)
  | 4 => ordered && decide (0 < x.cmp y)
  | 5 => ordered && decide (0 ≤ x.cmp y)
  | 6 => ordered
  | _ => !ordered

/-- The lane that `SHFL` reads for lane `l` (R148). -/
def source (c : Ctx) (b : Word) (l : Nat) : Nat :=
  let n := c.bunch
  let base := n * (l / n)
  match c.form % 4 with
  | 0 => base + b.toNat % n
  | 1 => if b.toNat ≤ l % n then l - b.toNat else l
  | 2 => if l % n + b.toNat < n then l + b.toNat else l
  | _ => base + Nat.xor (l % n) (b.toNat % n)

/-- The active lanes of lane `l`'s bunch, ascending (R147). -/
def mates (c : Ctx) (l : Nat) : List Nat :=
  ((List.range c.bunch).map fun k => c.bunch * (l / c.bunch) + k).filter fun k => c.act.getLsbD k

/-- A result of a type of R150 in its registers. -/
def crossWords (t : BitVec 3) (x : DWord) : List Word := if t = 3 ∨ t = 4 then pair x else [lo32 x]

/-- `RED`: the tree of R62 over a bunch's values, and what no values give. -/
def reduced (c : Ctx) (o t : BitVec 3) (vals : List (Option DWord)) : DWord :=
  (treeFold (redOp c.f.rm o.toNat t.toNat) 5 vals).getD (redIdentity o.toNat t.toNat)

/-- `SCANL`: values combined one after the other. -/
def chained (c : Ctx) (o t : BitVec 3) : List DWord → DWord
  | [] => redIdentity o.toNat t.toNat
  | v :: rest => rest.foldl (redOp c.f.rm o.toNat t.toNat) v

end Sys2Proof.Claims

section
open Sys2Proof Sys2Proof.Machine Sys2Proof.Claims

/-- R103, R104: the integer arithmetic words. -/
def Obligations.IntegerArithmetic : Prop :=
  ∀ (y : Bool) (g : BitVec 3) (d a b i : BitVec 7),
    Gives (.iadd y g d a b) 2 d regsOf (fun c l => result c (opA c a l + opB c b l))
    ∧ Gives (.isub y g d a b) 2 d regsOf (fun c l => result c (opA c a l - opB c b l))
    ∧ Gives (.iaddi y g d a i) 2 d regsOf (fun c l => result c (opA c a l + opImm c i))
    ∧ Gives (.imul y g d a b) 4 d regsOf (fun c l => result c (opA c a l * opB c b l))
    ∧ Gives (.imulh y g d a b) 4 d regsOf (fun c l => result c (opA c a l * opB c b l / 2 ^ (if pairs c then 64 else 32)))
    ∧ Gives (.imad y g d a b) 4 d regsOf (fun c l => result c (opA c a l * opB c b l + opA c d l))
    ∧ Gives (.imin y g d a b) 2 d regsOf (fun c l => result c (min (opA c a l) (opB c b l)))
    ∧ Gives (.imax y g d a b) 2 d regsOf (fun c l => result c (max (opA c a l) (opB c b l)))

/-- R105, R106: the wide multiply-accumulate, the four-byte dot product and the address word. That a `LIMM` in the `.zx` forms of `LEA` is extended
with zeros from 32 bits is the model's choice (log 77). -/
def Obligations.WideAccumulateDotAndAddress : Prop :=
  ∀ (y : Bool) (g : BitVec 3) (d a b : BitVec 7),
    Gives (.imadw y g d a b) 4 d (fun _ => 2)
      (fun c l => two (asInt c.form 32 (c.r32 a l) * asInt c.form 32 (c.b32 b l) + (c.r64 d l).toNat))
    ∧ Gives (.idot4 y g d a b) 4 d (fun _ => 1) (fun c l =>
        let byteA (k : Nat) : Int := asInt (if c.form = 0 then 0 else 1) 8 ((c.r32 a l).extractLsb' (8 * k) 8)
        let byteB (k : Nat) : Int := asInt (if c.form = 1 then 1 else 0) 8 ((c.b32 b l).extractLsb' (8 * k) 8)
        one ((c.r32 d l).toNat + (byteA 0 * byteB 0 + byteA 1 * byteB 1 + byteA 2 * byteB 2 + byteA 3 * byteB 3)))
    ∧ Gives (.lea y g d a b) 2 d (fun _ => 2) (fun c l =>
        two ((c.r64 a l).toNat + (if c.form < 5 then (c.b32 b l).toInt else (c.b32 b l).toNat)
          * 2 ^ (if c.form < 5 then c.form else c.form - 5)))

/-- R107, R108, R109: logic, shifts and moves. A `LIMM` whose bits [23:7] are not all zero makes `SHI` take the emulation trap. -/
def Obligations.LogicShiftMove : Prop :=
  ∀ (y : Bool) (g : BitVec 3) (d a b : BitVec 7) (k : BitVec 2) (n : BitVec 5),
    Gives (.and y g d a b) 2 d wideRegs (fun c l =>
      if c.form = 2 then pair (c.r64 a l &&& c.b64 b l) else [c.r32 a l &&& c.b32 b l])
    ∧ Gives (.or y g d a b) 2 d wideRegs (fun c l =>
      if c.form = 2 then pair (c.r64 a l ||| c.b64 b l) else [c.r32 a l ||| c.b32 b l])
    ∧ Gives (.xor y g d a b) 2 d wideRegs (fun c l =>
      if c.form = 2 then pair (c.r64 a l ^^^ c.b64 b l) else [c.r32 a l ^^^ c.b32 b l])
    ∧ Gives (.andn y g d a b) 2 d wideRegs (fun c l =>
      if c.form = 2 then pair (c.r64 a l &&& ~~~c.b64 b l) else [c.r32 a l &&& ~~~c.b32 b l])
    ∧ Gives (.shl y g d a b) 2 d wideRegs (fun c l =>
      if c.form = 2 then two ((c.r64 a l).toNat * 2 ^ (c.b32 b l).toNat) else one ((c.r32 a l).toNat * 2 ^ (c.b32 b l).toNat))
    ∧ Gives (.shr y g d a b) 2 d wideRegs (fun c l =>
      if c.form = 2 then two ((c.r64 a l).toNat / 2 ^ (c.b32 b l).toNat) else one ((c.r32 a l).toNat / 2 ^ (c.b32 b l).toNat))
    ∧ Gives (.sar y g d a b) 2 d wideRegs (fun c l =>
      if c.form = 2 then two ((c.r64 a l).toInt / 2 ^ (c.b32 b l).toNat) else one ((c.r32 a l).toInt / 2 ^ (c.b32 b l).toNat))
    ∧ Gives (.mov y g d b) 2 d wideRegs (fun c l => if c.form = 2 then pair (c.b64 b l) else [c.b32 b l])
    ∧ (∀ s c, Runs (.shi y g d a k n) s c → match shiftSelect c k n with
      | some (op, m) => Completes (.shi y g d a k n) s c c.after (Writes c 2 d 1 fun l => [shifted op (c.r32 a l) m])
      | none => exec (.shi y g d a k n) s = .next (s.emulWord c))

/-- R110, R111: bit fields and bit counts. -/
def Obligations.BitFieldsAndCounts : Prop :=
  ∀ (y : Bool) (g : BitVec 3) (d a b : BitVec 7),
    Gives (.bfe y g d a b) 2 d (fun _ => 1) (fun c l => match bitField (c.b32 b l) with
      | none => one 0
      | some (pos, len) =>
        let field : Int := (c.r32 a l).toNat / 2 ^ pos % 2 ^ len
        one (if c.form = 0 ∧ 2 ^ (len - 1) ≤ field then field - 2 ^ len else field))
    ∧ Gives (.bfi y g d a b) 2 d (fun _ => 1) (fun c l => match bitField (c.b32 b l) with
      | none => [c.r32 d l]
      | some (pos, len) => [bitsWhere fun k =>
          if pos ≤ k ∧ k < pos + len then (c.r32 a l).getLsbD (k - pos) else (c.r32 d l).getLsbD k])
    ∧ Gives (.popc y g d a) 2 d (fun _ => 1) (fun c l => one (((List.range 32).countP fun k => (c.r32 a l).getLsbD k : Nat)))
    ∧ Gives (.clz y g d a) 2 d (fun _ => 1)
      (fun c l => one ((((List.range 32).takeWhile fun k => !(c.r32 a l).getLsbD (31 - k)).length : Nat)))
    ∧ Gives (.ctz y g d a) 2 d (fun _ => 1)
      (fun c l => one ((((List.range 32).takeWhile fun k => !(c.r32 a l).getLsbD k).length : Nat)))
    ∧ Gives (.brev y g d a) 2 d (fun _ => 1) (fun c l => [bitsWhere fun k => (c.r32 a l).getLsbD (31 - k)])
    ∧ Gives (.bswap y g d a) 2 d (fun _ => 1)
      (fun c l => [bitsWhere fun k => (c.r32 a l).getLsbD (8 * (3 - k / 8) + k % 8)])

/-- R112, R114: sums and products of the floating forms are exact and rounded once by `RM`. That an exact zero sum of `FDOT2` takes the sign that R112
gives is the model's choice (log 77). -/
def Obligations.FloatArithmetic : Prop :=
  ∀ (y : Bool) (g : BitVec 3) (d a b : BitVec 7),
    Gives (.fadd y g d a b) 4 d (fun _ => 1) (fun c l => [elementwise c.form
      (fun f x z _ => rounded f c.f.rm [f.decode x, f.decode z]) (c.r32 a l) (c.b32 b l) 0])
    ∧ Gives (.fsub y g d a b) 4 d (fun _ => 1) (fun c l => [elementwise c.form
      (fun f x z _ => rounded f c.f.rm [f.decode x, (f.decode z).neg]) (c.r32 a l) (c.b32 b l) 0])
    ∧ Gives (.fmul y g d a b) 4 d (fun _ => 1) (fun c l => [elementwise c.form
      (fun f x z _ => f.round c.f.rm ((f.decode x).mul (f.decode z))) (c.r32 a l) (c.b32 b l) 0])
    ∧ Gives (.ffma y g d a b) 4 d (fun _ => 1) (fun c l => [elementwise c.form
      (fun f x z w => rounded f c.f.rm [(f.decode x).mul (f.decode z), f.decode w]) (c.r32 a l) (c.b32 b l) (c.r32 d l)])
    ∧ Gives (.fdot2 y g d a b) 4 d (fun _ => 1) (fun c l =>
      let f := if c.form = 0 then bf16 else f16
      let p := (f.decode ((c.r32 a l).toNat % 65536)).mul (f.decode ((c.b32 b l).toNat % 65536))
      let q := (f.decode ((c.r32 a l).toNat / 65536)).mul (f.decode ((c.b32 b l).toNat / 65536))
      [BitVec.ofNat 32 (rounded f32 c.f.rm [p, q, f32.decode (c.r32 d l).toNat])])

/-- R113, R117: selection of an operand, sign changes and classes.

R115, R116: scaling by a power of two, and rounding to an integral value. -/
def Obligations.FloatMinMaxClassScaleRound : Prop :=
  (∀ (y : Bool) (g : BitVec 3) (d a b : BitVec 7),
      Gives (.fmin y g d a b) 4 d (fun _ => 1)
        (fun c l => [elementwise c.form (fun f x z _ => f.minMax false x z) (c.r32 a l) (c.b32 b l) 0])
      ∧ Gives (.fmax y g d a b) 4 d (fun _ => 1)
        (fun c l => [elementwise c.form (fun f x z _ => f.minMax true x z) (c.r32 a l) (c.b32 b l) 0])
      ∧ Gives (.fabs y g d a) 4 d (fun _ => 1) (fun c l => [elementwise c.form (fun f x _ _ =>
        if f.decode x = .nan then f.nan else x % 2 ^ (f.bits - 1)) (c.r32 a l) 0 0])
      ∧ Gives (.fneg y g d a) 4 d (fun _ => 1) (fun c l => [elementwise c.form (fun f x _ _ =>
        if f.decode x = .nan then f.nan else (x + 2 ^ (f.bits - 1)) % 2 ^ f.bits) (c.r32 a l) 0 0])
      ∧ Gives (.fnabs y g d a) 4 d (fun _ => 1) (fun c l => [elementwise c.form (fun f x _ _ =>
        if f.decode x = .nan then f.nan else 2 ^ (f.bits - 1) + x % 2 ^ (f.bits - 1)) (c.r32 a l) 0 0])
      ∧ Gives (.fcls y g d a) 4 d (fun _ => 1) (fun c l =>
        let f := floatFmt c.form
        let x := (c.r32 a l).toNat % 2 ^ f.bits
        let minus := x / 2 ^ (f.bits - 1) = 1
        let e := x % 2 ^ (f.bits - 1) / 2 ^ f.tb
        let t := x % 2 ^ f.tb
        let top := 2 ^ (f.bits - 1 - f.tb) - 1
        [BitVec.ofNat 32 (2 ^ (
          if e = top ∧ t ≠ 0 then (if t.testBit (f.tb - 1) then 9 else 8)
          else if e = top then (if minus then 0 else 7)
          else if e = 0 ∧ t = 0 then (if minus then 3 else 4)
          else if e = 0 then (if minus then 2 else 5)
          else (if minus then 1 else 6)))])) ∧
  (∀ (y : Bool) (g : BitVec 3) (d a b : BitVec 7) (r : BitVec 3),
      Gives (.fscl y g d a b) 4 d (fun _ => 1) (fun c l => [elementwise c.form (fun f x _ _ => match f.decode x with
        | .fin neg 0 _ => if neg then 2 ^ (f.bits - 1) else 0
        | .fin neg m e => f.round c.f.rm (.fin neg m (e + (c.b32 b l).toInt))
        | .inf neg => f.infinity neg
        | .nan => f.nan) (c.r32 a l) 0 0])
      ∧ Gives (.frnd y g d a r) 4 d (fun _ => 1) (fun c l =>
        let mode := if r = 5 then c.f.rm.toNat % 8 else r.toNat
        [elementwise c.form (fun f x _ _ => match f.decode x with
          | .fin neg 0 _ => if neg then 2 ^ (f.bits - 1) else 0
          | .fin neg m e => f.round 0 (.fin neg (roundInt mode neg m e).natAbs 0)
          | .inf neg => f.infinity neg
          | .nan => f.nan) (c.r32 a l) 0 0]))

/-- R118: each special function writes one register, seven cycles to its value. The value is the model's `special k`, which has the
special values of the table, the exact powers of two of `ex2` and `lg2`, and the overflow of `ex2` by SAT. The codes that the manual bounds
and does not fix are free values within those bounds (log 16); of the bounds this statement says nothing. -/
def Obligations.SpecialFunctions : Prop :=
  ∀ (y : Bool) (g : BitVec 3) (d a : BitVec 7),
    Gives (.rcp y g d a) 7 d (fun _ => 1) (fun c l => [BitVec.ofNat 32 (special 0 c.f.rm (c.r32 a l))])
    ∧ Gives (.rsq y g d a) 7 d (fun _ => 1) (fun c l => [BitVec.ofNat 32 (special 1 c.f.rm (c.r32 a l))])
    ∧ Gives (.sqrt y g d a) 7 d (fun _ => 1) (fun c l => [BitVec.ofNat 32 (special 2 c.f.rm (c.r32 a l))])
    ∧ Gives (.ex2 y g d a) 7 d (fun _ => 1) (fun c l => [BitVec.ofNat 32 (special 3 c.f.rm (c.r32 a l))])
    ∧ Gives (.lg2 y g d a) 7 d (fun _ => 1) (fun c l => [BitVec.ofNat 32 (special 4 c.f.rm (c.r32 a l))])
    ∧ Gives (.sin y g d a) 7 d (fun _ => 1) (fun c l => [BitVec.ofNat 32 (special 5 c.f.rm (c.r32 a l))])
    ∧ Gives (.cos y g d a) 7 d (fun _ => 1) (fun c l => [BitVec.ofNat 32 (special 6 c.f.rm (c.r32 a l))])
    ∧ Gives (.tanh y g d a) 7 d (fun _ => 1) (fun c l => [BitVec.ofNat 32 (special 7 c.f.rm (c.r32 a l))])
    ∧ ∀ k rm x, k < 8 → SpecialOk k (rm.getLsbD 3) (f32.decode x.toNat) (special k rm x)
      ∧ SpecialExact k (f32.decode x.toNat) (special k rm x)

/-- R126 to R130: conversions between formats, packing and unpacking. -/
def Obligations.Conversions : Prop :=
  ∀ (y : Bool) (g : BitVec 3) (d a b : BitVec 7) (k2 : BitVec 2) (k3 : BitVec 3) (t k5 : BitVec 5),
    Gives (.cvti y g d a k2 t) 4 d (fun _ => convRegs t.toNat) (fun c l =>
      convWords t.toNat (match k2.toNat with
        | 0 => fromInt c 32 true t.toNat (c.r32 a l).toInt
        | 1 => fromInt c 32 false t.toNat (c.r32 a l).toNat
        | 2 => fromInt c 64 true t.toNat (c.r64 a l).toInt
        | _ => fromInt c 64 false t.toNat (c.r64 a l).toNat))
    ∧ Gives (.cvtf y g d a k2 t) 4 d (fun _ => convRegs t.toNat) (fun c l =>
      convWords t.toNat (fromFloat c t.toNat ((floatFmt k2.toNat).decode (c.r32 a l).toNat)))
    ∧ Gives (.cvtb y g d a k5 k2) 4 d (fun _ => 1) (fun c l => match fmtOf k5.toNat (c.form == 1) with
      | some f => [lo32 (fromFloat c (if k2 = 3 then 2 else 8 + k2.toNat) (f.decode (c.r32 a l).toNat))]
      | none => [])
    ∧ Gives (.cvts y g d a b) 4 d (fun _ => 1) (fun c l => match scaledBy c.form with
      | some f => [BitVec.ofNat 32 (f32.round c.f.rm (if (c.b32 b l).toNat % 256 = 255 then .nan
          else (f.decode (c.r32 a l).toNat).scale ((c.b32 b l).toNat % 256 - 127)))]
      | none => [])
    ∧ Gives (.pack y g d a b) 4 d (fun _ => 1) (fun c l => match c.form with
      | 0 => one ((c.r32 a l).toNat % 2 ^ 16 + (c.b32 b l).toNat % 2 ^ 16 * 2 ^ 16)
      | 1 => one ((c.r32 a l).toNat % 2 ^ 8 + (c.b32 b l).toNat % 2 ^ 8 * 2 ^ 8 + (c.r32 d l).toNat % 2 ^ 16 * 2 ^ 16)
      | _ => one ((c.r32 a l).toNat % 2 ^ 4 + (c.b32 b l).toNat % 2 ^ 4 * 2 ^ 4 + (c.r32 d l).toNat % 2 ^ 24 * 2 ^ 8))
    ∧ Gives (.unpk y g d a k2 k3) 4 d (fun _ => 1) (fun c l =>
      let width := if k2 = 0 then 16 else if k2 = 1 then 8 else 4
      one ((c.r32 a l).toNat / 2 ^ (k3.toNat * width) % 2 ^ width))

/-- R131, R132: `QBLK` quantises the active lanes as one block and writes its scale to `sK`; with `BP` other than 32 it takes the emulation
trap. -/
def Obligations.BlockQuantisation : Prop :=
  ∀ (y : Bool) (g : BitVec 3) (d a : BitVec 7) (k : BitVec 4) (t : BitVec 3) (s : State) (c : Ctx),
    Runs (.qblk y g d a k t) s c →
      if c.bunch = 32 then ∀ f, fmtOf (11 + t.toNat) false = some f →
        Completes (.qblk y g d a k t) s c c.after fun x z =>
          ∃ w, Writes c 6 d 1 (fun l => [laneCode c (laneBlock c a f).2 l]) x w
            ∧ z.u.get k.toNat = (laneBlock c a f).1.setWidth 32 ∧ z.v = w.v ∧ z.p = w.p ∧ z.vPoison = w.vPoison
            ∧ ∀ n, n < 64 → n ≠ k.toNat → z.u.get n = w.u.get n
      else exec (.qblk y g d a k t) s = .next (s.emulWord c)

/-- R120 to R124: compares, selection and predicate words. -/
def Obligations.ComparesAndPredicates : Prop :=
  ∀ (y : Bool) (g p q r : BitVec 3) (d a b i : BitVec 7) (cond t : BitVec 4),
    GivesPred (.icmp y g cond p a b) 2 p (fun c l =>
      if c.form = 2 then holds cond 64 (c.r64 a l) (c.b64 b l) else holds cond 32 (c.r32 a l) (c.b32 b l))
    ∧ GivesPred (.icmpi y g cond p a i) 2 p (fun c l =>
      if c.form = 2 then holds cond 64 (c.r64 a l) (BitVec.ofInt 64 (opImm c i)) else holds cond 32 (c.r32 a l) (BitVec.ofInt 32 (opImm c i)))
    ∧ GivesPred (.fcmp y g cond p a b) 2 p (fun c l =>
      let f := floatFmt c.form
      floatHolds cond (f.decode (c.r32 a l).toNat) (f.decode (c.b32 b l).toNat))
    ∧ Gives (.sel y g d a b) 2 d wideRegs (fun c l =>
      if c.form = 2 then pair (if c.r64 d l ≠ 0 then c.r64 a l else c.b64 b l) else [if c.r32 d l ≠ 0 then c.r32 a l else c.b32 b l])
    ∧ GivesPred (.plop y g p q r t) 2 p (fun c l => t.getLsbD ((c.pred r l).toNat + 2 * (c.pred q l).toNat))
    ∧ GivesPred (.pmovP y g p a) 2 p (fun c l => decide (c.r32 a l ≠ 0))
    ∧ Gives (.pmovV y g d p) 2 d (fun _ => 1) (fun c l => [if c.pred p l = true then 0xFFFFFFFF else 0])
    ∧ Gives (.pmovM y g d) 2 d (fun _ => 1) (fun c l => [bitsWhere fun k => decide (k < 7) && c.pred (BitVec.ofNat 3 k) l])
    ∧ ∀ s c, Runs (.pmovS y g a) s c → Completes (.pmovS y g a) s c c.after fun f z =>
        (∀ k l, k < 7 → l < 32 → z.pred k l = if c.act.getLsbD l = true then (c.r32 a l).getLsbD k else f.pred k l)
        ∧ z.v = f.v ∧ z.u = f.u

/-- R147 to R152: lane-crossing words act within each bunch of `BP` lanes, on the active lanes of the position. -/
def Obligations.LaneCrossing : Prop :=
  ∀ (y : Bool) (g p q o t : BitVec 3) (d a b : BitVec 7) (x : Bool),
    (∀ s c, Runs (.shfl y g d a b) s c →
      (∀ l, c.act.getLsbD l = true → l < 32 → ∀ k, k < (if 4 ≤ c.form then 2 else 1) → (c.f.lane (source c (c.b32 b l) l)).life = .live →
        c.poisonIn (a.toNat + k) (source c (c.b32 b l) l) = none) →
      Completes (.shfl y g d a b) s c c.after (Writes c 6 d (if 4 ≤ c.form then 2 else 1) fun l =>
        let from_ := source c (c.b32 b l) l
        if (c.f.lane from_).life = .live then (if 4 ≤ c.form then pair (c.r64 a from_) else [c.r32 a from_])
        else if 4 ≤ c.form then pair 0 else [0]))
    ∧ GivesPred (.voteAll y g p q) 6 p (fun c l => (mates c l).all fun k => c.pred q k)
    ∧ GivesPred (.voteAny y g p q) 6 p (fun c l => (mates c l).any fun k => c.pred q k)
    ∧ Gives (.voteBallot y g d q) 6 d (fun _ => 1) (fun c l => [bitsWhere fun k => decide (k ∈ mates c l) && c.pred q k])
    ∧ GivesPred (.voteUni y g p a) 6 p (fun c l => (mates c l).all fun k => c.r32 a k == c.r32 a l)
    ∧ Gives (.red y g d a o t) 6 d (fun _ => if t = 3 ∨ t = 4 then 2 else 1) (fun c l =>
      crossWords t (reduced c o t (((List.range c.bunch).map fun k => c.bunch * (l / c.bunch) + k).map fun k =>
        if c.act.getLsbD k = true then some (c.redRead a t k) else none)))
    ∧ Gives (.scanl y g d a o x t) 6 d (fun _ => if t = 3 ∨ t = 4 then 2 else 1) (fun c l =>
      crossWords t (chained c o t (((mates c l).filter fun k => if x then decide (k < l) else decide (k ≤ l)).map fun k => c.redRead a t k)))
    ∧ Gives (.conf y g d a) 6 d (fun _ => 1) (fun c l => [bitsWhere fun k => decide (k ∈ mates c l) && decide (k < l)
        && (if c.form = 2 then c.r64 a k == c.r64 a l else c.r32 a k == c.r32 a l)])
    ∧ Gives (.bcast y g d a) 6 d wideRegs (fun c l =>
      let first := (mates c l).headD l
      if c.form = 2 then pair (c.r64 a first) else [c.r32 a first])

end

namespace Sys2Proof.Claims
open Sys2Proof.Machine

/-! ### Words that do more to their sheaf than write results -/

/-- `i` goes on to a next state: `a` is the state in which its effect begins, with its region's stores committed if it ends one, `f` its
sheaf there, and `R` relates both to the state after and the sheaf after. -/
def Does (i : Instr) (s : State) (c : Ctx) (R : State → Sheaf → State → Sheaf → Prop) : Prop :=
  ∃ t f g, exec i s = .next t ∧ (s.committedBy c (c.shapeOf i)).sheaf c.id = some f ∧ t.sheaf c.id = some g
    ∧ R (s.committedBy c (c.shapeOf i)) f t g

/-- One of two, by a condition. -/
def When (p yes no : Prop) : Prop := (p → yes) ∧ (¬ p → no)

/-- Of a sheaf only lanes, flag parts, pops and the park differ. -/
def OnlyLanes (f g : Sheaf) : Prop :=
  g = { f with lanes := g.lanes, flagOps := g.flagOps, streams := g.streams, issued := g.issued, restored := g.restored, park := g.park }

/-- Only the sheaf and its job's mark of progress change; of the sheaf `h f` differs from the sheaf after in lanes, flag parts, pops
and the park alone, and the lanes go to the next word. -/
def Sets (c : Ctx) (h : Sheaf → Sheaf) (a : State) (f : Sheaf) (t : State) (g : Sheaf) : Prop :=
  OnlySheaf a t c.id c.unit.job ∧ OnlyLanes (h f) g ∧ LanesGo f g c c.after

/-- Where active lanes go, the others going to the next word (R70, R134). -/
def jump (c : Ctx) (target : Nat → DWord) : Nat → DWord := fun l => if c.act.getLsbD l = true then target l else c.pc + 4

/-- A branch target: the word's own address and four times the signed offset (R133, R134). -/
def toOff (c : Ctx) (i : BitVec 7) : DWord := c.pc + BitVec.ofInt 64 (4 * opImm c i)

/-- A register number of `RDX` or `WRX` that is one (R158): below 128, a thread register that the unit has, and for a write none above
120. -/
def numberOk (c : Ctx) (write : Bool) (n : Word) : Bool :=
  decide (n.toNat < 128 ∧ (n.toNat < 104 → n.toNat < c.unit.lrec.nv)) && (!write || decide (n.toNat ≤ 120))

/-- What a sheaf register holds, by the selectors of R159; the uniform registers stand apart. -/
def sheafReg (f : Sheaf) (sel : Nat) : Option Word :=
  if 64 ≤ sel ∧ sel ≤ 66 then some (f.lc.get (sel - 64))
  else if sel = 67 then some f.bp
  else if sel = 68 then some f.rm
  else if sel = 69 then some f.clr
  else if sel = 70 then some f.bndc
  else if sel = 71 then some f.emw
  else if sel = 72 then some f.emg
  else if sel = 73 then some f.emd
  else if sel = 74 then some f.ema
  else if sel = 75 then some f.emb
  else if sel = 76 then some (BitVec.ofNat 32 f.empc.toNat)
  else if sel = 77 then some (BitVec.ofNat 32 (f.empc.toNat / 2 ^ 32 % 2 ^ 25))
  else none

/-- What a write to a sheaf register does, reserved bits written as zero; `none` where it takes the emulation trap (R56, R88, R159). -/
def sheafRegSet (f : Sheaf) (sel : Nat) (v : Word) : Option Sheaf :=
  if 64 ≤ sel ∧ sel ≤ 66 then some { f with lc := f.lc.set (sel - 64) v }
  else if sel = 67 then
    (if v.toNat % 64 ∈ [2, 4, 8, 16, 32] then some { f with bp := BitVec.ofNat 32 (v.toNat % 64) } else none)
  else if sel = 68 then (if v.toNat % 8 < 5 then some { f with rm := BitVec.ofNat 32 (v.toNat % 16) } else none)
  else if sel = 69 then some { f with clr := BitVec.ofNat 32 (v.toNat % 8) }
  else if sel = 76 then some { f with empc := BitVec.ofNat 64 (f.empc.toNat / 2 ^ 32 * 2 ^ 32 + v.toNat) }
  else if sel = 77 then some { f with empc := BitVec.ofNat 64 (v.toNat % 2 ^ 25 * 2 ^ 32 + f.empc.toNat % 2 ^ 32) }
  else none

/-- The position holds every lane that a `LOOP` or `ENDL` must hold: each live lane that is in no handler (R84, R143). -/
def holdsAll (c : Ctx) : Prop :=
  ∀ l, l < 32 → (c.f.lane l).life = .live → (c.f.lane l).handler = false → c.lanes.getLsbD l = true

/-- Beside the sheaf and its job's progress, only the record of resident loop bodies differs, which changes no result (R145). -/
def OnlyLoops (c : Ctx) (a t : State) : Prop :=
  (∀ k, k ≠ c.id → t.sheaf k = a.sheaf k)
  ∧ (∀ j, t.job j = if j = c.unit.job then (a.job j).map (fun x => { x with progressed := true }) else a.job j)
  ∧ (∀ k, t.core k = { a.core k with loops := (t.core k).loops })
  ∧ t = { a with sheaves := t.sheaves, jobs := t.jobs, cores := t.cores, fresh := t.fresh, free := t.free }

/-- A loop word leaves counter `n` at a value and its lanes at an address. -/
def Loops (c : Ctx) (n : Nat) (count : Word) (target : DWord) (a : State) (f : Sheaf) (t : State) (g : Sheaf) : Prop :=
  OnlyLoops c a t ∧ OnlyLanes { f with lc := g.lc } g ∧ (∀ k, g.lc.get k = if k = n then count else f.lc.get k)
    ∧ LanesGo f g c fun _ => target

/-- The wait of a lane on a flag is over: no part of a word that raised it is the lane's, now or when the previous cycle ended (R80). -/
def waitOver (f : Sheaf) (n l : Nat) : Bool :=
  f.laneFlag n l == 0 && f.flagsBefore.all fun o => o.flag != n || !o.lanes.getLsbD l

end Sys2Proof.Claims

section
open Sys2Proof Sys2Proof.Machine Sys2Proof.Claims

/-- R72, R74, R75: a hint attaches to its lanes and they go on; a second `LIMM` before the first is used up takes the emulation trap, and a
second `XMOD` makes the word they attach to take it. -/
def Obligations.HintsAttach : Prop :=
  ∀ (s : State) (c : Ctx),
    (∀ w p q r t, RunsHint (.sched w p q r t) s c → ∃ z f g, exec (.sched w p q r t) s = .next z ∧ s.sheaf c.id = some f
      ∧ z.sheaf c.id = some g ∧ OnlySheaf s z c.id c.unit.job ∧ g = { f with lanes := g.lanes, issued := true }
      ∧ ∀ l, l < 32 → g.lane l = if c.lanes.getLsbD l = true
        then { f.lane l with pc := c.pc + 4, pass := 0, sched := some ⟨[p.toNat, q.toNat, r.toNat, t.toNat], w⟩ } else f.lane l)
    ∧ (∀ i, RunsHint (.limm i) s c →
      When (∀ l, l < 32 → c.lanes.getLsbD l = true → (c.f.lane l).limm = none)
        (∃ z f g, exec (.limm i) s = .next z ∧ s.sheaf c.id = some f ∧ z.sheaf c.id = some g ∧ OnlySheaf s z c.id c.unit.job
          ∧ g = { f with lanes := g.lanes, issued := true }
          ∧ ∀ l, l < 32 → c.lanes.getLsbD l = true → (f.lane l).limm = none →
            g.lane l = { f.lane l with pc := c.pc + 4, pass := 0, limm := some i })
        (exec (.limm i) s = .next (s.emulWord c)))
    ∧ (∀ f' k v o p m, RunsHint (.xmod f' k v o p m) s c → ∃ z f g, exec (.xmod f' k v o p m) s = .next z ∧ s.sheaf c.id = some f
      ∧ z.sheaf c.id = some g ∧ OnlySheaf s z c.id c.unit.job ∧ g = { f with lanes := g.lanes, issued := true }
      ∧ ∀ l, l < 32 → g.lane l = if c.lanes.getLsbD l = true
        then { f.lane l with pc := c.pc + 4, pass := 0, xmod := some ⟨f', k, v, o, p, m, (f.lane l).xmod.isSome⟩ } else f.lane l)

/-- R158: registers reached by number; a number that names none, in any active lane, takes the emulation trap and changes nothing. -/
def Obligations.NumberedRegisters : Prop :=
  ∀ (y : Bool) (g : BitVec 3) (d a b : BitVec 7) (s : State) (c : Ctx),
    (Runs (.rdx y g d a) s c →
      When (∀ l, c.act.getLsbD l = true → numberOk c false (c.r32 a l) = true)
        ((∀ l, c.act.getLsbD l = true → c.poisonIn (c.r32 a l).toNat l = none) →
          Completes (.rdx y g d a) s c c.after (Writes c 4 d 1 fun l => [c.reg (c.r32 a l).toNat l]))
        (exec (.rdx y g d a) s = .next (s.emulWord c)))
    ∧ (Runs (.wrx y g a b) s c →
      When (∀ l, c.act.getLsbD l = true → numberOk c true (c.r32 a l) = true)
        (Completes (.wrx y g a b) s c c.after fun f z =>
          (∀ r l, r < 104 → l < 32 → z.v.get (vKey r l) =
            if c.act.getLsbD l = true ∧ (c.r32 a l).toNat = r then c.b32 b l else f.v.get (vKey r l))
          ∧ (∀ k, k < 16 → z.u.get k = match (c.actLanes.filter fun l => (c.r32 a l).toNat == 104 + k).head? with
            | some l => c.b32 b l
            | none => f.u.get k)
          ∧ z.p = f.p)
        (exec (.wrx y g a b) s = .next (s.emulWord c)))

/-- R159, with R56 and R88: sheaf registers by selector.

R160: the cycle and nanosecond counts, as pairs. That nanoseconds are 1000/2900 of the ticks is the model's choice (log 11). -/
def Obligations.SheafRegisterAndClockReads : Prop :=
  (∀ (y : Bool) (g : BitVec 3) (d a sel : BitVec 7) (s : State) (c : Ctx),
      (Runs (.movsRd y g d sel) s c →
        if sel.toNat < 64 then c.f.settlePoison c.now c.free (uKey sel.toNat) = none → Completes (.movsRd y g d sel) s c c.after
          (Writes c 4 d 1 fun _ => [c.f.settle c.now c.free (uKey sel.toNat) (c.f.u.get sel.toNat)])
        else match sheafReg c.f sel.toNat with
          | some v => Completes (.movsRd y g d sel) s c c.after (Writes c 4 d 1 fun _ => [v])
          | none => exec (.movsRd y g d sel) s = .next (s.emulWord c))
      ∧ (Runs (.movsWr y g sel a) s c →
        if sel.toNat < 64 then Completes (.movsWr y g sel a) s c c.after fun f z =>
          (∀ k, z.u.get k = if k = sel.toNat then c.low32 a else f.u.get k) ∧ z.v = f.v ∧ z.p = f.p
            ∧ ⟨uKey sel.toNat, f.u.get sel.toNat, c.now + 4, f.uPoison.get sel.toNat⟩ ∈ z.pending
        else if (sheafRegSet c.f sel.toNat (c.low32 a)).isSome then Does (.movsWr y g sel a) s c fun p f t z =>
          ∃ h, sheafRegSet f sel.toNat (c.low32 a) = some h ∧ Sets c (fun _ => h) p f t z
        else exec (.movsWr y g sel a) s = .next (s.emulWord c))) ∧
  (∀ (y : Bool) (g : BitVec 3) (d : BitVec 7) (s : State) (c : Ctx),
      (Runs (.rdclkCyc y g d) s c → Completes (.rdclkCyc y g d) s c c.after
        (Writes c 4 d 2 fun _ => pair (BitVec.ofNat 64 (s.die (c.core / 48)).cycle)))
      ∧ (Runs (.rdclkNs y g d) s c → Completes (.rdclkNs y g d) s c c.after
        (Writes c 4 d 2 fun _ => pair (BitVec.ofNat 64 (s.ticks * 1000 / 2900)))))

/-- R137, with R80: each active lane whose own count of the flag is zero, and was when the previous cycle ended, goes on; the other active
lanes stay at the word, held.

R140, R142, R143: a join that issues only advances; loop words move their counter and branch, and trap where they do not hold every
live lane that is in no handler. That lanes in a handler are not asked for is the model's reading (log 21), and that the trap is taken at once
where no absent lane is coming is its choice (log 77). -/
def Obligations.JoinsLoopsAndWaits : Prop :=
  (∀ (y : Bool) (g : BitVec 3) (n : BitVec 4) (s : State) (c : Ctx), Runs (.lwait y g n) s c →
      Does (.lwait y g n) s c fun a f t z => OnlySheaf a t c.id c.unit.job ∧ OnlyLanes f z ∧ ∀ l, l < 32 →
        if c.lanes.getLsbD l = false then z.lane l = f.lane l
        else if c.act.getLsbD l = true ∧ waitOver c.f n.toNat l = false then
          (z.lane l).pc = c.pc ∧ (z.lane l).hold = .lwait n.toNat ∧ (z.lane l).life = (f.lane l).life
        else (z.lane l).pc = c.pc + 4 ∧ (z.lane l).hold = (f.lane l).hold ∧ (z.lane l).life = (f.lane l).life) ∧
  (∀ (y : Bool) (g : BitVec 3) (n : BitVec 2) (a i : BitVec 7) (s : State) (c : Ctx),
      (Runs (.join y g) s c → Completes (.join y g) s c c.after WritesNothing)
      ∧ (Runs (.joinM y g a) s c → Completes (.joinM y g a) s c c.after WritesNothing)
      ∧ (Runs (.loop y n a i) s c →
        let dist : Nat := (c.limm.map BitVec.toNat).getD i.toNat
        When (holdsAll c ∧ dist ≠ 0)
          (Does (.loop y n a i) s c (Loops c n.toNat (c.low32 a)
            (if c.low32 a = 0 then c.pc + BitVec.ofNat 64 (4 * (dist + 1)) else c.pc + 4)))
          (exec (.loop y n a i) s = .next (s.emulWord c)))
      ∧ (Runs (.endl y n i) s c →
        let count := c.f.lc.get n.toNat
        When (holdsAll c ∧ opImm c i < 0)
          ((∀ f, (s.committedBy c (c.shapeOf (.endl y n i))).sheaf c.id = some f → f.lc.get n.toNat = count) →
            Does (.endl y n i) s c (Loops c n.toNat (if count = 0 then 0 else count - 1)
              (if count.toNat ≤ 1 then c.pc + 4 else toOff c i)))
          (exec (.endl y n i) s = .next (s.emulWord c))))

/-- R134, R135: branches, calls and returns. Where an active lane's target of `RET` or `BRX` has bits [63:57] or [1:0] set, the word takes the
emulation trap.

R156, R157: `EXIT` parks its sheaf and holds its active lanes until the park's end, at which they exit (`ParksEnd`); `ERET` parks the
sheaf, takes its lanes out of the handler and on to the word after `EMPC`, and takes the emulation trap where one of them is in none. -/
def Obligations.BranchesCallsExitsReturns : Prop :=
  (∀ (y : Bool) (g : BitVec 3) (d a b i : BitVec 7) (s : State) (c : Ctx),
      (Runs (.bra y g i) s c → Completes (.bra y g i) s c (jump c fun _ => toOff c i) WritesNothing)
      ∧ (Runs (.call y g d i) s c →
        Completes (.call y g d i) s c (jump c fun _ => toOff c i) (Writes c 2 d 2 fun _ => pair (c.pc + 4)))
      ∧ (Runs (.ret y g a) s c →
        When (∀ l, c.act.getLsbD l = true → (c.r64 a l).toNat < 2 ^ 57 ∧ (c.r64 a l).toNat % 4 = 0)
          (Completes (.ret y g a) s c (jump c fun l => c.r64 a l) WritesNothing)
          (exec (.ret y g a) s = .next (s.emulWord c)))
      ∧ (Runs (.brx y g a b) s c →
        let target (l : Nat) : DWord := c.r64 a l + BitVec.ofInt 64 (4 * (c.b32 b l).toInt)
        When (∀ l, c.act.getLsbD l = true → (target l).toNat < 2 ^ 57 ∧ (target l).toNat % 4 = 0)
          (Completes (.brx y g a b) s c (jump c target) WritesNothing)
          (exec (.brx y g a b) s = .next (s.emulWord c)))) ∧
  (∀ (g : BitVec 3) (s : State) (c : Ctx),
      (Runs (.exit g) s c → Does (.exit g) s c fun a f t z => OnlySheaf a t c.id c.unit.job ∧ OnlyLanes f z
        ∧ z.park = some ⟨(f.park.getD {}).lanes ||| c.lanes, (f.park.getD {}).late⟩
        ∧ (∀ l, l < 32 → if c.lanes.getLsbD l = true then (z.lane l).pc = c.pc + 4 ∧ (z.lane l).life = (f.lane l).life
              ∧ (z.lane l).hold = (if c.act.getLsbD l = true then .exit else (f.lane l).hold)
            else z.lane l = f.lane l))
      ∧ (Runs (.eret g) s c →
        When (∀ l, c.act.getLsbD l = true → (c.f.lane l).handler = true)
          (Does (.eret g) s c fun a f t z => OnlySheaf a t c.id c.unit.job ∧ OnlyLanes f z
            ∧ z.park = some ⟨(f.park.getD {}).lanes ||| c.lanes, (f.park.getD {}).late⟩
            ∧ ∀ l, l < 32 → if c.act.getLsbD l = true then (z.lane l).pc = c.f.empc + 4 ∧ (z.lane l).handler = false
              else if c.lanes.getLsbD l = true then (z.lane l).pc = c.pc + 4 ∧ (z.lane l).handler = (f.lane l).handler
              else z.lane l = f.lane l)
          (exec (.eret g) s = .next (s.emulWord c))))

end

namespace Sys2Proof.Claims
open Sys2Proof.Machine

/-! ### Memory words -/

/-- The word takes a trap of the record given, with no register written. -/
def TakesTrap (i : Instr) (s : State) (c : Ctx) (r : TrapRec) : Prop :=
  ∃ q f z, exec i s = .next (s.trapWord q c r) ∧ (s.committedBy c (c.shapeOf i)).sheaf c.id = some f ∧ q.sheaf c.id = some z
    ∧ OnlySheaf (s.committedBy c (c.shapeOf i)) q c.id c.unit.job ∧ OnlyLanes f z

/-- The effective address of a lane (R178). -/
def address (c : Ctx) (m : BitVec 3) (a : BitVec 7) (l : Nat) : DWord :=
  let off : Int := (c.limm.map BitVec.toInt).getD 0
  if m.toNat % 4 = 3 then BitVec.ofInt 64 ((c.r64 a l).toNat + off)
  else if m.toNat % 4 = 2 then BitVec.ofInt 64 ((c.r64 104 l).toNat + (c.r32 a l).toNat + off)
  else BitVec.ofInt 64 ((c.r32 a l).toNat + off)

/-- The spaces by MOD [1:0] (R178). -/
def spaceBy (m : BitVec 3) : Space :=
  if m.toNat % 4 = 0 then .sp else if m.toNat % 4 = 1 then .pv else if m.toNat % 4 = 2 then .g else .ga

/-- The checks of R179 before translation, in their order: the cause of the first that fails. -/
def addressFault (u : UnitSt) (m : BitVec 3) (ea : DWord) (size : Nat) : Option Nat :=
  if 2 ≤ m.toNat % 4 ∧ 2 ^ 57 ≤ ea.toNat then some 3
  else if ea.toNat % size ≠ 0 then some 2
  else if m.toNat % 4 = 0 ∧ u.lrec.win < ea.toNat + size then some 0
  else if m.toNat % 4 = 1 ∧ u.lrec.priv < ea.toNat + size then some 0
  else none

/-- The size of an access by FORM and MOD [2] (R180). -/
def accessSize (c : Ctx) (m : BitVec 3) : Nat :=
  if m.toNat / 4 = 1 then 8 else if c.form = 1 ∨ c.form = 2 then 1 else if c.form = 3 ∨ c.form = 4 then 2 else 4
def accessRegs (c : Ctx) (m : BitVec 3) : Nat := if accessSize c m = 8 then 2 else 1
def accessSigned (c : Ctx) (m : BitVec 3) : Bool := m.toNat / 4 = 0 && (c.form = 2 || c.form = 4)

/-- The scope of an ordering word (R188): unit 4 by default for the window, lane 1 for private memory, system 8 elsewhere. -/
def scopeOf (c : Ctx) (m : BitVec 3) : Nat :=
  if c.x.scope.toNat ≠ 0 then c.x.scope.toNat else if m.toNat % 4 = 0 then 4 else if m.toNat % 4 = 1 then 1 else 8

/-- The destination field as a lane sees it: of a uniform one only the lowest active lane's result is kept (R68). -/
def dstSeen (c : Ctx) (d : BitVec 7) (l : Nat) : BitVec 7 := if d.toNat < 104 ∨ l = lowLaneOf c.act then d else 120

/-- A fixed-latency result of a register is still on its way at a time: what lands before it does not stay (R78). -/
def lateAt (f : Sheaf) (now key : Nat) : Bool := f.pending.any fun p => p.key == key && decide (now < p.ready)

/-- The word is held while a condition that its active lanes have met is serviced: its lanes await the service, and wait for no page any
more. -/
def AwaitsService (i : Instr) (s : State) (c : Ctx) (q : Poison) : Prop :=
  exec i s = .next (s.updSheaf c.id fun f =>
    { (f.updLanes c.lanes fun _ x => { x with asked := none }) with
      awaiting := f.awaiting ++ [⟨c.lanes, q, .reported, true, c.actLanes.map fun l => (l, q)⟩] })

/-- A condition that a word meets before its issue: the word awaits its service, or, where a lane's earlier request was declined, takes the
lane-fault trap with what was declined (R195, R196). -/
def Served (i : Instr) (s : State) (c : Ctx) (q : Poison) : Prop :=
  (c.actLanes.findSome? (c.declined s) = none → AwaitsService i s c q)
  ∧ ∀ x, c.actLanes.findSome? (c.declined s) = some x → TakesTrap i s c (laneTrap .lane c.word c.pc c.act c.act x.cause x.addr)

/-- Of a sheaf, what a load leaves changed. -/
def OnlyLoads (f g : Sheaf) : Prop :=
  g = { f with lanes := g.lanes, flagOps := g.flagOps, streams := g.streams, issued := g.issued, restored := g.restored, park := g.park
               outstanding := g.outstanding, vPoison := g.vPoison, uPoison := g.uPoison, pending := g.pending }

/-- What a key's results on their way come to when poison lands under them: the oldest has it before it (R78, R195). -/
def spoilUnder (p : Poison) : List Pending → List Pending
  | [] => []
  | [q] => [{ q with poison := some p }]
  | q :: rest => q :: spoilUnder p rest

/-- Poison lands, or does not, in a register that held `was` and holds `is` after: a fixed-latency result on its way keeps the register, the
poison standing before it (R78, R195). -/
def SpoiltAt (f g : Sheaf) (now key : Nat) (was is x : Option Poison) : Prop :=
  is = (if lateAt f now key = false then x.or was else was)
  ∧ g.pending.filter (·.key == key) = match x with
    | some p => if lateAt f now key = true then spoilUnder p (f.pending.filter (·.key == key)) else f.pending.filter (·.key == key)
    | none => f.pending.filter (·.key == key)

/-- A load of `n` registers issues: an active lane whose address passes the checks of R179 waits for its reply, its part of the flag raised;
a lane whose address fails one receives poison with the cause in all of its destination, before a fixed-latency result that lands later;
nothing else comes to wait. The lanes are not in stepped replay. -/
def Loads (i : Instr) (m : BitVec 3) (d a : BitVec 7) (size n : Ctx → Nat) (signed : Ctx → Bool) (acquire : Ctx → Nat) : Prop :=
  ∀ s c, Runs i s c → c.isStepped = false → Does i s c fun p f t z =>
    let fault (l : Nat) : Option Nat := addressFault c.unit m (address c m a l) (size c)
    let part (l : Nat) : Outstanding :=
      { id := 32 * c.op + l, lane := l, kind := .load, space := spaceBy m, ea := address c m a l, size := size c, signed := signed c,
        dst := dstSeen c d l, regs := n c, op := c.op, acquire := acquire c, cp := c.x.cp.toNat, pc := c.pc, region := (c.f.lane l).syncRegion }
    let mark (l : Nat) (k : Nat) : Poison := ⟨.unserviceable, k, address c m a l, []⟩
    OnlySheaf p t c.id c.unit.job ∧ OnlyLoads f z ∧ LanesGo f z c c.after
    ∧ (∀ l, l < 32 → c.act.getLsbD l = true → fault l = none → part l ∈ z.outstanding
        ∧ (c.flag < 12 → z.laneFlag c.flag l = f.laneFlag c.flag l + 1))
    ∧ (∀ o ∈ z.outstanding, o ∈ f.outstanding ∨ ∃ l, l < 32 ∧ c.act.getLsbD l = true ∧ fault l = none ∧ o = part l)
    ∧ (∀ o ∈ f.outstanding, o.id / 32 ≠ c.op → o ∈ z.outstanding)
    ∧ (∀ r l, r < 104 → l < 32 → SpoiltAt f z c.now (vKey r l) (f.vPoison.get (vKey r l)) (z.vPoison.get (vKey r l))
        (if c.act.getLsbD l = true ∧ d.toNat ≤ r ∧ r < d.toNat + n c then (fault l).map (mark l) else none))
    ∧ (104 ≤ d.toNat → ∀ k, k < 16 → SpoiltAt f z c.now (uKey k) (f.uPoison.get k) (z.uPoison.get k)
        (if d.toNat ≤ 104 + k ∧ 104 + k < d.toNat + n c then (fault (lowLaneOf c.act)).map (mark (lowLaneOf c.act)) else none))

/-- A store word outside stepped replay takes one entry of the sheaf's store queue with every active lane's address and bytes; memory is
not written (R182). -/
def Stores (i : Instr) (m : BitVec 3) (a : BitVec 7) (bytes : Ctx → Nat → List Byte) : Prop :=
  ∀ s c, Runs i s c → c.isStepped = false → ∀ f0, s.sheaf c.id = some f0 →
    (f0.storeQueue.length < 64 → Does i s c fun p f t z =>
      OnlySheaf p t c.id c.unit.job ∧ LanesGo f z c c.after
      ∧ OnlyLanes { f with storeQueue := f.storeQueue ++ [{
          id := c.op, space := spaceBy m, pc := c.pc, cp := c.x.cp.toNat, colour := if c.x.cv then c.x.colour.toNat else c.f.clr.toNat % 8
          parts := c.actLanes.map fun l =>
            { lane := l, ea := address c m a l, bytes := bytes c l, region := (c.f.lane l).syncRegion
              fault := (c.declined s l).or
                ((addressFault c.unit m (address c m a l) (bytes c l).length).map fun k => ⟨.unserviceable, k, address c m a l, []⟩) } }] } z)
    ∧ (64 ≤ f0.storeQueue.length →
        (∀ e ∈ f0.storeQueue, ∀ x ∈ e.parts, x.lane < 32 → c.lanes.getLsbD x.lane = true) → exec i s = .next s)

/-- The little-endian bytes of a value (R2). -/
def littleEndian (n x : Nat) : List Byte := (List.range n).map fun j => BitVec.ofNat 8 (x / 256 ^ j)

/-- Bytes that go to memory at keys; a target that is no longer there, or does not hold them, takes nothing. -/
def memTakes (s : State) (f : Sheaf) (keys : List Nat) (bytes : List Byte) : List (Nat × Byte) :=
  if (s.targetFault [(s.unitOf f).job] (keys.headD 0) bytes.length 0).isSome then [] else keys.zip bytes

/-- The bytes that the queued stores of lanes will write to memory, in the order in which they are performed: by entry, and in an entry by
lane; each at its key. The pushes to a stream over memory are written too. -/
def memWrites (s : State) (f : Sheaf) (m : Mask) : List (Nat × Byte) :=
  f.storeQueue.flatMap fun e => (e.parts.filter fun p => m.getLsbD p.lane).flatMap fun p =>
    match e.stream, e.space, p.phys with
    | none, .pv, some key | none, .g, some key | none, .ga, some key =>
      memTakes s f (s.keysOf f e.space p.lane p.ea p.bytes.length key) p.bytes
    | some q, _, some key =>
      if (f.streams.get q).sp then [] else memTakes s f ((List.range p.bytes.length).map fun j => key + j) p.bytes
    | _, _, _ => []
/-- The same for the window. -/
def winWrites (f : Sheaf) (m : Mask) : List (Nat × Byte) :=
  f.storeQueue.flatMap fun e => (e.parts.filter fun p => m.getLsbD p.lane).flatMap fun p =>
    match e.stream, e.space, p.phys with
    | none, .sp, _ => ((List.range p.bytes.length).map fun j => p.ea.toNat + j).zip p.bytes
    | some q, _, some key => if (f.streams.get q).sp then ((List.range p.bytes.length).map fun j => key + j).zip p.bytes else []
    | _, _, _ => []
/-- The last byte written to a place, or what it held. -/
def lastOf (w : List (Nat × Byte)) (k : Nat) (old : Byte) : Byte := ((w.reverse.find? fun c => c.1 == k).map Prod.snd).getD old

/-- A byte that a load of a lane takes from the lane's own queued stores: of the youngest entry of an earlier word that holds one. -/
def forwarded (s : State) (f : Sheaf) (lane before : Nat) (place : Bool × Nat) : Option Byte :=
  f.storeQueue.reverse.findSome? fun e => if e.id < before ∧ e.stream = none
    then (e.parts.filter fun p => p.lane == lane).findSome? fun p =>
      (((s.places f e.space lane p.ea p.bytes.length).zip p.bytes).find? fun b => b.1 == place).map Prod.snd
    else none

/-- What a key's results on their way come to when a value lands under them: the oldest has it before it (R78). -/
def underThem (x : Word) : List Pending → List Pending
  | [] => []
  | [q] => [{ q with old := x, poison := none }]
  | q :: rest => q :: underThem x rest

/-- A lane's outstanding part comes home: its words are written now, its part of the flag falls, and it waits no more. A register with a
fixed-latency result on its way keeps that, the word standing before it (R78). -/
def Lands (id : Nat) (o : Outstanding) (words : List Word) (s : State) (f : Sheaf) (t : State) : Prop :=
  ∃ z, t.sheaf id = some z ∧ (∀ k, k ≠ id → t.sheaf k = s.sheaf k)
    ∧ z = { f with v := z.v, vPoison := z.vPoison, u := z.u, uPoison := z.uPoison, pending := z.pending
                   outstanding := f.outstanding.filter fun x => x.id != o.id, flagOps := z.flagOps }
    ∧ (let goes (r l : Nat) : Prop := l = o.lane ∧ o.dst.toNat ≤ r ∧ r < o.dst.toNat + words.length
       let late (key : Nat) : Prop := lateAt f (s.now f) key = true
       (∀ r l, r < 104 → l < 32 → let k := vKey r l
          (goes r l → late k → z.v.get k = f.v.get k ∧ z.vPoison.get k = f.vPoison.get k
            ∧ z.pending.filter (·.key == k) = underThem (words.getD (r - o.dst.toNat) 0) (f.pending.filter (·.key == k)))
          ∧ (goes r l → ¬ late k → z.v.get k = words.getD (r - o.dst.toNat) 0 ∧ z.vPoison.get k = none)
          ∧ (¬ goes r l → z.v.get k = f.v.get k ∧ z.vPoison.get k = f.vPoison.get k)
          ∧ (¬ (goes r l ∧ late k) → z.pending.filter (·.key == k) = f.pending.filter (·.key == k)))
       ∧ ∀ n, n < 64 → let k := uKey n
          let goesU : Prop := n < 16 ∧ o.dst.toNat ≤ 104 + n ∧ 104 + n < o.dst.toNat + words.length
          (goesU → late k → z.u.get n = f.u.get n ∧ z.uPoison.get n = f.uPoison.get n
            ∧ z.pending.filter (·.key == k) = underThem (words.getD (104 + n - o.dst.toNat) 0) (f.pending.filter (·.key == k)))
          ∧ (goesU → ¬ late k → z.u.get n = words.getD (104 + n - o.dst.toNat) 0 ∧ z.uPoison.get n = none)
          ∧ (¬ goesU → z.u.get n = f.u.get n ∧ z.uPoison.get n = f.uPoison.get n)
          ∧ (¬ (goesU ∧ late k) → z.pending.filter (·.key == k) = f.pending.filter (·.key == k)))
    ∧ (∀ w ∈ z.flagOps, w.id = o.op → w.lanes.getLsbD o.lane = false)
    ∧ (∀ n l, l < 32 → l ≠ o.lane → z.laneFlag n l = f.laneFlag n l)

/-- The register words of loaded bytes: a narrow value extended by its type, a wide one in several registers (R180, R181). -/
def wordsOf (size : Nat) (signed : Bool) (x : Nat) : List Word :=
  if size < 4 then (if signed ∧ 2 ^ (8 * size - 1) ≤ x then one (x - 2 ^ (8 * size) : Int) else one x)
  else (List.range ((size + 3) / 4)).map fun j => BitVec.ofNat 32 (x / 2 ^ (32 * j))

/-- The value of bytes, least significant first. -/
def valueOf : List Byte → Nat
  | [] => 0
  | b :: rest => b.toNat + 256 * valueOf rest

/-- What an atomic word makes of an old value and its operand `x`, by opcode and FORM (R193); `y` is the new value of a `CAS`. -/
def atomicNew (op form w : Nat) (rm : Word) (old x y : Nat) : Nat :=
  let sgn (v : Nat) : Int := if 2 ^ (w - 1) ≤ v then v - 2 ^ w else v
  if op = 0x6C then
    (if form = 0 then (old + x) % 2 ^ w
     else if form = 1 then old &&& x
     else if form = 2 then old ||| x
     else if form = 3 then old ^^^ x
     else if form = 4 then x
     else if form = 5 then (if sgn x < sgn old then x else old)
     else if form = 6 then (if sgn old < sgn x then x else old)
     else if form = 7 then min old x
     else max old x)
  else if op = 0x6D then (if old = x then y else old)
  else if op = 0x6E then
    (let sum (f : Fmt) (a b : Nat) : Nat := rounded f rm [f.decode a, f.decode b]
     let halves (f : Fmt) : Nat := sum f (old / 65536) (x / 65536) * 65536 + sum f (old % 65536) (x % 65536)
     if form = 0 then sum f32 old x
     else if form = 1 then f32.minMax false old x
     else if form = 2 then f32.minMax true old x
     else if form = 3 then halves bf16 else halves f16)
  else x

/-- The window after lanes have performed a read-modify-write one after the other, and the value that each found. -/
def inTurn (size : Nat) (ea : Nat → Nat) (new : Nat → Nat → Nat) : List Nat → UnitSt → List (Nat × Nat) × UnitSt
  | [], u => ([], u)
  | l :: rest, u =>
    let old := valueOf ((List.range size).map fun j => u.winByte (ea l + j))
    let r := inTurn size ea new rest (u.winWrite (ea l) (littleEndian size (new l old)))
    ((l, old) :: r.1, r.2)

/-- An atomic word at the window (R192, R193): its active lanes are performed in ascending order, and with a flag each old value is on its way
to the destination. -/
def Atomics (i : Instr) (op : Nat) (wide returns : Bool) (m : BitVec 3) (d a : BitVec 7) : Prop :=
  ∀ s c f u, Runs i s c → (s.committedBy c (c.shapeOf i)).sheaf c.id = some f
    → (s.committedBy c (c.shapeOf i)).unit f.unit = some u → (s.committedBy c (c.shapeOf i)).windowWatched f = false → m.toNat % 4 = 0
    → (∀ l, c.act.getLsbD l = true → addressFault c.unit m (address c m a l) (if wide then 8 else 4) = none ∧ c.declined s l = none
        ∧ ∀ j, j < (if wide then 8 else 4) → u.badByte ((address c m a l).toNat + j) = false)
    → Does i s c fun p f t z =>
      let size := if wide then 8 else 4
      let new (l old : Nat) : Nat := atomicNew op c.form (8 * size) c.f.rm old (if wide then (c.r64 d l).toNat else (c.r32 d l).toNat)
        (if wide then (pair64 (c.reg (d.toNat + 2) l) (c.reg (d.toNat + 3) l)).toNat
          else if d = 120 then 0 else (c.reg (d.toNat + 1) l).toNat)
      let r := inTurn size (fun l => (address c m a l).toNat) new c.actLanes u
      t.unit f.unit = some r.2
      ∧ (∀ k, k ≠ f.unit → t.unit k = p.unit k) ∧ (∀ k, k ≠ c.id → t.sheaf k = p.sheaf k)
      ∧ t = { p with sheaves := t.sheaves, units := t.units, jobs := t.jobs, cores := t.cores, fresh := t.fresh, free := t.free }
      ∧ (∀ k, t.core k = { p.core k with cache := (t.core k).cache })
      ∧ z = { f with lanes := z.lanes, flagOps := z.flagOps, streams := z.streams, issued := z.issued, restored := z.restored, park := z.park
                     outstanding := z.outstanding }
      ∧ z.outstanding = f.outstanding ++ (if returns = true ∧ c.flag ≠ 15 then r.1.map fun x =>
          { id := 32 * c.op + x.1, lane := x.1, kind := .value (wordsOf size false x.2), space := .sp, ea := address c m a x.1
            size := size, dst := dstSeen c d x.1, regs := size / 4, op := c.op, acquire := scopeOf c m, request := p.requests, pc := c.pc, inRegion := false }
        else [])
      ∧ LanesGo f z c c.after

end Sys2Proof.Claims

section
open Sys2Proof Sys2Proof.Machine Sys2Proof.Claims

/-- R178 to R181 and R189: loads issue. -/
def Obligations.LoadsIssue : Prop :=
  ∀ (y : Bool) (g : BitVec 3) (d a : BitVec 7) (f : BitVec 4) (m : BitVec 3),
    Loads (.ld y g d a f m) m d a (accessSize · m) (accessRegs · m) (accessSigned · m) (fun _ => 0)
    ∧ Loads (.ldv y g d a f m) m d a (fun _ => 16) (fun _ => 4) (fun _ => false) (fun _ => 0)
    ∧ Loads (.lds y g d a f m) m d a (accessSize · m) (accessRegs · m) (accessSigned · m) (scopeOf · m)

/-- R182, R184: store words wait in the store queue; `STQ` converts at issue. A store word that finds the queue full and no other position in
it is held. -/
def Obligations.StoresQueue : Prop :=
  ∀ (y : Bool) (g : BitVec 3) (d a : BitVec 7) (f : BitVec 4) (m : BitVec 3),
    Stores (.st y g d a m) m a (fun c l =>
      littleEndian (accessSize c m) (if accessSize c m = 8 then (c.r64 d l).toNat else (c.r32 d l).toNat))
    ∧ Stores (.stv y g d a m) m a (fun c l => (List.range 16).map fun j =>
      BitVec.ofNat 8 ((c.reg (d.toNat + j / 4) l).toNat / 256 ^ (j % 4)))
    ∧ Stores (.stq y g d a f m) m a (fun c l =>
      let fmt : Fmt := match c.form with
        | 0 => bf16
        | 1 => f16
        | 2 => e4m3
        | 3 => e5m2
        | k => b8p (k - 3) (m.toNat / 4 = 1)
      littleEndian (if c.form ≤ 1 then 2 else 1) (fmt.round c.f.rm (f32.decode (c.r32 d l).toNat)))

/-- R182, R185: the commit of lanes' queued stores. Every byte of memory and of the unit's window holds the last byte that those stores write
to it, in queue order and by lane, and every other byte what it held, but for the census's counters, of which R400 leaves open what they hold
then (log 82); the lanes' parts leave the queue. Pushes to a write stream are written with them.
That memory changes at the commit and not later is the model's choice (log 51). -/
def Obligations.CommitPerformsStores : Prop :=
  ∀ (s : State) (id : Nat) (m : Mask) (f : Sheaf), s.sheaf id = some f →
    (∀ k, s.counterAt k = none → (s.commit id m).byteAt k = lastOf (memWrites s f m) k (s.byteAt k))
    ∧ (∀ u, s.unit f.unit = some u → ∃ w, (s.commit id m).unit f.unit = some w
        ∧ (∀ k, w.winByte k = lastOf (winWrites f m) k (u.winByte k))
        ∧ w = { u with win := w.win, winPoison := w.winPoison, winHalf := w.winHalf })
    ∧ (∀ k, k ≠ f.unit → (s.commit id m).unit k = s.unit k)
    ∧ (∀ k, k ≠ id → (s.commit id m).sheaf k = s.sheaf k)
    ∧ (∃ z, (s.commit id m).sheaf id = some z
        ∧ z = { f with storeQueue := z.storeQueue, streams := z.streams, committed := z.committed, drained := z.drained }
        ∧ z.storeQueue = (f.storeQueue.map fun e => { e with parts := (e.parts.filter fun p => !m.getLsbD p.lane) }).filter
            fun e => !e.parts.isEmpty)
    ∧ s.commit id m = { s with mem := (s.commit id m).mem, memPoison := (s.commit id m).memPoison, checks := (s.commit id m).checks
                               units := (s.commit id m).units, cores := (s.commit id m).cores, sheaves := (s.commit id m).sheaves
                               contexts := (s.commit id m).contexts, dies := (s.commit id m).dies, census := (s.commit id m).census
                               requests := (s.commit id m).requests
                               storeFailures := (s.commit id m).storeFailures, fresh := (s.commit id m).fresh, free := (s.commit id m).free }

/-- R181, R183, R195, R192: a reply comes home. A load of bytes that nothing watches or spoils returns for each byte the lane's youngest queued
store to it, else what memory or the window holds; one whose translation meets a condition returns poison; an atomic's old value is
written as it was found, and one from a peer or the host comes by a whole route only and is acknowledged (R383). Loads of one lane that touch
a common line of 128 bytes are answered in issue order (R285): the load is the only such one. -/
def Obligations.RepliesComeHome : Prop :=
  ∀ (s : State) (id n : Nat) (f : Sheaf) (o : Outstanding), s.sheaf id = some f →
    f.outstanding.find? (fun x => x.id == n) = some o → o.lane < 32 →
    (∀ ws, o.kind = .value ws → if o.peer.any (fun k => (s.peers.get k).broken) = true then exec (.loadReply id n) s = .next s
      else ∃ t, exec (.loadReply id n) s = .next t ∧ Lands id o ws s f t
        ∧ t.unacked = (match o.peer with
          | some k => s.unacked.filter fun r => !(r.seq == o.request && r.peer == k)
          | none => s.unacked)
        ∧ (o.peer = none → t.jobs = s.jobs) ∧ t = { s with sheaves := t.sheaves, unacked := t.unacked, jobs := t.jobs })
    ∧ (o.kind = .load → 0 < o.size → (∀ x ∈ f.outstanding, x.kind = .load → s.sameLine f x o = true → x = o) →
        (∀ a p, s.locate f o.space o.lane o.ea o.size .read false = .here a p → a.watched = false → a.keys.length = o.size →
          (a.win = false → p.laneHeld f.coreNo (s.unitOf f).ctx (a.keys.headD 0) = false ∧ a.keys.any s.poisonAt = false
            ∧ ∀ x ∈ (s.core f.coreNo).cache, x.1 ≠ a.keys.headD 0 / 128) →
          (a.win = true → ∀ k ∈ a.keys, ((s.unit f.unit).getD default).badByte k = false) →
          ∃ t, exec (.loadReply id n) s = .next t
            ∧ Lands id o (wordsOf o.size o.signed (valueOf ((List.range o.size).map fun j =>
                let k := a.keys.getD j 0
                (forwarded s f o.lane o.op (s.bytePlace f o.space o.lane o.ea j)).getD
                  (if a.win then ((s.unit f.unit).getD default).winByte k else s.byteAt k)))) s f t
            ∧ t = { s with sheaves := t.sheaves, cores := t.cores, contexts := t.contexts, tlbs := t.tlbs, dies := t.dies
                           requests := t.requests, jobs := t.jobs })
        ∧ (∀ p, s.locate f o.space o.lane o.ea o.size .read false = .bad p → ∃ t z, exec (.loadReply id n) s = .next t
          ∧ t.sheaf id = some z ∧ t = { s with sheaves := t.sheaves } ∧ z.v = f.v ∧ z.u = f.u
          ∧ (∀ r l, r < 104 → l < 32 → z.vPoison.get (vKey r l) =
              if l = o.lane ∧ o.dst.toNat ≤ r ∧ r < o.dst.toNat + o.regs ∧ lateAt f (s.now f) (vKey r l) = false then some p
              else f.vPoison.get (vKey r l))
          ∧ (∀ x ∈ z.outstanding, x.id ≠ o.id) ∧ (∀ w ∈ z.flagOps, w.id = o.op → w.lanes.getLsbD o.lane = false)))

/-- R192, R193, R190: atomics and release stores at the window. -/
def Obligations.AtomicsInTurn : Prop :=
  ∀ (y : Bool) (g : BitVec 3) (d a : BitVec 7) (f : BitVec 4) (m : BitVec 3),
    Atomics (.atom y g d a f m) 0x6C (m.toNat / 4 = 1) true m d a
    ∧ Atomics (.cas y g d a f m) 0x6D (m.toNat / 4 = 1) true m d a
    ∧ Atomics (.atomf y g d a f m) 0x6E false true m d a
    ∧ Atomics (.atst y g d a f m) 0x6F (m.toNat / 4 = 1) false m d a

/-- R192, R193, R194: what one lane's part of an atomic word does at a place in memory. It faults where a check, the translation or the target
does not let it through, is refused where the target lacks the operation, waits while its memory or its link is held, faults where the place
is poison, and else reads the old value and writes the new one, no other byte changing. What the census's counters hold then R400 leaves open
(log 82). -/
def Obligations.AtomicLanes : Prop :=
  ∀ (s : State) (c : Ctx) (m : BitVec 3) (wide : Bool) (op l : Nat) (ea : DWord) (right : Right) (new : Nat → Nat) (f : Sheaf),
    s.sheaf c.id = some f →
    let size := if wide then 8 else 4
    let run := s.atomLane c (spaceBy m) op wide ea l right new
    let va := s.vaOf f (spaceBy m) l ea
    (∀ k, addressFault c.unit m ea size = some k → run = (s, .fault ⟨.unserviceable, k, ea, []⟩))
    ∧ (addressFault c.unit m ea size = none →
        (∀ p, s.locate f (spaceBy m) l ea size right true = .bad p → run = (s, .fault p))
        ∧ ∀ a p, s.locate f (spaceBy m) l ea size right true = .here a p → a.win = false →
          let key := a.keys.headD 0
          (∀ q, p.targetFault [c.unit.job] key size va = some q → run = (p, .fault q))
          ∧ (p.targetFault [c.unit.job] key size va = none →
            (∀ k, p.refuses a op c.form wide = some k → run = (p, .refused k va))
            ∧ (p.refuses a op c.form wide = none →
              (p.laneHeld f.coreNo c.unit.ctx key = true → run = (s, .later))
              ∧ (p.laneHeld f.coreNo c.unit.ctx key = false →
                let v := a.keys.foldl State.verifyLine p
                (a.keys.any v.poisonAt = true → run = (v, .fault ⟨.unserviceable, 7, va, []⟩))
                ∧ (a.keys.any v.poisonAt = false → ∃ t, run = (t, .done (valueOf (a.keys.map p.byteAt)) (remoteOf key) t.requests)
                  ∧ t.requests = p.requests + (if (remoteOf key).isSome then 1 else 0)
                  ∧ (∀ k, p.counterAt k = none →
                      t.byteAt k = lastOf (a.keys.zip (littleEndian size (new (valueOf (a.keys.map p.byteAt))))) k (p.byteAt k))
                  ∧ t = { p with mem := t.mem, memPoison := t.memPoison, checks := t.checks, cores := t.cores, contexts := t.contexts
                                 free := t.free, dies := t.dies, requests := t.requests, census := t.census })))))

/-- R187, R191: a prefetch and a fence change no register and advance. A prefetch changes nothing that a program can see: beside its sheaf's
lanes only which lines the L2s hold and what its context has used of its budgets, by the model's choice of what it brings in (log 72); a fence issues only once its lanes' loads have returned, and begins a new
synchronisation region for them.

R198 and R432: `SBIND` binds a register by the record at a window address, takes the lane-fault trap where the address is off its
alignment or out of bounds, and the emulation trap where a field is reserved or the count zero. A record that reads badly is retried, by the model's reading (log 78). -/
def Obligations.PrefetchFenceAndStreamBinding : Prop :=
  (∀ (y b : Bool) (g : BitVec 3) (a : BitVec 7) (sc : BitVec 4) (m7 : Bool) (mask : BitVec 7) (s : State) (c : Ctx),
      (Runs (.prf y g a b) s c → Does (.prf y g a b) s c fun p f t z =>
          (∀ k, k ≠ c.id → t.sheaf k = p.sheaf k)
          ∧ (∀ k, t.die k = { p.die k with l2 := (t.die k).l2, directory := (t.die k).directory })
          ∧ (∀ k, t.context k = (p.context k).map fun x => { x with used := ((t.context k).map Context.used).getD [] })
          ∧ t = { p with sheaves := t.sheaves, jobs := t.jobs, dies := t.dies, contexts := t.contexts, fresh := t.fresh, free := t.free }
          ∧ OnlyLanes f z ∧ LanesGo f z c c.after)
      ∧ (Runs (.fence y g sc m7 mask) s c →
          (∀ o ∈ c.f.outstanding, o.inRegion = true → c.lanes.getLsbD o.lane = false)
          ∧ Completes (.fence y g sc m7 mask) s c c.after fun f z => WritesNothing f z
            ∧ ∃ n, s.fresh ≤ n ∧ ∀ l, l < 32 → (z.lane l).syncRegion = if c.act.getLsbD l = true then n else (f.lane l).syncRegion)) ∧
  (∀ (y : Bool) (g n : BitVec 3) (a : BitVec 7) (s : State) (c : Ctx) (u : UnitSt), Runs (.sbind y g n a) s c →
      (s.committedBy c (c.shapeOf (.sbind y g n a))).unit c.f.unit = some u →
      let w := (c.low32 a).toNat
      let ctl := u.winValue (w + 0x14) 4
      let count := u.winValue (w + 0x10) 4
      (w % 32 ≠ 0 → TakesTrap (.sbind y g n a) s c (laneTrap .lane c.word c.pc c.act c.act 2 (BitVec.ofNat 64 w)))
      ∧ (w % 32 = 0 → u.lrec.win < w + 32 →
          TakesTrap (.sbind y g n a) s c (laneTrap .lane c.word c.pc c.act c.act 0 (BitVec.ofNat 64 w)))
      ∧ (w % 32 = 0 → w + 32 ≤ u.lrec.win → u.winPoisoned w 32 = true → Served (.sbind y g n a) s c (u.badWords w 32))
      ∧ (w % 32 = 0 → w + 32 ≤ u.lrec.win → u.winPoisoned w 32 = false → When (ctl < 32 ∧ count ≠ 0)
          (Does (.sbind y g n a) s c fun p f t z => OnlySheaf p t c.id c.unit.job ∧ LanesGo f z c c.after
            ∧ OnlyLanes f z
            ∧ z.streams.get n.toNat = (if ctl % 4 = 3 then {} else
                { bound := true, base := BitVec.ofNat 64 (u.winValue w 8), stride := BitVec.ofNat 64 (u.winValue (w + 8) 8), count := count
                  kind := ctl % 4, wide := ctl.testBit 2, write := ctl.testBit 3, sp := ctl.testBit 4
                  index := BitVec.ofNat 64 (u.winValue (w + 0x18) 8) })
            ∧ ∀ k, k ≠ n.toNat → { z.streams.get k with tentative := [] } = { f.streams.get k with tentative := [] })
          (exec (.sbind y g n a) s = .next (s.emulWord c))))

end

namespace Sys2Proof.Claims
open Sys2Proof.Machine

/-! ### Traps, regions, faults -/

/-- The vector entry of a kind in the launch record (R35, R326); 0 is none. -/
def vector (u : UnitSt) : TrapKind → DWord
  | .emul => u.lrec.temul
  | .lane => u.lrec.tlane
  | .idle => u.lrec.tidle
  | .race => u.lrec.trace
  | .refused => u.lrec.tref

/-- What the emulation trap presents of a word (R93). -/
def emulRecord (c : Ctx) : TrapRec :=
  { kind := .emul, lanes := c.act, emw := c.word, emg := BitVec.ofNat 32 (c.word.toNat / 2 ^ 21 % 8)
    emd := BitVec.ofNat 32 (c.word.toNat / 2 ^ 14 % 128), ema := BitVec.ofNat 32 (c.word.toNat / 2 ^ 7 % 128)
    emb := BitVec.ofNat 32 (c.word.toNat % 128), empc := c.pc }

/-- A job that had not ended has ended with a cause; its fate alone is stated. -/
def JobEnds (s t : State) (j cause : Nat) : Prop :=
  ∀ x, s.job j = some x → x.ended = none → x.complete = false → ∃ y, t.job j = some y ∧ y.ended = some cause

/-- Of the state only sheaf `id` differs, and it stands. -/
def OneSheaf (s t : State) (id : Nat) : Prop :=
  (∀ k, k ≠ id → t.sheaf k = s.sheaf k) ∧ t = { s with sheaves := t.sheaves }

/-- The lane, of those of a mask whose open region wrote a register, that passed its start first, holds what the register returns to. -/
def Restored (f : Sheaf) (m : Mask) (wrote : LaneSt → Bool) (saved : LaneSt → Word) (now new : Word) : Prop :=
  (∀ l, l < 32 → m.getLsbD l = true → wrote (f.lane l) = false) ∧ new = now
  ∨ ∃ l, l < 32 ∧ m.getLsbD l = true ∧ wrote (f.lane l) = true ∧ new = saved (f.lane l)
      ∧ ∀ k, k < 32 → m.getLsbD k = true → wrote (f.lane k) = true → (f.lane l).startSeq ≤ (f.lane k).startSeq

/-- What is left of a `SCHED` group once a word has passed; an `ENDL` is passed over (R72, R145). -/
def schedGoesOn (op : Nat) (g : Option Sched) : Option Sched :=
  if op = 0x5D then g else g.bind fun x => if x.stalls.length ≤ 1 then none else some ⟨x.stalls.tail, 0⟩

/-- The live lanes of a mask whose `EXIT` has not issued: those that a rollback moves (R161). -/
def goingOn (f : Sheaf) (m : Mask) : Mask := laneMask fun l => m.getLsbD l && (f.lane l).hold != .exit

/-- Of a sheaf whose park ends, beside what else ends there: the lanes held by an `EXIT` exit, and no flag counts them (R79, R157). -/
def ExitsDone (f z : Sheaf) : Prop :=
  (∀ l, l < 32 → (f.lane l).hold = .exit → (z.lane l).life = .exited ∧ (z.lane l).hold = .none)
  ∧ ∀ o ∈ z.flagOps, ∀ l, l < 32 → (f.lane l).hold = .exit → o.lanes.getLsbD l = false

/-- What rolling lanes back leaves of their sheaf (R83, R186, R361): a pending trap keeps the lanes that are left of it. -/
def RolledBack (f : Sheaf) (m : Mask) (z : Sheaf) : Prop :=
  z = { f with lanes := z.lanes, streams := z.streams, rm := z.rm, bp := z.bp, clr := z.clr, flagOps := z.flagOps
               outstanding := f.outstanding.filter fun o => !(m.getLsbD o.lane && o.inRegion)
               storeQueue := (f.storeQueue.map fun e => { e with parts := (e.parts.filter fun p => !m.getLsbD p.lane) }).filter
                 fun e => !e.parts.isEmpty
               vPoison := z.vPoison, uPoison := z.uPoison, pending := z.pending, trap := z.trap
               trapsAfter := f.trapsAfter.filterMap fun t => t.less m }
  ∧ (z.pending.map fun q => (q.key, q.old, q.ready)) = f.pending.map (fun q => (q.key, q.old, q.ready))
  ∧ (f.trap = none → z.trap = none)
  ∧ (∀ t, f.trap = some t → if t.lanes &&& ~~~m = 0 ∨ (t.who ≠ 0 ∧ t.who &&& ~~~m = 0) then z.trap = none
      else ∃ x, z.trap = some x ∧ x.kind = t.kind ∧ x.lanes = t.lanes &&& ~~~m ∧ x.who = t.who &&& ~~~m)
  ∧ Restored f m LaneSt.wroteRm LaneSt.startRm f.rm z.rm
  ∧ Restored f m LaneSt.wroteBp LaneSt.startBp f.bp z.bp
  ∧ Restored f m LaneSt.wroteClr LaneSt.startClr f.clr z.clr
  ∧ (∀ n l, l < 32 → z.laneFlag n l = if m.getLsbD l = true then 0 else f.laneFlag n l)
  ∧ (∀ n, { z.streams.get n with tentative := [], rewound := [] } = { f.streams.get n with tentative := [], rewound := [] }
      ∧ (z.streams.get n).tentative = (f.streams.get n).tentative.filter fun e => !m.getLsbD e.1)
  ∧ ∀ l, l < 32 → if m.getLsbD l = true
      then (z.lane l).pc = (f.lane l).start ∧ (z.lane l).start = (f.lane l).start ∧ (z.lane l).limm = none ∧ (z.lane l).xmod = none
        ∧ (z.lane l).sched = none ∧ (z.lane l).hold = .none ∧ (z.lane l).life = (f.lane l).life ∧ (z.lane l).poisoned = none ∧ (z.lane l).alsoMet = []
      else z.lane l = f.lane l

/-- A word that was held goes on: the service is over, and where it came to nothing the lanes whose own access met the fault carry what was
declined (R196). -/
def GoesOn (s : State) (id : Nat) (f : Sheaf) (a : Awaiting) (declined : Bool) (t : State) : Prop :=
  ∃ z, t.sheaf id = some z ∧ OneSheaf s t id ∧ z = { f with awaiting := f.awaiting.erase a, lanes := z.lanes }
    ∧ ∀ l, l < 32 → z.lane l =
        match (if declined = true ∧ f.liveMask.getLsbD l = true then a.met.reverse.find? fun x => x.1 == l else none) with
        | some x => { f.lane l with declined := some x.2 }
        | none => f.lane l

/-- The lanes of a serviced fault replay their region, in stepped form or not. -/
def Replays (s : State) (id : Nat) (f : Sheaf) (a : Awaiting) (stepped : Bool) (t : State) : Prop :=
  ∃ z, t.sheaf id = some z ∧ OneSheaf s t id ∧ RolledBack { f with awaiting := f.awaiting.erase a } (goingOn f (a.lanes &&& f.liveMask)) z
    ∧ ∀ l, l < 32 → (goingOn f (a.lanes &&& f.liveMask)).getLsbD l = true →
      (z.lane l).stepped = stepped ∧ (z.lane l).replays = (f.lane l).replays + 1

end Sys2Proof.Claims

section
open Sys2Proof Sys2Proof.Machine Sys2Proof.Claims

/-- R90, R92, R93, R94: a word that does not keep its shape has no effect of its own. With no handler in the sheaf its trap pends, as the event
of its entry finds it, the lanes it does not act on going on; beside another handler it waits; inside a handler the job ends. -/
def Obligations.WordsOutOfShapeTrap : Prop :=
  ∀ (i : Instr) (s : State) (c : Ctx) (f : Sheaf), (encode i).isSome = true → opIsHint (c.shapeOf i).op = false →
    s.issuing i = some (some c) → s.sheaf c.id = some f → c.act ≠ 0 → wordHeld i (c.shapeOf i) c s = false →
    c.f.firstFault (if (c.shapeOf i).endsRegion then c.f.faultedLanes c.lanes else 0) = none →
    shapeOk (c.shapeOf i) c.unit.lrec.nv c.limm.isSome c.x = false →
    (f.handlerMask = 0 → f.trap = none → ∃ u z, exec i s = exec (.trapEntry c.id) u ∧ u.sheaf c.id = some z ∧ OneSheaf s u c.id
      ∧ z = { f with lanes := z.lanes, issued := true, restored := false, trap := some (emulRecord c) }
      ∧ ∀ l, l < 32 → z.lane l = if c.lanes.getLsbD l = true
          then { f.lane l with
            pc := if c.act.getLsbD l = true then (f.lane l).pc else c.pc + 4, limm := none, xmod := none, lastIssue := c.now, pass := 0
            sched := if c.act.getLsbD l = true then (f.lane l).sched else schedGoesOn (wordOp c.word).toNat (f.lane l).sched }
          else f.lane l)
    ∧ (f.handlerMask &&& c.act = 0 → (f.handlerMask ≠ 0 ∨ f.trap.isSome) → ∃ t z, exec i s = .next t ∧ t.sheaf c.id = some z
      ∧ OneSheaf s t c.id ∧ z = { f with lanes := z.lanes }
      ∧ ∀ l, l < 32 → z.lane l = if c.lanes.getLsbD l = true then { f.lane l with hold := .trap } else f.lane l)
    ∧ (f.handlerMask &&& c.act ≠ 0 → ∃ t, exec i s = .next t ∧ JobEnds s t (s.unitOf f).job 3)

/-- R92, R35, R94: a pending trap whose sheaf has drained is entered. The open region's stores commit, the presentation registers are written,
and the trapping lanes stand at the vector entry, in the handler, at a new region start. Poison or a faulted store in the region replays
it instead; a vector without the entry ends the job, with TYPE 12 for a lane fault and 3 else. While a store of the region cannot be performed
yet the trap pends, by the model's choice (log 51). A saved sheaf enters no trap, and
all lanes of a position that traps replay: the model's reading (log 33).

R82, R157: the park of words with Y ends once its sheaf has drained, and the lanes held by an `EXIT` exit. Where a word of the memory
opcodes parked a position, that position commits its region's stores then, and a new region starts; a condition in the region is reported
instead. While a store of the region cannot be performed yet the park lasts, by the model's choice (log 51). A saved sheaf stays parked,
and all lanes of a position that parked replay: the model's reading (log 61). Of positions that park in one cycle and both commit late, this states only the one. -/
def Obligations.TrapsAndParksEnd : Prop :=
  (∀ (s : State) (id : Nat) (f : Sheaf) (r : TrapRec), s.sheaf id = some f → f.trap = some r → s.drained id f = true →
      f.translated r.lanes = true →
      (f.place = none → exec (.trapEntry id) s = .next s)
      ∧ (f.place.isSome → f.firstFault r.lanes = none → s.commitHeld f r.lanes = true → exec (.trapEntry id) s = .next s)
      ∧ (f.place.isSome → f.firstFault r.lanes = none → s.commitHeld f r.lanes = false → vector (s.unitOf f) r.kind ≠ 0 →
        ∃ t z p, exec (.trapEntry id) s = .next t ∧ (s.commit id r.lanes).sheaf id = some p ∧ t.sheaf id = some z
          ∧ (∀ k, k ≠ id → t.sheaf k = (s.commit id r.lanes).sheaf k)
          ∧ t = { s.commit id r.lanes with sheaves := t.sheaves, fresh := t.fresh }
          ∧ z = { p with emw := r.emw, emg := r.emg, emd := r.emd, ema := r.ema, emb := r.emb, empc := r.empc, trap := none
                         lanes := z.lanes, streams := z.streams }
          ∧ ∀ l, l < 32 → if r.lanes.getLsbD l = true
              then (z.lane l).pc = vector (s.unitOf f) r.kind ∧ (z.lane l).start = vector (s.unitOf f) r.kind ∧ (z.lane l).handler = true
                ∧ (z.lane l).limm = none ∧ (z.lane l).xmod = none ∧ (z.lane l).sched = none ∧ (z.lane l).hold = .none
                ∧ (z.lane l).life = (p.lane l).life
              else z.lane l = p.lane l)
      ∧ (∀ q, f.place.isSome → f.firstFault r.lanes = some q → ∃ t z, exec (.trapEntry id) s = .next t ∧ t.sheaf id = some z ∧ OneSheaf s t id
          ∧ z = { f with trap := none, awaiting := f.awaiting ++ [⟨r.lanes, q, .reported, false, []⟩] })
      ∧ (f.place.isSome → f.firstFault r.lanes = none → s.commitHeld f r.lanes = false → vector (s.unitOf f) r.kind = 0 →
        ∃ t, exec (.trapEntry id) s = .next t ∧ JobEnds s t (s.unitOf f).job (if r.kind = .lane then 12 else 3))) ∧
  (∀ (s : State) (id : Nat) (f : Sheaf) (p : Park), s.sheaf id = some f → f.park = some p → s.drained id f = true →
      (f.place = none → exec (.yParkEnd id) s = .next s)
      ∧ (f.place.isSome → p.late = [] → ∃ t z, exec (.yParkEnd id) s = .next t ∧ OneSheaf s t id ∧ t.sheaf id = some z
          ∧ z = { f with park := none, lanes := z.lanes, flagOps := z.flagOps, streams := z.streams, outstanding := z.outstanding }
          ∧ ExitsDone f z ∧ ∀ l, l < 32 → (f.lane l).hold ≠ .exit → z.lane l = f.lane l)
      ∧ (∀ m, f.place.isSome → p.late = [m] → s.commitHeld f (m &&& f.liveMask) = true → exec (.yParkEnd id) s = .next s)
      ∧ (∀ m, f.place.isSome → p.late = [m] → f.translated (m &&& f.liveMask) = true → s.commitHeld f (m &&& f.liveMask) = false →
          f.firstFault (m &&& f.liveMask) = none →
          ∃ t u z q, exec (.yParkEnd id) s = .next t ∧ u.sheaf id = some { f with park := none } ∧ OneSheaf s u id
            ∧ (u.commit id (m &&& f.liveMask)).sheaf id = some q ∧ t.sheaf id = some z
            ∧ t = { u.commit id (m &&& f.liveMask) with sheaves := t.sheaves, fresh := t.fresh }
            ∧ z = { q with lanes := z.lanes, streams := z.streams, flagOps := z.flagOps, outstanding := z.outstanding }
            ∧ ExitsDone f z ∧ ∀ l, l < 32 → (f.lane l).hold ≠ .exit → if (m &&& f.liveMask).getLsbD l = true
                then (z.lane l).start = (q.lane l).pc ∧ (z.lane l).pc = (q.lane l).pc ∧ (z.lane l).stepped = false ∧ (z.lane l).replays = 0
                else z.lane l = q.lane l)
      ∧ (∀ m x, f.place.isSome → p.late = [m] → f.translated (m &&& f.liveMask) = true → s.commitHeld f (m &&& f.liveMask) = false →
          f.firstFault (m &&& f.liveMask) = some x →
          ∃ t z, exec (.yParkEnd id) s = .next t ∧ OneSheaf s t id ∧ t.sheaf id = some z
            ∧ z = { f with park := none, awaiting := f.awaiting ++ [⟨m &&& f.liveMask, x, .reported, false, []⟩]
                           lanes := z.lanes, flagOps := z.flagOps, streams := z.streams, outstanding := z.outstanding }
            ∧ ExitsDone f z ∧ ∀ l, l < 32 → (f.lane l).hold ≠ .exit → z.lane l = f.lane l))

/-- R83, R186, R361: rolling lanes back returns them to their region starts, withdraws their queued stores and outstanding loads, gives up their
flag parts, rewinds their pops and restores the three sampled registers; a lane whose `EXIT` has issued stays. R362: lanes replayed more than eight times in a row go on in
stepped form.
The count at which stepping begins, and the poison that a rollback clears, are the model's reading (log 29, log 30). -/
def Obligations.RollbackAndReplayLimit : Prop :=
  ∀ (s : State) (id : Nat) (m : Mask) (f : Sheaf), s.sheaf id = some f →
    (∃ z, (s.rollback id m).sheaf id = some z ∧ OneSheaf s (s.rollback id m) id ∧ RolledBack f (goingOn f m) z)
    ∧ (∃ t z, exec (.replayLimit id) s = .next t ∧ t.sheaf id = some z ∧ OneSheaf s t id ∧ z = { f with lanes := z.lanes }
        ∧ ∀ l, l < 32 → z.lane l =
            if (f.lane l).life = .live ∧ 9 ≤ (f.lane l).replays then { f.lane l with stepped := true } else f.lane l)

/-- R195, R196, R360: the service of a sheaf's first reported fault. The driver is asked about an absent page and the high-water mark; a broken
remote read, or an uncorrected error, replays the region, in stepped form if its retry fails; every other cause replays it in stepped
form. A word that was held before its issue goes on instead, carrying what was declined where the retry fails.

R360, R359: the driver's answer. A declined fault replays in stepped form, or marks a word held before its issue; a mapped one has its tables
written and replays, or lets the held word go on; a high-water mark is raised only to one the context allows. -/
def Obligations.FaultsAreServiced : Prop :=
  (∀ (s : State) (id : Nat) (ok : Bool) (f : Sheaf) (a : Awaiting), s.sheaf id = some f →
      f.awaiting.find? (fun x => x.stage == .reported) = some a →
      let failed := a.poison.kind = .race ∨ a.poison.kind = .unserviceable ∨ a.poison.kind = .lost
        ∨ (a.poison.kind = .uncorrected ∧ ok = false)
      (a.poison.kind = .notPresent ∨ a.poison.kind = .highWater → ∃ t, exec (.faultService id ok) s = .next t ∧ OneSheaf s t id
        ∧ t.sheaf id = some { f with awaiting := f.awaiting.map fun x => if x = a then { a with stage := .atDriver } else x })
      ∧ (a.inPlace = false → a.poison.kind = .brokenRemote →
          ∃ t, exec (.faultService id ok) s = .next t ∧ Replays s id f a (!ok) t)
      ∧ (a.inPlace = false → failed → ∃ t, exec (.faultService id ok) s = .next t ∧ Replays s id f a true t)
      ∧ (a.inPlace = false → a.poison.kind = .uncorrected → ok = true → ∃ t u, exec (.faultService id ok) s = .next t
          ∧ u = { s with memPoison := u.memPoison, checks := u.checks, units := u.units } ∧ Replays u id f a false t)
      ∧ (a.inPlace = true → a.poison.kind = .brokenRemote →
          ∃ t, exec (.faultService id ok) s = .next t ∧ GoesOn s id f a (!ok) t)
      ∧ (a.inPlace = true → failed → ∃ t, exec (.faultService id ok) s = .next t ∧ GoesOn s id f a true t)
      ∧ (a.inPlace = true → a.poison.kind = .uncorrected → ok = true → ∃ t u, exec (.faultService id ok) s = .next t
          ∧ u = { s with memPoison := u.memPoison, checks := u.checks, units := u.units } ∧ GoesOn u id f a false t)) ∧
  (∀ (s : State) (id hwm : Nat) (mapped : Bool) (tables : List (Nat × Nat)) (f : Sheaf) (a : Awaiting) (x : Context), s.sheaf id = some f →
      f.awaiting.find? (fun y => y.stage == .atDriver) = some a → s.context (s.unitOf f).ctx = some x →
      let high := a.poison.kind = .highWater
      let markOk := hwm % 512 = 0 ∧ x.hwm ≤ hwm ∧ x.privByte f a.poison.addr.toNat < hwm ∧ hwm ≤ x.pspan / 32
      let fine := mapped = true ∧ (high → markOk)
      (¬ fine → a.inPlace = false → ∃ t, exec (.driverAnswer id mapped hwm tables) s = .next t ∧ Replays s id f a true t)
      ∧ (¬ fine → a.inPlace = true → ∃ t, exec (.driverAnswer id mapped hwm tables) s = .next t ∧ GoesOn s id f a true t)
      ∧ (fine → ∃ t u, exec (.driverAnswer id mapped hwm tables) s = .next t
          ∧ u = { s with mem := (s.writeTables tables).mem, memPoison := (s.writeTables tables).memPoison
                         checks := (s.writeTables tables).checks, contexts := u.contexts }
          ∧ (∀ k, u.context k = if k = (s.unitOf f).ctx ∧ a.poison.kind = .highWater then some { x with hwm := hwm } else s.context k)
          ∧ (a.inPlace = false → Replays u id f a false t) ∧ (a.inPlace = true → GoesOn u id f a false t)))

/-- R357: a walker ends a waiting miss. A leaf enters the die's TLB, and no other translation is made; without one no translation is made, and the
loads of global memory that wait for the page wait no more.

R358: an invalidation removes a context's translations of the pages from every TLB. It is not complete while a queued store that was
translated through a leaf over one of the pages is still to be performed, and its event, coming again, completes it once none is; nothing
else changes.

R182, R290: the translation of a queued store of one lane that no detector watches: it learns its key and the
pages of its leaf, or the condition met. -/
def Obligations.TranslationsAreMadeAndDropped : Prop :=
  (∀ (s : State) (die ctx page : Nat), Miss.mk die ctx page ∈ (s.misses.filter fun x => x.die == die).take 32 →
      ∃ t, exec (.tlbWalk die ctx page) s = .next t ∧ t.misses = s.misses.filter (fun x => x != ⟨die, ctx, page⟩)
        ∧ (∀ e pages first, s.walk ctx page = .leaf e pages first → t = { s with misses := t.misses, tlbs := t.tlbs }
            ∧ TlbEntry.mk die none ctx first pages e ∈ t.tlbs
            ∧ ∀ x ∈ t.tlbs, x ∈ s.tlbs ∨ x = ⟨die, none, ctx, first, pages, e⟩)
        ∧ ((∀ e pages first, s.walk ctx page ≠ .leaf e pages first) → t.tlbs = s.tlbs ∧ ∀ id f z o, s.sheaf id = some f → t.sheaf id = some z → f.place.isSome → f.coreNo / 48 = die →
            (s.unitOf f).ctx = ctx → o ∈ f.outstanding → o.kind = .load → o.space = .g ∨ o.space = .ga →
            (s.vaOf f o.space o.lane o.ea).toNat / 2 ^ 16 = page → ∀ x ∈ z.outstanding, x.id ≠ o.id)) ∧
  (∀ (s : State) (ctx first last : Nat),
      let mine (x : Invalidation) : Bool := x.ctx == ctx && x.first == first && x.last == last
      (s.invalidations.find? mine = none → ∃ t w, exec (.tlbInvalidation ctx first last) s = .next t
        ∧ t = { s with tlbs := t.tlbs, invalidations := s.invalidations ++ (if w = [] then [] else [⟨ctx, first, last, w⟩]) }
        ∧ (∀ x, x ∈ t.tlbs ↔ x ∈ s.tlbs ∧ ¬ (x.ctx = ctx ∧ x.page ≤ last ∧ first < x.page + x.pages))
        ∧ ∀ id f e p, s.sheaf id = some f → (s.unitOf f).ctx = ctx → e ∈ f.storeQueue → p ∈ e.parts → e.space ≠ .sp → p.phys.isSome →
            p.span.1 ≤ last → first < p.span.1 + p.span.2 → (id, e.id, p.lane) ∈ w)
      ∧ ∀ x, s.invalidations.find? mine = some x →
          ((∀ w ∈ x.waits, s.unperformed w = false) →
            exec (.tlbInvalidation ctx first last) s = .next { s with invalidations := s.invalidations.erase x })
          ∧ ((∃ w ∈ x.waits, s.unperformed w = true) → ∃ t y, exec (.tlbInvalidation ctx first last) s = .next t
            ∧ t = { s with invalidations := t.invalidations } ∧ y ∈ t.invalidations ∧ mine y = true
            ∧ ∀ w, w ∈ y.waits ↔ w ∈ x.waits ∧ s.unperformed w = true)) ∧
  (∀ (s : State) (id n : Nat) (f : Sheaf) (e : StoreEntry) (p : StorePart), s.sheaf id = some f →
      f.storeQueue.find? (fun x => x.id == n) = some e → e.stream = none → e.parts = [p] → p.lane < 32 → f.place.isSome → p.phys = none → p.fault = none →
      let place := s.locate f e.space p.lane p.ea p.bytes.length .write false
      (∀ a w, place = .here a w → a.watched = false → ∃ t z, exec (.storeTranslated id n) s = .next t ∧ t.sheaf id = some z
        ∧ (∀ k, k ≠ id → t.sheaf k = s.sheaf k) ∧ t = { s with sheaves := t.sheaves, tlbs := w.tlbs }
        ∧ z = { f with storeQueue := z.storeQueue }
        ∧ z.storeQueue.find? (fun x => x.id == n) = some { e with parts := [{ p with phys := some (a.keys.headD 0), span := a.span }] }
        ∧ (∀ x ∈ z.storeQueue, x.id ≠ n → x ∈ f.storeQueue))
      ∧ (∀ q, place = .bad q → ∃ t z, exec (.storeTranslated id n) s = .next t ∧ t.sheaf id = some z ∧ OneSheaf s t id
        ∧ z = { f with storeQueue := z.storeQueue }
        ∧ z.storeQueue.find? (fun x => x.id == n) = some { e with parts := [{ p with fault := some q }] }))

/-- R199, R200, R201: pops take the buffered elements in ascending lane order, tentatively; a pop of a register that no read stream is bound to
yields poison of cause 6, by the model's choice at the number of the next element (log 83); a push takes a store-queue entry, its elements numbered on from those pushed before. A register bound to 64-bit
elements needs a pair, and the word takes the emulation trap without one. The lanes are not in stepped replay.

R198, R200, R201: the engine of a read stream fetches the next element, at most 256 ahead; a strided element lies at BASE + k × STRIDE.
The stream is strided and in the window. The pushes to a write stream are written as their region commits (`CommitPerformsStores`), so that
its engine has nothing left to do. -/
def Obligations.StreamsPopPushAndMove : Prop :=
  (∀ (y : Bool) (g : BitVec 3) (d : BitVec 7) (n : BitVec 3) (x : BitVec 4) (s : State) (c : Ctx) (f0 : Sheaf), s.sheaf c.id = some f0 →
      let q := f0.streams.get n.toNat
      let regs := if q.wide then 2 else 1
      let k := c.actLanes.length
      c.isStepped = false →
      (Runs (.qrd y g d n x) s c → q.wide = true → groupOk c.unit.lrec.nv d 2 true = false →
        exec (.qrd y g d n x) s = .next (s.emulWord c))
      ∧ (Runs (.qwr y g d n x) s c → q.wide = true → groupOk c.unit.lrec.nv d 2 false = false → f0.storeQueue.length < 64 →
        exec (.qwr y g d n x) s = .next (s.emulWord c))
      ∧ (Runs (.qrd y g d n x) s c → (q.wide = true → groupOk c.unit.lrec.nv d 2 true = true) →
        (q.bound = true → q.write = false → q.rewound = [] → k ≤ q.buffer.length →
          Does (.qrd y g d n x) s c fun p f t z => OnlySheaf p t c.id c.unit.job ∧ OnlyLoads f z ∧ LanesGo f z c c.after
            ∧ z.pending = f.pending ∧ z.vPoison = f.vPoison ∧ z.uPoison = f.uPoison
            ∧ z.outstanding = f.outstanding ++ (c.actLanes.zip q.buffer).map (fun e =>
                { id := 32 * c.op + e.1, lane := e.1, kind := .pop n.toNat e.2.k, size := 4 * regs, dst := dstSeen c d e.1, regs := regs
                  op := c.op, pc := c.pc, region := (c.f.lane e.1).syncRegion })
            ∧ z.streams.get n.toNat =
                { q with buffer := q.buffer.drop k, given := q.given + k, tentative := q.tentative ++ c.actLanes.zip q.buffer })
        ∧ ((q.bound && !q.write) = false →
          Does (.qrd y g d n x) s c fun p f t z => OnlySheaf p t c.id c.unit.job ∧ OnlyLoads f z ∧ LanesGo f z c c.after
            ∧ (∀ o ∈ z.outstanding, o ∈ f.outstanding)
            ∧ ∀ r l, r < 104 → l < 32 → SpoiltAt f z c.now (vKey r l) (f.vPoison.get (vKey r l)) (z.vPoison.get (vKey r l))
                (if c.act.getLsbD l = true ∧ d.toNat ≤ r ∧ r < d.toNat + regs
                 then some ⟨.unserviceable, 6, BitVec.ofNat 64 q.given, []⟩ else none)))
      ∧ (Runs (.qwr y g d n x) s c → (q.wide = true → groupOk c.unit.lrec.nv d 2 false = true) → f0.storeQueue.length < 64 →
          Does (.qwr y g d n x) s c fun p f t z => OnlySheaf p t c.id c.unit.job ∧ LanesGo f z c c.after
            ∧ OnlyLanes { f with storeQueue := f.storeQueue ++ [{
                id := c.op, pc := c.pc, cp := c.x.cp.toNat, stream := some n.toNat, colour := if c.x.cv then c.x.colour.toNat else c.f.clr.toNat % 8
                parts := ((List.range k).zip c.actLanes).map fun e =>
                  { lane := e.2, bytes := littleEndian (4 * regs) (if q.wide then (c.r64 d e.2).toNat else (c.r32 d e.2).toNat)
                    region := (c.f.lane e.2).syncRegion
                    fault := (c.declined s e.2).or
                      (if q.bound = true ∧ q.write = true ∧ q.given + f0.pushesBefore n.toNat c.op + e.1 < q.count then none
                       else some ⟨.unserviceable, 6, BitVec.ofNat 64 q.given, []⟩) } }] } z)) ∧
  (∀ (s : State) (id q : Nat) (f : Sheaf) (u : UnitSt), s.sheaf id = some f → s.unit f.unit = some u →
      let r := f.streams.get q
      let size := if r.wide then 8 else 4
      let at_ (k : Nat) : DWord := r.base + BitVec.ofNat 64 k * r.stride
      (r.bound = true → r.kind = 0 → r.sp = true → r.write = false → r.buffer.length < 256 → r.fetched < r.count →
        ∃ t z e, exec (.streamElementFetch id q) s = .next t
          ∧ t.sheaf id = some z ∧ (∀ k, k ≠ id → t.sheaf k = s.sheaf k) ∧ t = { s with sheaves := t.sheaves, contexts := t.contexts }
          ∧ z = { f with streams := z.streams }
          ∧ (∀ k, z.streams.get k = if k = q then { r with buffer := r.buffer ++ [e], fetched := r.fetched + 1 } else f.streams.get k)
          ∧ e.k = r.fetched
          ∧ ((at_ r.fetched).toNat % size = 0 → (at_ r.fetched).toNat + size ≤ u.lrec.win → u.winPoisoned (at_ r.fetched).toNat size = false →
              e.poison = none ∧ e.value = BitVec.ofNat 64 (u.winValue (at_ r.fetched).toNat size)))
      ∧ (r.bound = true → r.write = true → exec (.streamElementFetch id q) s = .next s))

end

namespace Sys2Proof.Claims
open Sys2Proof.Machine

/-! ### Engine words -/

/-- Beside its sheaf, the names given out and its job's mark of progress, a word changes the state only as `h` says. -/
def Only (c : Ctx) (h : State → State) (a t : State) : Prop :=
  (∀ k, k ≠ c.id → t.sheaf k = a.sheaf k)
  ∧ (∀ j, t.job j = if j = c.unit.job then (a.job j).map (fun x => { x with progressed := true }) else a.job j)
  ∧ t = h { a with sheaves := t.sheaves, jobs := t.jobs, fresh := t.fresh, free := t.free }

/-- The owner that a word gives what it starts. -/
def ownerOf (c : Ctx) (dst : BitVec 7) : Owner :=
  { sheaf := c.id, lanes := c.act, unit := c.f.unit, ctx := c.unit.ctx, op := c.op, dst := dst, pc := c.pc }

/-- One entry of work comes to the end of a queue of the word's core; of the sheaf only lanes and flags change, and its lanes go on. -/
def Queued (c : Ctx) (q : QName) (w : Work) (dst : BitVec 7) (h : State → State) (a : State) (f : Sheaf) (t : State) (z : Sheaf) : Prop :=
  ∃ n, a.fresh ≤ n
    ∧ Only c (fun s => h { s with entries := a.entries ++ [{
      id := n, queue := q, core := c.core, owner := ownerOf c dst, work := w, issued := c.now }] }) a t
    ∧ OnlyLanes f z ∧ LanesGo f z c c.after

/-- A result to come `k` cycles on, in each active lane the same words. -/
def Later (c : Ctx) (k : Nat) (d : BitVec 7) (words : List Word) (f : Sheaf) : Sheaf :=
  { f with timers := f.timers ++ [{ due := c.now + k, lanes := c.act, dst := d, words := c.actLanes.map fun l => (l, words), op := c.op }] }

/-- The alignment of an address in the window, and then its bounds, checked as R432 orders them: a word either traps or goes on. -/
def InWindow (i : Instr) (s : State) (c : Ctx) (win a align size : Nat) (goes : Prop) : Prop :=
  (a % align ≠ 0 → TakesTrap i s c (laneTrap .lane c.word c.pc c.act c.act 2 (BitVec.ofNat 64 a)))
  ∧ (a % align = 0 → win < a + size → TakesTrap i s c (laneTrap .lane c.word c.pc c.act c.act 0 (BitVec.ofNat 64 a)))
  ∧ (a % align = 0 → a + size ≤ win → goes)

/-- A block of the window that a word reads at issue, after those checks: where it holds words that read badly the word meets a condition.
That it is retried is the model's reading (log 78). -/
def Block (i : Instr) (s : State) (c : Ctx) (u : UnitSt) (w align size : Nat) (goes : Prop) : Prop :=
  InWindow i s c u.lrec.win w align size
    ((u.winPoisoned w size = true → Served i s c (u.badWords w size)) ∧ (u.winPoisoned w size = false → goes))

/-- The state in which a word's effect begins. -/
def begun (i : Instr) (s : State) (c : Ctx) : State := s.committedBy c (c.shapeOf i)

/-- The unit's accumulator tiles (R166). -/
def tilesOf (u : UnitSt) : Nat := min 128 (6 * (u.lrec.pword.toNat / 2 ^ 16 % 2 ^ 8))

/-- A slot suits an operand of a FORM (R217, R218): claimed by the unit, bound, of the right element and precision, dense unless allowed. -/
def slotSuits (x : Slot) (unit form : Nat) (masks : Bool) : Prop :=
  x.claim = some unit ∧ x.bound = true ∧ (masks = true ∨ x.masked = false)
    ∧ (if form = 0 then x.elem = 0 else if form ≤ 7 then x.elem = 0 ∧ x.prec = form else if form = 8 then x.elem = 2 else x.elem = 1)

/-- The checks of R218 on a product of blocks `qs` of a panel of `n`. -/
def productFits (s : State) (c : Ctx) (u : UnitSt) (tile a b n : Nat) (masks : Bool) (qs : List Nat) : Prop :=
  tile < tilesOf u ∧ a + n ≤ 32 ∧ b + n ≤ 32
    ∧ ∀ q ∈ qs, slotSuits (s.slot c.f.unit (a + q)) c.f.unit c.form masks ∧ slotSuits (s.slot c.f.unit (b + q)) c.f.unit c.form masks

/-- What a product reads of the descriptors of its blocks' slots, as the word finds them at issue (R210). -/
def descsOf (s : State) (c : Ctx) (a b : Nat) (qs : List Nat) : List (Nat × Slot × Slot) :=
  let desc (x : Slot) : Slot := { elem := x.elem, prec := x.prec, inf := x.inf, masked := x.masked }
  qs.map fun q => (q, desc (s.slot c.f.unit (a + q)), desc (s.slot c.f.unit (b + q)))

/-- A Mill operation enters `mq`, or the word takes the emulation trap. -/
def MillWord (i : Instr) (s : State) (c : Ctx) (ok : Prop) (m : MillWork) : Prop :=
  When ok (Does i s c (Queued c .mq (.mill m) 120 id)) (exec i s = .next (s.emulWord c))

/-- A slot changes, and no other. -/
def SlotsChange (unit : Nat) (p : Nat → Bool) (g : Slot → Slot) (a t : State) : Prop :=
  ∀ m, t.slot unit m = if p m = true then g (a.slot unit m) else a.slot unit m

/-- One handle of a unit changes, and no other. -/
def HandleChange (unit h : Nat) (g : Handle → Handle) (a t : State) : Prop :=
  ∀ k, t.handle unit k = if k = h then g (a.handle unit k) else a.handle unit k

/-- Of cores and units only what `part` allows of the core on which the unit stands, and the unit's image, differ. -/
def OnlyAt (unit : Nat) (part : Core → Core → Core) (a t : State) : Prop :=
  let home := ((a.unit unit).bind UnitSt.core).getD 0
  (∀ k, t.core k = if k = home then part (a.core k) (t.core k) else a.core k)
  ∧ (∀ v, v ≠ unit → t.unit v = a.unit v) ∧ ∀ x, a.unit unit = some x → ∃ w, t.unit unit = some w ∧ w = { x with image := w.image }
/-- Slots alone, and handles alone. -/
def OnlySlots (unit : Nat) : State → State → Prop := OnlyAt unit fun k z => { k with slots := z.slots }
def OnlyHandles (unit : Nat) : State → State → Prop := OnlyAt unit fun k z => { k with handles := z.handles }

/-- What the descriptor of a slot becomes by a record (R206). -/
def described (r : Layout) (x : Slot) : Slot :=
  { x with bound := true, elem := if r.elem = 0 then 1 else if r.elem = 10 then 2 else 0
           prec := if 17 ≤ r.elem then r.elem - 16 else 0, inf := r.inf, masked := r.store == 3 }

end Sys2Proof.Claims

section
open Sys2Proof Sys2Proof.Machine Sys2Proof.Claims

/-- R217, R218, R220, R221, R224: products and tile clears enter `mq`, a product with the descriptors of its slots as it finds them (R210), or take the
emulation trap where a check of R218 fails or the immediate is none that they take. -/
def Obligations.MillWordsQueue : Prop :=
  ∀ (y : Bool) (g : BitVec 3) (d e : BitVec 7) (n b : BitVec 5) (s : State) (c : Ctx) (u : UnitSt), s.unit c.f.unit = some u →
    let imm : Nat := (c.limm.map BitVec.toNat).getD 0
    let len := imm / 2 ^ 16 + 1
    (Runs (.mma y g d n b) s c → MillWord (.mma y g d n b) s c (productFits s c u d.toNat n.toNat b.toNat 1 false [0])
      { op := .mma, tile := d.toNat, aSlot := n.toNat, bSlot := b.toNat, form := c.form, descs := descsOf s c n.toNat b.toNat [0] })
    ∧ (Runs (.mmas y g d n b) s c → MillWord (.mmas y g d n b) s c
        (imm < 2 ^ 20 ∧ imm % 2 ^ 16 = 0 ∧ productFits s c u d.toNat n.toNat b.toNat len true (List.range len))
        { op := .mmas, tile := d.toNat, n := len, aSlot := n.toNat, bSlot := b.toNat, form := c.form
          descs := descsOf s c n.toNat b.toNat (List.range len) })
    ∧ (Runs (.mmab y g d n b) s c → MillWord (.mmab y g d n b) s c
        (imm < 2 ^ 20 ∧ imm % 2 ^ 16 < 2 ^ len ∧ productFits s c u d.toNat n.toNat b.toNat len false
          ((List.range len).filter fun q => (imm % 2 ^ 16).testBit q))
        { op := .mmab, tile := d.toNat, n := len, aSlot := n.toNat, bSlot := b.toNat, form := c.form, bitmap := imm % 2 ^ 16
          descs := descsOf s c n.toNat b.toNat ((List.range len).filter fun q => (imm % 2 ^ 16).testBit q) })
    ∧ (Runs (.azero y g d e) s c → MillWord (.azero y g d e) s c (d.toNat + e.toNat + 1 ≤ tilesOf u)
        { op := .azero, tile := d.toNat, n := e.toNat + 1 })

/-- R209, R210, R211: claiming, releasing and binding slots. `MCLAIM` answers 1 and claims its slots where every one is free or the unit's
own, else answers 0; `MREL` enters `mq` and clears at once the descriptors of the slots it holds, but for HANDLE; `MBIND` enters `mq` and
writes the descriptor from its record at once.

R223, R225: tile elements to and from registers, and the conversion of a tile into the window. Where an active lane names an element beyond
the unit's tiles, or reads a poisoned one, `AMOV` takes the lane-fault trap: each such lane with cause 0 or 7, the address the lowest element
that fails. An element number below 0 is taken modulo 2^64, and `ACVT` takes the emulation trap where its tile is beyond the unit's before its
window is looked at, both by the model's choice (log 83). -/
def Obligations.SlotWordsAndTileMoves : Prop :=
  (∀ (y : Bool) (g : BitVec 3) (d h a : BitVec 7) (n k : BitVec 5) (s : State) (c : Ctx),
      let mine (m : Nat) : Prop := (s.slot c.f.unit m).claim = none ∨ (s.slot c.f.unit m).claim = some c.f.unit
      let named (m : Nat) : Bool := decide (n.toNat ≤ m ∧ m ≤ n.toNat + k.toNat)
      (∀ u, s.unit c.f.unit = some u → Runs (.mclaim y g d n k) s c → When (∀ m, named m = true → mine m)
        (Does (.mclaim y g d n k) s c fun p f t z => Only c (fun x => { x with cores := t.cores, units := t.units }) p t
          ∧ OnlySlots c.f.unit p t ∧ SlotsChange c.f.unit named (fun x => { x with claim := some c.f.unit }) p t
          ∧ OnlyLanes (Later c 4 d [1] f) z ∧ LanesGo f z c c.after)
        (Does (.mclaim y g d n k) s c fun p f t z => Only c id p t ∧ OnlyLanes (Later c 4 d [0] f) z ∧ LanesGo f z c c.after))
      ∧ (∀ u, s.unit c.f.unit = some u → Runs (.mrel y g n k) s c →
        Does (.mrel y g n k) s c fun p f t z =>
          Queued c .mq (.mrel n.toNat (k.toNat + 1)) 120 (fun x => { x with cores := t.cores, units := t.units }) p f t z
          ∧ OnlySlots c.f.unit p t ∧ SlotsChange c.f.unit (fun m => named m && (s.slot c.f.unit m).claim == some c.f.unit)
              (fun x => { x with bound := false, elem := 0, prec := 0, inf := false, masked := false }) p t)
      ∧ (Runs (.mbind y g h a n) s c → ∀ v, (begun (.mbind y g h a n) s c).unit c.f.unit = some v →
        Block (.mbind y g h a n) s c v (c.low32 a).toNat 64 64 (match parseLayout (v.winBytes (c.low32 a).toNat 64) with
          | none => exec (.mbind y g h a n) s = .next (s.emulWord c)
          | some r => When (r.exts = [32, 32] ∧ (r.elem = 0 ∨ r.elem = 10 ∨ 17 ≤ r.elem ∧ r.elem ≤ 23)
                ∧ (s.slot c.f.unit n.toNat).claim = some c.f.unit ∧ h.toNat ∈ v.lrec.handles)
              (Does (.mbind y g h a n) s c fun p f t z =>
                Queued c .mq (.mbind n.toNat h.toNat r c.f.rm) 120 (fun x => { x with cores := t.cores, units := t.units }) p f t z
                ∧ OnlySlots c.f.unit p t ∧ SlotsChange c.f.unit (fun m => m == n.toNat) (described r) p t)
              (exec (.mbind y g h a n) s = .next (s.emulWord c))))) ∧
  (∀ (y sc : Bool) (g : BitVec 3) (d a : BitVec 7) (x : BitVec 4) (tt : BitVec 5) (s : State) (c : Ctx),
      let elem (l : Nat) : Nat := (BitVec.ofInt 64 ((c.r32 a l).toNat + ((c.limm.map BitVec.toInt).getD 0))).toNat
      let k := s.core c.core
      let fault (read : Bool) (l : Nat) : Option Nat :=
        if 1024 * tilesOf c.unit ≤ elem l then some 0 else if read && k.tilePoison.get (elem l) then some 7 else none
      let bad (read : Bool) : List Nat := c.actLanes.filter fun l => (fault read l).isSome
      let lowest_ (read : Bool) : DWord := BitVec.ofNat 64 ((bad read).foldl (fun m l => min m (elem l)) (2 ^ 64) % 2 ^ 32)
      let trap (read : Bool) (code : Nat) : TrapRec :=
        { laneTrap .lane c.word c.pc c.act (laneMask fun l => (bad read).contains l) code (lowest_ read) with
          faults := (bad read).map fun l => (l, (fault read l).getD 0, lowest_ read) }
      (Runs (.amovRd y g d a x) s c →
        (bad true = [] → Does (.amovRd y g d a x) s c fun p f t z => OnlySheaf p t c.id c.unit.job ∧ LanesGo f z c c.after
          ∧ ∃ due, c.now + 3 < due ∧ OnlyLanes { f with timers := f.timers ++ [{
              due := due, lanes := c.act, dst := d, op := c.op
              words := (c.actLanes.map fun l => (l, [k.tiles.get (elem l)])).filter fun w => d.toNat < 104 ∨ lowest c.act = some w.1 }] } z)
        ∧ ∀ l rest, bad true = l :: rest → ∃ q, exec (.amovRd y g d a x) s = .next (s.trapWord q c (trap true ((fault true l).getD 0))))
      ∧ (Runs (.amovWr y g d a) s c →
        (bad false = [] →
          Does (.amovWr y g d a) s c fun p f t z => Only c (fun q => { q with cores := t.cores }) p t ∧ OnlyLanes f z ∧ LanesGo f z c c.after
            ∧ (∀ n, n ≠ c.core → t.core n = p.core n)
            ∧ t.core c.core = { p.core c.core with tiles := (t.core c.core).tiles, tilePoison := (t.core c.core).tilePoison
                                                   tileUnit := (t.core c.core).tileUnit, tileCtx := (t.core c.core).tileCtx }
            ∧ ∀ e, (t.core c.core).tiles.get e = match (c.actLanes.reverse.find? fun l => elem l == e) with
              | some l => c.r32 d l
              | none => (p.core c.core).tiles.get e)
        ∧ ∀ l rest, bad false = l :: rest → ∃ q, exec (.amovWr y g d a) s = .next (s.trapWord q c (trap false 0)))
      ∧ (Runs (.acvt y g d a sc tt) s c → When (d.toNat < tilesOf c.unit)
          (InWindow (.acvt y g d a sc tt) s c c.unit.lrec.win (c.low32 a).toNat 64 (if tt = 0 then 1024 else if tt = 10 then 2048 else 1056)
            (Does (.acvt y g d a sc tt) s c (Queued c .mq (.mill
              { op := .acvt, tile := d.toNat, addr := (c.low32 a).toNat, target := tt.toNat, sc := sc, inf := c.form % 2 = 1
                tr := c.form / 2 % 2 = 1, rm := c.f.rm }) 120 id)))
          (exec (.acvt y g d a sc tt) s = .next (s.emulWord c))))

/-- R229, R230, R232: `QMV` and `RJOIN` read their product block at issue and enter `nq`. That of a block with a reserved value and a misaligned Y
the emulation trap is taken is the model's choice (log 83). -/
def Obligations.ProductWordsQueue : Prop :=
  ∀ (y : Bool) (g : BitVec 3) (d a : BitVec 7) (i : Instr) (s : State) (c : Ctx) (u : UnitSt), i = .qmv y g d a ∨ i = .rjoin y g a →
    Runs i s c → (begun i s c).unit c.f.unit = some u →
    let w := (c.low32 a).toNat
    let v (o : Nat) : Nat := u.winValue (w + o) 4
    let b : ProductBlock := { addr := w, mrec := BitVec.ofNat 64 (u.winValue w 8), slc := v 8, n := v 0x0C, x := v 0x10, xstride := v 0x14
                              y := v 0x18, h := v 0x1C, atile := v 0x20 }
    Block i s c u w 64 64
      (When (1 ≤ b.n ∧ b.n ≤ 32 ∧ b.h < 128 ∧ b.atile < 128 ∧ v 0x28 < 2 ∧ (∀ x ∈ u.winBytes (w + 0x2C) 20, x = 0) ∧ b.atile < tilesOf u
          ∧ b.h ∈ u.lrec.handles)
        (When (b.y % 8 = 0)
          (Does i s c (Queued c .nq (if i = .rjoin y g a then .rjoin b {} [] none else .qmv b {} 0 [] false none) (if i = .rjoin y g a then 120 else d) id))
          (TakesTrap i s c (laneTrap .lane c.word c.pc c.act c.act 2 (BitVec.ofNat 64 b.y))))
        (exec i s = .next (s.emulWord c)))

/-- R245 to R250: `COPY` reads its block at issue. A copy whose records an engine reads at its start enters its queue at once; one whose records
are read at issue enters with them, and a record that is malformed, off its alignment or bounds, or unreadable ends the word; a destination
slot is described at once; a follow-on Mill word enters `mq` behind it, and the `COPY` is held while that word's flag stands at 63. That this word is read
with FORM 0 is the model's reading (log 41). -/
def Obligations.CopyWordQueues : Prop :=
  ∀ (y m : Bool) (g q r : BitVec 3) (h a : BitVec 7) (s : State) (c : Ctx) (u : UnitSt),
    let i := Instr.copy y g h a q m r
    Runs i s c → (begun i s c).unit c.f.unit = some u →
    let w := (c.low32 a).toNat
    let v (o : Nat) : Nat := u.winValue (w + o) 4
    let ctl := v 0x1C
    let ff := ctl / 2 ^ 8 % 16
    let sh : Option Nat := if ctl.testBit 7 = true then some (ctl % 128) else none
    let base : CopyWork := { route := r.toNat, h := h.toNat, sh := sh, srec := BitVec.ofNat 64 (u.winValue w 8)
                             drec := BitVec.ofNat 64 (u.winValue (w + 8) 8), limit := v 0x18, rm := c.f.rm }
    let queue : QName := if q = 0 then .cq0 else if q = 1 then .cq1 else if q = 2 then .cq2 else if q = 3 then .cq3 else .fq
    let fits : Prop := v 0x14 < 2 ^ 25 ∧ ctl < 2 ^ 13 ∧ (ff < 12 ∨ ff = 15) ∧ h.toNat ∈ u.lrec.handles ∧ (∀ x ∈ sh, x ∈ u.lrec.handles)
    Block i s c u w 32 32
      ((¬ fits → exec i s = .next (s.emulWord c))
      ∧ (fits → ctl.testBit 12 = false → r ≠ 1 → r ≠ 5 → m = false → Does i s c (Queued c queue (.copy base) 120 id))
      ∧ (fits → ∀ b, parseCopyBlock (u.winBytes w 32) = some b → (begun i s c).copyRecords u b base = .emul → exec i s = .next (s.emulWord c))
      ∧ (fits → ∀ b cause at_, parseCopyBlock (u.winBytes w 32) = some b → (begun i s c).copyRecords u b base = .trap cause at_ →
          TakesTrap i s c (laneTrap .lane c.word c.pc c.act c.act cause at_))
      ∧ (fits → ∀ b x, parseCopyBlock (u.winBytes w 32) = some b → (begun i s c).copyRecords u b base = .serve x → Served i s c x)
      ∧ (fits → ∀ b cw, parseCopyBlock (u.winBytes w 32) = some b → (begun i s c).copyRecords u b base = .ok cw →
          (r ≠ 1 → r ≠ 5 → m = false → Does i s c (Queued c queue (.copy cw) 120 id))
          ∧ (∀ l, r = 1 ∨ r = 5 → m = false → cw.dst = some l → When ((s.slot c.f.unit (l.base.toNat % 32)).claim = some c.f.unit)
              (Does i s c fun p f t z => Queued c queue (.copy cw) 120 (fun x => { x with cores := t.cores, units := t.units }) p f t z
                ∧ OnlySlots c.f.unit p t
                ∧ SlotsChange c.f.unit (fun k => k == l.base.toNat % 32) (fun x => { described l x with handle := h.toNat }) p t)
              (exec i s = .next (s.emulWord c)))
          ∧ (∀ j k f1, r ≠ 1 → r ≠ 5 → m = true → (s.advance c (c.shapeOf i)).sheaf c.id = some f1 → decode b.mcmd = .ok j →
              (shape j 0 b.mimm.isSome).y = false → (shape j 0 b.mimm.isSome).guard = 7 → (shape j 0 b.mimm.isSome).fields = true →
              s.millWork c.f.unit j 0 b.mimm = some k → When (flagFull f1 ff c.act = false)
              (Does i s c fun p f t z => ∃ n1 n2 op, p.fresh ≤ n1 ∧ n1 < op ∧ op < n2
                ∧ Only c (fun x => { x with entries := p.entries ++ [
                    { id := n1, queue := queue, core := c.core, owner := ownerOf c 120, work := .copy cw, issued := c.now },
                    { id := n2, queue := .mq, core := c.core, owner := { ownerOf c 120 with op := op }, work := .mill k, issued := c.now }] }) p t
                ∧ OnlyLanes f z ∧ LanesGo f z c c.after)
              (exec i s = .next s))))

/-- R253: `GATHER` reads its block and both records at issue; a record off its alignment or bounds takes the lane-fault trap, one that reads
badly is served, and one that does not fit the emulation trap.

R255, R257: a ring is built from its block and record; a post to a drain ring fills its slot's handle, or takes the handle-idle trap where
the handle is not free or no chunk is left for it. -/
def Obligations.GatherAndRingWords : Prop :=
  (∀ (y : Bool) (g : BitVec 3) (h a : BitVec 7) (s : State) (c : Ctx) (u : UnitSt), Runs (.gather y g h a) s c →
      (begun (.gather y g h a) s c).unit c.f.unit = some u →
      let w := (c.low32 a).toNat
      let v (o n : Nat) : Nat := u.winValue (w + o) n
      let ctl := v 0x14 4
      let dsp := ctl / 8 % 4
      Block (.gather y g h a) s c u w 32 32
        (When (ctl < 32 ∧ dsp ≠ 3 ∧ ctl % 4 < 2 ∧ v 0x18 8 = 0 ∧ v 0x10 4 ≠ 0 ∧ h.toNat ∈ u.lrec.handles)
          ((∀ cause at_, u.windowRecord (BitVec.ofNat 64 (v 0 4)) = .bad cause at_ →
              TakesTrap (.gather y g h a) s c (laneTrap .lane c.word c.pc c.act c.act cause at_))
          ∧ (∀ A cause at_, u.windowRecord (BitVec.ofNat 64 (v 0 4)) = .ok A → u.windowRecord (BitVec.ofNat 64 (v 4 4)) = .bad cause at_ →
              TakesTrap (.gather y g h a) s c (laneTrap .lane c.word c.pc c.act c.act cause at_))
          ∧ (∀ A q, u.windowRecord (BitVec.ofNat 64 (v 0 4)) = .ok A → u.windowRecord (BitVec.ofNat 64 (v 4 4)) = .unread q →
              Served (.gather y g h a) s c q)
          ∧ (∀ q D, u.windowRecord (BitVec.ofNat 64 (v 0 4)) = .unread q → u.windowRecord (BitVec.ofNat 64 (v 4 4)) = .ok D →
              Served (.gather y g h a) s c q)
          ∧ ∀ A D, u.windowRecord (BitVec.ofNat 64 (v 0 4)) = .ok A → u.windowRecord (BitVec.ofNat 64 (v 4 4)) = .ok D →
            When (D.count = v 0x10 4 * (A.count / A.exts.getLastD 1) ∧ (dsp = 1 → D.slotRecord = true
                ∧ (s.slot c.f.unit (D.base.toNat % 32)).claim = some c.f.unit))
              (Does (.gather y g h a) s c fun p f t z =>
                Queued c .gq (.gather { h := h.toNat, table := A, dst := D, dsp := dsp, idx := BitVec.ofNat 64 (v 8 8), count := v 0x10 4
                                        isp := ctl.testBit 2, wide := ctl % 4 = 1, rm := c.f.rm }) 120
                  (fun x => { x with cores := t.cores, units := t.units }) p f t z
                ∧ OnlySlots c.f.unit p t ∧ SlotsChange c.f.unit (fun k => dsp == 1 && k == D.base.toNat % 32)
                    (fun x => { described D x with handle := h.toNat }) p t)
              (exec (.gather y g h a) s = .next (s.emulWord c)))
          (exec (.gather y g h a) s = .next (s.emulWord c)))) ∧
  (∀ (y : Bool) (g : BitVec 3) (h a : BitVec 7) (s : State) (c : Ctx) (u : UnitSt),
      (Runs (.stream y g a) s c → (begun (.stream y g a) s c).unit c.f.unit = some u →
        let w := (c.low32 a).toNat
        let v (o : Nat) : Nat := u.winValue (w + o) 4
        let ctl := v 0x10
        let q := ctl / 2 ^ 20 % 8
        let selem := ctl / 2 ^ 14 % 32
        let h0 := ctl / 2 ^ 7 % 128
        let n := ctl % 128
        Block (.stream y g a) s c u w 32 32
          (When (ctl < 2 ^ 23 ∧ q < 4 ∧ selem ≠ 16 ∧ selem ≠ 24 ∧ 1 ≤ n ∧ n ≤ 32 ∧ h0 + n ≤ 128 ∧ v 0x0C ≠ 0 ∧ v 0x08 % 128 = 0
              ∧ v 0x0C * elemBytes selem ≤ v 0x08 ∧ v 0x04 % 128 = 0 ∧ (∀ x ∈ u.winBytes (w + 0x14) 12, x = 0)
              ∧ ∀ k, k < n → h0 + k ∈ u.lrec.handles ∧ (s.handle c.f.unit (h0 + k)).state = .free)
            ((∀ cause at_, u.windowRecord (BitVec.ofNat 64 (v 0)) = .bad cause at_ →
                TakesTrap (.stream y g a) s c (laneTrap .lane c.word c.pc c.act c.act cause at_))
            ∧ (∀ x, u.windowRecord (BitVec.ofNat 64 (v 0)) = .unread x → Served (.stream y g a) s c x)
            ∧ (u.windowRecord (BitVec.ofNat 64 (v 0)) = .malformed → exec (.stream y g a) s = .next (s.emulWord c))
            ∧ ∀ r, u.windowRecord (BitVec.ofNat 64 (v 0)) = .ok r → Does (.stream y g a) s c (Queued c
              (if q = 0 then .cq0 else if q = 1 then .cq1 else if q = 2 then .cq2 else .cq3)
              (.ring { layout := r, slot0 := v 0x04, slotB := v 0x08, chunk := v 0x0C, drain := ctl.testBit 19, selem := selem, h0 := h0, n := n
                       rm := c.f.rm }) 120 id))
            (exec (.stream y g a) s = .next (s.emulWord c))))
      ∧ (Runs (.streamPost y g h) s c → s.unit c.f.unit = some u →
        (s.drainRing c.f.unit h.toNat = none → exec (.streamPost y g h) s = .next (s.emulWord c))
        ∧ ∀ e r, s.drainRing c.f.unit h.toNat = some (e, r) →
          let k := h.toNat - r.h0
          ((s.handle c.f.unit h.toNat).state ≠ .free → TakesTrap (.streamPost y g h) s c
            { emulRecord c with kind := .idle, ema := h.setWidth 32, emb := 4 })
          ∧ ((s.handle c.f.unit h.toNat).state = .free → r.chunksOf k ≤ r.posts.get k → TakesTrap (.streamPost y g h) s c
            { emulRecord c with kind := .idle, ema := h.setWidth 32, emb := 0 })
          ∧ ((s.handle c.f.unit h.toNat).state = .free → r.posts.get k < r.chunksOf k → Does (.streamPost y g h) s c fun p f t z =>
              Only c (fun x => { x with cores := t.cores, units := t.units, entries := t.entries }) p t
              ∧ OnlyHandles c.f.unit p t ∧ HandleChange c.f.unit h.toNat (fun x => { x with state := .full }) p t
              ∧ t.entries = p.entries.map (fun x => if x.id = e.id then { x with work := .ring { r with posts := r.posts.set k (r.posts.get k + 1) } } else x)
              ∧ OnlyLanes f z ∧ LanesGo f z c c.after)))

/-- R174, R175, R176: handle words. A handle outside the unit's set takes the emulation trap. A wait lets its lanes go on when the handle stands as it
asks, holds them while something under way will bring that about, and else takes the handle-idle trap with its cause. A second `HREL` of a
handle in one cycle has no effect (R177).
The cycles until `HSTAT` answers are free (log 13). -/
def Obligations.HandleWords : Prop :=
  ∀ (y : Bool) (g : BitVec 3) (d h : BitVec 7) (s : State) (c : Ctx) (u : UnitSt), s.unit c.f.unit = some u →
    let x := s.handle c.f.unit h.toNat
    let own := h.toNat ∈ c.unit.lrec.handles
    let idle (k : Word) : TrapRec := { emulRecord c with kind := .idle, ema := h.setWidth 32, emb := k }
    let held (i : Instr) (full : Bool) : Prop := Does i s c fun p f t z => OnlySheaf p t c.id c.unit.job ∧ OnlyLanes f z ∧ ∀ l, l < 32 →
      if c.lanes.getLsbD l = false then z.lane l = f.lane l
      else if c.act.getLsbD l = true then (z.lane l).pc = c.pc ∧ (z.lane l).hold = .hwait full h.toNat
      else (z.lane l).pc = c.pc + 4 ∧ (z.lane l).hold = (f.lane l).hold
    (∀ i, i = .hwaitFree y g h ∨ i = .hwaitFull y g h ∨ i = .hrel y g h ∨ i = .hstat y g d h → Runs i s c → ¬ own →
      exec i s = .next (s.emulWord c))
    ∧ (Runs (.hwaitFree y g h) s c → own →
      (x.state = .free → Completes (.hwaitFree y g h) s c c.after WritesNothing)
      ∧ (x.state ≠ .free → s.willFree c.f.unit h.toNat = true → held (.hwaitFree y g h) false)
      ∧ (x.state ≠ .free → s.willFree c.f.unit h.toNat = false → TakesTrap (.hwaitFree y g h) s c (idle 0)))
    ∧ (Runs (.hwaitFull y g h) s c → own →
      (x.state = .full → x.err = false → x.ovf = false → Completes (.hwaitFull y g h) s c c.after WritesNothing)
      ∧ (x.state ≠ .full → s.willFill c.f.unit h.toNat = true → held (.hwaitFull y g h) true)
      ∧ (x.state = .full → x.err = true ∨ x.ovf = true →
          TakesTrap (.hwaitFull y g h) s c (idle (if x.err = true then 1 else 3)))
      ∧ (x.state ≠ .full → s.willFill c.f.unit h.toNat = false →
          TakesTrap (.hwaitFull y g h) s c (idle (if x.state = .free ∧ x.torn = true then 2 else 0))))
    ∧ (Runs (.hrel y g h) s c → own → When (x.relAt = some c.now)
        (Completes (.hrel y g h) s c c.after WritesNothing)
        (When (x.state = .filling ∨ x.state = .draining) (TakesTrap (.hrel y g h) s c (idle 4))
          (Does (.hrel y g h) s c fun p f t z => Only c (fun q => { q with cores := t.cores, units := t.units }) p t
            ∧ OnlyHandles c.f.unit p t ∧ HandleChange c.f.unit h.toNat (fun q =>
              { q with state := .free, err := false, torn := false, ovf := false, relAt := some c.now }) p t
            ∧ OnlyLanes f z ∧ LanesGo f z c c.after)))
    ∧ (Runs (.hstat y g d h) s c → own → Does (.hstat y g d h) s c fun p f t z => Only c id p t ∧ LanesGo f z c c.after
        ∧ ∃ k, 1 ≤ k ∧ OnlyLanes (Later c k d [BitVec.ofNat 32 ((match x.state with
            | .free => 0
            | .filling => 1
            | .full => 2
            | .draining => 3) + (if x.err = true then 4 else 0) + (if x.torn = true then 8 else 0) + (if x.ovf = true then 16 else 0)),
          BitVec.ofNat 32 x.size] f) z)

/-- R252, R267, R268, R269, R273 to R275: fences put one entry into every queue they name; `SCFG` sets the sheaf's operator; a scan and the chain
words enter `sq`. A chain word of a unit that is no member takes the emulation trap. -/
def Obligations.ScanWords : Prop :=
  ∀ (y : Bool) (g w : BitVec 3) (v : BitVec 2) (d a : BitVec 7) (s : State) (c : Ctx) (u : UnitSt),
    let x := (c.low32 a).toNat
    let k := (2 ^ (c.f.scc.toNat % 4)) ^ 2 + 2 ^ (c.f.scc.toNat % 4)
    (Runs (.qfence y g v d) s c → Does (.qfence y g v d) s c fun p f t z => ∃ es,
      Only c (fun q => { q with entries := p.entries ++ es }) p t ∧ OnlyLanes f z ∧ LanesGo f z c c.after
      ∧ es.map (fun e => (e.queue, e.core, e.owner, e.work, e.stage)) = (([(0, QName.cq0), (1, .cq1), (2, .cq2), (3, .cq3), (4, .gq), (5, .mq),
          (6, .nq), (7, .sq), (8, .fq)].filter fun n => (v.toNat * 128 + d.toNat).testBit n.1).map
        fun n => (n.2, c.core, ownerOf c 120, Work.fence c.op, Stage.queued)))
    ∧ (Runs (.scfg y g w v) s c → Does (.scfg y g w v) s c fun p f t z => Only c id p t ∧ LanesGo f z c c.after
      ∧ OnlyLanes { f with scc := BitVec.ofNat 32 (c.form * 32 + w.toNat * 4 + v.toNat)
                           timers := f.timers ++ [{ due := c.now + 1, lanes := c.act, dst := 120, words := [], op := c.op }] } z)
    ∧ (Runs (.scan y g a) s c → (begun (.scan y g a) s c).unit c.f.unit = some u →
      Block (.scan y g a) s c u x 32 32 (match parseScan u x c.f.scc c.f.rm with
        | none => exec (.scan y g a) s = .next (s.emulWord c)
        | some b => match b.check u.lrec.win with
          | some (cause, at_) => TakesTrap (.scan y g a) s c (laneTrap .lane c.word c.pc c.act c.act cause (BitVec.ofNat 64 at_))
          | none => Does (.scan y g a) s c (Queued c .sq (.scan b) 120 id)))
    ∧ (∀ i, i = .csend y g a ∨ i = .crecv y g a → Runs i s c → (begun i s c).unit c.f.unit = some u →
      When (s.memberOf c.f.unit).isSome
        (InWindow i s c u.lrec.win x 4 (4 * k) (Does i s c (Queued c .sq
          (if i = .csend y g a then .csend x c.f.scc.toNat none else .crecv x c.f.scc.toNat) 120 id)))
        (exec i s = .next (s.emulWord c)))
    ∧ (Runs (.cbar y g d) s c → When (s.memberOf c.f.unit).isSome (Does (.cbar y g d) s c (Queued c .sq .cbar d id))
        (exec (.cbar y g d) s = .next (s.emulWord c)))

/-- R321, R320: `GROW` sends its request, with the generation of its unit, to the dispatcher; a launch of more than one extent takes the
emulation trap. That it travels as a spawn does is the model's choice (log 45); what the dispatcher does with it is `UnitEvents`.

R322, R349: `SPAWN` reads its record at issue and sends it, with the cull stamp in force, on its way to the matcher. -/
def Obligations.GrowAndSpawnWords : Prop :=
  (∀ (y : Bool) (g : BitVec 3) (d a : BitVec 7) (s : State) (c : Ctx), Runs (.grow y g d a) s c →
      When (∀ l, s.launch c.unit.launch = some l → l.lrec.extents = 1)
        (Does (.grow y g d a) s c fun p f t z => ∃ n, p.fresh ≤ n ∧ OnlyLanes f z ∧ LanesGo f z c c.after
          ∧ Only c (fun q => { q with spawns := p.spawns ++ [{
              id := n, owner := ownerOf c d, core := c.core, grow := some (c.low32 a).toNat, cancelGen := c.unit.cancelGen }] }) p t)
        (exec (.grow y g d a) s = .next (s.emulWord c))) ∧
  (∀ (y : Bool) (g : BitVec 3) (d a : BitVec 7) (s : State) (c : Ctx) (u : UnitSt), Runs (.spawn y g d a) s c →
      (begun (.spawn y g d a) s c).unit c.f.unit = some u →
      let w := (c.low32 a).toNat
      let x := u.winValue (w + 0x10) 4
      let nr := x % 16
      let nw := x / 16 % 16
      let base (i : Nat) : Nat := u.winValue (w + 0x20 + 16 * i) 8
      let len (i : Nat) : Nat := u.winValue (w + 0x28 + 16 * i) 4
      let all := 32 + 16 * (nr + nw)
      Block (.spawn y g d a) s c u w 32 32
        (When (x < 2 ^ 24 ∧ x.testBit 8 = false ∧ nr ≤ 4 ∧ nw ≤ 4 ∧ ∀ b ∈ u.winBytes (w + 0x14) 12, b = 0)
          (Block (.spawn y g d a) s c u w 32 all
            (When (∀ i, i < nr + nw → len i ≠ 0 ∧ base i + len i ≤ 2 ^ 57 ∧ u.winValue (w + 0x2C + 16 * i) 4 = 0)
              (Does (.spawn y g d a) s c fun p f t z => ∃ n, p.fresh ≤ n ∧ OnlyLanes f z ∧ LanesGo f z c c.after
                ∧ Only c (fun q => { q with spawns := p.spawns ++ [{
                    id := n, owner := ownerOf c d, core := c.core, krec := BitVec.ofNat 64 (u.winValue w 8)
                    args := BitVec.ofNat 64 (u.winValue (w + 8) 8), cancelGen := u.cancelGen
                    remote := if x.testBit 23 = true then some (x / 2 ^ 9 % 2 ^ 14) else none
                    ranges := (List.range (nr + nw)).map fun i => { write := decide (nr ≤ i), base := base i, len := len i }
                    stamp := if c.f.bndc.getLsbD 7 = true then some (c.f.bndc, (c.f.lane (lowLaneOf c.act)).bnd) else none }] }) p t)
              (exec (.spawn y g d a) s = .next (s.emulWord c))))
          (exec (.spawn y g d a) s = .next (s.emulWord c))))

/-- R331, R332, R334, R432: a push or pop of a queue in the window or in the virtual address space sends one word with an item for each active
lane and holds its lanes, once the size of an item has been read from its descriptor and fits; so does a barrier hold its own. That a word whose descriptor in the window reads badly is tried again (log 78), and that of a
descriptor's address the canonical form is looked at before the alignment (log 83), are the model's.

R318, R319: a `CWAIT` whose counter reads zero lets its lanes go on and drops the read cache, else it holds them; `CANCEL` of a unit's own
subtree marks every running unit under it and removes those that have not begun, and a `CANCEL` of its job marks every other running unit of
the job. The issuing sheaf's unit is not a saved one, as no sheaf that issues is. -/
def Obligations.QueueWaitAndCancelWords : Prop :=
  (∀ (y push virt : Bool) (g : BitVec 3) (d a : BitVec 7) (k : BitVec 4) (s : State) (c : Ctx) (u : UnitSt),
      let form : BitVec 2 := if virt then 1 else 0
      let i := if push then Instr.qpush y g d a form else Instr.qpop y g d a form
      let held (h : Hold) (f z : Sheaf) : Prop := ∀ l, l < 32 → if c.lanes.getLsbD l = false then z.lane l = f.lane l
        else if c.act.getLsbD l = true then (z.lane l).pc = c.pc ∧ (z.lane l).hold = h
        else (z.lane l).pc = c.pc + 4 ∧ (z.lane l).hold = (f.lane l).hold
      let sends (size : Nat) (key : QKey) : Prop :=
        let regs := size / 4
        When ((size = 4 ∨ size = 8 ∨ size = 16 ∨ size = 32) ∧ d.toNat % regs = 0 ∧ d.toNat + regs ≤ c.unit.lrec.nv)
          ((push = true → ∀ l j, c.act.getLsbD l = true → j < regs → c.poisonIn (d.toNat + j) l = none) →
            Does i s c fun p f t z => ∃ n, p.fresh ≤ n ∧ OnlyLanes f z ∧ held (.queue n) f z
              ∧ Only c (fun q => { q with qwords := p.qwords ++ [{
                  id := n, key := key, push := push, owner := ownerOf c d, size := size
                  items := c.actLanes.map fun l => (l, if push = true then (List.range size).map fun j =>
                    BitVec.ofNat 8 ((c.reg (d.toNat + j / 4) l).toNat / 256 ^ (j % 4)) else [])
                  stamp := (List.range 8).map f.committed.get }] }) p t)
          (exec i s = .next (s.emulWord c))
      (Runs i s c → (begun i s c).unit c.f.unit = some u →
        (virt = false → InWindow i s c u.lrec.win (c.low32 a).toNat 64 64
          ((u.winPoisoned ((c.low32 a).toNat + 0x0C) 4 = true → Served i s c (u.badWords ((c.low32 a).toNat + 0x0C) 4))
          ∧ (u.winPoisoned ((c.low32 a).toNat + 0x0C) 4 = false → sends (u.winValue ((c.low32 a).toNat + 0x0C) 4) { unit := some c.f.unit, job := u.job, addr := (c.low32 a).toNat })))
        ∧ (virt = true →
          let va := c.low64 a
          (2 ^ 57 ≤ va.toNat → TakesTrap i s c (laneTrap .lane c.word c.pc c.act c.act 3 va))
          ∧ (va.toNat < 2 ^ 57 → va.toNat % 64 ≠ 0 → TakesTrap i s c (laneTrap .lane c.word c.pc c.act c.act 2 va))
          ∧ (va.toNat < 2 ^ 57 → va.toNat % 64 = 0 →
              (∀ x, (begun i s c).readVaNat u.ctx (va + 0x0C) 4 = .error x → if x.serviceable = true then Served i s c x
                else TakesTrap i s c (laneTrap .lane c.word c.pc c.act c.act x.cause x.addr))
              ∧ ∀ size, (begun i s c).readVaNat u.ctx (va + 0x0C) 4 = .ok size → sends size { job := u.job, addr := va.toNat })))
      ∧ (Runs (.bar y k) s c → Does (.bar y k) s c fun p f t z => OnlySheaf p t c.id c.unit.job ∧ OnlyLanes f z ∧ held (.bar c.op) f z)) ∧
  (∀ (y : Bool) (g n : BitVec 3) (s : State) (c : Ctx),
      (Runs (.cwait y g n) s c → ∀ p, p = s.advance c (c.shapeOf (.cwait y g n)) → When (p.cwaitTest c.f.unit n.toNat = true)
        (Does (.cwait y g n) s c fun a f t z => Only c (fun q => { q with cores := t.cores }) a t ∧ OnlyLanes f z ∧ LanesGo f z c c.after
          ∧ ∀ k, t.core k = if k = c.core then { a.core k with cache := [] } else a.core k)
        (Does (.cwait y g n) s c fun a f t z => OnlySheaf a t c.id c.unit.job ∧ OnlyLanes f z ∧ ∀ l, l < 32 →
          if c.lanes.getLsbD l = false then z.lane l = f.lane l
          else if c.act.getLsbD l = true then (z.lane l).pc = c.pc ∧ (z.lane l).hold = .cwait n.toNat
          else (z.lane l).pc = c.pc + 4 ∧ (z.lane l).hold = (f.lane l).hold))
      ∧ (Runs (.cancel y g n) s c → (∀ f x, s.sheaf c.id = some f → s.unit f.unit = some x → x.stage ≠ .saved) → ∃ t z p, exec (.cancel y g n) s = .next t ∧ t.sheaf c.id = some z
        ∧ p = s.advance c (c.shapeOf (.cancel y g n))
        ∧ (∀ k x, p.unit k = some x → k ≠ c.f.unit → x.stage = .resident →
            (n = 0 ∧ p.isUnder c.f.unit k = true ∨ n = 4 ∧ x.job = c.unit.job) → ∃ w, t.unit k = some w ∧ w.cancelled = true)
        ∧ (∀ k x, p.unit k = some x → k ≠ c.f.unit → n = 0 → p.isUnder c.f.unit k = true → x.stage = .matched ∨ x.stage = .listed →
            ∃ w, t.unit k = some w ∧ w.stage = .removed)
        ∧ (∀ k x, p.unit k = some x → n = 0 → p.isUnder c.f.unit k = false → ∀ w, t.unit k = some w → w.cancelled = x.cancelled)
        ∧ (∀ l, l < 32 → c.lanes.getLsbD l = true → (z.lane l).pc = c.pc + 4)))

/-- R340 to R345: incumbent words. An update and a package-scope read send one message to the root; a read of the core's replica answers after
four cycles; `BNDSET` and `BNDCFG` set the cull test.
The reserved bits of `BNDC` are the model's reading (log 50). -/
def Obligations.IncumbentWords : Prop :=
  ∀ (y b : Bool) (g : BitVec 3) (d a : BitVec 7) (n : BitVec 4) (s : State) (c : Ctx),
    let reg (k : Nat) : Inc := ((s.job c.unit.job).map fun x => x.incs.get k).getD {}
    let usable (k : Nat) : Prop := (reg k).decl.getLsbD 4 = true ∧ (b = true → (reg k).decl.getLsbD 3 = true)
    let seen : Word × Word := s.replica c.unit.job n.toNat false c.core
    (Runs (.incup y g d a b n) s c → When (usable n.toNat ∧ (c.flag = 15 ↔ d = 120))
      (Does (.incup y g d a b n) s c fun p f t z => ∃ k, p.fresh ≤ k ∧ OnlyLanes f z ∧ LanesGo f z c c.after
        ∧ Only c (fun q => { q with incMsgs := p.incMsgs ++ [{
            id := k, owner := ownerOf c d, job := c.unit.job, reg := n.toNat, payload := b
            lanes := c.actLanes.map fun l => if b = true then (l, lo32 (c.r64 a l), hi32 (c.r64 a l)) else (l, c.r32 a l, 0) }] }) p t)
      (exec (.incup y g d a b n) s = .next (s.emulWord c)))
    ∧ (Runs (.incrd y g d b n) s c →
      (¬ (usable n.toNat ∧ (c.x.scope = 0 ∨ c.x.scope = 7)) → exec (.incrd y g d b n) s = .next (s.emulWord c))
      ∧ (usable n.toNat → c.x.scope = 0 → Does (.incrd y g d b n) s c fun p f t z => LanesGo f z c c.after
          ∧ OnlyLanes (Later c 4 d (if b = true then [seen.1, seen.2] else [seen.1]) f) z
          ∧ Only c (fun q => { q with cores := t.cores }) p t ∧ ∀ k, t.core k = if k = c.core then { p.core k with cache := [] } else p.core k)
      ∧ (usable n.toNat → c.x.scope = 7 → Does (.incrd y g d b n) s c fun p f t z => ∃ k, p.fresh ≤ k ∧ OnlyLanes f z ∧ LanesGo f z c c.after
          ∧ Only c (fun q => { q with incMsgs := p.incMsgs ++ [{
              id := k, owner := ownerOf c d, job := c.unit.job, reg := n.toNat, payload := b, read := true }] }) p t))
    ∧ (Runs (.bndset y g a) s c → Does (.bndset y g a) s c fun p f t z => OnlySheaf p t c.id c.unit.job ∧ OnlyLanes f z
        ∧ ∀ l, l < 32 → (z.lane l).bnd = (if c.act.getLsbD l = true then c.r32 a l else (f.lane l).bnd)
          ∧ (c.lanes.getLsbD l = true → (z.lane l).pc = c.pc + 4))
    ∧ (Runs (.bndcfg y g a) s c →
      let v := c.low32 a
      let i := reg (v.toNat % 16)
      When (v.toNat < 2 ^ 10 ∧ v.getLsbD 4 = false ∧ (v.getLsbD 7 = true → i.decl.getLsbD 4 = true ∧ v.toNat / 2 ^ 8 % 4 = i.decl.toNat % 4
          ∧ v.getLsbD 5 = i.decl.getLsbD 2))
        (Does (.bndcfg y g a) s c fun p f t z => OnlySheaf p t c.id c.unit.job ∧ LanesGo f z c c.after ∧ OnlyLanes { f with bndc := v } z)
        (exec (.bndcfg y g a) s = .next (s.emulWord c)))

end


section
open Sys2Proof Sys2Proof.Machine Sys2Proof.Claims

/-- R249, R251, R253, R256, R258: entries of the copy queues. A copy starts on a free handle, and on a full source handle if it names one; a
started copy without a fault moves its tensor and ends; the slow path serves the cause and tries again once an engine is free, with the elements
obtained before kept, and what it gives up on ends the copy with its error. A ring starts the lowest chunk whose handle lets it start.
That a copy's data moves when it completes, and that the elements obtained before a fault are kept and the slow path goes on from them, are the
model's choices (logs 27 and 26). -/
def Obligations.CopyEvents : Prop :=
  ∀ (s : State) (id : Nat) (e : Entry), s.entry id = some e →
    let u := e.owner.unit
    (∀ c, e.work = .copy c → s.mayStart e = true → c.node = none → c.block = none → c.route < 6 → c.src.isSome = true → c.dst.isSome = true → c.endpoint = none →
      c.agrees = true → (s.handle u c.h).state = .free → (∀ h, c.sh = some h → (s.handle u h).state = .full) →
      ∃ t, exec (.copyStart id) s = .next t ∧ t.entry id = some { e with stage := .started, due := 0 }
        ∧ t = { s with cores := t.cores, units := t.units, entries := t.entries, jobs := t.jobs }
        ∧ (s.unit u ≠ none → ∀ k, t.handle u k = if c.sh = some k then { s.handle u k with state := .draining
                                                                                           size := if (s.handle u k).ovf = true then (s.handle u k).size else 0 }
            else if k = c.h then { s.handle u k with state := .filling, err := false, torn := false, ovf := false, size := 0, lastSlot := none }
            else s.handle u k))
    ∧ (∀ g, e.work = .gather g → s.mayStart e = true → (s.handle u g.h).state = .free →
      exec (.copyStart id) s = .next ((s.setHandle u g.h ((s.handle u g.h).fill none)).start e e.work 0))
    ∧ (∀ r, e.work = .ring r → s.mayStart e = true → exec (.copyStart id) s = .next ((s.start e e.work 0).parkRing id))
    ∧ (∀ c (served : Bool), e.work = .copy c → e.orphan = false → c.block = none → c.route < 6 → c.src.isSome = true → c.dst.isSome = true → c.endpoint = none →
      c.agrees = true →
      let a := (c.sides e).1
      let b := (c.sides e).2
      let moved (s : State) : Moved := s.move a b c.limit c.rm (overlay (s.sideElems a) c.got) true
      let cond (s : State) : Option Poison := firstCond (overlay (s.sideElems a) c.got) <|> (moved s).stop
      let done (s : State) (e : Entry) : State := ((moved s).s.chargeMove a b (s.sideBytes a) (moved s).size).endCopy e c
        (if (s.sidePrefix a && (moved s).cond.isNone) = true then { moved s with cond := some lacking } else moved s)
      (e.stage = .started → cond s = none → exec (.copyComplete id) s = .next (done s e))
      ∧ (e.stage = .slow →
        let z := match firstCond (overlay (s.sideElems a) c.got) with
          | some p => if served = true then s.healWords u p else s
          | none => s
        (served = true → cond z = none) → s.engineFree e = true → exec (.copySlowPath id served []) s = .next (done z { e with stage := .started })))
    ∧ (∀ g, e.work = .gather g → e.stage = .started → e.orphan = false → exec (.copyComplete id) s = .next (s.runGather e g false))
    ∧ (∀ r c rest, e.work = .ring r → e.stage = .started → e.orphan = false → r.running = c :: rest →
      exec (.copyComplete id) s = .next (s.runChunk e r c false))
    ∧ (∀ r k, e.work = .ring r → e.stage = .started → e.saved = false →
      let can (j : Nat) : Prop := r.chunkAt j < r.total ∧ (s.handle u (r.h0 + j)).state = (if r.drain = true then .full else .free)
      k < r.n → can k → (∀ j, j < r.n → can j → r.chunkAt k ≤ r.chunkAt j) →
      let h := r.h0 + k
      exec (.ringChunkStart id) s = .next ((s.setHandle u h (if r.drain = true then (s.handle u h).drain else (s.handle u h).fill none)).updEntry id
        fun y => { y with work := .ring { r with next := r.next + 1, running := r.running ++ [r.chunkAt k], begun := r.begun.modify k (· + 1) } }))
    ∧ (∀ n, e.work = .fence n →
      (∀ x ∈ s.entries, x.work = .fence n → x.saved = false ∧ ∃ y, (s.queueOf x.core x.queue).find? (fun y => x.queue != .sq
          || y.owner.unit == x.owner.unit) = some y ∧ y.id = x.id) →
      ∃ t, exec (.qfencePass id) s = .next t ∧ t = { s with entries := t.entries, sheaves := t.sheaves }
        ∧ (∀ x, x ∈ t.entries ↔ x ∈ s.entries ∧ ∀ y ∈ s.entries, y.work = .fence n → y.id ≠ x.id)
        ∧ ∀ k, t.sheaf k = if k = e.owner.sheaf then (s.sheaf k).map (fun f => f.dropParts e.owner.op e.owner.lanes) else s.sheaf k)

/-- R210 to R215, R219, R221 to R224: entries of the Mill queue. A binding fetches its slot through the handle; a release gives its slots up; an
operation starts when the array is free and its slots are full, and takes its cycles; retired, a clear leaves +0, a product adds its blocks'
outer products to its tile in their order, read by the descriptors as they stood at issue, and one with an unfillable slot leaves its tile poison.
When MSTEP is set and cleared is the model's reading (log 31). -/
def Obligations.MillEvents : Prop :=
  ∀ (s : State) (id : Nat) (e : Entry), s.entry id = some e →
    let u := e.owner.unit
    let now := s.cycleOf e.core
    (∀ m h r rm, e.work = .mbind m h r rm → e.orphan = false → s.mayStart e = true → s.slotInUse e.core [m] id = false →
      let x := s.handle u h
      let z := if x.state = .full ∧ x.lastSlot = some m then s.setHandle u h x.released else s
      (z.handle u h).state = .free →
      exec (.mbindStart id) s = .next (((z.setSlot u m { z.slot u m with handle := h }).updHandle u h fun x => x.fill (some m)).start e
        (.copy { route := 1, h := h, src := some r, rm := rm, fetch := true
                 dst := some { base := BitVec.ofNat 64 m, elem := r.elem, store := if r.store = 3 then 3 else 2, inf := r.inf
                               exts := [32, 32], strides := [0, 0] } }) 0))
    ∧ (∀ n k, e.work = .mrel n k → s.mayStart e = true → s.slotInUse e.core ((List.range k).map (n + ·)) id = false →
      ∃ t, exec (.mrelStart id) s = .next t ∧ t.entries = s.entries.filter (fun x => x.id != id)
        ∧ ∀ m, t.slot u m = if n ≤ m ∧ m < n + k ∧ (s.slot u m).claim = some u
            then { s.slot u m with claim := none, bound := false, handle := 0 } else s.slot u m)
    ∧ (∀ m, e.work = .mill m → s.mayStart e = true → (s.core e.core).millFree ≤ now →
      let full (k : Nat) : Prop := (s.handle u (s.slot u k).handle).state = .full
      let good (k : Nat) : Bool := !(s.handle u (s.slot u k).handle).err && !(s.handle u (s.slot u k).handle).ovf
      let read (x d : Slot) : Slot := { x with elem := d.elem, prec := d.prec, inf := d.inf, masked := d.masked }
      let pair (q : Nat) : Slot × Slot := match m.descs.find? fun d => d.1 == q with
        | some d => (read (s.slot u (m.aSlot + q)) d.2.1, read (s.slot u (m.bSlot + q)) d.2.2)
        | none => (s.slot u (m.aSlot + q), s.slot u (m.bSlot + q))
      (m.op.isProduct = true → ∀ q ∈ m.todo, full (m.aSlot + q) ∧ full (m.bSlot + q)) →
      let bad : Bool := m.op.isProduct && m.todo.any fun q => !(good (m.aSlot + q) && good (m.bSlot + q)) || (pair q).1.spoilt || (pair q).2.spoilt
      let pairs := if m.op.isProduct = true ∧ bad = false then m.todo.map pair else []
      let m' := { m with unfillable := bad, tilesRead := pairs }
      let cyc := if m.op = .azero then m.n else if m.op = .acvt then 4 else (pairs.map m.blockCycles).sum
      exec (.millOpStart id) s = .next (((s.start e (.mill m') (if cyc = 0 then now + 1 else now + cyc + 11)).updCore e.core fun k =>
        { k with millFree := max k.millFree (now + cyc), mstep := m'.mstepAt 0 }).charge e.owner.ctx .mill cyc))
    ∧ (∀ m, e.work = .mill m → (s.firstMill e.core).map Entry.id = some id → e.due ≤ now →
      ∃ t, exec (.millOpRetire id) s = .next t ∧ t.entries = s.entries.filter (fun x => x.id != id)
        ∧ (let runs (x : Entry) : Prop := x.id ≠ id ∧ x.stage = .started ∧ ∃ y, x.work = .mill y ∧ y.op = .mmas
           ((∀ x ∈ s.queueOf e.core .mq, ¬ runs x) → (t.core e.core).mstep = 0)
           ∧ ((∃ x ∈ s.queueOf e.core .mq, runs x) → (t.core e.core).mstep = (s.core e.core).mstep))
        ∧ (m.op = .azero → ∀ x, let y := t.core e.core
            (1024 * m.tile ≤ x ∧ x < 1024 * (m.tile + m.n) → y.tiles.get x = 0 ∧ y.tilePoison.get x = false)
            ∧ (¬ (1024 * m.tile ≤ x ∧ x < 1024 * (m.tile + m.n)) → y.tiles.get x = (s.core e.core).tiles.get x))
        ∧ (m.op.isProduct = true → ∀ x,
          let mine : Bool := decide (1024 * m.tile ≤ x ∧ x < 1024 * (m.tile + 1))
          let old := (s.core e.core).tiles.get x
          (t.core e.core).tiles.get x = (if mine = true ∧ m.unfillable = false then m.tilesRead.foldl (fun acc p =>
              blockElem p.1 p.2 ((x - 1024 * m.tile) / 32) ((x - 1024 * m.tile) % 32) acc) old else old)
          ∧ (t.core e.core).tilePoison.get x = ((mine && m.unfillable) || (s.core e.core).tilePoison.get x)))

/-- R229 to R232: entries of `nq`. A product opens on a free handle once its record is in order and no switch is pending; a cold row's outputs go
to the window, and a row whose weights meet a fault waits for the slow path. A join starts once its product's cold part is done and its hot tiles
have retired, and ends alone where the cold part was torn; started, it raises the census of one row after the other, in any order, then counts and
closes the product.
That each row is an event of its own is the model's choice (log 27); what the outputs of a product are whose record was changed under it, a free
value (log 83). -/
def Obligations.ProductEvents : Prop :=
  ∀ (s : State) (id : Nat) (e : Entry), s.entry id = some e →
    let u := e.owner.unit
    (∀ b m0 gen rows err m z, e.work = .qmv b m0 gen rows false err → s.mayStart e = true → e.stage = .queued → (s.handle u b.h).state = .free →
      let a := (s.setHandle u b.h ((s.handle u b.h).fill none)).updEntry id fun x => { x with stage := .slow }
      a.matrix e.owner.ctx b.mrec = .ok m → startOk ((a.unit u).getD default) b m = true → a.blockOpn u b = false →
      a.mstate e.owner.ctx b.mrec ≠ 3 → a.openProduct { e with stage := .slow } b m = .ok z → exec (.qmvStart id) s = .next z)
    ∧ (∀ b m gen rows err i, e.work = .qmv b m gen rows true err → e.orphan = false → i ∈ rows →
      (∀ p, s.coldRow e b m i = .error p → exec (.quernRow id i) s = .next s)
      ∧ ∀ bytes v, s.coldRow e b m i = .ok bytes → s.unit u = some v →
        let cell (j : Nat) : Option Word := if v.winPoisoned (b.x + j * b.xstride) (m.k + m.k / 32) = true then none else some (quernElem v b m bytes j)
        let vals := (List.range b.n).map cell
        let z : State × List (Option Word) := if s.isUpset e.owner.ctx b.mrec = true
          then ({ s with free := s.free + b.n }, (List.range b.n).map fun j => some (Config.freeWord (s.free + j))) else (s, vals)
        exec (.quernRow id i) s = .next ((((z.1.setUnit u (v.putRow b i z.2)).charge e.owner.ctx .quern
          (max ((b.n * m.k + 127) / 128) ((m.rstride + 99) / 100))).charge e.owner.ctx .hbm (m.k + m.k / 32)).endRow e b m gen rows i
            (err <|> vectorFault v b m)))
    ∧ (∀ b m0 c0 m, e.work = .rjoin b m0 c0 none → s.turnOf e = true → s.matrix e.owner.ctx b.mrec = .ok m →
      startOk ((s.unit u).getD default) b m = true → s.hotTilesDone e b m = true →
      ((s.handle u b.h).state = .full → s.blockOpn u b = true → s.joinFault e b m = none →
        exec (.rjoinStart id) s = .next (s.beginJoin e b m)
        ∧ ∃ counts, ((s.beginJoin e b m).entry id).map Entry.work
            = some (.rjoin b { m with gen := s.blockGen u b } counts (some (!(s.handle u b.h).err)))
          ∧ counts.map Prod.fst = if (s.handle u b.h).err = true then [] else (sliceRows b m).map (b.slc * m.slice + ·))
      ∧ ((s.handle u b.h).state = .free → (s.handle u b.h).torn = true → exec (.rjoinStart id) s = .next (s.performed e)))
    ∧ (∀ b m counts ok, e.work = .rjoin b m counts (some ok) →
      (∀ r n, counts[(Config.freeWord s.free).toNat % counts.length]? = some (r, n) →
        exec (.rjoinStart id) s = .next (((({ s with free := s.free + 1 } : State).censusAtomic (s.recKey e.owner.ctx b.mrec) e.owner.ctx m.census r
          (fun c => min 65535 (c + n))).updEntry id fun x => { x with work := .rjoin b m (counts.erase (r, n)) (some ok) }).progress (s.jobOf u)))
      ∧ (counts = [] → exec (.rjoinStart id) s = .next (((((if ok = true then s.countProduct e.owner.ctx b m else s).closeProduct
          e.owner.ctx b.mrec (m.gen % 2)).updHandle u b.h fun x => { x with state := .full }).performed e))))

/-- R269, R270, R272 to R278, R384: entries of `sq`. A scan starts in its unit's turn, reads its input, and is performed when its cycles are over.
A carry is read, placed with the next member when there is room or absorbed by one that has retired, and taken in order, poison where it is
broken; the first member's round 0 takes the identity; a retired member's words no longer count. Where a chain goes on at a peer its carries go and
come on the ordered channel, and the peer is told that the last member here has stopped and which rounds are complete here. A `CBAR` learns that its round is complete. Taking a carry and learning of a round are acquires.
The rounds that answer 1 are the model's reading (log 23); how a chain is spanned over devices is its choice (log 48). -/
def Obligations.ChainEvents : Prop :=
  ∀ (s : State) (id : Nat) (e : Entry), s.entry id = some e →
    let u := e.owner.unit
    (∀ w x, e.work = .scan w → s.scanTurn e = true → s.unit u = some x →
      let w' := if w.tile = 0 then { w with carry := w.carryIn x } else w
      exec (.scanStart id) s = .next (s.start e (.scan { w' with tiles := w'.plan x w'.carry w.tile (w.nt - w.tile) })
        (s.cycleOf e.core + (w.nt - w.tile) * w.tileCycles + 11)))
    ∧ (∀ w x, e.work = .scan w → e.stage = .started → e.saved = false → e.due ≤ s.cycleOf e.core → s.unit u = some x →
      let r := w.finish x w.tiles.length
      exec (.scanPerformed id) s = .next ((s.setUnit u (r.1.writeComps w.tot (r.2.getD []))).performed e))
    ∧ (∀ a scc x, e.work = .csend a scc none → s.scanTurn e = true → s.unit u = some x →
      let t := s.start e (.csend a scc (some { words := x.readComps 0 false a (comps (sccWidth scc)) })) 0
      exec (.csendStart id) s = .next (match s.peerNext u with
        | some d => if s.hasStopped e = true then t else (t.sendOn d (.carry id)).charge e.owner.ctx .fabric (elemC scc)
        | none => t))
    ∧ (∀ a scc c l p y, e.work = .csend a scc (some c) → e.stage = .started → e.saved = false → s.memberOf u = some (l, p) →
      s.launch l = some y →
      (∀ d t, s.peerNext u = some d → s.ackOn d (.carry id) = some t → exec (.carryPlaced (.own id)) s = .next (t.carrySent e l p))
      ∧ (s.peerNext u = none → s.memberEnd l (s.member l p) = true → exec (.carryPlaced (.own id)) s = .next (s.performed e))
      ∧ (s.peerNext u = none → s.memberEnd l (s.member l p) = false →
        let q := (p + 1) % y.members.length
        let m := y.members.getD q {}
        let absorbs := s.memberEnd l m
        (absorbs = false → m.buffer.length < 4) →
        ∃ t z, exec (.carryPlaced (.own id)) s = .next t ∧ t.launch l = some z ∧ t.entries = s.entries.filter (fun x => x.id != id)
          ∧ z = { y with members := z.members } ∧ z.members.length = y.members.length
          ∧ ∀ k, z.members.getD k {} = { y.members.getD k {} with
              buffer := if k = q ∧ absorbs = false then (y.members.getD k {}).buffer ++ [c] else (y.members.getD k {}).buffer
              sent := if k = p then (y.members.getD k {}).sent + 1 else (y.members.getD k {}).sent }))
    ∧ (∀ l d src seq broken words t, s.span l = some d → d.before = src → s.takenFrom src seq = some t → (t.member l 0).buffer.length < 4 →
      t.memberEnd l (t.member l 0) = false →
      exec (.carryPlaced (.peer l src seq broken words)) s
        = .next ((t.updMember l 0 fun m => { m with buffer := m.buffer ++ [{ words := words, broken := broken }] }).progress
            (((s.launch l).map LaunchSt.job).getD 0)))
    ∧ (∀ a scc l p x, e.work = .crecv a scc → s.scanTurn e = true → s.memberOf u = some (l, p) → s.unit u = some x →
      let m := s.member l p
      let first : Prop := p = 0 ∧ m.rcvd = 0 ∧ ∀ d, s.span l = some d → d.first = true
      let poison := List.replicate (comps (sccWidth scc)) (none : Option Word)
      let take (v : ScanElem) (rest : List Carry) (broken : List Nat) : Prop := exec (.crecvTake id) s = .next
        ((((s.setUnit u (x.writeComps a v)).updMember l p fun y => { y with rcvd := y.rcvd + 1, buffer := rest, broken := y.broken ++ broken }).performed
          e).acquireUnit u)
      (s.memberEnd l m = true → exec (.crecvTake id) s = .next (((s.setUnit u (x.writeComps a poison)).performed e).acquireUnit u))
      ∧ (s.memberEnd l m = false → (first → take (scanIdentity scc) m.buffer [])
      ∧ (∀ c rest, ¬ first → m.buffer = c :: rest → c.broken = false → c.words.length = comps (sccWidth scc) → take c.words rest [])
      ∧ (∀ c rest, ¬ first → m.buffer = c :: rest → c.broken = true → take poison rest [m.rcvd])
      ∧ (¬ first → m.buffer = [] → s.prevStopped l p = true → take poison [] [m.rcvd])))
    ∧ (∀ l p others, e.work = .cbar → s.scanTurn e = true → s.memberOf u = some (l, p) →
      let lastHere := (s.span l).all Span.last
      let b := (s.member l p).cbars
      roundDone (s.chain l) lastHere b = true → (s.span l ≠ none → others ≠ none) →
      let bad := roundBroken (s.chain l) lastHere b || ((s.span l).isSome && others.getD false)
      exec (.roundComplete ⟨id, others⟩) s = .next ((((s.updMember l p fun m => { m with cbars := m.cbars + 1 }).deliverAll e.owner
        [if bad = true then 1 else 0]).performed e).acquireUnit u))
    ∧ (∀ l sp, s.span l = some sp →
      let stopped := ((s.chain l).getLast?).any Prod.snd
      (sp.stopTold = false → stopped = true → exec (.carryPlaced (.notice l)) s = .next ((s.sendOn sp.after (.stopped l
          (s.member l (s.memberCount l - 1)).sent)).updLaunch l fun x => { x with span := x.span.map fun z => { z with stopTold := true } }))
      ∧ (sp.stopTold = true ∨ stopped = false → sp.allTold = false → roundDone (s.chain l) sp.last sp.rounds = true →
        ∃ onward, exec (.carryPlaced (.notice l)) s = .next ((s.sendOn sp.after (.round l sp.rounds
          (roundBroken (s.chain l) sp.last sp.rounds) onward)).updLaunch l fun x =>
            { x with span := x.span.map fun z => { z with rounds := sp.rounds + 1, allTold := onward } }))
      ∧ (∀ m t, ((∃ n, m = .stopped l n) ∨ ∃ b w o, m = .round l b w o) → s.ackOn sp.after m = some t →
        exec (.carryPlaced (.told l)) s = .next t))

end


section
open Sys2Proof Sys2Proof.Machine Sys2Proof.Claims

/-- R320 to R324, R315, R328, R329, R237, R313, R314, R316, R319, R433: units and jobs. A spawn is entered with what it declared, goes to its
device, or is dropped; a `GROW` raises the group count, or overflows and does not; a core admits the first unit of its die's list that fits, as
AGE allows; a unit whose sheaves have retired and whose work is done completes and gives its slots up; a node whose work is done completes; a
job whose every part reads zero, with the RCVD of the sweep before, completes; Baruri ends a job, and a cancel of the job that another part
carries here is made here.
That cores take their turns in ascending order is the model's reading (log 76); so are that a remote enqueue's unit has no launch (log 44), that a
`GROW` of a unit without a launch is answered as one that overflows (log 45), and the cause 16 that stands for a carried cancel (log 81). -/
def Obligations.UnitEvents : Prop :=
  ∀ (s : State),
    (∀ id r p, s.spawns.find? (fun x => x.id == id && !x.sent) = some r → s.unit r.owner.unit = some p → s.spawnBefore r = false →
      let die := ((s.job p.job).map Job.homeDie).getD 0
      let drop := p.cancelGen ≠ r.cancelGen ∨ s.stampPassed p.job (dieOf r.core) r.stamp = true ∨ s.stampPassed p.job die r.stamp = true
      (drop → ∃ t, exec (.spawnArrival id) s = .next t ∧ t.spawns = s.spawns.filter (fun x => x.id != id)
        ∧ ∀ x, s.job p.job = some x → t.job p.job = some { x with dropped := x.dropped + 1 })
      ∧ (∀ n, ¬ drop → r.grow = some n →
        let z : State := { s with spawns := s.spawns.filter (fun x => x.id != id) }
        (∀ l, s.launch p.launch = some l → l.count + n < 2 ^ 32 →
          let a := z.updLaunch p.launch fun x => { x with count := x.count + n }
          exec (.spawnArrival id) s = .next ((if n = 0 then a else a.listLaunch p.launch).deliverAll r.owner [BitVec.ofNat 32 l.count]))
        ∧ ((∀ l, s.launch p.launch = some l → 2 ^ 32 ≤ l.count + n) →
          exec (.spawnArrival id) s = .next (z.deliverAll r.owner [0xFFFFFFFF])))
      ∧ (∀ d, ¬ drop → r.grow = none → r.remote = some d → ∃ t, exec (.spawnArrival id) s = .next t
        ∧ t.spawns = s.spawns.map (fun x => if x.id = id then { x with sent := true } else x)
        ∧ ∀ x, s.job p.job = some x → t.job p.job = some { x with remoteOut := x.remoteOut ++ [id] })
      ∧ (¬ drop → r.grow = none → r.remote = none → s.matcherLoad die < 8192 → ∃ t n z, exec (.spawnArrival id) s = .next t
        ∧ t.spawns = s.spawns.filter (fun x => x.id != id) ∧ t.unit n = some z ∧ z.spawned = true ∧ z.parent = some r.owner.unit
        ∧ z.job = p.job ∧ z.ctx = p.ctx ∧ z.launch = p.launch ∧ z.args = r.args ∧ z.ranges = r.ranges ∧ z.stamp = r.stamp
        ∧ z.npred = (s.unitList.filter fun c => c.2.job == p.job && c.2.spawned && !c.2.gone && dependsOn r.ranges c.2.ranges).length
        ∧ (z.stage = if z.npred = 0 then .listed else .matched)
        ∧ ∀ l, s.readLaunch p.ctx r.krec = some l → z.lrec = l ∧ z.void = false))
    ∧ (∀ core front e rest off, s.admitFrom ≤ core → (s.die (dieOf core)).running = true → s.dieList (dieOf core) = front ++ e :: rest →
      let fit (x : Listed) : Option Nat := ({ s with admitFrom := core + 1 } : State).fits core (s.listedRec x).1 (s.listedRec x).2
      (∀ x ∈ front, fit x = none) → (∀ h, front.head? = some h → h.pass < s.regs.age) → fit e = some off →
      (∀ u x, e.unit = some u → s.unit u = some x → ∃ t y, exec (.unitAdmission core) s = .next t ∧ t.unit u = some y ∧ t.admitFrom = core + 1
        ∧ y = { x with core := some core, stage := .resident, winOff := off, win := y.win, winPoison := y.winPoison, winHalf := y.winHalf }
        ∧ (∀ z ∈ t.listed, z.unit ≠ some u) ∧ (t.core core).cache = [])
      ∧ (∀ l x, e.unit = none → e.launch = some l → s.launch l = some x → ∃ t n y, exec (.unitAdmission core) s = .next t ∧ t.unit n = some y
        ∧ t.launch l = some { x with next := x.next + 1 } ∧ y.core = some core ∧ y.stage = .resident ∧ y.winOff = off ∧ y.index = x.next
        ∧ y.job = x.job ∧ y.ctx = x.ctx ∧ y.launch = l ∧ y.lrec = x.lrec ∧ y.args = x.lrec.args ∧ (t.core core).cache = []
        ∧ (x.next < x.lrec.groups → y.grown = false ∧ y.ux = x.next % x.lrec.gx ∧ y.uy = x.next / x.lrec.gx % x.lrec.gy
            ∧ y.uz = x.next / (x.lrec.gx * x.lrec.gy))
        ∧ (x.lrec.groups ≤ x.next → y.grown = true ∧ y.ux = x.next ∧ y.uy = 0 ∧ y.uz = 0)))
    ∧ (∀ u x c, s.unit u = some x → x.void = false → x.stage = .resident → x.core = some c → x.image = none → (∀ f ∈ s.sheavesOf u, f.2.retired = true) →
      s.worksOf u = false → ∃ t y, exec (.unitComplete u) s = .next t ∧ t.unit u = some y ∧ y.stage = .complete
        ∧ ∀ m, m < 32 → (t.core c).slots.get m = if ((s.core c).slots.get m).claim = some u
            then { ((s.core c).slots.get m).undescribed with claim := none, handle := 0 } else (s.core c).slots.get m)
    ∧ (∀ n x, s.node n = some x → s.nodeDone n x = true → ∃ t y, exec (.nodeComplete n) s = .next t ∧ t.node n = some y ∧ y.stage = .complete)
    ∧ (∀ j dev krec args ranges stamp x, s.job j = some x → x.ended = none → x.complete = false → dev ∈ x.parts →
      s.matcherLoad x.homeDie < 8192 →
      (s.stampPassed j x.homeDie stamp = true → ∃ t y, exec (.remoteEnqueueReceive j dev krec args ⟨ranges, stamp⟩) s = .next t
        ∧ t.job j = some y ∧ y.rcvd = x.rcvd + 1 ∧ y.dropped = x.dropped + 1 ∧ t.units = s.units)
      ∧ (s.stampPassed j x.homeDie stamp = false →
        ∃ t y n z, exec (.remoteEnqueueReceive j dev krec args ⟨ranges, stamp⟩) s = .next t ∧ t.job j = some y ∧ y.rcvd = x.rcvd + 1
          ∧ t.unit n = some z ∧ z.spawned = true ∧ z.job = j ∧ z.parent = none ∧ z.args = BitVec.ofNat 64 args ∧ z.stamp = stamp))
    ∧ (∀ id ok r, s.spawns.find? (fun x => x.id == id && x.sent) = some r → ∃ t, exec (.remoteEnqueueAck id ok) s = .next t
        ∧ t.spawns = s.spawns.filter (fun x => x.id != id)
        ∧ ∀ x, s.job (s.jobOf r.owner.unit) = some x → ∃ y, t.job (s.jobOf r.owner.unit) = some y ∧ y.remoteOut = x.remoteOut.erase id)
    ∧ (∀ j x parts, s.job j = some x → x.ended = none → parts.length = x.parts.length →
      let totals := x.rcvd.toNat :: parts.map Prod.snd
      let zero : Prop := s.jobZero j = true ∧ ∀ p ∈ parts, p.1 = 0
      (¬ zero → exec (.jobCompletionSweep j parts) s = .next (s.updJob j fun y => { y with swept := none }))
      ∧ (zero → x.parts ≠ [] → x.swept ≠ some totals → exec (.jobCompletionSweep j parts) s = .next (s.updJob j fun y => { y with swept := some totals }))
      ∧ (zero → x.parts = [] ∨ x.swept = some totals →
        ∃ t y, exec (.jobCompletionSweep j parts) s = .next t ∧ t.job j = some y ∧ y.complete = true))
    ∧ (∀ j cause, cause ≠ 16 → ∃ t, exec (.jobEnd j cause) s = .next t ∧ JobEnds s t j cause)
    ∧ ∀ j, exec (.jobEnd j 16) s = .next (s.cancelJob j)

/-- R331 to R335, R318, R338, R341 to R343, R348, R349, R384: queues between units, barriers, waits on counters, incumbents. What ends a pop, a
barrier, a wait or a read at the root is an acquire: the sheaf's core drops its read cache. -/
def Obligations.QueueAndIncumbentEvents : Prop :=
  ∀ (s : State),
    (∀ id w q a x l b rest, s.qwords.find? (fun w => w.id == id && !w.waiting) = some w → s.qDesc w.key w.owner.ctx = some q →
      w.key.unit = some a → s.unit a = some x → w.items = (l, b) :: rest →
      (rest = [] → w.push = true → s.waiter w.key false = none → q.items < q.depth → ∃ t, exec (.queueWordAtHome id) s = .next t
        ∧ t.unit a = some ((x.winWrite (q.slot q.tail w.size) b).winWrite (w.key.addr + 0x18) (toBytes 8 (q.tail + 1)))
        ∧ t.qwords = s.qwords.filter (fun y => y.id != w.id)
        ∧ t.qstamps = s.qstamps ++ [{ key := w.key, number := q.tail, sheaf := w.owner.sheaf, counts := w.stamp }])
      ∧ (rest = [] → w.push = false → w.owner.lanes.getLsbD l = true → s.waiter w.key true = none → q.items ≠ 0 →
        ∃ t d, exec (.queueWordAtHome id) s = .next t
        ∧ t.unit a = some (x.winWrite (w.key.addr + 0x10) (toBytes 8 (q.head + 1))) ∧ t.qwords = s.qwords.filter (fun y => y.id != w.id)
        ∧ t.qdeliveries = s.qdeliveries ++ [d] ∧ d.word = w.id ∧ d.owner = w.owner ∧ d.lane = l
        ∧ d.bytes = toBytes w.size (x.winValue (q.slot q.head w.size) w.size))
      ∧ (w.push = true ∧ s.waiter w.key false = none ∧ q.depth ≤ q.items ∨ w.push = false ∧ q.items = 0 →
        let left := w.items.filter fun y => w.owner.lanes.getLsbD y.1
        left ≠ [] → exec (.queueWordAtHome id) s
          = .next { s with qwords := s.qwords.filter (fun y => y.id != w.id) ++ [{ w with items := left, waiting := true }] }))
    ∧ (∀ id q f, s.qdeliveries.find? (fun x => x.id == id) = some q → s.stampDrained q.sheaf q.counts = true →
      s.sheaf q.owner.sheaf = some f → ∃ t z, exec (.popDelivery id) s = .next t ∧ t.qdeliveries = s.qdeliveries.filter (fun x => x.id != id)
        ∧ t.sheaf q.owner.sheaf = some z ∧ z.v = (f.landWords (s.now f) q.owner.dst q.lane (toWords q.bytes)).v
        ∧ z.u = (f.landWords (s.now f) q.owner.dst q.lane (toWords q.bytes)).u
        ∧ ((∀ y ∈ s.qdeliveries, y.word = q.word → y.id = id) → (∀ w ∈ s.qwords, w.id ≠ q.word) →
          (∀ p, f.place = some p → (t.core p.1).cache = [])
          ∧ ∀ l, l < 32 → (f.lane l).life = .live → (f.lane l).hold = .queue q.word → q.owner.lanes.getLsbD l = true →
              (z.lane l).pc = (f.lane l).pc + 4 ∧ (z.lane l).hold = .none))
    ∧ (∀ u id f, s.sheavesOf u = [(id, f)] → s.sheaf id = some f → f.liveMask ≠ 0 →
      (∀ l, l < 32 → f.liveMask.getLsbD l = true → (f.lane l).hold.barrier.isSome = true) → ∃ t z, exec (.barrierComplete u) s = .next t
        ∧ t.sheaf id = some z ∧ (∀ p, f.place = some p → (t.core p.1).cache = [])
        ∧ ∀ l, l < 32 → f.liveMask.getLsbD l = true → (z.lane l).pc = (f.lane l).pc + 4 ∧ (z.lane l).hold = .none)
    ∧ (∀ u k g, (k, g) ∈ s.sheavesOf u → (∃ l, l < 32 ∧ (g.lane l).life = .live ∧ (g.lane l).hold.barrier = none) →
      exec (.barrierComplete u) s = .next s)
    ∧ (∀ id f n, s.sheaf id = some f → s.cwaitTest f.unit n = true → (∃ l, l < 32 ∧ (f.lane l).life = .live ∧ (f.lane l).hold = .cwait n) →
      ∃ t z, exec (.cwaitRelease id) s = .next t ∧ t.sheaf id = some z ∧ (∀ p, f.place = some p → (t.core p.1).cache = [])
        ∧ ∀ l, l < 32 → (f.lane l).life = .live → (f.lane l).hold = .cwait n → (z.lane l).pc = (f.lane l).pc + 4 ∧ (z.lane l).hold = .none)
    ∧ (∀ id m, s.incMsg id = some m → m.read = false → m.applied = false → ∃ t, exec (.incumbentCommit id) s = .next t
        ∧ (∀ j, j ≠ m.job → t.job j = s.job j)
        ∧ t.inc m.job m.reg = m.lanes.foldl (fun (i : Inc) x => if i.declared = true ∧ better i.fmt i.maximise x.2.1 i.value = true
            then { i with value := x.2.1, payload := if m.payload = true then x.2.2 else 0 } else i) (s.inc m.job m.reg)
        ∧ ∃ olds, t.incMsgs = s.incMsgs.map (fun x => if x.id = id then { x with applied := true, lanes := olds } else x)
            ∧ olds.map Prod.fst = m.lanes.map Prod.fst)
    ∧ (∀ id m, s.incMsg id = some m → m.read = false → m.applied = true →
      exec (.incupReply id) s = .next (({ s with incMsgs := s.incMsgs.filter (fun x => x.id != id) } : State).deliver m.owner
        (m.lanes.map fun x => (x.1, if m.payload = true then [x.2.1, x.2.2] else [x.2.1]))))
    ∧ (∀ id m, s.incMsg id = some m → m.read = true →
      let i := s.inc m.job m.reg
      exec (.incrdRootReply id) s = .next (({ s.acquireAt m.owner.sheaf with incMsgs := s.incMsgs.filter (fun x => x.id != id) } : State).deliver
        m.owner ((if isUniform m.owner.dst = true then [0] else maskLanes m.owner.lanes).map fun l => (l, if m.payload = true then [i.value, i.payload] else [i.value]))))
    ∧ (∀ j n onDie place, (onDie = true ∨ place < 256) → (∃ r ∈ s.replicas, r.job = j ∧ r.reg = n ∧ r.onDie = onDie ∧ r.place = place) →
      let z : State := { s with replicas := s.replicas.filter fun r => !(r.job == j && r.reg == n && r.onDie == onDie && r.place == place) }
      z.replica j n onDie place = ((s.inc j n).value, (s.inc j n).payload)
      ∧ exec (.crierReplicaUpdate j n onDie place) s = .next (if onDie = true then z.stampSweep j place else z))
    ∧ (∀ j n d, exec (.crierReplicaUpdate j n false (256 + d)) s = .next (s.forwarded j n d))
    ∧ (∀ src seq j n v p cycles x, s.job j = some x → (s.channels.get src).received = seq →
      ∃ t, exec (.crierForward ⟨src, seq, j⟩ n v p cycles) s = .next t ∧ (t.channels.get src).received = seq + 1
        ∧ t.inc j n = (let i := s.inc j n; if i.declared = true ∧ better i.fmt i.maximise v i.value = true
            then { i with value := v, payload := if i.payloads = true then p else 0 } else i))

/-- R367 to R376: pre-emption, the orphan wait, budget periods. A save stops the context's sheaves on the core, drains them, and takes its units into
their images, which go where their job has ended; a restore puts a unit back on a core with what its image holds, and waits where it does not fit
or its image is not quiet. -/
def Obligations.PreemptionEvents : Prop :=
  ∀ (s : State) (core ctx : Nat),
    (s.context ctx ≠ none → (s.core core).saving = none → ∃ t, exec (.saveRequest core ctx) s = .next t
      ∧ t = { s with sheaves := t.sheaves, cores := t.cores }
      ∧ (∀ k, t.core k = if k = core then { s.core core with saving := some (ctx, s.cycleOf core + s.regs.drain) } else s.core k)
      ∧ ∀ k f, s.sheaf k = some f → t.sheaf k = some (if k ∈ (s.ctxSheaves core ctx).map Prod.fst then { f with stopped := true } else f))
    ∧ (s.context ctx ≠ none → (s.core core).saving ≠ none → exec (.saveRequest core ctx) s
        = .next (s.setCore core { s.core core with held := (s.core core).held ++ [(ctx, false, 0)] }))
    ∧ (∀ until_, (s.core core).saving = some (ctx, until_) → until_ ≠ 0 →
        until_ ≤ s.cycleOf core ∨ (∀ c ∈ s.ctxSheaves core ctx, s.resultsOut c.1 c.2 = false) →
        ∃ t, exec (.drainEnd core) s = .next t ∧ (t.core core).saving = some (ctx, 0)
          ∧ ∀ c ∈ s.ctxSheaves core ctx, ∀ z, t.sheaf c.1 = some z → z.awaiting = [])
    ∧ ((s.core core).saving = some (ctx, 0) → (s.core core).held = [] → ∃ t, exec (.saveEnd core) s = .next t ∧ (t.core core).saving = none
        ∧ ∀ u x y, (u, y) ∈ s.residents core → y.ctx = ctx → s.unit u = some x →
            ((∀ j, s.job x.job = some j → j.ended = none) →
              ∃ z, t.unit u = some z ∧ z.stage = .saved ∧ z.core = none ∧ z.image.isSome = true)
            ∧ ((∃ j, s.job x.job = some j ∧ j.ended ≠ none) → ∃ z, t.unit u = some z ∧ z.stage = .removed ∧ z.image = none))
    ∧ (∀ u x im, (s.core core).saving = none → s.unit u = some x → x.stage = .saved → x.image = some im → s.imageQuiet u = true →
        s.fitsAgain core x im = true → x.cancelled = false →
        (∀ id ∈ im.order, ∀ f, s.sheaf id = some f → f.unit = u ∧ s.dominated { f with place := some (core, 0) } = 0) → ∃ t, exec (.restore u core) s = .next t
          ∧ t.unit u = some { x with stage := .resident, core := some core, image := none }
          ∧ (∀ h ∈ x.lrec.handles, (t.core core).handles.get h = im.handles.get h)
          ∧ ((im.slots.cells.map Prod.fst).Nodup → ∀ c ∈ im.slots.cells, (t.core core).slots.get c.1 = c.2)
          ∧ (t.core core).cache = []
          ∧ ∀ id f, id ∈ im.order → s.sheaf id = some f → ∃ z slot, t.sheaf id = some z ∧ z.stopped = false ∧ z.place = some (core, slot))
    ∧ (∀ u x im, (s.core core).saving = none → s.unit u = some x → x.stage = .saved → x.image = some im →
        s.imageQuiet u = false ∨ s.fitsAgain core x im = false → ∃ t, exec (.restore u core) s = .next t
          ∧ t = { s with cores := t.cores } ∧ (∀ k, k ≠ core → t.core k = s.core k) ∧ u ∈ (t.core core).waiting
          ∧ t.core core = { s.core core with waiting := (t.core core).waiting })
    ∧ (∀ id f, s.sheaf id = some f → s.regs.wdog ≤ f.watchdog → f.liveMask ≠ 0 →
        ∃ t, exec (.watchdogExpiry id) s = .next t ∧ JobEnds s t (s.unitOf f).job 7)
    ∧ (s.period < s.nanos / 10000 → ∃ t, exec .budgetPeriod s = .next t ∧ t = { s with period := s.nanos / 10000, contexts := t.contexts }
        ∧ ∀ k, t.context k = (s.context k).map fun x => { x with
            used := [0, 0, 0, 0, 0]
            overrun := [Budget.hbm, .fabric, .copy, .mill, .quern].map fun b => match x.allowance b with
              | none => 0
              | some a => x.used.getD b.index 0 - a })

/-- R84, R85, R87, R160, R367: a quadrant's cycle comes in its turn, an earlier number's opening the next tick, in which a running die's clock gains
its frequency. The quadrant of a die whose cycle this is does its work. Where a sheaf is chosen, the latch holds one or two of its positions
and the sheaf as it stands, neither parked nor stopped nor about to enter a trap, every lane of the positions live and held by nothing.
The tick, and the order of quadrants in it, are the model's choice (log 11). -/
def Obligations.QuadrantCycles : Prop :=
  ∀ (s : State) (core quad : Nat), core < 192 → quad < 4 → s.latch = none →
    let k := 4 * core + quad
    let a := if k < s.turn then s.tick.pollAll else s
    let b : State := { a with turn := k + 1 }
    ((∀ n, (if s.turn ≤ k then s.turn ≤ n ∧ n < k else n < k ∨ (s.turn ≤ n ∧ n < 768)) → s.quadIdle (n / 4) (n % 4) = true) →
      exec (.quadrantCycle core quad) s = .next (if (b.die (dieOf core)).running = true then b.quadrantRun core quad else b))
    ∧ s.tick.ticks = s.ticks + 1
    ∧ (∀ d, d < 4 → let x := s.die d
        let gained := x.acc + min x.clock (x.throttle.getD x.clock)
        s.tick.die d = if x.dvs.toNat / 2 ^ 30 = 2 then { x with running := false }
          else if 2900 ≤ gained then { x with acc := gained - 2900, cycle := x.cycle + 1, running := true }
          else { x with acc := gained, running := false })
    ∧ ∀ t, exec (.quadrantCycle core quad) s = .next t → ∀ l, t.latch = some l →
      1 ≤ l.positions.length ∧ l.positions.length ≤ 2 ∧ t.sheaf l.sheaf = some l.view
        ∧ l.view.park = none ∧ l.view.trap = none ∧ l.view.stopped = false
        ∧ ∀ m ∈ l.positions, ∀ j, j < 32 → m.getLsbD j = true → (l.view.lane j).life = .live ∧ (l.view.lane j).hold = .none

end


section
open Sys2Proof Sys2Proof.Machine Sys2Proof.Claims

/-- R352, R377 to R381, R391, R4: contexts, submission queues, the HDM window and registers. A context comes with its descriptor and goes with
everything it holds; a doorbell moves a tail; an entry of the queue begins a phase, adds a node or ends the phase, or is refused where Baruri's
policy bars it; a finished phase writes its completion word and raises its vector; the host reads and writes the HDM window, poison included.
That a job number is refused when another context uses it, the number of the vector, how a barred entry is refused, what another write to the
register window does, and the numbers of the registers are the model's (logs 54, 71, 83, 70). -/
def Obligations.HostEvents : Prop :=
  ∀ (s : State) (ctx : Nat),
    (∀ prio spw ptb pvb pspan hwm eqb eqn budgets, s.context ctx = none →
      let c : Context := { ptb := ptb, spw := spw, prio := prio, hwm := hwm, pvb := pvb, pspan := pspan, eqb := eqb, eqn := eqn, budgets := budgets }
      contextOk ctx c = true → exec (.contextCreate ctx prio spw ptb pvb pspan hwm eqb eqn budgets) s
        = .next { s with contexts := s.contexts.set ctx (some c) })
    ∧ (s.context ctx ≠ none → ∃ t, exec (.contextDestroy ctx) s = .next t ∧ t.context ctx = none
        ∧ (∀ u x, t.unit u = some x → x.ctx ≠ ctx) ∧ (∀ j x, t.job j = some x → x.ctx ≠ ctx) ∧ (∀ e ∈ t.entries, e.owner.ctx ≠ ctx)
        ∧ (∀ x ∈ t.tlbs, x.ctx ≠ ctx) ∧ (∀ q ∈ t.subQueues, q.ctx ≠ ctx) ∧ ∀ q ∈ t.censusQueue, q.2 ≠ ctx)
    ∧ (∀ q base n, s.context ctx ≠ none → q < 8 → 4 ≤ n → n ≤ 16 → base % 64 = 0 → base + 64 * 2 ^ n ≤ Config.hbmBytes →
        (∀ x ∈ s.subQueues, ¬ (x.ctx = ctx ∧ x.queue = q)) → exec (.submissionQueueCreate ctx q base n) s
          = .next { s with subQueues := s.subQueues ++ [{ ctx := ctx, queue := q, base := base, size := 2 ^ n }] })
    ∧ (∀ qpn x, s.context ctx = some x → qpn < 2 ^ 24 → (∀ c ∈ s.contexts.cells, ∀ y, c.2 = some y → qpn ∉ y.qps) →
        exec (.queuePairCreate ctx qpn) s = .next { s with contexts := s.contexts.set ctx (some { x with qps := x.qps ++ [qpn] }) })
    ∧ (∀ q (tail : DWord), ctx < 64 → q < 8 → exec (.doorbellWrite (0x1000 + 64 * ctx + 8 * q) 8 tail) s = .next { s with
        subQueues := s.subQueues.map fun x => if x.ctx = ctx ∧ x.queue = q then { x with tail := tail.toNat } else x })
    ∧ (∀ off n (v : DWord), n ≠ 8 ∨ off < 0x1000 ∨ 0x2000 ≤ off ∨ off % 8 ≠ 0 → exec (.doorbellWrite off n v) s = .next s)
    ∧ (∀ qn incs parts reach tables q, s.subQueues.find? (fun q => q.ctx == ctx && q.queue == qn) = some q → q.taken ≠ q.tail →
      q.discarding = false →
      let e := parseSub (s.bytesAt (q.base + 64 * (q.taken % q.size)) 64)
      let taken : State := s.updQueue ctx qn fun x => { x with taken := (x.taken + 1) % 2 ^ 64 }
      let entry := Instr.submissionEntry ctx qn incs parts reach tables
      (e.ok = false ∨ tables.barred = true → exec entry s = .next (taken.refuseEntry q (e.kind == 4)))
      ∧ (e.ok = true → tables.barred = false → (e.kind = 1 → q.phase = none → s.job (e.obj.toNat % 2 ^ 32) = none → ∃ t p x, exec entry s = .next t
        ∧ t.job (e.obj.toNat % 2 ^ 32) = some x ∧ x.ctx = ctx ∧ x.parts = parts ∧ x.reach = reach ∧ x.ended = none ∧ x.complete = false
        ∧ t.phase p = some { job := e.obj.toNat % 2 ^ 32, ctx := ctx, queue := qn }
        ∧ ∃ z, t.subQueues.find? (fun q => q.ctx == ctx && q.queue == qn) = some z ∧ z.phase = some p ∧ z.taken = (q.taken + 1) % 2 ^ 64)
      ∧ (e.kind = 2 ∨ e.kind = 3 → ∀ p, q.phase = some p → (∀ c ∈ s.nodeList, c.2.phase = p → c.2.index ≠ e.node) →
        (e.kind = 3 → (∃ k, taken.nodeBlock ctx e.obj 0 = .ok k) ∨ ∃ k, taken.nodeBlock ctx e.obj 0 = .serve k) → 0 < e.npred → (∀ c ∈ s.nodeList, c.2.phase = p → c.2.stage ≠ .complete) →
        ∃ t n, exec entry s = .next t ∧ t.node n = some {
          phase := p, graph := e.graph, index := e.node, npred := e.npred, succs := e.succs, obj := e.obj
          kind := if e.kind = 3 then .copy else .launch
          span := tables.span.map fun y => { before := y.1, after := y.2.1, first := y.2.2.1, last := y.2.2.2 } })
      ∧ (e.kind = 4 → ∀ p x, q.phase = some p → s.phase p = some x → (∀ c ∈ s.nodeList, c.2.phase = p → ∀ k ∈ c.2.succs,
          ∃ d ∈ s.nodeList, d.2.phase = p ∧ d.2.index = k) → ∃ t, exec entry s = .next t ∧ t.phase p = some { x with ending := some (e.obj, e.value) })))
    ∧ (∀ n p a v, s.phase n = some p → p.complete = false → p.ending = some (a, v) → s.phaseZero n = true →
      ∃ t, exec (.phaseEndCompletion n) s = .next t ∧ t.phase n = some { p with complete := true }
        ∧ t.mem = (s.store (((List.range 8).zip (toBytes 8 v.toNat)).map fun c => (2 ^ 60 + (a.toNat + c.1), c.2))).mem
        ∧ t.msix = s.msix.modify p.ctx (· + 1))
    ∧ (∀ addr (data : List (Option Byte)), let inside : Prop := Config.hbmBytes - s.regs.hdmsz * 2 ^ 30 ≤ addr ∧ addr + data.length ≤ Config.hbmBytes
      (inside → let keys := (List.range data.length).map (addr + ·)
        let t := keys.foldl State.verifyLine s
        exec (.hostHdmAccess addr false data) s
          = .next { t with hostAnswer := { addr := addr, bytes := t.bytesAt addr data.length, poison := keys.any t.poisonAt } })
      ∧ (inside → ∀ bytes : List Byte, data = bytes.map some → exec (.hostHdmAccess addr true data) s
          = .next (s.write (((List.range bytes.length).zip bytes).map fun c => (addr + c.1, c.2))))
      ∧ (inside → ∃ t, exec (.hostHdmAccess addr true data) s = .next t ∧ ∀ j : Nat, data[j]? = some none → t.poisonAt (addr + j) = true)
      ∧ (¬ inside → exec (.hostHdmAccess addr false data) s = .next s
          ∧ (addr < 2 ^ 60 → exec (.hostHdmAccess addr true data) s = .next s)))
    ∧ (∀ v : DWord, let n := v.toNat
      (1024 ≤ n → n ≤ 2 ^ 20 → exec (.registerWrite 0 v) s = .next { s with regs := { s.regs with drain := n } })
      ∧ (∀ k, 20 ≤ k → k ≤ 30 → n = 2 ^ k → exec (.registerWrite 1 v) s = .next { s with regs := { s.regs with wdog := n } })
      ∧ (2 ^ 16 ≤ n → n ≤ 2 ^ 26 → exec (.registerWrite 2 v) s = .next { s with regs := { s.regs with peerto := n } })
      ∧ (n ≤ 255 → exec (.registerWrite 3 v) s = .next { s with regs := { s.regs with age := n } })
      ∧ (1 ≤ n → n ≤ 168 → exec (.registerWrite 4 v) s = .next { s with regs := { s.regs with scrub := n } })
      ∧ exec (.registerWrite 5 v) s = .next { s with regs := { s.regs with rowThreshold := n } }
      ∧ (n < Config.fabricDevices → exec (.registerWrite 6 v) s = .next { s with fabric := { s.fabric with number := n } })
      ∧ (∀ k, 128 * k + 128 ≤ Config.hbmBytes →
        let put (off w x : Nat) : State := s.store (((List.range w).map fun j => 128 * k + off + j).zip (toBytes w x))
        let old := (s.byteAt (128 * k + 0x40)).toNat
        exec (.registerWrite (2 ^ 60 + 4 * k) v) s = .next (put 0x44 4 n)
        ∧ exec (.registerWrite (2 ^ 60 + 4 * k + 1) v) s = .next (put 0x40 1 (old % 16 + 16 * (n % 4) + old / 64 * 64))
        ∧ exec (.registerWrite (2 ^ 60 + 4 * k + 2) v) s = .next (put 0x54 4 n))
      ∧ (∀ g, g < 512 → g < s.regs.hdmsz → exec (.registerWrite (512 + g) v) s = .next { s with hdmBias := s.hdmBias.set g (v.getLsbD 0) })
      ∧ (∀ x, ctx < 64 → s.context ctx = some x → exec (.registerWrite (64 + ctx) v) s
          = .next { s with contexts := s.contexts.set ctx (some { x with head := n % 2 ^ 32 }) })
      ∧ (∀ c, c < 192 → exec (.registerWrite (256 + c) v) s = .next (s.setCore c { s.core c with closed := v.getLsbD 0 }))
      ∧ ∀ j x, j < 2 ^ 32 → s.job j = some x → n < 4 → s.dieOpen n = true → (∀ c ∈ s.unitList, s.stampPassed j n c.2.stamp = false) →
        (∀ q ∈ s.spawns, s.stampPassed j n q.stamp = false) → ∃ t, exec (.registerWrite (2 ^ 32 + j) v) s = .next t
        ∧ t.job j = some { x with homeDie := n } ∧ t = { s with jobs := t.jobs, listed := t.listed }
        ∧ (∀ k : Nat, (s.listed[k]?).map (fun e => (e.launch, e.unit, e.prio, e.pass)) = (t.listed[k]?).map fun e => (e.launch, e.unit, e.prio, e.pass))
        ∧ ∀ e ∈ t.listed, ∀ u y, e.unit = some u → s.unit u = some y → y.job = j → e.die = n)

/-- R382 to R389, R348, R366, R391, R392: the fabric and the network. A peer's request is performed at most once, its reply held until it is
acknowledged or expires; one past its export or off its alignment is refused, one that meets poison is told so. Links and capabilities are
recorded; a link whose ends agree in neither try goes down, and what its routes lead to is broken. Recomputed routes follow the links that are up;
requests go out again on a route that has changed, and the ordered channels hold back until what is out on the old one is acknowledged. What
waits for a peer that stays unreachable for PEERTO receives poison; a failed store is reported; a network copy ends with its last answer, or with
an error and the bytes that had come.
The numbers of a request's operations, which routes of one kind are taken, the lower common result of unlike ends, and whose cycles count where no
sheaf waits are the model's (logs 59, 80, 83). -/
def Obligations.FabricEvents : Prop :=
  ∀ (s : State),
    (∀ src seq job off op size (x y : DWord), op ≠ 64 → (∀ r ∈ s.heldReplies, ¬ (r.src = src ∧ r.seq = seq)) →
      let request := Instr.peerRequest src seq job off op size x y
      let replies (t : State) (v : List Byte) (refused : Option Nat) : State := ({ t with
        heldReplies := s.heldReplies ++ [{ src := src, seq := seq, value := v, refused := refused, since := s.cyclesNow }] } : State).progress job
      (s.exports.find? (fun e => e.1 == job) = none → exec request s = .next (replies s [] (some 1)))
      ∧ (∀ j base len, s.exports.find? (fun e => e.1 == job) = some (j, base, len) →
        let key := base + off
        let keys := (List.range size).map (key + ·)
        let z := keys.foldl State.verifyLine s
        let written (bytes : List Byte) : State := z.write (keys.zip bytes)
        (len < off + size → exec request s = .next (replies s [] (some 1)))
        ∧ (off + size ≤ len → size = 1 ∨ size = 2 ∨ size = 4 ∨ size = 8 ∨ size = 16 →
          (op ≤ 1 → off % size ≠ 0 → exec request s = .next (replies s [] (some 2)))
          ∧ (op = 1 → off % size = 0 → exec request s = .next (replies (written (toBytes 8 x.toNat ++ toBytes 8 y.toNat)) [] none))
          ∧ (op = 65 → off % size = 0 → ∃ t, exec request s = .next (replies t [] none) ∧ ∀ k ∈ keys, t.poisonAt k = true)
          ∧ (op = 0 → off % size = 0 → (∃ k ∈ keys, z.poisonAt k = true) → exec request s = .next (replies z [] (some 7)))
          ∧ (off % size = 0 → (∀ k ∈ keys, z.poisonAt k = false) →
            let old := z.valueAt key size
            (op = 0 → exec request s = .next (replies z (toBytes size old) none))
            ∧ (op = 2 → size = 4 ∨ size = 8 → exec request s = .next (replies (written (toBytes size
                (if old = x.toNat % 2 ^ (8 * size) then y.toNat else old))) (toBytes size old) none))
            ∧ (32 ≤ op → op ≤ 36 → size = 4 → exec request s = .next (replies (written (toBytes size
                (atomfNew (lo32 y) (op - 32) old (x.toNat % 2 ^ 32)))) (toBytes size old) none))
            ∧ (16 ≤ op → op ≤ 24 → size = 4 ∨ size = 8 → exec request s = .next (replies (written (toBytes size
                (atomNew (op - 16) (8 * size) old (x.toNat % 2 ^ (8 * size))))) (toBytes size old) none))))))
    ∧ (∀ src seq job off op size x y, op ≠ 64 → (∃ r ∈ s.heldReplies, r.src = src ∧ r.seq = seq) →
      exec (.peerRequest src seq job off op size x y) s = .next s)
    ∧ (∀ src seq job off size x y, exec (.peerRequest src seq job off 64 size x y) s
        = .next { s with heldReplies := s.heldReplies.filter fun r => !(r.src == src && r.seq == seq) })
    ∧ (∀ src seq, exec (.replyHoldExpiry src seq) s = .next { s with heldReplies := s.heldReplies.filter fun r =>
        !(r.src == src && r.seq == seq && (List.range 4).any fun d => decide (r.since.getD d 0 + s.regs.peerto ≤ (s.die d).cycle)) })
    ∧ (∀ link globals down reach, link ≤ Config.hostLink →
      let a := if link ∈ s.fabric.stale then s else s.linkChanged link { s.links.get link with down := true }
      ∃ t, exec (.routeRecompute link ⟨globals, down, reach⟩) s = .next t
        ∧ t = { s with links := a.links, peers := t.peers, jobs := t.jobs, channels := t.channels, fabric := t.fabric, unacked := t.unacked }
        ∧ t.fabric = { s.fabric with globals := globals, down := down, stale := [] }
        ∧ (link ∉ s.fabric.stale → (t.links.get link).down = true) ∧ (∀ k, k ≠ link → t.links.get k = s.links.get k)
        ∧ (∀ d ∈ s.known, (t.peers.get d).route = t.routeTo d ∧ (t.peers.get d).broken = (t.routeTo d).isNone
            ∧ ((t.routeTo d).isSome = true → (t.peers.get d).unreachable = false))
        ∧ t.unacked = s.unacked.map (fun r => if (t.routeTo r.peer).isSome = true
            ∧ ((a.peers.get r.peer).broken = true ∨ (a.peers.get r.peer).route ≠ t.routeTo r.peer) then { r with sent := r.sent + 1 } else r)
        ∧ (∀ j x, s.job j = some x → (∀ v ∈ reach, v.1 ≠ j) → t.job j = some x)
        ∧ (∀ j x v, s.job j = some x → reach = [(j, v)] → t.job j = some { x with reach := v })
        ∧ t.channels = ⟨s.channels.cells.map fun c => (c.1, c.2.rerouted (!(t.peers.get c.1).broken))⟩)
    ∧ (∀ link (a1 b1 a2 b2 : Word), link ≤ Config.hostLink →
      let r (w : Word) : Word := w &&& 0x00FFFFFF
      let x : Link := if r a1 = r b1 then { down := false, resultA := r a1, resultB := r b1, common := r a1 }
        else { down := decide (r a2 ≠ r b2), resultA := r a2, resultB := r b2, common := lowerCommon a1 b1 }
      ∃ t, exec (.linkRetrain link a1 b1 a2 b2) s = .next t ∧ t = { s with links := s.links.set link x, peers := t.peers, fabric := t.fabric }
        ∧ ∀ d, (t.peers.get d).broken = true ↔ (s.peers.get d).broken = true ∨ (x.down = true ∧ d ∈ s.known
            ∧ ∃ q, ((s.peers.get d).route <|> s.routeTo d) = some q ∧ q.link = link))
    ∧ (∀ peer (mask : Word) exports, peer < Config.fabricDevices →
      exec (.capabilityPublish peer mask exports) s = .next { s with peers := s.peers.modify peer fun p =>
        { p with mask := mask &&& 0x07FFFFFF, known := true, exports := exports.map fun e => (e.1, min e.2 (2 ^ 38)) } })
    ∧ (∀ peer, (s.peers.get peer).broken = true → (s.peers.get peer).unreachable = false →
      (s.elapsed (s.waitDies peer) (s.peers.get peer).brokenAt s.regs.peerto = false → exec (.peerUnreachable peer) s = .next s)
      ∧ (s.elapsed (s.waitDies peer) (s.peers.get peer).brokenAt s.regs.peerto = true →
        ∃ t, exec (.peerUnreachable peer) s = .next t ∧ (t.peers.get peer).unreachable = true
          ∧ t.channels.get peer = (s.channels.get peer).lost
          ∧ ∀ id f, s.sheaf id = some f → ∃ z, t.sheaf id = some z
              ∧ z = { f with outstanding := f.outstanding.map fun o => if o.waitsFor peer = true then { o with kind := .poison } else o }))
    ∧ (∀ id cause x, s.storeFailures.find? (fun y => y.id == id && y.cause == cause) = some x → ∃ t r, exec (.remoteStoreFailure id cause) s = .next t
        ∧ t.storeFailures = s.storeFailures.filter (fun y => y.id != id)
        ∧ t = ({ s with storeFailures := s.storeFailures.filter (fun y => y.id != id) } : State).report r
        ∧ r.typ = 1 ∧ r.cause = cause ∧ r.ctx = x.ctx ∧ r.pc = x.pc ∧ r.addr = x.addr ∧ r.peer = x.peer ∧ r.info = x.bytes
        ∧ r.job = x.job ∧ r.launch = x.launch ∧ r.unit = x.unit ∧ r.core = x.core ∧ r.slot = x.slot ∧ r.gen = x.gen ∧ r.lanes = BitVec.twoPow 32 x.lane)
    ∧ (∀ id e c p, s.netCopy id = some (e, c, p) →
      let a := (c.sides e).1
      let b := (c.sides e).2
      (∀ data, c.route = 6 → exec (.rdmaCompletion id data) s = .next ((s.chargeMove a b p.len 0).endCopy e c { s := s, size := p.len }))
      ∧ (∀ data : List Byte, c.route = 7 → data.length = p.len →
        let cells := ((List.range p.len).zip data).map fun x => (b.base + BitVec.ofNat 64 x.1, x.2)
        (∀ x ∈ cells, s.sideMeets b x.1 = none) → exec (.rdmaCompletion id data) s
          = .next (((s.putOutput b { cells := cells }).chargeMove a b 0 p.len).endCopy e c { s := s, size := p.len }))
      ∧ ∀ cause data, let got := if c.route = 7 then data.take p.len else []
        let cells := (((List.range got.length).zip got).map fun x => (b.base + BitVec.ofNat 64 x.1, x.2)).filter fun x => (s.sideMeets b x.1).isNone
        exec (.nak id ⟨cause, data⟩) s = .next ((s.putOutput b { cells := cells }).endCopy e c
          { s := s, size := cells.length, cond := some ⟨.unserviceable, if cause = 1 then 1 else 5, 0, []⟩ }))
    ∧ ∀ port, port < Config.ethernetPorts → exec (.congestionNotificationPacket port) s
        = .next { s with congestion := s.congestion.modify port (· + 1) }

/-- R401 to R408, R410, R411, R232: the census. A sweep halves one counter after another; a ranking that finds a new map stages it and puts the
command into the queue; the hardware takes a command that is in the queue, waits until the spare parity is closed and an engine is free, copies
step by step, and the instant changes the generation. A write of anything else stores its bytes but in counters of a census, whose values it
leaves open, and one that changes a record out of turn leaves the results of its products open (R400, R403).
That each row is an event of its own (log 27), the list of a cold change (log 63), the wait for a fault (log 75) and what writes of others leave
(log 82) are the model's. -/
def Obligations.CensusEvents : Prop :=
  ∀ (s : State) (r : Nat),
    (∀ cells, (∀ c ∈ cells, s.counterAt c.1 = none) → s.write cells = ({ s with
      census := s.census.map fun c => if s.upsets cells c = true then { c with upset := true } else c } : State).store cells)
    ∧ (∀ budget policy, ∃ t c, exec (.matrixRecordRegistration r budget policy) s = .next t ∧ t = { s with census := t.census }
      ∧ c ∈ t.census ∧ c.mrec = r ∧ c.registered = true ∧ c.budget = budget ∧ c.policy = policy)
    ∧ (∀ ctx, (r, ctx) ∉ s.censusQueue → exec (.migrationCommand r ctx) s = .next s)
    ∧ (∀ ctx, (r, ctx) ∈ s.censusQueue → s.context ctx ≠ none → (s.matrixAt r).isSome = true →
      let a : State := { s with censusQueue := s.censusQueue.erase (r, ctx) }
      (s.mstateAt r = 0 → exec (.migrationCommand r ctx) s = .next ((((a.setRec r 0x70 4 0).setMstate r 1).setRec r 0x74 4 0).putCensus r fun c =>
        { c with migrating := true, mctx := ctx, mapped := 0, engine := false }))
      ∧ (s.mstateAt r ≠ 0 → exec (.migrationCommand r ctx) s = .next (a.setRec r 0x70 4 (5 * 16 + s.mstateAt r))))
    ∧ (∀ c m, s.censusOf r = some c → s.matrixAt r = some m →
      (c.sweeps ≠ 0 → let a := m.census + BitVec.ofNat 64 (2 * c.swept)
        (c.swept < m.rows → (∃ k w, s.translateNow c.ctx a .atomic = .ok k w) → exec (.fallowSweepEnd r) s
          = .next ((s.censusAtomic r c.ctx m.census c.swept (· / 2)).putCensus r fun x => { x with swept := x.swept + 1 }))
        ∧ (c.swept < m.rows → (∀ k w, s.translateNow c.ctx a .atomic ≠ .ok k w) → exec (.fallowSweepEnd r) s = .next s)
        ∧ (m.rows ≤ c.swept → exec (.fallowSweepEnd r) s = .next { s.setRec r 0x6C 4 (s.recField r 0x6C 4 + 1) with
            census := s.census.map fun x => if x.mrec = r then
              { x with sweeps := x.sweeps - 1, swept := 0, rankOwed := x.registered, notices := x.notices + 1 } else x }))
      ∧ (∀ smap mlist current spare, c.rankOwed = true → c.registered = true → s.mstateAt r = 0 → s.bothMaps c.ctx m = .ok (current, spare) →
        let map := newMap m c current (s.counters c.ctx m)
        let ranked (a : State) : State := { a with census := s.census.map fun x => if x.mrec = r then { x with rankOwed := false } else x }
        (map = current → exec (.censusRanking r smap mlist) s = .next (ranked s))
        ∧ (∀ z, map ≠ current → s.stage r c.ctx smap mlist map (migrationList map spare) = some z →
            exec (.censusRanking r smap mlist) s = .next (ranked z)))
      ∧ (∀ smap mlist rows, c.registered = false → exec (.coldChangeReport r smap mlist rows) s = .next s)
      ∧ (∀ smap mlist rows, c.registered = true →
        let c' : Census := { c with stale := c.stale ++ rows, relist := (smap, mlist) }
        let a := s.putCensus r fun _ => c'
        (s.mstateAt r ≠ 0 → exec (.coldChangeReport r smap mlist rows) s = .next a)
        ∧ (∀ current spare z, s.mstateAt r = 0 → c'.stale ≠ [] → s.bothMaps c.ctx m = .ok (current, spare) →
          let due := (List.range m.rows).filter fun k =>
            entryHot (current.getD k 0) && (c'.stale.contains k || (migrationList current spare).contains k)
          a.stage r c.ctx smap mlist current due = some z →
            exec (.coldChangeReport r smap mlist rows) s = .next (z.putCensus r fun x => { x with stale := [] })))
      ∧ (c.migrating = true → s.mstateAt r = 1 → exec (.migrationCopy r) s
        = .next (if s.recField r (if (m.gen + 1) % 2 = 0 then 0x4C else 0x4E) 2 = 0 then s.setMstate r 2 else s))
      ∧ (c.migrating = true → s.mstateAt r = 2 → s.exhausted c.mctx .hbm = false → s.exhausted c.mctx .copy = false →
        (c.engine = false → exec (.migrationCopy r) s
          = .next (if s.enginesHeld (s.censusDie r) < 32 then s.putCensus r fun x => { x with engine := true } else s))
        ∧ (c.engine = true → let a := s.freeCycles.2.charge c.mctx .copy s.freeCycles.1
          let failed (z : State) (n : Nat) : State := { (z.setMcause r n).setMstate r 0 with
            census := z.census.map fun x => if x.mrec = r then { x with migrating := false, engine := false, notices := x.notices + 1 } else x }
          (∀ z, a.migrateStep r c m = .went z → exec (.migrationCopy r) s = .next z)
          ∧ (∀ n, a.migrateStep r c m = .cause n → exec (.migrationCopy r) s = .next (failed a n))
          ∧ (∀ p, a.migrateStep r c m = .fault p → exec (.migrationCopy r) s = .next (a.healWords 0 p)
              ∨ exec (.migrationCopy r) s = .next (failed a 4))
          ∧ (m.rows ≤ c.mapped → a.recField r 0x68 4 ≤ a.recField r 0x74 4 → exec (.migrationCopy r) s = .next (a.setMstate r 3))))
      ∧ (c.migrating = true → s.mstateAt r = 3 → exec (.migrationInstant r) s
        = .next { (s.setRec r 0x48 4 (s.recField r 0x48 4 + 1)).setMstate r 0 with
            census := s.census.map fun x => if x.mrec = r then { x with migrating := false, engine := false } else x }))
    ∧ (∀ ctx mrec parity n z, mrec.toNat = r → s.openLeft = [(ctx, mrec, parity)] →
      s.readVaNat ctx (mrec + (if parity = 0 then 0x4C else 0x4E)) 2 = .ok n →
      s.writeVa ctx (mrec + (if parity = 0 then 0x4C else 0x4E)) (toBytes 2 (n - 1)) = .ok z →
      exec (.recordReachableAgain r) s = .next { z with openLeft := [] })

end


section
open Sys2Proof Sys2Proof.Machine Sys2Proof.Claims

/-- R414 to R422: a write of DVF is refused with its cause, or sets the point: at once, or as the supply arrives in steps of 10 mV, one in a µs, the clock meanwhile at the lower of
old and new. A gate is refused for the die's work or for the last running die; of a gated
die it changes only the point; a wake brings the die back with its cores' state cleared.
FLIM is a free table under its lines (log 17); the step and floor of throttling, and that REFUSE stays, are the model's (log 64, log 65). -/
def Obligations.PointsAndGates : Prop :=
  ∀ (s : State) (die : Nat) (v : Word), die < 4 →
    let d := s.die die
    let st := d.dvs.toNat / 2 ^ 30
    let old := d.dvs.toNat % 2 ^ 10
    let mv := v.toNat % 2 ^ 10
    let mhz := v.toNat / 2 ^ 12 % 2 ^ 12
    let status (st cause mv : Nat) : Word := BitVec.ofNat 32 (st * 2 ^ 30 + cause * 2 ^ 27 + mv)
    let cause := if mv < 420 ∨ 780 < mv ∨ mv % 10 ≠ 0 then 1 else if mhz < 600 ∨ flimMhz mv < mhz ∨ mhz % 25 ≠ 0 then 2 else 0
    let refused (k : Nat) : Out := .next (s.setDie die { d with dvs := status st k old })
    let last := d.dvs.toNat / 2 ^ 27 % 8
    let kept := v &&& 0x80FFF3FF
    let cleared (t : State) : Prop := ∀ c, t.core c = let k := s.core c
      if c / 48 = die then { enabled := k.enabled, closed := k.closed, slotGen := k.slotGen, held := k.held, waiting := k.waiting } else k
    (v.getLsbD 31 = false → st ≠ 2 → exec (.dvfSetPoint die v) s =
      if st = 3 then refused 3 else if cause ≠ 0 then refused cause else if st ≠ 0 then refused 3
      else if old = mv then .next (s.setDie die { d with dvf := kept, clock := mhz, dvs := status 0 last mv })
      else .next (s.setDie die { d with dvf := kept, clock := min d.clock mhz, dvs := status 1 last old, rampAt := s.ticks + 2900 }))
    ∧ (v.getLsbD 31 = true → st ≠ 2 → exec (.dvfGate die v) s =
      if st = 3 then refused 3 else if cause ≠ 0 then refused cause else if st ≠ 0 ∨ s.dieBusy die = true then refused 3
      else if ([0, 1, 2, 3].all fun n => n == die || (s.die n).dvs.toNat / 2 ^ 30 == 2) = true then refused 4
      else .next (s.setDie die { d with dvf := kept, dvs := status 3 last old }))
    ∧ (v.getLsbD 31 = true → st = 2 → exec (.dvfGate die v) s = if cause ≠ 0 then refused cause else .next (s.setDie die { d with dvf := kept }))
    ∧ (v.getLsbD 31 = false → st = 2 ∨ st = 3 → exec (.dvfWake die v) s =
      if st = 3 then refused 3 else if cause ≠ 0 then refused cause
      else .next (s.setDie die { d with dvf := kept, dvs := status 3 last old }))
    ∧ (let there : Die := { d with clock := d.dvf.toNat / 2 ^ 12 % 2 ^ 12, dvs := status 0 last (d.dvf.toNat % 2 ^ 10) }
      let goal := d.dvf.toNat % 2 ^ 10
      let next := if old < goal then min goal (old + 10) else max goal (old - 10)
      (st = 1 → exec (.pointChangeDone die) s = .next (if s.ticks < d.rampAt then s
        else if next = goal then s.setDie die there else s.setDie die { d with dvs := status 1 last next, rampAt := s.ticks + 2900 }))
      ∧ (st = 3 → d.dvf.getLsbD 31 = true → ∃ t, exec (.gatingDone die) s = .next t ∧ cleared t
        ∧ t = { s with cores := t.cores, dies := t.dies, tlbs := s.tlbs.filter fun x => x.die != die, misses := s.misses.filter fun x => x.die != die }
        ∧ ∀ n, t.die n = if n = die then { d with dvs := status 2 last old, l2 := [], directory := [] } else s.die n)
      ∧ (st = 3 → d.dvf.getLsbD 31 = false → ∃ t, exec (.wakeDone die) s = .next t ∧ cleared t
        ∧ t = { s with cores := t.cores, dies := t.dies } ∧ ∀ n, t.die n = if n = die then { there with l2 := [], directory := [] } else s.die n))
    ∧ exec (.thermalThrottle die) s = .next (s.setDie die { d with throttle := some (max 25 (min d.clock (d.throttle.getD d.clock) - 25)) })
    ∧ exec (.throttleRelease die) s = .next (s.setDie die { d with throttle := none })

/-- R12, R422 to R429: scrubbing, check values, retired rows, failed cores, the repair record, module reset and boot. Corrected errors are counted
for their row in a scrub period; a row past the threshold, or with a word that cannot be corrected, is one whose pages are to move, and then may be
retired. A failed core is marked in the record.
Signatures and digests are free functions (log 18); which row a line lies in, a bank and a set by a number, and the rows that a reset repairs are
the model's choice (log 58); so is that HBM reads 0 after a module reset (logs 77 and 1). -/
def Obligations.IntegrityAndBoot : Prop :=
  ∀ (s : State),
    (∀ line k, 128 * line < Config.hbmBytes →
      exec (.scrubPass line 0) s = .next s
      ∧ (let row := Config.hbmRow line &&& 0xFFFFFFFFFF000000
        let asked := if row ∈ s.moveAsked then s.moveAsked else s.moveAsked ++ [row]
        let now := s.nanos / (s.regs.scrub * 3600 * 10 ^ 9)
        let counts := (if s.scrubPeriod = now then s.rowErrors else {}).modify row.toNat (· + 1)
        exec (.scrubPass line 1) s = .next { s with
          rowErrors := counts, scrubPeriod := now, moveAsked := if s.regs.rowThreshold < counts.get row.toNat then asked else s.moveAsked }
        ∧ (k < 16 → ∃ t, exec (.scrubPass line (2 + k)) s = .next t ∧ t = { s with memPoison := t.memPoison, moveAsked := asked }
          ∧ ∀ a, t.poisonAt a = (s.poisonAt a || decide (a / 8 = 16 * line + k))))
      ∧ (s.checkOk line = true →
        ∃ x, x ≠ s.lineCheck line ∧ exec (.scrubPass line 18) s = .next { s with checks := s.checks.set line (some x) })
      ∧ (s.checkOk line = false → exec (.scrubPass line 18) s = .next s))
    ∧ (∀ n, exec (.scrubPass n 24) s = .next { s with bankErrors := s.bankErrors.modify n (· + 1) }
      ∧ exec (.scrubPass n 25) s = .next { s with setErrors := s.setErrors.modify n (· + 1) })
    ∧ (∀ row : DWord, row ∉ s.moveAsked → exec (.hbmRowRetire row) s = .next s)
    ∧ (∀ row : DWord, row ∈ s.moveAsked → exec (.hbmRowRetire row) s = .next { s with
        moveAsked := s.moveAsked.erase row
        retiredRows := if row ∈ s.retiredRows then s.retiredRows else s.retiredRows ++ [row]
        repair := if (∃ x ∈ s.repair.rows, x &&& ~~~(1#64) = row &&& ~~~(1#64)) then s.repair
          else { s.repair with seq := s.repair.seq + 1, rows := s.repair.rows ++ [row &&& ~~~(1#64)] } })
    ∧ (∀ core, core < 192 → ∃ t, exec (.coreFailure core) s = .next t ∧ (t.core core).enabled = false ∧ (t.core core).closed = true
        ∧ (∀ c, t.coreMask.getLsbD c = (s.coreMask.getLsbD c && decide (c ≠ core)))
        ∧ (∀ b, s.built.getD core none = some b → let old := s.repair.fails.getD (core / 48) 0
          t.repair = if old.testBit b = true then s.repair
            else { s.repair with seq := s.repair.seq + 1, fails := s.repair.fails.set (core / 48) (old + 2 ^ b) })
        ∧ ((s.core core).saving = none → s.residents core ≠ [] → (t.core core).saving.isSome = true))
    ∧ (∀ (fails : List Nat) (rows : List DWord) seq ed ml,
        let bytes := toBytes 4 rows.length ++ toBytes 4 0 ++ toBytes 8 seq ++ [0, 1, 2, 3].flatMap (fun d => toBytes 8 (fails.getD d 0))
          ++ rows.flatMap fun row => toBytes 8 row.toNat
        let msg := Config.digest (bytes.map BitVec.toNat)
        exec (.repairRecordWrite fails rows seq ed ml) s =
        if fails.length = 4 ∧ s.repair.seq < seq ∧ Config.edVerify (Config.identityKey 0) msg ed = true
            ∧ Config.mlVerify (Config.identityKey 1) msg ml = true
        then .next { s with repair := { seq := seq, fails := fails.map (· % 2 ^ 52), rows := rows.map (· &&& 0xFFFFFFFFFF000001) } } else .next s)
    ∧ (∃ t, exec .moduleReset s = .next t
        ∧ (∀ a, t.byteAt a = if a < 2 ^ 60 then 0 else s.byteAt a) ∧ t.regs = State.reset.regs ∧ t.dies = {} ∧ t.spdm = {} ∧ t.ticks = 0
        ∧ t.sheaves = {} ∧ t.units = {} ∧ t.jobs = {} ∧ t.contexts = {} ∧ t.entries = [] ∧ t.tlbs = [] ∧ t.subQueues = [] ∧ t.latch = none
        ∧ (let rows := s.repair.rows.map fun r => if r ||| 1 ∈ s.repair.applied then r ||| 1 else r
          t.repair = if rows = s.repair.rows then s.repair else { s.repair with seq := s.repair.seq + 1, rows := rows })
        ∧ t.moveAsked = s.moveAsked
        ∧ t.trust = { s.trust with image := none, triedBanks := [], recovery := false } ∧ t.agenda = s.agenda
        ∧ t.built = s.repair.built
        ∧ ∀ c, c < 192 → (t.core c).enabled = decide (c % 48 < s.repair.enabledCores (c / 48)) ∧ t.coreMask.getLsbD c = (t.core c).enabled)
    ∧ (∀ bank, bank < 2 → s.trust.image = none →
      let x := if bank = 0 then s.trust.bank0 else s.trust.bank1
      let runs (i : FwImage) : Out := .next { s with
        trust := { s.trust with image := some i, counter := max s.trust.counter i.version, recovery := false, triedBanks := [] }
        regs := { s.regs with hdmsz := min 512 Config.hdmsz } }
      (∀ i, x = some i → s.trust.accepts i = true → exec (.bootImageLoad bank) s = runs i)
      ∧ ((∀ i, x = some i → s.trust.accepts i = false) →
        let tried := if bank ∈ s.trust.triedBanks then s.trust.triedBanks else s.trust.triedBanks ++ [bank]
        exec (.bootImageLoad bank) s = .next { s with trust := { s.trust with triedBanks := tried, recovery := decide (tried.length = 2) } })
      ∧ (∀ i, s.trust.accepts i = true → Config.manifestDigest i.manifest = Config.sha384 i.image ∧ s.trust.counter ≤ i.version)
      ∧ ∀ m ed ml ver im, let i : FwImage := { manifest := m, edSig := ed, mlSig := ml, version := ver, image := im }
        exec (.recoveryImageDoe m ed ml ⟨ver, im⟩) s = if s.trust.recovery = true ∧ s.trust.accepts i = true then runs i else .next s)

/-- R431: attestation. A request is answered in the stages in which it may come, each exchange joining the transcript; measurements, the challenge and the
key exchange are signed; a finished exchange gives the IDE keys of its session.
The numbers that stand for messages, and what measurement requests 0 and 0xFF answer, are the model's (log 56); digests, signatures,
certificates and key values are free functions (log 18). -/
def Obligations.Attestation : Prop :=
  ∀ (s : State) (nonce slot index pub x : Nat),
    let said (st : SpdmStage) (req ans : List Nat) : State :=
      { s with spdm := { s.spdm with stage := st, transcript := s.spdm.transcript ++ req ++ ans, answer := ans } }
    let signed (parts : List Nat) : List Nat :=
      let d := Config.digest (s.spdm.transcript ++ parts)
      parts ++ [Config.edSign d, Config.mlSign d]
    let st := s.spdm.stage
    let chain : List Nat := [0, 1].flatMap fun k => [Config.identityKey k, Config.certificate k 0, Config.certificate k 1]
    let agreed : Prop := st = .negotiated ∨ st = .keyed ∨ st = .session
    exec .getVersion s = .next { s with spdm := { stage := .version, transcript := [0x84, 0x13], secret := 0, answer := [0x13] } }
    ∧ (st = .version → exec .getCapabilities s = .next (said .capabilities [0xE1] [0x61]))
    ∧ (st = .capabilities → exec (.negotiateAlgorithms 384 25519 384 256) s
        = .next (said .negotiated [384, 25519, 384, 256] [384, 25519, 384, 256]))
    ∧ (agreed → exec .getDigests s = .next (said st [0x81] [Config.digest chain])
        ∧ exec (.getCertificate 0) s = .next (said st [0x82, 0] chain)
        ∧ exec (.challenge nonce) s = .next (said st [0x83, nonce] (signed (nonce :: [1, 2, 3, 4, 5].map s.measure)))
        ∧ (1 ≤ index → index ≤ 5 → exec (.getMeasurements index nonce) s
            = .next (said st [0xE0, index, nonce] (signed [nonce, index, s.measure index])))
        ∧ exec (.getMeasurements 0 nonce) s = .next (said st [0xE0, 0, nonce] (signed [nonce, 0, 5]))
        ∧ exec (.getMeasurements 0xFF nonce) s = .next (said st [0xE0, 0xFF, nonce] (signed (nonce :: 0xFF :: [1, 2, 3, 4, 5].map s.measure))))
    ∧ (st = .negotiated → let ans := signed [pub, Config.dheValue s.free]
        exec (.keyExchange pub) s = .next { s with
          free := s.free + 1
          spdm := { stage := .keyed, secret := Config.sessionSecret s.free pub, transcript := s.spdm.transcript ++ [0xE4, pub] ++ ans, answer := ans } })
    ∧ (st = .keyed → x = Config.digest (s.spdm.secret :: s.spdm.transcript) → exec (.finish x) s
        = .next { said .session [0xE5, x] [] with ideKeys := [0, 1, 2].map (Config.ideKey s.spdm.secret) })
    ∧ (st = .session → exec .endSession s
        = .next { s with spdm := { stage := .negotiated, secret := 0, transcript := s.spdm.transcript ++ [0xEC], answer := [] } })
    ∧ (¬ agreed → exec .getDigests s = .next s ∧ exec (.challenge nonce) s = .next s ∧ exec (.getMeasurements index nonce) s = .next s
        ∧ exec (.getCertificate slot) s = .next s)

end


namespace Sys2Proof.Claims
open Sys2Proof.Machine

/-- The outside world is about to bring only events, no words. -/
def OnlyEvents (s : State) : Prop := ∀ i ∈ s.agenda, encode i = none

/-- A word from its fields: Y, opcode, guard, and the three of seven bits (R67). -/
def fieldsOf (y op g d a b : Nat) : Nat := y * 2 ^ 31 + op * 2 ^ 24 + g * 2 ^ 21 + d * 2 ^ 14 + a * 2 ^ 7 + b

end Sys2Proof.Claims

section
open Sys2Proof Sys2Proof.Machine Sys2Proof.Claims

/-- R67, R90: words put together field by field decode to what they stand for, one of each kind of word; an unassigned opcode decodes to nothing. -/
def Obligations.SampleWordsDecode : Prop :=
  decodeTableWord 32 (fieldsOf 0 0x10 7 3 4 5) = some (.iadd false 7 3 4 5)
  ∧ decodeTableWord 32 (0x01 * 2 ^ 24 + 0xABCDEF) = some (.limm 0xABCDEF)
  ∧ decodeTableWord 32 (fieldsOf 1 0x09 7 120 120 0) = some (.exit 7)
  ∧ decodeTableWord 32 (fieldsOf 0 0x1F 2 1 2 (1 * 32 + 31)) = some (.shi false 2 1 2 1 31)
  ∧ decodeTableWord 32 (fieldsOf 0 0x38 7 9 8 4) = some (.lg2 false 7 9 8)
  ∧ decodeTableWord 32 (fieldsOf 0 0x5B 6 120 104 1) = some (.joinM false 6 104)
  ∧ decodeTableWord 32 (fieldsOf 1 0x60 7 10 12 (3 * 8 + 6)) = some (.ld true 7 10 12 3 6)
  ∧ decodeTableWord 32 (fieldsOf 0 0x71 7 2 31 (2 * 32 + 9)) = some (.mmab false 7 2 31 9)
  ∧ decodeTableWord 32 (fieldsOf 0 0x75 7 127 6 (2 * 16 + 8 + 5)) = some (.copy false 7 127 6 2 true 5)
  ∧ decodeTableWord 32 (fieldsOf 0 0x7D 7 16 20 (16 + 15)) = some (.incup false 7 16 20 true 15)
  ∧ decodeTableWord 32 (fieldsOf 0 0x7F 7 0 0 0) = none

/-- R67, R90: decoding the word that encodes an instruction gives the instruction back, for every instruction that a word encodes. -/
def Obligations.DecodeGivesBackEncode : Prop :=
  ∀ (i : Instr) (w : Word), i.wellFormed = true → encode i = some w → decode w = .ok i

/-- R84, R85, R87, R145: a new choice of positions, none of whose words proves not ready, stands. When the first position of the latch stands at bytes
that decode to an instruction, a step is that instruction's execution, by the lanes of the position that still stand as they were chosen, the
position gone from the latch. Where the `ENDL` of a resident body goes with the position issued last, and its lanes are all the live lanes, that
`ENDL` is executed next, the `ENDL` of a body around it in turn.
That only lanes which still stand as they were chosen act (log 34), and which words take their `ENDL` along (log 22), are the model's reading.

With the latch empty, a step is the execution of the event that the outside world brings next; with none, of the first event of the model's own
order that changes the state, or of the next quadrant's cycle. The order is the model's choice (log 3). -/
def Obligations.StepRunsDecodedWord : Prop :=
  (∀ (s : State) (l : Latch) (m : Mask) (rest : List Mask) (f : Sheaf) (l0 : Nat) (w : Word) (i : Instr),
      s.latch = some l → s.sheaf l.sheaf = some f →
      (∀ t, l.trial = some t → (∀ q ∈ l.positions, s.notReady l q = none) → step s = .next { s with latch := some { l with trial := none } })
      ∧ (l.trial = none → l.tail = none → l.positions = m :: rest → lowest (l.still f m) = some l0 →
        s.fetch f.coreNo (s.unitOf f).ctx (f.lane l0).pc = some w → decode w = .ok i →
        let tail := l.ends.find? fun e => e.1 == m
        step s = exec i { s with latch := if rest = [] ∧ tail = none then none else some { l with positions := rest, tail := tail }
                                 cur := some ⟨l.sheaf, l.still f m, l.view⟩ })
      ∧ (∀ a y n imm, l.trial = none → l.tail = some (m, a) →
        let lanes := laneMask fun k => m.getLsbD k && f.free k && (f.lane k).pc == a
        let around := (s.tailOf f a 0x5D).map fun b => (lanes, b)
        lowest lanes = some l0 → f.holdsAll lanes = true → s.endWaits f lanes = false → f.faultedLanes lanes = 0 →
        s.fetch f.coreNo (s.unitOf f).ctx (f.lane l0).pc = some w → decode w = .ok (.endl y n imm) →
        step s = exec (.endl y n imm) { s with latch := if l.positions = [] ∧ around = none then none else some { l with tail := around }
                                               cur := some ⟨l.sheaf, lanes, f⟩ })) ∧
  (∀ (s : State), s.latch = none →
      (∀ i rest, s.agenda = i :: rest → step s = exec i { s with cur := none, agenda := rest })
      ∧ (s.agenda = [] → step s = exec (State.nextEvent { s with cur := none }) { s with cur := none }))

/-- R3, R28, R36, R41, R368, R374, R377, R387, R425: the values after reset, and with them the invariant.
Empty memory and the values that no rule gives are the model's choice (log 1, log 4 to log 9). -/
def Obligations.ResetHolds : Prop :=
  let s := State.reset
  Machine.Inv s ∧ s.mem = [] ∧ (∀ d, d < 4 → (s.die d).dvs = 0x2A3 ∧ (s.die d).clock = 2400 ∧ (s.die d).throttle = none)
  ∧ s.regs.drain = 16384 ∧ s.regs.wdog = 2 ^ 24 ∧ s.regs.peerto = 2 ^ 22 ∧ s.regs.age = 16 ∧ s.regs.scrub = 24
  ∧ (∀ id, s.sheaf id = none) ∧ (∀ u, s.unit u = none) ∧ (∀ j, s.job j = none) ∧ (∀ c, s.context c = none)
  ∧ (∀ c h, ((s.core c).handles.get h).state = .free) ∧ (∀ c m, ((s.core c).slots.get m).claim = none)
  ∧ (∀ c e, (s.core c).tiles.get e = 0 ∧ (s.core c).tilePoison.get e = false) ∧ (∀ r, s.poisonAt r = false)

/-- Every step keeps memory in its canonical form and the package registers in the ranges that the manual gives them. -/
def Obligations.StepKeepsInvariant : Prop := ∀ s t, Machine.Inv s → step s = .next t → Machine.Inv t

/-- A step from a state in which the outside world is about to bring only events goes on, and leaves such a state. -/
def Obligations.StepNeverStops : Prop := ∀ s, OnlyEvents s → ∃ t, step s = .next t ∧ OnlyEvents t

end


section
open Sys2Proof Sys2Proof.Machine Sys2Proof.Claims

/-- R118, R209, R210, R211, R223, R225, and the rules of chapters 15, 16, 18 and 23: forms of one plain case each, in which the form has its own
effect and the machine goes on. The special functions write their register; slots are claimed, released, bound; tile elements and tiles are moved;
what comes to units, jobs, queues, incumbents, the fabric, memory's rows, the repair record and boot does to them what its rule says.
The names of what the outside world brings are the model's (log 48, log 58, log 59); signatures are free functions (log 18). -/
def Obligations.EachFormHasItsEffect : Prop :=
  (∀ (y : Bool) (g : BitVec 3) (d a : BitVec 7) (s : State) (c : Ctx) (i : Instr),
    i ∈ [.rcp y g d a, .rsq y g d a, .sqrt y g d a, .ex2 y g d a, .lg2 y g d a, .sin y g d a, .cos y g d a, .tanh y g d a] → Runs i s c →
    Completes i s c c.after fun f z => ∃ val, Writes c 7 d 1 val f z)
  ∧ (∀ (y sc : Bool) (g : BitVec 3) (d h a : BitVec 7) (n k tt : BitVec 5) (x : BitVec 4) (s : State) (c : Ctx) (u : UnitSt),
    s.unit c.f.unit = some u →
    let enters (i : Instr) (w : Work) : Prop := ∃ t e, exec i s = .next t ∧ e ∈ t.entries ∧ e.queue = .mq ∧ e.work = w
    let elem (l : Nat) : Nat := (BitVec.ofInt 64 ((c.r32 a l).toNat + ((c.limm.map BitVec.toInt).getD 0))).toNat
    let inside : Prop := ∀ l, l < 32 → c.act.getLsbD l = true → elem l < 1024 * tileCount u.lrec.pword
    (Runs (.mclaim y g d n k) s c →
      (∀ m, n.toNat ≤ m → m ≤ n.toNat + k.toNat → (s.slot c.f.unit m).claim = none ∨ (s.slot c.f.unit m).claim = some c.f.unit) →
      ∃ t, exec (.mclaim y g d n k) s = .next t ∧ ∀ m, n.toNat ≤ m → m ≤ n.toNat + k.toNat → (t.slot c.f.unit m).claim = some c.f.unit)
    ∧ (Runs (.mrel y g n k) s c → enters (.mrel y g n k) (.mrel n.toNat (k.toNat + 1)))
    ∧ (∀ v r, Runs (.mbind y g h a n) s c → (begun (.mbind y g h a n) s c).unit c.f.unit = some v → (c.low32 a).toNat % 64 = 0 →
      (c.low32 a).toNat + 64 ≤ v.lrec.win → v.winPoisoned (c.low32 a).toNat 64 = false → parseLayout (v.winBytes (c.low32 a).toNat 64) = some r →
      r.exts = [32, 32] → r.elem = 0 ∨ r.elem = 10 ∨ 17 ≤ r.elem ∧ r.elem ≤ 23 → (s.slot c.f.unit n.toNat).claim = some c.f.unit →
      h.toNat ∈ v.lrec.handles → enters (.mbind y g h a n) (.mbind n.toNat h.toNat r c.f.rm))
    ∧ (Runs (.amovRd y g d a x) s c → inside → (∀ l, l < 32 → c.act.getLsbD l = true → (s.core c.core).tilePoison.get (elem l) = false) →
      ∃ t z r, exec (.amovRd y g d a x) s = .next t ∧ t.sheaf c.id = some z ∧ r ∈ z.timers ∧ r.dst = d ∧ r.lanes = c.act
        ∧ ∀ l, l < 32 → c.act.getLsbD l = true → d.toNat < 104 → (l, [(s.core c.core).tiles.get (elem l)]) ∈ r.words)
    ∧ (Runs (.amovWr y g d a) s c → inside → ∃ t, exec (.amovWr y g d a) s = .next t
        ∧ ∀ l, l < 32 → c.act.getLsbD l = true → (∀ j, l < j → j < 32 → c.act.getLsbD j = true → elem j ≠ elem l) →
            (t.core c.core).tiles.get (elem l) = c.r32 d l)
    ∧ (Runs (.acvt y g d a sc tt) s c → d.toNat < tileCount u.lrec.pword → (c.low32 a).toNat % 64 = 0 →
      (c.low32 a).toNat + 2048 ≤ u.lrec.win → ∃ t e m, exec (.acvt y g d a sc tt) s = .next t ∧ e ∈ t.entries ∧ e.queue = .mq
        ∧ e.work = .mill m ∧ m.op = .acvt ∧ m.tile = d.toNat ∧ m.addr = (c.low32 a).toNat ∧ m.target = tt.toNat))
  ∧ (∀ (s : State),
    (∀ id r p, s.spawns.find? (fun x => x.id == id && !x.sent) = some r → s.unit r.owner.unit = some p → s.spawnBefore r = false →
      r.grow = none → r.remote = none → p.cancelGen = r.cancelGen → r.stamp = none → s.matcherLoad (((s.job p.job).map Job.homeDie).getD 0) < 8192 →
      ∃ t n z, exec (.spawnArrival id) s = .next t ∧ t.unit n = some z ∧ z.spawned = true ∧ z.parent = some r.owner.unit ∧ z.args = r.args)
    ∧ (∀ core e rest u x off, s.admitFrom ≤ core → (s.die (dieOf core)).running = true → s.dieList (dieOf core) = e :: rest → e.unit = some u →
      s.unit u = some x → ({ s with admitFrom := core + 1 } : State).fits core x.lrec x.ctx = some off →
      ∃ t z, exec (.unitAdmission core) s = .next t ∧ t.unit u = some z ∧ z.stage = .resident ∧ z.core = some core)
    ∧ (∀ u x, s.unit u = some x → x.void = false → x.stage = .resident → (∀ f ∈ s.sheavesOf u, f.2.retired = true) → s.worksOf u = false →
      ∃ t z, exec (.unitComplete u) s = .next t ∧ t.unit u = some z ∧ z.stage = .complete)
    ∧ (∀ n x, s.node n = some x → s.nodeDone n x = true → ∃ t z, exec (.nodeComplete n) s = .next t ∧ t.node n = some z ∧ z.stage = .complete)
    ∧ (∀ j dev krec args ranges x, s.job j = some x → x.ended = none → x.complete = false → dev ∈ x.parts → s.matcherLoad x.homeDie < 8192 →
      ∃ t z, exec (.remoteEnqueueReceive j dev krec args ⟨ranges, none⟩) s = .next t ∧ t.job j = some z ∧ z.rcvd = x.rcvd + 1)
    ∧ (∀ id ok r, s.spawns.find? (fun x => x.id == id && x.sent) = some r →
      ∃ t, exec (.remoteEnqueueAck id ok) s = .next t ∧ t.spawns = s.spawns.filter (fun x => x.id != id))
    ∧ (∀ j x, s.job j = some x → x.ended = none → x.parts = [] → s.jobZero j = true →
      ∃ t z, exec (.jobCompletionSweep j []) s = .next t ∧ t.job j = some z ∧ z.complete = true)
    ∧ (∀ j x cause, s.job j = some x → x.ended = none → x.complete = false → cause ≠ 16 →
      ∃ t z, exec (.jobEnd j cause) s = .next t ∧ t.job j = some z ∧ z.ended = some cause))
  ∧ (∀ (s : State),
    (∀ id w q, s.qwords.find? (fun w => w.id == id && !w.waiting) = some w → s.qDesc w.key w.owner.ctx = some q → w.push = false → q.items = 0 →
      w.items ≠ [] → (∀ x ∈ w.items, w.owner.lanes.getLsbD x.1 = true) → exec (.queueWordAtHome id) s
        = .next { s with qwords := s.qwords.filter (fun y => y.id != w.id) ++ [{ w with waiting := true }] })
    ∧ (∀ id q, s.qdeliveries.find? (fun x => x.id == id) = some q → s.stampDrained q.sheaf q.counts = true →
      ∃ t, exec (.popDelivery id) s = .next t ∧ t.qdeliveries = s.qdeliveries.filter (fun x => x.id != id))
    ∧ (∀ u id f, s.sheavesOf u = [(id, f)] → s.sheaf id = some f → f.liveMask ≠ 0 →
      (∀ l, l < 32 → f.liveMask.getLsbD l = true → (f.lane l).hold.barrier.isSome = true) → ∃ t z, exec (.barrierComplete u) s = .next t
        ∧ t.sheaf id = some z ∧ ∀ l, l < 32 → f.liveMask.getLsbD l = true → (z.lane l).pc = (f.lane l).pc + 4)
    ∧ (∀ id f n l, s.sheaf id = some f → s.cwaitTest f.unit n = true → l < 32 → (f.lane l).life = .live → (f.lane l).hold = .cwait n →
      ∃ t z, exec (.cwaitRelease id) s = .next t ∧ t.sheaf id = some z ∧ (z.lane l).pc = (f.lane l).pc + 4)
    ∧ (∀ id m, s.incMsg id = some m → m.read = false → m.applied = false →
      ∃ t z, exec (.incumbentCommit id) s = .next t ∧ t.incMsg id = some z ∧ z.applied = true)
    ∧ (∀ id m, s.incMsg id = some m → m.read = false → m.applied = true →
      ∃ t, exec (.incupReply id) s = .next t ∧ t.incMsgs = s.incMsgs.filter (fun x => x.id != id))
    ∧ (∀ id m, s.incMsg id = some m → m.read = true →
      ∃ t, exec (.incrdRootReply id) s = .next t ∧ t.incMsgs = s.incMsgs.filter (fun x => x.id != id))
    ∧ (∀ j n core, core < 192 → (∃ r ∈ s.replicas, r.job = j ∧ r.reg = n ∧ r.onDie = false ∧ r.place = core) →
      ∃ t, exec (.crierReplicaUpdate j n false core) s = .next t ∧ t.replica j n false core = ((s.inc j n).value, (s.inc j n).payload))
    ∧ (∀ src seq j n v p x, s.job j = some x → (s.channels.get src).received = seq →
      ∃ t, exec (.crierForward ⟨src, seq, j⟩ n v p 0) s = .next t ∧ (t.channels.get src).received = seq + 1))
  ∧ (∀ (s : State),
    (∀ src seq job off op size x y, op ≠ 64 → (∀ r ∈ s.heldReplies, ¬ (r.src = src ∧ r.seq = seq)) →
      ∃ t r, exec (.peerRequest src seq job off op size x y) s = .next t ∧ r ∈ t.heldReplies ∧ r.src = src ∧ r.seq = seq)
    ∧ (∀ src seq, (∀ r ∈ s.heldReplies, s.elapsed (List.range 4) r.since s.regs.peerto = true) → ∃ t, exec (.replyHoldExpiry src seq) s = .next t ∧ ∀ r ∈ t.heldReplies, ¬ (r.src = src ∧ r.seq = seq))
    ∧ (∀ link globals down reach, link ≤ Config.hostLink → link ∉ s.fabric.stale →
      ∃ t, exec (.routeRecompute link ⟨globals, down, reach⟩) s = .next t ∧ (t.links.get link).down = true)
    ∧ (∀ link (a b : Word), link ≤ Config.hostLink → ∃ t, exec (.linkRetrain link a a b b) s = .next t ∧ (t.links.get link).down = false)
    ∧ (∀ peer mask len, peer < Config.fabricDevices →
      ∃ t, exec (.capabilityPublish peer mask len) s = .next t ∧ (t.peers.get peer).mask = mask &&& 0x07FFFFFF)
    ∧ (∀ peer, (s.peers.get peer).broken = true → (s.peers.get peer).unreachable = false →
      s.elapsed (s.waitDies peer) (s.peers.get peer).brokenAt s.regs.peerto = true →
      ∃ t, exec (.peerUnreachable peer) s = .next t ∧ (t.peers.get peer).unreachable = true)
    ∧ (∀ id cause x, s.storeFailures.find? (fun y => y.id == id && y.cause == cause) = some x →
      ∃ t, exec (.remoteStoreFailure id cause) s = .next t ∧ t.storeFailures = s.storeFailures.filter (fun y => y.id != id))
    ∧ (∀ id e c p data, s.netCopy id = some (e, c, p) → c.route = 6 → e.id = id →
      ∃ t, exec (.rdmaCompletion id data) s = .next t ∧ ∀ x ∈ t.entries, x.id ≠ id)
    ∧ (∀ id e c p cause, s.netCopy id = some (e, c, p) → e.id = id → ∃ t, exec (.nak id cause) s = .next t ∧ ∀ x ∈ t.entries, x.id ≠ id)
    ∧ (∀ port, port < Config.ethernetPorts →
      ∃ t, exec (.congestionNotificationPacket port) s = .next t ∧ t.congestion.get port = s.congestion.get port + 1))
  ∧ (∀ (s : State),
    (∀ line, 128 * line < Config.hbmBytes → s.scrubPeriod = s.scrubNow →
      ∃ t, exec (.scrubPass line 1) s = .next t ∧ t.rowErrors.get (lineRow line).toNat = s.rowErrors.get (lineRow line).toNat + 1)
    ∧ (∀ row, row ∈ s.moveAsked → ∃ t, exec (.hbmRowRetire row) s = .next t ∧ row ∈ t.retiredRows)
    ∧ (∀ core, core < 192 → ∃ t, exec (.coreFailure core) s = .next t ∧ (t.core core).enabled = false)
    ∧ (∀ fails rows seq ed ml, let r : Repair := { seq := seq, fails := fails, rows := rows }
      fails.length = 4 → s.repair.seq < seq → Config.edVerify (Config.identityKey 0) r.digest ed = true →
      Config.mlVerify (Config.identityKey 1) r.digest ml = true →
      ∃ t, exec (.repairRecordWrite fails rows seq ed ml) s = .next t ∧ t.repair = r.trimmed)
    ∧ (∃ t, exec .moduleReset s = .next t ∧ t.sheaves = {} ∧ t.units = {} ∧ t.jobs = {} ∧ t.contexts = {} ∧ t.trust.image = none)
    ∧ (∀ i, s.trust.image = none → s.trust.bank0 = some i → s.trust.accepts i = true →
      ∃ t, exec (.bootImageLoad 0) s = .next t ∧ t.trust.image = some i)
    ∧ (∀ m ed ml ver im, let i : FwImage := { manifest := m, edSig := ed, mlSig := ml, version := ver, image := im }
      s.trust.recovery = true → s.trust.accepts i = true → ∃ t, exec (.recoveryImageDoe m ed ml ⟨ver, im⟩) s = .next t ∧ t.trust.image = some i))

end
end

