-- ==== Sys2Proof/Laws/Store.lean ====
section
/-!
SUPPORT. Laws of the sparse store and of memory: a read after a write, the canonical form, and that writes keep it.
-/
namespace Sys2Proof
variable {α : Type}

@[simp] theorem Store.find_insert_self (key : Nat) (v : α) (l : List (Nat × α)) :
    Store.find key (Store.insert key v l) = some v := by
  induction l with
  | nil => simp [Store.insert, Store.find]
  | cons c rest ih =>
    obtain ⟨k, w⟩ := c
    rcases Nat.lt_trichotomy key k with h | h | h
    · simp [Store.insert, h, Store.find]
    · simp [Store.insert, h, Store.find]
    · simp [Store.insert, show ¬ key < k by omega, show ¬ key = k by omega, Store.find, show ¬ k = key by omega, ih]

theorem Store.find_insert_ne {key j : Nat} (h : j ≠ key) (v : α) (l : List (Nat × α)) :
    Store.find j (Store.insert key v l) = Store.find j l := by
  induction l with
  | nil => simp [Store.insert, Store.find, Ne.symm h]
  | cons c rest ih =>
    obtain ⟨k, w⟩ := c
    rcases Nat.lt_trichotomy key k with g | g | g
    · simp [Store.insert, g, Store.find, Ne.symm h]
    · subst g; simp [Store.insert, Store.find, Ne.symm h]
    · simp [Store.insert, show ¬ key < k by omega, show ¬ key = k by omega, Store.find, ih]

@[simp] theorem Store.find_erase_self (key : Nat) (l : List (Nat × α)) : Store.find key (Store.erase key l) = none := by
  induction l with
  | nil => rfl
  | cons c rest ih =>
    obtain ⟨k, w⟩ := c
    by_cases h : k = key
    · simp [Store.erase, h, ih]
    · simp [Store.erase, h, Store.find, ih]

theorem Store.find_erase_ne {key j : Nat} (h : j ≠ key) (l : List (Nat × α)) :
    Store.find j (Store.erase key l) = Store.find j l := by
  induction l with
  | nil => rfl
  | cons c rest ih =>
    obtain ⟨k, w⟩ := c
    by_cases g : k = key
    · subst g; simp [Store.erase, Store.find, ih, Ne.symm h]
    · simp [Store.erase, g, Store.find, ih]

/-- A key reads the value written to it. -/
@[simp] theorem Store.get_set_self [Inhabited α] [DecidableEq α] (m : Store α) (key : Nat) (v : α) :
    (m.set key v).get key = v := by
  by_cases h : v = default <;> simp [Store.set, Store.get, h]

/-- Other keys read as before. -/
theorem Store.get_set_ne [Inhabited α] [DecidableEq α] (m : Store α) {key j : Nat} (h : j ≠ key) (v : α) :
    (m.set key v).get j = m.get j := by
  by_cases g : v = default <;> simp [Store.set, Store.get, g, Store.find_insert_ne h, Store.find_erase_ne h]

theorem Store.get_set [Inhabited α] [DecidableEq α] (m : Store α) (key j : Nat) (v : α) :
    (m.set key v).get j = if j = key then v else m.get j := by
  by_cases h : j = key
  · subst h; simp
  · simp [h, Store.get_set_ne m h]

@[simp] theorem Store.get_empty [Inhabited α] (key : Nat) : ({} : Store α).get key = default := rfl

/-! ### The canonical form -/

theorem Store.rising_mono {l : List (Nat × α)} {lo hi : Nat} (h : Store.rising (some hi) l = true) (g : lo ≤ hi) :
    Store.rising (some lo) l = true := by
  cases l with
  | nil => rfl
  | cons c rest =>
    simp only [Store.rising, Bool.and_eq_true, decide_eq_true_eq] at h ⊢
    exact ⟨by omega, h.2⟩

theorem Store.rising_none {l : List (Nat × α)} {lo : Option Nat} (h : Store.rising lo l = true) :
    Store.rising none l = true := by
  cases l with
  | nil => rfl
  | cons c rest =>
    simp only [Store.rising, Bool.and_eq_true, Bool.true_and] at h ⊢
    exact h.2

/-- A bound below a key holds of the list that an insertion gives. -/
theorem Store.rising_insert {l : List (Nat × α)} {lo : Option Nat} {key : Nat} (v : α) (hk : ∀ n, lo = some n → n < key)
    (h : Store.rising lo l = true) : Store.rising lo (Store.insert key v l) = true := by
  induction l generalizing lo with
  | nil => cases lo <;> simp_all [Store.insert, Store.rising]
  | cons c rest ih =>
    obtain ⟨k, w⟩ := c
    have hlo : (match (generalizing := false) lo with | none => true | some n => decide (n < key)) = true := by cases lo <;> simp_all
    simp only [Store.rising, Bool.and_eq_true] at h
    rcases Nat.lt_trichotomy key k with g | g | g
    · simp only [Store.insert, g, if_true, Store.rising, Bool.and_eq_true]
      exact ⟨hlo, by simp, h.2⟩
    · subst g
      simp only [Store.insert, Nat.lt_irrefl, if_false, if_true, Store.rising, Bool.and_eq_true]
      exact h
    · simp only [Store.insert, show ¬ key < k by omega, show ¬ key = k by omega, if_false, Store.rising, Bool.and_eq_true]
      exact ⟨h.1, ih (by rintro n ⟨⟩; exact g) h.2⟩

theorem Store.rising_erase {l : List (Nat × α)} {lo : Option Nat} {key : Nat} (h : Store.rising lo l = true) :
    Store.rising lo (Store.erase key l) = true := by
  induction l generalizing lo with
  | nil => rfl
  | cons c rest ih =>
    obtain ⟨k, w⟩ := c
    simp only [Store.rising, Bool.and_eq_true] at h
    by_cases g : k = key
    · simp only [Store.erase, g, if_true]
      cases lo with
      | none => exact ih (Store.rising_none h.2)
      | some n => exact ih (Store.rising_mono h.2 (by have := h.1; simp at this; omega))
    · simp only [Store.erase, g, if_false, Store.rising, Bool.and_eq_true]
      exact ⟨h.1, ih h.2⟩

theorem Store.all_insert {l : List (Nat × α)} {key : Nat} {v : α} {p : Nat × α → Bool} (hv : p (key, v) = true)
    (h : l.all p = true) : (Store.insert key v l).all p = true := by
  induction l with
  | nil => simp [Store.insert, hv]
  | cons c rest ih =>
    obtain ⟨k, w⟩ := c
    simp only [List.all_cons, Bool.and_eq_true] at h
    rcases Nat.lt_trichotomy key k with g | g | g
    · simp [Store.insert, g, hv, h]
    · subst g; simp [Store.insert, hv, h]
    · simp [Store.insert, show ¬ key < k by omega, show ¬ key = k by omega, h.1, ih h.2]

theorem Store.all_erase {l : List (Nat × α)} {key : Nat} {p : Nat × α → Bool} (h : l.all p = true) :
    (Store.erase key l).all p = true := by
  induction l with
  | nil => rfl
  | cons c rest ih =>
    obtain ⟨k, w⟩ := c
    simp only [List.all_cons, Bool.and_eq_true] at h
    by_cases g : k = key
    · simp [Store.erase, g, ih h.2]
    · simp [Store.erase, g, h.1, ih h.2]

/-- Writing a key keeps the canonical form. -/
theorem Store.wf_set [Inhabited α] [DecidableEq α] {m : Store α} (h : m.wf = true) (key : Nat) (v : α) :
    (m.set key v).wf = true := by
  simp only [Store.wf, Bool.and_eq_true] at h ⊢
  by_cases g : v = default
  · simp only [Store.set, g, if_true]
    exact ⟨Store.rising_erase h.1, Store.all_erase h.2⟩
  · simp only [Store.set, g, if_false]
    exact ⟨Store.rising_insert v (by simp) h.1, Store.all_insert (by simpa using g) h.2⟩

theorem Store.rising_filter {l : List (Nat × α)} {lo : Option Nat} (p : Nat × α → Bool) (h : Store.rising lo l = true) :
    Store.rising lo (l.filter p) = true := by
  induction l generalizing lo with
  | nil => rfl
  | cons c rest ih =>
    obtain ⟨k, w⟩ := c
    simp only [Store.rising, Bool.and_eq_true] at h
    by_cases g : p (k, w) = true
    · simp only [List.filter_cons_of_pos g, Store.rising, Bool.and_eq_true]
      exact ⟨h.1, ih h.2⟩
    · rw [List.filter_cons_of_neg g]
      cases lo with
      | none => exact ih (Store.rising_none h.2)
      | some n => exact ih (Store.rising_mono h.2 (by have := h.1; simp at this; omega))

/-- Leaving entries out keeps the canonical form. -/
theorem Store.wf_filter [Inhabited α] [DecidableEq α] {l : List (Nat × α)} (p : Nat × α → Bool)
    (h : (⟨l⟩ : Store α).wf = true) : (⟨l.filter p⟩ : Store α).wf = true := by
  simp only [Store.wf, Bool.and_eq_true] at h ⊢
  refine ⟨Store.rising_filter p h.1, ?_⟩
  rw [List.all_eq_true] at h ⊢
  exact fun c hc => h.2 c (List.mem_of_mem_filter hc)

namespace Machine

/-! ### Memory -/

theorem Memory.wf_empty : Memory.wf [] = true := rfl
theorem Memory.wf_reset : Memory.wf State.reset.mem = true := rfl

/-- Writing a byte keeps the canonical form. -/
theorem Memory.wf_putByte {s : State} (h : Memory.wf s.mem = true) (k : Nat) (b : Byte) :
    Memory.wf (s.putByte k b).mem = true := Store.wf_set (m := ⟨s.mem⟩) h k b

theorem Memory.wf_filter {m : List Host.Cell} (p : Host.Cell → Bool) (h : Memory.wf m = true) :
    Memory.wf (m.filter p) = true := Store.wf_filter p h

/-- A byte reads as it was written. -/
@[simp] theorem State.byteAt_putByte_self (s : State) (k : Nat) (b : Byte) : (s.putByte k b).byteAt k = b :=
  Store.get_set_self (⟨s.mem⟩ : Store Byte) k b

/-- Other bytes read as before. -/
theorem State.byteAt_putByte_ne (s : State) {k j : Nat} (h : j ≠ k) (b : Byte) : (s.putByte k b).byteAt j = s.byteAt j :=
  Store.get_set_ne (⟨s.mem⟩ : Store Byte) h b

end Machine
end Sys2Proof
end

