-- ==== Sys2Proof/Laws/State.lean ====
section
/-!
SUPPORT. Field by field, what the updates of the state leave as it was, and what they make of the part they change.
-/
namespace Sys2Proof.Machine

@[simp] theorem State.setDie_mem (s : State) (d : Nat) (x : Die) : (s.setDie d x).mem = s.mem := rfl
@[simp] theorem State.setDie_memPoison (s : State) (d : Nat) (x : Die) : (s.setDie d x).memPoison = s.memPoison := rfl
@[simp] theorem State.setDie_sheaves (s : State) (d : Nat) (x : Die) : (s.setDie d x).sheaves = s.sheaves := rfl
@[simp] theorem State.setDie_cores (s : State) (d : Nat) (x : Die) : (s.setDie d x).cores = s.cores := rfl
@[simp] theorem State.setDie_entries (s : State) (d : Nat) (x : Die) : (s.setDie d x).entries = s.entries := rfl
@[simp] theorem State.setDie_units (s : State) (d : Nat) (x : Die) : (s.setDie d x).units = s.units := rfl
@[simp] theorem State.setDie_launches (s : State) (d : Nat) (x : Die) : (s.setDie d x).launches = s.launches := rfl
@[simp] theorem State.setDie_nodes (s : State) (d : Nat) (x : Die) : (s.setDie d x).nodes = s.nodes := rfl
@[simp] theorem State.setDie_phases (s : State) (d : Nat) (x : Die) : (s.setDie d x).phases = s.phases := rfl
@[simp] theorem State.setDie_jobs (s : State) (d : Nat) (x : Die) : (s.setDie d x).jobs = s.jobs := rfl
@[simp] theorem State.setDie_listed (s : State) (d : Nat) (x : Die) : (s.setDie d x).listed = s.listed := rfl
@[simp] theorem State.setDie_spawns (s : State) (d : Nat) (x : Die) : (s.setDie d x).spawns = s.spawns := rfl
@[simp] theorem State.setDie_contexts (s : State) (d : Nat) (x : Die) : (s.setDie d x).contexts = s.contexts := rfl
@[simp] theorem State.setDie_tlbs (s : State) (d : Nat) (x : Die) : (s.setDie d x).tlbs = s.tlbs := rfl
@[simp] theorem State.setDie_misses (s : State) (d : Nat) (x : Die) : (s.setDie d x).misses = s.misses := rfl
@[simp] theorem State.setDie_census (s : State) (d : Nat) (x : Die) : (s.setDie d x).census = s.census := rfl
@[simp] theorem State.setDie_ticks (s : State) (d : Nat) (x : Die) : (s.setDie d x).ticks = s.ticks := rfl
@[simp] theorem State.setDie_regs (s : State) (d : Nat) (x : Die) : (s.setDie d x).regs = s.regs := rfl
@[simp] theorem State.setDie_fresh (s : State) (d : Nat) (x : Die) : (s.setDie d x).fresh = s.fresh := rfl
@[simp] theorem State.setDie_free (s : State) (d : Nat) (x : Die) : (s.setDie d x).free = s.free := rfl
@[simp] theorem State.setDie_agenda (s : State) (d : Nat) (x : Die) : (s.setDie d x).agenda = s.agenda := rfl
@[simp] theorem State.setDie_latch (s : State) (d : Nat) (x : Die) : (s.setDie d x).latch = s.latch := rfl
@[simp] theorem State.setDie_cur (s : State) (d : Nat) (x : Die) : (s.setDie d x).cur = s.cur := rfl
@[simp] theorem State.setDie_checks (s : State) (d : Nat) (x : Die) : (s.setDie d x).checks = s.checks := rfl
@[simp] theorem State.setDie_channels (s : State) (d : Nat) (x : Die) : (s.setDie d x).channels = s.channels := rfl
@[simp] theorem State.setDie_hdmBias (s : State) (d : Nat) (x : Die) : (s.setDie d x).hdmBias = s.hdmBias := rfl
@[simp] theorem State.setDie_built (s : State) (d : Nat) (x : Die) : (s.setDie d x).built = s.built := rfl
@[simp] theorem State.setDie_coreMask (s : State) (d : Nat) (x : Die) : (s.setDie d x).coreMask = s.coreMask := rfl

@[simp] theorem State.setCore_mem (s : State) (c : Nat) (x : Core) : (s.setCore c x).mem = s.mem := rfl
@[simp] theorem State.setCore_memPoison (s : State) (c : Nat) (x : Core) : (s.setCore c x).memPoison = s.memPoison := rfl
@[simp] theorem State.setCore_sheaves (s : State) (c : Nat) (x : Core) : (s.setCore c x).sheaves = s.sheaves := rfl
@[simp] theorem State.setCore_entries (s : State) (c : Nat) (x : Core) : (s.setCore c x).entries = s.entries := rfl
@[simp] theorem State.setCore_units (s : State) (c : Nat) (x : Core) : (s.setCore c x).units = s.units := rfl
@[simp] theorem State.setCore_launches (s : State) (c : Nat) (x : Core) : (s.setCore c x).launches = s.launches := rfl
@[simp] theorem State.setCore_nodes (s : State) (c : Nat) (x : Core) : (s.setCore c x).nodes = s.nodes := rfl
@[simp] theorem State.setCore_phases (s : State) (c : Nat) (x : Core) : (s.setCore c x).phases = s.phases := rfl
@[simp] theorem State.setCore_jobs (s : State) (c : Nat) (x : Core) : (s.setCore c x).jobs = s.jobs := rfl
@[simp] theorem State.setCore_listed (s : State) (c : Nat) (x : Core) : (s.setCore c x).listed = s.listed := rfl
@[simp] theorem State.setCore_spawns (s : State) (c : Nat) (x : Core) : (s.setCore c x).spawns = s.spawns := rfl
@[simp] theorem State.setCore_contexts (s : State) (c : Nat) (x : Core) : (s.setCore c x).contexts = s.contexts := rfl
@[simp] theorem State.setCore_tlbs (s : State) (c : Nat) (x : Core) : (s.setCore c x).tlbs = s.tlbs := rfl
@[simp] theorem State.setCore_misses (s : State) (c : Nat) (x : Core) : (s.setCore c x).misses = s.misses := rfl
@[simp] theorem State.setCore_census (s : State) (c : Nat) (x : Core) : (s.setCore c x).census = s.census := rfl
@[simp] theorem State.setCore_dies (s : State) (c : Nat) (x : Core) : (s.setCore c x).dies = s.dies := rfl
@[simp] theorem State.setCore_ticks (s : State) (c : Nat) (x : Core) : (s.setCore c x).ticks = s.ticks := rfl
@[simp] theorem State.setCore_regs (s : State) (c : Nat) (x : Core) : (s.setCore c x).regs = s.regs := rfl
@[simp] theorem State.setCore_fresh (s : State) (c : Nat) (x : Core) : (s.setCore c x).fresh = s.fresh := rfl
@[simp] theorem State.setCore_free (s : State) (c : Nat) (x : Core) : (s.setCore c x).free = s.free := rfl
@[simp] theorem State.setCore_agenda (s : State) (c : Nat) (x : Core) : (s.setCore c x).agenda = s.agenda := rfl
@[simp] theorem State.setCore_latch (s : State) (c : Nat) (x : Core) : (s.setCore c x).latch = s.latch := rfl
@[simp] theorem State.setCore_cur (s : State) (c : Nat) (x : Core) : (s.setCore c x).cur = s.cur := rfl
@[simp] theorem State.setCore_checks (s : State) (c : Nat) (x : Core) : (s.setCore c x).checks = s.checks := rfl
@[simp] theorem State.setCore_channels (s : State) (c : Nat) (x : Core) : (s.setCore c x).channels = s.channels := rfl
@[simp] theorem State.setCore_hdmBias (s : State) (c : Nat) (x : Core) : (s.setCore c x).hdmBias = s.hdmBias := rfl
@[simp] theorem State.setCore_built (s : State) (c : Nat) (x : Core) : (s.setCore c x).built = s.built := rfl
@[simp] theorem State.setCore_coreMask (s : State) (c : Nat) (x : Core) : (s.setCore c x).coreMask = s.coreMask := rfl

@[simp] theorem State.updCore_mem (s : State) (c : Nat) (g : Core → Core) : (s.updCore c g).mem = s.mem := rfl
@[simp] theorem State.updCore_memPoison (s : State) (c : Nat) (g : Core → Core) : (s.updCore c g).memPoison = s.memPoison := rfl
@[simp] theorem State.updCore_entries (s : State) (c : Nat) (g : Core → Core) : (s.updCore c g).entries = s.entries := rfl
@[simp] theorem State.updCore_units (s : State) (c : Nat) (g : Core → Core) : (s.updCore c g).units = s.units := rfl
@[simp] theorem State.updCore_launches (s : State) (c : Nat) (g : Core → Core) : (s.updCore c g).launches = s.launches := rfl
@[simp] theorem State.updCore_nodes (s : State) (c : Nat) (g : Core → Core) : (s.updCore c g).nodes = s.nodes := rfl
@[simp] theorem State.updCore_phases (s : State) (c : Nat) (g : Core → Core) : (s.updCore c g).phases = s.phases := rfl
@[simp] theorem State.updCore_jobs (s : State) (c : Nat) (g : Core → Core) : (s.updCore c g).jobs = s.jobs := rfl
@[simp] theorem State.updCore_listed (s : State) (c : Nat) (g : Core → Core) : (s.updCore c g).listed = s.listed := rfl
@[simp] theorem State.updCore_spawns (s : State) (c : Nat) (g : Core → Core) : (s.updCore c g).spawns = s.spawns := rfl
@[simp] theorem State.updCore_contexts (s : State) (c : Nat) (g : Core → Core) : (s.updCore c g).contexts = s.contexts := rfl
@[simp] theorem State.updCore_tlbs (s : State) (c : Nat) (g : Core → Core) : (s.updCore c g).tlbs = s.tlbs := rfl
@[simp] theorem State.updCore_misses (s : State) (c : Nat) (g : Core → Core) : (s.updCore c g).misses = s.misses := rfl
@[simp] theorem State.updCore_census (s : State) (c : Nat) (g : Core → Core) : (s.updCore c g).census = s.census := rfl
@[simp] theorem State.updCore_dies (s : State) (c : Nat) (g : Core → Core) : (s.updCore c g).dies = s.dies := rfl
@[simp] theorem State.updCore_ticks (s : State) (c : Nat) (g : Core → Core) : (s.updCore c g).ticks = s.ticks := rfl
@[simp] theorem State.updCore_regs (s : State) (c : Nat) (g : Core → Core) : (s.updCore c g).regs = s.regs := rfl
@[simp] theorem State.updCore_fresh (s : State) (c : Nat) (g : Core → Core) : (s.updCore c g).fresh = s.fresh := rfl
@[simp] theorem State.updCore_free (s : State) (c : Nat) (g : Core → Core) : (s.updCore c g).free = s.free := rfl
@[simp] theorem State.updCore_agenda (s : State) (c : Nat) (g : Core → Core) : (s.updCore c g).agenda = s.agenda := rfl
@[simp] theorem State.updCore_latch (s : State) (c : Nat) (g : Core → Core) : (s.updCore c g).latch = s.latch := rfl
@[simp] theorem State.updCore_cur (s : State) (c : Nat) (g : Core → Core) : (s.updCore c g).cur = s.cur := rfl
@[simp] theorem State.updCore_checks (s : State) (c : Nat) (g : Core → Core) : (s.updCore c g).checks = s.checks := rfl
@[simp] theorem State.updCore_channels (s : State) (c : Nat) (g : Core → Core) : (s.updCore c g).channels = s.channels := rfl
@[simp] theorem State.updCore_hdmBias (s : State) (c : Nat) (g : Core → Core) : (s.updCore c g).hdmBias = s.hdmBias := rfl
@[simp] theorem State.updCore_built (s : State) (c : Nat) (g : Core → Core) : (s.updCore c g).built = s.built := rfl
@[simp] theorem State.updCore_coreMask (s : State) (c : Nat) (g : Core → Core) : (s.updCore c g).coreMask = s.coreMask := rfl

@[simp] theorem State.setSheaf_mem (s : State) (id : Nat) (f : Sheaf) : (s.setSheaf id f).mem = s.mem := rfl
@[simp] theorem State.setSheaf_memPoison (s : State) (id : Nat) (f : Sheaf) : (s.setSheaf id f).memPoison = s.memPoison := rfl
@[simp] theorem State.setSheaf_cores (s : State) (id : Nat) (f : Sheaf) : (s.setSheaf id f).cores = s.cores := rfl
@[simp] theorem State.setSheaf_entries (s : State) (id : Nat) (f : Sheaf) : (s.setSheaf id f).entries = s.entries := rfl
@[simp] theorem State.setSheaf_units (s : State) (id : Nat) (f : Sheaf) : (s.setSheaf id f).units = s.units := rfl
@[simp] theorem State.setSheaf_launches (s : State) (id : Nat) (f : Sheaf) : (s.setSheaf id f).launches = s.launches := rfl
@[simp] theorem State.setSheaf_nodes (s : State) (id : Nat) (f : Sheaf) : (s.setSheaf id f).nodes = s.nodes := rfl
@[simp] theorem State.setSheaf_phases (s : State) (id : Nat) (f : Sheaf) : (s.setSheaf id f).phases = s.phases := rfl
@[simp] theorem State.setSheaf_jobs (s : State) (id : Nat) (f : Sheaf) : (s.setSheaf id f).jobs = s.jobs := rfl
@[simp] theorem State.setSheaf_listed (s : State) (id : Nat) (f : Sheaf) : (s.setSheaf id f).listed = s.listed := rfl
@[simp] theorem State.setSheaf_spawns (s : State) (id : Nat) (f : Sheaf) : (s.setSheaf id f).spawns = s.spawns := rfl
@[simp] theorem State.setSheaf_contexts (s : State) (id : Nat) (f : Sheaf) : (s.setSheaf id f).contexts = s.contexts := rfl
@[simp] theorem State.setSheaf_tlbs (s : State) (id : Nat) (f : Sheaf) : (s.setSheaf id f).tlbs = s.tlbs := rfl
@[simp] theorem State.setSheaf_misses (s : State) (id : Nat) (f : Sheaf) : (s.setSheaf id f).misses = s.misses := rfl
@[simp] theorem State.setSheaf_census (s : State) (id : Nat) (f : Sheaf) : (s.setSheaf id f).census = s.census := rfl
@[simp] theorem State.setSheaf_dies (s : State) (id : Nat) (f : Sheaf) : (s.setSheaf id f).dies = s.dies := rfl
@[simp] theorem State.setSheaf_ticks (s : State) (id : Nat) (f : Sheaf) : (s.setSheaf id f).ticks = s.ticks := rfl
@[simp] theorem State.setSheaf_regs (s : State) (id : Nat) (f : Sheaf) : (s.setSheaf id f).regs = s.regs := rfl
@[simp] theorem State.setSheaf_fresh (s : State) (id : Nat) (f : Sheaf) : (s.setSheaf id f).fresh = s.fresh := rfl
@[simp] theorem State.setSheaf_free (s : State) (id : Nat) (f : Sheaf) : (s.setSheaf id f).free = s.free := rfl
@[simp] theorem State.setSheaf_agenda (s : State) (id : Nat) (f : Sheaf) : (s.setSheaf id f).agenda = s.agenda := rfl
@[simp] theorem State.setSheaf_latch (s : State) (id : Nat) (f : Sheaf) : (s.setSheaf id f).latch = s.latch := rfl
@[simp] theorem State.setSheaf_cur (s : State) (id : Nat) (f : Sheaf) : (s.setSheaf id f).cur = s.cur := rfl
@[simp] theorem State.setSheaf_checks (s : State) (id : Nat) (f : Sheaf) : (s.setSheaf id f).checks = s.checks := rfl
@[simp] theorem State.setSheaf_channels (s : State) (id : Nat) (f : Sheaf) : (s.setSheaf id f).channels = s.channels := rfl
@[simp] theorem State.setSheaf_hdmBias (s : State) (id : Nat) (f : Sheaf) : (s.setSheaf id f).hdmBias = s.hdmBias := rfl
@[simp] theorem State.setSheaf_built (s : State) (id : Nat) (f : Sheaf) : (s.setSheaf id f).built = s.built := rfl
@[simp] theorem State.setSheaf_coreMask (s : State) (id : Nat) (f : Sheaf) : (s.setSheaf id f).coreMask = s.coreMask := rfl

@[simp] theorem State.setUnit_mem (s : State) (u : Nat) (x : UnitSt) : (s.setUnit u x).mem = s.mem := rfl
@[simp] theorem State.setUnit_memPoison (s : State) (u : Nat) (x : UnitSt) : (s.setUnit u x).memPoison = s.memPoison := rfl
@[simp] theorem State.setUnit_sheaves (s : State) (u : Nat) (x : UnitSt) : (s.setUnit u x).sheaves = s.sheaves := rfl
@[simp] theorem State.setUnit_cores (s : State) (u : Nat) (x : UnitSt) : (s.setUnit u x).cores = s.cores := rfl
@[simp] theorem State.setUnit_entries (s : State) (u : Nat) (x : UnitSt) : (s.setUnit u x).entries = s.entries := rfl
@[simp] theorem State.setUnit_launches (s : State) (u : Nat) (x : UnitSt) : (s.setUnit u x).launches = s.launches := rfl
@[simp] theorem State.setUnit_nodes (s : State) (u : Nat) (x : UnitSt) : (s.setUnit u x).nodes = s.nodes := rfl
@[simp] theorem State.setUnit_phases (s : State) (u : Nat) (x : UnitSt) : (s.setUnit u x).phases = s.phases := rfl
@[simp] theorem State.setUnit_jobs (s : State) (u : Nat) (x : UnitSt) : (s.setUnit u x).jobs = s.jobs := rfl
@[simp] theorem State.setUnit_listed (s : State) (u : Nat) (x : UnitSt) : (s.setUnit u x).listed = s.listed := rfl
@[simp] theorem State.setUnit_spawns (s : State) (u : Nat) (x : UnitSt) : (s.setUnit u x).spawns = s.spawns := rfl
@[simp] theorem State.setUnit_contexts (s : State) (u : Nat) (x : UnitSt) : (s.setUnit u x).contexts = s.contexts := rfl
@[simp] theorem State.setUnit_tlbs (s : State) (u : Nat) (x : UnitSt) : (s.setUnit u x).tlbs = s.tlbs := rfl
@[simp] theorem State.setUnit_misses (s : State) (u : Nat) (x : UnitSt) : (s.setUnit u x).misses = s.misses := rfl
@[simp] theorem State.setUnit_census (s : State) (u : Nat) (x : UnitSt) : (s.setUnit u x).census = s.census := rfl
@[simp] theorem State.setUnit_dies (s : State) (u : Nat) (x : UnitSt) : (s.setUnit u x).dies = s.dies := rfl
@[simp] theorem State.setUnit_ticks (s : State) (u : Nat) (x : UnitSt) : (s.setUnit u x).ticks = s.ticks := rfl
@[simp] theorem State.setUnit_regs (s : State) (u : Nat) (x : UnitSt) : (s.setUnit u x).regs = s.regs := rfl
@[simp] theorem State.setUnit_fresh (s : State) (u : Nat) (x : UnitSt) : (s.setUnit u x).fresh = s.fresh := rfl
@[simp] theorem State.setUnit_free (s : State) (u : Nat) (x : UnitSt) : (s.setUnit u x).free = s.free := rfl
@[simp] theorem State.setUnit_agenda (s : State) (u : Nat) (x : UnitSt) : (s.setUnit u x).agenda = s.agenda := rfl
@[simp] theorem State.setUnit_latch (s : State) (u : Nat) (x : UnitSt) : (s.setUnit u x).latch = s.latch := rfl
@[simp] theorem State.setUnit_cur (s : State) (u : Nat) (x : UnitSt) : (s.setUnit u x).cur = s.cur := rfl
@[simp] theorem State.setUnit_checks (s : State) (u : Nat) (x : UnitSt) : (s.setUnit u x).checks = s.checks := rfl
@[simp] theorem State.setUnit_channels (s : State) (u : Nat) (x : UnitSt) : (s.setUnit u x).channels = s.channels := rfl
@[simp] theorem State.setUnit_hdmBias (s : State) (u : Nat) (x : UnitSt) : (s.setUnit u x).hdmBias = s.hdmBias := rfl
@[simp] theorem State.setUnit_built (s : State) (u : Nat) (x : UnitSt) : (s.setUnit u x).built = s.built := rfl
@[simp] theorem State.setUnit_coreMask (s : State) (u : Nat) (x : UnitSt) : (s.setUnit u x).coreMask = s.coreMask := rfl

@[simp] theorem State.setLaunch_mem (s : State) (l : Nat) (x : LaunchSt) : (s.setLaunch l x).mem = s.mem := rfl
@[simp] theorem State.setLaunch_memPoison (s : State) (l : Nat) (x : LaunchSt) : (s.setLaunch l x).memPoison = s.memPoison := rfl
@[simp] theorem State.setLaunch_sheaves (s : State) (l : Nat) (x : LaunchSt) : (s.setLaunch l x).sheaves = s.sheaves := rfl
@[simp] theorem State.setLaunch_cores (s : State) (l : Nat) (x : LaunchSt) : (s.setLaunch l x).cores = s.cores := rfl
@[simp] theorem State.setLaunch_entries (s : State) (l : Nat) (x : LaunchSt) : (s.setLaunch l x).entries = s.entries := rfl
@[simp] theorem State.setLaunch_units (s : State) (l : Nat) (x : LaunchSt) : (s.setLaunch l x).units = s.units := rfl
@[simp] theorem State.setLaunch_nodes (s : State) (l : Nat) (x : LaunchSt) : (s.setLaunch l x).nodes = s.nodes := rfl
@[simp] theorem State.setLaunch_phases (s : State) (l : Nat) (x : LaunchSt) : (s.setLaunch l x).phases = s.phases := rfl
@[simp] theorem State.setLaunch_jobs (s : State) (l : Nat) (x : LaunchSt) : (s.setLaunch l x).jobs = s.jobs := rfl
@[simp] theorem State.setLaunch_listed (s : State) (l : Nat) (x : LaunchSt) : (s.setLaunch l x).listed = s.listed := rfl
@[simp] theorem State.setLaunch_spawns (s : State) (l : Nat) (x : LaunchSt) : (s.setLaunch l x).spawns = s.spawns := rfl
@[simp] theorem State.setLaunch_contexts (s : State) (l : Nat) (x : LaunchSt) : (s.setLaunch l x).contexts = s.contexts := rfl
@[simp] theorem State.setLaunch_tlbs (s : State) (l : Nat) (x : LaunchSt) : (s.setLaunch l x).tlbs = s.tlbs := rfl
@[simp] theorem State.setLaunch_misses (s : State) (l : Nat) (x : LaunchSt) : (s.setLaunch l x).misses = s.misses := rfl
@[simp] theorem State.setLaunch_census (s : State) (l : Nat) (x : LaunchSt) : (s.setLaunch l x).census = s.census := rfl
@[simp] theorem State.setLaunch_dies (s : State) (l : Nat) (x : LaunchSt) : (s.setLaunch l x).dies = s.dies := rfl
@[simp] theorem State.setLaunch_ticks (s : State) (l : Nat) (x : LaunchSt) : (s.setLaunch l x).ticks = s.ticks := rfl
@[simp] theorem State.setLaunch_regs (s : State) (l : Nat) (x : LaunchSt) : (s.setLaunch l x).regs = s.regs := rfl
@[simp] theorem State.setLaunch_fresh (s : State) (l : Nat) (x : LaunchSt) : (s.setLaunch l x).fresh = s.fresh := rfl
@[simp] theorem State.setLaunch_free (s : State) (l : Nat) (x : LaunchSt) : (s.setLaunch l x).free = s.free := rfl
@[simp] theorem State.setLaunch_agenda (s : State) (l : Nat) (x : LaunchSt) : (s.setLaunch l x).agenda = s.agenda := rfl
@[simp] theorem State.setLaunch_latch (s : State) (l : Nat) (x : LaunchSt) : (s.setLaunch l x).latch = s.latch := rfl
@[simp] theorem State.setLaunch_cur (s : State) (l : Nat) (x : LaunchSt) : (s.setLaunch l x).cur = s.cur := rfl
@[simp] theorem State.setLaunch_checks (s : State) (l : Nat) (x : LaunchSt) : (s.setLaunch l x).checks = s.checks := rfl
@[simp] theorem State.setLaunch_channels (s : State) (l : Nat) (x : LaunchSt) : (s.setLaunch l x).channels = s.channels := rfl
@[simp] theorem State.setLaunch_hdmBias (s : State) (l : Nat) (x : LaunchSt) : (s.setLaunch l x).hdmBias = s.hdmBias := rfl
@[simp] theorem State.setLaunch_built (s : State) (l : Nat) (x : LaunchSt) : (s.setLaunch l x).built = s.built := rfl
@[simp] theorem State.setLaunch_coreMask (s : State) (l : Nat) (x : LaunchSt) : (s.setLaunch l x).coreMask = s.coreMask := rfl

@[simp] theorem State.putByte_memPoison (s : State) (k : Nat) (b : Byte) : (s.putByte k b).memPoison = s.memPoison := rfl
@[simp] theorem State.putByte_cores (s : State) (k : Nat) (b : Byte) : (s.putByte k b).cores = s.cores := rfl
@[simp] theorem State.putByte_entries (s : State) (k : Nat) (b : Byte) : (s.putByte k b).entries = s.entries := rfl
@[simp] theorem State.putByte_units (s : State) (k : Nat) (b : Byte) : (s.putByte k b).units = s.units := rfl
@[simp] theorem State.putByte_launches (s : State) (k : Nat) (b : Byte) : (s.putByte k b).launches = s.launches := rfl
@[simp] theorem State.putByte_nodes (s : State) (k : Nat) (b : Byte) : (s.putByte k b).nodes = s.nodes := rfl
@[simp] theorem State.putByte_phases (s : State) (k : Nat) (b : Byte) : (s.putByte k b).phases = s.phases := rfl
@[simp] theorem State.putByte_jobs (s : State) (k : Nat) (b : Byte) : (s.putByte k b).jobs = s.jobs := rfl
@[simp] theorem State.putByte_listed (s : State) (k : Nat) (b : Byte) : (s.putByte k b).listed = s.listed := rfl
@[simp] theorem State.putByte_spawns (s : State) (k : Nat) (b : Byte) : (s.putByte k b).spawns = s.spawns := rfl
@[simp] theorem State.putByte_contexts (s : State) (k : Nat) (b : Byte) : (s.putByte k b).contexts = s.contexts := rfl
@[simp] theorem State.putByte_tlbs (s : State) (k : Nat) (b : Byte) : (s.putByte k b).tlbs = s.tlbs := rfl
@[simp] theorem State.putByte_misses (s : State) (k : Nat) (b : Byte) : (s.putByte k b).misses = s.misses := rfl
@[simp] theorem State.putByte_census (s : State) (k : Nat) (b : Byte) : (s.putByte k b).census = s.census := rfl
@[simp] theorem State.putByte_dies (s : State) (k : Nat) (b : Byte) : (s.putByte k b).dies = s.dies := rfl
@[simp] theorem State.putByte_ticks (s : State) (k : Nat) (b : Byte) : (s.putByte k b).ticks = s.ticks := rfl
@[simp] theorem State.putByte_regs (s : State) (k : Nat) (b : Byte) : (s.putByte k b).regs = s.regs := rfl
@[simp] theorem State.putByte_fresh (s : State) (k : Nat) (b : Byte) : (s.putByte k b).fresh = s.fresh := rfl
@[simp] theorem State.putByte_free (s : State) (k : Nat) (b : Byte) : (s.putByte k b).free = s.free := rfl
@[simp] theorem State.putByte_agenda (s : State) (k : Nat) (b : Byte) : (s.putByte k b).agenda = s.agenda := rfl
@[simp] theorem State.putByte_latch (s : State) (k : Nat) (b : Byte) : (s.putByte k b).latch = s.latch := rfl
@[simp] theorem State.putByte_cur (s : State) (k : Nat) (b : Byte) : (s.putByte k b).cur = s.cur := rfl
@[simp] theorem State.putByte_checks (s : State) (k : Nat) (b : Byte) : (s.putByte k b).checks = s.checks := rfl
@[simp] theorem State.putByte_channels (s : State) (k : Nat) (b : Byte) : (s.putByte k b).channels = s.channels := rfl
@[simp] theorem State.putByte_hdmBias (s : State) (k : Nat) (b : Byte) : (s.putByte k b).hdmBias = s.hdmBias := rfl
@[simp] theorem State.putByte_built (s : State) (k : Nat) (b : Byte) : (s.putByte k b).built = s.built := rfl
@[simp] theorem State.putByte_coreMask (s : State) (k : Nat) (b : Byte) : (s.putByte k b).coreMask = s.coreMask := rfl

@[simp] theorem State.setPoison_mem (s : State) (k : Nat) (p : Bool) : (s.setPoison k p).mem = s.mem := rfl
@[simp] theorem State.setPoison_cores (s : State) (k : Nat) (p : Bool) : (s.setPoison k p).cores = s.cores := rfl
@[simp] theorem State.setPoison_entries (s : State) (k : Nat) (p : Bool) : (s.setPoison k p).entries = s.entries := rfl
@[simp] theorem State.setPoison_units (s : State) (k : Nat) (p : Bool) : (s.setPoison k p).units = s.units := rfl
@[simp] theorem State.setPoison_launches (s : State) (k : Nat) (p : Bool) : (s.setPoison k p).launches = s.launches := rfl
@[simp] theorem State.setPoison_nodes (s : State) (k : Nat) (p : Bool) : (s.setPoison k p).nodes = s.nodes := rfl
@[simp] theorem State.setPoison_phases (s : State) (k : Nat) (p : Bool) : (s.setPoison k p).phases = s.phases := rfl
@[simp] theorem State.setPoison_jobs (s : State) (k : Nat) (p : Bool) : (s.setPoison k p).jobs = s.jobs := rfl
@[simp] theorem State.setPoison_listed (s : State) (k : Nat) (p : Bool) : (s.setPoison k p).listed = s.listed := rfl
@[simp] theorem State.setPoison_spawns (s : State) (k : Nat) (p : Bool) : (s.setPoison k p).spawns = s.spawns := rfl
@[simp] theorem State.setPoison_contexts (s : State) (k : Nat) (p : Bool) : (s.setPoison k p).contexts = s.contexts := rfl
@[simp] theorem State.setPoison_tlbs (s : State) (k : Nat) (p : Bool) : (s.setPoison k p).tlbs = s.tlbs := rfl
@[simp] theorem State.setPoison_misses (s : State) (k : Nat) (p : Bool) : (s.setPoison k p).misses = s.misses := rfl
@[simp] theorem State.setPoison_census (s : State) (k : Nat) (p : Bool) : (s.setPoison k p).census = s.census := rfl
@[simp] theorem State.setPoison_dies (s : State) (k : Nat) (p : Bool) : (s.setPoison k p).dies = s.dies := rfl
@[simp] theorem State.setPoison_ticks (s : State) (k : Nat) (p : Bool) : (s.setPoison k p).ticks = s.ticks := rfl
@[simp] theorem State.setPoison_regs (s : State) (k : Nat) (p : Bool) : (s.setPoison k p).regs = s.regs := rfl
@[simp] theorem State.setPoison_fresh (s : State) (k : Nat) (p : Bool) : (s.setPoison k p).fresh = s.fresh := rfl
@[simp] theorem State.setPoison_free (s : State) (k : Nat) (p : Bool) : (s.setPoison k p).free = s.free := rfl
@[simp] theorem State.setPoison_agenda (s : State) (k : Nat) (p : Bool) : (s.setPoison k p).agenda = s.agenda := rfl
@[simp] theorem State.setPoison_latch (s : State) (k : Nat) (p : Bool) : (s.setPoison k p).latch = s.latch := rfl
@[simp] theorem State.setPoison_cur (s : State) (k : Nat) (p : Bool) : (s.setPoison k p).cur = s.cur := rfl
@[simp] theorem State.setPoison_checks (s : State) (k : Nat) (p : Bool) : (s.setPoison k p).checks = s.checks := rfl
@[simp] theorem State.setPoison_channels (s : State) (k : Nat) (p : Bool) : (s.setPoison k p).channels = s.channels := rfl
@[simp] theorem State.setPoison_hdmBias (s : State) (k : Nat) (p : Bool) : (s.setPoison k p).hdmBias = s.hdmBias := rfl
@[simp] theorem State.setPoison_built (s : State) (k : Nat) (p : Bool) : (s.setPoison k p).built = s.built := rfl
@[simp] theorem State.setPoison_coreMask (s : State) (k : Nat) (p : Bool) : (s.setPoison k p).coreMask = s.coreMask := rfl

@[simp] theorem State.updEntry_mem (s : State) (id : Nat) (g : Entry → Entry) : (s.updEntry id g).mem = s.mem := rfl
@[simp] theorem State.updEntry_memPoison (s : State) (id : Nat) (g : Entry → Entry) : (s.updEntry id g).memPoison = s.memPoison := rfl
@[simp] theorem State.updEntry_sheaves (s : State) (id : Nat) (g : Entry → Entry) : (s.updEntry id g).sheaves = s.sheaves := rfl
@[simp] theorem State.updEntry_cores (s : State) (id : Nat) (g : Entry → Entry) : (s.updEntry id g).cores = s.cores := rfl
@[simp] theorem State.updEntry_units (s : State) (id : Nat) (g : Entry → Entry) : (s.updEntry id g).units = s.units := rfl
@[simp] theorem State.updEntry_launches (s : State) (id : Nat) (g : Entry → Entry) : (s.updEntry id g).launches = s.launches := rfl
@[simp] theorem State.updEntry_nodes (s : State) (id : Nat) (g : Entry → Entry) : (s.updEntry id g).nodes = s.nodes := rfl
@[simp] theorem State.updEntry_phases (s : State) (id : Nat) (g : Entry → Entry) : (s.updEntry id g).phases = s.phases := rfl
@[simp] theorem State.updEntry_jobs (s : State) (id : Nat) (g : Entry → Entry) : (s.updEntry id g).jobs = s.jobs := rfl
@[simp] theorem State.updEntry_listed (s : State) (id : Nat) (g : Entry → Entry) : (s.updEntry id g).listed = s.listed := rfl
@[simp] theorem State.updEntry_spawns (s : State) (id : Nat) (g : Entry → Entry) : (s.updEntry id g).spawns = s.spawns := rfl
@[simp] theorem State.updEntry_contexts (s : State) (id : Nat) (g : Entry → Entry) : (s.updEntry id g).contexts = s.contexts := rfl
@[simp] theorem State.updEntry_tlbs (s : State) (id : Nat) (g : Entry → Entry) : (s.updEntry id g).tlbs = s.tlbs := rfl
@[simp] theorem State.updEntry_misses (s : State) (id : Nat) (g : Entry → Entry) : (s.updEntry id g).misses = s.misses := rfl
@[simp] theorem State.updEntry_census (s : State) (id : Nat) (g : Entry → Entry) : (s.updEntry id g).census = s.census := rfl
@[simp] theorem State.updEntry_dies (s : State) (id : Nat) (g : Entry → Entry) : (s.updEntry id g).dies = s.dies := rfl
@[simp] theorem State.updEntry_ticks (s : State) (id : Nat) (g : Entry → Entry) : (s.updEntry id g).ticks = s.ticks := rfl
@[simp] theorem State.updEntry_regs (s : State) (id : Nat) (g : Entry → Entry) : (s.updEntry id g).regs = s.regs := rfl
@[simp] theorem State.updEntry_fresh (s : State) (id : Nat) (g : Entry → Entry) : (s.updEntry id g).fresh = s.fresh := rfl
@[simp] theorem State.updEntry_free (s : State) (id : Nat) (g : Entry → Entry) : (s.updEntry id g).free = s.free := rfl
@[simp] theorem State.updEntry_agenda (s : State) (id : Nat) (g : Entry → Entry) : (s.updEntry id g).agenda = s.agenda := rfl
@[simp] theorem State.updEntry_latch (s : State) (id : Nat) (g : Entry → Entry) : (s.updEntry id g).latch = s.latch := rfl
@[simp] theorem State.updEntry_cur (s : State) (id : Nat) (g : Entry → Entry) : (s.updEntry id g).cur = s.cur := rfl
@[simp] theorem State.updEntry_checks (s : State) (id : Nat) (g : Entry → Entry) : (s.updEntry id g).checks = s.checks := rfl
@[simp] theorem State.updEntry_channels (s : State) (id : Nat) (g : Entry → Entry) : (s.updEntry id g).channels = s.channels := rfl
@[simp] theorem State.updEntry_hdmBias (s : State) (id : Nat) (g : Entry → Entry) : (s.updEntry id g).hdmBias = s.hdmBias := rfl
@[simp] theorem State.updEntry_built (s : State) (id : Nat) (g : Entry → Entry) : (s.updEntry id g).built = s.built := rfl
@[simp] theorem State.updEntry_coreMask (s : State) (id : Nat) (g : Entry → Entry) : (s.updEntry id g).coreMask = s.coreMask := rfl

@[simp] theorem State.dropEntry_mem (s : State) (id : Nat) : (s.dropEntry id).mem = s.mem := rfl
@[simp] theorem State.dropEntry_memPoison (s : State) (id : Nat) : (s.dropEntry id).memPoison = s.memPoison := rfl
@[simp] theorem State.dropEntry_sheaves (s : State) (id : Nat) : (s.dropEntry id).sheaves = s.sheaves := rfl
@[simp] theorem State.dropEntry_cores (s : State) (id : Nat) : (s.dropEntry id).cores = s.cores := rfl
@[simp] theorem State.dropEntry_units (s : State) (id : Nat) : (s.dropEntry id).units = s.units := rfl
@[simp] theorem State.dropEntry_launches (s : State) (id : Nat) : (s.dropEntry id).launches = s.launches := rfl
@[simp] theorem State.dropEntry_nodes (s : State) (id : Nat) : (s.dropEntry id).nodes = s.nodes := rfl
@[simp] theorem State.dropEntry_phases (s : State) (id : Nat) : (s.dropEntry id).phases = s.phases := rfl
@[simp] theorem State.dropEntry_jobs (s : State) (id : Nat) : (s.dropEntry id).jobs = s.jobs := rfl
@[simp] theorem State.dropEntry_listed (s : State) (id : Nat) : (s.dropEntry id).listed = s.listed := rfl
@[simp] theorem State.dropEntry_spawns (s : State) (id : Nat) : (s.dropEntry id).spawns = s.spawns := rfl
@[simp] theorem State.dropEntry_contexts (s : State) (id : Nat) : (s.dropEntry id).contexts = s.contexts := rfl
@[simp] theorem State.dropEntry_tlbs (s : State) (id : Nat) : (s.dropEntry id).tlbs = s.tlbs := rfl
@[simp] theorem State.dropEntry_misses (s : State) (id : Nat) : (s.dropEntry id).misses = s.misses := rfl
@[simp] theorem State.dropEntry_census (s : State) (id : Nat) : (s.dropEntry id).census = s.census := rfl
@[simp] theorem State.dropEntry_dies (s : State) (id : Nat) : (s.dropEntry id).dies = s.dies := rfl
@[simp] theorem State.dropEntry_ticks (s : State) (id : Nat) : (s.dropEntry id).ticks = s.ticks := rfl
@[simp] theorem State.dropEntry_regs (s : State) (id : Nat) : (s.dropEntry id).regs = s.regs := rfl
@[simp] theorem State.dropEntry_fresh (s : State) (id : Nat) : (s.dropEntry id).fresh = s.fresh := rfl
@[simp] theorem State.dropEntry_free (s : State) (id : Nat) : (s.dropEntry id).free = s.free := rfl
@[simp] theorem State.dropEntry_agenda (s : State) (id : Nat) : (s.dropEntry id).agenda = s.agenda := rfl
@[simp] theorem State.dropEntry_latch (s : State) (id : Nat) : (s.dropEntry id).latch = s.latch := rfl
@[simp] theorem State.dropEntry_cur (s : State) (id : Nat) : (s.dropEntry id).cur = s.cur := rfl
@[simp] theorem State.dropEntry_checks (s : State) (id : Nat) : (s.dropEntry id).checks = s.checks := rfl
@[simp] theorem State.dropEntry_channels (s : State) (id : Nat) : (s.dropEntry id).channels = s.channels := rfl
@[simp] theorem State.dropEntry_hdmBias (s : State) (id : Nat) : (s.dropEntry id).hdmBias = s.hdmBias := rfl
@[simp] theorem State.dropEntry_built (s : State) (id : Nat) : (s.dropEntry id).built = s.built := rfl
@[simp] theorem State.dropEntry_coreMask (s : State) (id : Nat) : (s.dropEntry id).coreMask = s.coreMask := rfl

@[simp] theorem State.updSheaf_mem (s : State) (id : Nat) (g : Sheaf → Sheaf) : (s.updSheaf id g).mem = s.mem := by unfold State.updSheaf; split <;> rfl
@[simp] theorem State.updSheaf_memPoison (s : State) (id : Nat) (g : Sheaf → Sheaf) : (s.updSheaf id g).memPoison = s.memPoison := by unfold State.updSheaf; split <;> rfl
@[simp] theorem State.updSheaf_cores (s : State) (id : Nat) (g : Sheaf → Sheaf) : (s.updSheaf id g).cores = s.cores := by unfold State.updSheaf; split <;> rfl
@[simp] theorem State.updSheaf_entries (s : State) (id : Nat) (g : Sheaf → Sheaf) : (s.updSheaf id g).entries = s.entries := by unfold State.updSheaf; split <;> rfl
@[simp] theorem State.updSheaf_units (s : State) (id : Nat) (g : Sheaf → Sheaf) : (s.updSheaf id g).units = s.units := by unfold State.updSheaf; split <;> rfl
@[simp] theorem State.updSheaf_launches (s : State) (id : Nat) (g : Sheaf → Sheaf) : (s.updSheaf id g).launches = s.launches := by unfold State.updSheaf; split <;> rfl
@[simp] theorem State.updSheaf_nodes (s : State) (id : Nat) (g : Sheaf → Sheaf) : (s.updSheaf id g).nodes = s.nodes := by unfold State.updSheaf; split <;> rfl
@[simp] theorem State.updSheaf_phases (s : State) (id : Nat) (g : Sheaf → Sheaf) : (s.updSheaf id g).phases = s.phases := by unfold State.updSheaf; split <;> rfl
@[simp] theorem State.updSheaf_jobs (s : State) (id : Nat) (g : Sheaf → Sheaf) : (s.updSheaf id g).jobs = s.jobs := by unfold State.updSheaf; split <;> rfl
@[simp] theorem State.updSheaf_listed (s : State) (id : Nat) (g : Sheaf → Sheaf) : (s.updSheaf id g).listed = s.listed := by unfold State.updSheaf; split <;> rfl
@[simp] theorem State.updSheaf_spawns (s : State) (id : Nat) (g : Sheaf → Sheaf) : (s.updSheaf id g).spawns = s.spawns := by unfold State.updSheaf; split <;> rfl
@[simp] theorem State.updSheaf_contexts (s : State) (id : Nat) (g : Sheaf → Sheaf) : (s.updSheaf id g).contexts = s.contexts := by unfold State.updSheaf; split <;> rfl
@[simp] theorem State.updSheaf_tlbs (s : State) (id : Nat) (g : Sheaf → Sheaf) : (s.updSheaf id g).tlbs = s.tlbs := by unfold State.updSheaf; split <;> rfl
@[simp] theorem State.updSheaf_misses (s : State) (id : Nat) (g : Sheaf → Sheaf) : (s.updSheaf id g).misses = s.misses := by unfold State.updSheaf; split <;> rfl
@[simp] theorem State.updSheaf_census (s : State) (id : Nat) (g : Sheaf → Sheaf) : (s.updSheaf id g).census = s.census := by unfold State.updSheaf; split <;> rfl
@[simp] theorem State.updSheaf_dies (s : State) (id : Nat) (g : Sheaf → Sheaf) : (s.updSheaf id g).dies = s.dies := by unfold State.updSheaf; split <;> rfl
@[simp] theorem State.updSheaf_ticks (s : State) (id : Nat) (g : Sheaf → Sheaf) : (s.updSheaf id g).ticks = s.ticks := by unfold State.updSheaf; split <;> rfl
@[simp] theorem State.updSheaf_regs (s : State) (id : Nat) (g : Sheaf → Sheaf) : (s.updSheaf id g).regs = s.regs := by unfold State.updSheaf; split <;> rfl
@[simp] theorem State.updSheaf_fresh (s : State) (id : Nat) (g : Sheaf → Sheaf) : (s.updSheaf id g).fresh = s.fresh := by unfold State.updSheaf; split <;> rfl
@[simp] theorem State.updSheaf_free (s : State) (id : Nat) (g : Sheaf → Sheaf) : (s.updSheaf id g).free = s.free := by unfold State.updSheaf; split <;> rfl
@[simp] theorem State.updSheaf_agenda (s : State) (id : Nat) (g : Sheaf → Sheaf) : (s.updSheaf id g).agenda = s.agenda := by unfold State.updSheaf; split <;> rfl
@[simp] theorem State.updSheaf_latch (s : State) (id : Nat) (g : Sheaf → Sheaf) : (s.updSheaf id g).latch = s.latch := by unfold State.updSheaf; split <;> rfl
@[simp] theorem State.updSheaf_cur (s : State) (id : Nat) (g : Sheaf → Sheaf) : (s.updSheaf id g).cur = s.cur := by unfold State.updSheaf; split <;> rfl
@[simp] theorem State.updSheaf_checks (s : State) (id : Nat) (g : Sheaf → Sheaf) : (s.updSheaf id g).checks = s.checks := by unfold State.updSheaf; split <;> rfl
@[simp] theorem State.updSheaf_channels (s : State) (id : Nat) (g : Sheaf → Sheaf) : (s.updSheaf id g).channels = s.channels := by unfold State.updSheaf; split <;> rfl
@[simp] theorem State.updSheaf_hdmBias (s : State) (id : Nat) (g : Sheaf → Sheaf) : (s.updSheaf id g).hdmBias = s.hdmBias := by unfold State.updSheaf; split <;> rfl
@[simp] theorem State.updSheaf_built (s : State) (id : Nat) (g : Sheaf → Sheaf) : (s.updSheaf id g).built = s.built := by unfold State.updSheaf; split <;> rfl
@[simp] theorem State.updSheaf_coreMask (s : State) (id : Nat) (g : Sheaf → Sheaf) : (s.updSheaf id g).coreMask = s.coreMask := by unfold State.updSheaf; split <;> rfl

@[simp] theorem State.updUnit_mem (s : State) (u : Nat) (g : UnitSt → UnitSt) : (s.updUnit u g).mem = s.mem := by unfold State.updUnit; split <;> rfl
@[simp] theorem State.updUnit_memPoison (s : State) (u : Nat) (g : UnitSt → UnitSt) : (s.updUnit u g).memPoison = s.memPoison := by unfold State.updUnit; split <;> rfl
@[simp] theorem State.updUnit_cores (s : State) (u : Nat) (g : UnitSt → UnitSt) : (s.updUnit u g).cores = s.cores := by unfold State.updUnit; split <;> rfl
@[simp] theorem State.updUnit_entries (s : State) (u : Nat) (g : UnitSt → UnitSt) : (s.updUnit u g).entries = s.entries := by unfold State.updUnit; split <;> rfl
@[simp] theorem State.updUnit_launches (s : State) (u : Nat) (g : UnitSt → UnitSt) : (s.updUnit u g).launches = s.launches := by unfold State.updUnit; split <;> rfl
@[simp] theorem State.updUnit_nodes (s : State) (u : Nat) (g : UnitSt → UnitSt) : (s.updUnit u g).nodes = s.nodes := by unfold State.updUnit; split <;> rfl
@[simp] theorem State.updUnit_phases (s : State) (u : Nat) (g : UnitSt → UnitSt) : (s.updUnit u g).phases = s.phases := by unfold State.updUnit; split <;> rfl
@[simp] theorem State.updUnit_jobs (s : State) (u : Nat) (g : UnitSt → UnitSt) : (s.updUnit u g).jobs = s.jobs := by unfold State.updUnit; split <;> rfl
@[simp] theorem State.updUnit_listed (s : State) (u : Nat) (g : UnitSt → UnitSt) : (s.updUnit u g).listed = s.listed := by unfold State.updUnit; split <;> rfl
@[simp] theorem State.updUnit_spawns (s : State) (u : Nat) (g : UnitSt → UnitSt) : (s.updUnit u g).spawns = s.spawns := by unfold State.updUnit; split <;> rfl
@[simp] theorem State.updUnit_contexts (s : State) (u : Nat) (g : UnitSt → UnitSt) : (s.updUnit u g).contexts = s.contexts := by unfold State.updUnit; split <;> rfl
@[simp] theorem State.updUnit_tlbs (s : State) (u : Nat) (g : UnitSt → UnitSt) : (s.updUnit u g).tlbs = s.tlbs := by unfold State.updUnit; split <;> rfl
@[simp] theorem State.updUnit_misses (s : State) (u : Nat) (g : UnitSt → UnitSt) : (s.updUnit u g).misses = s.misses := by unfold State.updUnit; split <;> rfl
@[simp] theorem State.updUnit_census (s : State) (u : Nat) (g : UnitSt → UnitSt) : (s.updUnit u g).census = s.census := by unfold State.updUnit; split <;> rfl
@[simp] theorem State.updUnit_dies (s : State) (u : Nat) (g : UnitSt → UnitSt) : (s.updUnit u g).dies = s.dies := by unfold State.updUnit; split <;> rfl
@[simp] theorem State.updUnit_ticks (s : State) (u : Nat) (g : UnitSt → UnitSt) : (s.updUnit u g).ticks = s.ticks := by unfold State.updUnit; split <;> rfl
@[simp] theorem State.updUnit_regs (s : State) (u : Nat) (g : UnitSt → UnitSt) : (s.updUnit u g).regs = s.regs := by unfold State.updUnit; split <;> rfl
@[simp] theorem State.updUnit_fresh (s : State) (u : Nat) (g : UnitSt → UnitSt) : (s.updUnit u g).fresh = s.fresh := by unfold State.updUnit; split <;> rfl
@[simp] theorem State.updUnit_free (s : State) (u : Nat) (g : UnitSt → UnitSt) : (s.updUnit u g).free = s.free := by unfold State.updUnit; split <;> rfl
@[simp] theorem State.updUnit_agenda (s : State) (u : Nat) (g : UnitSt → UnitSt) : (s.updUnit u g).agenda = s.agenda := by unfold State.updUnit; split <;> rfl
@[simp] theorem State.updUnit_latch (s : State) (u : Nat) (g : UnitSt → UnitSt) : (s.updUnit u g).latch = s.latch := by unfold State.updUnit; split <;> rfl
@[simp] theorem State.updUnit_cur (s : State) (u : Nat) (g : UnitSt → UnitSt) : (s.updUnit u g).cur = s.cur := by unfold State.updUnit; split <;> rfl
@[simp] theorem State.updUnit_checks (s : State) (u : Nat) (g : UnitSt → UnitSt) : (s.updUnit u g).checks = s.checks := by unfold State.updUnit; split <;> rfl
@[simp] theorem State.updUnit_channels (s : State) (u : Nat) (g : UnitSt → UnitSt) : (s.updUnit u g).channels = s.channels := by unfold State.updUnit; split <;> rfl
@[simp] theorem State.updUnit_hdmBias (s : State) (u : Nat) (g : UnitSt → UnitSt) : (s.updUnit u g).hdmBias = s.hdmBias := by unfold State.updUnit; split <;> rfl
@[simp] theorem State.updUnit_built (s : State) (u : Nat) (g : UnitSt → UnitSt) : (s.updUnit u g).built = s.built := by unfold State.updUnit; split <;> rfl
@[simp] theorem State.updUnit_coreMask (s : State) (u : Nat) (g : UnitSt → UnitSt) : (s.updUnit u g).coreMask = s.coreMask := by unfold State.updUnit; split <;> rfl

@[simp] theorem State.updLaunch_mem (s : State) (l : Nat) (g : LaunchSt → LaunchSt) : (s.updLaunch l g).mem = s.mem := by unfold State.updLaunch; split <;> rfl
@[simp] theorem State.updLaunch_memPoison (s : State) (l : Nat) (g : LaunchSt → LaunchSt) : (s.updLaunch l g).memPoison = s.memPoison := by unfold State.updLaunch; split <;> rfl
@[simp] theorem State.updLaunch_sheaves (s : State) (l : Nat) (g : LaunchSt → LaunchSt) : (s.updLaunch l g).sheaves = s.sheaves := by unfold State.updLaunch; split <;> rfl
@[simp] theorem State.updLaunch_cores (s : State) (l : Nat) (g : LaunchSt → LaunchSt) : (s.updLaunch l g).cores = s.cores := by unfold State.updLaunch; split <;> rfl
@[simp] theorem State.updLaunch_entries (s : State) (l : Nat) (g : LaunchSt → LaunchSt) : (s.updLaunch l g).entries = s.entries := by unfold State.updLaunch; split <;> rfl
@[simp] theorem State.updLaunch_units (s : State) (l : Nat) (g : LaunchSt → LaunchSt) : (s.updLaunch l g).units = s.units := by unfold State.updLaunch; split <;> rfl
@[simp] theorem State.updLaunch_nodes (s : State) (l : Nat) (g : LaunchSt → LaunchSt) : (s.updLaunch l g).nodes = s.nodes := by unfold State.updLaunch; split <;> rfl
@[simp] theorem State.updLaunch_phases (s : State) (l : Nat) (g : LaunchSt → LaunchSt) : (s.updLaunch l g).phases = s.phases := by unfold State.updLaunch; split <;> rfl
@[simp] theorem State.updLaunch_jobs (s : State) (l : Nat) (g : LaunchSt → LaunchSt) : (s.updLaunch l g).jobs = s.jobs := by unfold State.updLaunch; split <;> rfl
@[simp] theorem State.updLaunch_listed (s : State) (l : Nat) (g : LaunchSt → LaunchSt) : (s.updLaunch l g).listed = s.listed := by unfold State.updLaunch; split <;> rfl
@[simp] theorem State.updLaunch_spawns (s : State) (l : Nat) (g : LaunchSt → LaunchSt) : (s.updLaunch l g).spawns = s.spawns := by unfold State.updLaunch; split <;> rfl
@[simp] theorem State.updLaunch_contexts (s : State) (l : Nat) (g : LaunchSt → LaunchSt) : (s.updLaunch l g).contexts = s.contexts := by unfold State.updLaunch; split <;> rfl
@[simp] theorem State.updLaunch_tlbs (s : State) (l : Nat) (g : LaunchSt → LaunchSt) : (s.updLaunch l g).tlbs = s.tlbs := by unfold State.updLaunch; split <;> rfl
@[simp] theorem State.updLaunch_misses (s : State) (l : Nat) (g : LaunchSt → LaunchSt) : (s.updLaunch l g).misses = s.misses := by unfold State.updLaunch; split <;> rfl
@[simp] theorem State.updLaunch_census (s : State) (l : Nat) (g : LaunchSt → LaunchSt) : (s.updLaunch l g).census = s.census := by unfold State.updLaunch; split <;> rfl
@[simp] theorem State.updLaunch_dies (s : State) (l : Nat) (g : LaunchSt → LaunchSt) : (s.updLaunch l g).dies = s.dies := by unfold State.updLaunch; split <;> rfl
@[simp] theorem State.updLaunch_ticks (s : State) (l : Nat) (g : LaunchSt → LaunchSt) : (s.updLaunch l g).ticks = s.ticks := by unfold State.updLaunch; split <;> rfl
@[simp] theorem State.updLaunch_regs (s : State) (l : Nat) (g : LaunchSt → LaunchSt) : (s.updLaunch l g).regs = s.regs := by unfold State.updLaunch; split <;> rfl
@[simp] theorem State.updLaunch_fresh (s : State) (l : Nat) (g : LaunchSt → LaunchSt) : (s.updLaunch l g).fresh = s.fresh := by unfold State.updLaunch; split <;> rfl
@[simp] theorem State.updLaunch_free (s : State) (l : Nat) (g : LaunchSt → LaunchSt) : (s.updLaunch l g).free = s.free := by unfold State.updLaunch; split <;> rfl
@[simp] theorem State.updLaunch_agenda (s : State) (l : Nat) (g : LaunchSt → LaunchSt) : (s.updLaunch l g).agenda = s.agenda := by unfold State.updLaunch; split <;> rfl
@[simp] theorem State.updLaunch_latch (s : State) (l : Nat) (g : LaunchSt → LaunchSt) : (s.updLaunch l g).latch = s.latch := by unfold State.updLaunch; split <;> rfl
@[simp] theorem State.updLaunch_cur (s : State) (l : Nat) (g : LaunchSt → LaunchSt) : (s.updLaunch l g).cur = s.cur := by unfold State.updLaunch; split <;> rfl
@[simp] theorem State.updLaunch_checks (s : State) (l : Nat) (g : LaunchSt → LaunchSt) : (s.updLaunch l g).checks = s.checks := by unfold State.updLaunch; split <;> rfl
@[simp] theorem State.updLaunch_channels (s : State) (l : Nat) (g : LaunchSt → LaunchSt) : (s.updLaunch l g).channels = s.channels := by unfold State.updLaunch; split <;> rfl
@[simp] theorem State.updLaunch_hdmBias (s : State) (l : Nat) (g : LaunchSt → LaunchSt) : (s.updLaunch l g).hdmBias = s.hdmBias := by unfold State.updLaunch; split <;> rfl
@[simp] theorem State.updLaunch_built (s : State) (l : Nat) (g : LaunchSt → LaunchSt) : (s.updLaunch l g).built = s.built := by unfold State.updLaunch; split <;> rfl
@[simp] theorem State.updLaunch_coreMask (s : State) (l : Nat) (g : LaunchSt → LaunchSt) : (s.updLaunch l g).coreMask = s.coreMask := by unfold State.updLaunch; split <;> rfl

@[simp] theorem State.updNode_mem (s : State) (n : Nat) (g : Node → Node) : (s.updNode n g).mem = s.mem := by unfold State.updNode; split <;> rfl
@[simp] theorem State.updNode_memPoison (s : State) (n : Nat) (g : Node → Node) : (s.updNode n g).memPoison = s.memPoison := by unfold State.updNode; split <;> rfl
@[simp] theorem State.updNode_sheaves (s : State) (n : Nat) (g : Node → Node) : (s.updNode n g).sheaves = s.sheaves := by unfold State.updNode; split <;> rfl
@[simp] theorem State.updNode_cores (s : State) (n : Nat) (g : Node → Node) : (s.updNode n g).cores = s.cores := by unfold State.updNode; split <;> rfl
@[simp] theorem State.updNode_entries (s : State) (n : Nat) (g : Node → Node) : (s.updNode n g).entries = s.entries := by unfold State.updNode; split <;> rfl
@[simp] theorem State.updNode_units (s : State) (n : Nat) (g : Node → Node) : (s.updNode n g).units = s.units := by unfold State.updNode; split <;> rfl
@[simp] theorem State.updNode_launches (s : State) (n : Nat) (g : Node → Node) : (s.updNode n g).launches = s.launches := by unfold State.updNode; split <;> rfl
@[simp] theorem State.updNode_phases (s : State) (n : Nat) (g : Node → Node) : (s.updNode n g).phases = s.phases := by unfold State.updNode; split <;> rfl
@[simp] theorem State.updNode_jobs (s : State) (n : Nat) (g : Node → Node) : (s.updNode n g).jobs = s.jobs := by unfold State.updNode; split <;> rfl
@[simp] theorem State.updNode_listed (s : State) (n : Nat) (g : Node → Node) : (s.updNode n g).listed = s.listed := by unfold State.updNode; split <;> rfl
@[simp] theorem State.updNode_spawns (s : State) (n : Nat) (g : Node → Node) : (s.updNode n g).spawns = s.spawns := by unfold State.updNode; split <;> rfl
@[simp] theorem State.updNode_contexts (s : State) (n : Nat) (g : Node → Node) : (s.updNode n g).contexts = s.contexts := by unfold State.updNode; split <;> rfl
@[simp] theorem State.updNode_tlbs (s : State) (n : Nat) (g : Node → Node) : (s.updNode n g).tlbs = s.tlbs := by unfold State.updNode; split <;> rfl
@[simp] theorem State.updNode_misses (s : State) (n : Nat) (g : Node → Node) : (s.updNode n g).misses = s.misses := by unfold State.updNode; split <;> rfl
@[simp] theorem State.updNode_census (s : State) (n : Nat) (g : Node → Node) : (s.updNode n g).census = s.census := by unfold State.updNode; split <;> rfl
@[simp] theorem State.updNode_dies (s : State) (n : Nat) (g : Node → Node) : (s.updNode n g).dies = s.dies := by unfold State.updNode; split <;> rfl
@[simp] theorem State.updNode_ticks (s : State) (n : Nat) (g : Node → Node) : (s.updNode n g).ticks = s.ticks := by unfold State.updNode; split <;> rfl
@[simp] theorem State.updNode_regs (s : State) (n : Nat) (g : Node → Node) : (s.updNode n g).regs = s.regs := by unfold State.updNode; split <;> rfl
@[simp] theorem State.updNode_fresh (s : State) (n : Nat) (g : Node → Node) : (s.updNode n g).fresh = s.fresh := by unfold State.updNode; split <;> rfl
@[simp] theorem State.updNode_free (s : State) (n : Nat) (g : Node → Node) : (s.updNode n g).free = s.free := by unfold State.updNode; split <;> rfl
@[simp] theorem State.updNode_agenda (s : State) (n : Nat) (g : Node → Node) : (s.updNode n g).agenda = s.agenda := by unfold State.updNode; split <;> rfl
@[simp] theorem State.updNode_latch (s : State) (n : Nat) (g : Node → Node) : (s.updNode n g).latch = s.latch := by unfold State.updNode; split <;> rfl
@[simp] theorem State.updNode_cur (s : State) (n : Nat) (g : Node → Node) : (s.updNode n g).cur = s.cur := by unfold State.updNode; split <;> rfl
@[simp] theorem State.updNode_checks (s : State) (n : Nat) (g : Node → Node) : (s.updNode n g).checks = s.checks := by unfold State.updNode; split <;> rfl
@[simp] theorem State.updNode_channels (s : State) (n : Nat) (g : Node → Node) : (s.updNode n g).channels = s.channels := by unfold State.updNode; split <;> rfl
@[simp] theorem State.updNode_hdmBias (s : State) (n : Nat) (g : Node → Node) : (s.updNode n g).hdmBias = s.hdmBias := by unfold State.updNode; split <;> rfl
@[simp] theorem State.updNode_built (s : State) (n : Nat) (g : Node → Node) : (s.updNode n g).built = s.built := by unfold State.updNode; split <;> rfl
@[simp] theorem State.updNode_coreMask (s : State) (n : Nat) (g : Node → Node) : (s.updNode n g).coreMask = s.coreMask := by unfold State.updNode; split <;> rfl

@[simp] theorem State.updPhase_mem (s : State) (n : Nat) (g : Phase → Phase) : (s.updPhase n g).mem = s.mem := by unfold State.updPhase; split <;> rfl
@[simp] theorem State.updPhase_memPoison (s : State) (n : Nat) (g : Phase → Phase) : (s.updPhase n g).memPoison = s.memPoison := by unfold State.updPhase; split <;> rfl
@[simp] theorem State.updPhase_sheaves (s : State) (n : Nat) (g : Phase → Phase) : (s.updPhase n g).sheaves = s.sheaves := by unfold State.updPhase; split <;> rfl
@[simp] theorem State.updPhase_cores (s : State) (n : Nat) (g : Phase → Phase) : (s.updPhase n g).cores = s.cores := by unfold State.updPhase; split <;> rfl
@[simp] theorem State.updPhase_entries (s : State) (n : Nat) (g : Phase → Phase) : (s.updPhase n g).entries = s.entries := by unfold State.updPhase; split <;> rfl
@[simp] theorem State.updPhase_units (s : State) (n : Nat) (g : Phase → Phase) : (s.updPhase n g).units = s.units := by unfold State.updPhase; split <;> rfl
@[simp] theorem State.updPhase_launches (s : State) (n : Nat) (g : Phase → Phase) : (s.updPhase n g).launches = s.launches := by unfold State.updPhase; split <;> rfl
@[simp] theorem State.updPhase_nodes (s : State) (n : Nat) (g : Phase → Phase) : (s.updPhase n g).nodes = s.nodes := by unfold State.updPhase; split <;> rfl
@[simp] theorem State.updPhase_jobs (s : State) (n : Nat) (g : Phase → Phase) : (s.updPhase n g).jobs = s.jobs := by unfold State.updPhase; split <;> rfl
@[simp] theorem State.updPhase_listed (s : State) (n : Nat) (g : Phase → Phase) : (s.updPhase n g).listed = s.listed := by unfold State.updPhase; split <;> rfl
@[simp] theorem State.updPhase_spawns (s : State) (n : Nat) (g : Phase → Phase) : (s.updPhase n g).spawns = s.spawns := by unfold State.updPhase; split <;> rfl
@[simp] theorem State.updPhase_contexts (s : State) (n : Nat) (g : Phase → Phase) : (s.updPhase n g).contexts = s.contexts := by unfold State.updPhase; split <;> rfl
@[simp] theorem State.updPhase_tlbs (s : State) (n : Nat) (g : Phase → Phase) : (s.updPhase n g).tlbs = s.tlbs := by unfold State.updPhase; split <;> rfl
@[simp] theorem State.updPhase_misses (s : State) (n : Nat) (g : Phase → Phase) : (s.updPhase n g).misses = s.misses := by unfold State.updPhase; split <;> rfl
@[simp] theorem State.updPhase_census (s : State) (n : Nat) (g : Phase → Phase) : (s.updPhase n g).census = s.census := by unfold State.updPhase; split <;> rfl
@[simp] theorem State.updPhase_dies (s : State) (n : Nat) (g : Phase → Phase) : (s.updPhase n g).dies = s.dies := by unfold State.updPhase; split <;> rfl
@[simp] theorem State.updPhase_ticks (s : State) (n : Nat) (g : Phase → Phase) : (s.updPhase n g).ticks = s.ticks := by unfold State.updPhase; split <;> rfl
@[simp] theorem State.updPhase_regs (s : State) (n : Nat) (g : Phase → Phase) : (s.updPhase n g).regs = s.regs := by unfold State.updPhase; split <;> rfl
@[simp] theorem State.updPhase_fresh (s : State) (n : Nat) (g : Phase → Phase) : (s.updPhase n g).fresh = s.fresh := by unfold State.updPhase; split <;> rfl
@[simp] theorem State.updPhase_free (s : State) (n : Nat) (g : Phase → Phase) : (s.updPhase n g).free = s.free := by unfold State.updPhase; split <;> rfl
@[simp] theorem State.updPhase_agenda (s : State) (n : Nat) (g : Phase → Phase) : (s.updPhase n g).agenda = s.agenda := by unfold State.updPhase; split <;> rfl
@[simp] theorem State.updPhase_latch (s : State) (n : Nat) (g : Phase → Phase) : (s.updPhase n g).latch = s.latch := by unfold State.updPhase; split <;> rfl
@[simp] theorem State.updPhase_cur (s : State) (n : Nat) (g : Phase → Phase) : (s.updPhase n g).cur = s.cur := by unfold State.updPhase; split <;> rfl
@[simp] theorem State.updPhase_checks (s : State) (n : Nat) (g : Phase → Phase) : (s.updPhase n g).checks = s.checks := by unfold State.updPhase; split <;> rfl
@[simp] theorem State.updPhase_channels (s : State) (n : Nat) (g : Phase → Phase) : (s.updPhase n g).channels = s.channels := by unfold State.updPhase; split <;> rfl
@[simp] theorem State.updPhase_hdmBias (s : State) (n : Nat) (g : Phase → Phase) : (s.updPhase n g).hdmBias = s.hdmBias := by unfold State.updPhase; split <;> rfl
@[simp] theorem State.updPhase_built (s : State) (n : Nat) (g : Phase → Phase) : (s.updPhase n g).built = s.built := by unfold State.updPhase; split <;> rfl
@[simp] theorem State.updPhase_coreMask (s : State) (n : Nat) (g : Phase → Phase) : (s.updPhase n g).coreMask = s.coreMask := by unfold State.updPhase; split <;> rfl

@[simp] theorem State.updJob_mem (s : State) (j : Nat) (g : Job → Job) : (s.updJob j g).mem = s.mem := by unfold State.updJob; split <;> rfl
@[simp] theorem State.updJob_memPoison (s : State) (j : Nat) (g : Job → Job) : (s.updJob j g).memPoison = s.memPoison := by unfold State.updJob; split <;> rfl
@[simp] theorem State.updJob_sheaves (s : State) (j : Nat) (g : Job → Job) : (s.updJob j g).sheaves = s.sheaves := by unfold State.updJob; split <;> rfl
@[simp] theorem State.updJob_cores (s : State) (j : Nat) (g : Job → Job) : (s.updJob j g).cores = s.cores := by unfold State.updJob; split <;> rfl
@[simp] theorem State.updJob_entries (s : State) (j : Nat) (g : Job → Job) : (s.updJob j g).entries = s.entries := by unfold State.updJob; split <;> rfl
@[simp] theorem State.updJob_units (s : State) (j : Nat) (g : Job → Job) : (s.updJob j g).units = s.units := by unfold State.updJob; split <;> rfl
@[simp] theorem State.updJob_launches (s : State) (j : Nat) (g : Job → Job) : (s.updJob j g).launches = s.launches := by unfold State.updJob; split <;> rfl
@[simp] theorem State.updJob_nodes (s : State) (j : Nat) (g : Job → Job) : (s.updJob j g).nodes = s.nodes := by unfold State.updJob; split <;> rfl
@[simp] theorem State.updJob_phases (s : State) (j : Nat) (g : Job → Job) : (s.updJob j g).phases = s.phases := by unfold State.updJob; split <;> rfl
@[simp] theorem State.updJob_listed (s : State) (j : Nat) (g : Job → Job) : (s.updJob j g).listed = s.listed := by unfold State.updJob; split <;> rfl
@[simp] theorem State.updJob_spawns (s : State) (j : Nat) (g : Job → Job) : (s.updJob j g).spawns = s.spawns := by unfold State.updJob; split <;> rfl
@[simp] theorem State.updJob_contexts (s : State) (j : Nat) (g : Job → Job) : (s.updJob j g).contexts = s.contexts := by unfold State.updJob; split <;> rfl
@[simp] theorem State.updJob_tlbs (s : State) (j : Nat) (g : Job → Job) : (s.updJob j g).tlbs = s.tlbs := by unfold State.updJob; split <;> rfl
@[simp] theorem State.updJob_misses (s : State) (j : Nat) (g : Job → Job) : (s.updJob j g).misses = s.misses := by unfold State.updJob; split <;> rfl
@[simp] theorem State.updJob_census (s : State) (j : Nat) (g : Job → Job) : (s.updJob j g).census = s.census := by unfold State.updJob; split <;> rfl
@[simp] theorem State.updJob_dies (s : State) (j : Nat) (g : Job → Job) : (s.updJob j g).dies = s.dies := by unfold State.updJob; split <;> rfl
@[simp] theorem State.updJob_ticks (s : State) (j : Nat) (g : Job → Job) : (s.updJob j g).ticks = s.ticks := by unfold State.updJob; split <;> rfl
@[simp] theorem State.updJob_regs (s : State) (j : Nat) (g : Job → Job) : (s.updJob j g).regs = s.regs := by unfold State.updJob; split <;> rfl
@[simp] theorem State.updJob_fresh (s : State) (j : Nat) (g : Job → Job) : (s.updJob j g).fresh = s.fresh := by unfold State.updJob; split <;> rfl
@[simp] theorem State.updJob_free (s : State) (j : Nat) (g : Job → Job) : (s.updJob j g).free = s.free := by unfold State.updJob; split <;> rfl
@[simp] theorem State.updJob_agenda (s : State) (j : Nat) (g : Job → Job) : (s.updJob j g).agenda = s.agenda := by unfold State.updJob; split <;> rfl
@[simp] theorem State.updJob_latch (s : State) (j : Nat) (g : Job → Job) : (s.updJob j g).latch = s.latch := by unfold State.updJob; split <;> rfl
@[simp] theorem State.updJob_cur (s : State) (j : Nat) (g : Job → Job) : (s.updJob j g).cur = s.cur := by unfold State.updJob; split <;> rfl
@[simp] theorem State.updJob_checks (s : State) (j : Nat) (g : Job → Job) : (s.updJob j g).checks = s.checks := by unfold State.updJob; split <;> rfl
@[simp] theorem State.updJob_channels (s : State) (j : Nat) (g : Job → Job) : (s.updJob j g).channels = s.channels := by unfold State.updJob; split <;> rfl
@[simp] theorem State.updJob_hdmBias (s : State) (j : Nat) (g : Job → Job) : (s.updJob j g).hdmBias = s.hdmBias := by unfold State.updJob; split <;> rfl
@[simp] theorem State.updJob_built (s : State) (j : Nat) (g : Job → Job) : (s.updJob j g).built = s.built := by unfold State.updJob; split <;> rfl
@[simp] theorem State.updJob_coreMask (s : State) (j : Nat) (g : Job → Job) : (s.updJob j g).coreMask = s.coreMask := by unfold State.updJob; split <;> rfl

@[simp] theorem State.updContext_mem (s : State) (c : Nat) (g : Context → Context) : (s.updContext c g).mem = s.mem := by unfold State.updContext; split <;> rfl
@[simp] theorem State.updContext_memPoison (s : State) (c : Nat) (g : Context → Context) : (s.updContext c g).memPoison = s.memPoison := by unfold State.updContext; split <;> rfl
@[simp] theorem State.updContext_sheaves (s : State) (c : Nat) (g : Context → Context) : (s.updContext c g).sheaves = s.sheaves := by unfold State.updContext; split <;> rfl
@[simp] theorem State.updContext_cores (s : State) (c : Nat) (g : Context → Context) : (s.updContext c g).cores = s.cores := by unfold State.updContext; split <;> rfl
@[simp] theorem State.updContext_entries (s : State) (c : Nat) (g : Context → Context) : (s.updContext c g).entries = s.entries := by unfold State.updContext; split <;> rfl
@[simp] theorem State.updContext_units (s : State) (c : Nat) (g : Context → Context) : (s.updContext c g).units = s.units := by unfold State.updContext; split <;> rfl
@[simp] theorem State.updContext_launches (s : State) (c : Nat) (g : Context → Context) : (s.updContext c g).launches = s.launches := by unfold State.updContext; split <;> rfl
@[simp] theorem State.updContext_nodes (s : State) (c : Nat) (g : Context → Context) : (s.updContext c g).nodes = s.nodes := by unfold State.updContext; split <;> rfl
@[simp] theorem State.updContext_phases (s : State) (c : Nat) (g : Context → Context) : (s.updContext c g).phases = s.phases := by unfold State.updContext; split <;> rfl
@[simp] theorem State.updContext_jobs (s : State) (c : Nat) (g : Context → Context) : (s.updContext c g).jobs = s.jobs := by unfold State.updContext; split <;> rfl
@[simp] theorem State.updContext_listed (s : State) (c : Nat) (g : Context → Context) : (s.updContext c g).listed = s.listed := by unfold State.updContext; split <;> rfl
@[simp] theorem State.updContext_spawns (s : State) (c : Nat) (g : Context → Context) : (s.updContext c g).spawns = s.spawns := by unfold State.updContext; split <;> rfl
@[simp] theorem State.updContext_tlbs (s : State) (c : Nat) (g : Context → Context) : (s.updContext c g).tlbs = s.tlbs := by unfold State.updContext; split <;> rfl
@[simp] theorem State.updContext_misses (s : State) (c : Nat) (g : Context → Context) : (s.updContext c g).misses = s.misses := by unfold State.updContext; split <;> rfl
@[simp] theorem State.updContext_census (s : State) (c : Nat) (g : Context → Context) : (s.updContext c g).census = s.census := by unfold State.updContext; split <;> rfl
@[simp] theorem State.updContext_dies (s : State) (c : Nat) (g : Context → Context) : (s.updContext c g).dies = s.dies := by unfold State.updContext; split <;> rfl
@[simp] theorem State.updContext_ticks (s : State) (c : Nat) (g : Context → Context) : (s.updContext c g).ticks = s.ticks := by unfold State.updContext; split <;> rfl
@[simp] theorem State.updContext_regs (s : State) (c : Nat) (g : Context → Context) : (s.updContext c g).regs = s.regs := by unfold State.updContext; split <;> rfl
@[simp] theorem State.updContext_fresh (s : State) (c : Nat) (g : Context → Context) : (s.updContext c g).fresh = s.fresh := by unfold State.updContext; split <;> rfl
@[simp] theorem State.updContext_free (s : State) (c : Nat) (g : Context → Context) : (s.updContext c g).free = s.free := by unfold State.updContext; split <;> rfl
@[simp] theorem State.updContext_agenda (s : State) (c : Nat) (g : Context → Context) : (s.updContext c g).agenda = s.agenda := by unfold State.updContext; split <;> rfl
@[simp] theorem State.updContext_latch (s : State) (c : Nat) (g : Context → Context) : (s.updContext c g).latch = s.latch := by unfold State.updContext; split <;> rfl
@[simp] theorem State.updContext_cur (s : State) (c : Nat) (g : Context → Context) : (s.updContext c g).cur = s.cur := by unfold State.updContext; split <;> rfl
@[simp] theorem State.updContext_checks (s : State) (c : Nat) (g : Context → Context) : (s.updContext c g).checks = s.checks := by unfold State.updContext; split <;> rfl
@[simp] theorem State.updContext_channels (s : State) (c : Nat) (g : Context → Context) : (s.updContext c g).channels = s.channels := by unfold State.updContext; split <;> rfl
@[simp] theorem State.updContext_hdmBias (s : State) (c : Nat) (g : Context → Context) : (s.updContext c g).hdmBias = s.hdmBias := by unfold State.updContext; split <;> rfl
@[simp] theorem State.updContext_built (s : State) (c : Nat) (g : Context → Context) : (s.updContext c g).built = s.built := by unfold State.updContext; split <;> rfl
@[simp] theorem State.updContext_coreMask (s : State) (c : Nat) (g : Context → Context) : (s.updContext c g).coreMask = s.coreMask := by unfold State.updContext; split <;> rfl

/-! ### The part that changes -/

theorem State.die_setDie (s : State) (d : Nat) (x : Die) (k : Nat) : (s.setDie d x).die k = if k = d then x else s.die k := Store.get_set _ _ _ _
theorem State.core_setCore (s : State) (d : Nat) (x : Core) (k : Nat) : (s.setCore d x).core k = if k = d then x else s.core k := Store.get_set _ _ _ _
theorem State.unit_setUnit (s : State) (d : Nat) (x : UnitSt) (k : Nat) : (s.setUnit d x).unit k = if k = d then some x else s.unit k := Store.get_set _ _ _ _
theorem State.launch_setLaunch (s : State) (d : Nat) (x : LaunchSt) (k : Nat) : (s.setLaunch d x).launch k = if k = d then some x else s.launch k := Store.get_set _ _ _ _

theorem State.unit_updUnit (s : State) (d : Nat) (g : UnitSt → UnitSt) (k : Nat) :
    (s.updUnit d g).unit k = if k = d then (s.unit k).map g else s.unit k := by
  unfold State.updUnit
  split
  · next x hx =>
    refine (Store.get_set s.units d k (some (g x))).trans ?_
    split
    · next h => subst h; rw [hx]; rfl
    · rfl
  · next hx =>
    split
    · next h => subst h; rw [hx]; rfl
    · rfl

theorem State.launch_updLaunch (s : State) (d : Nat) (g : LaunchSt → LaunchSt) (k : Nat) :
    (s.updLaunch d g).launch k = if k = d then (s.launch k).map g else s.launch k := by
  unfold State.updLaunch
  split
  · next x hx =>
    refine (Store.get_set s.launches d k (some (g x))).trans ?_
    split
    · next h => subst h; rw [hx]; rfl
    · rfl
  · next hx =>
    split
    · next h => subst h; rw [hx]; rfl
    · rfl

theorem State.node_updNode (s : State) (d : Nat) (g : Node → Node) (k : Nat) :
    (s.updNode d g).node k = if k = d then (s.node k).map g else s.node k := by
  unfold State.updNode
  split
  · next x hx =>
    refine (Store.get_set s.nodes d k (some (g x))).trans ?_
    split
    · next h => subst h; rw [hx]; rfl
    · rfl
  · next hx =>
    split
    · next h => subst h; rw [hx]; rfl
    · rfl

theorem State.phase_updPhase (s : State) (d : Nat) (g : Phase → Phase) (k : Nat) :
    (s.updPhase d g).phase k = if k = d then (s.phase k).map g else s.phase k := by
  unfold State.updPhase
  split
  · next x hx =>
    refine (Store.get_set s.phases d k (some (g x))).trans ?_
    split
    · next h => subst h; rw [hx]; rfl
    · rfl
  · next hx =>
    split
    · next h => subst h; rw [hx]; rfl
    · rfl

theorem State.job_updJob (s : State) (d : Nat) (g : Job → Job) (k : Nat) :
    (s.updJob d g).job k = if k = d then (s.job k).map g else s.job k := by
  unfold State.updJob
  split
  · next x hx =>
    refine (Store.get_set s.jobs d k (some (g x))).trans ?_
    split
    · next h => subst h; rw [hx]; rfl
    · rfl
  · next hx =>
    split
    · next h => subst h; rw [hx]; rfl
    · rfl

theorem State.context_updContext (s : State) (d : Nat) (g : Context → Context) (k : Nat) :
    (s.updContext d g).context k = if k = d then (s.context k).map g else s.context k := by
  unfold State.updContext
  split
  · next x hx =>
    refine (Store.get_set s.contexts d k (some (g x))).trans ?_
    split
    · next h => subst h; rw [hx]; rfl
    · rfl
  · next hx =>
    split
    · next h => subst h; rw [hx]; rfl
    · rfl

theorem State.entry_dropEntry (s : State) (id : Nat) : (s.dropEntry id).entries = s.entries.filter (fun e => e.id != id) := rfl

/-- Reading a byte after one is written. -/
theorem State.byteAt_putByte (s : State) (k j : Nat) (b : Byte) : (s.putByte k b).byteAt j = if j = k then b else s.byteAt j :=
  Store.get_set (⟨s.mem⟩ : Store Byte) k j b

/-- Memory, poison and check values alone differ. -/
def State.MemOnly (s t : State) : Prop := t = { s with mem := t.mem, memPoison := t.memPoison, checks := t.checks }

theorem State.MemOnly.refl (s : State) : s.MemOnly s := rfl
theorem State.MemOnly.trans {s t u : State} (a : s.MemOnly t) (b : t.MemOnly u) : s.MemOnly u := by
  unfold State.MemOnly at *
  rw [a] at b
  exact b

theorem State.MemOnly.foldl {α : Type} {g : State → α → State} (h : ∀ (s : State) x, s.MemOnly (g s x)) (l : List α) :
    ∀ s : State, s.MemOnly (l.foldl g s) := by
  induction l with
  | nil => exact .refl
  | cons x rest ih => exact fun s => (h s x).trans (ih (g s x))

/-- A write's check of a line changes check values and poison alone. -/
theorem State.verifyLine_only (s : State) (k : Nat) : s.MemOnly (s.verifyLine k) := by
  unfold State.verifyLine
  dsimp only
  split
  · exact .refl s
  · split
    · rfl
    · exact State.MemOnly.trans (t := { s with checks := s.checks.set (k / 128) none }) rfl
        (State.MemOnly.foldl (g := fun (acc : State) w => acc.setPoison (128 * (k / 128) + 8 * w) true) (fun _ _ => rfl) _ _)

/-- Stores change memory, poison and check values alone. -/
theorem State.store_only (s : State) (cells : List (Nat × Byte)) : s.MemOnly (s.store cells) := by
  unfold State.store
  refine ((State.MemOnly.foldl State.verifyLine_only _ s).trans
    (State.MemOnly.foldl (g := fun (acc : State) (c : Nat × Byte) => acc.putByte c.1 c.2) (fun _ _ => rfl) _ _)).trans
    (State.MemOnly.foldl (fun a k => ?_) _ _)
  split
  · rfl
  · exact .refl a

theorem State.store_frame (s : State) (cells : List (Nat × Byte)) :
    s.store cells = { s with mem := (s.store cells).mem, memPoison := (s.store cells).memPoison, checks := (s.store cells).checks } :=
  s.store_only cells

/-- What a write notes of the matrix records that it changes. -/
theorem State.noteUpset_frame (s : State) (cells : List (Nat × Byte)) :
    s.noteUpset cells = { s with census := (s.noteUpset cells).census } := by
  unfold State.noteUpset
  split <;> rfl

/-- A write by anything else changes the counter of the free values and what is noted of matrix records besides. -/
theorem State.write_frame (s : State) (cells : List (Nat × Byte)) :
    s.write cells = { s with mem := (s.write cells).mem, memPoison := (s.write cells).memPoison, checks := (s.write cells).checks
                             free := (s.write cells).free, census := (s.write cells).census } := by
  unfold State.write
  dsimp only
  split
  · rw [State.store_frame, State.noteUpset_frame]
  · rw [State.store_frame, State.noteUpset_frame]

/-- Where no census counter lies and no matrix record changes out of turn, a write stores its bytes (R400, R403). -/
theorem State.write_plain {s : State} {cells : List (Nat × Byte)} (h : ∀ c ∈ cells, s.counterAt c.1 = none)
    (hu : ∀ c ∈ s.census, s.upsets cells c = false) : s.write cells = s.store cells := by
  have e : s.noteUpset cells = s := if_neg (by simpa using hu)
  unfold State.write
  rw [e]
  exact if_neg (by simpa using h)

theorem State.putBytes_frame (b : List Byte) : ∀ (s : State) (k : Nat), s.putBytes k b = { s with mem := (s.putBytes k b).mem } := by
  induction b with
  | nil => intro s k; rfl
  | cons x rest ih => intro s k; exact ih (s.putByte k x) (k + 1)

/-- A handle stands at its core or in its unit's image; nothing else changes. -/
theorem State.setHandle_frame (s : State) (u h : Nat) (v : Handle) :
    s.setHandle u h v = { s with cores := (s.setHandle u h v).cores, units := (s.setHandle u h v).units } := by
  unfold State.setHandle
  split
  · split
    · rfl
    · rfl
  · rfl

theorem State.setSlot_frame (s : State) (u m : Nat) (v : Slot) :
    s.setSlot u m v = { s with cores := (s.setSlot u m v).cores, units := (s.setSlot u m v).units } := by
  unfold State.setSlot
  split
  · split
    · rfl
    · rfl
  · rfl

theorem State.charge_frame (s : State) (ctx : Nat) (b : Budget) (n : Nat) :
    s.charge ctx b n = { s with contexts := (s.charge ctx b n).contexts } := by
  unfold State.charge State.updContext
  split <;> rfl

end Sys2Proof.Machine
end

