-- ==== Sys2Proof/Laws/Sheaf.lean ====
section
/-!
SUPPORT. Laws of sheaves: what a change of lanes, registers, predicates, flags and the park leaves as it was, and how far a change of
one sheaf reaches in the state.
-/
namespace Sys2Proof.Machine

/-! ### Masks of lanes -/

theorem mem_maskLanes {m : Mask} {l : Nat} : l ∈ maskLanes m ↔ l < 32 ∧ m.getLsbD l = true := by
  simp [maskLanes, laneList]

theorem nodup_maskLanes (m : Mask) : (maskLanes m).Nodup := List.Nodup.filter _ List.nodup_range

theorem getLsbD_laneFold (p : Nat → Bool) (l : Nat) (hl : l < 32) (ks : List Nat) (m : Mask) :
    (ks.foldl (fun m k => if p k then m ||| BitVec.twoPow 32 k else m) m).getLsbD l = (m.getLsbD l || (decide (l ∈ ks) && p l)) := by
  induction ks generalizing m with
  | nil => simp
  | cons k ks ih =>
    rw [List.foldl_cons, ih]
    by_cases h : p k
    · by_cases e : l = k
      · subst e; simp [h, hl]
      · simp [h, e, hl]
    · by_cases e : l = k
      · subst e; simp [h]
      · simp [h, e]

/-- A lane is in the mask of a test exactly if it passes. -/
@[simp] theorem getLsbD_laneMask (p : Nat → Bool) (l : Nat) : (laneMask p).getLsbD l = (decide (l < 32) && p l) := by
  by_cases hl : l < 32
  · rw [laneMask, getLsbD_laneFold p l hl]; simp [laneList, hl]
  · rw [BitVec.getLsbD_of_ge _ _ (by omega)]; simp [hl]

/-! ### Lanes -/

theorem Sheaf.lane_updLane (f : Sheaf) (k l : Nat) (g : LaneSt → LaneSt) :
    (f.updLane k g).lane l = if l = k then g (f.lane k) else f.lane l := Store.get_set f.lanes k l (g (f.lane k))

theorem Sheaf.lane_fold (g : Nat → LaneSt → LaneSt) (l : Nat) (ks : List Nat) (hk : ks.Nodup) (f : Sheaf) :
    (ks.foldl (fun acc k => acc.updLane k (g k)) f).lane l = if l ∈ ks then g l (f.lane l) else f.lane l := by
  induction ks generalizing f with
  | nil => rfl
  | cons k ks ih =>
    rw [List.nodup_cons] at hk
    rw [List.foldl_cons, ih hk.2, Sheaf.lane_updLane]
    by_cases h : l = k
    · subst h; simp [hk.1]
    · simp [h]

/-- Lanes of the mask change as the function says, the others not at all. -/
theorem Sheaf.lane_updLanes (f : Sheaf) (m : Mask) (g : Nat → LaneSt → LaneSt) (l : Nat) :
    (f.updLanes m g).lane l = if l < 32 ∧ m.getLsbD l = true then g l (f.lane l) else f.lane l := by
  rw [Sheaf.updLanes, Sheaf.lane_fold g l _ (nodup_maskLanes m)]
  simp [mem_maskLanes]

/-- Beside lanes, nothing of the sheaf changes. -/
theorem Sheaf.updLanes_eq (f : Sheaf) (m : Mask) (g : Nat → LaneSt → LaneSt) :
    f.updLanes m g = { f with lanes := (f.updLanes m g).lanes } := by
  unfold Sheaf.updLanes
  generalize maskLanes m = ks
  induction ks generalizing f with
  | nil => rfl
  | cons k ks ih => rw [List.foldl_cons]; exact ih _

/-! ### Changes that leave registers alone -/

theorem Sheaf.OnlyRegs.refl (f : Sheaf) : f.OnlyRegs f := rfl
theorem Sheaf.OnlyRegs.trans {f g h : Sheaf} (a : f.OnlyRegs g) (b : g.OnlyRegs h) : f.OnlyRegs h := by
  unfold Sheaf.OnlyRegs at *
  rw [a] at b
  exact b

/-- Of a sheaf no register, no predicate and no result on its way differs. -/
def Sheaf.Quiet (f g : Sheaf) : Prop :=
  g = { f with lanes := g.lanes, flagOps := g.flagOps, streams := g.streams, issued := g.issued, restored := g.restored, park := g.park }

theorem Sheaf.Quiet.refl (f : Sheaf) : f.Quiet f := rfl
theorem Sheaf.Quiet.trans {f g h : Sheaf} (a : f.Quiet g) (b : g.Quiet h) : f.Quiet h := by
  unfold Sheaf.Quiet at *
  rw [a] at b
  exact b
theorem Sheaf.Quiet.only {f g : Sheaf} (a : f.Quiet g) : f.OnlyRegs g := by
  unfold Sheaf.Quiet at a; unfold Sheaf.OnlyRegs; rw [a]

theorem Sheaf.updLanes_quiet (f : Sheaf) (m : Mask) (g : Nat → LaneSt → LaneSt) : f.Quiet (f.updLanes m g) := by
  unfold Sheaf.Quiet; rw [Sheaf.updLanes_eq]

theorem Sheaf.raise_quiet (f : Sheaf) (id flag : Nat) (m : Mask) : f.Quiet (f.raise id flag m) := by
  unfold Sheaf.raise; split <;> rfl
@[simp] theorem Sheaf.raise_lane (f : Sheaf) (id flag : Nat) (m : Mask) (l : Nat) : (f.raise id flag m).lane l = f.lane l := by
  unfold Sheaf.raise; split <;> rfl

theorem Sheaf.startRegion_quiet (f : Sheaf) (seq : Nat) (m : Mask) : f.Quiet (f.startRegion seq m) :=
  Sheaf.Quiet.trans (g := f.settlePops m) rfl (Sheaf.updLanes_quiet ..)

/-- A region start keeps where a lane stands. -/
theorem Sheaf.startRegion_lane (f : Sheaf) (seq : Nat) (m : Mask) (l : Nat) :
    (f.startRegion seq m).lane l = if l < 32 ∧ m.getLsbD l = true then
      { f.lane l with start := (f.lane l).pc, startSeq := seq, startRm := f.rm, startBp := f.bp, startClr := f.clr,
                      wroteRm := false, wroteBp := false, wroteClr := false, replays := 0, stepped := false,
                      impliedFence := false, poisoned := none, alsoMet := [], failed := [] } else f.lane l :=
  Sheaf.lane_updLanes ..

theorem Sheaf.advanced_quiet (f : Sheaf) (c : Ctx) (sh : Shape) : f.Quiet (f.advanced c sh) := by
  have a : f.Quiet (f.updLanes c.lanes fun _ x => c.advanced sh x) := Sheaf.updLanes_quiet ..
  unfold Sheaf.advanced
  by_cases h : sh.op = 0x5E
  · simp only [h, if_true]; exact a.trans rfl
  · simp only [h, if_false]; exact (a.trans (Sheaf.raise_quiet ..)).trans rfl

/-- The lanes of the position go to the next word. -/
theorem Sheaf.advanced_lane (f : Sheaf) (c : Ctx) (sh : Shape) (l : Nat) :
    (f.advanced c sh).lane l = if l < 32 ∧ c.lanes.getLsbD l = true then c.advanced sh (f.lane l) else f.lane l := by
  unfold Sheaf.advanced
  by_cases h : sh.op = 0x5E
  · simp only [h, if_true]; exact Sheaf.lane_updLanes ..
  · simp only [h, if_false]; exact (Sheaf.raise_lane ..).trans (Sheaf.lane_updLanes ..)

theorem Sheaf.closedSync_quiet (f : Sheaf) (seq : Nat) (i : Instr) (c : Ctx) : f.Quiet (f.closedSync seq i c) := by
  unfold Sheaf.closedSync; split
  · exact Sheaf.updLanes_quiet ..
  · exact .refl _

theorem Sheaf.endedRegion_quiet (f : Sheaf) (seq : Nat) (c : Ctx) (sh : Shape) : f.Quiet (f.endedRegion seq c sh) := by
  unfold Sheaf.endedRegion; split
  · exact Sheaf.startRegion_quiet ..
  · exact .refl _

theorem Sheaf.parkedBy_quiet (f : Sheaf) (c : Ctx) (sh : Shape) : f.Quiet (f.parkedBy c sh) := by
  unfold Sheaf.parkedBy; split <;> rfl

theorem Sheaf.concluded_quiet (f : Sheaf) (seq : Nat) (i : Instr) (c : Ctx) (sh : Shape) : f.Quiet (f.concluded seq i c sh) :=
  ((f.closedSync_quiet seq i c).trans (Sheaf.endedRegion_quiet ..)).trans (Sheaf.parkedBy_quiet ..)

/-- What concluding keeps of a lane. -/
structure LaneKept (x y : LaneSt) : Prop where
  pc : y.pc = x.pc
  limm : y.limm = x.limm
  xmod : y.xmod = x.xmod
  life : y.life = x.life
  handler : y.handler = x.handler
  hold : y.hold = x.hold
  bnd : y.bnd = x.bnd

theorem LaneKept.refl (x : LaneSt) : LaneKept x x := ⟨rfl, rfl, rfl, rfl, rfl, rfl, rfl⟩

theorem LaneKept.trans {x y z : LaneSt} (a : LaneKept x y) (b : LaneKept y z) : LaneKept x z :=
  ⟨b.pc.trans a.pc, b.limm.trans a.limm, b.xmod.trans a.xmod, b.life.trans a.life, b.handler.trans a.handler, b.hold.trans a.hold,
    b.bnd.trans a.bnd⟩

@[simp] theorem Sheaf.parkedBy_lane (f : Sheaf) (c : Ctx) (sh : Shape) (l : Nat) : (f.parkedBy c sh).lane l = f.lane l := by
  unfold Sheaf.parkedBy; split <;> rfl

/-- Concluding keeps where lanes stand, and leaves other lanes as they are. -/
theorem Sheaf.concluded_lane (f : Sheaf) (seq : Nat) (i : Instr) (c : Ctx) (sh : Shape) (l : Nat) :
    LaneKept (f.lane l) ((f.concluded seq i c sh).lane l)
    ∧ (c.lanes.getLsbD l = false → c.act.getLsbD l = false → (f.concluded seq i c sh).lane l = f.lane l) := by
  have a : LaneKept (f.lane l) ((f.closedSync seq i c).lane l)
      ∧ (c.act.getLsbD l = false → (f.closedSync seq i c).lane l = f.lane l) := by
    unfold Sheaf.closedSync; split
    · rw [Sheaf.lane_updLanes]
      exact ⟨by split <;> exact ⟨rfl, rfl, rfl, rfl, rfl, rfl, rfl⟩, fun h => by simp [h]⟩
    · exact ⟨.refl _, fun _ => rfl⟩
  have b (x : Sheaf) : LaneKept (x.lane l) ((x.endedRegion seq c sh).lane l)
      ∧ (c.lanes.getLsbD l = false → (x.endedRegion seq c sh).lane l = x.lane l) := by
    unfold Sheaf.endedRegion; split
    · rw [Sheaf.startRegion_lane]
      exact ⟨by split <;> exact ⟨rfl, rfl, rfl, rfl, rfl, rfl, rfl⟩, fun h => by simp [h]⟩
    · exact ⟨.refl _, fun _ => rfl⟩
  unfold Sheaf.concluded
  rw [Sheaf.parkedBy_lane]
  exact ⟨a.1.trans (b _).1, fun h k => ((b _).2 h).trans (a.2 k)⟩

/-! ### How far a change of one sheaf reaches -/

/-- Only one sheaf and the counts of names and choices differ. -/
structure InSheaf (s t : State) (id : Nat) : Prop where
  others : ∀ k, k ≠ id → t.sheaf k = s.sheaf k
  rest : t = { s with sheaves := t.sheaves, fresh := t.fresh, free := t.free }

theorem InSheaf.refl (s : State) (id : Nat) : InSheaf s s id := ⟨fun _ _ => rfl, rfl⟩
theorem InSheaf.trans {s t u : State} {id : Nat} (a : InSheaf s t id) (b : InSheaf t u id) : InSheaf s u id := by
  refine ⟨fun k h => (b.others k h).trans (a.others k h), ?_⟩
  have h := b.rest
  rw [a.rest] at h
  exact h

theorem OnlySheaf.trans {s t u : State} {id job : Nat} (a : OnlySheaf s t id job) (b : InSheaf t u id) : OnlySheaf s u id job := by
  have h := b.rest
  refine ⟨fun k h => (b.others k h).trans (a.others k h), ?_, ?_⟩
  · intro j
    rw [← a.jobs j, State.job, State.job, h]
  · rw [a.rest] at h
    rw [h]

@[simp] theorem State.sheaf_setSheaf (s : State) (id k : Nat) (f : Sheaf) :
    (s.setSheaf id f).sheaf k = if k = id then some f else s.sheaf k := Store.get_set s.sheaves id k (some f)

theorem State.updSheaf_eq {s : State} {id : Nat} {f : Sheaf} (h : s.sheaf id = some f) (g : Sheaf → Sheaf) :
    s.updSheaf id g = s.setSheaf id (g f) := by simp [State.updSheaf, h]

theorem State.setSheaf_in (s : State) (id : Nat) (f : Sheaf) : InSheaf s (s.setSheaf id f) id :=
  ⟨fun k h => by simp [h], rfl⟩

theorem State.updSheaf_in (s : State) (id : Nat) (g : Sheaf → Sheaf) : InSheaf s (s.updSheaf id g) id := by
  unfold State.updSheaf; split
  · exact State.setSheaf_in ..
  · exact InSheaf.refl ..

/-- A change of the sheaf and what it leaves. -/
theorem State.sheaf_updSheaf {s : State} {id : Nat} {f : Sheaf} (h : s.sheaf id = some f) (g : Sheaf → Sheaf) :
    (s.updSheaf id g).sheaf id = some (g f) := by simp [State.updSheaf_eq h]

theorem State.take_in (s : State) (id : Nat) : InSheaf s s.take.2 id := ⟨fun _ _ => rfl, rfl⟩

theorem State.counted_in (s : State) (id : Nat) : InSheaf s s.counted id := ⟨fun _ _ => rfl, rfl⟩

theorem State.progress_job (s : State) (j k : Nat) :
    (s.progress j).job k = if k = j then (s.job j).map (fun x => { x with progressed := true }) else s.job k := by
  unfold State.progress State.updJob
  cases h : s.job j with
  | none => by_cases e : k = j <;> simp [h, e]
  | some x =>
    show (s.jobs.set j _).get k = _
    rw [Store.get_set]; by_cases e : k = j <;> simp [State.job, e]

theorem State.progress_rest (s : State) (j : Nat) : s.progress j = { s with jobs := (s.progress j).jobs } := by
  unfold State.progress State.updJob; split <;> rfl

@[simp] theorem State.progress_sheaf (s : State) (j k : Nat) : (s.progress j).sheaf k = s.sheaf k := by
  rw [State.progress_rest]; rfl

/-- After a change in one sheaf, a job's progress. -/
theorem InSheaf.progress {s t : State} {id : Nat} (a : InSheaf s t id) (job : Nat) : OnlySheaf s (t.progress job) id job := by
  have hj : t.jobs = s.jobs := by rw [a.rest]
  refine ⟨fun k h => by rw [State.progress_sheaf]; exact a.others k h, fun j => ?_, ?_⟩
  · rw [State.progress_job]; simp only [State.job, hj]; split <;> simp_all
  · have e := State.progress_rest t job
    rw [e, a.rest]

/-- What advancing does. -/
theorem State.advance_spec {s : State} {c : Ctx} {sh : Shape} {f : Sheaf} (h : (s.committedBy c sh).sheaf c.id = some f) :
    OnlySheaf (s.committedBy c sh) (s.advance c sh) c.id c.unit.job ∧ (s.advance c sh).sheaf c.id = some (f.advanced c sh) := by
  have a := State.updSheaf_in (s.committedBy c sh) c.id (fun f => f.advanced c sh)
  have b := State.sheaf_updSheaf h (fun f => f.advanced c sh)
  unfold State.advance
  refine ⟨InSheaf.progress (a.trans (State.counted_in ..)) _, ?_⟩
  rw [State.progress_sheaf]; exact b

theorem State.conclude_in (s : State) (i : Instr) (c : Ctx) (sh : Shape) : InSheaf s (s.conclude i c sh) c.id :=
  (s.take_in c.id).trans (State.updSheaf_in ..)

theorem State.conclude_sheaf {s : State} {i : Instr} {c : Ctx} {sh : Shape} {f : Sheaf} (h : s.sheaf c.id = some f) :
    (s.conclude i c sh).sheaf c.id = some (f.concluded s.fresh i c sh) :=
  State.sheaf_updSheaf (s := s.take.2) (f := f) h _

end Sys2Proof.Machine
end

