-- ==== Sys2Proof/Laws/Write.lean ====
section
/-!
SUPPORT. Laws of register writes: what a destination field and a predicate field write in the active lanes, and when the result is sure.
-/
namespace Sys2Proof.Machine

theorem vKey_inj {r l r' l' : Nat} (h : l < 32) (h' : l' < 32) : vKey r l = vKey r' l' ↔ r = r' ∧ l = l' := by
  unfold vKey; omega

theorem pKey_inj {r l r' l' : Nat} (h : l < 32) (h' : l' < 32) : pKey r l = pKey r' l' ↔ r = r' ∧ l = l' := by
  unfold pKey; omega

theorem Pending.From.refl (b : Nat) (p : Pending) : p.From b p := ⟨rfl, rfl, rfl, .inl rfl⟩
theorem Pending.From.trans {b : Nat} {p q r : Pending} (x : p.From b q) (y : q.From b r) : p.From b r := by
  obtain ⟨x1, x2, x4, x3⟩ := x
  obtain ⟨y1, y2, y4, y3⟩ := y
  exact ⟨x1.trans y1, x2.trans y2, x4.trans y4, by omega⟩
/-- What comes from a result that is sure at the bound is sure then. -/
theorem Pending.From.ready {b : Nat} {p q : Pending} (x : p.From b q) (h : q.ready = b) : p.ready = b := by
  obtain ⟨_, _, _, x3⟩ := x
  omega

/-- The poison that a register holds is found by its key. -/
theorem Sheaf.poisonAt_v (f : Sheaf) {r l : Nat} (hr : r < 104) (hl : l < 32) : f.poisonAt (vKey r l) = f.vPoison.get (vKey r l) := by
  unfold Sheaf.poisonAt; rw [if_pos (by unfold vKey; omega)]
theorem Sheaf.poisonAt_u (f : Sheaf) {k : Nat} (hk : k < 16) : f.poisonAt (uKey k) = f.uPoison.get k := by
  unfold Sheaf.poisonAt; rw [if_neg (by unfold uKey; omega), if_pos (by unfold uKey; omega)]; simp [uKey]
theorem Sheaf.poisonAt_p (f : Sheaf) (p l : Nat) : f.poisonAt (pKey p l) = none := by
  unfold Sheaf.poisonAt; rw [if_neg (by unfold pKey; omega), if_neg (by unfold pKey; omega)]

/-- A recorded result is among the pending ones, and what is pending besides comes from what was pending before. -/
theorem Sheaf.mem_note {f : Sheaf} {now lat key : Nat} {old : Word} {p : Pending} (h : p ∈ (f.note now lat key old).pending) :
    (∃ q ∈ f.pending, p.From (now + lat) q) ∨ p = ⟨key, old, now + lat, f.poisonAt key⟩ := by
  unfold Sheaf.note at h
  split at h
  · exact .inl ⟨p, h, .refl _ p⟩
  · simp only [List.mem_cons, List.mem_map, List.mem_filter] at h
    rcases h with h | ⟨q, ⟨hq, _⟩, e⟩
    · exact .inr h
    · refine .inl ⟨q, hq, ?_⟩
      split at e
      · subst e; exact ⟨rfl, rfl, rfl, .inr rfl⟩
      · subst e; exact .refl _ q

theorem Sheaf.note_new {f : Sheaf} {now lat key : Nat} {old : Word} (h : lat ≠ 0) :
    (⟨key, old, now + lat, f.poisonAt key⟩ : Pending) ∈ (f.note now lat key old).pending := by
  simp [Sheaf.note, h]

theorem Sheaf.note_keeps {f : Sheaf} {now lat key : Nat} {old : Word} {p : Pending} (h : p ∈ f.pending) (hr : now < p.ready)
    (hl : p.ready ≤ now + lat) : p ∈ (f.note now lat key old).pending := by
  unfold Sheaf.note
  split
  · exact h
  · refine List.mem_cons_of_mem _ (List.mem_map.2 ⟨p, by simp [h, hr], ?_⟩)
    split
    · rw [Nat.min_eq_left hl]
    · rfl

theorem Sheaf.note_eq (f : Sheaf) (now lat key : Nat) (old : Word) :
    f.note now lat key old = { f with pending := (f.note now lat key old).pending } := by
  unfold Sheaf.note; split <;> rfl

/-! ### One register in several lanes -/

/-- Only thread registers and results on their way differ. -/
def Sheaf.VOnly (f g : Sheaf) : Prop := g = { f with v := g.v, vPoison := g.vPoison, pending := g.pending }

theorem Sheaf.VOnly.trans {f g h : Sheaf} (a : f.VOnly g) (b : g.VOnly h) : f.VOnly h := by
  unfold Sheaf.VOnly at *
  rw [a] at b
  exact b

theorem Sheaf.writeV_only (f : Sheaf) (now lat r l : Nat) (x : Word) : f.VOnly (f.writeV now lat r l x) := by
  unfold Sheaf.VOnly Sheaf.writeV Sheaf.setV; rw [Sheaf.note_eq]

/-- Writing one thread register in some lanes. -/
structure WroteReg (now lat r : Nat) (ks : List Nat) (G : Nat → Word) (f g : Sheaf) : Prop where
  v : ∀ r' l, l < 32 → g.v.get (vKey r' l) = if r' = r ∧ l ∈ ks then G l else f.v.get (vKey r' l)
  poison : ∀ r' l, l < 32 → g.vPoison.get (vKey r' l) = if r' = r ∧ l ∈ ks then none else f.vPoison.get (vKey r' l)
  rest : f.VOnly g
  late : lat ≠ 0 → ∀ l ∈ ks, (⟨vKey r l, f.v.get (vKey r l), now + lat, f.vPoison.get (vKey r l)⟩ : Pending) ∈ g.pending
  keeps : ∀ p ∈ f.pending, now < p.ready → p.ready ≤ now + lat → p ∈ g.pending
  only : ∀ p ∈ g.pending, (∃ q ∈ f.pending, p.From (now + lat) q) ∨ (p.ready = now + lat ∧ ∃ l ∈ ks, p.key = vKey r l)

theorem Sheaf.writeV_fold (now lat r : Nat) (hr : r < 104) (G : Nat → Word) (ks : List Nat) (hn : ks.Nodup) (hk : ∀ l ∈ ks, l < 32) (f : Sheaf) :
    WroteReg now lat r ks G f (ks.foldl (fun acc l => acc.writeV now lat r l (G l)) f) := by
  induction ks generalizing f with
  | nil => exact ⟨by simp, by simp, rfl, by simp, fun p h _ _ => h, fun p h => .inl ⟨p, h, .refl _ p⟩⟩
  | cons k ks ih =>
    rw [List.nodup_cons] at hn
    have hk1 : k < 32 := hk k (by simp)
    have w := ih hn.2 (fun l h => hk l (by simp [h])) (f.writeV now lat r k (G k))
    have ev : ∀ r' l, l < 32 → (f.writeV now lat r k (G k)).v.get (vKey r' l) = if r' = r ∧ l = k then G k else f.v.get (vKey r' l) := by
      intro r' l hl
      have e : (f.writeV now lat r k (G k)).v = f.v.set (vKey r k) (G k) := by
        unfold Sheaf.writeV Sheaf.setV; rw [Sheaf.note_eq]
      rw [e, Store.get_set]
      simp only [vKey_inj hl hk1]
    have ep : ∀ r' l, l < 32 → (f.writeV now lat r k (G k)).vPoison.get (vKey r' l) =
        if r' = r ∧ l = k then none else f.vPoison.get (vKey r' l) := by
      intro r' l hl
      have e : (f.writeV now lat r k (G k)).vPoison = f.vPoison.set (vKey r k) none := by
        unfold Sheaf.writeV Sheaf.setV; rw [Sheaf.note_eq]
      rw [e, Store.get_set]
      simp only [vKey_inj hl hk1]
    rw [List.foldl_cons]
    refine ⟨fun r' l hl => ?_, fun r' l hl => ?_, ?_, fun h l hl => ?_, fun p h h2 h3 => ?_, fun p h => ?_⟩
    · rw [w.v r' l hl, ev r' l hl]
      by_cases a : r' = r <;> by_cases b : l = k <;> simp [a, b, hn.1]
    · rw [w.poison r' l hl, ep r' l hl]
      by_cases a : r' = r <;> by_cases b : l = k <;> simp [a, b, hn.1]
    · exact (f.writeV_only ..).trans w.rest
    · rcases List.mem_cons.1 hl with rfl | hl'
      · exact w.keeps _ (f.poisonAt_v hr hk1 ▸ Sheaf.note_new (f := f) h) (by show now < now + lat; omega) (Nat.le_refl _)
      · have := w.late h l hl'
        rw [ev r l (hk l hl), ep r l (hk l hl)] at this
        have hne : l ≠ k := fun e => hn.1 (e ▸ hl')
        simpa [hne] using this
    · exact w.keeps p (Sheaf.note_keeps (f := f) h h2 h3) h2 h3
    · rcases w.only p h with ⟨q, hq, x⟩ | ⟨h, l, hl, e⟩
      · rcases Sheaf.mem_note (f := f) hq with ⟨r, hr, y⟩ | h
        · exact .inl ⟨r, hr, x.trans y⟩
        · exact .inr ⟨x.ready (by rw [h]), k, by simp, by rw [x.1, h]⟩
      · exact .inr ⟨h, l, by simp [hl], e⟩

/-! ### Destination fields -/

theorem lowest_map {β : Type} (m : Mask) (G : Nat → β) (h : m ≠ 0) :
    ∃ rest, (maskLanes m).map (fun l => (l, G l)) = (lowLaneOf m, G (lowLaneOf m)) :: rest := by
  have hne : maskLanes m ≠ [] := by
    intro e
    apply h
    apply BitVec.eq_of_getLsbD_eq
    intro i hi
    have : i ∉ maskLanes m := by simp [e]
    simpa [mem_maskLanes, hi] using this
  obtain ⟨l, ls, e⟩ := List.exists_cons_of_ne_nil hne
  refine ⟨ls.map fun l => (l, G l), ?_⟩
  simp [lowLaneOf, lowest, e]

/-- One field written: a step of `Writes`. -/
theorem Writes.field {c : Ctx} {lat n : Nat} {d : BitVec 7} {val : Nat → List Word} {f g : Sheaf} (ha : c.act ≠ 0)
    (w : Writes c lat d n val f g) :
    Writes c lat d (n + 1) val f (g.writeField c.now lat (d.toNat + n) (c.actLanes.map fun l => (l, (val l).getD n 0))) := by
  unfold Ctx.actLanes
  by_cases hv : d.toNat + n < 104
  · have e : g.writeField c.now lat (d.toNat + n) ((maskLanes c.act).map fun l => (l, (val l).getD n 0))
        = (maskLanes c.act).foldl (fun acc l => acc.writeV c.now lat (d.toNat + n) l ((val l).getD n 0)) g := by
      unfold Sheaf.writeField; rw [if_pos hv, List.foldl_map]
    rw [e]
    have x := Sheaf.writeV_fold c.now lat (d.toNat + n) hv (fun l => (val l).getD n 0) (maskLanes c.act) (nodup_maskLanes _)
      (fun l h => (mem_maskLanes.1 h).1) g
    generalize (maskLanes c.act).foldl (fun acc l => acc.writeV c.now lat (d.toNat + n) l ((val l).getD n 0)) g = k at x ⊢
    have xr := x.rest
    unfold Sheaf.VOnly at xr
    have xu : k.u = g.u := by rw [xr]
    have xp : k.p = g.p := by rw [xr]
    have xq : k.uPoison = g.uPoison := by rw [xr]
    refine ⟨fun r l hr hl => ?_, fun j hj => ?_, fun r l hr hl => ?_, fun j hj => ?_, by rw [xp, w.preds], fun r l hr hl a b c' h => ?_,
      fun j hj a b h => ?_, fun p hp => ?_⟩
    · rw [x.v r l hl, w.thread r l hr hl]
      by_cases q : r = d.toNat + n
      · subst q; by_cases t : c.act.getLsbD l = true <;> simp [mem_maskLanes, hl, t]
      · rw [if_neg (by tauto)]
        congr 1
        apply propext; constructor <;> intro h <;> exact ⟨h.1, by omega, h.2.2⟩
    · rw [xu, w.uniform j hj]; congr 1; apply propext; omega
    · rw [x.poison r l hl, w.poison r l hr hl]
      by_cases q : r = d.toNat + n
      · subst q; by_cases t : c.act.getLsbD l = true <;> simp [mem_maskLanes, hl, t]
      · rw [if_neg (by tauto)]
        congr 1
        apply propext; constructor <;> intro h <;> exact ⟨h.1, by omega, h.2.2⟩
    · rw [xq, w.poisonU j hj]; congr 1; apply propext; omega
    · by_cases q : r = d.toNat + n
      · subst q
        have := x.late h l (mem_maskLanes.2 ⟨hl, c'⟩)
        rwa [w.thread _ l hr hl, if_neg (by omega), w.poison _ l hr hl, if_neg (by omega)] at this
      · exact x.keeps _ (w.late r l hr hl a (by omega) c' h) (by show c.now < c.now + lat; omega) (Nat.le_refl _)
    · exact x.keeps _ (w.lateU j hj a (by omega) h) (by show c.now < c.now + lat; omega) (Nat.le_refl _)
    · rcases x.only p hp with ⟨q, hq, y⟩ | ⟨h, l, hl, e⟩
      · rcases w.rest q hq with ⟨q', h, z⟩ | ⟨h, h'⟩
        · exact .inl ⟨q', h, y.trans z⟩
        · refine .inr ⟨y.ready h, ?_⟩
          rcases h' with ⟨r, l, e, a, b, t⟩ | ⟨j, e, a, b⟩
          · exact .inl ⟨r, l, y.1.trans e, a, by omega, t⟩
          · exact .inr ⟨j, y.1.trans e, a, by omega⟩
      · exact .inr ⟨h, .inl ⟨d.toNat + n, l, e, by omega, by omega, (mem_maskLanes.1 hl).2⟩⟩
  · by_cases hu : d.toNat + n < 120
    · obtain ⟨rest, er⟩ := lowest_map c.act (fun l => (val l).getD n 0) ha
      have e : g.writeField c.now lat (d.toNat + n) ((maskLanes c.act).map fun l => (l, (val l).getD n 0))
          = g.writeU c.now lat (d.toNat + n - 104) ((val (lowLaneOf c.act)).getD n 0) := by
        unfold Sheaf.writeField; rw [if_neg hv, if_pos hu, er]
      rw [e]
      generalize hx : (val (lowLaneOf c.act)).getD n 0 = x
      have eu : (g.writeU c.now lat (d.toNat + n - 104) x).u = g.u.set (d.toNat + n - 104) x := by
        unfold Sheaf.writeU Sheaf.setU; rw [Sheaf.note_eq]
      have eq : (g.writeU c.now lat (d.toNat + n - 104) x).uPoison = g.uPoison.set (d.toNat + n - 104) none := by
        unfold Sheaf.writeU Sheaf.setU; rw [Sheaf.note_eq]
      have ev : (g.writeU c.now lat (d.toNat + n - 104) x).v = g.v := by unfold Sheaf.writeU Sheaf.setU; rw [Sheaf.note_eq]
      have ew : (g.writeU c.now lat (d.toNat + n - 104) x).vPoison = g.vPoison := by
        unfold Sheaf.writeU Sheaf.setU; rw [Sheaf.note_eq]
      have ep : (g.writeU c.now lat (d.toNat + n - 104) x).p = g.p := by unfold Sheaf.writeU Sheaf.setU; rw [Sheaf.note_eq]
      refine ⟨fun r l hr hl => ?_, fun j hj => ?_, fun r l hr hl => ?_, fun j hj => ?_, by rw [ep, w.preds],
        fun r l hr hl a b c' h => ?_, fun j hj a b h => ?_, fun p hp => ?_⟩
      · rw [ev, w.thread r l hr hl]
        congr 1
        apply propext; constructor <;> intro h <;> exact ⟨h.1, by omega, h.2.2⟩
      · rw [eu, Store.get_set]
        by_cases q : j = d.toNat + n - 104
        · subst q
          rw [if_pos rfl, if_pos (by omega), ← hx]; congr 1; omega
        · rw [if_neg q, w.uniform j hj]; congr 1; apply propext; omega
      · rw [ew, w.poison r l hr hl]
        congr 1
        apply propext; constructor <;> intro h <;> exact ⟨h.1, by omega, h.2.2⟩
      · rw [eq, Store.get_set]
        by_cases q : j = d.toNat + n - 104
        · subst q
          rw [if_pos rfl, if_pos (by omega)]
        · rw [if_neg q, w.poisonU j hj]; congr 1; apply propext; omega
      · exact Sheaf.note_keeps (f := g) (w.late r l hr hl a (by omega) c' h) (by show c.now < c.now + lat; omega) (Nat.le_refl _)
      · by_cases q : 104 + j = d.toNat + n
        · have hj' : j = d.toNat + n - 104 := by omega
          have t := Sheaf.note_new (f := g) (now := c.now) (lat := lat) (key := uKey j) (old := g.u.get j) h
          rw [g.poisonAt_u hj, w.uniform j (by omega), if_neg (by omega), w.poisonU j (by omega), if_neg (by omega)] at t
          rw [← hj']
          have e2 : (g.writeU c.now lat j x).pending = (g.note c.now lat (uKey j) (g.u.get j)).pending := rfl
          rw [e2, w.uniform j (by omega), if_neg (by omega)]
          exact t
        · exact Sheaf.note_keeps (f := g) (w.lateU j hj a (by omega) h) (by show c.now < c.now + lat; omega) (Nat.le_refl _)
      · rcases Sheaf.mem_note (f := g) hp with ⟨q, hq, y⟩ | h
        · rcases w.rest q hq with ⟨q', h, z⟩ | ⟨h, h'⟩
          · exact .inl ⟨q', h, y.trans z⟩
          · refine .inr ⟨y.ready h, ?_⟩
            rcases h' with ⟨r, l, e, a, b, t⟩ | ⟨j, e, a, b⟩
            · exact .inl ⟨r, l, y.1.trans e, a, by omega, t⟩
            · exact .inr ⟨j, y.1.trans e, a, by omega⟩
        · exact .inr ⟨by rw [h], .inr ⟨d.toNat + n - 104, by rw [h], by omega, by omega⟩⟩
    · have e : g.writeField c.now lat (d.toNat + n) ((maskLanes c.act).map fun l => (l, (val l).getD n 0)) = g := by
        unfold Sheaf.writeField; rw [if_neg hv, if_neg hu]
      rw [e]
      refine ⟨fun r l hr hl => ?_, fun j hj => ?_, fun r l hr hl => ?_, fun j hj => ?_, w.preds,
        fun r l hr hl a b c' h => w.late r l hr hl a (by omega) c' h, fun j hj a b h => w.lateU j hj a (by omega) h, fun p hp => ?_⟩
      · rw [w.thread r l hr hl]
        congr 1
        apply propext; constructor <;> intro h <;> exact ⟨h.1, by omega, h.2.2⟩
      · rw [w.uniform j hj]; congr 1; apply propext; omega
      · rw [w.poison r l hr hl]
        congr 1
        apply propext; constructor <;> intro h <;> exact ⟨h.1, by omega, h.2.2⟩
      · rw [w.poisonU j hj]; congr 1; apply propext; omega
      · rcases w.rest p hp with h | ⟨h, h'⟩
        · exact .inl h
        · refine .inr ⟨h, ?_⟩
          rcases h' with ⟨r, l, e, a, b, t⟩ | ⟨j, e, a, b⟩
          · exact .inl ⟨r, l, e, a, by omega, t⟩
          · exact .inr ⟨j, e, a, by omega⟩

theorem Writes.none (c : Ctx) (lat : Nat) (d : BitVec 7) (val : Nat → List Word) (f : Sheaf) : Writes c lat d 0 val f f := by
  refine ⟨fun r l _ _ => ?_, fun j _ => ?_, fun r l _ _ => ?_, fun j _ => ?_, rfl, fun r l _ _ a b => ?_, fun j _ a b => ?_,
    fun p hp => .inl ⟨p, hp, .refl _ p⟩⟩
  · rw [if_neg (by omega)]
  · rw [if_neg (by omega)]
  · rw [if_neg (by omega)]
  · rw [if_neg (by omega)]
  · omega
  · omega

/-- Writing one 32-bit result. -/
theorem Writes.one {c : Ctx} {lat : Nat} {d : BitVec 7} (ha : c.act ≠ 0) (G : Nat → Word) (f : Sheaf) :
    Writes c lat d 1 (fun l => [G l]) f (f.writeField c.now lat d.toNat (c.actLanes.map fun l => (l, G l))) :=
  (Writes.none c lat d (fun l => [G l]) f).field ha

/-- Writing several registers. -/
theorem Writes.words {c : Ctx} {lat : Nat} {d : BitVec 7} (ha : c.act ≠ 0) (n : Nat) (val : Nat → List Word) (f : Sheaf) (hd : d ≠ 120) :
    Writes c lat d n val f (f.writeWords c.now lat d.toNat n (c.actLanes.map fun l => (l, val l))) := by
  have hd' : d.toNat ≠ 120 := fun e => hd (BitVec.eq_of_toNat_eq e)
  unfold Sheaf.writeWords
  rw [if_neg hd']
  induction n with
  | zero => exact Writes.none ..
  | succ n ih =>
    rw [List.range_succ, List.foldl_append]
    have := ih.field ha
    simpa [List.map_map, Function.comp_def] using this

/-- Nothing is written to `zr`. -/
theorem Writes.zr {c : Ctx} {lat n : Nat} {val : Nat → List Word} (f : Sheaf) : Writes c lat 120 n val f f := by
  refine ⟨fun r l hr _ => ?_, fun j _ => ?_, fun r l hr _ => ?_, fun j _ => ?_, rfl, fun r l hr _ a b => ?_, fun j hj a b => ?_,
    fun p hp => .inl ⟨p, hp, .refl _ p⟩⟩
  · rw [if_neg (fun h => by have := h.1; simp at this; omega)]
  · rw [if_neg (fun h => by have := h.2.1; have := h.1; simp at *; omega)]
  · rw [if_neg (fun h => by have := h.1; simp at this; omega)]
  · rw [if_neg (fun h => by have := h.2.1; have := h.1; simp at *; omega)]
  · simp at a; omega
  · simp at a; omega

theorem Writes.wide {c : Ctx} {lat : Nat} {d : BitVec 7} (ha : c.act ≠ 0) (n : Nat) (val : Nat → List Word) (f : Sheaf) :
    Writes c lat d n val f (f.writeWords c.now lat d.toNat n (c.actLanes.map fun l => (l, val l))) := by
  by_cases hd : d = 120
  · subst hd; exact Writes.zr f
  · exact Writes.words ha n val f hd

/-! ### Fields leave the rest of the sheaf -/

/-- Only registers, predicates and results on their way differ. -/
def Sheaf.RegsOnly (f g : Sheaf) : Prop :=
  g = { f with v := g.v, vPoison := g.vPoison, u := g.u, uPoison := g.uPoison, p := g.p, pending := g.pending }

theorem Sheaf.RegsOnly.refl (f : Sheaf) : f.RegsOnly f := rfl
theorem Sheaf.RegsOnly.trans {f g h : Sheaf} (a : f.RegsOnly g) (b : g.RegsOnly h) : f.RegsOnly h := by
  unfold Sheaf.RegsOnly at *
  rw [a] at b
  exact b
theorem Sheaf.RegsOnly.only {f g : Sheaf} (a : f.RegsOnly g) : f.OnlyRegs g := by
  unfold Sheaf.RegsOnly at a; unfold Sheaf.OnlyRegs; rw [a]
theorem Sheaf.RegsOnly.lane {f g : Sheaf} (a : f.RegsOnly g) (l : Nat) : g.lane l = f.lane l := by
  unfold Sheaf.RegsOnly at a; rw [a]; rfl

theorem Sheaf.note_regs (f : Sheaf) (now lat key : Nat) (old : Word) : f.RegsOnly (f.note now lat key old) := by
  unfold Sheaf.RegsOnly; rw [Sheaf.note_eq]
theorem Sheaf.writeV_regs (f : Sheaf) (now lat r l : Nat) (x : Word) : f.RegsOnly (f.writeV now lat r l x) :=
  (f.note_regs now lat (vKey r l) (f.v.get (vKey r l))).trans rfl
theorem Sheaf.writeU_regs (f : Sheaf) (now lat n : Nat) (x : Word) : f.RegsOnly (f.writeU now lat n x) :=
  (f.note_regs now lat (uKey n) (f.u.get n)).trans rfl
theorem Sheaf.writePred_regs (f : Sheaf) (now lat p l : Nat) (x : Bool) : f.RegsOnly (f.writePred now lat p l x) :=
  (f.note_regs now lat (pKey p l) (if f.pred p l then 1 else 0)).trans rfl

theorem Sheaf.fold_regs {α : Type} (g : Sheaf → α → Sheaf) (h : ∀ (f : Sheaf) (a : α), f.RegsOnly (g f a)) (l : List α) (f : Sheaf) :
    f.RegsOnly (l.foldl g f) := by
  induction l generalizing f with
  | nil => exact .refl f
  | cons a l ih => exact (h f a).trans (ih _)

theorem Sheaf.writeField_regs (f : Sheaf) (now lat field : Nat) (vals : List (Nat × Word)) :
    f.RegsOnly (f.writeField now lat field vals) := by
  unfold Sheaf.writeField
  split
  · exact Sheaf.fold_regs _ (fun f a => f.writeV_regs ..) _ _
  · split
    · split
      · exact .refl f
      · exact f.writeU_regs ..
    · exact .refl f

theorem Sheaf.writeWords_regs (f : Sheaf) (now lat field n : Nat) (vals : List (Nat × List Word)) :
    f.RegsOnly (f.writeWords now lat field n vals) := by
  unfold Sheaf.writeWords
  split
  · exact .refl f
  · exact Sheaf.fold_regs _ (fun f a => f.writeField_regs ..) _ _

/-! ### Predicates -/

theorem Sheaf.pred_setPred (f : Sheaf) (p l q k : Nat) (x : Bool) (hk : k < 32) :
    (f.setPred p l x).pred q k = if q = p ∧ k = l then x else f.pred q k := by
  unfold Sheaf.pred Sheaf.setPred Store.modify
  simp only [Store.get_set]
  by_cases e : q = p
  · subst e
    by_cases h : k = l
    · subst h; cases x <;> simp [hk]
    · cases x <;> simp [h, hk]
  · simp [e]

/-- A predicate written in lanes. -/
theorem WritesPred.of (c : Ctx) (lat : Nat) (p : BitVec 3) (G : Nat → Bool) (f : Sheaf) :
    WritesPred c lat p G f (c.actLanes.foldl (fun acc l => acc.writePred c.now lat p.toNat l (G l)) f) := by
  have key : ∀ (ks : List Nat) (hn : ks.Nodup) (hk : ∀ l ∈ ks, l < 32) (f : Sheaf),
      let g := ks.foldl (fun acc l => acc.writePred c.now lat p.toNat l (G l)) f
      (∀ q l, l < 32 → g.pred q l = if q = p.toNat ∧ l ∈ ks then G l else f.pred q l)
      ∧ g.v = f.v ∧ g.u = f.u ∧ g.vPoison = f.vPoison ∧ g.uPoison = f.uPoison
      ∧ (lat ≠ 0 → ∀ l ∈ ks, (⟨pKey p.toNat l, if f.pred p.toNat l then 1 else 0, c.now + lat, none⟩ : Pending) ∈ g.pending)
      ∧ (∀ x ∈ f.pending, c.now < x.ready → x.ready ≤ c.now + lat → x ∈ g.pending)
      ∧ (∀ x ∈ g.pending, (∃ q ∈ f.pending, x.From (c.now + lat) q) ∨ (x.ready = c.now + lat ∧ ∃ l ∈ ks, x.key = pKey p.toNat l)) := by
    intro ks
    induction ks with
    | nil => intro _ _ f; exact ⟨by simp, rfl, rfl, rfl, rfl, by simp, fun x h _ _ => h, fun x h => .inl ⟨x, h, .refl _ x⟩⟩
    | cons k ks ih =>
      intro hn hk f
      rw [List.nodup_cons] at hn
      have hk1 : k < 32 := hk k (by simp)
      obtain ⟨a1, a2, a3, a4, a5, a6, a7, a8⟩ := ih hn.2 (fun l h => hk l (by simp [h])) (f.writePred c.now lat p.toNat k (G k))
      have ep : ∀ q l, l < 32 → (f.writePred c.now lat p.toNat k (G k)).pred q l =
          if q = p.toNat ∧ l = k then G k else f.pred q l := by
        intro q l hl
        unfold Sheaf.writePred
        rw [Sheaf.pred_setPred _ _ _ _ _ _ hl, Sheaf.note_eq]; rfl
      have en := f.note_eq c.now lat (pKey p.toNat k) (if f.pred p.toNat k then 1 else 0)
      rw [List.foldl_cons]
      refine ⟨fun q l hl => ?_, ?_, ?_, ?_, ?_, fun h l hl => ?_, fun x h h2 h3 => ?_, fun x h => ?_⟩
      · rw [a1 q l hl, ep q l hl]
        by_cases a : q = p.toNat <;> by_cases b : l = k <;> simp [a, b, hn.1]
      · rw [a2]; unfold Sheaf.writePred Sheaf.setPred; rw [en]
      · rw [a3]; unfold Sheaf.writePred Sheaf.setPred; rw [en]
      · rw [a4]; unfold Sheaf.writePred Sheaf.setPred; rw [en]
      · rw [a5]; unfold Sheaf.writePred Sheaf.setPred; rw [en]
      · rcases List.mem_cons.1 hl with rfl | hl'
        · exact a7 _ (f.poisonAt_p p.toNat l ▸ Sheaf.note_new (f := f) h) (by show c.now < c.now + lat; omega) (Nat.le_refl _)
        · have := a6 h l hl'
          rw [ep p.toNat l (hk l hl)] at this
          have hne : l ≠ k := fun e => hn.1 (e ▸ hl')
          simpa [hne] using this
      · exact a7 x (Sheaf.note_keeps (f := f) h h2 h3) h2 h3
      · rcases a8 x h with ⟨q, hq, y⟩ | ⟨h, l, hl, e⟩
        · rcases Sheaf.mem_note (f := f) hq with ⟨r, hr, z⟩ | h
          · exact .inl ⟨r, hr, y.trans z⟩
          · exact .inr ⟨y.ready (by rw [h]), k, by simp, by rw [y.1, h]⟩
        · exact .inr ⟨h, l, by simp [hl], e⟩
  obtain ⟨a1, a2, a3, a4, a5, a6, a7, a8⟩ := key c.actLanes (nodup_maskLanes _) (fun l h => (mem_maskLanes.1 h).1) f
  refine ⟨fun q l _ hl => ?_, a2, a3, ⟨a4, a5⟩, fun l hl h hlat => a6 hlat l (mem_maskLanes.2 ⟨hl, h⟩), fun x hx => ?_⟩
  · rw [a1 q l hl]
    simp only [Ctx.actLanes, mem_maskLanes, hl, true_and]
  · rcases a8 x hx with h | ⟨h, l, hl, e⟩
    · exact .inl h
    · exact .inr ⟨h, l, e, (mem_maskLanes.1 hl).2⟩

end Sys2Proof.Machine
end

