-- ==== Sys2Proof/Laws/Issue.lean ====
section
/-!
SUPPORT. Laws of issue: what an issuing position is, what a word that runs comes to, and that a word with results in its destination
fields completes.
-/
namespace Sys2Proof.Machine

/-! ### The store queue's commit keeps the sheaf in being -/

@[simp] theorem State.putByte_sheaves (s : State) (k : Nat) (b : Byte) : (s.putByte k b).sheaves = s.sheaves := rfl
@[simp] theorem State.setPoison_sheaves (s : State) (k : Nat) (p : Bool) : (s.setPoison k p).sheaves = s.sheaves := rfl

theorem foldl_keeps {σ α β : Type} (get : σ → β) (f : σ → α → σ) (h : ∀ s a, get (f s a) = get s) (l : List α) (s : σ) :
    get (l.foldl f s) = get s := by
  induction l generalizing s with
  | nil => rfl
  | cons a l ih => rw [List.foldl_cons, ih, h]

@[simp] theorem State.store_sheaves (s : State) (cells : List (Nat × Byte)) : (s.store cells).sheaves = s.sheaves := by
  rw [s.store_frame]

@[simp] theorem State.write_sheaves (s : State) (cells : List (Nat × Byte)) : (s.write cells).sheaves = s.sheaves := by
  rw [s.write_frame]

@[simp] theorem State.charge_sheaves (s : State) (ctx : Nat) (b : Budget) (n : Nat) : (s.charge ctx b n).sheaves = s.sheaves := by
  rw [s.charge_frame]

@[simp] theorem State.l2Keep_sheaves (s : State) (d key cp : Nat) : (s.l2Keep d key cp).sheaves = s.sheaves := rfl

@[simp] theorem State.l2Only_sheaves (s : State) (key : Nat) : (s.l2Only key).sheaves = s.sheaves := by
  unfold State.l2Only
  rw [foldl_keeps State.sheaves _ (fun s d => ?_)]
  dsimp only
  split <;> rfl

@[simp] theorem State.laneAccess_sheaves (s : State) (core ctx key : Nat) (write : Bool) (cp n : Nat) :
    (s.laneAccess core ctx key write cp n).sheaves = s.sheaves := by
  unfold State.laneAccess
  split
  · split <;> simp
  · split
    · split <;> simp
    · dsimp only
      split <;> split <;> split <;> simp

@[simp] theorem State.updUnit_sheaves (s : State) (u : Nat) (g : UnitSt → UnitSt) : (s.updUnit u g).sheaves = s.sheaves := by
  unfold State.updUnit; split <;> rfl
@[simp] theorem State.updCore_sheaves (s : State) (c : Nat) (g : Core → Core) : (s.updCore c g).sheaves = s.sheaves := rfl

@[simp] theorem State.dropLines_sheaves (s : State) (core : Nat) (keys : List Nat) : (s.dropLines core keys).sheaves = s.sheaves := rfl
@[simp] theorem State.sendRequest_sheaves (s : State) : s.sendRequest.sheaves = s.sheaves := rfl
@[simp] theorem State.storeFailed_sheaves (s : State) (id : Nat) (f : Sheaf) (lane : Nat) (pc addr : DWord) (bytes peer cause : Nat) :
    (s.storeFailed id f lane pc addr bytes peer cause).sheaves = s.sheaves := rfl

theorem State.performAt_sheaves (s : State) (id : Nat) (f : Sheaf) (e : StoreEntry) (p : StorePart) (va : DWord) (keys : List Nat) :
    (s.performAt id f e p va keys).sheaves = s.sheaves := by
  unfold State.performAt
  dsimp only
  split
  · simp
  · split <;> simp

theorem State.performPart_sheaves (s : State) (id : Nat) (e : StoreEntry) (p : StorePart) :
    (s.performPart id e p).sheaves = s.sheaves := by
  unfold State.performPart
  split
  · rfl
  · split
    · simp
    · split
      · rfl
      · exact State.performAt_sheaves ..

theorem State.performPush_sheaves (s : State) (id : Nat) (e : StoreEntry) (r : StreamReg) (k : Nat) (p : StorePart) :
    (s.performPush id e r k p).sheaves = s.sheaves := by
  unfold State.performPush
  split
  · dsimp only
    split
    · simp
    · exact State.performAt_sheaves ..
  · rfl

/-- A sheaf stands after a change of it. -/
theorem State.updSheaf_stands {s : State} {id k : Nat} (g : Sheaf → Sheaf) (h : (s.sheaf k).isSome) : ((s.updSheaf id g).sheaf k).isSome := by
  unfold State.updSheaf
  split
  · rw [State.sheaf_setSheaf]; split
    · rfl
    · exact h
  · exact h

theorem State.performEntry_stands {s : State} {id k : Nat} (m : Mask) (e : StoreEntry) (h : (s.sheaf k).isSome) :
    ((s.performEntry id m e).sheaf k).isSome := by
  unfold State.performEntry
  apply State.updSheaf_stands
  split
  · unfold State.sheaf
    rw [foldl_keeps State.sheaves _ (fun s p => s.performPart_sheaves ..)]; exact h
  · apply State.updSheaf_stands
    unfold State.sheaf
    rw [foldl_keeps State.sheaves _ (fun s c => s.performPush_sheaves ..)]; exact h

theorem State.commit_stands {s : State} {id k : Nat} (m : Mask) (h : (s.sheaf k).isSome) : ((s.commit id m).sheaf k).isSome := by
  unfold State.commit
  split
  · exact h
  · rename_i f hf
    clear hf
    apply State.updSheaf_stands
    generalize f.storeQueue = l
    induction l generalizing s with
    | nil => exact h
    | cons e l ih => exact ih (State.performEntry_stands m e h)

theorem State.committedBy_stands {s : State} {c : Ctx} {sh : Shape} {k : Nat} (h : (s.sheaf k).isSome) :
    ((s.committedBy c sh).sheaf k).isSome := by
  unfold State.committedBy
  split
  · exact State.commit_stands _ h
  · exact h

/-! ### Issuing -/

/-- What stands behind the context of an issuing position. -/
theorem State.issuing_spec {s : State} {i : Instr} {c : Ctx} (h : s.issuing i = some (some c)) :
    (s.sheaf c.id).isSome ∧ ∀ l, c.act.getLsbD l = true → c.lanes.getLsbD l = true := by
  unfold State.issuing at h
  split at h
  · cases h
  · split at h
    · cases h
    · rename_i cur _ f hf
      simp only at h
      split at h
      · cases h
      · have h := (Option.some.inj (Option.some.inj h)).symm
        subst h
        refine ⟨by simp [State.ctxOf, hf], fun l hl => ?_⟩
        simp only [State.ctxOf] at hl ⊢
        split at hl
        · exact hl
        · rw [getLsbD_laneMask] at hl
          simp only [Bool.and_eq_true] at hl
          exact hl.2.1

/-- A word that runs comes to its effect on the advanced state. -/
theorem Runs.issue {i : Instr} {s : State} {c : Ctx} (r : Runs i s c) (eff : Ctx → State → Eff) :
    issueWord i s eff = .next (match eff c (s.advance c (c.shapeOf i)) with
      | .done t => t.conclude i c (c.shapeOf i)
      | .emul => s.emulWord c
      | .trap t t2 => s.trapWord ((t2.updSheaf c.id fun f => f.dropParts c.op t.failing).conclude i c (c.shapeOf i)) c t
      | .hold t => t
      | .poison p => s.consume c p) := by
  have h1 := r.sound
  have h2 := r.ready
  have h3 := r.active
  have h4 := r.inOrder
  have h5 := r.clean
  unfold Ctx.shapeOf at h1 h2 h4 h5 ⊢
  unfold issueWord
  rw [r.issuing]
  simp only [h1, h2, h3, h4, h5, if_false, Bool.not_true, Bool.false_eq_true] <;> rfl

theorem Runs.done {i : Instr} {s t : State} {c : Ctx} (r : Runs i s c) {eff : Ctx → State → Eff}
    (h : eff c (s.advance c (c.shapeOf i)) = .done t) : issueWord i s eff = .next (t.conclude i c (c.shapeOf i)) := by
  rw [r.issue, h]

/-- Registers and predicates agree, and the results on their way. -/
structure SameRegs (f g : Sheaf) : Prop where
  v : g.v = f.v
  vPoison : g.vPoison = f.vPoison
  u : g.u = f.u
  uPoison : g.uPoison = f.uPoison
  p : g.p = f.p
  pending : g.pending = f.pending

theorem Sheaf.Quiet.same {f g : Sheaf} (a : f.Quiet g) : SameRegs f g := by
  unfold Sheaf.Quiet at a
  constructor <;> rw [a]

theorem Writes.congr {c : Ctx} {lat n : Nat} {d : BitVec 7} {val : Nat → List Word} {f f' g g' : Sheaf} (a : SameRegs f f')
    (w : Writes c lat d n val f' g') (b : SameRegs g' g) : Writes c lat d n val f g := by
  obtain ⟨w1, w2, w3, w4, w5, w6, w7, w8⟩ := w
  simp only [a.v, a.vPoison, a.u, a.uPoison, a.p, a.pending] at *
  exact ⟨by simpa only [b.v] using w1, by simpa only [b.u] using w2, by simpa only [b.vPoison] using w3,
    by simpa only [b.uPoison] using w4, by simpa only [b.p] using w5, by simpa only [b.pending] using w6,
    by simpa only [b.pending] using w7, by simpa only [b.pending] using w8⟩

theorem WritesPred.congr {c : Ctx} {lat : Nat} {p : BitVec 3} {val : Nat → Bool} {f f' g g' : Sheaf} (a : SameRegs f f')
    (w : WritesPred c lat p val f' g') (b : SameRegs g' g) : WritesPred c lat p val f g := by
  obtain ⟨w1, w2, w3, ⟨w4, w5⟩, w6, w7⟩ := w
  unfold Sheaf.pred at w1 w6
  simp only [a.v, a.vPoison, a.u, a.uPoison, a.p, a.pending] at *
  refine ⟨?_, by rw [b.v, w2], by rw [b.u, w3], ⟨by rw [b.vPoison, w4], by rw [b.uPoison, w5]⟩, ?_, by simpa only [b.pending] using w7⟩
  · unfold Sheaf.pred; simpa only [b.p] using w1
  · unfold Sheaf.pred; simpa only [b.pending] using w6

theorem WritesNothing.of_same {f g : Sheaf} (a : SameRegs f g) : WritesNothing f g := ⟨a.v, a.u, a.p, a.vPoison, a.uPoison, a.pending⟩

/-- A word whose effect writes registers, and sends lanes to addresses, completes. -/
theorem Runs.completes {i : Instr} {s : State} {c : Ctx} (r : Runs i s c) {eff : Ctx → State → Eff} (hx : exec i s = issueWord i s eff)
    {F : Sheaf → Sheaf} {u : State} (hF : eff c (s.advance c (c.shapeOf i)) = .done u) (hI : InSheaf (s.advance c (c.shapeOf i)) u c.id)
    (hU : ∀ f, (s.advance c (c.shapeOf i)).sheaf c.id = some f → u.sheaf c.id = some (F f))
    (hO : ∀ f : Sheaf, f.OnlyRegs (F f)) {pcOf : Nat → DWord} {E : Sheaf → Sheaf → Prop}
    (hL : ∀ (f : Sheaf) (l : Nat), l < 32 → (c.lanes.getLsbD l = true → (f.lane l).pc = c.pc + 4 → ((F f).lane l).pc = pcOf l
        ∧ ((F f).lane l).limm = (f.lane l).limm ∧ ((F f).lane l).xmod = (f.lane l).xmod ∧ ((F f).lane l).life = (f.lane l).life
        ∧ ((F f).lane l).handler = (f.lane l).handler ∧ ((F f).lane l).hold = (f.lane l).hold ∧ ((F f).lane l).bnd = (f.lane l).bnd)
      ∧ (c.lanes.getLsbD l = false → (F f).lane l = f.lane l))
    (hE : ∀ f g h, SameRegs f g → SameRegs (F g) h → E f h) : Completes i s c pcOf E := by
  obtain ⟨hs, hsub⟩ := State.issuing_spec r.issuing
  obtain ⟨f, hf⟩ := Option.isSome_iff_exists.1 (State.committedBy_stands (sh := c.shapeOf i) (c := c) hs)
  obtain ⟨ha1, ha2⟩ := State.advance_spec hf
  have hu := hU _ ha2
  refine ⟨_, f, _, hx.trans (r.done hF), hf, State.conclude_sheaf hu, (ha1.trans hI).trans (State.conclude_in ..), ?_, ?_, ?_⟩
  · exact (((f.advanced_quiet ..).only).trans (hO _)).trans (Sheaf.concluded_quiet ..).only
  · have hc (l : Nat) := Sheaf.concluded_lane (F (f.advanced c (c.shapeOf i))) u.fresh i c (c.shapeOf i) l
    constructor
    · intro l hl hm
      have al := f.advanced_lane c (c.shapeOf i) l
      rw [if_pos ⟨hl, hm⟩] at al
      obtain ⟨b1, b2, b3, b4, b5, b6, b7⟩ := (hL (f.advanced c (c.shapeOf i)) l hl).1 hm (by rw [al]; rfl)
      have k := (hc l).1
      rw [k.pc, k.limm, k.xmod, k.life, k.handler, k.hold, k.bnd, b1, b2, b3, b4, b5, b6, b7, al]
      exact ⟨rfl, rfl, rfl, rfl, rfl, rfl, rfl⟩
    · intro l hl hm
      have al := f.advanced_lane c (c.shapeOf i) l
      rw [if_neg (by simp [hm])] at al
      have hact : c.act.getLsbD l = false := by
        cases h : c.act.getLsbD l
        · rfl
        · exact absurd (hsub l h) (by simp [hm])
      rw [(hc l).2 hm hact, (hL (f.advanced c (c.shapeOf i)) l hl).2 hm, al]
  · exact hE _ _ _ (f.advanced_quiet ..).same (Sheaf.concluded_quiet ..).same

/-- A word whose effect writes registers completes at the next word. -/
theorem Runs.completes_regs {i : Instr} {s : State} {c : Ctx} (r : Runs i s c) {eff : Ctx → State → Eff} (hx : exec i s = issueWord i s eff)
    {F : Sheaf → Sheaf} (hF : eff c (s.advance c (c.shapeOf i)) = .done ((s.advance c (c.shapeOf i)).updSheaf c.id F))
    (hR : ∀ f : Sheaf, f.RegsOnly (F f)) {E : Sheaf → Sheaf → Prop} (hE : ∀ f g h, SameRegs f g → SameRegs (F g) h → E f h) :
    Completes i s c c.after E := by
  refine r.completes hx hF (State.updSheaf_in ..) (fun f hf => State.sheaf_updSheaf hf F) (fun f => (hR f).only) (fun f l _ => ?_) hE
  rw [(hR f).lane l]
  exact ⟨fun _ h => ⟨h, rfl, rfl, rfl, rfl, rfl, rfl⟩, fun _ => rfl⟩

/-! ### Words with one result a lane -/

theorem Runs.lane32 {i : Instr} {s : State} {c : Ctx} (r : Runs i s c) {lat : Nat} {d : BitVec 7} {G : Ctx → Nat → Word}
    (hx : exec i s = Machine.lane32 i s lat d G) : Completes i s c c.after (Writes c lat d 1 (fun l => [G c l])) :=
  r.completes_regs hx rfl (fun f => f.writeField_regs ..) fun _ _ _ a b => (Writes.one r.active (G c) _).congr a b

theorem Runs.lane64 {i : Instr} {s : State} {c : Ctx} (r : Runs i s c) {lat : Nat} {d : BitVec 7} {G : Ctx → Nat → DWord}
    (hx : exec i s = Machine.lane64 i s lat d G) :
    Completes i s c c.after (Writes c lat d 2 (fun l => [lo32 (G c l), hi32 (G c l)])) :=
  r.completes_regs hx rfl (fun f => f.writeWords_regs ..) fun _ _ _ a b =>
    (Writes.wide r.active 2 (fun l => [lo32 (G c l), hi32 (G c l)]) _).congr a b

/-- A word with one register or a pair by its FORM. -/
theorem Runs.laneForm {i : Instr} {s : State} {c : Ctx} (r : Runs i s c) {lat : Nat} {d : BitVec 7} {wide : Nat → Bool}
    {G : Ctx → Nat → Word} {H : Ctx → Nat → DWord} (hx : exec i s = Machine.laneForm i s lat d wide G H) :
    Completes i s c c.after (Writes c lat d (if wide c.form then 2 else 1)
      (fun l => if wide c.form then [lo32 (H c l), hi32 (H c l)] else [G c l])) := by
  cases h : wide c.form
  · refine r.completes_regs hx (F := fun f => f.writeField c.now lat d.toNat (c.actLanes.map fun l => (l, G c l))) ?_
      (fun f => f.writeField_regs ..) fun _ _ _ a b => ?_
    · simp [h]; rfl
    · simpa using (Writes.one r.active (G c) _).congr a b
  · refine r.completes_regs hx
      (F := fun f => f.writeWords c.now lat d.toNat 2 (c.actLanes.map fun l => (l, [lo32 (H c l), hi32 (H c l)]))) ?_
      (fun f => f.writeWords_regs ..) fun _ _ _ a b => ?_
    · simp [h]; rfl
    · simpa using (Writes.wide r.active 2 (fun l => [lo32 (H c l), hi32 (H c l)]) _).congr a b

theorem Sheaf.predFold_regs (c : Ctx) (lat p : Nat) (G : Nat → Bool) (f : Sheaf) :
    f.RegsOnly (c.actLanes.foldl (fun acc l => acc.writePred c.now lat p l (G l)) f) :=
  Sheaf.fold_regs _ (fun f _ => f.writePred_regs ..) _ _

/-- A word with a predicate result. -/
theorem Runs.pred {i : Instr} {s : State} {c : Ctx} (r : Runs i s c) {lat : Nat} {p : BitVec 3} {G : Ctx → Nat → Bool}
    (hx : exec i s = issueWord i s fun c t => .done (t.resultPred c lat p (G c))) :
    Completes i s c c.after (WritesPred c lat p (G c)) :=
  r.completes_regs hx rfl (fun _ => Sheaf.predFold_regs ..) fun _ _ _ a b => (WritesPred.of c lat p (G c) _).congr a b

/-- A word without results. -/
theorem Runs.nothing {i : Instr} {s : State} {c : Ctx} (r : Runs i s c) (hx : exec i s = issueWord i s fun _ t => .done t) :
    Completes i s c c.after WritesNothing := by
  refine r.completes (F := id) hx rfl (.refl ..) (fun _ hf => hf) (fun f => .refl f) (fun f l _ => ?_) fun f g h a b => WritesNothing.of_same
    ⟨b.v.trans a.v, b.vPoison.trans a.vPoison, b.u.trans a.u, b.uPoison.trans a.uPoison, b.p.trans a.p, b.pending.trans a.pending⟩
  exact ⟨fun _ h => ⟨h, rfl, rfl, rfl, rfl, rfl, rfl⟩, fun _ => rfl⟩

end Sys2Proof.Machine
end

