-- ==== Sys2Proof/Laws/PerInstr.lean ====
section
/-!
SUPPORT. Statements about every instruction, one lemma for each constructor: decoding the word of an instruction gives it back.
-/
namespace Sys2Proof

/-! ### The fields of a word that is put together from fields -/

@[simp] theorem wordY_mkWord (y : Bool) (op : BitVec 7) (g : BitVec 3) (d a b : BitVec 7) : wordY (mkWord y op g d a b) = y := by
  simp only [wordY, mkWord, BitVec.getLsbD_append]
  simp
@[simp] theorem wordOp_mkWord (y : Bool) (op : BitVec 7) (g : BitVec 3) (d a b : BitVec 7) :
    wordOp (mkWord y op g d a b) = op := by
  ext i hi
  simp only [wordOp, mkWord, BitVec.getElem_extractLsb', BitVec.getLsbD_append]
  interval_cases i <;> simp
@[simp] theorem wordG_mkWord (y : Bool) (op : BitVec 7) (g : BitVec 3) (d a b : BitVec 7) :
    wordG (mkWord y op g d a b) = g := by
  ext i hi
  simp only [wordG, mkWord, BitVec.getElem_extractLsb', BitVec.getLsbD_append]
  interval_cases i <;> simp
@[simp] theorem wordD_mkWord (y : Bool) (op : BitVec 7) (g : BitVec 3) (d a b : BitVec 7) :
    wordD (mkWord y op g d a b) = d := by
  ext i hi
  simp only [wordD, mkWord, BitVec.getElem_extractLsb', BitVec.getLsbD_append]
  interval_cases i <;> simp
@[simp] theorem wordA_mkWord (y : Bool) (op : BitVec 7) (g : BitVec 3) (d a b : BitVec 7) :
    wordA (mkWord y op g d a b) = a := by
  ext i hi
  simp only [wordA, mkWord, BitVec.getElem_extractLsb', BitVec.getLsbD_append]
  interval_cases i <;> simp
@[simp] theorem wordB_mkWord (y : Bool) (op : BitVec 7) (g : BitVec 3) (d a b : BitVec 7) :
    wordB (mkWord y op g d a b) = b := by
  ext i hi
  simp only [wordB, mkWord, BitVec.getElem_extractLsb', BitVec.getLsbD_append]
  interval_cases i <;> simp

theorem decode_mkWord (y : Bool) (op : BitVec 7) (g : BitVec 3) (d a b : BitVec 7) (h : ¬ op.toNat < 8) :
    decode (mkWord y op g d a b) = decodeFields y op g d a b := by
  simp [decode, h]

/-! ### Fields within an operand field -/

theorem fields_c10_v3_v3 : ∀ x1 : BitVec 3, ∀ x2 : BitVec 3,
    (0#1 ++ x1 ++ x2)[6] = false ∧ (0#1 ++ x1 ++ x2).extractLsb' 3 3 = x1 ∧ (0#1 ++ x1 ++ x2).extractLsb' 0 3 = x2 := by decide
theorem fields_c11_b1_v5 : ∀ x1 : Bool, ∀ x2 : BitVec 5,
    (1#1 ++ BitVec.ofBool x1 ++ x2)[6] = true ∧ (1#1 ++ BitVec.ofBool x1 ++ x2)[5] = x1 ∧ (1#1 ++ BitVec.ofBool x1 ++ x2).extractLsb' 0 5 = x2 ∧ ¬ 1#1 ++ BitVec.ofBool x1 ++ x2 = 0#7 := by decide
theorem fields_c20_b1_v4 : ∀ x1 : Bool, ∀ x2 : BitVec 4,
    (0#2 ++ BitVec.ofBool x1 ++ x2).extractLsb' 5 2 = 0#2 ∧ (0#2 ++ BitVec.ofBool x1 ++ x2)[4] = x1 ∧ (0#2 ++ BitVec.ofBool x1 ++ x2).extractLsb' 0 4 = x2 := by decide
theorem fields_c20_v2_c30 : ∀ x1 : BitVec 2,
    (0#2 ++ x1 ++ 0#3).extractLsb' 5 2 = 0#2 ∧ (0#2 ++ x1 ++ 0#3).extractLsb' 3 2 = x1 ∧ (0#2 ++ x1 ++ 0#3).extractLsb' 0 3 = 0#3 := by decide
theorem fields_c20_v3_v2 : ∀ x1 : BitVec 3, ∀ x2 : BitVec 2,
    (0#2 ++ x1 ++ x2).extractLsb' 5 2 = 0#2 ∧ (0#2 ++ x1 ++ x2).extractLsb' 2 3 = x1 ∧ (0#2 ++ x1 ++ x2).extractLsb' 0 2 = x2 := by decide
theorem fields_c20_v5 : ∀ x1 : BitVec 5,
    (0#2 ++ x1).extractLsb' 5 2 = 0#2 ∧ (0#2 ++ x1).extractLsb' 0 5 = x1 := by decide
theorem fields_c21_b1_v4 : ∀ x1 : Bool, ∀ x2 : BitVec 4,
    (1#2 ++ BitVec.ofBool x1 ++ x2).extractLsb' 5 2 = 1#2 ∧ (1#2 ++ BitVec.ofBool x1 ++ x2)[4] = x1 ∧ (1#2 ++ BitVec.ofBool x1 ++ x2).extractLsb' 0 4 = x2 := by decide
theorem fields_c21_v2_c30 : ∀ x1 : BitVec 2,
    (1#2 ++ x1 ++ 0#3).extractLsb' 5 2 = 1#2 ∧ (1#2 ++ x1 ++ 0#3).extractLsb' 3 2 = x1 ∧ (1#2 ++ x1 ++ 0#3).extractLsb' 0 3 = 0#3 := by decide
theorem fields_c21_v5 : ∀ x1 : BitVec 5,
    (1#2 ++ x1).extractLsb' 5 2 = 1#2 ∧ (1#2 ++ x1).extractLsb' 0 5 = x1 := by decide
theorem fields_c22_v5 : ∀ x1 : BitVec 5,
    (2#2 ++ x1).extractLsb' 5 2 = 2#2 ∧ (2#2 ++ x1).extractLsb' 0 5 = x1 := by decide
theorem fields_v2_c20_v3 : ∀ x0 : BitVec 2, ∀ x2 : BitVec 3,
    (x0 ++ 0#2 ++ x2).extractLsb' 5 2 = x0 ∧ (x0 ++ 0#2 ++ x2).extractLsb' 3 2 = 0#2 ∧ (x0 ++ 0#2 ++ x2).extractLsb' 0 3 = x2 := by decide
theorem fields_v2_v5 : ∀ x0 : BitVec 2, ∀ x1 : BitVec 5,
    (x0 ++ x1).extractLsb' 5 2 = x0 ∧ (x0 ++ x1).extractLsb' 0 5 = x1 := by decide
theorem fields_c30_v4 : ∀ x1 : BitVec 4,
    (0#3 ++ x1).extractLsb' 4 3 = 0#3 ∧ (0#3 ++ x1).extractLsb' 0 4 = x1 := by decide
theorem fields_v3_c10_v3 : ∀ x0 : BitVec 3, ∀ x2 : BitVec 3,
    (x0 ++ 0#1 ++ x2).extractLsb' 4 3 = x0 ∧ (x0 ++ 0#1 ++ x2)[3] = false ∧ (x0 ++ 0#1 ++ x2).extractLsb' 0 3 = x2 := by decide
theorem fields_v3_b1_v3 : ∀ x0 : BitVec 3, ∀ x1 : Bool, ∀ x2 : BitVec 3,
    (x0 ++ BitVec.ofBool x1 ++ x2).extractLsb' 4 3 = x0 ∧ (x0 ++ BitVec.ofBool x1 ++ x2)[3] = x1 ∧ (x0 ++ BitVec.ofBool x1 ++ x2).extractLsb' 0 3 = x2 := by decide
theorem fields_c40_v3 : ∀ x1 : BitVec 3,
    (0#4 ++ x1).extractLsb' 3 4 = 0#4 ∧ (0#4 ++ x1).extractLsb' 0 3 = x1 := by decide
theorem fields_c415_v3 : ∀ x1 : BitVec 3,
    (15#4 ++ x1).extractLsb' 3 4 = 15#4 ∧ (15#4 ++ x1).extractLsb' 0 3 = x1 := by decide
theorem fields_c44_v3 : ∀ x1 : BitVec 3,
    (4#4 ++ x1).extractLsb' 3 4 = 4#4 ∧ (4#4 ++ x1).extractLsb' 0 3 = x1 := by decide
theorem fields_v4_c20_b1 : ∀ x0 : BitVec 4, ∀ x2 : Bool,
    (x0 ++ 0#2 ++ BitVec.ofBool x2).extractLsb' 3 4 = x0 ∧ (x0 ++ 0#2 ++ BitVec.ofBool x2).extractLsb' 1 2 = 0#2 ∧ (x0 ++ 0#2 ++ BitVec.ofBool x2)[0] = x2 := by decide
theorem fields_v4_c30 : ∀ x0 : BitVec 4,
    (x0 ++ 0#3).extractLsb' 3 4 = x0 ∧ (x0 ++ 0#3).extractLsb' 0 3 = 0#3 := by decide
theorem fields_v4_v3 : ∀ x0 : BitVec 4, ∀ x1 : BitVec 3,
    (x0 ++ x1).extractLsb' 3 4 = x0 ∧ (x0 ++ x1).extractLsb' 0 3 = x1 := by decide
theorem fields_c50_v2 : ∀ x1 : BitVec 2,
    (0#5 ++ x1).extractLsb' 2 5 = 0#5 ∧ (0#5 ++ x1).extractLsb' 0 2 = x1 := by decide
theorem fields_v5_v2 : ∀ x0 : BitVec 5, ∀ x1 : BitVec 2,
    (x0 ++ x1).extractLsb' 2 5 = x0 ∧ (x0 ++ x1).extractLsb' 0 2 = x1 := by decide
theorem fields_c661_b1 : ∀ x1 : Bool,
    (61#6 ++ BitVec.ofBool x1).extractLsb' 1 6 = 61#6 ∧ (61#6 ++ BitVec.ofBool x1)[0] = x1 := by decide

/-! ### Hints -/

@[simp] theorem wordY_hintWord (op : BitVec 7) (p : BitVec 24) : wordY (hintWord op p) = false := by
  simp only [wordY, hintWord, BitVec.getLsbD_append]
  simp
@[simp] theorem wordOp_hintWord (op : BitVec 7) (p : BitVec 24) : wordOp (hintWord op p) = op := by
  ext i hi
  simp only [wordOp, hintWord, BitVec.getElem_extractLsb', BitVec.getLsbD_append]
  interval_cases i <;> simp
@[simp] theorem payload_hintWord (op : BitVec 7) (p : BitVec 24) : (hintWord op p).extractLsb' 0 24 = p := by
  ext i hi
  simp only [hintWord, BitVec.getElem_extractLsb', BitVec.getLsbD_append]
  interval_cases i <;> simp

theorem decode_hintWord (op : BitVec 7) (p : BitVec 24) (h : op.toNat < 8) : decode (hintWord op p) = decodeHint op p := by
  simp [decode, h]

theorem fields_sched (w : BitVec 12) (p q r s : BitVec 3) :
    (w ++ p ++ q ++ r ++ s).extractLsb' 12 12 = w ∧ (w ++ p ++ q ++ r ++ s).extractLsb' 9 3 = p
      ∧ (w ++ p ++ q ++ r ++ s).extractLsb' 6 3 = q ∧ (w ++ p ++ q ++ r ++ s).extractLsb' 3 3 = r
      ∧ (w ++ p ++ q ++ r ++ s).extractLsb' 0 3 = s := by
  refine ⟨?_, ?_, ?_, ?_, ?_⟩ <;> ext i hi <;> simp only [BitVec.getElem_extractLsb', BitVec.getLsbD_append] <;>
    interval_cases i <;> simp

theorem fields_xmod (f c : BitVec 4) (v : Bool) (o : BitVec 3) (p : BitVec 2) (m : BitVec 4) :
    let x := f ++ c ++ BitVec.ofBool v ++ o ++ p ++ m ++ 0#6
    x.extractLsb' 20 4 = f ∧ x.extractLsb' 16 4 = c ∧ x.getLsbD 15 = v ∧ x.extractLsb' 12 3 = o ∧ x.extractLsb' 10 2 = p
      ∧ x.extractLsb' 6 4 = m ∧ x.extractLsb' 0 6 = 0#6 := by
  refine ⟨?_, ?_, ?_, ?_, ?_, ?_, ?_⟩
  case refine_3 => simp only [BitVec.getLsbD_append]; simp
  all_goals
    ext i hi
    simp only [BitVec.getElem_extractLsb', BitVec.getLsbD_append]
    interval_cases i <;> simp

/-! ### One lemma for each constructor -/

namespace Laws.Encoding

/-- Decoding an instruction's word gives the instruction; an event has no word. -/
def Statement (i : Instr) : Prop := ∀ w, encode i = some w → decode w = .ok i

theorem sched (w : BitVec 12) (p : BitVec 3) (q : BitVec 3) (r : BitVec 3) (s : BitVec 3) : Statement (.sched w p q r s) := by
  rintro v ⟨⟩
  rw [decode_hintWord _ _ (by decide)]
  simp [decodeHint, fields_sched]
theorem limm (i : BitVec 24) : Statement (.limm i) := by
  rintro w ⟨⟩
  exact decode_hintWord 1#7 i (by decide)
theorem xmod (f : BitVec 4) (c : BitVec 4) (v : Bool) (o : BitVec 3) (p : BitVec 2) (m : BitVec 4) :
    Statement (.xmod f c v o p m) := by
  rintro w ⟨⟩
  rw [decode_hintWord _ _ (by decide)]
  obtain ⟨h1, h2, h3, h4, h5, h6, h7⟩ := fields_xmod f c v o p m
  simp only [decodeHint, h1, h2, h3, h4, h5, h6, h7]
  rfl
theorem eret (g : BitVec 3) : Statement (.eret g) := by
  rintro w ⟨⟩
  exact decode_mkWord _ 0x08#7 _ _ _ _ (by decide)
theorem exit (g : BitVec 3) : Statement (.exit g) := by
  rintro w ⟨⟩
  exact decode_mkWord _ 0x09#7 _ _ _ _ (by decide)
theorem rdx (y : Bool) (g : BitVec 3) (d : BitVec 7) (a : BitVec 7) : Statement (.rdx y g d a) := by
  rintro w ⟨⟩
  exact decode_mkWord _ 0x0A#7 _ _ _ _ (by decide)
theorem wrx (y : Bool) (g : BitVec 3) (a : BitVec 7) (b : BitVec 7) : Statement (.wrx y g a b) := by
  rintro w ⟨⟩
  exact decode_mkWord _ 0x0B#7 _ _ _ _ (by decide)
theorem movsRd (y : Bool) (g : BitVec 3) (d : BitVec 7) (a : BitVec 7) : Statement (.movsRd y g d a) := by
  rintro w ⟨⟩
  exact decode_mkWord _ 0x0C#7 _ _ _ _ (by decide)
theorem movsWr (y : Bool) (g : BitVec 3) (d : BitVec 7) (a : BitVec 7) : Statement (.movsWr y g d a) := by
  rintro w ⟨⟩
  exact decode_mkWord _ 0x0C#7 _ _ _ _ (by decide)
theorem rdclkCyc (y : Bool) (g : BitVec 3) (d : BitVec 7) : Statement (.rdclkCyc y g d) := by
  rintro w ⟨⟩
  exact decode_mkWord _ 0x0D#7 _ _ _ _ (by decide)
theorem rdclkNs (y : Bool) (g : BitVec 3) (d : BitVec 7) : Statement (.rdclkNs y g d) := by
  rintro w ⟨⟩
  exact decode_mkWord _ 0x0D#7 _ _ _ _ (by decide)
theorem iadd (y : Bool) (g : BitVec 3) (d : BitVec 7) (a : BitVec 7) (b : BitVec 7) : Statement (.iadd y g d a b) := by
  rintro w ⟨⟩
  exact decode_mkWord _ 0x10#7 _ _ _ _ (by decide)
theorem isub (y : Bool) (g : BitVec 3) (d : BitVec 7) (a : BitVec 7) (b : BitVec 7) : Statement (.isub y g d a b) := by
  rintro w ⟨⟩
  exact decode_mkWord _ 0x11#7 _ _ _ _ (by decide)
theorem iaddi (y : Bool) (g : BitVec 3) (d : BitVec 7) (a : BitVec 7) (i : BitVec 7) : Statement (.iaddi y g d a i) := by
  rintro w ⟨⟩
  exact decode_mkWord _ 0x12#7 _ _ _ _ (by decide)
theorem imul (y : Bool) (g : BitVec 3) (d : BitVec 7) (a : BitVec 7) (b : BitVec 7) : Statement (.imul y g d a b) := by
  rintro w ⟨⟩
  exact decode_mkWord _ 0x13#7 _ _ _ _ (by decide)
theorem imulh (y : Bool) (g : BitVec 3) (d : BitVec 7) (a : BitVec 7) (b : BitVec 7) : Statement (.imulh y g d a b) := by
  rintro w ⟨⟩
  exact decode_mkWord _ 0x14#7 _ _ _ _ (by decide)
theorem imad (y : Bool) (g : BitVec 3) (d : BitVec 7) (a : BitVec 7) (b : BitVec 7) : Statement (.imad y g d a b) := by
  rintro w ⟨⟩
  exact decode_mkWord _ 0x15#7 _ _ _ _ (by decide)
theorem imin (y : Bool) (g : BitVec 3) (d : BitVec 7) (a : BitVec 7) (b : BitVec 7) : Statement (.imin y g d a b) := by
  rintro w ⟨⟩
  exact decode_mkWord _ 0x16#7 _ _ _ _ (by decide)
theorem imax (y : Bool) (g : BitVec 3) (d : BitVec 7) (a : BitVec 7) (b : BitVec 7) : Statement (.imax y g d a b) := by
  rintro w ⟨⟩
  exact decode_mkWord _ 0x17#7 _ _ _ _ (by decide)
theorem and (y : Bool) (g : BitVec 3) (d : BitVec 7) (a : BitVec 7) (b : BitVec 7) : Statement (.and y g d a b) := by
  rintro w ⟨⟩
  exact decode_mkWord _ 0x18#7 _ _ _ _ (by decide)
theorem or (y : Bool) (g : BitVec 3) (d : BitVec 7) (a : BitVec 7) (b : BitVec 7) : Statement (.or y g d a b) := by
  rintro w ⟨⟩
  exact decode_mkWord _ 0x19#7 _ _ _ _ (by decide)
theorem xor (y : Bool) (g : BitVec 3) (d : BitVec 7) (a : BitVec 7) (b : BitVec 7) : Statement (.xor y g d a b) := by
  rintro w ⟨⟩
  exact decode_mkWord _ 0x1A#7 _ _ _ _ (by decide)
theorem andn (y : Bool) (g : BitVec 3) (d : BitVec 7) (a : BitVec 7) (b : BitVec 7) : Statement (.andn y g d a b) := by
  rintro w ⟨⟩
  exact decode_mkWord _ 0x1B#7 _ _ _ _ (by decide)
theorem shl (y : Bool) (g : BitVec 3) (d : BitVec 7) (a : BitVec 7) (b : BitVec 7) : Statement (.shl y g d a b) := by
  rintro w ⟨⟩
  exact decode_mkWord _ 0x1C#7 _ _ _ _ (by decide)
theorem shr (y : Bool) (g : BitVec 3) (d : BitVec 7) (a : BitVec 7) (b : BitVec 7) : Statement (.shr y g d a b) := by
  rintro w ⟨⟩
  exact decode_mkWord _ 0x1D#7 _ _ _ _ (by decide)
theorem sar (y : Bool) (g : BitVec 3) (d : BitVec 7) (a : BitVec 7) (b : BitVec 7) : Statement (.sar y g d a b) := by
  rintro w ⟨⟩
  exact decode_mkWord _ 0x1E#7 _ _ _ _ (by decide)
theorem shi (y : Bool) (g : BitVec 3) (d : BitVec 7) (a : BitVec 7) (k : BitVec 2) (c : BitVec 5) :
    Statement (.shi y g d a k c) := by
  rintro w ⟨⟩
  rw [decode_mkWord _ _ _ _ _ _ (by decide)]
  change (fun (y : Bool) (g : BitVec 3) (d a b : BitVec 7) =>
    (.ok (.shi y g d a (b.extractLsb' 5 2) (b.extractLsb' 0 5)) : Except DecodeError Instr)) y g d a (k ++ c) = _
  simp [fields_v2_v5]
theorem bfe (y : Bool) (g : BitVec 3) (d : BitVec 7) (a : BitVec 7) (b : BitVec 7) : Statement (.bfe y g d a b) := by
  rintro w ⟨⟩
  exact decode_mkWord _ 0x20#7 _ _ _ _ (by decide)
theorem bfi (y : Bool) (g : BitVec 3) (d : BitVec 7) (a : BitVec 7) (b : BitVec 7) : Statement (.bfi y g d a b) := by
  rintro w ⟨⟩
  exact decode_mkWord _ 0x21#7 _ _ _ _ (by decide)
theorem popc (y : Bool) (g : BitVec 3) (d : BitVec 7) (a : BitVec 7) : Statement (.popc y g d a) := by
  rintro w ⟨⟩
  exact decode_mkWord _ 0x22#7 _ _ _ _ (by decide)
theorem clz (y : Bool) (g : BitVec 3) (d : BitVec 7) (a : BitVec 7) : Statement (.clz y g d a) := by
  rintro w ⟨⟩
  exact decode_mkWord _ 0x22#7 _ _ _ _ (by decide)
theorem ctz (y : Bool) (g : BitVec 3) (d : BitVec 7) (a : BitVec 7) : Statement (.ctz y g d a) := by
  rintro w ⟨⟩
  exact decode_mkWord _ 0x22#7 _ _ _ _ (by decide)
theorem brev (y : Bool) (g : BitVec 3) (d : BitVec 7) (a : BitVec 7) : Statement (.brev y g d a) := by
  rintro w ⟨⟩
  exact decode_mkWord _ 0x22#7 _ _ _ _ (by decide)
theorem bswap (y : Bool) (g : BitVec 3) (d : BitVec 7) (a : BitVec 7) : Statement (.bswap y g d a) := by
  rintro w ⟨⟩
  exact decode_mkWord _ 0x22#7 _ _ _ _ (by decide)
theorem mov (y : Bool) (g : BitVec 3) (d : BitVec 7) (b : BitVec 7) : Statement (.mov y g d b) := by
  rintro w ⟨⟩
  exact decode_mkWord _ 0x23#7 _ _ _ _ (by decide)
theorem lea (y : Bool) (g : BitVec 3) (d : BitVec 7) (a : BitVec 7) (b : BitVec 7) : Statement (.lea y g d a b) := by
  rintro w ⟨⟩
  exact decode_mkWord _ 0x24#7 _ _ _ _ (by decide)
theorem idot4 (y : Bool) (g : BitVec 3) (d : BitVec 7) (a : BitVec 7) (b : BitVec 7) : Statement (.idot4 y g d a b) := by
  rintro w ⟨⟩
  exact decode_mkWord _ 0x25#7 _ _ _ _ (by decide)
theorem imadw (y : Bool) (g : BitVec 3) (d : BitVec 7) (a : BitVec 7) (b : BitVec 7) : Statement (.imadw y g d a b) := by
  rintro w ⟨⟩
  exact decode_mkWord _ 0x26#7 _ _ _ _ (by decide)
theorem fadd (y : Bool) (g : BitVec 3) (d : BitVec 7) (a : BitVec 7) (b : BitVec 7) : Statement (.fadd y g d a b) := by
  rintro w ⟨⟩
  exact decode_mkWord _ 0x28#7 _ _ _ _ (by decide)
theorem fsub (y : Bool) (g : BitVec 3) (d : BitVec 7) (a : BitVec 7) (b : BitVec 7) : Statement (.fsub y g d a b) := by
  rintro w ⟨⟩
  exact decode_mkWord _ 0x29#7 _ _ _ _ (by decide)
theorem fmul (y : Bool) (g : BitVec 3) (d : BitVec 7) (a : BitVec 7) (b : BitVec 7) : Statement (.fmul y g d a b) := by
  rintro w ⟨⟩
  exact decode_mkWord _ 0x2A#7 _ _ _ _ (by decide)
theorem ffma (y : Bool) (g : BitVec 3) (d : BitVec 7) (a : BitVec 7) (b : BitVec 7) : Statement (.ffma y g d a b) := by
  rintro w ⟨⟩
  exact decode_mkWord _ 0x2B#7 _ _ _ _ (by decide)
theorem fmin (y : Bool) (g : BitVec 3) (d : BitVec 7) (a : BitVec 7) (b : BitVec 7) : Statement (.fmin y g d a b) := by
  rintro w ⟨⟩
  exact decode_mkWord _ 0x2C#7 _ _ _ _ (by decide)
theorem fmax (y : Bool) (g : BitVec 3) (d : BitVec 7) (a : BitVec 7) (b : BitVec 7) : Statement (.fmax y g d a b) := by
  rintro w ⟨⟩
  exact decode_mkWord _ 0x2D#7 _ _ _ _ (by decide)
theorem fabs (y : Bool) (g : BitVec 3) (d : BitVec 7) (a : BitVec 7) : Statement (.fabs y g d a) := by
  rintro w ⟨⟩
  exact decode_mkWord _ 0x2E#7 _ _ _ _ (by decide)
theorem fneg (y : Bool) (g : BitVec 3) (d : BitVec 7) (a : BitVec 7) : Statement (.fneg y g d a) := by
  rintro w ⟨⟩
  exact decode_mkWord _ 0x2E#7 _ _ _ _ (by decide)
theorem fnabs (y : Bool) (g : BitVec 3) (d : BitVec 7) (a : BitVec 7) : Statement (.fnabs y g d a) := by
  rintro w ⟨⟩
  exact decode_mkWord _ 0x2E#7 _ _ _ _ (by decide)
theorem fcls (y : Bool) (g : BitVec 3) (d : BitVec 7) (a : BitVec 7) : Statement (.fcls y g d a) := by
  rintro w ⟨⟩
  exact decode_mkWord _ 0x2F#7 _ _ _ _ (by decide)
theorem fdot2 (y : Bool) (g : BitVec 3) (d : BitVec 7) (a : BitVec 7) (b : BitVec 7) : Statement (.fdot2 y g d a b) := by
  rintro w ⟨⟩
  exact decode_mkWord _ 0x30#7 _ _ _ _ (by decide)
theorem frnd (y : Bool) (g : BitVec 3) (d : BitVec 7) (a : BitVec 7) (r : BitVec 3) : Statement (.frnd y g d a r) := by
  rintro w ⟨⟩
  rw [decode_mkWord _ _ _ _ _ _ (by decide)]
  change (fun (y : Bool) (g : BitVec 3) (d a b : BitVec 7) =>
    (if b.extractLsb' 3 4 == 0#4 then .ok (.frnd y g d a (b.extractLsb' 0 3)) else .error (.reservedField 0x31#7) : Except DecodeError Instr)) y g d a (0#4 ++ r) = _
  simp [fields_c40_v3]
theorem fscl (y : Bool) (g : BitVec 3) (d : BitVec 7) (a : BitVec 7) (b : BitVec 7) : Statement (.fscl y g d a b) := by
  rintro w ⟨⟩
  exact decode_mkWord _ 0x32#7 _ _ _ _ (by decide)
theorem rcp (y : Bool) (g : BitVec 3) (d : BitVec 7) (a : BitVec 7) : Statement (.rcp y g d a) := by
  rintro w ⟨⟩
  exact decode_mkWord _ 0x38#7 _ _ _ _ (by decide)
theorem rsq (y : Bool) (g : BitVec 3) (d : BitVec 7) (a : BitVec 7) : Statement (.rsq y g d a) := by
  rintro w ⟨⟩
  exact decode_mkWord _ 0x38#7 _ _ _ _ (by decide)
theorem sqrt (y : Bool) (g : BitVec 3) (d : BitVec 7) (a : BitVec 7) : Statement (.sqrt y g d a) := by
  rintro w ⟨⟩
  exact decode_mkWord _ 0x38#7 _ _ _ _ (by decide)
theorem ex2 (y : Bool) (g : BitVec 3) (d : BitVec 7) (a : BitVec 7) : Statement (.ex2 y g d a) := by
  rintro w ⟨⟩
  exact decode_mkWord _ 0x38#7 _ _ _ _ (by decide)
theorem lg2 (y : Bool) (g : BitVec 3) (d : BitVec 7) (a : BitVec 7) : Statement (.lg2 y g d a) := by
  rintro w ⟨⟩
  exact decode_mkWord _ 0x38#7 _ _ _ _ (by decide)
theorem sin (y : Bool) (g : BitVec 3) (d : BitVec 7) (a : BitVec 7) : Statement (.sin y g d a) := by
  rintro w ⟨⟩
  exact decode_mkWord _ 0x38#7 _ _ _ _ (by decide)
theorem cos (y : Bool) (g : BitVec 3) (d : BitVec 7) (a : BitVec 7) : Statement (.cos y g d a) := by
  rintro w ⟨⟩
  exact decode_mkWord _ 0x38#7 _ _ _ _ (by decide)
theorem tanh (y : Bool) (g : BitVec 3) (d : BitVec 7) (a : BitVec 7) : Statement (.tanh y g d a) := by
  rintro w ⟨⟩
  exact decode_mkWord _ 0x38#7 _ _ _ _ (by decide)
theorem cvti (y : Bool) (g : BitVec 3) (d : BitVec 7) (a : BitVec 7) (s : BitVec 2) (t : BitVec 5) :
    Statement (.cvti y g d a s t) := by
  rintro w ⟨⟩
  rw [decode_mkWord _ _ _ _ _ _ (by decide)]
  change (fun (y : Bool) (g : BitVec 3) (d a b : BitVec 7) =>
    (.ok (.cvti y g d a (b.extractLsb' 5 2) (b.extractLsb' 0 5)) : Except DecodeError Instr)) y g d a (s ++ t) = _
  simp [fields_v2_v5]
theorem cvtf (y : Bool) (g : BitVec 3) (d : BitVec 7) (a : BitVec 7) (s : BitVec 2) (t : BitVec 5) :
    Statement (.cvtf y g d a s t) := by
  rintro w ⟨⟩
  rw [decode_mkWord _ _ _ _ _ _ (by decide)]
  change (fun (y : Bool) (g : BitVec 3) (d a b : BitVec 7) =>
    (.ok (.cvtf y g d a (b.extractLsb' 5 2) (b.extractLsb' 0 5)) : Except DecodeError Instr)) y g d a (s ++ t) = _
  simp [fields_v2_v5]
theorem cvtb (y : Bool) (g : BitVec 3) (d : BitVec 7) (a : BitVec 7) (s : BitVec 5) (t : BitVec 2) :
    Statement (.cvtb y g d a s t) := by
  rintro w ⟨⟩
  rw [decode_mkWord _ _ _ _ _ _ (by decide)]
  change (fun (y : Bool) (g : BitVec 3) (d a b : BitVec 7) =>
    (.ok (.cvtb y g d a (b.extractLsb' 2 5) (b.extractLsb' 0 2)) : Except DecodeError Instr)) y g d a (s ++ t) = _
  simp [fields_v5_v2]
theorem cvts (y : Bool) (g : BitVec 3) (d : BitVec 7) (a : BitVec 7) (b : BitVec 7) : Statement (.cvts y g d a b) := by
  rintro w ⟨⟩
  exact decode_mkWord _ 0x43#7 _ _ _ _ (by decide)
theorem qblk (y : Bool) (g : BitVec 3) (d : BitVec 7) (a : BitVec 7) (k : BitVec 4) (t : BitVec 3) :
    Statement (.qblk y g d a k t) := by
  rintro w ⟨⟩
  rw [decode_mkWord _ _ _ _ _ _ (by decide)]
  change (fun (y : Bool) (g : BitVec 3) (d a b : BitVec 7) =>
    (.ok (.qblk y g d a (b.extractLsb' 3 4) (b.extractLsb' 0 3)) : Except DecodeError Instr)) y g d a (k ++ t) = _
  simp [fields_v4_v3]
theorem pack (y : Bool) (g : BitVec 3) (d : BitVec 7) (a : BitVec 7) (b : BitVec 7) : Statement (.pack y g d a b) := by
  rintro w ⟨⟩
  exact decode_mkWord _ 0x45#7 _ _ _ _ (by decide)
theorem unpk (y : Bool) (g : BitVec 3) (d : BitVec 7) (a : BitVec 7) (w : BitVec 2) (k : BitVec 3) :
    Statement (.unpk y g d a w k) := by
  rintro w ⟨⟩
  rw [decode_mkWord _ _ _ _ _ _ (by decide)]
  change (fun (y : Bool) (g : BitVec 3) (d a b : BitVec 7) =>
    (if b.extractLsb' 3 2 == 0#2 then .ok (.unpk y g d a (b.extractLsb' 5 2) (b.extractLsb' 0 3)) else .error (.reservedField 0x46#7) : Except DecodeError Instr)) y g d a (w ++ 0#2 ++ k) = _
  simp [fields_v2_c20_v3]
theorem icmp (y : Bool) (g : BitVec 3) (c : BitVec 4) (p : BitVec 3) (a : BitVec 7) (b : BitVec 7) :
    Statement (.icmp y g c p a b) := by
  rintro w ⟨⟩
  rw [decode_mkWord _ _ _ _ _ _ (by decide)]
  change (fun (y : Bool) (g : BitVec 3) (d a b : BitVec 7) =>
    (.ok (.icmp y g (d.extractLsb' 3 4) (d.extractLsb' 0 3) a b) : Except DecodeError Instr)) y g (c ++ p) a b = _
  simp [fields_v4_v3]
theorem fcmp (y : Bool) (g : BitVec 3) (c : BitVec 4) (p : BitVec 3) (a : BitVec 7) (b : BitVec 7) :
    Statement (.fcmp y g c p a b) := by
  rintro w ⟨⟩
  rw [decode_mkWord _ _ _ _ _ _ (by decide)]
  change (fun (y : Bool) (g : BitVec 3) (d a b : BitVec 7) =>
    (.ok (.fcmp y g (d.extractLsb' 3 4) (d.extractLsb' 0 3) a b) : Except DecodeError Instr)) y g (c ++ p) a b = _
  simp [fields_v4_v3]
theorem sel (y : Bool) (g : BitVec 3) (d : BitVec 7) (a : BitVec 7) (b : BitVec 7) : Statement (.sel y g d a b) := by
  rintro w ⟨⟩
  exact decode_mkWord _ 0x4A#7 _ _ _ _ (by decide)
theorem plop (y : Bool) (g : BitVec 3) (p : BitVec 3) (q : BitVec 3) (r : BitVec 3) (t : BitVec 4) :
    Statement (.plop y g p q r t) := by
  rintro w ⟨⟩
  rw [decode_mkWord _ _ _ _ _ _ (by decide)]
  change (fun (y : Bool) (g : BitVec 3) (d a b : BitVec 7) =>
    (if d.extractLsb' 3 4 == 0#4 && !a.getLsbD 6 && b.extractLsb' 4 3 == 0#3 then .ok (.plop y g (d.extractLsb' 0 3) (a.extractLsb' 3 3) (a.extractLsb' 0 3) (b.extractLsb' 0 4)) else .error (.reservedField 0x4B#7) : Except DecodeError Instr)) y g (0#4 ++ p) (0#1 ++ q ++ r) (0#3 ++ t) = _
  simp [fields_c10_v3_v3, fields_c30_v4, fields_c40_v3]
theorem pmovP (y : Bool) (g : BitVec 3) (p : BitVec 3) (a : BitVec 7) : Statement (.pmovP y g p a) := by
  rintro w ⟨⟩
  rw [decode_mkWord _ _ _ _ _ _ (by decide)]
  change (fun (y : Bool) (g : BitVec 3) (d a b : BitVec 7) =>
    (if d.extractLsb' 3 4 == 0#4 && b == 0#7 then .ok (.pmovP y g (d.extractLsb' 0 3) a) else if a.extractLsb' 3 4 == 0#4 && b == 1#7 then .ok (.pmovV y g d (a.extractLsb' 0 3)) else if a == 120#7 && b == 2#7 then .ok (.pmovM y g d) else if d == 120#7 && b == 3#7 then .ok (.pmovS y g a) else .error (.reservedField 0x4C#7) : Except DecodeError Instr)) y g (0#4 ++ p) a 0#7 = _
  simp [fields_c40_v3]
theorem pmovV (y : Bool) (g : BitVec 3) (d : BitVec 7) (p : BitVec 3) : Statement (.pmovV y g d p) := by
  rintro w ⟨⟩
  rw [decode_mkWord _ _ _ _ _ _ (by decide)]
  change (fun (y : Bool) (g : BitVec 3) (d a b : BitVec 7) =>
    (if d.extractLsb' 3 4 == 0#4 && b == 0#7 then .ok (.pmovP y g (d.extractLsb' 0 3) a) else if a.extractLsb' 3 4 == 0#4 && b == 1#7 then .ok (.pmovV y g d (a.extractLsb' 0 3)) else if a == 120#7 && b == 2#7 then .ok (.pmovM y g d) else if d == 120#7 && b == 3#7 then .ok (.pmovS y g a) else .error (.reservedField 0x4C#7) : Except DecodeError Instr)) y g d (0#4 ++ p) 1#7 = _
  simp [fields_c40_v3]
theorem pmovM (y : Bool) (g : BitVec 3) (d : BitVec 7) : Statement (.pmovM y g d) := by
  rintro w ⟨⟩
  rw [decode_mkWord _ _ _ _ _ _ (by decide)]
  change (fun (y : Bool) (g : BitVec 3) (d a b : BitVec 7) =>
    (if d.extractLsb' 3 4 == 0#4 && b == 0#7 then .ok (.pmovP y g (d.extractLsb' 0 3) a) else if a.extractLsb' 3 4 == 0#4 && b == 1#7 then .ok (.pmovV y g d (a.extractLsb' 0 3)) else if a == 120#7 && b == 2#7 then .ok (.pmovM y g d) else if d == 120#7 && b == 3#7 then .ok (.pmovS y g a) else .error (.reservedField 0x4C#7) : Except DecodeError Instr)) y g d 120#7 2#7 = _
  simp
theorem pmovS (y : Bool) (g : BitVec 3) (a : BitVec 7) : Statement (.pmovS y g a) := by
  rintro w ⟨⟩
  rw [decode_mkWord _ _ _ _ _ _ (by decide)]
  change (fun (y : Bool) (g : BitVec 3) (d a b : BitVec 7) =>
    (if d.extractLsb' 3 4 == 0#4 && b == 0#7 then .ok (.pmovP y g (d.extractLsb' 0 3) a) else if a.extractLsb' 3 4 == 0#4 && b == 1#7 then .ok (.pmovV y g d (a.extractLsb' 0 3)) else if a == 120#7 && b == 2#7 then .ok (.pmovM y g d) else if d == 120#7 && b == 3#7 then .ok (.pmovS y g a) else .error (.reservedField 0x4C#7) : Except DecodeError Instr)) y g 120#7 a 3#7 = _
  simp
theorem icmpi (y : Bool) (g : BitVec 3) (c : BitVec 4) (p : BitVec 3) (a : BitVec 7) (i : BitVec 7) :
    Statement (.icmpi y g c p a i) := by
  rintro w ⟨⟩
  rw [decode_mkWord _ _ _ _ _ _ (by decide)]
  change (fun (y : Bool) (g : BitVec 3) (d a b : BitVec 7) =>
    (.ok (.icmpi y g (d.extractLsb' 3 4) (d.extractLsb' 0 3) a b) : Except DecodeError Instr)) y g (c ++ p) a i = _
  simp [fields_v4_v3]
theorem shfl (y : Bool) (g : BitVec 3) (d : BitVec 7) (a : BitVec 7) (b : BitVec 7) : Statement (.shfl y g d a b) := by
  rintro w ⟨⟩
  exact decode_mkWord _ 0x50#7 _ _ _ _ (by decide)
theorem voteAll (y : Bool) (g : BitVec 3) (p : BitVec 3) (q : BitVec 3) : Statement (.voteAll y g p q) := by
  rintro w ⟨⟩
  rw [decode_mkWord _ _ _ _ _ _ (by decide)]
  change (fun (y : Bool) (g : BitVec 3) (d a b : BitVec 7) =>
    (if d.extractLsb' 3 4 == 0#4 && a.extractLsb' 3 4 == 0#4 && b == 0#7 then .ok (.voteAll y g (d.extractLsb' 0 3) (a.extractLsb' 0 3)) else if d.extractLsb' 3 4 == 0#4 && a.extractLsb' 3 4 == 0#4 && b == 1#7 then .ok (.voteAny y g (d.extractLsb' 0 3) (a.extractLsb' 0 3)) else if a.extractLsb' 3 4 == 0#4 && b == 2#7 then .ok (.voteBallot y g d (a.extractLsb' 0 3)) else if d.extractLsb' 3 4 == 0#4 && b == 3#7 then .ok (.voteUni y g (d.extractLsb' 0 3) a) else .error (.reservedField 0x51#7) : Except DecodeError Instr)) y g (0#4 ++ p) (0#4 ++ q) 0#7 = _
  simp [fields_c40_v3]
theorem voteAny (y : Bool) (g : BitVec 3) (p : BitVec 3) (q : BitVec 3) : Statement (.voteAny y g p q) := by
  rintro w ⟨⟩
  rw [decode_mkWord _ _ _ _ _ _ (by decide)]
  change (fun (y : Bool) (g : BitVec 3) (d a b : BitVec 7) =>
    (if d.extractLsb' 3 4 == 0#4 && a.extractLsb' 3 4 == 0#4 && b == 0#7 then .ok (.voteAll y g (d.extractLsb' 0 3) (a.extractLsb' 0 3)) else if d.extractLsb' 3 4 == 0#4 && a.extractLsb' 3 4 == 0#4 && b == 1#7 then .ok (.voteAny y g (d.extractLsb' 0 3) (a.extractLsb' 0 3)) else if a.extractLsb' 3 4 == 0#4 && b == 2#7 then .ok (.voteBallot y g d (a.extractLsb' 0 3)) else if d.extractLsb' 3 4 == 0#4 && b == 3#7 then .ok (.voteUni y g (d.extractLsb' 0 3) a) else .error (.reservedField 0x51#7) : Except DecodeError Instr)) y g (0#4 ++ p) (0#4 ++ q) 1#7 = _
  simp [fields_c40_v3]
theorem voteBallot (y : Bool) (g : BitVec 3) (d : BitVec 7) (q : BitVec 3) : Statement (.voteBallot y g d q) := by
  rintro w ⟨⟩
  rw [decode_mkWord _ _ _ _ _ _ (by decide)]
  change (fun (y : Bool) (g : BitVec 3) (d a b : BitVec 7) =>
    (if d.extractLsb' 3 4 == 0#4 && a.extractLsb' 3 4 == 0#4 && b == 0#7 then .ok (.voteAll y g (d.extractLsb' 0 3) (a.extractLsb' 0 3)) else if d.extractLsb' 3 4 == 0#4 && a.extractLsb' 3 4 == 0#4 && b == 1#7 then .ok (.voteAny y g (d.extractLsb' 0 3) (a.extractLsb' 0 3)) else if a.extractLsb' 3 4 == 0#4 && b == 2#7 then .ok (.voteBallot y g d (a.extractLsb' 0 3)) else if d.extractLsb' 3 4 == 0#4 && b == 3#7 then .ok (.voteUni y g (d.extractLsb' 0 3) a) else .error (.reservedField 0x51#7) : Except DecodeError Instr)) y g d (0#4 ++ q) 2#7 = _
  simp [fields_c40_v3]
theorem voteUni (y : Bool) (g : BitVec 3) (p : BitVec 3) (a : BitVec 7) : Statement (.voteUni y g p a) := by
  rintro w ⟨⟩
  rw [decode_mkWord _ _ _ _ _ _ (by decide)]
  change (fun (y : Bool) (g : BitVec 3) (d a b : BitVec 7) =>
    (if d.extractLsb' 3 4 == 0#4 && a.extractLsb' 3 4 == 0#4 && b == 0#7 then .ok (.voteAll y g (d.extractLsb' 0 3) (a.extractLsb' 0 3)) else if d.extractLsb' 3 4 == 0#4 && a.extractLsb' 3 4 == 0#4 && b == 1#7 then .ok (.voteAny y g (d.extractLsb' 0 3) (a.extractLsb' 0 3)) else if a.extractLsb' 3 4 == 0#4 && b == 2#7 then .ok (.voteBallot y g d (a.extractLsb' 0 3)) else if d.extractLsb' 3 4 == 0#4 && b == 3#7 then .ok (.voteUni y g (d.extractLsb' 0 3) a) else .error (.reservedField 0x51#7) : Except DecodeError Instr)) y g (0#4 ++ p) a 3#7 = _
  simp [fields_c40_v3]
theorem red (y : Bool) (g : BitVec 3) (d : BitVec 7) (a : BitVec 7) (o : BitVec 3) (t : BitVec 3) :
    Statement (.red y g d a o t) := by
  rintro w ⟨⟩
  rw [decode_mkWord _ _ _ _ _ _ (by decide)]
  change (fun (y : Bool) (g : BitVec 3) (d a b : BitVec 7) =>
    (if !b.getLsbD 3 then .ok (.red y g d a (b.extractLsb' 4 3) (b.extractLsb' 0 3)) else .error (.reservedField 0x52#7) : Except DecodeError Instr)) y g d a (o ++ 0#1 ++ t) = _
  simp [fields_v3_c10_v3]
theorem scanl (y : Bool) (g : BitVec 3) (d : BitVec 7) (a : BitVec 7) (o : BitVec 3) (x : Bool) (t : BitVec 3) :
    Statement (.scanl y g d a o x t) := by
  rintro w ⟨⟩
  rw [decode_mkWord _ _ _ _ _ _ (by decide)]
  change (fun (y : Bool) (g : BitVec 3) (d a b : BitVec 7) =>
    (.ok (.scanl y g d a (b.extractLsb' 4 3) (b.getLsbD 3) (b.extractLsb' 0 3)) : Except DecodeError Instr)) y g d a (o ++ BitVec.ofBool x ++ t) = _
  simp [fields_v3_b1_v3]
theorem conf (y : Bool) (g : BitVec 3) (d : BitVec 7) (a : BitVec 7) : Statement (.conf y g d a) := by
  rintro w ⟨⟩
  exact decode_mkWord _ 0x54#7 _ _ _ _ (by decide)
theorem bcast (y : Bool) (g : BitVec 3) (d : BitVec 7) (a : BitVec 7) : Statement (.bcast y g d a) := by
  rintro w ⟨⟩
  exact decode_mkWord _ 0x55#7 _ _ _ _ (by decide)
theorem bra (y : Bool) (g : BitVec 3) (i : BitVec 7) : Statement (.bra y g i) := by
  rintro w ⟨⟩
  exact decode_mkWord _ 0x58#7 _ _ _ _ (by decide)
theorem call (y : Bool) (g : BitVec 3) (d : BitVec 7) (i : BitVec 7) : Statement (.call y g d i) := by
  rintro w ⟨⟩
  exact decode_mkWord _ 0x59#7 _ _ _ _ (by decide)
theorem ret (y : Bool) (g : BitVec 3) (a : BitVec 7) : Statement (.ret y g a) := by
  rintro w ⟨⟩
  exact decode_mkWord _ 0x5A#7 _ _ _ _ (by decide)
theorem join (y : Bool) (g : BitVec 3) : Statement (.join y g) := by
  rintro w ⟨⟩
  exact decode_mkWord _ 0x5B#7 _ _ _ _ (by decide)
theorem joinM (y : Bool) (g : BitVec 3) (a : BitVec 7) : Statement (.joinM y g a) := by
  rintro w ⟨⟩
  rw [decode_mkWord _ _ _ _ _ _ (by decide)]
  change (fun (y : Bool) (g : BitVec 3) (d a b : BitVec 7) =>
    (if d == 120#7 && a == 120#7 && b == 0#7 then .ok (.join y g) else if d == 120#7 && b == 1#7 then .ok (.joinM y g a) else .error (.reservedField 0x5B#7) : Except DecodeError Instr)) y g 120#7 a 1#7 = _
  simp
theorem loop (y : Bool) (n : BitVec 2) (a : BitVec 7) (i : BitVec 7) : Statement (.loop y n a i) := by
  rintro w ⟨⟩
  rw [decode_mkWord _ _ _ _ _ _ (by decide)]
  change (fun (y : Bool) (g : BitVec 3) (d a b : BitVec 7) =>
    (if g == 7#3 && d.extractLsb' 2 5 == 0#5 then .ok (.loop y (d.extractLsb' 0 2) a b) else .error (.reservedField 0x5C#7) : Except DecodeError Instr)) y 7#3 (0#5 ++ n) a i = _
  simp [fields_c50_v2]
theorem endl (y : Bool) (n : BitVec 2) (i : BitVec 7) : Statement (.endl y n i) := by
  rintro w ⟨⟩
  rw [decode_mkWord _ _ _ _ _ _ (by decide)]
  change (fun (y : Bool) (g : BitVec 3) (d a b : BitVec 7) =>
    (if g == 7#3 && d.extractLsb' 2 5 == 0#5 && a == 120#7 then .ok (.endl y (d.extractLsb' 0 2) b) else .error (.reservedField 0x5D#7) : Except DecodeError Instr)) y 7#3 (0#5 ++ n) 120#7 i = _
  simp [fields_c50_v2]
theorem lwait (y : Bool) (g : BitVec 3) (f : BitVec 4) : Statement (.lwait y g f) := by
  rintro w ⟨⟩
  rw [decode_mkWord _ _ _ _ _ _ (by decide)]
  change (fun (y : Bool) (g : BitVec 3) (d a b : BitVec 7) =>
    (if d == 120#7 && a == 120#7 && b.extractLsb' 0 3 == 0#3 then .ok (.lwait y g (b.extractLsb' 3 4)) else .error (.reservedField 0x5E#7) : Except DecodeError Instr)) y g 120#7 120#7 (f ++ 0#3) = _
  simp [fields_v4_c30]
theorem brx (y : Bool) (g : BitVec 3) (a : BitVec 7) (b : BitVec 7) : Statement (.brx y g a b) := by
  rintro w ⟨⟩
  exact decode_mkWord _ 0x5F#7 _ _ _ _ (by decide)
theorem ld (y : Bool) (g : BitVec 3) (d : BitVec 7) (a : BitVec 7) (f : BitVec 4) (m : BitVec 3) :
    Statement (.ld y g d a f m) := by
  rintro w ⟨⟩
  rw [decode_mkWord _ _ _ _ _ _ (by decide)]
  change (fun (y : Bool) (g : BitVec 3) (d a b : BitVec 7) =>
    (.ok (.ld y g d a (b.extractLsb' 3 4) (b.extractLsb' 0 3)) : Except DecodeError Instr)) y g d a (f ++ m) = _
  simp [fields_v4_v3]
theorem st (y : Bool) (g : BitVec 3) (d : BitVec 7) (a : BitVec 7) (m : BitVec 3) : Statement (.st y g d a m) := by
  rintro w ⟨⟩
  rw [decode_mkWord _ _ _ _ _ _ (by decide)]
  change (fun (y : Bool) (g : BitVec 3) (d a b : BitVec 7) =>
    (if b.extractLsb' 3 4 == 15#4 then .ok (.st y g d a (b.extractLsb' 0 3)) else .error (.reservedField 0x61#7) : Except DecodeError Instr)) y g d a (15#4 ++ m) = _
  simp [fields_c415_v3]
theorem ldv (y : Bool) (g : BitVec 3) (d : BitVec 7) (a : BitVec 7) (f : BitVec 4) (m : BitVec 3) :
    Statement (.ldv y g d a f m) := by
  rintro w ⟨⟩
  rw [decode_mkWord _ _ _ _ _ _ (by decide)]
  change (fun (y : Bool) (g : BitVec 3) (d a b : BitVec 7) =>
    (.ok (.ldv y g d a (b.extractLsb' 3 4) (b.extractLsb' 0 3)) : Except DecodeError Instr)) y g d a (f ++ m) = _
  simp [fields_v4_v3]
theorem stv (y : Bool) (g : BitVec 3) (d : BitVec 7) (a : BitVec 7) (m : BitVec 3) : Statement (.stv y g d a m) := by
  rintro w ⟨⟩
  rw [decode_mkWord _ _ _ _ _ _ (by decide)]
  change (fun (y : Bool) (g : BitVec 3) (d a b : BitVec 7) =>
    (if b.extractLsb' 3 4 == 15#4 then .ok (.stv y g d a (b.extractLsb' 0 3)) else .error (.reservedField 0x63#7) : Except DecodeError Instr)) y g d a (15#4 ++ m) = _
  simp [fields_c415_v3]
theorem stq (y : Bool) (g : BitVec 3) (d : BitVec 7) (a : BitVec 7) (f : BitVec 4) (m : BitVec 3) :
    Statement (.stq y g d a f m) := by
  rintro w ⟨⟩
  rw [decode_mkWord _ _ _ _ _ _ (by decide)]
  change (fun (y : Bool) (g : BitVec 3) (d a b : BitVec 7) =>
    (.ok (.stq y g d a (b.extractLsb' 3 4) (b.extractLsb' 0 3)) : Except DecodeError Instr)) y g d a (f ++ m) = _
  simp [fields_v4_v3]
theorem prf (y : Bool) (g : BitVec 3) (a : BitVec 7) (m : Bool) : Statement (.prf y g a m) := by
  rintro w ⟨⟩
  rw [decode_mkWord _ _ _ _ _ _ (by decide)]
  change (fun (y : Bool) (g : BitVec 3) (d a b : BitVec 7) =>
    (if d == 120#7 && b.extractLsb' 1 6 == 61#6 then .ok (.prf y g a (b.getLsbD 0)) else .error (.reservedField 0x65#7) : Except DecodeError Instr)) y g 120#7 a (61#6 ++ BitVec.ofBool m) = _
  simp [fields_c661_b1]
theorem lds (y : Bool) (g : BitVec 3) (d : BitVec 7) (a : BitVec 7) (f : BitVec 4) (m : BitVec 3) :
    Statement (.lds y g d a f m) := by
  rintro w ⟨⟩
  rw [decode_mkWord _ _ _ _ _ _ (by decide)]
  change (fun (y : Bool) (g : BitVec 3) (d a b : BitVec 7) =>
    (.ok (.lds y g d a (b.extractLsb' 3 4) (b.extractLsb' 0 3)) : Except DecodeError Instr)) y g d a (f ++ m) = _
  simp [fields_v4_v3]
theorem qrd (y : Bool) (g : BitVec 3) (d : BitVec 7) (n : BitVec 3) (f : BitVec 4) : Statement (.qrd y g d n f) := by
  rintro w ⟨⟩
  rw [decode_mkWord _ _ _ _ _ _ (by decide)]
  change (fun (y : Bool) (g : BitVec 3) (d a b : BitVec 7) =>
    (if a.extractLsb' 3 4 == 0#4 && b.extractLsb' 0 3 == 0#3 then .ok (.qrd y g d (a.extractLsb' 0 3) (b.extractLsb' 3 4)) else .error (.reservedField 0x67#7) : Except DecodeError Instr)) y g d (0#4 ++ n) (f ++ 0#3) = _
  simp [fields_c40_v3, fields_v4_c30]
theorem qwr (y : Bool) (g : BitVec 3) (d : BitVec 7) (n : BitVec 3) (f : BitVec 4) : Statement (.qwr y g d n f) := by
  rintro w ⟨⟩
  rw [decode_mkWord _ _ _ _ _ _ (by decide)]
  change (fun (y : Bool) (g : BitVec 3) (d a b : BitVec 7) =>
    (if a.extractLsb' 3 4 == 0#4 && b.extractLsb' 0 3 == 0#3 then .ok (.qwr y g d (a.extractLsb' 0 3) (b.extractLsb' 3 4)) else .error (.reservedField 0x68#7) : Except DecodeError Instr)) y g d (0#4 ++ n) (f ++ 0#3) = _
  simp [fields_c40_v3, fields_v4_c30]
theorem atom (y : Bool) (g : BitVec 3) (d : BitVec 7) (a : BitVec 7) (f : BitVec 4) (m : BitVec 3) :
    Statement (.atom y g d a f m) := by
  rintro w ⟨⟩
  rw [decode_mkWord _ _ _ _ _ _ (by decide)]
  change (fun (y : Bool) (g : BitVec 3) (d a b : BitVec 7) =>
    (.ok (.atom y g d a (b.extractLsb' 3 4) (b.extractLsb' 0 3)) : Except DecodeError Instr)) y g d a (f ++ m) = _
  simp [fields_v4_v3]
theorem cas (y : Bool) (g : BitVec 3) (d : BitVec 7) (a : BitVec 7) (f : BitVec 4) (m : BitVec 3) :
    Statement (.cas y g d a f m) := by
  rintro w ⟨⟩
  rw [decode_mkWord _ _ _ _ _ _ (by decide)]
  change (fun (y : Bool) (g : BitVec 3) (d a b : BitVec 7) =>
    (.ok (.cas y g d a (b.extractLsb' 3 4) (b.extractLsb' 0 3)) : Except DecodeError Instr)) y g d a (f ++ m) = _
  simp [fields_v4_v3]
theorem atomf (y : Bool) (g : BitVec 3) (d : BitVec 7) (a : BitVec 7) (f : BitVec 4) (m : BitVec 3) :
    Statement (.atomf y g d a f m) := by
  rintro w ⟨⟩
  rw [decode_mkWord _ _ _ _ _ _ (by decide)]
  change (fun (y : Bool) (g : BitVec 3) (d a b : BitVec 7) =>
    (.ok (.atomf y g d a (b.extractLsb' 3 4) (b.extractLsb' 0 3)) : Except DecodeError Instr)) y g d a (f ++ m) = _
  simp [fields_v4_v3]
theorem atst (y : Bool) (g : BitVec 3) (d : BitVec 7) (a : BitVec 7) (f : BitVec 4) (m : BitVec 3) :
    Statement (.atst y g d a f m) := by
  rintro w ⟨⟩
  rw [decode_mkWord _ _ _ _ _ _ (by decide)]
  change (fun (y : Bool) (g : BitVec 3) (d a b : BitVec 7) =>
    (.ok (.atst y g d a (b.extractLsb' 3 4) (b.extractLsb' 0 3)) : Except DecodeError Instr)) y g d a (f ++ m) = _
  simp [fields_v4_v3]
theorem mclaim (y : Bool) (g : BitVec 3) (d : BitVec 7) (n : BitVec 5) (c : BitVec 5) : Statement (.mclaim y g d n c) := by
  rintro w ⟨⟩
  rw [decode_mkWord _ _ _ _ _ _ (by decide)]
  change (fun (y : Bool) (g : BitVec 3) (d a b : BitVec 7) =>
    (if a.extractLsb' 5 2 == 0#2 && b.extractLsb' 5 2 == 0#2 then .ok (.mclaim y g d (a.extractLsb' 0 5) (b.extractLsb' 0 5)) else if d == 120#7 && a.extractLsb' 5 2 == 0#2 && b.extractLsb' 5 2 == 1#2 then .ok (.mrel y g (a.extractLsb' 0 5) (b.extractLsb' 0 5)) else if b.extractLsb' 5 2 == 2#2 then .ok (.mbind y g d a (b.extractLsb' 0 5)) else .error (.reservedField 0x70#7) : Except DecodeError Instr)) y g d (0#2 ++ n) (0#2 ++ c) = _
  simp [fields_c20_v5]
theorem mrel (y : Bool) (g : BitVec 3) (n : BitVec 5) (c : BitVec 5) : Statement (.mrel y g n c) := by
  rintro w ⟨⟩
  rw [decode_mkWord _ _ _ _ _ _ (by decide)]
  change (fun (y : Bool) (g : BitVec 3) (d a b : BitVec 7) =>
    (if a.extractLsb' 5 2 == 0#2 && b.extractLsb' 5 2 == 0#2 then .ok (.mclaim y g d (a.extractLsb' 0 5) (b.extractLsb' 0 5)) else if d == 120#7 && a.extractLsb' 5 2 == 0#2 && b.extractLsb' 5 2 == 1#2 then .ok (.mrel y g (a.extractLsb' 0 5) (b.extractLsb' 0 5)) else if b.extractLsb' 5 2 == 2#2 then .ok (.mbind y g d a (b.extractLsb' 0 5)) else .error (.reservedField 0x70#7) : Except DecodeError Instr)) y g 120#7 (0#2 ++ n) (1#2 ++ c) = _
  simp [fields_c20_v5, fields_c21_v5]
theorem mbind (y : Bool) (g : BitVec 3) (h : BitVec 7) (a : BitVec 7) (n : BitVec 5) : Statement (.mbind y g h a n) := by
  rintro w ⟨⟩
  rw [decode_mkWord _ _ _ _ _ _ (by decide)]
  change (fun (y : Bool) (g : BitVec 3) (d a b : BitVec 7) =>
    (if a.extractLsb' 5 2 == 0#2 && b.extractLsb' 5 2 == 0#2 then .ok (.mclaim y g d (a.extractLsb' 0 5) (b.extractLsb' 0 5)) else if d == 120#7 && a.extractLsb' 5 2 == 0#2 && b.extractLsb' 5 2 == 1#2 then .ok (.mrel y g (a.extractLsb' 0 5) (b.extractLsb' 0 5)) else if b.extractLsb' 5 2 == 2#2 then .ok (.mbind y g d a (b.extractLsb' 0 5)) else .error (.reservedField 0x70#7) : Except DecodeError Instr)) y g h a (2#2 ++ n) = _
  simp [fields_c22_v5]
theorem mma (y : Bool) (g : BitVec 3) (d : BitVec 7) (n : BitVec 5) (b : BitVec 5) : Statement (.mma y g d n b) := by
  rintro w ⟨⟩
  rw [decode_mkWord _ _ _ _ _ _ (by decide)]
  change (fun (y : Bool) (g : BitVec 3) (d a b : BitVec 7) =>
    (if a.extractLsb' 5 2 == 0#2 && b.extractLsb' 5 2 == 0#2 then .ok (.mma y g d (a.extractLsb' 0 5) (b.extractLsb' 0 5)) else if a.extractLsb' 5 2 == 0#2 && b.extractLsb' 5 2 == 1#2 then .ok (.mmas y g d (a.extractLsb' 0 5) (b.extractLsb' 0 5)) else if a.extractLsb' 5 2 == 0#2 && b.extractLsb' 5 2 == 2#2 then .ok (.mmab y g d (a.extractLsb' 0 5) (b.extractLsb' 0 5)) else .error (.reservedField 0x71#7) : Except DecodeError Instr)) y g d (0#2 ++ n) (0#2 ++ b) = _
  simp [fields_c20_v5]
theorem mmas (y : Bool) (g : BitVec 3) (d : BitVec 7) (n : BitVec 5) (b : BitVec 5) : Statement (.mmas y g d n b) := by
  rintro w ⟨⟩
  rw [decode_mkWord _ _ _ _ _ _ (by decide)]
  change (fun (y : Bool) (g : BitVec 3) (d a b : BitVec 7) =>
    (if a.extractLsb' 5 2 == 0#2 && b.extractLsb' 5 2 == 0#2 then .ok (.mma y g d (a.extractLsb' 0 5) (b.extractLsb' 0 5)) else if a.extractLsb' 5 2 == 0#2 && b.extractLsb' 5 2 == 1#2 then .ok (.mmas y g d (a.extractLsb' 0 5) (b.extractLsb' 0 5)) else if a.extractLsb' 5 2 == 0#2 && b.extractLsb' 5 2 == 2#2 then .ok (.mmab y g d (a.extractLsb' 0 5) (b.extractLsb' 0 5)) else .error (.reservedField 0x71#7) : Except DecodeError Instr)) y g d (0#2 ++ n) (1#2 ++ b) = _
  simp [fields_c20_v5, fields_c21_v5]
theorem mmab (y : Bool) (g : BitVec 3) (d : BitVec 7) (n : BitVec 5) (b : BitVec 5) : Statement (.mmab y g d n b) := by
  rintro w ⟨⟩
  rw [decode_mkWord _ _ _ _ _ _ (by decide)]
  change (fun (y : Bool) (g : BitVec 3) (d a b : BitVec 7) =>
    (if a.extractLsb' 5 2 == 0#2 && b.extractLsb' 5 2 == 0#2 then .ok (.mma y g d (a.extractLsb' 0 5) (b.extractLsb' 0 5)) else if a.extractLsb' 5 2 == 0#2 && b.extractLsb' 5 2 == 1#2 then .ok (.mmas y g d (a.extractLsb' 0 5) (b.extractLsb' 0 5)) else if a.extractLsb' 5 2 == 0#2 && b.extractLsb' 5 2 == 2#2 then .ok (.mmab y g d (a.extractLsb' 0 5) (b.extractLsb' 0 5)) else .error (.reservedField 0x71#7) : Except DecodeError Instr)) y g d (0#2 ++ n) (2#2 ++ b) = _
  simp [fields_c20_v5, fields_c22_v5]
theorem amovRd (y : Bool) (g : BitVec 3) (d : BitVec 7) (a : BitVec 7) (f : BitVec 4) : Statement (.amovRd y g d a f) := by
  rintro w ⟨⟩
  rw [decode_mkWord _ _ _ _ _ _ (by decide)]
  change (fun (y : Bool) (g : BitVec 3) (d a b : BitVec 7) =>
    (if b.extractLsb' 0 3 == 0#3 then .ok (.amovRd y g d a (b.extractLsb' 3 4)) else if b == 121#7 then .ok (.amovWr y g d a) else .error (.reservedField 0x72#7) : Except DecodeError Instr)) y g d a (f ++ 0#3) = _
  simp [fields_v4_c30]
theorem amovWr (y : Bool) (g : BitVec 3) (d : BitVec 7) (a : BitVec 7) : Statement (.amovWr y g d a) := by
  rintro w ⟨⟩
  exact decode_mkWord _ 0x72#7 _ _ _ _ (by decide)
theorem azero (y : Bool) (g : BitVec 3) (d : BitVec 7) (a : BitVec 7) : Statement (.azero y g d a) := by
  rintro w ⟨⟩
  exact decode_mkWord _ 0x73#7 _ _ _ _ (by decide)
theorem acvt (y : Bool) (g : BitVec 3) (d : BitVec 7) (a : BitVec 7) (c : Bool) (t : BitVec 5) :
    Statement (.acvt y g d a c t) := by
  rintro w ⟨⟩
  rw [decode_mkWord _ _ _ _ _ _ (by decide)]
  change (fun (y : Bool) (g : BitVec 3) (d a b : BitVec 7) =>
    (if b == 0#7 then .ok (.azero y g d a) else if b.getLsbD 6 then .ok (.acvt y g d a (b.getLsbD 5) (b.extractLsb' 0 5)) else .error (.reservedField 0x73#7) : Except DecodeError Instr)) y g d a (1#1 ++ BitVec.ofBool c ++ t) = _
  simp [fields_c11_b1_v5]
theorem qmv (y : Bool) (g : BitVec 3) (d : BitVec 7) (a : BitVec 7) : Statement (.qmv y g d a) := by
  rintro w ⟨⟩
  exact decode_mkWord _ 0x74#7 _ _ _ _ (by decide)
theorem rjoin (y : Bool) (g : BitVec 3) (a : BitVec 7) : Statement (.rjoin y g a) := by
  rintro w ⟨⟩
  exact decode_mkWord _ 0x74#7 _ _ _ _ (by decide)
theorem copy (y : Bool) (g : BitVec 3) (h : BitVec 7) (a : BitVec 7) (q : BitVec 3) (m : Bool) (r : BitVec 3) :
    Statement (.copy y g h a q m r) := by
  rintro w ⟨⟩
  rw [decode_mkWord _ _ _ _ _ _ (by decide)]
  change (fun (y : Bool) (g : BitVec 3) (d a b : BitVec 7) =>
    (.ok (.copy y g d a (b.extractLsb' 4 3) (b.getLsbD 3) (b.extractLsb' 0 3)) : Except DecodeError Instr)) y g h a (q ++ BitVec.ofBool m ++ r) = _
  simp [fields_v3_b1_v3]
theorem gather (y : Bool) (g : BitVec 3) (h : BitVec 7) (a : BitVec 7) : Statement (.gather y g h a) := by
  rintro w ⟨⟩
  exact decode_mkWord _ 0x76#7 _ _ _ _ (by decide)
theorem sbind (y : Bool) (g : BitVec 3) (n : BitVec 3) (a : BitVec 7) : Statement (.sbind y g n a) := by
  rintro w ⟨⟩
  rw [decode_mkWord _ _ _ _ _ _ (by decide)]
  change (fun (y : Bool) (g : BitVec 3) (d a b : BitVec 7) =>
    (if b == 0#7 then .ok (.gather y g d a) else if d.extractLsb' 3 4 == 0#4 && b == 1#7 then .ok (.sbind y g (d.extractLsb' 0 3) a) else if d == 120#7 && b == 2#7 then .ok (.stream y g a) else if d == 120#7 && b == 3#7 then .ok (.streamPost y g a) else .error (.reservedField 0x76#7) : Except DecodeError Instr)) y g (0#4 ++ n) a 1#7 = _
  simp [fields_c40_v3]
theorem stream (y : Bool) (g : BitVec 3) (a : BitVec 7) : Statement (.stream y g a) := by
  rintro w ⟨⟩
  exact decode_mkWord _ 0x76#7 _ _ _ _ (by decide)
theorem streamPost (y : Bool) (g : BitVec 3) (h : BitVec 7) : Statement (.streamPost y g h) := by
  rintro w ⟨⟩
  exact decode_mkWord _ 0x76#7 _ _ _ _ (by decide)
theorem hwaitFree (y : Bool) (g : BitVec 3) (h : BitVec 7) : Statement (.hwaitFree y g h) := by
  rintro w ⟨⟩
  exact decode_mkWord _ 0x77#7 _ _ _ _ (by decide)
theorem hwaitFull (y : Bool) (g : BitVec 3) (h : BitVec 7) : Statement (.hwaitFull y g h) := by
  rintro w ⟨⟩
  exact decode_mkWord _ 0x77#7 _ _ _ _ (by decide)
theorem hrel (y : Bool) (g : BitVec 3) (h : BitVec 7) : Statement (.hrel y g h) := by
  rintro w ⟨⟩
  exact decode_mkWord _ 0x77#7 _ _ _ _ (by decide)
theorem hstat (y : Bool) (g : BitVec 3) (d : BitVec 7) (h : BitVec 7) : Statement (.hstat y g d h) := by
  rintro w ⟨⟩
  rw [decode_mkWord _ _ _ _ _ _ (by decide)]
  change (fun (y : Bool) (g : BitVec 3) (d a b : BitVec 7) =>
    (if d == 120#7 && b == 0#7 then .ok (.hwaitFree y g a) else if d == 120#7 && b == 1#7 then .ok (.hwaitFull y g a) else if d == 120#7 && b == 2#7 then .ok (.hrel y g a) else if b == 3#7 then .ok (.hstat y g d a) else .error (.reservedField 0x77#7) : Except DecodeError Instr)) y g d h 3#7 = _
  simp
theorem scfg (y : Bool) (g : BitVec 3) (s : BitVec 3) (w : BitVec 2) : Statement (.scfg y g s w) := by
  rintro w ⟨⟩
  rw [decode_mkWord _ _ _ _ _ _ (by decide)]
  change (fun (y : Bool) (g : BitVec 3) (d a b : BitVec 7) =>
    (if d == 120#7 && a == 120#7 && b.extractLsb' 5 2 == 0#2 then .ok (.scfg y g (b.extractLsb' 2 3) (b.extractLsb' 0 2)) else if d == 120#7 && b == 32#7 then .ok (.scan y g a) else .error (.reservedField 0x78#7) : Except DecodeError Instr)) y g 120#7 120#7 (0#2 ++ s ++ w) = _
  simp [fields_c20_v3_v2]
theorem scan (y : Bool) (g : BitVec 3) (a : BitVec 7) : Statement (.scan y g a) := by
  rintro w ⟨⟩
  rw [decode_mkWord _ _ _ _ _ _ (by decide)]
  change (fun (y : Bool) (g : BitVec 3) (d a b : BitVec 7) =>
    (if d == 120#7 && a == 120#7 && b.extractLsb' 5 2 == 0#2 then .ok (.scfg y g (b.extractLsb' 2 3) (b.extractLsb' 0 2)) else if d == 120#7 && b == 32#7 then .ok (.scan y g a) else .error (.reservedField 0x78#7) : Except DecodeError Instr)) y g 120#7 a 32#7 = _
  simp
theorem csend (y : Bool) (g : BitVec 3) (a : BitVec 7) : Statement (.csend y g a) := by
  rintro w ⟨⟩
  exact decode_mkWord _ 0x79#7 _ _ _ _ (by decide)
theorem crecv (y : Bool) (g : BitVec 3) (a : BitVec 7) : Statement (.crecv y g a) := by
  rintro w ⟨⟩
  exact decode_mkWord _ 0x79#7 _ _ _ _ (by decide)
theorem cbar (y : Bool) (g : BitVec 3) (d : BitVec 7) : Statement (.cbar y g d) := by
  rintro w ⟨⟩
  rw [decode_mkWord _ _ _ _ _ _ (by decide)]
  change (fun (y : Bool) (g : BitVec 3) (d a b : BitVec 7) =>
    (if d == 120#7 && b == 0#7 then .ok (.csend y g a) else if d == 120#7 && b == 32#7 then .ok (.crecv y g a) else if a == 120#7 && b == 64#7 then .ok (.cbar y g d) else .error (.reservedField 0x79#7) : Except DecodeError Instr)) y g d 120#7 64#7 = _
  simp
theorem grow (y : Bool) (g : BitVec 3) (d : BitVec 7) (a : BitVec 7) : Statement (.grow y g d a) := by
  rintro w ⟨⟩
  exact decode_mkWord _ 0x7A#7 _ _ _ _ (by decide)
theorem spawn (y : Bool) (g : BitVec 3) (d : BitVec 7) (a : BitVec 7) : Statement (.spawn y g d a) := by
  rintro w ⟨⟩
  exact decode_mkWord _ 0x7A#7 _ _ _ _ (by decide)
theorem qpush (y : Bool) (g : BitVec 3) (d : BitVec 7) (a : BitVec 7) (s : BitVec 2) : Statement (.qpush y g d a s) := by
  rintro w ⟨⟩
  rw [decode_mkWord _ _ _ _ _ _ (by decide)]
  change (fun (y : Bool) (g : BitVec 3) (d a b : BitVec 7) =>
    (if b.extractLsb' 0 3 == 0#3 && b.extractLsb' 5 2 == 0#2 then .ok (.qpush y g d a (b.extractLsb' 3 2)) else if b.extractLsb' 0 3 == 0#3 && b.extractLsb' 5 2 == 1#2 then .ok (.qpop y g d a (b.extractLsb' 3 2)) else .error (.reservedField 0x7B#7) : Except DecodeError Instr)) y g d a (0#2 ++ s ++ 0#3) = _
  simp [fields_c20_v2_c30]
theorem qpop (y : Bool) (g : BitVec 3) (d : BitVec 7) (a : BitVec 7) (s : BitVec 2) : Statement (.qpop y g d a s) := by
  rintro w ⟨⟩
  rw [decode_mkWord _ _ _ _ _ _ (by decide)]
  change (fun (y : Bool) (g : BitVec 3) (d a b : BitVec 7) =>
    (if b.extractLsb' 0 3 == 0#3 && b.extractLsb' 5 2 == 0#2 then .ok (.qpush y g d a (b.extractLsb' 3 2)) else if b.extractLsb' 0 3 == 0#3 && b.extractLsb' 5 2 == 1#2 then .ok (.qpop y g d a (b.extractLsb' 3 2)) else .error (.reservedField 0x7B#7) : Except DecodeError Instr)) y g d a (1#2 ++ s ++ 0#3) = _
  simp [fields_c21_v2_c30]
theorem cwait (y : Bool) (g : BitVec 3) (l : BitVec 3) : Statement (.cwait y g l) := by
  rintro w ⟨⟩
  rw [decode_mkWord _ _ _ _ _ _ (by decide)]
  change (fun (y : Bool) (g : BitVec 3) (d a b : BitVec 7) =>
    (if d == 120#7 && a == 120#7 && b.extractLsb' 3 4 == 0#4 then .ok (.cwait y g (b.extractLsb' 0 3)) else if d == 120#7 && a == 120#7 && b.extractLsb' 3 4 == 4#4 then .ok (.cancel y g (b.extractLsb' 0 3)) else .error (.reservedField 0x7C#7) : Except DecodeError Instr)) y g 120#7 120#7 (0#4 ++ l) = _
  simp [fields_c40_v3]
theorem cancel (y : Bool) (g : BitVec 3) (l : BitVec 3) : Statement (.cancel y g l) := by
  rintro w ⟨⟩
  rw [decode_mkWord _ _ _ _ _ _ (by decide)]
  change (fun (y : Bool) (g : BitVec 3) (d a b : BitVec 7) =>
    (if d == 120#7 && a == 120#7 && b.extractLsb' 3 4 == 0#4 then .ok (.cwait y g (b.extractLsb' 0 3)) else if d == 120#7 && a == 120#7 && b.extractLsb' 3 4 == 4#4 then .ok (.cancel y g (b.extractLsb' 0 3)) else .error (.reservedField 0x7C#7) : Except DecodeError Instr)) y g 120#7 120#7 (4#4 ++ l) = _
  simp [fields_c44_v3]
theorem incup (y : Bool) (g : BitVec 3) (d : BitVec 7) (a : BitVec 7) (p : Bool) (n : BitVec 4) :
    Statement (.incup y g d a p n) := by
  rintro w ⟨⟩
  rw [decode_mkWord _ _ _ _ _ _ (by decide)]
  change (fun (y : Bool) (g : BitVec 3) (d a b : BitVec 7) =>
    (if b.extractLsb' 5 2 == 0#2 then .ok (.incup y g d a (b.getLsbD 4) (b.extractLsb' 0 4)) else if a == 120#7 && b.extractLsb' 5 2 == 1#2 then .ok (.incrd y g d (b.getLsbD 4) (b.extractLsb' 0 4)) else if d == 120#7 && b == 64#7 then .ok (.bndset y g a) else if d == 120#7 && b == 96#7 then .ok (.bndcfg y g a) else .error (.reservedField 0x7D#7) : Except DecodeError Instr)) y g d a (0#2 ++ BitVec.ofBool p ++ n) = _
  simp [fields_c20_b1_v4]
theorem incrd (y : Bool) (g : BitVec 3) (d : BitVec 7) (p : Bool) (n : BitVec 4) : Statement (.incrd y g d p n) := by
  rintro w ⟨⟩
  rw [decode_mkWord _ _ _ _ _ _ (by decide)]
  change (fun (y : Bool) (g : BitVec 3) (d a b : BitVec 7) =>
    (if b.extractLsb' 5 2 == 0#2 then .ok (.incup y g d a (b.getLsbD 4) (b.extractLsb' 0 4)) else if a == 120#7 && b.extractLsb' 5 2 == 1#2 then .ok (.incrd y g d (b.getLsbD 4) (b.extractLsb' 0 4)) else if d == 120#7 && b == 64#7 then .ok (.bndset y g a) else if d == 120#7 && b == 96#7 then .ok (.bndcfg y g a) else .error (.reservedField 0x7D#7) : Except DecodeError Instr)) y g d 120#7 (1#2 ++ BitVec.ofBool p ++ n) = _
  simp [fields_c21_b1_v4]
theorem bndset (y : Bool) (g : BitVec 3) (a : BitVec 7) : Statement (.bndset y g a) := by
  rintro w ⟨⟩
  rw [decode_mkWord _ _ _ _ _ _ (by decide)]
  change (fun (y : Bool) (g : BitVec 3) (d a b : BitVec 7) =>
    (if b.extractLsb' 5 2 == 0#2 then .ok (.incup y g d a (b.getLsbD 4) (b.extractLsb' 0 4)) else if a == 120#7 && b.extractLsb' 5 2 == 1#2 then .ok (.incrd y g d (b.getLsbD 4) (b.extractLsb' 0 4)) else if d == 120#7 && b == 64#7 then .ok (.bndset y g a) else if d == 120#7 && b == 96#7 then .ok (.bndcfg y g a) else .error (.reservedField 0x7D#7) : Except DecodeError Instr)) y g 120#7 a 64#7 = _
  simp
theorem bndcfg (y : Bool) (g : BitVec 3) (a : BitVec 7) : Statement (.bndcfg y g a) := by
  rintro w ⟨⟩
  rw [decode_mkWord _ _ _ _ _ _ (by decide)]
  change (fun (y : Bool) (g : BitVec 3) (d a b : BitVec 7) =>
    (if b.extractLsb' 5 2 == 0#2 then .ok (.incup y g d a (b.getLsbD 4) (b.extractLsb' 0 4)) else if a == 120#7 && b.extractLsb' 5 2 == 1#2 then .ok (.incrd y g d (b.getLsbD 4) (b.extractLsb' 0 4)) else if d == 120#7 && b == 64#7 then .ok (.bndset y g a) else if d == 120#7 && b == 96#7 then .ok (.bndcfg y g a) else .error (.reservedField 0x7D#7) : Except DecodeError Instr)) y g 120#7 a 96#7 = _
  simp
theorem fence (y : Bool) (g : BitVec 3) (s : BitVec 4) (m : Bool) (k : BitVec 7) : Statement (.fence y g s m k) := by
  rintro w ⟨⟩
  rw [decode_mkWord _ _ _ _ _ _ (by decide)]
  change (fun (y : Bool) (g : BitVec 3) (d a b : BitVec 7) =>
    (if d.extractLsb' 1 2 == 0#2 && b == 0#7 then .ok (.fence y g (d.extractLsb' 3 4) (d.getLsbD 0) a) else if g == 7#3 && d.extractLsb' 0 3 == 0#3 && a == 120#7 && b == 1#7 then .ok (.bar y (d.extractLsb' 3 4)) else if d.extractLsb' 2 5 == 0#5 && b == 2#7 then .ok (.qfence y g (d.extractLsb' 0 2) a) else .error (.reservedField 0x7E#7) : Except DecodeError Instr)) y g (s ++ 0#2 ++ BitVec.ofBool m) k 0#7 = _
  simp [fields_v4_c20_b1]
theorem bar (y : Bool) (s : BitVec 4) : Statement (.bar y s) := by
  rintro w ⟨⟩
  rw [decode_mkWord _ _ _ _ _ _ (by decide)]
  change (fun (y : Bool) (g : BitVec 3) (d a b : BitVec 7) =>
    (if d.extractLsb' 1 2 == 0#2 && b == 0#7 then .ok (.fence y g (d.extractLsb' 3 4) (d.getLsbD 0) a) else if g == 7#3 && d.extractLsb' 0 3 == 0#3 && a == 120#7 && b == 1#7 then .ok (.bar y (d.extractLsb' 3 4)) else if d.extractLsb' 2 5 == 0#5 && b == 2#7 then .ok (.qfence y g (d.extractLsb' 0 2) a) else .error (.reservedField 0x7E#7) : Except DecodeError Instr)) y 7#3 (s ++ 0#3) 120#7 1#7 = _
  simp [fields_v4_c30]
theorem qfence (y : Bool) (g : BitVec 3) (m : BitVec 2) (k : BitVec 7) : Statement (.qfence y g m k) := by
  rintro w ⟨⟩
  rw [decode_mkWord _ _ _ _ _ _ (by decide)]
  change (fun (y : Bool) (g : BitVec 3) (d a b : BitVec 7) =>
    (if d.extractLsb' 1 2 == 0#2 && b == 0#7 then .ok (.fence y g (d.extractLsb' 3 4) (d.getLsbD 0) a) else if g == 7#3 && d.extractLsb' 0 3 == 0#3 && a == 120#7 && b == 1#7 then .ok (.bar y (d.extractLsb' 3 4)) else if d.extractLsb' 2 5 == 0#5 && b == 2#7 then .ok (.qfence y g (d.extractLsb' 0 2) a) else .error (.reservedField 0x7E#7) : Except DecodeError Instr)) y g (0#5 ++ m) k 2#7 = _
  simp [fields_c50_v2]
theorem moduleReset : Statement (.moduleReset) := by
  rintro w ⟨⟩
theorem bootImageLoad (bank : Nat) : Statement (.bootImageLoad bank) := by
  rintro w ⟨⟩
theorem recoveryImageDoe (manifest : Nat) (edSig : Nat) (mlSig : Nat) (body : ImageBody) :
    Statement (.recoveryImageDoe manifest edSig mlSig body) := by
  rintro w ⟨⟩
theorem quadrantCycle (core : Nat) (quad : Nat) : Statement (.quadrantCycle core quad) := by
  rintro w ⟨⟩
theorem trapEntry (sheaf : Nat) : Statement (.trapEntry sheaf) := by
  rintro w ⟨⟩
theorem yParkEnd (sheaf : Nat) : Statement (.yParkEnd sheaf) := by
  rintro w ⟨⟩
theorem loadReply (sheaf : Nat) (id : Nat) : Statement (.loadReply sheaf id) := by
  rintro w ⟨⟩
theorem storeTranslated (sheaf : Nat) (id : Nat) : Statement (.storeTranslated sheaf id) := by
  rintro w ⟨⟩
theorem tlbWalk (die : Nat) (ctx : Nat) (page : Nat) : Statement (.tlbWalk die ctx page) := by
  rintro w ⟨⟩
theorem tlbInvalidation (ctx : Nat) (first : Nat) (last : Nat) : Statement (.tlbInvalidation ctx first last) := by
  rintro w ⟨⟩
theorem faultService (sheaf : Nat) (ok : Bool) : Statement (.faultService sheaf ok) := by
  rintro w ⟨⟩
theorem driverAnswer (sheaf : Nat) (mapped : Bool) (hwm : Nat) (tables : List (Nat × Nat)) :
    Statement (.driverAnswer sheaf mapped hwm tables) := by
  rintro w ⟨⟩
theorem replayLimit (sheaf : Nat) : Statement (.replayLimit sheaf) := by
  rintro w ⟨⟩
theorem streamElementFetch (sheaf : Nat) (q : Nat) : Statement (.streamElementFetch sheaf q) := by
  rintro w ⟨⟩
theorem copyStart (id : Nat) : Statement (.copyStart id) := by
  rintro w ⟨⟩
theorem copyComplete (id : Nat) : Statement (.copyComplete id) := by
  rintro w ⟨⟩
theorem copySlowPath (id : Nat) (serviced : Bool) (tables : List (Nat × Nat)) :
    Statement (.copySlowPath id serviced tables) := by
  rintro w ⟨⟩
theorem ringChunkStart (id : Nat) : Statement (.ringChunkStart id) := by
  rintro w ⟨⟩
theorem qfencePass (id : Nat) : Statement (.qfencePass id) := by
  rintro w ⟨⟩
theorem mbindStart (id : Nat) : Statement (.mbindStart id) := by
  rintro w ⟨⟩
theorem mrelStart (id : Nat) : Statement (.mrelStart id) := by
  rintro w ⟨⟩
theorem millOpStart (id : Nat) : Statement (.millOpStart id) := by
  rintro w ⟨⟩
theorem millOpRetire (id : Nat) : Statement (.millOpRetire id) := by
  rintro w ⟨⟩
theorem qmvStart (id : Nat) : Statement (.qmvStart id) := by
  rintro w ⟨⟩
theorem quernRow (id : Nat) (row : Nat) : Statement (.quernRow id row) := by
  rintro w ⟨⟩
theorem rjoinStart (id : Nat) : Statement (.rjoinStart id) := by
  rintro w ⟨⟩
theorem fallowSweepEnd (rec : Nat) : Statement (.fallowSweepEnd rec) := by
  rintro w ⟨⟩
theorem censusRanking (rec : Nat) (smap : Nat) (mlist : Nat) : Statement (.censusRanking rec smap mlist) := by
  rintro w ⟨⟩
theorem migrationCommand (rec : Nat) (ctx : Nat) : Statement (.migrationCommand rec ctx) := by
  rintro w ⟨⟩
theorem migrationCopy (rec : Nat) : Statement (.migrationCopy rec) := by
  rintro w ⟨⟩
theorem migrationInstant (rec : Nat) : Statement (.migrationInstant rec) := by
  rintro w ⟨⟩
theorem scanStart (id : Nat) : Statement (.scanStart id) := by
  rintro w ⟨⟩
theorem scanPerformed (id : Nat) : Statement (.scanPerformed id) := by
  rintro w ⟨⟩
theorem csendStart (id : Nat) : Statement (.csendStart id) := by
  rintro w ⟨⟩
theorem carryPlaced (carry : CarrySource) : Statement (.carryPlaced carry) := by
  rintro w ⟨⟩
theorem crecvTake (id : Nat) : Statement (.crecvTake id) := by
  rintro w ⟨⟩
theorem roundComplete (round : RoundNotice) : Statement (.roundComplete round) := by
  rintro w ⟨⟩
theorem spawnArrival (id : Nat) : Statement (.spawnArrival id) := by
  rintro w ⟨⟩
theorem unitAdmission (core : Nat) : Statement (.unitAdmission core) := by
  rintro w ⟨⟩
theorem unitComplete (unit : Nat) : Statement (.unitComplete unit) := by
  rintro w ⟨⟩
theorem nodeComplete (node : Nat) : Statement (.nodeComplete node) := by
  rintro w ⟨⟩
theorem remoteEnqueueReceive (job : Nat) (dev : Nat) (krec : Nat) (args : Nat) (body : EnqueueBody) :
    Statement (.remoteEnqueueReceive job dev krec args body) := by
  rintro w ⟨⟩
theorem remoteEnqueueAck (id : Nat) (entered : Bool) : Statement (.remoteEnqueueAck id entered) := by
  rintro w ⟨⟩
theorem jobCompletionSweep (job : Nat) (parts : List (Nat × Nat)) : Statement (.jobCompletionSweep job parts) := by
  rintro w ⟨⟩
theorem jobEnd (job : Nat) (cause : Nat) : Statement (.jobEnd job cause) := by
  rintro w ⟨⟩
theorem queueWordAtHome (id : Nat) : Statement (.queueWordAtHome id) := by
  rintro w ⟨⟩
theorem popDelivery (id : Nat) : Statement (.popDelivery id) := by
  rintro w ⟨⟩
theorem barrierComplete (unit : Nat) : Statement (.barrierComplete unit) := by
  rintro w ⟨⟩
theorem cwaitRelease (sheaf : Nat) : Statement (.cwaitRelease sheaf) := by
  rintro w ⟨⟩
theorem incumbentCommit (id : Nat) : Statement (.incumbentCommit id) := by
  rintro w ⟨⟩
theorem incupReply (id : Nat) : Statement (.incupReply id) := by
  rintro w ⟨⟩
theorem incrdRootReply (id : Nat) : Statement (.incrdRootReply id) := by
  rintro w ⟨⟩
theorem crierReplicaUpdate (job : Nat) (reg : Nat) (onDie : Bool) (place : Nat) :
    Statement (.crierReplicaUpdate job reg onDie place) := by
  rintro w ⟨⟩
theorem crierForward (source : CrierSource) (reg : Nat) (value : Word) (payload : Word) (cycles : Nat) :
    Statement (.crierForward source reg value payload cycles) := by
  rintro w ⟨⟩
theorem watchdogExpiry (sheaf : Nat) : Statement (.watchdogExpiry sheaf) := by
  rintro w ⟨⟩
theorem budgetPeriod : Statement (.budgetPeriod) := by
  rintro w ⟨⟩
theorem saveRequest (core : Nat) (ctx : Nat) : Statement (.saveRequest core ctx) := by
  rintro w ⟨⟩
theorem drainEnd (core : Nat) : Statement (.drainEnd core) := by
  rintro w ⟨⟩
theorem saveEnd (core : Nat) : Statement (.saveEnd core) := by
  rintro w ⟨⟩
theorem restore (unit : Nat) (core : Nat) : Statement (.restore unit core) := by
  rintro w ⟨⟩
theorem contextCreate (ctx : Nat) (prio : Nat) (spw : Bool) (ptb : Nat) (pvb : Nat) (pspan : Nat) (hwm : Nat) (eqb : Nat) (eqn : Nat) (budgets : List Nat) :
    Statement (.contextCreate ctx prio spw ptb pvb pspan hwm eqb eqn budgets) := by
  rintro w ⟨⟩
theorem contextDestroy (ctx : Nat) : Statement (.contextDestroy ctx) := by
  rintro w ⟨⟩
theorem doorbellWrite (offset : Nat) (bytes : Nat) (value : DWord) : Statement (.doorbellWrite offset bytes value) := by
  rintro w ⟨⟩
theorem submissionEntry (ctx : Nat) (queue : Nat) (incs : List (Nat × Word × Word)) (parts : List Nat) (reach : Word) (tables : EntryTables) :
    Statement (.submissionEntry ctx queue incs parts reach tables) := by
  rintro w ⟨⟩
theorem phaseEndCompletion (phase : Nat) : Statement (.phaseEndCompletion phase) := by
  rintro w ⟨⟩
theorem hostHdmAccess (addr : Nat) (write : Bool) (data : List (Option Byte)) : Statement (.hostHdmAccess addr write data) := by
  rintro w ⟨⟩
theorem peerRequest (src : Nat) (seq : Nat) (job : Nat) (offset : Nat) (op : Nat) (size : Nat) (x : DWord) (y : DWord) :
    Statement (.peerRequest src seq job offset op size x y) := by
  rintro w ⟨⟩
theorem routeRecompute (link : Nat) (loss : RouteLoss) : Statement (.routeRecompute link loss) := by
  rintro w ⟨⟩
theorem linkRetrain (link : Nat) (a1 : Word) (b1 : Word) (a2 : Word) (b2 : Word) :
    Statement (.linkRetrain link a1 b1 a2 b2) := by
  rintro w ⟨⟩
theorem capabilityPublish (peer : Nat) (mask : Word) (exports : List (Nat × Nat)) :
    Statement (.capabilityPublish peer mask exports) := by
  rintro w ⟨⟩
theorem peerUnreachable (peer : Nat) : Statement (.peerUnreachable peer) := by
  rintro w ⟨⟩
theorem remoteStoreFailure (id : Nat) (cause : Nat) : Statement (.remoteStoreFailure id cause) := by
  rintro w ⟨⟩
theorem rdmaCompletion (id : Nat) (data : List Byte) : Statement (.rdmaCompletion id data) := by
  rintro w ⟨⟩
theorem dvfSetPoint (die : Nat) (value : Word) : Statement (.dvfSetPoint die value) := by
  rintro w ⟨⟩
theorem dvfGate (die : Nat) (value : Word) : Statement (.dvfGate die value) := by
  rintro w ⟨⟩
theorem dvfWake (die : Nat) (value : Word) : Statement (.dvfWake die value) := by
  rintro w ⟨⟩
theorem pointChangeDone (die : Nat) : Statement (.pointChangeDone die) := by
  rintro w ⟨⟩
theorem gatingDone (die : Nat) : Statement (.gatingDone die) := by
  rintro w ⟨⟩
theorem wakeDone (die : Nat) : Statement (.wakeDone die) := by
  rintro w ⟨⟩
theorem thermalThrottle (die : Nat) : Statement (.thermalThrottle die) := by
  rintro w ⟨⟩
theorem throttleRelease (die : Nat) : Statement (.throttleRelease die) := by
  rintro w ⟨⟩
theorem scrubPass (line : Nat) (kind : Nat) : Statement (.scrubPass line kind) := by
  rintro w ⟨⟩
theorem hbmRowRetire (row : DWord) : Statement (.hbmRowRetire row) := by
  rintro w ⟨⟩
theorem coreFailure (core : Nat) : Statement (.coreFailure core) := by
  rintro w ⟨⟩
theorem repairRecordWrite (fails : List Nat) (rows : List DWord) (seq : Nat) (edSig : Nat) (mlSig : Nat) :
    Statement (.repairRecordWrite fails rows seq edSig mlSig) := by
  rintro w ⟨⟩
theorem getVersion : Statement (.getVersion) := by
  rintro w ⟨⟩
theorem getCapabilities : Statement (.getCapabilities) := by
  rintro w ⟨⟩
theorem negotiateAlgorithms (hash : Nat) (sig : Nat) (dhe : Nat) (aead : Nat) :
    Statement (.negotiateAlgorithms hash sig dhe aead) := by
  rintro w ⟨⟩
theorem getDigests : Statement (.getDigests) := by
  rintro w ⟨⟩
theorem getCertificate (slot : Nat) : Statement (.getCertificate slot) := by
  rintro w ⟨⟩
theorem challenge (nonce : Nat) : Statement (.challenge nonce) := by
  rintro w ⟨⟩
theorem getMeasurements (index : Nat) (nonce : Nat) : Statement (.getMeasurements index nonce) := by
  rintro w ⟨⟩
theorem keyExchange (pub : Nat) : Statement (.keyExchange pub) := by
  rintro w ⟨⟩
theorem finish (verify : Nat) : Statement (.finish verify) := by
  rintro w ⟨⟩
theorem endSession : Statement (.endSession) := by
  rintro w ⟨⟩
theorem registerWrite (reg : Nat) (value : DWord) : Statement (.registerWrite reg value) := by
  rintro w ⟨⟩
theorem recordReachableAgain (rec : Nat) : Statement (.recordReachableAgain rec) := by
  rintro w ⟨⟩
theorem submissionQueueCreate (ctx : Nat) (queue : Nat) (base : Nat) (logSize : Nat) :
    Statement (.submissionQueueCreate ctx queue base logSize) := by
  rintro w ⟨⟩
theorem queuePairCreate (ctx : Nat) (qpn : Nat) : Statement (.queuePairCreate ctx qpn) := by
  rintro w ⟨⟩
theorem matrixRecordRegistration (rec : Nat) (budget : Nat) (policy : Option (List (Nat × Nat))) :
    Statement (.matrixRecordRegistration rec budget policy) := by
  rintro w ⟨⟩
theorem coldChangeReport (rec : Nat) (smap : Nat) (mlist : Nat) (rows : List Nat) :
    Statement (.coldChangeReport rec smap mlist rows) := by
  rintro w ⟨⟩
theorem congestionNotificationPacket (port : Nat) : Statement (.congestionNotificationPacket port) := by
  rintro w ⟨⟩
theorem nak (id : Nat) (answer : NakAnswer) : Statement (.nak id answer) := by
  rintro w ⟨⟩
theorem replyHoldExpiry (src : Nat) (seq : Nat) : Statement (.replyHoldExpiry src seq) := by
  rintro w ⟨⟩

end Laws.Encoding
end Sys2Proof
end

