-- ==== Sys2Proof/Tests/Slice0.lean ====
section
/-!
SUPPORT. Tests: words written out from the manual's encodings, ill-formed steps, single steps on small states with results worked out by
hand, and for each statement a state that meets its premises.
-/
namespace Sys2Proof.Tests
set_option Elab.async false
open Sys2Proof Sys2Proof.Machine Sys2Proof.Claims

/-! ### Words, from the encodings of the manual -/

theorem test_decode_hints :
    decodeTableWord 32 0x00B4BFFF = some (.sched 2891 7 7 7 7)
    ∧ decodeTableWord 32 0x014B4B4B = some (.limm 4934475)
    ∧ decodeTableWord 32 0x02BBFEC0 = some (.xmod 11 11 true 7 3 11) := by decide +kernel

theorem test_decode_controlRegisters :
    decodeTableWord 32 0x88FE3C00 = some (.eret 7)
    ∧ decodeTableWord 32 0x89FE3C00 = some (.exit 7)
    ∧ decodeTableWord 32 0x8AE0F478 = some (.rdx true 7 3 104)
    ∧ decodeTableWord 32 0x8BFE08F7 = some (.wrx true 7 17 119)
    ∧ decodeTableWord 32 0x8CEA0280 = some (.movsRd true 7 40 5)
    ∧ decodeTableWord 32 0x8CF83781 = some (.movsWr true 7 96 111)
    ∧ decodeTableWord 32 0x8DE0BC00 = some (.rdclkCyc true 7 2)
    ∧ decodeTableWord 32 0x8DE23C01 = some (.rdclkNs true 7 8) := by decide +kernel

theorem test_decode_integer :
    decodeTableWord 32 0x90E0F411 = some (.iadd true 7 3 104 17)
    ∧ decodeTableWord 32 0x91FDD405 = some (.isub true 7 119 40 5)
    ∧ decodeTableWord 32 0x92F83782 = some (.iaddi true 7 96 111 2)
    ∧ decodeTableWord 32 0x93E201E8 = some (.imul true 7 8 3 104)
    ∧ decodeTableWord 32 0x94E47BA8 = some (.imulh true 7 17 119 40)
    ∧ decodeTableWord 32 0x95E1706F = some (.imad true 7 5 96 111)
    ∧ decodeTableWord 32 0x96E08403 = some (.imin true 7 2 8 3)
    ∧ decodeTableWord 32 0x97FA08F7 = some (.imax true 7 104 17 119)
    ∧ decodeTableWord 32 0x98EA02E0 = some (.and true 7 40 5 96)
    ∧ decodeTableWord 32 0x99FBC108 = some (.or true 7 111 2 8)
    ∧ decodeTableWord 32 0x9AE0F411 = some (.xor true 7 3 104 17)
    ∧ decodeTableWord 32 0x9BFDD405 = some (.andn true 7 119 40 5)
    ∧ decodeTableWord 32 0x9CF83782 = some (.shl true 7 96 111 2)
    ∧ decodeTableWord 32 0x9DE201E8 = some (.shr true 7 8 3 104)
    ∧ decodeTableWord 32 0x9EE47BA8 = some (.sar true 7 17 119 40)
    ∧ decodeTableWord 32 0x9FE1706B = some (.shi true 7 5 96 3 11) := by decide +kernel

theorem test_decode_bits :
    decodeTableWord 32 0xA0FBC108 = some (.bfe true 7 111 2 8)
    ∧ decodeTableWord 32 0xA1E0F411 = some (.bfi true 7 3 104 17)
    ∧ decodeTableWord 32 0xA2FDD400 = some (.popc true 7 119 40)
    ∧ decodeTableWord 32 0xA2E17001 = some (.clz true 7 5 96)
    ∧ decodeTableWord 32 0xA2FBC102 = some (.ctz true 7 111 2)
    ∧ decodeTableWord 32 0xA2E20183 = some (.brev true 7 8 3)
    ∧ decodeTableWord 32 0xA2FA0884 = some (.bswap true 7 104 17)
    ∧ decodeTableWord 32 0xA3FDFC28 = some (.mov true 7 119 40)
    ∧ decodeTableWord 32 0xA4E1706F = some (.lea true 7 5 96 111)
    ∧ decodeTableWord 32 0xA5E08403 = some (.idot4 true 7 2 8 3)
    ∧ decodeTableWord 32 0xA6FA08F7 = some (.imadw true 7 104 17 119)
    ∧ decodeTableWord 32 0xA8EA02E0 = some (.fadd true 7 40 5 96)
    ∧ decodeTableWord 32 0xA9FBC108 = some (.fsub true 7 111 2 8)
    ∧ decodeTableWord 32 0xAAE0F411 = some (.fmul true 7 3 104 17)
    ∧ decodeTableWord 32 0xABFDD405 = some (.ffma true 7 119 40 5)
    ∧ decodeTableWord 32 0xACF83782 = some (.fmin true 7 96 111 2)
    ∧ decodeTableWord 32 0xADE201E8 = some (.fmax true 7 8 3 104)
    ∧ decodeTableWord 32 0xAEE47B80 = some (.fabs true 7 17 119)
    ∧ decodeTableWord 32 0xAEEA0281 = some (.fneg true 7 40 5)
    ∧ decodeTableWord 32 0xAEF83782 = some (.fnabs true 7 96 111)
    ∧ decodeTableWord 32 0xAFE08400 = some (.fcls true 7 2 8) := by decide +kernel

theorem test_decode_float :
    decodeTableWord 32 0xB0E0F411 = some (.fdot2 true 7 3 104 17)
    ∧ decodeTableWord 32 0xB1FDD407 = some (.frnd true 7 119 40 7)
    ∧ decodeTableWord 32 0xB2E1706F = some (.fscl true 7 5 96 111)
    ∧ decodeTableWord 32 0xB8E08400 = some (.rcp true 7 2 8)
    ∧ decodeTableWord 32 0xB8E0F401 = some (.rsq true 7 3 104)
    ∧ decodeTableWord 32 0xB8E47B82 = some (.sqrt true 7 17 119)
    ∧ decodeTableWord 32 0xB8EA0283 = some (.ex2 true 7 40 5)
    ∧ decodeTableWord 32 0xB8F83784 = some (.lg2 true 7 96 111)
    ∧ decodeTableWord 32 0xB8E08405 = some (.sin true 7 2 8)
    ∧ decodeTableWord 32 0xB8E0F406 = some (.cos true 7 3 104)
    ∧ decodeTableWord 32 0xB8E47B87 = some (.tanh true 7 17 119) := by decide +kernel

theorem test_decode_conversionsAndPredicates :
    decodeTableWord 32 0xC0EA02EB = some (.cvti true 7 40 5 3 11)
    ∧ decodeTableWord 32 0xC1F837EB = some (.cvtf true 7 96 111 3 11)
    ∧ decodeTableWord 32 0xC2E0842F = some (.cvtb true 7 2 8 11 3)
    ∧ decodeTableWord 32 0xC3E0F411 = some (.cvts true 7 3 104 17)
    ∧ decodeTableWord 32 0xC4FDD45F = some (.qblk true 7 119 40 11 7)
    ∧ decodeTableWord 32 0xC5E1706F = some (.pack true 7 5 96 111)
    ∧ decodeTableWord 32 0xC6E08467 = some (.unpk true 7 2 8 3 7)
    ∧ decodeTableWord 32 0xC8F7C1E8 = some (.icmp true 7 11 7 3 104)
    ∧ decodeTableWord 32 0xC9F7C8F7 = some (.fcmp true 7 11 7 17 119)
    ∧ decodeTableWord 32 0xCAEA02E0 = some (.sel true 7 40 5 96)
    ∧ decodeTableWord 32 0xCBE1DF8B = some (.plop true 7 7 7 7 11)
    ∧ decodeTableWord 32 0xCCE1F780 = some (.pmovP true 7 7 111)
    ∧ decodeTableWord 32 0xCCE08381 = some (.pmovV true 7 2 7)
    ∧ decodeTableWord 32 0xCCE23C02 = some (.pmovM true 7 8)
    ∧ decodeTableWord 32 0xCCFE0183 = some (.pmovS true 7 3)
    ∧ decodeTableWord 32 0xCDF7F411 = some (.icmpi true 7 11 7 104 17) := by decide +kernel

theorem test_decode_crossingAndBranches :
    decodeTableWord 32 0xD0FDD405 = some (.shfl true 7 119 40 5)
    ∧ decodeTableWord 32 0xD1E1C380 = some (.voteAll true 7 7 7)
    ∧ decodeTableWord 32 0xD1E1C381 = some (.voteAny true 7 7 7)
    ∧ decodeTableWord 32 0xD1F80382 = some (.voteBallot true 7 96 7)
    ∧ decodeTableWord 32 0xD1E1F783 = some (.voteUni true 7 7 111)
    ∧ decodeTableWord 32 0xD2E08477 = some (.red true 7 2 8 7 7)
    ∧ decodeTableWord 32 0xD3E0F47F = some (.scanl true 7 3 104 7 true 7)
    ∧ decodeTableWord 32 0xD4E47BF8 = some (.conf true 7 17 119)
    ∧ decodeTableWord 32 0xD5EA02F8 = some (.bcast true 7 40 5)
    ∧ decodeTableWord 32 0xD8FE3C60 = some (.bra true 7 96)
    ∧ decodeTableWord 32 0xD9FBFC02 = some (.call true 7 111 2)
    ∧ decodeTableWord 32 0xDAFE0400 = some (.ret true 7 8)
    ∧ decodeTableWord 32 0xDBFE3C00 = some (.join true 7)
    ∧ decodeTableWord 32 0xDBFE0181 = some (.joinM true 7 3)
    ∧ decodeTableWord 32 0xDCE0F411 = some (.loop true 3 104 17)
    ∧ decodeTableWord 32 0xDDE0FC77 = some (.endl true 3 119)
    ∧ decodeTableWord 32 0xDEFE3C58 = some (.lwait true 7 11)
    ∧ decodeTableWord 32 0xDFFE1405 = some (.brx true 7 40 5) := by decide +kernel

theorem test_decode_memory :
    decodeTableWord 32 0xE0F837DF = some (.ld true 7 96 111 11 7)
    ∧ decodeTableWord 32 0xE1E0847F = some (.st true 7 2 8 7)
    ∧ decodeTableWord 32 0xE2E0F45F = some (.ldv true 7 3 104 11 7)
    ∧ decodeTableWord 32 0xE3E47BFF = some (.stv true 7 17 119 7)
    ∧ decodeTableWord 32 0xE4EA02DF = some (.stq true 7 40 5 11 7)
    ∧ decodeTableWord 32 0xE5FE307B = some (.prf true 7 96 true)
    ∧ decodeTableWord 32 0xE6FBC15F = some (.lds true 7 111 2 11 7)
    ∧ decodeTableWord 32 0xE7E203D8 = some (.qrd true 7 8 7 11)
    ∧ decodeTableWord 32 0xE8E0C3D8 = some (.qwr true 7 3 7 11)
    ∧ decodeTableWord 32 0xECFA08DF = some (.atom true 7 104 17 11 7)
    ∧ decodeTableWord 32 0xEDFDD45F = some (.cas true 7 119 40 11 7)
    ∧ decodeTableWord 32 0xEEE1705F = some (.atomf true 7 5 96 11 7)
    ∧ decodeTableWord 32 0xEFFBC15F = some (.atst true 7 111 2 11 7) := by decide +kernel

theorem test_decode_engines1 :
    decodeTableWord 32 0xF0E2058B = some (.mclaim true 7 8 11 11)
    ∧ decodeTableWord 32 0xF0FE05AB = some (.mrel true 7 11 11)
    ∧ decodeTableWord 32 0xF0E0F44B = some (.mbind true 7 3 104 11)
    ∧ decodeTableWord 32 0xF1E4458B = some (.mma true 7 17 11 11)
    ∧ decodeTableWord 32 0xF1FDC5AB = some (.mmas true 7 119 11 11)
    ∧ decodeTableWord 32 0xF1EA05CB = some (.mmab true 7 40 11 11)
    ∧ decodeTableWord 32 0xF2E17058 = some (.amovRd true 7 5 96 11)
    ∧ decodeTableWord 32 0xF2FBC179 = some (.amovWr true 7 111 2)
    ∧ decodeTableWord 32 0xF3E20180 = some (.azero true 7 8 3)
    ∧ decodeTableWord 32 0xF3FA08EB = some (.acvt true 7 104 17 true 11)
    ∧ decodeTableWord 32 0xF4FDD400 = some (.qmv true 7 119 40)
    ∧ decodeTableWord 32 0xF4FE02C0 = some (.rjoin true 7 5)
    ∧ decodeTableWord 32 0xF5F837FF = some (.copy true 7 96 111 7 true 7)
    ∧ decodeTableWord 32 0xF6E08400 = some (.gather true 7 2 8)
    ∧ decodeTableWord 32 0xF6E1C181 = some (.sbind true 7 7 3)
    ∧ decodeTableWord 32 0xF6FE3402 = some (.stream true 7 104)
    ∧ decodeTableWord 32 0xF6FE0883 = some (.streamPost true 7 17)
    ∧ decodeTableWord 32 0xF7FE3B80 = some (.hwaitFree true 7 119)
    ∧ decodeTableWord 32 0xF7FE1401 = some (.hwaitFull true 7 40)
    ∧ decodeTableWord 32 0xF7FE0282 = some (.hrel true 7 5)
    ∧ decodeTableWord 32 0xF7F83783 = some (.hstat true 7 96 111)
    ∧ decodeTableWord 32 0xF8FE3C1F = some (.scfg true 7 7 3)
    ∧ decodeTableWord 32 0xF8FE0120 = some (.scan true 7 2)
    ∧ decodeTableWord 32 0xF9FE0400 = some (.csend true 7 8) := by decide +kernel

theorem test_decode_engines2 :
    decodeTableWord 32 0xF9FE01A0 = some (.crecv true 7 3)
    ∧ decodeTableWord 32 0xF9FA3C40 = some (.cbar true 7 104)
    ∧ decodeTableWord 32 0xFAE47B80 = some (.grow true 7 17 119)
    ∧ decodeTableWord 32 0xFAEA02A0 = some (.spawn true 7 40 5)
    ∧ decodeTableWord 32 0xFBF83798 = some (.qpush true 7 96 111 3)
    ∧ decodeTableWord 32 0xFBE08438 = some (.qpop true 7 2 8 3)
    ∧ decodeTableWord 32 0xFCFE3C07 = some (.cwait true 7 7)
    ∧ decodeTableWord 32 0xFCFE3C27 = some (.cancel true 7 7)
    ∧ decodeTableWord 32 0xFDE0F41B = some (.incup true 7 3 104 true 11)
    ∧ decodeTableWord 32 0xFDE47C3B = some (.incrd true 7 17 true 11)
    ∧ decodeTableWord 32 0xFDFE3BC0 = some (.bndset true 7 119)
    ∧ decodeTableWord 32 0xFDFE1460 = some (.bndcfg true 7 40)
    ∧ decodeTableWord 32 0xFEF64280 = some (.fence true 7 11 true 5)
    ∧ decodeTableWord 32 0xFEF63C01 = some (.bar true 11)
    ∧ decodeTableWord 32 0xFEE0F002 = some (.qfence true 7 3 96) := by decide +kernel

/-! ### Small states -/

/-- The state in which a word placed right after reset issues: sheaf 2 of unit 1 on core 0, every lane in one position. -/
def issued (w : Nat) : State := match (State.reset.withFetchWord 32 w).front with
  | .issue _ t => t
  | _ => State.reset

/-- The same with its sheaf changed by `g` and then the rest by `h`. -/
def dressed (w : Nat) (g : Sheaf → Sheaf) (h : State → State) : State :=
  let s := issued w
  h (match s.cur with
    | some k => { s with cur := some { k with view := g k.view }, sheaves := s.sheaves.set k.sheaf (some (g k.view)) }
    | none => s)

/-- Every lane changed. -/
def lanesBy (h : LaneSt → LaneSt) (f : Sheaf) : Sheaf := f.updLanes (BitVec.allOnes 32) fun _ x => h x
/-- A thread register set in every lane. -/
def vreg (r : Nat) (x : Nat → Word) (f : Sheaf) : Sheaf := { f with v := ((List.range 32).map fun l => (vKey r l, x l)).foldl (fun m c => m.set c.1 c.2) f.v }
/-- A uniform register set. -/
def ureg (k : Nat) (x : Word) (f : Sheaf) : Sheaf := { f with u := f.u.set k x }
/-- An attached `LIMM`. -/
def withLimm (i : BitVec 24) (f : Sheaf) : Sheaf := lanesBy (fun x => { x with limm := some i }) f
/-- An attached `XMOD` with a FORM. -/
def withForm (k : BitVec 4) (f : Sheaf) : Sheaf := lanesBy (fun x => { x with xmod := some { form := k } }) f
/-- The unit of the placed word changed. -/
def unitBy (h : UnitSt → UnitSt) (s : State) : State := s.updUnit 1 h

/-- The lanes of the issuing position set. -/
def posBy (m : Mask) (s : State) : State := { s with cur := s.cur.map fun k => { k with lanes := m } }

/-- A word runs, and its context meets a further test. -/
def runsWith (P : Ctx → Bool) (i : Instr) (s : State) : Bool := match s.issuing i with
  | some (some c) => (c.f.firstFault (if (c.shapeOf i).endsRegion then c.f.faultedLanes c.lanes else 0)).isNone
      && !wordHeld i (c.shapeOf i) c s && c.act != 0 && shapeOk (c.shapeOf i) c.unit.lrec.nv c.limm.isSome c.x
      && (c.consumes (c.shapeOf i)).isNone && P c
  | _ => false

/-- A word stands where it is fetched first, its sheaf and the rest changed: it runs, and its context meets a test. -/
def onIt (P : Ctx → Bool) (i : Instr) (g : Sheaf → Sheaf) (h : State → State) : Bool := runsWith P i (dressed ((encode i).getD 0).toNat g h)

/-- What the test says, as the premise of the statements about words. -/
theorem runs_of (P : Ctx → Bool) (i : Instr) (s : State) (h : runsWith P i s = true) : ∃ c, Runs i s c ∧ P c = true := by
  unfold runsWith at h
  split at h
  · next c hc =>
    simp only [Bool.and_eq_true, Bool.not_eq_true', bne_iff_ne, Option.isNone_iff_eq_none] at h
    obtain ⟨⟨⟨⟨⟨h1, h2⟩, h3⟩, h4⟩, h5⟩, h6⟩ := h
    exact ⟨c, ⟨hc, h1, h2, h3, h4, h5⟩, h6⟩
  · cases h

/-- Words run where they are placed right after reset. -/
def allRun (l : List (Instr × Nat)) : Bool := l.all fun p => runsWith (fun _ => true) p.1 (issued p.2)

theorem runs_of_allRun {l : List (Instr × Nat)} (h : allRun l = true) : ∀ p ∈ l, ∃ c, Runs p.1 (issued p.2) c := fun p hp =>
  let ⟨c, hc, _⟩ := runs_of _ _ _ (List.all_eq_true.mp h p hp)
  ⟨c, hc⟩

/-! ### Every word of the instruction set runs somewhere -/

theorem witness_runs_controlRegisters : allRun [
    (.eret 7, 0x88FE3C00),
    (.exit 7, 0x89FE3C00),
    (.rdx false 7 8 16, 0x0AE20878),
    (.wrx false 7 8 16, 0x0BFE0410),
    (.movsRd false 7 8 16, 0x0CE20800),
    (.movsWr false 7 8 16, 0x0CE20801),
    (.rdclkCyc false 7 8, 0x0DE23C00),
    (.rdclkNs false 7 8, 0x0DE23C01)] = true := by decide +kernel

theorem witness_runs_integer : allRun [
    (.iadd false 7 8 16 24, 0x10E20818),
    (.isub false 7 8 16 24, 0x11E20818),
    (.iaddi false 7 8 16 24, 0x12E20818),
    (.imul false 7 8 16 24, 0x13E20818),
    (.imulh false 7 8 16 24, 0x14E20818),
    (.imad false 7 8 16 24, 0x15E20818),
    (.imin false 7 8 16 24, 0x16E20818),
    (.imax false 7 8 16 24, 0x17E20818)] = true := by decide +kernel

theorem witness_runs_logic : allRun [
    (.and false 7 8 16 24, 0x18E20818),
    (.or false 7 8 16 24, 0x19E20818),
    (.xor false 7 8 16 24, 0x1AE20818),
    (.andn false 7 8 16 24, 0x1BE20818),
    (.shl false 7 8 16 24, 0x1CE20818),
    (.shr false 7 8 16 24, 0x1DE20818),
    (.sar false 7 8 16 24, 0x1EE20818),
    (.shi false 7 8 16 0 0, 0x1FE20800)] = true := by decide +kernel

theorem witness_runs_bits : allRun [
    (.bfe false 7 8 16 24, 0x20E20818),
    (.bfi false 7 8 16 24, 0x21E20818),
    (.popc false 7 8 16, 0x22E20800),
    (.clz false 7 8 16, 0x22E20801),
    (.ctz false 7 8 16, 0x22E20802),
    (.brev false 7 8 16, 0x22E20803),
    (.bswap false 7 8 16, 0x22E20804),
    (.mov false 7 8 16, 0x23E23C10),
    (.lea false 7 8 16 24, 0x24E20818),
    (.idot4 false 7 8 16 24, 0x25E20818),
    (.imadw false 7 8 16 24, 0x26E20818)] = true := by decide +kernel

theorem witness_runs_float : allRun [
    (.fadd false 7 8 16 24, 0x28E20818),
    (.fsub false 7 8 16 24, 0x29E20818),
    (.fmul false 7 8 16 24, 0x2AE20818),
    (.ffma false 7 8 16 24, 0x2BE20818),
    (.fmin false 7 8 16 24, 0x2CE20818),
    (.fmax false 7 8 16 24, 0x2DE20818),
    (.fabs false 7 8 16, 0x2EE20800),
    (.fneg false 7 8 16, 0x2EE20801),
    (.fnabs false 7 8 16, 0x2EE20802),
    (.fcls false 7 8 16, 0x2FE20800),
    (.fdot2 false 7 8 16 24, 0x30E20818),
    (.frnd false 7 8 16 0, 0x31E20800),
    (.fscl false 7 8 16 24, 0x32E20818)] = true := by decide +kernel

theorem witness_runs_special : allRun [
    (.rcp false 7 8 16, 0x38E20800),
    (.rsq false 7 8 16, 0x38E20801),
    (.sqrt false 7 8 16, 0x38E20802),
    (.ex2 false 7 8 16, 0x38E20803),
    (.lg2 false 7 8 16, 0x38E20804),
    (.sin false 7 8 16, 0x38E20805),
    (.cos false 7 8 16, 0x38E20806),
    (.tanh false 7 8 16, 0x38E20807)] = true := by decide +kernel

theorem witness_runs_conversions : allRun [
    (.cvti false 7 8 16 0 0, 0x40E20800),
    (.cvtf false 7 8 16 0 0, 0x41E20800),
    (.cvtb false 7 8 16 17 0, 0x42E20844),
    (.cvts false 7 8 16 24, 0x43E20818),
    (.qblk false 7 8 16 0 0, 0x44E20800),
    (.pack false 7 8 16 24, 0x45E20818),
    (.unpk false 7 8 16 0 0, 0x46E20800)] = true := by decide +kernel

theorem witness_runs_predicates : allRun [
    (.icmp false 7 0 0 8 16, 0x48E00410),
    (.fcmp false 7 0 0 8 16, 0x49E00410),
    (.sel false 7 8 16 24, 0x4AE20818),
    (.plop false 7 0 0 0 0, 0x4BE00000),
    (.pmovP false 7 0 8, 0x4CE00400),
    (.pmovV false 7 8 0, 0x4CE20001),
    (.pmovM false 7 8, 0x4CE23C02),
    (.pmovS false 7 8, 0x4CFE0403),
    (.icmpi false 7 0 0 8 16, 0x4DE00410)] = true := by decide +kernel

theorem witness_runs_lanes : allRun [
    (.shfl false 7 8 16 24, 0x50E20818),
    (.voteAll false 7 0 0, 0x51E00000),
    (.voteAny false 7 0 0, 0x51E00001),
    (.voteBallot false 7 8 0, 0x51E20002),
    (.voteUni false 7 0 8, 0x51E00403),
    (.red false 7 8 16 0 0, 0x52E20800),
    (.scanl false 7 8 16 0 false 0, 0x53E20800),
    (.conf false 7 8 16, 0x54E20878),
    (.bcast false 7 8 16, 0x55E20878)] = true := by decide +kernel

theorem witness_runs_control : allRun [
    (.bra false 7 8, 0x58FE3C08),
    (.call false 7 8 16, 0x59E23C10),
    (.ret false 7 8, 0x5AFE0400),
    (.join false 7, 0x5BFE3C00),
    (.joinM false 7 8, 0x5BFE0401),
    (.loop false 0 104 1, 0x5CE03401),
    (.endl false 0 64, 0x5DE03C40),
    (.lwait false 7 0, 0x5EFE3C00),
    (.brx false 7 8 16, 0x5FFE0410)] = true := by decide +kernel

theorem witness_runs_memory : allRun [
    (.ld false 7 8 16 0 0, 0x60E20800),
    (.st false 7 8 16 0, 0x61E20878),
    (.ldv false 7 8 16 0 0, 0x62E20800),
    (.stv false 7 8 16 0, 0x63E20878),
    (.stq false 7 8 16 15 0, 0x64E20878),
    (.prf false 7 8 false, 0x65FE047A),
    (.lds false 7 8 16 0 0, 0x66E20800),
    (.qrd false 7 8 0 0, 0x67E20000),
    (.qwr false 7 8 0 15, 0x68E20078)] = true := by decide +kernel

theorem witness_runs_atomics : allRun [
    (.atom false 7 8 16 0 0, 0x6CE20800),
    (.cas false 7 8 16 0 0, 0x6DE20800),
    (.atomf false 7 8 16 0 0, 0x6EE20800),
    (.atst false 7 8 16 0 0, 0x6FE20800)] = true := by decide +kernel

theorem witness_runs_mill : allRun [
    (.mclaim false 7 8 0 0, 0x70E20000),
    (.mrel false 7 0 0, 0x70FE0020),
    (.mbind false 7 8 16 0, 0x70E20840),
    (.mma false 7 8 0 0, 0x71E20000),
    (.mmas false 7 8 0 0, 0x71E20020),
    (.amovRd false 7 8 16 0, 0x72E20800),
    (.amovWr false 7 8 16, 0x72E20879),
    (.azero false 7 8 16, 0x73E20800),
    (.acvt false 7 8 16 false 0, 0x73E20840),
    (.qmv false 7 8 16, 0x74E20800),
    (.rjoin false 7 8, 0x74FE0440)] = true := by decide +kernel

theorem witness_runs_copies : allRun [
    (.copy false 7 8 16 0 false 0, 0x75E20800),
    (.gather false 7 8 16, 0x76E20800),
    (.sbind false 7 0 8, 0x76E00401),
    (.stream false 7 8, 0x76FE0402),
    (.streamPost false 7 8, 0x76FE0403),
    (.hwaitFree false 7 8, 0x77FE0400),
    (.hwaitFull false 7 8, 0x77FE0401),
    (.hrel false 7 8, 0x77FE0402),
    (.hstat false 7 8 16, 0x77E20803)] = true := by decide +kernel

theorem witness_runs_scans : allRun [
    (.scfg false 7 0 0, 0x78FE3C00),
    (.scan false 7 8, 0x78FE0420),
    (.csend false 7 8, 0x79FE0400),
    (.crecv false 7 8, 0x79FE0420),
    (.cbar false 7 8, 0x79E23C40)] = true := by decide +kernel

theorem witness_runs_units : allRun [
    (.grow false 7 8 16, 0x7AE20800),
    (.spawn false 7 8 16, 0x7AE20820),
    (.qpush false 7 8 16 0, 0x7BE20800),
    (.qpop false 7 8 16 0, 0x7BE20820),
    (.cwait false 7 0, 0x7CFE3C00),
    (.cancel false 7 0, 0x7CFE3C20),
    (.incup false 7 8 16 false 0, 0x7DE20800),
    (.incrd false 7 8 false 0, 0x7DE23C20),
    (.bndset false 7 8, 0x7DFE0440),
    (.bndcfg false 7 8, 0x7DFE0460),
    (.fence false 7 0 false 8, 0x7EE00400),
    (.bar false 0, 0x7EE03C01),
    (.qfence false 7 0 8, 0x7EE00402)] = true := by decide +kernel

/-- `MMAB` takes a `LIMM` with its bitmap. -/
theorem witness_runs_mmab : runsWith (fun _ => true) (.mmab false 7 8 0 0) (dressed 0x71E20040 (withLimm 1) id) = true := by decide +kernel

/-! ### Steps that are not well formed, each refused by its check -/

theorem test_wellFormed_words :
    -- pairs with no second register or an odd member; reserved conditions, types, formats, modes, flags, queues and counters
    (Instr.lea false 7 103 0 0).wellFormed = false ∧ (Instr.call false 7 103 0).wellFormed = false
    ∧ (Instr.icmp false 7 10 0 0 0).wellFormed = false ∧ (Instr.fcmp false 7 8 0 0 0).wellFormed = false
    ∧ (Instr.cvti false 7 0 0 0 24).wellFormed = false ∧ (Instr.cvtb false 7 0 0 2 0).wellFormed = false
    ∧ (Instr.red false 7 0 0 7 4).wellFormed = false ∧ (Instr.frnd false 7 0 0 6).wellFormed = false
    ∧ (Instr.lwait false 7 12).wellFormed = false ∧ (Instr.copy false 7 0 0 5 false 0).wellFormed = false
    ∧ (Instr.loop false 3 0 1).wellFormed = false ∧ (Instr.pmovV false 7 0 7).wellFormed = true
    ∧ (Instr.icmp false 7 0 7 0 0).wellFormed = false := by decide +kernel

/-- An event that names a bank, core, quadrant, die, context, stream register, incumbent or line which the package lacks. -/
theorem test_wellFormed_events : [Instr.bootImageLoad 2, .quadrantCycle 192 0, .quadrantCycle 0 4, .tlbWalk 4 0 0, .tlbWalk 0 64 0,
    .streamElementFetch 0 8, .unitAdmission 192, .crierReplicaUpdate 0 16 false 0, .crierReplicaUpdate 0 0 true 4,
    .crierReplicaUpdate 0 0 false 192, .saveRequest 192 0, .drainEnd 192, .saveEnd 192, .restore 0 192,
    .contextCreate 64 0 false 0 0 0 0 0 0 [], .contextCreate 0 8 false 0 0 0 0 0 0 [], .dvfSetPoint 4 0, .dvfGate 4 0, .dvfWake 4 0,
    .pointChangeDone 4, .gatingDone 4, .wakeDone 4, .thermalThrottle 4, .throttleRelease 4, .scrubPass 4831838208 0,
    .coreFailure 192].all (fun i => !i.wellFormed) = true
    ∧ (Instr.scrubPass 4831838207 0).wellFormed = true ∧ (Instr.quadrantCycle 191 3).wellFormed = true := by decide +kernel

/-! ### Premises of the statements about words, clause by clause -/

/-- The registers of the forms: pairs, clamped forms, both halves; and an immediate from a `LIMM`. -/
theorem witness_forms :
    onIt (fun c => c.form == 2) (.iadd false 7 8 16 24) (withForm 2) id = true
    ∧ onIt (fun c => c.form == 5) (.isub false 7 8 16 24) (withForm 5) id = true
    ∧ onIt (fun c => c.form == 4) (.fadd false 7 8 16 24) (withForm 4) id = true
    ∧ onIt (fun c => c.limm == some 0xFFFFFF) (.iaddi false 7 8 16 24) (withLimm 0xFFFFFF) id = true := by
  decide +kernel

/-- `SHI` with the greatest `LIMM` that it takes and the least that it does not. -/
theorem witness_shi :
    onIt (fun c => (shiftSelect c 0 0).isSome) (.shi false 7 8 16 0 0) (withLimm 127) id = true
    ∧ onIt (fun c => (shiftSelect c 0 0).isNone) (.shi false 7 8 16 0 0) (withLimm 128) id = true := by decide +kernel

theorem witness_specialFunctions : (7 < 8) ∧ f32.decode 0x40E00000 = .fin false 0xE00000 (-21) ∧ f32.decode 0x80000000 = .fin true 0 0 := by
  decide +kernel

theorem witness_qblk :
    onIt (fun c => c.bunch == 32 && (fmtOf (11 + 4) false).isSome) (.qblk false 7 8 16 15 4) id id = true
    ∧ onIt (fun c => c.bunch != 32) (.qblk false 7 8 16 15 4) (fun f => { f with bp := 16 }) id = true := by decide +kernel

/-- `SHFL` from lanes that live and from lanes that do not, no register of theirs poison. -/
theorem witness_shfl :
    onIt (fun c => c.actLanes.all fun l => (List.range 2).all fun k => (c.poisonIn (16 + k) (source c (c.b32 24 l) l)).isNone)
      (.shfl false 7 8 16 24) (withForm 4) id = true
    ∧ onIt (fun c => (c.f.lane (source c (c.b32 24 0) 0)).life == .exited && (c.poisonIn 16 (source c (c.b32 24 0) 0)).isNone)
      (.shfl false 7 8 16 24) (fun f => (vreg 24 (fun _ => 31) f).updLanes (BitVec.twoPow 32 31) fun _ x =>
        { x with life := .exited }) id = true := by decide +kernel

/-- A position issues a hint, and its context meets a test. -/
def hintWith (P : Ctx → Bool) (i : Instr) (s : State) : Bool := match s.issuing i with
  | some (some c) => P c
  | _ => false
def hintOn (P : Ctx → Bool) (i : Instr) (g : Sheaf → Sheaf) (h : State → State) : Bool := hintWith P i (dressed ((encode i).getD 0).toNat g h)
theorem hint_of (P : Ctx → Bool) (i : Instr) (s : State) (h : hintWith P i s = true) : ∃ c, RunsHint i s c ∧ P c = true := by
  unfold hintWith at h
  split at h
  · next c hc => exact ⟨c, ⟨hc⟩, h⟩
  · cases h

theorem witness_hints :
    hintOn (fun _ => true) (.sched 0 7 7 7 7) id id = true ∧ hintOn (fun _ => true) (.xmod 15 0 false 0 0 0) id id = true
    ∧ hintOn (fun c => (List.range 32).all fun l => (c.f.lane l).limm.isNone) (.limm 5) id id = true
    ∧ hintOn (fun c => (List.range 32).all fun l => (c.f.lane l).limm.isSome) (.limm 5) (withLimm 1) id = true := by decide +kernel

/-- The last numbers that name a register, and the first that do not. -/
theorem witness_numberedRegisters :
    onIt (fun c => c.actLanes.all fun l => numberOk c false (c.r32 16 l) && (c.poisonIn (c.r32 16 l).toNat l).isNone)
      (.rdx false 7 8 16) (vreg 16 fun _ => 127) id = true
    ∧ onIt (fun c => c.actLanes.all fun l => !numberOk c false (c.r32 16 l)) (.rdx false 7 8 16) (vreg 16 fun _ => 128) id = true
    ∧ onIt (fun c => c.actLanes.all fun l => numberOk c true (c.r32 8 l)) (.wrx false 7 8 16) (vreg 8 fun _ => 120) id = true
    ∧ onIt (fun c => c.actLanes.all fun l => !numberOk c true (c.r32 8 l)) (.wrx false 7 8 16) (vreg 8 fun _ => 121) id = true
    ∧ onIt (fun c => c.unit.lrec.nv == 64 && !numberOk c false (c.r32 16 0)) (.rdx false 7 8 16)
      (vreg 16 fun _ => 64) (unitBy fun u => { u with lrec := { u.lrec with nv := 64 } }) = true := by decide +kernel

/-- Selectors 63, 77 and 78 to read; 68 with a mode that is and one that is not, and 70, to write. -/
theorem witness_sheafRegisters :
    onIt (fun c => c.f.uPoison.get 63 == none) (.movsRd false 7 8 63) id id = true
    ∧ onIt (fun c => (sheafReg c.f 77).isSome) (.movsRd false 7 8 77) id id = true
    ∧ onIt (fun c => (sheafReg c.f 78).isNone) (.movsRd false 7 8 78) id id = true
    ∧ onIt (fun _ => true) (.movsWr false 7 63 16) id id = true
    ∧ onIt (fun c => (sheafRegSet c.f 68 (c.low32 16)).isSome) (.movsWr false 7 68 16) (vreg 16 fun _ => 12) id = true
    ∧ onIt (fun c => (sheafRegSet c.f 68 (c.low32 16)).isNone) (.movsWr false 7 68 16) (vreg 16 fun _ => 5) id = true
    ∧ onIt (fun c => (sheafRegSet c.f 70 (c.low32 16)).isNone) (.movsWr false 7 70 16) id id = true := by decide +kernel

/-- A flag part open in lane 31 only. -/
theorem witness_lwait : onIt (fun c => c.f.laneFlag 11 31 == 1 && c.f.laneFlag 11 30 == 0) (.lwait false 7 11)
    (fun f => { f with flagOps := [⟨9, 11, BitVec.twoPow 32 31⟩] }) id = true := by decide +kernel

/-- The lanes that a `LOOP` must hold, as a test. -/
def holdsB (c : Ctx) : Bool := (List.range 32).all fun l => !((c.f.lane l).life == .live && !(c.f.lane l).handler) || c.lanes.getLsbD l
theorem holdsB_iff (c : Ctx) : holdsB c = true ↔ holdsAll c := by
  simp only [holdsB, holdsAll, List.all_eq_true, List.mem_range]
  refine forall_congr' fun l => forall_congr' fun _ => ?_
  cases (c.f.lane l).handler <;> simp [imp_iff_not_or]

/-- Loops that hold every live lane, and ones that do not or whose distance has the wrong sign. -/
theorem witness_loops :
    onIt (fun c => holdsB c) (.loop false 2 104 63) id id = true
    ∧ onIt (fun c => !holdsB c) (.loop false 2 104 63) id (posBy 0xFFFFFFFE) = true
    ∧ onIt (fun _ => true) (.loop false 2 104 1) (withLimm 0) id = true
    ∧ onIt (fun c => holdsB c && decide (opImm c 127 < 0)) (.endl false 2 127) id id = true
    ∧ onIt (fun c => decide (¬ opImm c 127 < 0)) (.endl false 2 127) (withLimm 5) id = true := by decide +kernel

/-- Targets at and past the ends of what `RET` and `BRX` take; lanes in and out of a handler. -/
theorem witness_returns :
    onIt (fun c => c.actLanes.all fun l => decide ((c.r64 8 l).toNat < 2 ^ 57 ∧ (c.r64 8 l).toNat % 4 = 0)) (.ret false 7 8)
      (fun f => vreg 8 (fun _ => 0xFFFFFFFC) (vreg 9 (fun _ => 0x1FFFFFF) f)) id = true
    ∧ onIt (fun c => c.actLanes.all fun l => decide ¬ ((c.r64 8 l).toNat < 2 ^ 57)) (.ret false 7 8)
      (vreg 9 fun _ => 0x2000000) id = true
    ∧ onIt (fun c => decide ((c.r64 8 0).toNat % 4 = 2)) (.brx false 7 8 16) (vreg 8 fun _ => 2) id = true
    ∧ onIt (fun c => c.actLanes.all fun l => (c.f.lane l).handler) (.eret 7) (lanesBy fun x => { x with handler := true }) id = true
    ∧ onIt (fun c => c.actLanes.all fun l => !(c.f.lane l).handler) (.eret 7) id id = true := by decide +kernel

/-! #### Memory words -/

/-- The placed unit with a window of 4 KiB, private memory of 64 bytes, the handles 8 and 9 and a quarter of the tiles. -/
def roomy : UnitSt → UnitSt := fun u => { u with lrec := { u.lrec with win := 4096, priv := 64, handles := [8, 9], pword := 0x00101040 } }
/-- Words of four bytes at window addresses. -/
def windowHolds (l : List (Nat × Nat)) : State → State := unitBy fun u => l.foldl (fun u w => u.winWrite w.1 (toBytes 4 w.2)) (roomy u)
/-- The placed sheaf and the rest, no word issuing. -/
def resting (g : Sheaf → Sheaf) (h : State → State) : State := { dressed 0x01000000 g h with cur := none }
/-- The sheaf of such a state, and its unit. -/
def theSheaf (s : State) : Sheaf := (s.sheaf 2).getD {}
def theUnit (s : State) : UnitSt := (s.unit 1).getD {}

/-- An address in the window, one past it, one off its alignment, one past the private memory, one past 2^57. -/
theorem witness_loads :
    onIt (fun c => !c.isStepped && c.actLanes.all fun l => (addressFault c.unit 0 (address c 0 16 l) 4).isNone) (.ld false 7 8 16 11 0)
      (vreg 16 fun _ => 4092) (unitBy roomy) = true
    ∧ onIt (fun c => !c.isStepped && addressFault c.unit 0 (address c 0 16 0) 4 == some 0) (.ld false 7 8 16 15 0) (vreg 16 fun _ => 4096) (unitBy roomy) = true
    ∧ onIt (fun c => !c.isStepped && addressFault c.unit 0 (address c 0 16 0) 16 == some 2) (.ldv false 7 8 16 0 0) (vreg 16 fun _ => 8) (unitBy roomy) = true
    ∧ onIt (fun c => !c.isStepped && addressFault c.unit 1 (address c 1 16 0) 4 == some 0) (.ld false 7 104 16 0 1) (vreg 16 fun _ => 64) (unitBy roomy) = true
    ∧ onIt (fun c => !c.isStepped && addressFault c.unit 3 (address c 3 16 0) 4 == some 3) (.lds false 7 8 16 0 3) (vreg 17 fun _ => 0x2000000) id = true := by
  decide +kernel

/-- A store queue with room for one entry, and a full one. -/
theorem witness_stores :
    onIt (fun c => !c.isStepped && decide (c.f.storeQueue.length < 64)) (.st false 7 8 16 0)
      (fun f => { f with storeQueue := List.replicate 63 { parts := [{ lane := 31 }] } }) (unitBy roomy) = true
    ∧ onIt (fun c => !c.isStepped && decide (64 ≤ c.f.storeQueue.length)
        && c.f.storeQueue.all fun e => e.parts.all fun x => decide (x.lane < 32) && c.lanes.getLsbD x.lane) (.stv false 7 8 16 0)
      (fun f => { f with storeQueue := List.replicate 64 { parts := [{ lane := 31 }] } }) (unitBy roomy) = true := by decide +kernel

/-- Two stores of lane 3 to the window, the second over half of the first, and one to memory. -/
def queued : List StoreEntry := [
  { id := 5, space := .sp, parts := [{ lane := 3, ea := 8, bytes := [1, 2, 3, 4] }] },
  { id := 6, space := .ga, parts := [{ lane := 3, ea := 0x10100, bytes := [9], phys := some 0x10100 }] },
  { id := 7, space := .sp, parts := [{ lane := 3, ea := 10, bytes := [5, 6] }, { lane := 4, ea := 12, bytes := [7] }] }]
def withQueue : State := resting (fun f => { f with storeQueue := queued }) (unitBy roomy)

theorem witness_commit : (withQueue.sheaf 2).isSome = true ∧ (withQueue.unit (theSheaf withQueue).unit).isSome = true := by decide +kernel
/-- Lane 3's stores are performed in order, lane 4's waits. -/
theorem test_commit :
    let t := withQueue.commit 2 8
    ((List.range 5).map fun j => (theUnit t).winByte (8 + j)) = [1, 2, 5, 6, 0] ∧ t.byteAt 0x10100 = 9
    ∧ (theSheaf t).storeQueue = [{ id := 7, space := .sp, parts := [{ lane := 4, ea := 12, bytes := [7] }] }] := by decide +kernel

/-- A place found, with the state that its translation leaves. -/
def hereB (x : Loc) (P : Acc → State → Bool) : Bool := match x with
  | .here a p => P a p
  | _ => false
def badB (x : Loc) : Bool := match x with
  | .bad _ => true
  | _ => false

/-- A load of the window, one of memory, one that the page forbids, an atomic's value. -/
def waiting (o : Outstanding) : State := resting (fun f => { f with storeQueue := queued, outstanding := [o], flagOps := [⟨9, 0, 8⟩] })
  (unitBy roomy)
def loadOf (space : Space) (ea : DWord) : Outstanding := { id := 5, lane := 3, kind := .load, space := space, ea := ea, size := 4, dst := 8, op := 9 }
theorem witness_replies :
    ((theSheaf (waiting { loadOf .sp 8 with kind := .value [7] })).outstanding.find? (fun x => x.id == 5)).isSome = true
    ∧ (let s := waiting (loadOf .sp 8)
       hereB (s.locate (theSheaf s) .sp 3 8 4 .read false) fun a _ => !a.watched && a.win && a.keys.length == 4
         && a.keys.all fun k => !((s.unit (theSheaf s).unit).getD default).badByte k) = true
    ∧ (let s := waiting (loadOf .ga 0x10100)
       hereB (s.locate (theSheaf s) .ga 3 0x10100 4 .read false) fun a p => !a.watched && !a.win && a.keys.length == 4
         && !p.laneHeld (theSheaf s).coreNo (s.unitOf (theSheaf s)).ctx (a.keys.headD 0) && !(a.keys.any s.poisonAt)
         && (s.core (theSheaf s).coreNo).cache.all fun x => x.1 != a.keys.headD 0 / 128) = true
    ∧ (let s := waiting (loadOf .pv 0)
       badB (s.locate (theSheaf s) .pv 3 0 4 .read false)) = true := by decide +kernel

/-- The lane's own queued stores, youngest first, answer its load. -/
theorem test_loadReply : (match exec (.loadReply 2 5) (waiting (loadOf .sp 8)) with
  | .next t => (theSheaf t).v.get (vKey 8 3) == 0x06050201 && (theSheaf t).outstanding == [] && (theSheaf t).flagCount 0 == 0
  | _ => false) = true := by decide +kernel

theorem witness_atomics :
    onIt (fun c => c.actLanes.all fun l => (addressFault c.unit 0 (address c 0 16 l) 4).isNone && (c.declined (issued 0) l).isNone)
      (.atom false 7 8 16 3 0) (vreg 16 fun _ => 4092) (unitBy roomy) = true
    ∧ (let s := dressed 0x6CE20818 (vreg 16 fun _ => 4092) (unitBy roomy)
       (s.sheaf 2).isSome = true ∧ (s.unit 1).isSome = true ∧ s.windowWatched (theSheaf s) = false
       ∧ (theUnit s).winPoison.get 511 = false) := by decide +kernel

/-- 32 lanes add 1 to one word: each finds what the lane before it left. -/
theorem test_atom_in_turn : (match exec (.atom false 7 8 16 3 0)
    (dressed 0x6CE20818 (fun f => vreg 16 (fun _ => 4092) (vreg 8 (fun _ => 1) f)) (unitBy roomy)) with
  | .next t => (theUnit t).winValue 4092 4 == 32
      && (theSheaf t).outstanding.map (fun o => (o.lane, o.kind)) == (List.range 32).map fun l => (l, .value [BitVec.ofNat 32 l])
  | _ => false) = true := by decide +kernel

/-- An address past the window, a page that forbids it, a target that lacks the operation, and memory that has it. -/
theorem witness_atomicLanes :
    let s := dressed 0x6CE20818 id (unitBy roomy)
    let f := theSheaf s
    (s.sheaf 2).isSome = true ∧ addressFault (theUnit s) 0 4096 4 = some 0
    ∧ addressFault (theUnit s) 1 0 4 = none ∧ badB (s.locate f .pv 3 0 4 .atomic true) = true
    ∧ addressFault (theUnit s) 3 0x10100 4 = none ∧ hereB (s.locate f .ga 3 0x10100 4 .atomic true) (fun a p => !a.win
        && (p.targetFault [1] (a.keys.headD 0) 4 (s.vaOf f .ga 3 0x10100)).isNone && (p.refuses a 0x6C 8 false).isNone
        && !p.laneHeld f.coreNo 1 (a.keys.headD 0) && !(a.keys.any (a.keys.foldl State.verifyLine p).poisonAt)) = true
    ∧ (let h : State := { s with tlbs := s.tlbs.map fun t => { t with leaf := t.leaf ||| 0x2000000000000000 } }
       hereB (h.locate f .ga 3 0x10100 4 .atomic true) (fun a p => (p.refuses a 0x6C 8 false).isSome)) = true
    ∧ (let h : State := { s with contexts := ⟨[(1, some { budgets := [0, 0, 0, 0, 0], used := [1, 1, 1, 1, 1] })]⟩ }
       hereB (h.locate f .ga 3 0x10100 4 .atomic true) (fun a p => p.laneHeld f.coreNo 1 (a.keys.headD 0)) = true) := by decide +kernel

theorem witness_fences :
    onIt (fun c => c.f.outstanding.all fun o => !o.inRegion || !c.lanes.getLsbD o.lane) (.fence false 7 8 true 127)
      (fun f => { f with outstanding := [{ id := 1, lane := 3, kind := .value [], inRegion := false }] }) id = true := by decide +kernel

/-- A stream record of the window: in order, off its alignment, past the window, with a reserved bit, with no count. -/
theorem witness_sbind :
    onIt (fun c => (c.low32 8).toNat % 32 == 0) (.sbind false 7 7 8) (vreg 8 fun _ => 4064) (windowHolds [(4080, 1), (4084, 0x1C)]) = true
    ∧ onIt (fun c => (c.low32 8).toNat % 32 != 0) (.sbind false 7 7 8) (vreg 8 fun _ => 16) (unitBy roomy) = true
    ∧ onIt (fun c => decide (c.unit.lrec.win < (c.low32 8).toNat + 32)) (.sbind false 7 7 8) (vreg 8 fun _ => 4096) (unitBy roomy) = true
    ∧ onIt (fun c => c.unit.winValue 0x14 4 == 32) (.sbind false 7 7 8) id (windowHolds [(0x10, 1), (0x14, 32)]) = true
    ∧ onIt (fun c => c.unit.winValue 0x10 4 == 0) (.sbind false 7 7 8) id (unitBy roomy) = true := by decide +kernel

/-! #### Traps, regions, faults -/

/-- A word keeps no shape, and stands in nothing else's way; the context meets a test. -/
def offShape (P : Ctx → Bool) (i : Instr) (g : Sheaf → Sheaf) (h : State → State) : Bool :=
  let s := dressed ((encode i).getD 0).toNat g h
  (encode i).isSome && match s.issuing i with
    | some (some c) => !opIsHint (c.shapeOf i).op && (s.sheaf c.id).isSome && c.act != 0 && !wordHeld i (c.shapeOf i) c s
        && (c.f.firstFault (if (c.shapeOf i).endsRegion then c.f.faultedLanes c.lanes else 0)).isNone
        && !shapeOk (c.shapeOf i) c.unit.lrec.nv c.limm.isSome c.x && P c
    | _ => false

/-- No handler; another lane in a handler; the lane itself in one. A pair has an odd register in form 2 of `IADD`. -/
theorem witness_trappingWords :
    offShape (fun c => c.f.handlerMask == 0 && c.f.trap.isNone) (.iadd false 7 9 16 24) (withForm 2) id = true
    ∧ offShape (fun c => (c.f.handlerMask &&& c.act) == 0 && c.f.handlerMask != 0) (.iadd false 7 9 16 24)
      (fun f => (withForm 2 f).updLanes 1 fun _ x => { x with handler := true }) (posBy 2) = true
    ∧ offShape (fun c => (c.f.handlerMask &&& c.act) == 0 && c.f.trap.isSome) (.iadd false 7 9 16 24)
      (fun f => { withForm 2 f with trap := some { lanes := 1 } }) (posBy 2) = true
    ∧ offShape (fun c => (c.f.handlerMask &&& c.act) != 0) (.iadd false 7 9 16 24) (fun f => (withForm 2 f).updLanes 1 fun _ x =>
      { x with handler := true }) id = true := by decide +kernel

/-- A trap of lane 0 of a kind that the launch has an entry for. -/
def vectored : UnitSt → UnitSt := fun u => { roomy u with lrec := { (roomy u).lrec with temul := 0x20000 } }
def trapped (g : Sheaf → Sheaf) (k : TrapKind) : State := resting (fun f => g { f with trap := some { kind := k, lanes := 1, emw := 7, empc := 0x10000 } }) (unitBy vectored)
def poisonedLane (f : Sheaf) : Sheaf := f.updLanes 1 fun _ x => { x with poisoned := some {} }
theorem witness_trapEntry :
    let ok (s : State) : Bool := (theSheaf s).trap.isSome && (theSheaf s).place.isSome && !s.commitHeld (theSheaf s) 1 && s.drained 2 (theSheaf s) && (theSheaf s).translated 1
    let u := trapped id .emul
    let v := trapped poisonedLane .emul
    let w := trapped id .lane
    let h := trapped (fun f => { f with storeQueue := [{ id := 5, space := .ga, parts := [{ bytes := [1], phys := some (2 ^ 60) }] }] }) .emul
    ((theSheaf h).place.isSome = true ∧ h.drained 2 (theSheaf h) = true ∧ (theSheaf h).translated 1 = true ∧ (theSheaf h).firstFault 1 = none
      ∧ ({ h with peers := ⟨[(Config.host, { broken := true })]⟩ } : State).commitHeld (theSheaf h) 1 = true ∧ h.commitHeld (theSheaf h) 1 = false)
    ∧ (ok u = true ∧ (theSheaf u).firstFault 1 = none ∧ vector (u.unitOf (theSheaf u)) .emul ≠ 0)
    ∧ (ok v = true ∧ (theSheaf v).firstFault 1 = some {})
    ∧ (ok w = true ∧ (theSheaf w).firstFault 1 = none ∧ vector (w.unitOf (theSheaf w)) .lane = 0) := by decide +kernel
theorem test_trapEntry : (match exec (.trapEntry 2) (trapped id .emul) with
  | .next t => let f := theSheaf t
    (f.lane 0).pc == 0x20000 && (f.lane 0).handler && (f.lane 1).pc == 0x10000 && !(f.lane 1).handler && f.emw == 7 && f.empc == 0x10000 && f.trap == none
  | _ => false) = true := by decide +kernel

theorem witness_yParkEnd :
    let s (late : List Mask) (g : Sheaf → Sheaf) : State := resting (fun f => g { f with park := some ⟨1, late⟩ }) id
    let drained (t : State) : Bool := t.drained 2 (theSheaf t)
    let live (t : State) : Mask := 1 &&& (theSheaf t).liveMask
    drained (s [] id) = true ∧ (theSheaf (s [] id)).place.isSome = true ∧ (s [1] id).commitHeld (theSheaf (s [1] id)) (live (s [1] id)) = false
    ∧ (drained (s [1] id) = true ∧ (theSheaf (s [1] id)).translated (live (s [1] id)) = true ∧ (theSheaf (s [1] id)).firstFault (live (s [1] id)) = none)
    ∧ (let t := s [1] poisonedLane
       drained t = true ∧ (theSheaf t).translated (live t) = true ∧ (theSheaf t).firstFault (live t) = some {}) := by decide +kernel

/-- A rolled-back lane gives up its part of a flag and its queued store, and its `RM` returns. -/
theorem test_rollback :
    let s := resting (fun f => { (f.updLanes 8 fun _ x => { x with start := 0x10040, wroteRm := true, startRm := 3, startSeq := 1 }) with
      rm := 1, storeQueue := queued, flagOps := [⟨9, 0, 0x18⟩] }) id
    let f := theSheaf (s.rollback 2 8)
    (f.lane 3).pc = 0x10040 ∧ f.rm = 3 ∧ f.storeQueue.map (fun e => e.parts.map StorePart.lane) = [[4]] ∧ f.laneFlag 0 3 = 0 ∧ f.laneFlag 0 4 = 1 := by
  decide +kernel

/-- Nine replays, and eight. -/
theorem test_replayLimit : (match exec (.replayLimit 2) (resting (fun f => (f.updLanes 1 fun _ x => { x with replays := 9 }).updLanes 2 fun _ x =>
    { x with replays := 8 }) id) with
  | .next t => ((theSheaf t).lane 0).stepped && !((theSheaf t).lane 1).stepped
  | _ => false) = true := by decide +kernel

/-- A fault of each kind reported, before issue and in a region. -/
def faulted (k : PoisonKind) (stage : Service) (inPlace : Bool) : State :=
  resting (fun f => { f with awaiting := [⟨3, { kind := k, addr := 0x40000 }, stage, inPlace, []⟩] }) id
theorem witness_faultService : [PoisonKind.notPresent, .highWater, .brokenRemote, .uncorrected, .race, .unserviceable, .lost].all (fun k =>
    ((theSheaf (faulted k .reported false)).awaiting.find? fun x => x.stage == .reported) == some ⟨3, { kind := k, addr := 0x40000 }, .reported, false, []⟩)
    = true := by decide +kernel
theorem test_faultService : (match exec (.faultService 2 true) (faulted .unserviceable .reported false) with
  | .next t => ((theSheaf t).lane 0).stepped && ((theSheaf t).lane 0).replays == 1 && ((theSheaf t).lane 2).replays == 0 && (theSheaf t).awaiting == []
  | _ => false) = true := by decide +kernel

/-- The driver asked about a high-water mark: the highest and the lowest that it may set, and one that it may not. -/
theorem witness_driverAnswer :
    let s := { faulted .highWater .atDriver false with contexts := (⟨[(1, some { hwm := 512, pvb := 0x40000, pspan := 0x8000 })]⟩ : Store (Option Context)) }
    let x := (s.context (s.unitOf (theSheaf s)).ctx).getD {}
    ((theSheaf s).awaiting.find? fun y => y.stage == .atDriver).isSome = true ∧ (s.context 1).isSome = true
    ∧ (1024 % 512 = 0 ∧ x.hwm ≤ 1024 ∧ x.privByte (theSheaf s) 0x40000 < 1024 ∧ 1024 ≤ x.pspan / 32) ∧ (512 ≤ x.pspan / 32 ∧ ¬ 1536 ≤ x.pspan / 32)
    ∧ ((theSheaf (faulted .notPresent .atDriver true)).awaiting.find? fun y => y.stage == .atDriver).isSome = true := by decide +kernel

/-- Page 1 of context 1 mapped readable, writable and executable, by one table at address 0 that is its own next table. -/
def tables : List (Nat × Nat) := [(0, 1), (8, 0x1002F)]
def mapped (s : State) : State := { s.writeTables tables with contexts := ⟨[(1, some {})]⟩ }
theorem witness_translations :
    let s := { mapped (resting (fun f => { f with outstanding := [loadOf .ga 0x20000] }) id) with misses := [⟨0, 1, 1⟩, ⟨0, 1, 2⟩] }
    Miss.mk 0 1 1 ∈ (s.misses.filter fun x => x.die == 0).take 32 ∧ s.walk 1 1 = .leaf 0x1002F 1 1 ∧ s.walk 1 2 = .absent
    ∧ ((theSheaf s).place.isSome = true ∧ (theSheaf s).coreNo / 48 = 0 ∧ (s.unitOf (theSheaf s)).ctx = 1
      ∧ (s.vaOf (theSheaf s) .ga 3 0x20000).toNat / 2 ^ 16 = 2) := by decide +kernel
theorem test_tlbWalk : (match exec (.tlbWalk 0 1 1) { mapped (resting id id) with misses := [⟨0, 1, 1⟩], tlbs := [] } with
  | .next t => t.misses == [] && t.tlbs == [⟨0, none, 1, 1, 1, 0x1002F⟩]
  | _ => false) = true := by decide +kernel
/-- Pages 4 to 5 of a context: the translation of pages 5 and 6 goes, those of page 6 and of another context stay. -/
theorem test_tlbInvalidation : (match exec (.tlbInvalidation 1 4 5) { resting id id with
    tlbs := [⟨0, none, 1, 5, 2, 0x5002F⟩, ⟨0, none, 1, 6, 1, 0⟩, ⟨0, none, 2, 5, 1, 0⟩] } with
  | .next t => t.tlbs == [⟨0, none, 1, 6, 1, 0⟩, ⟨0, none, 2, 5, 1, 0⟩]
  | _ => false) = true := by decide +kernel
def oneStore (ea : DWord) : State := resting (fun f => { f with storeQueue := [{ id := 5, space := .ga, parts := [{ lane := 3, ea := ea, bytes := [1] }] }] }) id
theorem witness_storeTranslated :
    let find (s : State) : Bool := ((theSheaf s).storeQueue.find? fun x => x.id == 5).isSome
    find (oneStore 0x10008) = true ∧ hereB ((oneStore 0x10008).locate (theSheaf (oneStore 0x10008)) .ga 3 0x10008 1 .write false)
      (fun a _ => !a.watched) = true
    ∧ (let s := { oneStore 0x10008 with tlbs := [⟨0, none, 1, 1, 1, 0x10023⟩] }
       find s = true ∧ badB (s.locate (theSheaf s) .ga 3 0x10008 1 .write false) = true) := by decide +kernel

/-! #### Streams -/

/-- A read stream with elements buffered for every lane; none bound; a write stream at its last element but 31. -/
def reading (f : Sheaf) : Sheaf := { f with streams := f.streams.set 7 { bound := true, count := 32, sp := true, buffer := ((List.range 32).map fun k => ({ k := k } : StreamElem)) } }
def writing (f : Sheaf) : Sheaf := { f with streams := f.streams.set 7 { bound := true, write := true, wide := true, count := 32, sp := true } }
theorem witness_streams :
    let q (c : Ctx) : StreamReg := c.f.streams.get 7
    onIt (fun c => !c.isStepped && (q c).bound && !(q c).write && !(q c).wide && (q c).rewound.isEmpty && decide (c.actLanes.length ≤ (q c).buffer.length))
      (.qrd false 7 8 7 15) reading id = true
    ∧ onIt (fun c => !c.isStepped && !(q c).bound && !(q c).wide) (.qrd false 7 8 7 0) id id = true
    ∧ onIt (fun c => (q c).wide && !groupOk c.unit.lrec.nv 9 2 true) (.qrd false 7 9 7 0) writing id = true
    ∧ onIt (fun c => (q c).wide && groupOk c.unit.lrec.nv 8 2 false && decide (c.f.storeQueue.length < 64)) (.qwr false 7 8 7 15) writing id = true := by
  decide +kernel
theorem witness_streamElements :
    let r : StreamReg := { bound := true, sp := true, count := 2, stride := 4, base := 4088, buffer := List.replicate 255 {}, fetched := 1 }
    let w : StreamReg := { r with write := true, wide := true, base := 0 }
    let at_ (r : StreamReg) (k : Nat) : DWord := r.base + BitVec.ofNat 64 k * r.stride
    (r.bound = true ∧ r.kind = 0 ∧ r.sp = true ∧ r.write = false ∧ r.buffer.length < 256 ∧ r.fetched < r.count ∧ (at_ r 1).toNat % 4 = 0
      ∧ (at_ r 1).toNat + 4 ≤ (roomy {}).lrec.win ∧ (roomy {}).winPoisoned (at_ r 1).toNat 4 = false)
    ∧ (w.bound = true ∧ w.write = true) := by decide +kernel
/-- A push finds its place, then is written as element 2 of its stream as its region commits. -/
def pushed (place : Option Nat) : State := resting (fun f => { f with
  streams := f.streams.set 7 { bound := true, write := true, wide := true, sp := true, count := 4, stride := 16, given := 2 }
  storeQueue := [{ id := 5, stream := some 7, parts := [{ lane := 3, bytes := toBytes 8 0x1122334455667788, phys := place }] }] }) (unitBy roomy)
theorem test_push : (match exec (.storeTranslated 2 5) (pushed none) with
      | .next t => ((theSheaf t).storeQueue.flatMap StoreEntry.parts).map StorePart.phys == [some 32]
      | _ => false) = true
    ∧ (let t := (pushed (some 32)).commit 2 8
       (theUnit t).winValue 32 8 = 0x1122334455667788 ∧ ((theSheaf t).streams.get 7).given = 3 ∧ (theSheaf t).storeQueue = []) := by decide +kernel

/-! #### Engine words: where each clause's form leads -/

/-- A unit with an entry for every trap. -/
def armed : UnitSt → UnitSt := fun u => { roomy u with lrec := { (roomy u).lrec with temul := 0x20000, tlane := 0x21000, tidle := 0x22000, tref := 0x23000 } }
/-- Words of the window under it, and slots 0 and 1 claimed and bound to A's and B's operands. -/
def winHas (l : List (Nat × Nat)) : State → State := unitBy fun u => l.foldl (fun u w => u.winWrite w.1 (toBytes 4 w.2)) (armed u)
def slotsBound (s : State) : State := s.updCore 0 fun k => { k with slots := ⟨[(0, { claim := some 1, bound := true }), (1, { claim := some 1, bound := true })]⟩ }
/-- A word runs, and leaves its lane 0 at an address: the next word, or the handler of a trap. -/
def leads (i : Instr) (g : Sheaf → Sheaf) (h : State → State) (pc : DWord) : Bool := onIt (fun _ => true) i g h
  && match exec i (dressed ((encode i).getD 0).toNat g h) with
    | .next t => ((theSheaf t).lane 0).pc == pc
    | _ => false
/-- The work it leaves in queues. -/
def leaves (i : Instr) (g : Sheaf → Sheaf) (h : State → State) : List (QName × Work) :=
  match exec i (dressed ((encode i).getD 0).toNat g h) with
  | .next t => t.entries.map fun e => (e.queue, e.work)
  | _ => []

/-- Tile 95 of 96 and tile 96; slots bound; a bitmap too wide for its panel; the last tiles cleared, and one past. -/
theorem witness_millWords :
    leads (.mma false 7 95 0 1) id (fun s => slotsBound (unitBy armed s)) 0x10004 = true
    ∧ leads (.mma false 7 96 0 1) id (fun s => slotsBound (unitBy armed s)) 0x20000 = true
    ∧ leads (.mma false 7 0 0 2) id (fun s => slotsBound (unitBy armed s)) 0x20000 = true
    ∧ leads (.mmas false 7 0 0 0) (withLimm 0x010000) (fun s => slotsBound (unitBy armed s)) 0x10004 = true
    ∧ leads (.mmas false 7 0 0 0) (withLimm 0x010001) (fun s => slotsBound (unitBy armed s)) 0x20000 = true
    ∧ leads (.mmab false 7 0 0 1) (withLimm 1) (fun s => slotsBound (unitBy armed s)) 0x10004 = true
    ∧ leads (.mmab false 7 0 0 1) (withLimm 2) (fun s => slotsBound (unitBy armed s)) 0x20000 = true
    ∧ leads (.azero false 7 90 5) id (unitBy armed) 0x10004 = true ∧ leads (.azero false 7 90 6) id (unitBy armed) 0x20000 = true := by decide +kernel
theorem test_mmab_queues : leaves (.mmab false 7 3 0 1) (withLimm 1) (fun s => slotsBound (unitBy armed s))
    = [(.mq, .mill { op := .mmab, tile := 3, n := 1, aSlot := 0, bSlot := 1, bitmap := 1, descs := [(0, {}, {})] })] := by decide +kernel

/-- A plain record of 32 bytes, and a dense tile's record, at a window address. -/
def plainRec (a base : Nat) : List (Nat × Nat) := [(a, base), (a + 0x20, 32), (a + 0x28, 1), (a + 0x30, 1)]
def tileRec (a base : Nat) : List (Nat × Nat) := [(a, base), (a + 8, 0x01080000), (a + 0x20, 32), (a + 0x28, 1), (a + 0x30, 32), (a + 0x38, 32)]

theorem witness_slotWords :
    leads (.mclaim false 7 8 30 1) id (unitBy armed) 0x10004 = true
    ∧ leads (.mclaim false 7 8 0 0) id (fun s => (unitBy armed s).updCore 0 fun k => { k with slots := ⟨[(0, { claim := some 9 })]⟩ }) 0x10004 = true
    ∧ leads (.mrel false 7 0 1) id (fun s => slotsBound (unitBy armed s)) 0x10004 = true
    ∧ leads (.mbind false 7 8 16 1) id (fun s => slotsBound (winHas (tileRec 0 0x10000) s)) 0x10004 = true
    ∧ leads (.mbind false 7 8 16 2) id (fun s => slotsBound (winHas (tileRec 0 0x10000) s)) 0x20000 = true
    ∧ leads (.mbind false 7 8 16 1) id (fun s => slotsBound (winHas (plainRec 0 0x10000) s)) 0x20000 = true
    ∧ leads (.mbind false 7 8 16 1) (vreg 16 fun _ => 32) (fun s => slotsBound (unitBy armed s)) 0x21000 = true
    ∧ leads (.mbind false 7 8 16 1) (vreg 16 fun _ => 4096) (fun s => slotsBound (unitBy armed s)) 0x21000 = true := by decide +kernel
/-- A claim of slots that another unit holds in part answers 0 and claims none; a free one answers 1. -/
theorem test_mclaim : (match exec (.mclaim false 7 8 0 1) (dressed 0x70E20001 id fun s => (unitBy armed s).updCore 0 fun k =>
    { k with slots := ⟨[(1, { claim := some 9 })]⟩ }), exec (.mclaim false 7 8 0 0) (dressed 0x70E20000 id (unitBy armed)) with
  | .next t, .next z => (t.core 0).slots.get 0 == {} && (theSheaf t).timers.map (fun x => x.words.map Prod.snd) == [List.replicate 32 [0]]
      && ((z.core 0).slots.get 0).claim == some 1 && (theSheaf z).timers.map (fun x => x.words.map Prod.snd) == [List.replicate 32 [1]]
  | _, _ => false) = true := by decide +kernel

/-- Element 98303 of 96 tiles, and 98304. -/
theorem witness_tileMoves :
    leads (.amovRd false 7 8 16 0) (vreg 16 fun _ => 98303) (unitBy armed) 0x10004 = true
    ∧ leads (.amovWr false 7 8 16) (vreg 16 fun _ => 98303) (unitBy armed) 0x10004 = true
    ∧ leads (.amovWr false 7 8 16) (vreg 16 fun l => if l = 0 then 98304 else 0) (unitBy armed) 0x21000 = true
    ∧ leads (.acvt false 7 95 16 false 0) (vreg 16 fun _ => 3072) (unitBy armed) 0x10004 = true
    ∧ leads (.acvt false 7 95 16 false 10) (vreg 16 fun _ => 3072) (unitBy armed) 0x21000 = true
    ∧ leads (.acvt false 7 96 16 false 0) id (unitBy armed) 0x20000 = true := by decide +kernel
/-- Lanes that name one element: the highest lane's value stays. -/
theorem test_amovWr : (match exec (.amovWr false 7 8 16) (dressed 0x72E20879 (vreg 8 fun l => BitVec.ofNat 32 (l + 1)) (unitBy armed)) with
  | .next t => (t.core 0).tiles.get 0 == 32
  | _ => false) = true := by decide +kernel

/-- A product block at 64: in order; with no activation column; with an output off its alignment. -/
def product (n y : Nat) : List (Nat × Nat) := [(64, 0x10000), (64 + 0x0C, n), (64 + 0x18, y), (64 + 0x1C, 8)]
theorem witness_productWords :
    leads (.qmv false 7 8 16) (vreg 16 fun _ => 64) (winHas (product 32 8)) 0x10004 = true
    ∧ leads (.qmv false 7 8 16) (vreg 16 fun _ => 64) (winHas (product 0 8)) 0x20000 = true
    ∧ leads (.rjoin false 7 16) (vreg 16 fun _ => 64) (winHas (product 1 4)) 0x21000 = true
    ∧ leads (.rjoin false 7 16) (vreg 16 fun _ => 64) (winHas (product 1 0)) 0x10004 = true
    ∧ leads (.qmv false 7 8 16) (vreg 16 fun _ => 4096) (unitBy armed) 0x21000 = true := by decide +kernel

/-- A copy block at 0 with its records at 64 and 128 read at issue, or left to the engine. -/
def block (mcmd ctl : Nat) : List (Nat × Nat) := [(0, 64), (8, 128), (0x10, mcmd), (0x1C, ctl)]
def copies (mcmd ctl : Nat) : List (Nat × Nat) := block mcmd ctl ++ plainRec 64 0x10000 ++ plainRec 128 256
def toSlot : List (Nat × Nat) := block 0 0x1F00 ++ tileRec 64 0x10000 ++ tileRec 128 1
theorem witness_copyWords :
    leads (.copy false 7 8 16 4 false 6) id (winHas (block 0 0x0F00)) 0x10004 = true
    ∧ leads (.copy false 7 8 16 3 false 0) id (winHas (block 0 0x2F00)) 0x20000 = true
    ∧ leads (.copy false 7 7 16 0 false 0) id (winHas (block 0 0x0F00)) 0x20000 = true
    ∧ leads (.copy false 7 8 16 0 false 0) id (winHas (copies 0 0x1F00)) 0x10004 = true
    ∧ leads (.copy false 7 8 16 0 false 1) id (fun s => slotsBound (winHas toSlot s)) 0x10004 = true
    ∧ leads (.copy false 7 8 16 0 false 1) id (winHas toSlot) 0x20000 = true
    ∧ leads (.copy false 7 8 16 0 true 0) id (winHas (copies 0x73E00000 0x1F00)) 0x10004 = true
    ∧ leads (.copy false 7 8 16 0 false 0) (vreg 16 fun _ => 16) (unitBy armed) 0x21000 = true := by decide +kernel
/-- A copy to the window with a follow-on `AZERO` of tile 0. -/
theorem test_copy_followOn : (leaves (.copy false 7 8 16 1 true 0) id (winHas (copies 0x73E00000 0x1F00))).map (fun x => (x.1, match x.2 with
    | .copy c => (c.src.map Layout.count, c.dst.map Layout.base)
    | .mill m => (some m.n, none)
    | _ => (none, none))) = [(.cq1, some 32, some 256), (.mq, some 1, none)] := by decide +kernel

/-- A gather of two rows of 32 from a table at 64 to a destination of 64 elements, one of 32, and one in a slot. -/
def gathers (ctl : Nat) (dst : List (Nat × Nat)) : List (Nat × Nat) := [(0, 64), (4, 128), (8, 512), (0x10, 2), (0x14, ctl)] ++ plainRec 64 0x10000 ++ dst
theorem witness_gather :
    leads (.gather false 7 8 16) id (winHas (gathers 4 [(128, 1024), (128 + 0x20, 64), (128 + 0x28, 1), (128 + 0x30, 1)])) 0x20000 = true
    ∧ leads (.gather false 7 8 16) id (winHas (gathers 4 [(128, 1024), (128 + 0x20, 2), (128 + 0x28, 1), (128 + 0x30, 1)])) 0x10004 = true
    ∧ leads (.gather false 7 8 16) id (winHas (gathers 24 [(128, 1024), (128 + 0x20, 2), (128 + 0x28, 1), (128 + 0x30, 1)])) 0x20000 = true := by decide +kernel

/-- A fill ring of four handles: in order, with a handle that the unit lacks, with a chunk longer than its slots. -/
def rings (ctl slotB : Nat) : List (Nat × Nat) := [(0, 64), (4, 1024), (8, slotB), (0x0C, 128), (0x10, ctl)] ++ plainRec 64 0x10000
theorem witness_rings :
    leads (.stream false 7 16) id (winHas (rings (8 * 128 + 2) 128)) 0x10004 = true
    ∧ leads (.stream false 7 16) id (winHas (rings (8 * 128 + 3) 128)) 0x20000 = true
    ∧ leads (.stream false 7 16) id (winHas (rings (8 * 128 + 2) 64)) 0x20000 = true
    ∧ leads (.streamPost false 7 8) id (unitBy armed) 0x20000 = true := by decide +kernel
def drain8 : RingWork := { layout := { exts := [256], strides := [1] }, chunk := 128, slotB := 128, drain := true, h0 := 8, n := 2 }
def drainRing (full : Bool) (s : State) : State :=
  let t := { unitBy armed s with entries := [{ id := 77, queue := .cq0, owner := { unit := 1, ctx := 1 }, stage := .started, work := .ring drain8 }] }
  if full then t.updCore 0 fun k => { k with handles := ⟨[(8, { state := .full })]⟩ } else t
theorem witness_posts :
    leads (.streamPost false 7 8) id (drainRing false) 0x10004 = true ∧ leads (.streamPost false 7 8) id (drainRing true) 0x22000 = true
    ∧ (let s := dressed 0x76FE0403 id (drainRing false)
       match s.drainRing 1 8 with
       | some (e, r) => e.id == 77 && decide (r.posts.get 0 < r.chunksOf 0) && (s.handle 1 8).state == .free
       | none => false) = true := by decide +kernel

/-- Handle 8 in each state; a copy under way that will fill it, or empty it. -/
def handle8 (h : Handle) (w : List Work) (s : State) : State :=
  { (unitBy armed s).updCore 0 fun k => { k with handles := ⟨[(8, h)]⟩ } with
    entries := w.map fun x => { id := 77, owner := { unit := 1, ctx := 1 }, work := x, stage := .started } }
def freeH (s : State) : State := unitBy armed s
theorem witness_handleWords :
    leads (.hwaitFree false 7 7) id freeH 0x20000 = true ∧ leads (.hstat false 7 8 10) id freeH 0x20000 = true
    ∧ leads (.hrel false 7 10) id freeH 0x20000 = true ∧ leads (.hwaitFull false 7 7) id freeH 0x20000 = true
    ∧ leads (.hwaitFree false 7 8) id freeH 0x10004 = true
    ∧ leads (.hwaitFree false 7 8) id (handle8 { state := .draining } [.copy { h := 9, sh := some 8 }]) 0x10000 = true
    ∧ leads (.hwaitFree false 7 8) id (handle8 { state := .full } []) 0x22000 = true
    ∧ leads (.hwaitFull false 7 8) id (handle8 { state := .full } []) 0x10004 = true
    ∧ leads (.hwaitFull false 7 8) id (handle8 { state := .filling } [.copy { h := 8 }]) 0x10000 = true
    ∧ leads (.hwaitFull false 7 8) id (handle8 { state := .full, err := true } []) 0x22000 = true
    ∧ leads (.hwaitFull false 7 8) id (handle8 { state := .full, ovf := true } []) 0x22000 = true
    ∧ leads (.hwaitFull false 7 8) id (handle8 { torn := true } []) 0x22000 = true ∧ leads (.hwaitFull false 7 8) id freeH 0x22000 = true
    ∧ leads (.hrel false 7 8) id (handle8 { state := .full } []) 0x10004 = true ∧ leads (.hrel false 7 8) id (handle8 { state := .draining } []) 0x22000 = true
    ∧ leads (.hstat false 7 8 9) id freeH 0x10004 = true := by decide +kernel
/-- The cause that a wait on a torn handle presents. -/
theorem test_hwaitFull_torn : (match exec (.hwaitFull false 7 8) (dressed 0x77FE0401 id (handle8 { torn := true } [])) with
  | .next t => (theSheaf t).emb == 2 && (theSheaf t).ema == 8
  | _ => false) = true := by decide +kernel

/-- A chain member, and scan blocks: in order; off its alignment; past the window; with a reserved bit. -/
def member (s : State) : State := (unitBy (fun u => { armed u with lrec := { (armed u).lrec with chn := true } }) s).setLaunch 0 { job := 1, members := [{}, { unit := 1 }] }
theorem witness_scanWords :
    leads (.qfence false 7 3 127) id freeH 0x10004 = true ∧ leads (.scfg false 7 1 2) id freeH 0x10004 = true
    ∧ leads (.scan false 7 16) id (winHas [(0, 64), (8, 1024), (0x14, 2048)]) 0x10004 = true
    ∧ leads (.scan false 7 16) id (winHas [(0, 66)]) 0x21000 = true ∧ leads (.scan false 7 16) id (winHas [(0, 64), (8, 4096)]) 0x21000 = true
    ∧ leads (.scan false 7 16) id (winHas [(0x18, 16)]) 0x20000 = true
    ∧ leads (.csend false 7 16) id member 0x10004 = true ∧ leads (.csend false 7 16) id freeH 0x20000 = true
    ∧ leads (.crecv false 7 16) (vreg 16 fun _ => 4088) member 0x10004 = true ∧ leads (.crecv false 7 16) (vreg 16 fun _ => 4092) member 0x21000 = true
    ∧ leads (.cbar false 7 8) id member 0x10004 = true ∧ leads (.cbar false 7 8) id freeH 0x20000 = true := by decide +kernel
theorem test_qfence : (leaves (.qfence false 7 2 1) id freeH).map Prod.fst = [.cq0, .fq] := by decide +kernel

/-! #### Units, queues, incumbents -/

/-- A launch of four groups that may grow, one that may not, one with all but one index gone. -/
def launches (ext count : Nat) (s : State) : State := (unitBy armed s).setLaunch 0 { job := 1, count := count, lrec := { extents := ext } }
theorem witness_grow :
    leads (.grow false 7 8 16) (vreg 16 fun _ => 1) (launches 1 0xFFFFFFFE) 0x10004 = true
    ∧ leads (.grow false 7 8 16) (vreg 16 fun _ => 2) (launches 1 0xFFFFFFFE) 0x10004 = true
    ∧ leads (.grow false 7 8 16) id (launches 2 4) 0x20000 = true
    ∧ leads (.grow false 7 8 16) id (fun s => (launches 1 4 s).updUnit 1 fun u => { u with cancelled := true }) 0x10004 = true := by decide +kernel
theorem test_grow : (match exec (.grow false 7 8 16) (dressed 0x7AE20800 (vreg 16 fun _ => 3) (launches 1 4)) with
  | .next t => t.spawns.map SpawnReq.grow == [some 3] && (t.launch 0).map LaunchSt.count == some 4
  | _ => false) = true := by decide +kernel

/-- A spawn record with one range read and one written. -/
def spawns (ctl len : Nat) : List (Nat × Nat) := [(0x10, ctl), (0x20, 0x1000), (0x28, len), (0x30, 0x2000), (0x38, 8)]
theorem witness_spawn :
    leads (.spawn false 7 8 16) id (winHas (spawns 0x11 8)) 0x10004 = true ∧ leads (.spawn false 7 8 16) id (winHas (spawns 0x11 0)) 0x20000 = true
    ∧ leads (.spawn false 7 8 16) id (winHas (spawns 0x15 8)) 0x20000 = true
    ∧ leads (.spawn false 7 8 16) (vreg 16 fun _ => 4064) (winHas [(4064 + 0x10, 1)]) 0x21000 = true := by decide +kernel

/-- A queue of 8-byte items in the window, one of 12-byte items, one in memory, and a virtual address past 2^57 and off its alignment. -/
theorem witness_queueWords :
    leads (.qpush false 7 8 16 0) id (winHas [(0x0C, 8)]) 0x10000 = true ∧ leads (.qpop false 7 8 16 0) id (winHas [(0x0C, 32)]) 0x10000 = true
    ∧ leads (.qpush false 7 8 16 0) id (winHas [(0x0C, 12)]) 0x20000 = true ∧ leads (.qpop false 7 9 16 0) id (winHas [(0x0C, 8)]) 0x20000 = true
    ∧ leads (.qpush false 7 8 16 0) (vreg 16 fun _ => 32) (winHas []) 0x21000 = true
    ∧ leads (.qpush false 7 8 16 1) (vreg 17 fun _ => 0x2000000) (winHas []) 0x21000 = true
    ∧ leads (.qpop false 7 8 16 1) (vreg 16 fun _ => 32) (winHas []) 0x21000 = true
    ∧ leads (.qpop false 7 8 16 1) (vreg 16 fun _ => 0x10040) (fun s => mapped (winHas [] s) |>.putByte 0x1004C 4) 0x10000 = true
    ∧ leads (.bar false 0) id id 0x10000 = true := by decide +kernel
def childUnit (s : State) : State := (freeH s).setUnit 5 { job := 1, ctx := 1, parent := some 1, spawned := true, stage := .listed }
theorem witness_cwait :
    leads (.cwait false 7 0) id freeH 0x10004 = true
    ∧ leads (.cwait false 7 0) id childUnit
      0x10000 = true
    ∧ leads (.cancel false 7 0) id freeH 0x10004 = true ∧ leads (.cancel false 7 4) id freeH 0x10004 = true := by decide +kernel

/-- Incumbent 15 declared with payloads, signed and minimised. -/
def declared (s : State) : State := (unitBy armed s).updJob 1 fun j => { j with incs := j.incs.set 15 { decl := 0x19, value := 5 } }
theorem witness_incumbentWords :
    leads (.incup false 7 120 16 true 15) id declared 0x10004 = true ∧ leads (.incup false 7 8 16 true 15) id declared 0x20000 = true
    ∧ leads (.incup false 7 120 16 false 14) id declared 0x20000 = true
    ∧ leads (.incrd false 7 8 true 15) id declared 0x10004 = true ∧ leads (.incrd false 7 8 false 14) id declared 0x20000 = true
    ∧ leads (.incrd false 7 8 false 15) (lanesBy fun x => { x with xmod := some { scope := 7 } }) declared 0x10004 = true
    ∧ leads (.incrd false 7 8 false 15) (lanesBy fun x => { x with xmod := some { scope := 6 } }) declared 0x20000 = true
    ∧ leads (.bndset false 7 16) id declared 0x10004 = true
    ∧ leads (.bndcfg false 7 16) (vreg 16 fun _ => 0x18F) declared 0x10004 = true ∧ leads (.bndcfg false 7 16) (vreg 16 fun _ => 0x18E) declared 0x20000 = true := by
  decide +kernel

/-! ### Premises of the statements about events, and what the events do -/

def ownerT : Owner := { sheaf := 2, lanes := 1, unit := 1, ctx := 1, op := 9 }
/-- The armed unit with mapped memory and one entry of work. -/
def working (q : QName) (w : Work) (st : Stage) (h : State → State) : State :=
  h { mapped (resting (fun f => { f with flagOps := [⟨9, 0, 1⟩] }) (unitBy armed)) with
      entries := [{ id := 77, queue := q, owner := ownerT, work := w, stage := st }] }
def entryT (s : State) : Entry := (s.entry 77).getD {}
/-- The outcome of an event meets a test. -/
def after (i : Instr) (s : State) (P : State → Bool) : Bool := match exec i s with
  | .next t => P t
  | _ => false
def handleAt (n : Nat) (h : Handle) (s : State) : State := s.updCore 0 fun k => { k with handles := k.handles.set n h }

/-- Four bytes in the window, moved eight bytes up; and from memory that is mapped. -/
def small (route a b : Nat) : CopyWork := { route := route, h := 8, src := some { base := BitVec.ofNat 64 a, exts := [4], strides := [1] }, dst := some { base := BitVec.ofNat 64 b, exts := [4], strides := [1] } }
def withBytes : State → State := unitBy fun u => u.winWrite 0 [1, 2, 3, 4]
theorem witness_copyStart :
    let s := working .cq0 (.copy (small 4 0 8)) .queued id
    let d := working .cq0 (.copy { small 4 0 8 with sh := some 9 }) .queued (handleAt 9 { state := .full })
    s.mayStart (entryT s) = true ∧ (small 4 0 8).agrees = true ∧ (s.handle 1 8).state = .free ∧ (s.unit 1).isSome = true
    ∧ d.mayStart (entryT d) = true ∧ (d.handle 1 9).state = .full := by decide +kernel
theorem test_copyStart : after (.copyStart 77) (working .cq0 (.copy { small 4 0 8 with sh := some 9 }) .queued (handleAt 9 { state := .full })) (fun t =>
    (t.handle 1 8).state == .filling && (t.handle 1 9).state == .draining && (entryT t).stage == .started) = true := by decide +kernel
theorem witness_copyComplete :
    let s := working .cq0 (.copy (small 4 0 8)) .started withBytes
    let c := small 4 0 8
    let a := (c.sides (entryT s)).1
    let b := (c.sides (entryT s)).2
    (entryT s).orphan = false ∧ (firstCond (overlay (s.sideElems a) c.got) <|> (s.move a b c.limit c.rm (overlay (s.sideElems a) c.got) true).stop) = none := by
  decide +kernel
theorem test_copyComplete : after (.copyComplete 77) (working .cq0 (.copy (small 4 0 8)) .started withBytes) (fun t =>
    (theUnit t).winBytes 0 12 == [1, 2, 3, 4, 0, 0, 0, 0, 1, 2, 3, 4] && (t.handle 1 8).state == .full && (t.handle 1 8).size == 4
      && t.entries == [] && (theSheaf t).flagCount 0 == 0) = true := by decide +kernel
/-- A source page that is not mapped: the slow path has it in vain, and the handle's ERR is set. -/
theorem test_copySlowPath : after (.copySlowPath 77 false []) (working .cq0 (.copy (small 0 0x20000 8)) .slow (handleAt 8 { state := .filling })) (fun t =>
    (t.handle 1 8).state == .full && (t.handle 1 8).err && t.entries == []) = true := by decide +kernel
theorem witness_copySlowPath :
    let s := working .cq0 (.copy (small 4 0 8)) .slow withBytes
    let c := small 4 0 8
    let a := (c.sides (entryT s)).1
    firstCond (overlay (s.sideElems a) c.got) = none ∧ s.engineFree (entryT s) = true
    ∧ (s.move a (c.sides (entryT s)).2 c.limit c.rm (overlay (s.sideElems a) c.got) true).stop = none := by decide +kernel

def fillRing : RingWork := { layout := { base := 0x10000, exts := [8], strides := [1] }, slot0 := 1024, chunk := 4, slotB := 128, h0 := 8, n := 2 }
theorem witness_rings_gathers :
    (let s := working .gq (.gather { h := 8 }) .queued id
     s.mayStart (entryT s) = true ∧ (s.handle 1 8).state = .free)
    ∧ (let s := working .cq0 (.ring fillRing) .queued id
       s.mayStart (entryT s) = true)
    ∧ (let s := working .cq0 (.ring fillRing) .started id
       (entryT s).saved = false ∧ fillRing.chunkAt 0 = 0 ∧ fillRing.chunkAt 1 = 1 ∧ fillRing.total = 2 ∧ (s.handle 1 8).state = .free)
    ∧ (let s := working .cq0 (.ring { drain8 with next := 1, begun := ⟨[(0, 1)]⟩ }) .started (handleAt 9 { state := .full })
       drain8.total = 2 ∧ (s.handle 1 9).state = .full) := by decide +kernel
theorem test_ringChunkStart : after (.ringChunkStart 77) (working .cq0 (.ring fillRing) .started id) (fun t =>
    (t.handle 1 8).state == .filling && (entryT t).work == .ring { fillRing with next := 1, running := [0], begun := ⟨[(0, 1)]⟩ }) = true := by decide +kernel
/-- A chunk that ends: four bytes of memory stand in the ring's first slot. -/
theorem test_chunkDone : after (.copyComplete 77) (working .cq0 (.ring { fillRing with next := 1, running := [0], begun := ⟨[(0, 1)]⟩ }) .started fun s =>
    handleAt 8 { state := .filling } (s.putByte 0x10003 5)) (fun t =>
    (theUnit t).winByte 1027 == 5 && (t.handle 1 8).state == .full && (t.handle 1 8).size == 4) = true := by decide +kernel
theorem test_qfencePass : after (.qfencePass 77) (working .cq0 (.fence 9) .queued id) (fun t => t.entries == [] && (theSheaf t).flagCount 0 == 0)
    = true := by decide +kernel

/-- Slots 0 and 1 full by handles 8 and 9: of every row of A and B only the codes at (0, 0) are not zero, 2 and 3. -/
def operands (s : State) : State :=
  let img (x : Byte) : Store Byte := ⟨[(0, x)]⟩
  handleAt 9 { state := .full } (handleAt 8 { state := .full } (s.updCore 0 fun k => { k with slots :=
    ⟨[(0, { claim := some 1, bound := true, handle := 8, image := img 2 }), (1, { claim := some 1, bound := true, handle := 9, image := img 3 })]⟩ }))
theorem witness_millEvents :
    (let s := working .mq (.mbind 1 8 {} 0) .queued slotsBound
     (entryT s).orphan = false ∧ s.mayStart (entryT s) = true ∧ s.slotInUse 0 [1] 77 = false ∧ (s.handle 1 8).state = .free)
    ∧ (let s := working .mq (.mrel 0 2) .queued slotsBound
       s.mayStart (entryT s) = true ∧ s.slotInUse 0 [0, 1] 77 = false)
    ∧ (let s := working .mq (.mill { aSlot := 0, bSlot := 1 }) .queued operands
       s.mayStart (entryT s) = true ∧ (s.core 0).millFree ≤ s.cycleOf 0
       ∧ (s.handle 1 (s.slot 1 0).handle).state = .full ∧ (s.handle 1 (s.slot 1 1).handle).state = .full)
    ∧ (let s := working .mq (.mill { op := .azero, tile := 3 }) .started id
       (s.firstMill 0).map Entry.id = some 77 ∧ (entryT s).due ≤ s.cycleOf 0) := by decide +kernel
/-- A later `MMAS` that is running, and none. -/
theorem witness_laterPanel :
    let s := working .mq (.mill { op := .azero, tile := 3 }) .started id
    let t : State := { s with entries := s.entries ++ [{ id := 78, queue := .mq, owner := ownerT, work := .mill { op := .mmas, tile := 4 }, stage := .started }] }
    (s.queueOf 0 .mq).map Entry.id = [77] ∧ (t.queueOf 0 .mq).map Entry.id = [77, 78] ∧ (t.firstMill 0).map Entry.id = some 77 := by decide +kernel
/-- The retirement of an operation behind which a panel runs leaves `MSTEP`. -/
theorem test_mstepStays :
    let s := (working .mq (.mill { op := .azero, tile := 3 }) .started id).updCore 0 fun k => { k with mstep := 9 }
    after (.millOpRetire 77) s (fun t => (t.core 0).mstep == 0) = true
    ∧ after (.millOpRetire 77) { s with entries := s.entries ++ [{ id := 78, queue := .mq, owner := ownerT, work := .mill { op := .mmas, tile := 4 }, stage := .started }] }
      (fun t => (t.core 0).mstep == 9) = true := by decide +kernel
theorem test_mrelStart : after (.mrelStart 77) (working .mq (.mrel 0 2) .queued slotsBound) (fun t =>
    (t.core 0).slots.get 0 == {} && (t.core 0).slots.get 1 == {} && t.entries == []) = true := by decide +kernel
/-- One clear of five tiles takes five cycles, and ends eleven later. -/
theorem test_millOpStart : after (.millOpStart 77) (working .mq (.mill { op := .azero, tile := 3, n := 5 }) .queued id) (fun t =>
    (t.core 0).millFree == 5 && (entryT t).due == 16) = true := by decide +kernel
/-- INT8: 1 + 2 x 3 at element (0, 0) of tile 3. -/
theorem test_blockElem : blockElem { elem := 1, image := ⟨[(0, 2)]⟩ } { elem := 1, image := ⟨[(0, 3)]⟩ } 0 0 1 = 7 := by decide +kernel
theorem test_millOpRetire : after (.millOpRetire 77) (working .mq (.mill { op := .azero, tile := 3 }) .started fun s => s.updCore 0 fun k =>
    { k with tiles := ⟨[(3071, 5), (3072, 1), (4095, 2), (4096, 7)]⟩ }) (fun t => (t.core 0).tiles == ⟨[(3071, 5), (4096, 7)]⟩ && t.entries == []) = true := by
  decide +kernel

/-- A matrix of one cold row and 32 columns, its record at 0x10080, with one vector; block at 64. -/
def pblock : ProductBlock := { addr := 64, mrec := 0x10080, n := 1, x := 128, xstride := 64, y := 256, h := 8 }
def matrixRec : List (Nat × Nat) := [(0x00, 0x10800), (0x18, 0x10100), (0x30, 1), (0x34, 32), (0x38, 32), (0x3C, 128), (0x40, 1)]
def withMatrix (s : State) : State := matrixRec.foldl (fun s w => s.putBytes (0x10080 + w.1) (toBytes 4 w.2)) s
/-- Binary8 codes of 1 (precision 1, by R53): the row's and the vector's first elements. -/
def mrecT : MatrixRec := { cold := 0x10800, pmap0 := 0x10100, rows := 1, k := 32, slice := 32, rstride := 128, prec := 1 }
theorem witness_products :
    (let s := withMatrix (working .nq (.qmv pblock {} 0 [] false none) .queued id)
     let a := (s.setHandle 1 8 ((s.handle 1 8).fill none)).updEntry 77 fun x => { x with stage := .slow }
     s.mayStart (entryT s) = true ∧ (s.handle 1 8).state = .free ∧ startOk (theUnit a) pblock mrecT = true ∧ a.blockOpn 1 pblock = false
     ∧ a.mstate 1 0x10080 ≠ 3)
    ∧ (let s := withMatrix (working .nq (.rjoin pblock {} [] none) .queued fun s => handleAt 8 { state := .full } (unitBy (fun u => u.winWrite 0x68 [1]) s))
       s.turnOf (entryT s) = true ∧ s.hotTilesDone (entryT s) pblock mrecT = true ∧ (s.handle 1 8).state = .full ∧ s.blockOpn 1 pblock = true)
    ∧ (let s := withMatrix (working .nq (.rjoin pblock {} [] none) .queued (handleAt 8 { torn := true }))
       (s.handle 1 8).state = .free ∧ (s.handle 1 8).torn = true) := by decide +kernel
def matOk (r : MatRes) : Option MatrixRec := match r with
  | .ok m => some m
  | _ => none
theorem witness_matrix : matOk ((withMatrix (working .nq (.rjoin pblock {} [] none) .queued id)).matrix 1 0x10080) = some mrecT := by decide +kernel
/-- The product opens: OPEN of parity 0 rises, OPN is set, the row is due; then the row is computed, and the join lowers OPEN. -/
theorem test_qmvStart : after (.qmvStart 77) (withMatrix (working .nq (.qmv pblock {} 0 [] false none) .queued id)) (fun t =>
    t.valueAt (0x10080 + 0x4C) 2 == 1 && t.blockOpn 1 pblock && (entryT t).work == .qmv pblock mrecT 0 [0] true none
      && (t.handle 1 8).state == .filling && (theSheaf t).flagCount 0 == 0) = true := by decide +kernel
theorem test_quernRow : after (.quernRow 77 0) (withMatrix (working .nq (.qmv pblock mrecT 0 [0] true none) .started fun s =>
    handleAt 8 { state := .filling } ((s.putBytes 0x10800 [0x40]).putBytes 0x10820 [0x7F] |> unitBy fun u => (u.winWrite 128 [0x41]).winWrite 160 [0x7F]))) (fun t =>
    (theUnit t).winValue 256 4 == 0x40000000 && (t.handle 1 8).state == .full && (t.handle 1 8).size == 4 && t.entries == []) = true := by decide +kernel

/-- A scan of width 1 over one tile, and a chain of two members of which the unit is the second. -/
def scanT : ScanWork := { input := 0, out := 1024, tot := 2048, nt := 1 }
def second (m : Member) (s : State) : State := (unitBy (fun u => { armed u with index := 1, lrec := { (armed u).lrec with chn := true } }) s).setLaunch 0 { job := 1, members := [{ unit := 0, sent := 1 }, { m with unit := 1 }] }
def firstOf (m : Member) (s : State) : State := (unitBy (fun u => { armed u with lrec := { (armed u).lrec with chn := true } }) s).setLaunch 0 { job := 1, members := [m, { unit := 1, buffer := List.replicate 3 {} }] }
def carryT : Carry := { words := [some 3, some 4] }
theorem witness_chain :
    (let s := working .sq (.scan scanT) .queued id
     s.scanTurn (entryT s) = true ∧ (s.unit 1).isSome = true ∧ s.scanTurn (entryT (working .sq (.csend 0 0 none) .queued id)) = true)
    ∧ (let s := working .sq (.csend 0 0 (some carryT)) .started (firstOf {})
       s.memberOf 1 = some (0, 0) ∧ (s.launch 0).isSome = true ∧ s.peerNext 1 = none ∧ s.memberEnd 0 (s.member 0 0) = false ∧ s.memberEnd 0 (s.member 0 1) = false ∧ (s.member 0 1).buffer.length < 4)
    ∧ (let s := working .sq (.crecv 0 0) .queued (firstOf {})
       s.scanTurn (entryT s) = true ∧ s.memberOf 1 = some (0, 0) ∧ (s.member 0 0).rcvd = 0)
    ∧ (let s := working .sq (.crecv 0 0) .queued (second { buffer := [carryT] })
       s.scanTurn (entryT s) = true ∧ s.memberOf 1 = some (0, 1) ∧ (s.member 0 1).buffer = [carryT] ∧ carryT.words.length = comps (sccWidth 0))
    ∧ (let s := working .sq .cbar .queued (second { rcvd := 1 })
       s.scanTurn (entryT s) = true ∧ s.memberOf 1 = some (0, 1) ∧ s.span 0 = none ∧ roundDone (s.chain 0) true (s.member 0 1).cbars = true) := by decide +kernel
theorem test_scanStart : after (.scanStart 77) (working .sq (.scan scanT) .queued id) (fun t => (entryT t).due == 19) = true := by decide +kernel
/-- One level of the prefix over (2, 3) and (5, 7) in FP32: (10, 5 x 3 + 7). -/
theorem test_scanLevel : scanLevel 0 0 1 [[some 0x40000000, some 0x40400000], [some 0x40A00000, some 0x40E00000]]
    = [[some 0x40000000, some 0x40400000], [some 0x41200000, some 0x41B00000]] := by decide +kernel
theorem test_csendStart : after (.csendStart 77) (working .sq (.csend 8 0 none) .queued fun s => unitBy (fun u => u.winWrite 8 [3, 0, 0, 0, 4]) s)
    (fun t => (entryT t).work == .csend 8 0 (some carryT) && (entryT t).stage == .started) = true := by decide +kernel
theorem test_carryPlaced : after (.carryPlaced (.own 77)) (working .sq (.csend 0 0 (some carryT)) .started (firstOf {})) (fun t =>
    (t.member 0 1).buffer == List.replicate 3 ({} : Carry) ++ [carryT] && (t.member 0 0).sent == 1 && t.entries == []) = true := by decide +kernel
theorem test_crecvTake : after (.crecvTake 77) (working .sq (.crecv 16 0) .queued (second { buffer := [carryT] })) (fun t =>
    (theUnit t).winValue 16 4 == 3 && (theUnit t).winValue 20 4 == 4 && (t.member 0 1).rcvd == 1 && t.entries == []) = true := by decide +kernel
theorem test_roundComplete : after (.roundComplete ⟨77, none⟩) (working .sq .cbar .queued (second { rcvd := 1 })) (fun t =>
    (t.member 0 1).cbars == 1 && t.entries == []) = true := by decide +kernel

/-! #### Units and jobs -/

def idle : State := resting id (unitBy armed)
def spawnT (r : SpawnReq) : State := { mapped idle with spawns := [{ r with id := 50, owner := ownerT }] }
theorem witness_spawnArrival :
    let find (s : State) (sent : Bool) : Bool := (s.spawns.find? fun x => x.id == 50 && (x.sent == sent)).isSome
    (find (spawnT { cancelGen := 1 }) false = true ∧ (theUnit idle).cancelGen ≠ 1)
    ∧ (find (spawnT { remote := some 5 }) false = true ∧ (theUnit idle).cancelGen = 0 ∧ (spawnT {}).stampPassed 1 0 none = false)
    ∧ (find (spawnT {}) false = true ∧ (spawnT {}).matcherLoad 0 < 8192)
    ∧ find (spawnT { remote := some 5, sent := true }) true = true := by decide +kernel
theorem test_spawnArrival : after (.spawnArrival 50) (spawnT { cancelGen := 1 }) (fun t => t.spawns == [] && (t.job 1).map Job.dropped == some 1) = true
    ∧ after (.spawnArrival 50) (spawnT { krec := 1, args := 7, ranges := [{ base := 64, len := 8 }] }) (fun t =>
      (t.unit 3).map (fun x => (x.parent, x.args, x.void, x.stage, x.npred)) == some (some 1, 7, true, .listed, 0)) = true := by decide +kernel
theorem test_remoteEnqueue : after (.remoteEnqueueReceive 1 5 1 9 ⟨[], none⟩) (mapped (idle.updJob 1 fun j => { j with parts := [5] })) (fun t =>
      (t.job 1).map Job.rcvd == some 1 && (t.unit 3).map UnitSt.args == some 9) = true
    ∧ after (.remoteEnqueueAck 50 true) ((spawnT { remote := some 5, sent := true }).updJob 1 fun j => { j with remoteOut := [50] }) (fun t =>
      t.spawns == [] && (t.job 1).map Job.remoteOut == some []) = true := by decide +kernel

/-- Unit 5 listed; a launch with one index left of two by two groups. -/
def listedUnit : State := { (idle.setUnit 5 { job := 1, ctx := 1, spawned := true, stage := .listed, lrec := { kpc := 0x10000, win := 128, pword := 0x00101040 } }) with
  listed := [{ unit := some 5 }] }
def listedLaunch : State := { (idle.setLaunch 0 { job := 1, ctx := 1, count := 4, next := 3, lrec := { gx := 2, gy := 2, extents := 3, pword := 0x00101040 } }) with
  listed := [{ launch := some 0 }] }
theorem witness_unitAdmission :
    (listedUnit.admitFrom ≤ 47 ∧ (listedUnit.die (dieOf 47)).running = true ∧ listedUnit.dieList (dieOf 47) = [{ unit := some 5 }]
      ∧ ({ listedUnit with admitFrom := 48 } : State).fits 47 (listedUnit.listedRec { unit := some 5 }).1 1 = some 0)
    ∧ ({ listedLaunch with admitFrom := 2 } : State).fits 1 (listedLaunch.listedRec { launch := some 0 }).1 1 = some 0
    ∧ listedLaunch.dieList 0 = [{ launch := some 0 }] := by decide +kernel

def ended : State := slotsBound (resting (lanesBy fun x => { x with life := .exited }) (unitBy armed))
theorem witness_unitComplete : (theUnit ended).void = false ∧ (theUnit ended).stage = .resident ∧ (theUnit ended).core = some 0 ∧ (theUnit ended).image = none
    ∧ (ended.sheavesOf 1).all (fun f => f.2.liveMask == 0) = true ∧ ended.worksOf 1 = false := by decide +kernel
theorem test_unitComplete : after (.unitComplete 1) ended (fun t => (t.unit 1).map UnitSt.stage == some .complete
    && ((t.core 0).slots.get 0).claim == none) = true := by decide +kernel
def nodeT : State := { idle with nodes := ⟨[(4, some { phase := 6, kind := .copy, stage := .launched, succs := [1] }), (5, some { phase := 6, index := 1, npred := 2 })]⟩
                                 phases := ⟨[(6, some { job := 1, ctx := 1 })]⟩ }
theorem witness_nodeComplete : nodeT.nodeDone 4 ((nodeT.node 4).getD {}) = true ∧ (nodeT.node 4).isSome = true := by decide +kernel
theorem test_nodeComplete : after (.nodeComplete 4) nodeT (fun t => (t.node 4).map Node.stage == some .complete && (t.node 5).map Node.npred == some 1)
    = true := by decide +kernel
def jobDone : State := { ended with units := ⟨[]⟩, jobs := ⟨[(1, some { ctx := 1, parts := [5], swept := some [0, 3] })]⟩ }
theorem witness_jobSweep : (jobDone.job 1).map Job.ended = some none ∧ jobDone.jobZero 1 = true := by decide +kernel
theorem test_jobSweep : after (.jobCompletionSweep 1 [(0, 3)]) jobDone (fun t => (t.job 1).map Job.complete == some true) = true
    ∧ after (.jobCompletionSweep 1 [(0, 2)]) jobDone (fun t => (t.job 1).map Job.complete == some false) = true
    ∧ after (.jobEnd 1 0) idle (fun t => (t.job 1).map Job.ended == some (some 0)) = true := by decide +kernel

/-! #### Queues, barriers, waits, incumbents -/

/-- A queue of two 8-byte items at window address 64, its ring at 128; one item in it, or none, or two. -/
def queueHas (head tail : Nat) (push : Bool) (items : List (Nat × List Byte)) : State :=
  let s := unitBy (fun u => [(64, 128), (64 + 8, 2), (64 + 0x0C, 8), (64 + 0x10, head), (64 + 0x18, tail), (128, 0x11)].foldl
    (fun u w => u.winWrite w.1 (toBytes 4 w.2)) (armed u)) (resting id id)
  { s with qwords := [{ id := 60, key := { unit := some 1, job := 1, addr := 64 }, push := push, owner := { ownerT with lanes := 8, dst := 8 }, size := 8, items := items }] }
theorem witness_queueWordAtHome :
    let s := queueHas 0 1 true [(3, [1, 2, 3, 4, 5, 6, 7, 8])]
    let d (s : State) : Option (Nat × Nat) := (s.qDesc { unit := some 1, job := 1, addr := 64 } 1).map fun q => (q.items, q.depth)
    d s = some (1, 2) ∧ d (queueHas 0 2 true [(3, [1])]) = some (2, 2) ∧ d (queueHas 1 1 false [(3, [])]) = some (0, 2)
    ∧ s.waiter { unit := some 1, job := 1, addr := 64 } false = none ∧ s.waiter { unit := some 1, job := 1, addr := 64 } true = none := by decide +kernel
theorem test_queuePush : after (.queueWordAtHome 60) (queueHas 0 1 true [(3, [1, 2, 3, 4, 5, 6, 7, 8])]) (fun t =>
      (theUnit t).winValue (64 + 0x18) 8 == 2 && (theUnit t).winValue 136 8 == 0x0807060504030201 && t.qwords == []) = true
    ∧ after (.queueWordAtHome 60) (queueHas 0 2 true [(3, [1])]) (fun t => t.qwords.map QWord.waiting == [true]) = true := by decide +kernel
theorem test_queuePop : after (.queueWordAtHome 60) (queueHas 0 1 false [(3, [])]) (fun t =>
      (theUnit t).winValue (64 + 0x10) 8 == 1 && t.qdeliveries.map QDelivery.bytes == [[0x11, 0, 0, 0, 0, 0, 0, 0]]) = true
    ∧ after (.popDelivery 61) { idle with qdeliveries := [{ id := 61, word := 60, owner := { ownerT with lanes := 8, dst := 8 }, lane := 3, bytes := [7, 0, 0, 0], sheaf := 2 }] }
      (fun t => (theSheaf t).v.get (vKey 8 3) == 7 && t.qdeliveries == []) = true := by decide +kernel
def atBarrier (m : Mask) : State := resting (fun f => f.updLanes m fun _ x => { x with hold := .bar 9 }) (unitBy armed)
theorem witness_barriers :
    (atBarrier 0xFFFFFFFF).sheavesOf 1 = [(2, theSheaf (atBarrier 0xFFFFFFFF))] ∧ (theSheaf (atBarrier 0xFFFFFFFF)).liveMask ≠ 0
    ∧ (List.range 32).all (fun l => ((theSheaf (atBarrier 0xFFFFFFFF)).lane l).hold.barrier.isSome) = true
    ∧ ((theSheaf (atBarrier 1)).lane 1).life = .live ∧ ((theSheaf (atBarrier 1)).lane 1).hold.barrier = none := by decide +kernel
theorem test_barrierComplete : after (.barrierComplete 1) (atBarrier 0xFFFFFFFF) (fun t => ((theSheaf t).lane 31).pc == 0x10004 && ((theSheaf t).lane 31).hold == .none)
    = true ∧ after (.barrierComplete 1) (atBarrier 1) (fun t => ((theSheaf t).lane 0).pc == 0x10000) = true := by decide +kernel
def atCwait : State := resting (fun f => f.updLanes 1 fun _ x => { x with hold := .cwait 4 }) (unitBy armed)
theorem witness_cwaitRelease : atCwait.cwaitTest (theSheaf atCwait).unit 4 = true ∧ ((theSheaf atCwait).lane 0).hold = .cwait 4 := by decide +kernel
theorem test_cwaitRelease : after (.cwaitRelease 2) atCwait (fun t => ((theSheaf t).lane 0).pc == 0x10004 && ((theSheaf t).lane 1).pc == 0x10000) = true := by
  decide +kernel

/-- Incumbent 15, minimised, signed, with payloads, holds 5; a message with the candidates 7 and -1. -/
def incT (m : IncMsg) : State := { resting id declared with incMsgs := [{ m with id := 70, owner := { ownerT with lanes := 3, dst := 8 }, job := 1, reg := 15, lanes := [(0, 7, 1), (1, 0xFFFFFFFF, 2)] }] }
theorem witness_incumbentEvents : (incT {}).incMsg 70 = some { id := 70, owner := { ownerT with lanes := 3, dst := 8 }, job := 1, reg := 15, lanes := [(0, 7, 1), (1, 0xFFFFFFFF, 2)] }
    ∧ ((incT { read := true }).sheaf 2).isSome = true := by decide +kernel
theorem test_incumbentCommit : after (.incumbentCommit 70) (incT { payload := true }) (fun t => (t.inc 1 15).value == 0xFFFFFFFF && (t.inc 1 15).payload == 2
    && t.incMsgs.map IncMsg.applied == [true]) = true := by decide +kernel
theorem test_incupReply : after (.incupReply 70) (incT { applied := true }) (fun t => (theSheaf t).v.get (vKey 8 0) == 7 && (theSheaf t).v.get (vKey 8 1) == 0xFFFFFFFF
    && t.incMsgs == []) = true
    ∧ after (.incrdRootReply 70) (incT { read := true }) (fun t => (theSheaf t).v.get (vKey 8 1) == 5 && t.incMsgs == []) = true := by decide +kernel
theorem test_crier : after (.crierReplicaUpdate 1 15 false 3) { resting id declared with replicas := [⟨1, 15, false, 3, 9, 0⟩, ⟨1, 15, true, 3, 9, 0⟩] } (fun t =>
      t.replicas == [⟨1, 15, true, 3, 9, 0⟩] && t.replica 1 15 false 3 == (5, 0)) = true
    ∧ after (.crierForward ⟨7, 0, 1⟩ 15 4 6 0) (resting id declared) (fun t => (t.inc 1 15).value == 4 && (t.inc 1 15).payload == 6) = true
    ∧ after (.crierForward ⟨7, 0, 1⟩ 15 5 6 0) (resting id declared) (fun t => (t.inc 1 15).value == 5 && (t.inc 1 15).payload == 0) = true := by decide +kernel

/-! #### Pre-emption, quadrants, hosts -/

def saving (n : Nat) (s : State) : State := s.updCore 0 fun k => { k with saving := some (1, n) }
theorem witness_preemption :
    (idle.context 1).isSome = true ∧ (idle.core 0).saving = none ∧ ((saving 9 idle).core 0).saving = some (1, 9)
    ∧ ((idle.ctxSheaves 0 1).all fun c => !idle.resultsOut c.1 c.2) = true ∧ ((saving 0 idle).core 0).held = []
    ∧ (idle.residents 0).map Prod.fst = [1] ∧ idle.regs.wdog ≤ 2 ^ 24 ∧ (theSheaf idle).liveMask ≠ 0 := by decide +kernel
theorem test_saveRequest : after (.saveRequest 0 1) idle (fun t => (t.core 0).saving == some (1, 16384) && (theSheaf t).stopped) = true
    ∧ after (.drainEnd 0) (saving 9 idle) (fun t => (t.core 0).saving == some (1, 0)) = true := by decide +kernel
theorem test_saveEnd : after (.saveEnd 0) (saving 0 (handleAt 8 { state := .full } idle)) (fun t => (t.unit 1).map (fun x => (x.stage, x.core, x.image.map fun i =>
    (i.handles.get 8).state)) == some (.saved, none, some .full) && (t.core 0).saving == none && (theSheaf t).place == none) = true := by decide +kernel
/-- What the save of a unit leaves, to be restored on core 5. -/
def savedUnit : State := match exec (.saveEnd 0) (saving 0 (handleAt 8 { state := .full } idle)) with
  | .next t => t
  | _ => idle
theorem witness_restore : (savedUnit.core 5).saving = none ∧ savedUnit.imageQuiet 1 = true
    ∧ savedUnit.fitsAgain 5 (theUnit savedUnit) ((theUnit savedUnit).image.getD {}) = true
    ∧ (theUnit savedUnit).cancelled = false ∧ ((theUnit savedUnit).image.getD {}).order = [2] ∧ (theSheaf savedUnit).unit = 1
    ∧ savedUnit.dominated { theSheaf savedUnit with place := some (5, 0) } = 0
    ∧ ({ savedUnit with entries := [{ owner := ownerT, stage := .started }] } : State).imageQuiet 1 = false
    ∧ (savedUnit.setCore 5 { enabled := false }).fitsAgain 5 (theUnit savedUnit) ((theUnit savedUnit).image.getD {}) = false := by decide +kernel
/-- A restore that cannot be made yet waits. A job that has ended leaves nothing to restore. -/
theorem test_restoreWaits : after (.restore 1 5) (savedUnit.setCore 5 { enabled := false }) (fun t => (t.core 5).waiting == [1] && (t.unit 1).map UnitSt.stage == some .saved) = true
    ∧ after (.saveEnd 0) (saving 0 (idle.updJob 1 fun j => { j with ended := some 0 })) (fun t => (t.unit 1).map (fun x => (x.stage, x.image)) == some (.removed, none)) = true := by
  decide +kernel
theorem test_restore : after (.restore 1 5) savedUnit (fun t => (t.unit 1).map (fun x => (x.stage, x.core)) == some (.resident, some 5)
    && ((t.core 5).handles.get 8).state == .full && (theSheaf t).place == some (5, 0)) = true := by decide +kernel
theorem test_watchdog : after (.watchdogExpiry 2) (resting (fun f => { f with watchdog := 16777216 }) (unitBy armed)) (fun t => (t.job 1).map Job.ended == some (some 7)) = true
    ∧ after (.watchdogExpiry 2) (resting (fun f => { f with watchdog := 16777215 }) (unitBy armed)) (fun t => (t.job 1).map Job.ended == some none) = true := by decide +kernel
/-- 10 microseconds are 29 000 ticks; a use of 7 of an allowance of 5 carries 2 over. -/
def budgeted : State := { idle with ticks := 29000, contexts := ⟨[(1, some { budgets := [5, 0xFFFFFFFF, 0xFFFFFFFF, 0xFFFFFFFF, 0xFFFFFFFF], used := [7, 1, 0, 0, 0] })]⟩ }
theorem witness_budgetPeriod : budgeted.period < budgeted.nanos / 10000 := by decide +kernel
theorem test_budgetPeriod : after .budgetPeriod budgeted (fun t => (t.context 1).map (fun x => (x.used, x.overrun)) == some ([0, 0, 0, 0, 0], [2, 0, 0, 0, 0])
    && t.period == 1) = true := by decide +kernel

theorem witness_quadrant : idle.latch = none ∧ idle.turn ≤ 0 ∧ (List.range 768).all (fun n => n == 0 || idle.quadIdle (n / 4) (n % 4)) = true := by decide +kernel
/-- Core 0's quadrant 0 chooses the sheaf's one position. -/
theorem test_quadrantCycle : after (.quadrantCycle 0 0) idle (fun t => (t.latch.map fun l => (l.sheaf, l.positions)) == some (2, [0xFFFFFFFF]) && t.turn == 1) = true := by
  decide +kernel
/-- At 2,400 MHz a die's clock has 2,400 of 2,900 parts of a cycle after one tick, and passes a cycle in the second. -/
theorem test_tick : (idle.tick.die 0).cycle = 0 ∧ (idle.tick.die 0).acc = 2400 ∧ (idle.tick.tick.die 0).cycle = 1 ∧ (idle.tick.tick.die 0).acc = 1900 := by decide +kernel

theorem witness_contexts :
    State.reset.context 63 = none ∧ contextOk 63 { prio := 7, pspan := 0x10000, hwm := 2048, eqn := 65536 } = true
    ∧ contextOk 63 { prio := 7, pspan := 0x10000, hwm := 2560, eqn := 65536 } = false
    ∧ (idle.context 1).isSome = true ∧ (idle.contexts.cells.all fun c => (c.2.map fun y => y.qps) == some []) = true := by decide +kernel
theorem test_contextCreate : after (.contextCreate 63 7 true 0 0 0x10000 2048 0 16 [1, 2, 3, 4, 5]) State.reset (fun t =>
    (t.context 63).map (fun x => (x.prio, x.spw, x.hwm, x.budgets)) == some (7, true, 2048, [1, 2, 3, 4, 5])) = true := by decide +kernel
theorem test_contextDestroy : after (.contextDestroy 1) { idle with entries := [{ owner := ownerT }], censusQueue := [(8, 1), (8, 2)] } (fun t =>
    t.context 1 == none && t.unit 1 == none && t.entries == [] && t.tlbs == [] && t.censusQueue == [(8, 2)]) = true := by decide +kernel
theorem test_queuesAndPairs : after (.submissionQueueCreate 1 7 0x40000 16) idle (fun t => t.subQueues == [{ ctx := 1, queue := 7, base := 0x40000, size := 65536 }]) = true
    ∧ after (.submissionQueueCreate 1 8 0x40000 16) idle (fun t => t.subQueues == []) = true
    ∧ after (.queuePairCreate 1 0xFFFFFF) idle (fun t => (t.context 1).map Context.qps == some [0xFFFFFF]) = true
    ∧ after (.doorbellWrite 0x1078 8 5) { idle with subQueues := [{ ctx := 1, queue := 7 }] } (fun t => t.subQueues.map SubQueue.tail == [5]) = true
    ∧ after (.doorbellWrite 0x1078 4 5) { idle with subQueues := [{ ctx := 1, queue := 7 }] } (fun t => t.subQueues.map SubQueue.tail == [0]) = true := by
  decide +kernel

/-- One entry of a queue at 0x4000, its words given; phase 6 of job 1 open or not. -/
def submits (l : List (Nat × Nat)) (phase : Option Nat) : State :=
  let s := { mapped idle with subQueues := [{ ctx := 1, queue := 2, base := 0x4000, size := 16, tail := 1, phase := phase }]
                              phases := ⟨[(6, some { job := 1, ctx := 1 })]⟩ }
  l.foldl (fun s w => s.putBytes (0x4000 + w.1) (toBytes 4 w.2)) s
def entryOf (s : State) : SubEntry := parseSub (s.bytesAt 0x4000 64)
def noSuccs : List (Nat × Nat) := [(0x10, 0xFFFFFFFF), (0x14, 0xFFFFFFFF)]
theorem witness_submissions :
    (let s := submits ([(0, 0x10000000), (8, 5)] ++ noSuccs) none
     (entryOf s).ok = true ∧ (entryOf s).kind = 1 ∧ (entryOf s).obj = 5 ∧ s.job 5 = none)
    ∧ (let s := submits ([(0, 0x20000003), (4, 0x10000)] ++ noSuccs) (some 6)
       (entryOf s).ok = true ∧ (entryOf s).kind = 2 ∧ (entryOf s).npred = 1 ∧ s.nodeList = [])
    ∧ (let s := submits ([(0, 0x40000000), (8, 64), (0x20, 9)] ++ noSuccs) (some 6)
       (entryOf s).ok = true ∧ (entryOf s).kind = 4 ∧ (s.phase 6).isSome = true) := by decide +kernel
theorem test_submissionEntry : after (.submissionEntry 1 2 [(3, 0x10, 7)] [8] 1 ⟨(0, 0), none, false⟩) (submits ([(0, 0x10000000), (8, 5)] ++ noSuccs) none) (fun t =>
      (t.job 5).map (fun x => (x.parts, x.reach, (x.incs.get 3).value)) == some ([8], 1, 7) && t.subQueues.map SubQueue.phase == [some 3]) = true
    ∧ after (.submissionEntry 1 2 [] [] 0 ⟨(0, 0), none, false⟩) (submits ([(0, 0x20000003), (4, 0x10000)] ++ noSuccs) (some 6)) (fun t =>
      (t.node 3).map (fun x => (x.index, x.npred, x.succs)) == some (3, 1, [])) = true
    ∧ after (.submissionEntry 1 2 [] [] 0 ⟨(0, 0), none, true⟩) (submits ([(0, 0x20000003), (4, 0x10000)] ++ noSuccs) (some 6)) (fun t =>
      t.nodeList == [] && t.subQueues.map SubQueue.discarding == [true]) = true := by decide +kernel
/-- A copy node's block: one that reads, one in a page that the slow path may map, one at an address that is not canonical. -/
theorem witness_nodeBlock :
    let s := (submits ([(0, 0x30000003), (4, 0x10000), (8, 0x10100)] ++ noSuccs) (some 6)).putByte 0x10110 3
    let is (x : IssueRec) (k : Nat) : Bool := match x with
      | .ok _ => k == 0
      | .serve _ => k == 1
      | _ => false
    (entryOf s).ok = true ∧ (entryOf s).kind = 3 ∧ is (s.nodeBlock 1 0x10100 0) 0 = true ∧ is (s.nodeBlock 1 0x20000 0) 1 = true := by
  decide +kernel
def phased : State := { ended with units := ⟨[]⟩, phases := ⟨[(6, some { job := 1, ctx := 1, ending := some (64, 9) })]⟩ }
theorem witness_phaseEnd : phased.phaseZero 6 = true ∧ (phased.phase 6).map Phase.ending = some (some (64, 9)) := by decide +kernel
theorem test_phaseEnd : after (.phaseEndCompletion 6) phased (fun t => t.valueAt (2 ^ 60 + 64) 8 == 9 && t.msix.get 1 == 1
    && (t.phase 6).map Phase.complete == some true) = true := by decide +kernel
/-- The last byte of HBM, and one below the window; a byte that comes with poison, and one that is read with it (R424). -/
theorem test_hostHdmAccess : after (.hostHdmAccess 618475290623 true [some 7]) { State.reset with regs := { hdmsz := 1 } } (fun t => t.byteAt 618475290623 == 7) = true
    ∧ after (.hostHdmAccess 617401548799 true [some 7]) { State.reset with regs := { hdmsz := 1 } } (fun t => t.mem == []) = true
    ∧ after (.hostHdmAccess 618475290616 true [none]) { State.reset with regs := { hdmsz := 1 } } (fun t => t.poisonAt 618475290617) = true
    ∧ after (.hostHdmAccess 618475290616 false [none]) { State.reset with regs := { hdmsz := 1 }, memPoison := ⟨[(77309411327, true)]⟩ } (fun t =>
      t.hostAnswer == { addr := 618475290616, bytes := [0], poison := true }) = true := by decide +kernel
/-- The least and the greatest DRAIN, and one past each; a budget period is not among the registers. -/
theorem test_registerWrite : after (.registerWrite 0 1024) State.reset (fun t => t.regs.drain == 1024) = true
    ∧ after (.registerWrite 0 1023) State.reset (fun t => t.regs.drain == 16384) = true
    ∧ after (.registerWrite 1 0x40000000) State.reset (fun t => t.regs.wdog == 0x40000000) = true
    ∧ after (.registerWrite 3 255) State.reset (fun t => t.regs.age == 255) = true ∧ after (.registerWrite 4 168) State.reset (fun t => t.regs.scrub == 168) = true
    ∧ after (.registerWrite 2 0x4000000) State.reset (fun t => t.regs.peerto == 0x4000000) = true
    ∧ after (.registerWrite 6 8223) State.reset (fun t => t.fabric.number == 8223) = true ∧ after (.registerWrite 6 8224) State.reset (fun t => t.fabric.number == 0) = true
    ∧ after (.registerWrite (2 ^ 60 + 4 * 513) 9) State.reset (fun t => t.valueAt (128 * 513 + 0x44) 4 == 9) = true
    ∧ after (.registerWrite (2 ^ 60 + 4 * 513 + 1) 2) (State.reset.putByte (128 * 513 + 0x40) 5) (fun t => t.valueAt (128 * 513 + 0x40) 1 == 0x25) = true
    ∧ after (.registerWrite (2 ^ 60 + 4 * 513 + 2) 3) State.reset (fun t => t.valueAt (128 * 513 + 0x54) 4 == 3) = true
    ∧ after (.registerWrite 512 1) { State.reset with regs := { hdmsz := 1 } } (fun t => t.hdmBias.get 0) = true
    ∧ after (.registerWrite 65 7) idle (fun t => (t.context 1).map Context.head == some 7) = true
    ∧ after (.registerWrite 447 1) State.reset (fun t => (t.core 191).closed) = true := by decide +kernel

/-! #### The fabric and the network -/

/-- Job 1 exports 16 bytes at 0x8000. -/
def exporting : State := { State.reset with exports := [(1, 0x8000, 16)], mem := [(0x8008, 5)] }
theorem witness_peerRequest : (exporting.exports.find? fun e => e.1 == 2) = none ∧ (exporting.exports.find? fun e => e.1 == 1) = some (1, 0x8000, 16)
    ∧ (List.range 8).all (fun j => !exporting.poisonAt (0x8008 + j)) = true := by decide +kernel
theorem test_peerRequest : after (.peerRequest 3 1 1 8 16 8 4 0) exporting (fun t => t.heldReplies == [{ src := 3, seq := 1, value := [5, 0, 0, 0, 0, 0, 0, 0], since := [0, 0, 0, 0] }] && t.valueAt 0x8008 8 == 9) = true
    ∧ after (.peerRequest 3 1 1 9 0 8 0 0) exporting (fun t => t.heldReplies.map HeldReply.refused == [some 1]) = true := by decide +kernel
/-- A reply already held is not made again; an acknowledgement drops it, and so does PEERTO. -/
theorem test_peerRequest_again : after (.peerRequest 3 1 1 8 1 8 4 0) { exporting with heldReplies := [{ src := 3, seq := 1 }] } (fun t => t.valueAt 0x8008 8 == 5) = true
    ∧ after (.peerRequest 3 1 1 0 64 0 0 0) { exporting with heldReplies := [{ src := 3, seq := 1 }, { src := 3, seq := 2 }] } (fun t => t.heldReplies.map HeldReply.seq == [2]) = true
    ∧ after (.replyHoldExpiry 3 1) ({ exporting with heldReplies := [{ src := 3, seq := 1 }, { src := 3, seq := 2 }] }.setDie 2 { cycle := 4194304 }) (fun t =>
      t.heldReplies.map HeldReply.seq == [2]) = true
    ∧ after (.replyHoldExpiry 3 1) ({ exporting with heldReplies := [{ src := 3, seq := 1 }] }.setDie 2 { cycle := 4194303 }) (fun t =>
      t.heldReplies.map HeldReply.seq == [1]) = true := by decide +kernel
/-- A store and a load of 16 bytes, and bytes that come with poison. -/
theorem test_peerWide : after (.peerRequest 3 1 1 0 1 16 0x0807060504030201 0x100F0E0D0C0B0A09) exporting (fun t => t.valueAt 0x8000 16 == 0x100F0E0D0C0B0A090807060504030201) = true
    ∧ after (.peerRequest 3 1 1 0 0 16 0 0) exporting (fun t => t.heldReplies.map HeldReply.value == [[0, 0, 0, 0, 0, 0, 0, 0, 5, 0, 0, 0, 0, 0, 0, 0]]) = true
    ∧ after (.peerRequest 3 1 1 8 65 8 0 0) exporting (fun t => t.poisonAt 0x8008 && !t.poisonAt 0x8000) = true := by decide +kernel
/-- Device 0's local link 7 leads to device 8, its first global link to device 40: with link 7 down device 8 is lost, device 41 reached again over
device 40, device 70 only through device 41's group. -/
theorem test_links : after (.routeRecompute 7 ⟨[(0, 40), (41, 70)], [], []⟩) { State.reset with peers := ⟨[(8, {}), (41, { broken := true, unreachable := true }), (70, {})]⟩, unacked := [⟨1, 41, 1⟩, ⟨2, 8, 1⟩] } (fun t =>
      (t.links.get 7).down && (t.peers.get 8).broken && (t.peers.get 41) == { route := some ⟨31, true⟩ } && (t.peers.get 70).route == some ⟨31, false⟩
        && t.unacked == [⟨1, 41, 2⟩, ⟨2, 8, 1⟩] && t.fabric.stale == []) = true
    ∧ after (.linkRetrain 4 1 2 3 3) State.reset (fun t => t.links.get 4 == { resultA := 3, resultB := 3, common := 1 }) = true
    ∧ after (.linkRetrain 4 1 2 3 4) State.reset (fun t => (t.links.get 4).down && t.fabric.stale == [4]) = true
    ∧ after (.capabilityPublish 9 0xFFFFFFFF [(1, 0x4000000001), (2, 5)]) State.reset (fun t => t.peers.get 9 == { mask := 0x07FFFFFF, known := true, exports := [(1, 0x4000000000), (2, 5)] }) = true := by
  decide +kernel
/-- PEERTO is 4,194,304 cycles. -/
theorem test_peerUnreachable : after (.peerUnreachable 9) ({ State.reset with peers := ⟨[(9, { broken := true, brokenAt := [1, 0, 0, 0] })]⟩ }.setDie 0 { cycle := 4194305 }) (fun t =>
      (t.peers.get 9).unreachable) = true
    ∧ after (.peerUnreachable 9) ({ State.reset with peers := ⟨[(9, { broken := true, brokenAt := [1, 0, 0, 0] })]⟩ }.setDie 0 { cycle := 4194304 }) (fun t =>
      !(t.peers.get 9).unreachable) = true
    ∧ after (.peerUnreachable 9) State.reset (fun t => !(t.peers.get 9).unreachable) = true := by decide +kernel
theorem test_remoteStoreFailure : after (.remoteStoreFailure 80 5) { idle with storeFailures := [{ id := 80, ctx := 1, pc := 0x10000, addr := 0x50000, bytes := 4 }] } (fun t =>
    t.storeFailures == []) = true := by decide +kernel
def netCopy (route : Nat) : State := working .fq (.copy { route := route, h := 8, src := some { base := 0x10000, exts := [4], strides := [1] }, dst := some { base := 0x10000, exts := [4], strides := [1] }, endpoint := some { len := 4 } }) .started
  (handleAt 8 { state := .filling })
theorem witness_netCopy : ((netCopy 6).netCopy 77).isSome = true ∧ ((netCopy 7).netCopy 77).isSome = true := by decide +kernel
theorem test_rdmaCompletion : after (.rdmaCompletion 77 [1, 2, 3, 4]) (netCopy 7) (fun t => t.valueAt 0x10000 4 == 0x04030201 && (t.handle 1 8).state == .full
    && (t.handle 1 8).size == 4) = true
    ∧ after (.nak 77 ⟨1, []⟩) (netCopy 6) (fun t => (t.handle 1 8).err && t.entries == []) = true
    ∧ after (.nak 77 ⟨5, [1, 2]⟩) (netCopy 7) (fun t => t.valueAt 0x10000 4 == 0x01000201 && (t.handle 1 8).err && (t.handle 1 8).size == 2) = true
    ∧ after (.congestionNotificationPacket 1) State.reset (fun t => t.congestion.get 1 == 1) = true := by decide +kernel

/-! #### The census -/

/-- The matrix's record in memory under context 1, and Baruri's knowledge of it. -/
def counted (c : Census) (g : State → State) : State := g { withMatrix (mapped idle) with census := [{ c with mrec := 0x10080, ctx := 1 }] }
theorem witness_census :
    (counted {} id).matrixAt 0x10080 = some mrecT ∧ ((counted {} id).censusOf 0x10080).isSome = true ∧ (counted {} id).mstateAt 0x10080 = 0
    ∧ (counted {} id).censusQueue.length < 256 := by decide +kernel
theorem test_registration : after (.matrixRecordRegistration 0x10080 4 none) idle (fun t => t.census.map (fun c => (c.mrec, c.registered, c.budget)) == [(0x10080, true, 4)])
    = true := by decide +kernel
/-- A row's counter of 9 becomes 4; after the last row the sweep count is 1. A counter whose page is not mapped waits. -/
theorem test_fallowSweepEnd : after (.fallowSweepEnd 0x10080) (counted { sweeps := 1, registered := true } fun s => (s.putBytes (0x10080 + 0x28) [0, 4, 1]).putByte 0x10400 9) (fun t =>
      t.valueAt 0x10400 2 == 4 && t.valueAt (0x10080 + 0x6C) 4 == 0 && t.census.map (fun c => (c.sweeps, c.swept)) == [(1, 1)]) = true
    ∧ after (.fallowSweepEnd 0x10080) (counted { sweeps := 1, swept := 1, registered := true } fun s => s.putBytes (0x10080 + 0x28) [0, 4, 1]) (fun t =>
      t.valueAt (0x10080 + 0x6C) 4 == 1 && t.census.map (fun c => (c.sweeps, c.swept, c.rankOwed)) == [(0, 0, true)]) = true
    ∧ (let s := counted { sweeps := 1 } fun s => s.putBytes (0x10080 + 0x28) [0, 0, 3]
       after (.fallowSweepEnd 0x10080) s fun t => t.census == s.census) = true := by decide +kernel
/-- The policy makes row 0 hot: a map of 0x8000 and a list of row 0 are staged, and the command queued. -/
theorem test_censusRanking : after (.censusRanking 0x10080 0x10500 0x10600) (counted { registered := true, rankOwed := true, budget := 1, policy := some [(0, 0), (0, 1), (9, 2)] } fun s =>
    (s.putBytes (0x10080 + 0x20) [0, 3, 1]).putByte (0x10080 + 0x3A) 32) (fun t =>
    t.valueAt 0x10500 2 == 0x8000 && t.valueAt (0x10080 + 0x68) 4 == 1 && t.censusQueue == [(0x10080, 1)] && t.census.map Census.rankOwed == [false]) = true := by decide +kernel
/-- A hot position that is not below HBUD does not stand (R404). -/
theorem test_policyBound : policyRows { mrecT with rows := 4, hbud := 32 } 2 [(0, 31), (1, 32), (2, 31), (4, 1), (3, 0), (1, 5)] [] = [(0, 31), (3, 0)] := by decide +kernel
theorem test_migrationCommand : after (.migrationCommand 0x10080 1) (counted {} fun s => { s with censusQueue := [(0x10080, 1)] }) (fun t =>
      t.valueAt (0x10080 + 0x70) 4 == 1 && t.censusQueue == [] && t.census.map Census.migrating == [true]) = true
    ∧ after (.migrationCommand 0x10080 1) (counted {} fun s => { s.putByte (0x10080 + 0x70) 2 with censusQueue := [(0x10080, 1)] }) (fun t =>
      t.valueAt (0x10080 + 0x70) 4 == 0x52) = true
    ∧ after (.migrationCommand 0x10080 1) (counted {} id) (fun t => t.valueAt (0x10080 + 0x70) 4 == 0) = true := by decide +kernel
theorem witness_migration :
    let s := counted { migrating := true } fun s => s.putByte (0x10080 + 0x70) 1
    s.mstateAt 0x10080 = 1 ∧ s.recField 0x10080 0x4E 2 = 0 ∧ s.exhausted 1 .hbm = false ∧ s.exhausted 1 .copy = false := by decide +kernel
/-- A migration of one row from the staged map at 0x10500, by its steps. -/
def migrates (c : Census) (l : List (Nat × List Byte)) : State := counted { c with migrating := true, mctx := 1, engine := true } fun s =>
  l.foldl (fun s x => s.putBytes x.1 x.2) (((s.putByte (0x10080 + 0x70) 2).putBytes (0x10080 + 0x58) [0, 5, 1]).putBytes (0x10080 + 0x20) [0, 2, 1])
def stepIs (x : MigrationStep) (k : Nat) : Bool := match x with
  | .went _ => k == 0
  | .cause n => k == n
  | .fault _ => k == 9
theorem witness_migrationSteps :
    let at_ (c : Census) (l : List (Nat × List Byte)) (k : Nat) : Bool := let s := migrates c l
      (s.matrixAt 0x10080).any fun m => stepIs (s.migrateStep 0x10080 { c with mctx := 1 } m) k
    at_ {} [] 0 = true ∧ at_ {} [(0x10501, [0x10])] 1 = true ∧ at_ {} [(0x10080 + 0x5A, [3])] 9 = true ∧ at_ { mapped := 1 } [] 0 = true
    ∧ at_ { mapped := 1 } [(0x10080 + 0x68, [1]), (0x10080 + 0x60, [0, 6, 1])] 3 = true
    ∧ (migrates {} []).enginesHeld ((migrates {} []).censusDie 0x10080) < 32 := by decide +kernel
/-- The listed row's bytes stand in the hot store of the other parity, and MDONE rises. -/
theorem test_migrationListed : after (.migrationCopy 0x10080) (migrates { mapped := 1 } [(0x10080 + 0x3A, [32]), (0x10080 + 0x68, [1]), (0x10080 + 0x60, [0, 6, 1]),
    (0x10501, [0x80]), (0x10080 + 0x10, [0, 0xA, 1]), (0x1087F, [7])]) (fun t => t.valueAt 0x10A7F 1 == 7 && t.valueAt (0x10080 + 0x74) 4 == 1) = true
    ∧ after (.migrationCopy 0x10080) (migrates {} [(0x10500, [5])]) (fun t => t.valueAt (0x10080 + 0x70) 4 == 2 && t.valueAt 0x10200 2 == 5
      && t.census.map Census.mapped == [1]) = true
    ∧ after (.migrationCopy 0x10080) (migrates { mapped := 1 } []) (fun t => t.valueAt (0x10080 + 0x70) 4 == 3) = true := by decide +kernel
/-- A report while a migration runs is kept, and one of a record that Dzisidin has not registered is none. -/
theorem test_coldChange : after (.coldChangeReport 0x10080 0x10500 0x10600 [0]) (counted { registered := true } fun s => s.putByte (0x10080 + 0x70) 1) (fun t =>
      t.census.map (fun c => (c.stale, c.relist)) == [([0], (0x10500, 0x10600))]) = true
    ∧ after (.coldChangeReport 0x10080 0x10500 0x10600 [0]) (counted {} id) (fun t => t.census.map Census.stale == [[]]) = true
    ∧ after (.coldChangeReport 0x10080 0x10500 0x10600 [0]) (counted { registered := true } fun s => ((s.putByte (0x10080 + 0x3A) 32).putByte 0x10101 0x80).putBytes (0x10080 + 0x20) [0, 2, 1]) (fun t =>
      t.census.map Census.stale == [[]] && t.censusQueue == [(0x10080, 1)] && t.valueAt 0x10500 2 == 0x8000) = true := by decide +kernel
/-- A change of a record's field while a product is open leaves its results open. -/
theorem test_recordUpset : let s := counted {} fun s => s.putByte (0x10080 + 0x4C) 1
    ((s.write [(0x10080 + 0x18, 9)]).census.map Census.upset = [true]) ∧ (((counted {} id).write [(0x10080 + 0x18, 9)]).census.map Census.upset = [false]) := by
  decide +kernel
theorem test_migrationInstant : after (.migrationInstant 0x10080) (counted { migrating := true } fun s => s.putByte (0x10080 + 0x70) 3) (fun t =>
      t.valueAt (0x10080 + 0x48) 4 == 1 && t.valueAt (0x10080 + 0x70) 4 == 0 && t.census.map Census.migrating == [false]) = true
    ∧ after (.recordReachableAgain 0x10080) (counted {} fun s => { s.putByte (0x10080 + 0x4E) 3 with openLeft := [(1, 0x10080, 1)] }) (fun t =>
      t.valueAt (0x10080 + 0x4E) 2 == 2 && t.openLeft == []) = true := by decide +kernel

/-! #### Power, integrity, boot, attestation -/

/-- A word of DVF: millivolts, megahertz, gate. -/
def point (mv mhz gate : Nat) : Word := BitVec.ofNat 32 (mv + mhz * 2 ^ 12 + gate * 2 ^ 31)
def dvsOf (t : State) : Word := (t.die 1).dvs
/-- 675 mV is the reset point. A voltage out of range, or off the steps of 5 mV, is refused with cause 1, a frequency off its steps with cause 2. -/
theorem test_dvf : after (.dvfSetPoint 1 (point 425 600 0)) State.reset (fun t => dvsOf t == BitVec.ofNat 32 (2 ^ 27 + 675)) = true
    ∧ after (.dvfSetPoint 1 (point 702 600 0)) State.reset (fun t => dvsOf t == BitVec.ofNat 32 (2 ^ 27 + 675)) = true
    ∧ after (.dvfSetPoint 1 (point 700 599 0)) State.reset (fun t => dvsOf t == BitVec.ofNat 32 (2 * 2 ^ 27 + 675)) = true := by decide +kernel
def dieAt (st : Nat) (dvf : Word) : State := State.reset.setDie 1 { dvf := dvf, dvs := BitVec.ofNat 32 (st * 2 ^ 30 + 675) }
theorem test_gates : after (.gatingDone 1) (dieAt 3 (point 700 600 1)) (fun t => dvsOf t == BitVec.ofNat 32 (2 * 2 ^ 30 + 675)) = true
    ∧ after (.dvfWake 1 (point 425 600 0)) (dieAt 2 0) (fun t => dvsOf t == BitVec.ofNat 32 (2 * 2 ^ 30 + 2 ^ 27 + 675)) = true := by decide +kernel
/-- From 675 mV the supply takes a step of 10 mV in its time, and is at 680 mV with the next. -/
theorem test_pointsDone : after (.pointChangeDone 1) (dieAt 1 (point 700 650 0)) (fun t => dvsOf t == BitVec.ofNat 32 (2 ^ 30 + 685) && (t.die 1).clock == 2400 && (t.die 1).rampAt == 2900) = true
    ∧ after (.pointChangeDone 1) (dieAt 1 (point 680 650 0)) (fun t => dvsOf t == 680 && (t.die 1).clock == 650) = true
    ∧ after (.pointChangeDone 1) (State.reset.setDie 1 { dvf := point 680 650 0, dvs := BitVec.ofNat 32 (2 ^ 30 + 675), rampAt := 1 }) (fun t => (t.die 1).clock == 2400) = true
    ∧ after (.wakeDone 1) (dieAt 3 (point 700 650 0)) (fun t => dvsOf t == 700 && (t.die 1).clock == 650) = true
    ∧ after (.thermalThrottle 1) State.reset (fun t => (t.die 1).throttle == some 2375) = true
    ∧ after (.throttleRelease 1) (State.reset.setDie 1 { throttle := some 25 }) (fun t => (t.die 1).throttle == none) = true := by decide +kernel
theorem test_integrity : after (.scrubPass 1 17) State.reset (fun t => t.poisonAt 255 && !t.poisonAt 247) = true
    ∧ after (.hbmRowRetire 8) { State.reset with retiredRows := [8], moveAsked := [8, 9] } (fun t => t.retiredRows == [8] && t.moveAsked == [9]
      && t.repair == { seq := 1, rows := [8] }) = true
    ∧ after (.hbmRowRetire 8) State.reset (fun t => t.retiredRows == []) = true := by decide +kernel
theorem test_coreFailure : after (.coreFailure 0) idle (fun t => !(t.core 0).enabled && (t.core 0).closed && (t.core 0).saving.isSome && t.repair == { seq := 1, fails := [1, 0, 0, 0] }) = true := by decide +kernel
theorem test_moduleReset : after .moduleReset { idle with mem := [(5, 1), (1152921504606846981, 2)], repair := { rows := [9] } } (fun t =>
    t.mem == [(1152921504606846981, 2)] && t.sheaves == ⟨[]⟩ && t.repair.rows == [9] && (t.core 47).enabled) = true := by decide +kernel
theorem witness_boot : State.reset.trust.image = none ∧ State.reset.repair.seq < 1 ∧ State.reset.built.getD 95 none = some 47
    ∧ State.reset.checkOk 1 = true := by decide +kernel
/-- A line whose bytes do not have the check value that it holds. -/
theorem witness_badCheck (s : State) : ∃ x, ({ s with checks := ⟨[(1, some x)]⟩ } : State).checkOk 1 = false := by
  have h (w : Word) : (w ^^^ 1 == w) = false := by
    rw [beq_eq_false_iff_ne]; intro e
    have := congrArg (fun y : Word => y.getLsbD 0) e
    simp at this
  have g (t : State) (x : Word) (e : t.checks.get 1 = some x) : t.checkOk 1 = (x == crc32c (t.bytesAt (128 * 1) 128)) := by
    simp only [State.checkOk, e, Option.all_some]
  have b (c : Store (Option Word)) : ({ s with checks := c } : State).bytesAt = s.bytesAt := rfl
  refine ⟨crc32c (s.bytesAt (128 * 1) 128) ^^^ 1, ?_⟩
  rw [g _ _ rfl, b]
  exact h _
theorem test_bootWithoutImage : after (.bootImageLoad 1) { State.reset with trust := { triedBanks := [0] } } (fun t => t.trust.recovery && t.trust.triedBanks == [0, 1]) = true := by
  decide +kernel
theorem test_attestation : after .getVersion State.reset (fun t => t.spdm.stage == .version && t.spdm.answer == [0x13]) = true
    ∧ after .getCapabilities { State.reset with spdm := { stage := .version } } (fun t => t.spdm.stage == .capabilities && t.spdm.transcript == [0xE1, 0x61]) = true
    ∧ after (.negotiateAlgorithms 384 25519 384 256) { State.reset with spdm := { stage := .capabilities } } (fun t => t.spdm.stage == .negotiated) = true
    ∧ after (.negotiateAlgorithms 384 25519 384 128) { State.reset with spdm := { stage := .capabilities } } (fun t => t.spdm.stage == .capabilities) = true := by decide +kernel
theorem test_sessions : after .getDigests State.reset (fun t => t.spdm.stage == .idle) = true ∧ after (.getMeasurements 6 1) { State.reset with spdm := { stage := .negotiated } } (fun t =>
      t.spdm.answer == []) = true
    ∧ after (.keyExchange 5) { State.reset with spdm := { stage := .negotiated } } (fun t => t.spdm.stage == .keyed) = true
    ∧ after (.challenge 1) { State.reset with spdm := { stage := .version } } (fun t => t.spdm.stage == .version) = true
    ∧ after .endSession { State.reset with spdm := { stage := .session } } (fun t => t.spdm.stage == .negotiated) = true := by decide +kernel

/-! #### Steps -/

theorem witness_step : State.reset.latch = none ∧ State.reset.agenda = [] ∧ OnlyEvents State.reset ∧ Machine.Inv State.reset
    ∧ ({ State.reset with agenda := [.getVersion] } : State).agenda = .getVersion :: [] :=
  ⟨rfl, rfl, fun i hi => (List.not_mem_nil hi).elim, ⟨by decide +kernel, by decide +kernel⟩, rfl⟩
theorem witness_decodedStep : let s := State.reset.withFetchWord 32 0x10E20818
    s.latch.map Latch.positions = some [0xFFFFFFFF] ∧ lowest ((s.latch.getD {}).still (theSheaf s) 0xFFFFFFFF) = some 0
    ∧ s.fetch 0 1 0x10000 = some 0x10E20818 ∧ decodeTableWord 32 0x10E20818 = some (.iadd false 7 8 16 24) := by decide +kernel
/-- A choice that has still to be tried, none of whose words proves not ready. -/
theorem witness_trial : let s := State.reset.withFetchWord 32 0x10E20818
    s.latch.map Latch.trial = some none ∧ (s.notReady { s.latch.getD {} with trial := some {} } 0xFFFFFFFF).isNone = true := by decide +kernel
theorem witness_encode : (Instr.copy true 6 127 119 4 false 7).wellFormed = true ∧ encode (.copy true 6 127 119 4 false 7) = some 0xF5DFFBC7 := by decide +kernel

/-- FLIM is a free table of the part; where it allows 600 MHz at 700 mV, the point is accepted. -/
theorem witness_point (h : 600 ≤ Config.flim 700) : pointCause (point 700 600 0) = 0 := by
  have hv : dvfMv (point 700 600 0) = 700 := by decide +kernel
  have hf : dvfMhz (point 700 600 0) = 600 := by decide +kernel
  have hl : lineMhz 700 = 2500 := by decide +kernel
  simp only [pointCause, hv, hf, flimMhz, hl]
  rw [if_neg (by omega), if_neg (by omega)]
/-! ### More premises, clause by clause -/

/-! #### Memory, faults, regions -/

/-- The catalogue's check value of CRC-32C (R422). -/
theorem test_crc32c : crc32c ([0x31, 0x32, 0x33, 0x34, 0x35, 0x36, 0x37, 0x38, 0x39] : List Byte) = 0xE3069283 := by decide +kernel

/-- A lane's register with a fixed-latency result on its way, and one without. -/
theorem witness_lateResults :
    onIt (fun c => !c.isStepped && lateAt c.f c.now (vKey 8 3) && !lateAt c.f c.now (vKey 8 4)
        && addressFault c.unit 0 (address c 0 16 3) 4 == some 0) (.ld false 7 8 16 15 0)
      (fun f => { vreg 16 (fun _ => 4096) f with pending := [{ key := vKey 8 3, ready := 100 }] }) (unitBy roomy) = true
    ∧ (let s := resting (fun f => { f with pending := [{ key := vKey 8 3, ready := 100 }, { key := uKey 2, ready := 100 }] }) id
       lateAt (theSheaf s) (s.now (theSheaf s)) (vKey 8 3) = true ∧ lateAt (theSheaf s) (s.now (theSheaf s)) (uKey 2) = true) := by decide +kernel

/-- A reply that lands under a result on its way: what stood before the result is the reply's word, and the result stays (R78). -/
theorem test_landUnder : (match exec (.loadReply 2 5) (resting (fun f => { vreg 8 (fun _ => 9) f with
      outstanding := [{ loadOf .sp 8 with kind := .value [7] }], pending := [{ key := vKey 8 3, old := 1, ready := 100 }] }) (unitBy roomy)) with
  | .next t => (theSheaf t).v.get (vKey 8 3) == 9 && (theSheaf t).pending == [{ key := vKey 8 3, old := 7, ready := 100 }]
  | _ => false) = true := by decide +kernel

/-- A word whose record in the window reads badly: not yet declined, declined in lane 2, and a record that reads well. -/
def badWord (k : Nat) : UnitSt → UnitSt := fun u => { armed u with winPoison := (armed u).winPoison.set k true }
theorem witness_served :
    onIt (fun c => c.unit.winPoisoned 0 64 && (c.actLanes.findSome? (c.declined (issued 0))).isNone) (.mbind false 7 8 16 1) id
      (fun s => slotsBound (unitBy (badWord 7) s)) = true
    ∧ onIt (fun c => c.unit.winPoisoned 0 64 && c.actLanes.any fun l => (c.f.lane l).declined == some { kind := .uncorrected, cause := 7 })
      (.mbind false 7 8 16 1) (fun f => f.updLanes 4 fun _ x => { x with declined := some { kind := .uncorrected, cause := 7 } })
      (fun s => slotsBound (unitBy (badWord 7) s)) = true
    ∧ onIt (fun c => !c.unit.winPoisoned 0 64) (.mbind false 7 8 16 1) id (fun s => slotsBound (unitBy (badWord 8) s)) = true := by decide +kernel
/-- Such a word waits for the service of its record's word; served in vain, it takes the lane-fault trap. -/
theorem test_recordServed :
    (match exec (.mbind false 7 8 16 1) (dressed 0x70E40801 id (fun s => slotsBound (unitBy (badWord 7) s))) with
      | .next t => (theSheaf t).awaiting.map (fun a => (a.lanes, a.stage, a.inPlace)) == [(0xFFFFFFFF, .reported, true)] && t.entries == []
      | _ => false) = true
    ∧ leads (.mbind false 7 8 16 1) (lanesBy fun x => { x with declined := some { kind := .uncorrected, cause := 7 } })
      (fun s => slotsBound (unitBy (badWord 7) s)) 0x21000 = true := by decide +kernel

/-- A saved sheaf with a trap pending, and one parked; a lane held by an `EXIT`. -/
theorem witness_savedSheaf :
    (let s := trapped (fun f => { f with place := none }) .emul
     (theSheaf s).place = none ∧ s.drained 2 (theSheaf s) = true ∧ (theSheaf s).translated 1 = true)
    ∧ (let s := resting (fun f => { f with place := none, park := some ⟨1, []⟩ }) id
       s.drained 2 (theSheaf s) = true ∧ (theSheaf s).place = none) := by decide +kernel
theorem test_exitPark : after (.yParkEnd 2) (resting (fun f => { f.updLanes 2 (fun _ x => { x with hold := .exit }) with park := some ⟨1, []⟩ }) id) (fun t =>
    ((theSheaf t).lane 1).life == .exited && ((theSheaf t).lane 0).life == .live && (theSheaf t).park == none) = true := by decide +kernel

/-! #### Engines -/

/-- A handle released in this very cycle. -/
theorem witness_relAt : onIt (fun c => (c.unit.lrec.handles.contains 8)) (.hrel false 7 8) id (handle8 { relAt := some 0 } []) = true
    ∧ leads (.hrel false 7 8) id (handle8 { relAt := some 0 } []) 0x10004 = true ∧ leads (.hrel false 7 8) id (handle8 { state := .filling } []) 0x22000 = true := by
  decide +kernel

/-- A flag whose count is 63 holds a word that raises it; the follow-on's flag is asked after the copy's own raise (R80, R250). -/
theorem test_flagFull : flagFull { theSheaf idle with flagOps := List.replicate 63 ⟨100, 0, 1⟩ } 0 1 = true
    ∧ flagFull { theSheaf idle with flagOps := List.replicate 62 ⟨100, 0, 1⟩ } 0 1 = false
    ∧ flagFull { theSheaf idle with flagOps := List.replicate 63 ⟨100, 0, 1⟩ } 12 1 = false := by decide +kernel

/-- Operands of which one is spoilt, or whose handle has ERR: the product cannot be filled. -/
theorem witness_unfillable :
    (let s := working .mq (.mill { aSlot := 0, bSlot := 1 }) .queued (fun s => (operands s).updCore 0 fun k => { k with slots := k.slots.modify 0 fun x => { x with poison := x.poison.set 0 true } })
     s.mayStart (entryT s) = true ∧ (s.handle 1 (s.slot 1 0).handle).state = .full ∧ (s.slot 1 0).spoilt = true)
    ∧ (let s := working .mq (.mill { aSlot := 0, bSlot := 1 }) .queued (fun s => handleAt 8 { state := .full, err := true } (operands s))
       s.mayStart (entryT s) = true ∧ (s.handle 1 (s.slot 1 0).handle).state = .full ∧ (s.handle 1 (s.slot 1 0).handle).err = true) := by decide +kernel
theorem test_unfillable : after (.millOpStart 77) (working .mq (.mill { aSlot := 0, bSlot := 1 }) .queued (fun s => handleAt 8 { state := .full, err := true } (operands s)))
    (fun t => match (entryT t).work with
      | .mill m => m.unfillable && (entryT t).due == 1
      | _ => false) = true
    ∧ after (.millOpRetire 77) (working .mq (.mill { tile := 3, unfillable := true }) .started id) (fun t =>
      (t.core 0).tilePoison.get 3072 && (t.core 0).tilePoison.get 4095 && !(t.core 0).tilePoison.get 4096) = true := by decide +kernel
/-- `MSTEP` two of five cycles into a clear has no steps; a cold row in an unmapped page waits for the slow path. -/
theorem witness_coldRows :
    let s := withMatrix (working .nq (.qmv pblock { mrecT with cold := 0x30000 } 0 [0] true none) .started id)
    (entryT s).orphan = false ∧ (match s.coldRow (entryT s) pblock { mrecT with cold := 0x30000 } 0 with
      | .error _ => true
      | .ok _ => false) = true := by decide +kernel
theorem witness_join :
    let s := withMatrix (working .nq (.rjoin pblock {} [] none) .queued fun s => handleAt 8 { state := .full, err := true } (unitBy (fun u => u.winWrite 0x68 [1]) s))
    s.joinFault (entryT s) pblock mrecT = none := by decide +kernel
/-- A record changed under its product, and one that was not. -/
theorem witness_upset :
    let s := counted {} id
    s.isUpset 1 0x10080 = false ∧ (counted { upset := true } id).isUpset 1 0x10080 = true := by decide +kernel
/-- A join under way: it closes its product once no row is left. The last step of one that counts raises PRODUCTS. -/
theorem test_rjoinEnd : after (.rjoinStart 77) (withMatrix (working .nq (.rjoin pblock mrecT [] (some false)) .started fun s =>
      handleAt 8 { state := .full, err := true } (unitBy (fun u => u.winWrite 0x68 [1]) (s.putByte (0x10080 + 0x4C) 2)))) (fun t =>
      t.entries == [] && t.valueAt (0x10080 + 0x4C) 2 == 1) = true
    ∧ after (.rjoinStart 77) (withMatrix (working .nq (.rjoin pblock mrecT [] (some true)) .started fun s => s.putByte (0x10080 + 0x4C) 2)) (fun t =>
      t.entries == [] && t.valueAt (0x10080 + 0x50) 4 == 1) = true := by decide +kernel

/-- The chain goes on at device 9, and came from device 7: a carry goes out, one comes in; a member before that has stopped. -/
def spanned (s : State) : State := s.updLaunch 0 fun x => { x with span := some { before := 7, after := 9, first := false, last := false } }
theorem witness_spannedChains :
    (let s := spanned (working .sq (.csend 0 0 none) .queued (second {}))
     s.scanTurn (entryT s) = true ∧ s.peerNext 1 = some 9)
    ∧ (let s := (spanned (working .sq (.csend 0 0 (some carryT)) .started (second {}))).sendOn 9 (.carry 77)
       s.peerNext 1 = some 9 ∧ (s.ackOn 9 (.carry 77)).isSome = true)
    ∧ (let s := spanned (working .sq .cbar .queued (firstOf {}))
       (s.span 0).map Span.before = some 7 ∧ (s.takenFrom 7 0).isSome = true ∧ (s.member 0 0).buffer.length < 4 ∧ s.memberEnd 0 (s.member 0 0) = false)
    ∧ (let s := working .sq (.crecv 0 0) .queued (second { buffer := [{ broken := true }] })
       s.scanTurn (entryT s) = true ∧ (s.member 0 1).buffer = [{ broken := true }]) := by decide +kernel
/-- A member that has retired: its words, and what the device after it is told. -/
def stops (s : State) : State := s.updUnit 1 fun u => { u with cancelled := true }
theorem witness_retiredMembers :
    let n (s : State) : Nat × Bool := ((s.member 0 1).sent, ((s.chain 0).getLast?).any Prod.snd)
    (let s := stops (spanned (working .sq (.csend 0 0 none) .queued (second { sent := 2 })))
     s.scanTurn (entryT s) = true ∧ s.peerNext 1 = some 9 ∧ s.hasStopped (entryT s) = true ∧ n s = (2, true)
     ∧ (s.span 0).map (fun x => (x.stopTold, x.allTold, x.last)) = some (false, false, false) ∧ roundDone (s.chain 0) false 0 = true)
    ∧ (let s := spanned (working .sq (.csend 0 0 none) .queued (second { sent := 1 }))
       n s = (1, false) ∧ roundDone (s.chain 0) false 0 = true ∧ s.hasStopped (entryT s) = false)
    ∧ (let s := stops (working .sq (.csend 0 0 (some carryT)) .started (firstOf {}))
       s.memberOf 1 = some (0, 0) ∧ s.peerNext 1 = none ∧ s.memberEnd 0 (s.member 0 0) = true)
    ∧ (let s := stops (working .sq (.crecv 0 0) .queued (second { buffer := [carryT] }))
       s.scanTurn (entryT s) = true ∧ s.memberOf 1 = some (0, 1) ∧ s.memberEnd 0 (s.member 0 1) = true)
    ∧ ((spanned (working .sq .cbar .queued (second {}))).sendOn 9 (.stopped 0 2) |>.ackOn 9 (.stopped 0 2)).isSome = true := by decide +kernel
/-- The stop of the last member here, then each round complete here; the message goes once it has come there. -/
theorem test_notices :
    let s := stops (spanned (working .sq .cbar .queued (second { sent := 2 })))
    after (.carryPlaced (.notice 0)) s (fun t => (t.channels.get 9).sent == [.stopped 0 2] && (t.span 0).any Span.stopTold) = true
    ∧ after (.carryPlaced (.notice 0)) (spanned (working .sq .cbar .queued (second { sent := 1 }))) (fun t =>
      (t.channels.get 9).sent == [.round 0 0 false false] && (t.span 0).map Span.rounds == some 1) = true
    ∧ after (.carryPlaced (.told 0)) (s.sendOn 9 (.stopped 0 2)) (fun t => (t.channels.get 9).sent == []) = true := by decide +kernel
theorem test_carryGoesOut : after (.csendStart 77) (spanned (working .sq (.csend 8 0 none) .queued (second {}))) (fun t =>
      (t.channels.get 9).sent == [.carry 77]) = true
    ∧ after (.carryPlaced (.own 77)) ((spanned (working .sq (.csend 0 0 (some carryT)) .started (second {}))).sendOn 9 (.carry 77)) (fun t =>
      (t.channels.get 9).sent == [] && (t.member 0 1).sent == 1 && t.entries == []) = true := by decide +kernel
/-- The carry that device 7 sent first is taken once, in its turn. -/
theorem test_carryComesIn :
    let s := spanned (working .sq (.crecv 0 0) .queued (firstOf {}))
    after (.carryPlaced (.peer 0 7 0 false carryT.words)) s (fun t => (t.member 0 0).buffer == [carryT] && (t.channels.get 7).received == 1) = true
    ∧ after (.carryPlaced (.peer 0 7 1 false carryT.words)) s (fun t => (t.member 0 0).buffer == []) = true := by decide +kernel
/-- The member before has sent nothing and its unit has ended: what it would have sent is broken; and what it is sent is absorbed. -/
theorem witness_stoppedMembers :
    (let s := (working .sq (.crecv 0 0) .queued (second {})).setUnit 4 { job := 1, index := 4, stage := .complete }
     let t := s.updMember 0 0 fun m => { m with unit := 4, sent := 0 }
     t.prevStopped 0 1 = true ∧ (t.member 0 1).buffer = [])
    ∧ (let s := (working .sq (.csend 0 0 (some carryT)) .started (firstOf {})).setUnit 4 { job := 1, index := 4, stage := .complete }
       let t := s.updMember 0 1 fun m => { m with unit := 4, buffer := [] }
       t.memberEnd 0 (t.member 0 1) = true) := by decide +kernel
theorem test_brokenCarry : after (.crecvTake 77) (working .sq (.crecv 16 0) .queued (second { buffer := [{ broken := true }] })) (fun t =>
    (theUnit t).winPoisoned 16 4 && (theUnit t).winPoisoned 20 4 && !(theUnit t).winPoisoned 24 4 && (t.member 0 1).broken == [0] && (t.member 0 1).rcvd == 1) = true := by decide +kernel

/-! #### Units, the fabric, steps -/

/-- A `GROW` arrives: the launch has three more groups, and the old count is the answer (R321). -/
theorem test_growArrival : after (.spawnArrival 50) ({ launches 1 4 idle with spawns := [{ id := 50, owner := { ownerT with dst := 8 }, grow := some 3 }] }) (fun t =>
      (t.launch 0).map LaunchSt.count == some 7 && (theSheaf t).v.get (vKey 8 0) == 4 && t.spawns == []) = true
    ∧ after (.spawnArrival 50) ({ launches 1 0xFFFFFFFE idle with spawns := [{ id := 50, owner := { ownerT with dst := 8 }, grow := some 2 }] }) (fun t =>
      (t.launch 0).map LaunchSt.count == some 0xFFFFFFFE && (theSheaf t).v.get (vKey 8 0) == 0xFFFFFFFF) = true := by decide +kernel
/-- An earlier spawn of the same unit is still on its way; a stamp that the replica passes. -/
theorem witness_spawnOrder :
    (let s := { spawnT {} with spawns := [{ id := 40, owner := ownerT }, { id := 50, owner := ownerT }] }
     (s.spawns.find? fun x => x.id == 50 && !x.sent).any s.spawnBefore = true ∧ (s.spawns.find? fun x => x.id == 40 && !x.sent).any s.spawnBefore = false)
    ∧ (declared idle).stampPassed 1 0 (some (0x8F, 6)) = true ∧ (declared idle).stampPassed 1 0 (some (0x8F, 5)) = false := by decide +kernel
/-- The list's head does not fit and has been passed over less often than AGE; the second fits. -/
theorem witness_admissionOrder :
    let s := { listedUnit with listed := [{ launch := some 0 }, { unit := some 5 }] }.setLaunch 0 { job := 1, ctx := 1, count := 1, lrec := { gx := 1, extents := 1, win := 2 ^ 19, pword := 0x00101040 } }
    let z : State := { s with admitFrom := 2 }
    s.dieList 0 = [{ launch := some 0 }, { unit := some 5 }] ∧ 0 < s.regs.age
    ∧ z.fits 1 (s.listedRec { unit := some 5 }).1 1 = some 0 ∧ z.fits 1 (s.listedRec { launch := some 0 }).1 1 = none := by decide +kernel
/-- The three cases of a sweep: not zero; zero for the first time; zero twice with one total; and a single part. -/
theorem witness_sweeps :
    idle.jobZero 1 = false ∧ jobDone.jobZero 1 = true ∧ (jobDone.job 1).map Job.swept = some (some [0, 3])
    ∧ (jobDone.job 1).map (fun x => (x.rcvd.toNat :: [3] : List Nat)) = some [0, 3] := by decide +kernel
/-- The place of a forwarding to another device: its message is the oldest of the channel. -/
theorem test_crierOut : after (.crierReplicaUpdate 1 15 false (256 + 7)) ((resting id declared).updJob 1 fun j => { j with parts := [7] }) (fun t =>
    t.channels == (resting id declared).channels) = true := by decide +kernel
/-- A pop's delivery is an acquire of its sheaf's core. -/
theorem test_popAcquires : after (.popDelivery 61) ({ idle with qdeliveries := [{ id := 61, word := 60, owner := { ownerT with lanes := 8, dst := 8 }, lane := 3, bytes := [7, 0, 0, 0], sheaf := 2 }] }.updCore 0 fun k =>
    { k with cache := [(5, [])] }) (fun t => (t.core 0).cache == []) = true := by decide +kernel

/-- A load of a poisoned byte; additions in FP32; sizes and numbers that no operation has. -/
theorem witness_peerOps :
    let s := { exporting with memPoison := ⟨[(0x1001, true)]⟩ }
    s.poisonAt 0x8008 = true ∧ s.poisonAt 0x8000 = false := by decide +kernel
theorem test_peerOps : after (.peerRequest 3 1 1 8 0 8 0 0) { exporting with memPoison := ⟨[(0x1001, true)]⟩ } (fun t => t.heldReplies.map HeldReply.refused == [some 7]) = true
    ∧ after (.peerRequest 3 1 1 8 32 4 0x3F800000 0) { exporting with mem := [(0x800A, 0x80), (0x800B, 0x3F)] } (fun t => t.valueAt 0x8008 4 == 0x40000000) = true
    ∧ after (.peerRequest 3 1 1 8 32 8 0 0) exporting (fun t => t.heldReplies.map HeldReply.refused == [some 1]) = true := by decide +kernel
/-- What was out on a lost peer's channel is sent again before what was held back; a new route goes out only when the old is drained. -/
theorem test_channels :
    let c : Channel := { sent := [.carry 1], held := [.carry 2] }
    c.lost = { sent := [], held := [.carry 1, .carry 2] } ∧ c.rerouted true = { c with draining := true }
    ∧ (c.rerouted true).acked true = { sent := [.carry 2] } ∧ ({ sent := [.carry 1] } : Channel).put false (.carry 3) = { sent := [.carry 1], held := [.carry 3] } := by
  decide +kernel

/-- A lane part of memory's cells at a network copy's destination that no condition meets; a word of a line that fails its check. -/
theorem witness_netCells : (let s := netCopy 7
    (s.netCopy 77).any fun x => (List.range 4).all fun j => (s.sideMeets (x.2.1.sides x.1).2 (0x10000 + BitVec.ofNat 64 j)).isNone) = true := by decide +kernel
theorem test_scrubChecks : after (.scrubPass 1 18) State.reset (fun t => (t.checks.get 1).isSome) = true
    ∧ after (.scrubPass 7 24) State.reset (fun t => t.bankErrors.get 7 == 1) = true ∧ after (.scrubPass 7 25) State.reset (fun t => t.setErrors.get 7 == 1) = true := by
  decide +kernel
/-- Of a gated die only the point changes. -/
theorem test_gatedPoint : after (.dvfGate 1 (point 425 600 1)) (dieAt 2 0) (fun t => dvsOf t == BitVec.ofNat 32 (2 * 2 ^ 30 + 2 ^ 27 + 675)) = true := by decide +kernel

/-- The `ENDL` of a resident body is next, and its lanes are all the live ones. -/
theorem witness_latchTail :
    let s := { idle with latch := some { sheaf := 2, positions := [], view := theSheaf idle, ends := [(0xFFFFFFFF, 0x10000)], tail := some (0xFFFFFFFF, 0x10000) } }
    let f := theSheaf s
    let lanes := laneMask fun k => (0xFFFFFFFF : Mask).getLsbD k && f.free k && (f.lane k).pc == 0x10000
    lowest lanes = some 0 ∧ f.holdsAll lanes = true ∧ s.endWaits f lanes = false ∧ f.faultedLanes lanes = 0
    ∧ (s.fetch f.coreNo (s.unitOf f).ctx 0x10000).isSome = true := by decide +kernel

/-- The plain cases of `EachFormHasItsEffect`: a job of one part that is done; an image that a bank holds. -/
theorem witness_plainCases :
    (let s := { jobDone with jobs := ⟨[(1, some { ctx := 1 })]⟩ }
     s.jobZero 1 = true ∧ (s.job 1).map Job.parts = some [] ∧ (s.job 1).map Job.ended = some none)
    ∧ onIt (fun _ => true) (.rcp false 7 8 16) id id = true ∧ onIt (fun _ => true) (.tanh false 7 8 16) id id = true
    ∧ onIt (fun c => c.actLanes.all fun l => decide ((c.r32 16 l).toNat < 1024 * tileCount c.unit.lrec.pword)) (.amovRd false 7 8 16 0) id (unitBy roomy) = true
    ∧ (State.reset.netCopy 77).isNone = true := by decide +kernel

/-- A counter of a joined matrix, and bytes beside it; a write of a counter takes free bytes (R400). -/
theorem test_censusWrite :
    let s : State := { State.reset with census := [{ mrec := 64, ctx := 1, counts := [(0x1000, 4)] }] }
    s.counterAt 0x1003 = some 0x1002 ∧ s.counterAt 0x1004 = none
    ∧ (s.write [(0x1004, 7)]).byteAt 0x1004 = 7 ∧ (s.write [(0x1004, 7)]).free = s.free
    ∧ (s.write [(0x1003, 7), (0x1004, 7)]).free = s.free + 1 := by decide +kernel
/-- A host that cannot be reached gives cause 5; one whose route is broken is served (R194, R197). -/
theorem test_hostUnreachable :
    let gone (p : Peer) : State := { State.reset with peers := ⟨[(Config.host, p)]⟩ }
    (gone { unreachable := true }).targetFault [1] (2 ^ 60 + 8) 8 8 = some ⟨.unserviceable, 5, 8, []⟩ ∧ State.reset.targetFault [1] (2 ^ 60 + 8) 8 8 = none
    ∧ (gone { broken := true }).targetFault [1] (2 ^ 60 + 8) 8 8 = some ⟨.brokenRemote, 5, 8, []⟩ ∧ (gone { broken := true }).targetFault [1] 8 8 8 = none := by
  decide +kernel
/-- A job is homed anew: the job and the places of its spawned units, and those of no other (R419). -/
theorem test_rehome : after (.registerWrite (2 ^ 32 + 1) 2) { idle with listed := [{ unit := some 1 }, { launch := some 0 }] } (fun t =>
    (t.job 1).map Job.homeDie == some 2 && t.listed.map Listed.die == [2, 0]) = true ∧ idle.dieOpen 2 = true ∧ (idle.job 1).isSome = true
    ∧ idle.unitList.all (fun c => !idle.stampPassed 1 2 c.2.stamp) = true ∧ idle.spawns = [] := by decide +kernel
/-- The engines for a record of a gated die are those of its neighbour (R420). -/
theorem test_censusDie : (dieAt 2 0).censusDie (144 * 2 ^ 30) = 0 ∧ (dieAt 0 0).censusDie (144 * 2 ^ 30) = 1 := by decide +kernel
/-- A migration whose staged map cannot be reached. -/
theorem witness_migrationFault :
    stepIs ((migrates {} [(0x10080 + 0x5F, [1])]).migrateStep 0x10080 { mctx := 1 } mrecT) 9 = true := by decide +kernel

end Sys2Proof.Tests
end

section
/-!
PROOFS. The invariant (O57, O58). Every operation of the model keeps it: one lemma for each, named after the operation, so that the
proof for an operation that is made of others is put together as the operation is, a lemma for each of its parts. Where an operation answers more than
a state, what its answer has to do with the invariant is a predicate of its own.
-/
-- The lemmas are many and short. Elaborated in parallel they start more threads than the check's memory limit holds stacks for.
set_option Elab.async false

namespace Sys2Proof.Machine

/-! ### The invariant of what an operation answers -/

/-- Where the machine goes on, the invariant holds. -/
def OutInv (o : Out) : Prop := ∀ ⦃t⦄, o = .next t → Inv t

/-- Where an operation answers a state, the invariant holds of it. -/
def OptInv (o : Option State) : Prop := ∀ ⦃t⦄, o = some t → Inv t

/-- The invariant holds of the state that a word's effect leaves. -/
def EffInv : Eff → Prop
  | .done t => Inv t
  | .trap _ t => Inv t
  | .hold t => Inv t
  | .emul => True
  | .poison _ => True

/-- The invariant holds of the state in which a lane's access is located. -/
def LocInv : Loc → Prop
  | .here _ t => Inv t
  | .miss _ => True
  | .bad _ => True

/-- The invariant holds of the state that the race detector leaves. -/
def DetectedInv : Detected → Prop
  | .clear t => Inv t
  | .race .. => True
  | .withdrawn t => Inv t

/-- The invariant holds of the state that a lane's read leaves. -/
def GotInv : Got → Prop
  | .bytes _ t => Inv t
  | .bad _ t => Inv t
  | .wait t => Inv t

/-- The invariant holds of the state that a check before a word's effect leaves. -/
def CheckedInv : Checked → Prop
  | .clear t => Inv t
  | .race .. => True
  | .withdrawn t => Inv t

/-- The invariant holds of the state that translating a store's part leaves. -/
def PartResInv : PartRes → Prop
  | .ok _ t => Inv t
  | .miss _ => True
  | .again t => Inv t

/-- The invariant holds of the state that a step of a migration leaves. -/
def MigrationStepInv : MigrationStep → Prop
  | .went t => Inv t
  | .cause _ => True
  | .fault _ => True

/-- The invariant holds of the state in which the front of issue leaves the machine. -/
def FrontInv : Front → Prop
  | .idle => True
  | .went t => Inv t
  | .issue _ t => Inv t

/-- The ranges of the package registers, register by register. -/
theorem PkgRegs.ok_iff {r : PkgRegs} : r.ok = true ↔
    (1024 ≤ r.drain ∧ r.drain ≤ 2 ^ 20) ∧ powerOfTwo r.wdog (2 ^ 20) (2 ^ 30) = true
    ∧ (2 ^ 16 ≤ r.peerto ∧ r.peerto ≤ 2 ^ 26) ∧ r.age ≤ 255 ∧ (1 ≤ r.scrub ∧ r.scrub ≤ 168) ∧ r.hdmsz ≤ 512 := by
  simp only [PkgRegs.ok, Bool.and_eq_true, decide_eq_true_eq, and_assoc]

/-- A sequence of operations that may fail answers a value only if its first operation does. -/
theorem Except.exists_of_bind_eq_ok {ε α β : Type} {x : Except ε α} {f : α → Except ε β} {b : β}
    (h : x >>= f = .ok b) : ∃ a, x = .ok a ∧ f a = .ok b := by
  cases x with
  | error _ => cases h
  | ok a => exact ⟨a, rfl, h⟩

section
variable {α : Type} {s t : State}

theorem OutInv.fault {r : Fault} : OutInv (.fault r) := by simp [OutInv]
theorem Inv.next (h : Inv s) : OutInv (.next s) := by rintro _ ⟨⟩; exact h
theorem OutInv.ite {c : Prop} [Decidable c] {a b : Out} (ha : OutInv a) (hb : OutInv b) :
    OutInv (if c then a else b) := by
  split
  · exact ha
  · exact hb

theorem OptInv.none : OptInv .none := by simp [OptInv]
theorem Inv.some (h : Inv s) : OptInv (.some s) := by rintro _ ⟨⟩; exact h
theorem OptInv.ite {c : Prop} [Decidable c] {a b : Option State} (ha : OptInv a) (hb : OptInv b) :
    OptInv (if c then a else b) := by
  split
  · exact ha
  · exact hb
theorem OptInv.of_eq {o : Option State} (e : o = some t) (h : OptInv o) : Inv t := h e
theorem OptInv.bind {β : Type} {o : Option β} {g : β → Option State} (h : ∀ x, OptInv (g x)) :
    OptInv (o.bind g) := by
  intro t e
  obtain ⟨x, -, e⟩ := Option.bind_eq_some_iff.mp e
  exact h x e
theorem OptInv.getD {o : Option State} (ho : OptInv o) (h : Inv s) : Inv (o.getD s) := by
  cases o with
  | none => exact h
  | some t => exact ho rfl

theorem EffInv.ite {c : Prop} [Decidable c] {a b : Eff} (ha : EffInv a) (hb : EffInv b) :
    EffInv (if c then a else b) := by
  split
  · exact ha
  · exact hb
theorem EffInv.done {x : Eff} (h : EffInv x) (e : x = .done t) : Inv t := by subst e; exact h
theorem EffInv.trap {x : Eff} {r : TrapRec} (h : EffInv x) (e : x = .trap r t) : Inv t := by subst e; exact h
theorem EffInv.hold {x : Eff} (h : EffInv x) (e : x = .hold t) : Inv t := by subst e; exact h

theorem LocInv.ite {c : Prop} [Decidable c] {a b : Loc} (ha : LocInv a) (hb : LocInv b) :
    LocInv (if c then a else b) := by
  split
  · exact ha
  · exact hb
theorem LocInv.here {x : Loc} {a : Acc} (h : LocInv x) (e : x = .here a t) : Inv t := by subst e; exact h
theorem DetectedInv.clear {x : Detected} (h : DetectedInv x) (e : x = .clear t) : Inv t := by subst e; exact h
theorem DetectedInv.withdrawn {x : Detected} (h : DetectedInv x) (e : x = .withdrawn t) : Inv t := by subst e; exact h
theorem GotInv.bytes {x : Got} {b : List Byte} (h : GotInv x) (e : x = .bytes b t) : Inv t := by subst e; exact h
theorem GotInv.bad {x : Got} {p : Poison} (h : GotInv x) (e : x = .bad p t) : Inv t := by subst e; exact h
theorem GotInv.wait {x : Got} (h : GotInv x) (e : x = .wait t) : Inv t := by subst e; exact h
theorem CheckedInv.ite {c : Prop} [Decidable c] {a b : Checked} (ha : CheckedInv a) (hb : CheckedInv b) :
    CheckedInv (if c then a else b) := by
  split
  · exact ha
  · exact hb
theorem CheckedInv.clear {x : Checked} (h : CheckedInv x) (e : x = .clear t) : Inv t := by subst e; exact h
theorem CheckedInv.withdrawn {x : Checked} (h : CheckedInv x) (e : x = .withdrawn t) : Inv t := by subst e; exact h
theorem PartResInv.ok {x : PartRes} {p : StorePart} (h : PartResInv x) (e : x = .ok p t) : Inv t := by subst e; exact h
theorem PartResInv.again {x : PartRes} (h : PartResInv x) (e : x = .again t) : Inv t := by subst e; exact h
theorem MigrationStepInv.ite {c : Prop} [Decidable c] {a b : MigrationStep} (ha : MigrationStepInv a)
    (hb : MigrationStepInv b) :
    MigrationStepInv (if c then a else b) := by
  split
  · exact ha
  · exact hb
theorem MigrationStepInv.went {x : MigrationStep} (h : MigrationStepInv x) (e : x = .went t) : Inv t := by
  subst e
  exact h
theorem FrontInv.ite {c : Prop} [Decidable c] {a b : Front} (ha : FrontInv a) (hb : FrontInv b) :
    FrontInv (if c then a else b) := by
  split
  · exact ha
  · exact hb
theorem FrontInv.went {x : Front} (h : FrontInv x) (e : x = .went t) : Inv t := by subst e; exact h
theorem FrontInv.issue {x : Front} {i : Instr} (h : FrontInv x) (e : x = .issue i t) : Inv t := by subst e; exact h

/-- Memory and the package registers as they were: the invariant as it was. -/
theorem Inv.frame (h : Inv s) (hm : t.mem = s.mem := by rfl) (hr : t.regs = s.regs := by rfl) : Inv t :=
  ⟨by rw [hm]; exact h.mem, by rw [hr]; exact h.regs⟩
theorem Inv.ite {c : Prop} [Decidable c] {a b : State} (ha : Inv a) (hb : Inv b) : Inv (if c then a else b) := by
  split
  · exact ha
  · exact hb
/-- A register value that is taken only where it is in range. -/
theorem Inv.putRegs (h : Inv s) {ok : Bool} {r : PkgRegs} (hr : ok = true → r.ok = true) :
    Inv (if ok then { s with regs := r } else s) := by
  split
  · next hok => exact ⟨h.mem, hr hok⟩
  · exact h
theorem Inv.moved {c : Prop} [Decidable c] {a b : Moved} (ha : Inv a.s) (hb : Inv b.s) :
    Inv (if c then a else b).s := by
  split
  · exact ha
  · exact hb
theorem Inv.foldl {l : List α} {g : State → α → State} (h : Inv s) (hg : ∀ t x, Inv t → Inv (g t x)) :
    Inv (l.foldl g s) := by
  induction l generalizing s with
  | nil => exact h
  | cons x rest ih => exact ih (hg s x h)
theorem Inv.foldl_fst {β : Type} {l : List α} {g : State × β → α → State × β} {p : State × β} (h : Inv p.1)
    (hg : ∀ q x, Inv q.1 → Inv (g q x).1) :
    Inv (l.foldl g p).1 := by
  induction l generalizing p with
  | nil => exact h
  | cons x rest ih => exact ih (hg p x h)
theorem Inv.of_fst {p : State × α} {a : α} (h : Inv p.1) (e : p = (t, a)) : Inv t := by subst e; exact h
theorem Inv.of_snd {p : α × State} {a : α} (h : Inv p.2) (e : p = (a, t)) : Inv t := by subst e; exact h

end

section
variable {s t s0 : State} {d a : BitVec 7} {x : UnitSt} {c : Ctx} {f : Sheaf}
  {id u l n j k core ctx src seq key lane peer cause lat die region page size op rec job launch sheaf off unit reg quad
    smap mlist line : Nat}
  {g : BitVec 3} {m lanes : Mask} {b : ProductBlock} {p : Poison} {cells : List (Nat × Byte)} {keys rows : List Nat}
  {va pc addr ea mrec : DWord} {r right : Right} {e : Entry} {inPlace wide y returns last : Bool} {sh : Shape}
  {i : Instr} {o : Owner} {win : Option Nat} {space : Space} {q : SubQueue} {w : QWord} {item : List Byte}
  {value payload : Word}

/-! ### The updates of one part of the state -/

theorem Inv.setDie (h : Inv s) {d : Nat} {x : Die} : Inv (s.setDie d x) := h.frame

theorem Inv.setCore (h : Inv s) {c : Nat} {x : Core} : Inv (s.setCore c x) := h.frame

theorem Inv.updCore (h : Inv s) {c : Nat} {f : Core → Core} : Inv (s.updCore c f) := h.setCore

theorem Inv.setSheaf (h : Inv s) : Inv (s.setSheaf id f) := h.frame

theorem Inv.updSheaf (h : Inv s) {g : Sheaf → Sheaf} : Inv (s.updSheaf id g) := by
  unfold State.updSheaf
  split
  · exact h.setSheaf
  · exact h

theorem Inv.setUnit (h : Inv s) : Inv (s.setUnit u x) := h.frame

theorem Inv.updUnit (h : Inv s) {g : UnitSt → UnitSt} : Inv (s.updUnit u g) := by
  unfold State.updUnit
  split
  · exact h.setUnit
  · exact h

theorem Inv.setLaunch (h : Inv s) {x : LaunchSt} : Inv (s.setLaunch l x) := h.frame

theorem Inv.updLaunch (h : Inv s) {g : LaunchSt → LaunchSt} : Inv (s.updLaunch l g) := by
  unfold State.updLaunch
  split
  · exact h.setLaunch
  · exact h

theorem Inv.updNode (h : Inv s) {g : Node → Node} : Inv (s.updNode n g) := by
  unfold State.updNode
  split
  · exact h.frame
  · exact h

theorem Inv.updPhase (h : Inv s) {g : Phase → Phase} : Inv (s.updPhase n g) := by
  unfold State.updPhase
  split
  · exact h.frame
  · exact h

theorem Inv.updJob (h : Inv s) {g : Job → Job} : Inv (s.updJob j g) := by
  unfold State.updJob
  split
  · exact h.frame
  · exact h

theorem Inv.progress (h : Inv s) : Inv (s.progress j) := h.updJob

theorem Inv.updContext (h : Inv s) {c : Nat} {g : Context → Context} : Inv (s.updContext c g) := by
  unfold State.updContext
  split
  · exact h.frame
  · exact h

theorem Inv.take (h : Inv s) : Inv s.take.2 := h.frame

theorem Inv.setHandle (hs : Inv s) {h : Nat} {v : Handle} : Inv (s.setHandle u h v) := by
  unfold State.setHandle
  split
  · split
    · exact hs.setUnit
    · exact hs.updCore
  · exact hs

theorem Inv.setSlot (h : Inv s) {m : Nat} {v : Slot} : Inv (s.setSlot u m v) := by
  unfold State.setSlot
  split
  · split
    · exact h.setUnit
    · exact h.updCore
  · exact h

/-! ### Memory -/

theorem Inv.putByte (h : Inv s) {b : Byte} : Inv (s.putByte k b) := ⟨Memory.wf_putByte h.mem k b, h.regs⟩

theorem Inv.setPoison (h : Inv s) {p : Bool} : Inv (s.setPoison k p) := h.frame

theorem Inv.verifyLine (h : Inv s) : Inv (s.verifyLine k) :=
  Inv.ite h (.ite h.frame (h.frame.foldl fun _ _ ht => ht.setPoison))

theorem Inv.store (h : Inv s) : Inv (s.store cells) :=
  ((h.foldl fun _ _ ht => ht.verifyLine).foldl fun _ _ ht => ht.putByte).foldl fun _ _ ht => .ite ht.setPoison ht

theorem Inv.writeTables (h : Inv s) {l : List (Nat × Nat)} : Inv (s.writeTables l) :=
  h.foldl fun _ _ ht => .ite ht.store ht

theorem Inv.dropLines (h : Inv s) : Inv (s.dropLines core keys) := h.updCore

theorem Inv.invalidate (h : Inv s) {core : Option Nat} : Inv (s.invalidate core keys) := by
  unfold State.invalidate
  split
  · exact h
  · exact h.dropLines

theorem Inv.writeVa (h : Inv s) {bytes : List Byte} (e : s.writeVa ctx va bytes = .ok t) : Inv t := by
  unfold State.writeVa at e
  cases hk : s.keysVa ctx va bytes.length .write with
  | error p => rw [hk] at e; cases e
  | ok keys => rw [hk] at e; cases e; exact h.store

theorem Inv.noteUpset (h : Inv s) : Inv (s.noteUpset cells) := Inv.ite h.frame h

theorem Inv.write (h : Inv s0) : Inv (s0.write cells) := Inv.ite h.noteUpset.store.frame h.noteUpset.store

theorem Inv.healWords (h : Inv s) : Inv (s.healWords u p) := h.foldl fun _ _ ht => .ite ht.updUnit ht.frame

theorem Inv.report (h : Inv s) {r : ErrRec} : Inv (s.report r) := by
  unfold State.report
  split
  · exact h
  · split
    · exact h.updContext
    · split
      · next e => exact (h.writeVa e).updContext
      · exact h

theorem Inv.malformed (h : Inv s) {e : DWord} : Inv (s.malformed ctx va e) := h.report

theorem Inv.metMalformed (h : Inv s) : Inv (s.metMalformed ctx p) := by
  unfold State.metMalformed
  split
  · exact h
  · split
    · exact h.malformed
    · exact h

/-! ### Channels -/

theorem Inv.updChannel (h : Inv s) {d : Nat} {g : Channel → Channel} : Inv (s.updChannel d g) := h.frame

theorem Inv.sendOn (h : Inv s) {d : Nat} {m : ChanMsg} : Inv (s.sendOn d m) := h.updChannel

theorem Inv.ackOn (h : Inv s) {d : Nat} {m : ChanMsg} : OptInv (s.ackOn d m) := OptInv.ite h.updChannel.some OptInv.none

theorem Inv.unsend (h : Inv s) {d : Nat} {m : ChanMsg} : OptInv (s.unsend d m) :=
  OptInv.ite h.updChannel.some OptInv.none

theorem Inv.takenFrom (h : Inv s) : OptInv (s.takenFrom src seq) := OptInv.ite h.updChannel.some OptInv.none

/-! ### What words and events share -/

theorem Inv.charge (h : Inv s) {b : Budget} : Inv (s.charge ctx b n) := h.updContext

theorem Inv.refund (h : Inv s) {b : Budget} : Inv (s.refund ctx b n) := h.updContext

theorem Inv.chargeKey (h : Inv s) {sent : Bool} : Inv (s.chargeKey ctx key sent n) :=
  Inv.ite h.charge (.ite h.charge h)

theorem Inv.l2Keep (h : Inv s) {d cp : Nat} : Inv (s.l2Keep d key cp) := h.setDie

theorem Inv.l2Only (h : Inv s) : Inv (s.l2Only key) := h.foldl fun _ _ ht => .ite ht ht.setDie

theorem Inv.laneAccess (h : Inv s) {write : Bool} {cp : Nat} : Inv (s.laneAccess core ctx key write cp n) := by
  unfold State.laneAccess
  extract_lets hit s1 s2
  have h1 : Inv s1 := .ite h h.charge
  have h2 : Inv s2 := .ite h1 h1.l2Keep.l2Keep
  exact .ite (.ite h.charge h) (.ite (.ite h h.l2Keep) (.ite h2.l2Only h2))

theorem Inv.storeFailed (h : Inv s) {bytes : Nat} : Inv (s.storeFailed id f lane pc addr bytes peer cause) :=
  h.frame.frame

theorem Inv.sendRequest (h : Inv s) : Inv s.sendRequest := h.frame

theorem Inv.performAt (h : Inv s) {e : StoreEntry} {p : StorePart} : Inv (s.performAt id f e p va keys) := by
  unfold State.performAt
  dsimp only
  split
  · exact h.storeFailed
  · exact (Inv.ite h.sendRequest h).write.dropLines.laneAccess

theorem Inv.performPart (h : Inv s) {e : StoreEntry} {p : StorePart} : Inv (s.performPart id e p) := by
  unfold State.performPart
  split
  · exact h
  · split
    · exact h.updUnit
    · split
      · exact h
      · exact h.performAt

theorem Inv.performPush (h : Inv s) {e : StoreEntry} {r : StreamReg} {p : StorePart} :
    Inv (s.performPush id e r k p) := by
  unfold State.performPush
  split
  · exact Inv.ite h.updUnit h.performAt
  · exact h

theorem Inv.performEntry (h : Inv s) {e : StoreEntry} : Inv (s.performEntry id m e) := by
  unfold State.performEntry
  dsimp only
  refine Inv.updSheaf ?_
  split
  · exact h.foldl fun _ _ ht => ht.performPart
  · exact (h.foldl fun _ _ ht => ht.performPush).updSheaf

theorem Inv.commit (h : Inv s) : Inv (s.commit id m) := by
  unfold State.commit
  split
  · exact h
  · exact (h.foldl fun _ _ ht => ht.performEntry).updSheaf

theorem Inv.rollback (h : Inv s) : Inv (s.rollback id m) := by
  unfold State.rollback
  split
  · exact h
  · exact h.setSheaf

theorem Inv.replay (h : Inv s) {stepped : Bool} : Inv (s.replay id m stepped) := h.rollback.updSheaf

theorem Inv.beginService (h : Inv s) : Inv (s.beginService id m p inPlace) := h.updSheaf

theorem Inv.dropImages (h : Inv s) {us : List Nat} : Inv (s.dropImages us) := h.frame

theorem Inv.endJob (h : Inv s) : Inv (s.endJob j cause) := by
  unfold State.endJob
  split
  · exact h
  · exact Inv.ite h h.frame.dropImages

theorem Inv.fatalTrap (h : Inv s) {t : TrapRec} {inHandler : Bool} : Inv (s.fatalTrap id f t inHandler) :=
  h.updSheaf.report.endJob

theorem Inv.enterTrap (h : Inv s) {t : TrapRec} : Inv (s.enterTrap id t) := by
  unfold State.enterTrap
  split
  · exact h
  · exact Inv.ite h.fatalTrap h.commit.frame.updSheaf

theorem Inv.tryTrap (h : Inv s) : Inv (s.tryTrap id) := by
  unfold State.tryTrap
  split
  · exact h
  · split
    · exact h
    · split
      · exact h
      · split
        · exact h.setSheaf.beginService
        · exact Inv.ite h h.enterTrap

theorem Inv.raiseTrap (h : Inv s) {t : TrapRec} : Inv (s.raiseTrap id t) := by
  unfold State.raiseTrap
  split
  · exact h
  · exact Inv.ite h.fatalTrap h.setSheaf.tryTrap

/-! ### Issue -/

theorem Inv.committedBy (h : Inv s) : Inv (s.committedBy c sh) := Inv.ite h.commit h

theorem Inv.counted (h : Inv s) : Inv s.counted := h.frame

theorem Inv.advance (h : Inv s) : Inv (s.advance c sh) := h.committedBy.updSheaf.counted.progress

theorem Inv.conclude (h : Inv s) : Inv (s.conclude i c sh) := h.frame.updSheaf

theorem Inv.trapWord (h : Inv s0) (hs : Inv s) {t : TrapRec} : Inv (s0.trapWord s c t) := by
  unfold State.trapWord
  split
  · exact h
  · exact Inv.ite h.updSheaf hs.raiseTrap

theorem Inv.passInactive (h : Inv s) : Inv (s.passInactive c) := h.updSheaf

theorem Inv.emulWord (h : Inv s) : Inv (s.emulWord c) := h.trapWord h.passInactive

theorem Inv.consume (h : Inv s) : Inv (s.consume c p) := h.updSheaf.beginService

theorem Inv.issueWord (h : Inv s) {eff : Ctx → State → Eff} (he : ∀ c t, Inv t → EffInv (eff c t)) :
    OutInv (issueWord i s eff) := by
  unfold Machine.issueWord
  split
  · exact OutInv.fault
  · exact h.next
  · next c _ =>
      dsimp only
      refine Inv.next ?_
      split
      · exact h.beginService
      · split
        · exact h
        · split
          · exact h.advance.conclude
          · split
            · exact h.emulWord
            · split
              · exact h.consume
              · split
                · next e => exact ((he _ _ h.advance).done e).conclude
                · exact h.emulWord
                · next e => exact h.trapWord ((he _ _ h.advance).trap e).updSheaf.conclude
                · next e => exact (he _ _ h.advance).hold e
                · exact h.consume

theorem Inv.issueHint (h : Inv s) {take : LaneSt → Option LaneSt} : OutInv (issueHint i s take) := by
  unfold Machine.issueHint
  split
  · exact OutInv.fault
  · exact h.next
  · exact OutInv.ite h.emulWord.next h.updSheaf.progress.next

theorem Inv.result (h : Inv s) {g : Nat → Word} : Inv (s.result c lat d g) := h.updSheaf

theorem Inv.result64 (h : Inv s) {g : Nat → DWord} : Inv (s.result64 c lat d g) := h.updSheaf

theorem Inv.resultPred (h : Inv s) {p : BitVec 3} {g : Nat → Bool} : Inv (s.resultPred c lat p g) := h.updSheaf

theorem Inv.lane32 (h : Inv s) {g : Ctx → Nat → Word} : OutInv (lane32 i s lat d g) :=
  h.issueWord (fun _ _ ht => ht.result)

theorem Inv.lane64 (h : Inv s) {g : Ctx → Nat → DWord} : OutInv (lane64 i s lat d g) :=
  h.issueWord (fun _ _ ht => ht.result64)

theorem Inv.laneForm (hs : Inv s) {wide : Nat → Bool} {g : Ctx → Nat → Word} {h : Ctx → Nat → DWord} :
    OutInv (laneForm i s lat d wide g h) :=
  hs.issueWord (fun _ _ ht => Inv.ite ht.result64 ht.result)

/-! ### Lane words -/

theorem Inv.fpWord (h : Inv s) {b : BitVec 7} {terms : Fmt → Nat → Nat → Nat → List Ex} :
    OutInv (fpWord i s d a b terms) :=
  h.lane32

theorem Inv.sfuWord (h : Inv s) {g : Word → Word → Nat} : OutInv (sfuWord i s d a g) := h.lane32

theorem Inv.icmpWord (h : Inv s) {p : BitVec 3} {cond : BitVec 4} {y32 : Ctx → Nat → Word} {y64 : Ctx → Nat → DWord} :
    OutInv (icmpWord i s p cond a y32 y64) :=
  h.issueWord (fun _ _ ht => ht.resultPred)

theorem Inv.execShi {k : BitVec 2} {n : BitVec 5} (h : Inv s) : OutInv (execShi y g d a k n s) := by
  unfold Machine.execShi
  refine h.issueWord (fun _ _ ht => ?_)
  split
  · exact ht.result
  · exact EffInv.ite trivial ht.result

/-! ### Control -/

theorem Inv.branch (h : Inv s) {target : Nat → DWord} : Inv (s.branch c m target) := h.updSheaf

theorem Inv.holdLanes (hs : Inv s) {h : Hold} : Inv (s.holdLanes c m h) := hs.updSheaf

theorem Inv.releaseLanes (h : Inv s) {newRegion : Bool} : Inv (s.releaseLanes id m newRegion) := h.frame.updSheaf

theorem Inv.execRdx (h : Inv s) : OutInv (execRdx y g d a s) := by
  unfold Machine.execRdx
  refine h.issueWord (fun _ _ ht => ?_)
  split
  · exact trivial
  · split
    · exact trivial
    · exact ht.result

theorem Inv.execWrx {b : BitVec 7} (h : Inv s) : OutInv (execWrx y g a b s) :=
  h.issueWord (fun _ _ ht => .ite trivial (ht.foldl fun _ _ hu => hu.updSheaf))

theorem Inv.execMovsRd {sel : BitVec 7} (h : Inv s) : OutInv (execMovsRd y g d sel s) := by
  unfold Machine.execMovsRd
  refine h.issueWord (fun _ _ ht => ?_)
  split
  · exact trivial
  · split
    · exact trivial
    · exact ht.result

theorem Inv.execMovsWr {sel : BitVec 7} (h : Inv s) : OutInv (execMovsWr y g sel a s) := by
  unfold Machine.execMovsWr
  refine h.issueWord (fun _ _ ht => ?_)
  split
  · exact ht
  · split
    · exact trivial
    · exact ht.setSheaf

theorem Inv.execLoop {n : BitVec 2} {i : BitVec 7} (h : Inv s) : OutInv (execLoop y n a i s) :=
  h.issueWord (fun _ _ ht => .ite trivial (Inv.ite ht.updSheaf.branch ht.updSheaf))

theorem Inv.residence (h : Inv s) {first : Option DWord} {endl : DWord} : Inv (s.residence id f first endl) := by
  unfold State.residence
  split
  · exact h
  · exact h.updCore

theorem Inv.execEndl {n : BitVec 2} {i : BitVec 7} (h : Inv s) : OutInv (execEndl y n i s) :=
  h.issueWord fun _ _ ht =>
    .ite trivial (.ite ht.residence (.ite ht.updSheaf.residence ht.updSheaf.branch.residence))

/-! ### Tensors -/

theorem Inv.sideWrite (h : Inv s) {d : Side} {cells : List (DWord × Byte)} : Inv (s.sideWrite d cells) := by
  unfold State.sideWrite
  dsimp only
  split
  · exact h.write.invalidate
  · exact h.updUnit
  · exact h.setSlot

theorem Inv.sideSpoil (h : Inv s) {d : Side} {addrs : List DWord} : Inv (s.sideSpoil d addrs) := by
  unfold State.sideSpoil
  dsimp only
  split
  · exact (h.foldl fun _ _ ht => ht.setPoison).invalidate
  · exact h.updUnit
  · exact h.setSlot

theorem Inv.putOutput (h : Inv s) {d : Side} {o : Output} : Inv (s.putOutput d o) := Inv.ite h h.sideWrite.sideSpoil

/-! ### The race detector -/

theorem Inv.dropRecords (h : Inv s) {p : AccessRec → Bool} : Inv (s.dropRecords p) := h.frame

theorem Inv.forceClose (h : Inv s) {r : AccessRec} : Inv (s.forceClose r) := by
  unfold State.forceClose
  split
  · exact h
  · exact h.frame.rollback.updSheaf.dropRecords

theorem Inv.recordAt (h : Inv s) {me : AccessRec} {write : Bool} : Inv (s.recordAt win die key me write) := h.frame

theorem Inv.detectAll (h : Inv s) {me : AccessRec} {write : Bool} :
    DetectedInv (s.detectAll core win me write keys) := by
  induction keys generalizing s with
  | nil => exact h
  | cons key rest ih =>
    unfold State.detectAll
    have hc (l : List AccessRec) :
        Inv (l.foldl (fun (acc : State) r => if acc.regionOpen r then acc.forceClose r else acc) s) :=
      h.foldl fun _ _ ht => .ite ht.forceClose ht
    split
    · exact trivial
    · dsimp only
      split
      · exact trivial
      · split
        · exact hc _
        · exact ih (hc _).recordAt

theorem Inv.detect (h : Inv s) {watched : Bool} {addrs : List Nat} {write sync : Bool} :
    DetectedInv (s.detect id lane region watched win addrs write sync) := by
  unfold State.detect
  split
  · exact h
  · split
    · exact h
    · exact h.frame.detectAll

theorem Inv.forgetLanes (h : Inv s) : Inv (s.forgetLanes id m) := h.dropRecords

theorem Inv.raceRecord (h : Inv s) {r : Option AccessRec} : Inv (s.raceRecord id pc addr m r) := by
  unfold State.raceRecord
  split
  · exact h
  · exact h.report

/-! ### Lane accesses -/

theorem Inv.tlbTouch (h : Inv s) : Inv (s.tlbTouch core ctx page) := by
  unfold State.tlbTouch
  dsimp only
  split
  · exact h
  · split
    · exact h
    · exact h.frame

theorem Inv.addMiss (h : Inv s) : Inv (s.addMiss die ctx page) := Inv.ite h h.frame

theorem Inv.locate (h : Inv s) : LocInv (s.locate f space lane ea size r inPlace) := by
  unfold State.locate
  dsimp only
  split
  · exact h
  · split
    · exact trivial
    · split
      · split
        · exact LocInv.ite trivial trivial
        · exact trivial
      · exact trivial
      · split
        · exact trivial
        · exact h.tlbTouch

theorem Inv.accWrite (h : Inv s) {a : Acc} {bytes : List Byte} : Inv (s.accWrite u core a bytes) :=
  Inv.ite h.updUnit h.write.dropLines

theorem Inv.dropCache (h : Inv s) : Inv (s.dropCache core) := h.updCore

theorem Inv.acquireAt (h : Inv s) : Inv (s.acquireAt id) := by
  unfold State.acquireAt
  split
  · exact h.dropCache
  · exact h

theorem Inv.readHome (h : Inv s) {a : Acc} {acquire : Bool} : Inv (s.readHome core u a acquire).2 := by
  unfold State.readHome
  split
  · exact h
  · dsimp only
    split
    · split
      · exact h.frame
      · dsimp only
        exact Inv.updCore h.frame
    · dsimp only
      exact h.updCore

theorem Inv.loadLane (h : Inv s) {o : Outstanding} {opNo : Nat} {checked : Bool} :
    GotInv (s.loadLane id o opNo inPlace checked) := by
  unfold State.loadLane
  split
  · exact h
  · dsimp only
    split
    · exact h.addMiss
    · exact h
    · next e =>
        have hl := h.locate.here e
        split
        · exact h
        · split
          · exact hl
          · split
            · exact hl
            · next e' => exact hl.detect.withdrawn e'
            · next e' =>
                have hd := hl.detect.clear e'
                refine .ite (Inv.readHome ?_)
                  (Inv.laneAccess (.ite (Inv.sendRequest (Inv.readHome ?_)) (Inv.readHome ?_)))
                all_goals exact .ite hd.dropCache hd

theorem Inv.land (h : Inv s) {o : Outstanding} {r : Except Poison (List Word)} : Inv (s.land id o r) := h.updSheaf

theorem Inv.checkAccess (h : Inv s) {u : UnitSt} {write sync : Bool} :
    CheckedInv (s.checkAccess id u space lane ea size r region write sync) := by
  unfold State.checkAccess
  split
  · split
    · next e =>
        split
        · exact h
        · split
          · next e' => exact (h.locate.here e).detect.clear e'
          · next e' => exact (h.locate.here e).detect.withdrawn e'
          · exact trivial
    · exact h
  · exact h

theorem Inv.checkLanes (h : Inv s) {check : State → Nat → Checked} {lanes : List Nat} {got : Races}
    (hc : ∀ t l, Inv t → CheckedInv (check t l)) :
    Inv (Machine.checkLanes check s lanes got).1 := by
  induction lanes generalizing s got with
  | nil => exact h
  | cons l rest ih =>
    unfold Machine.checkLanes
    split
    · next e => exact ih ((hc s l h).clear e)
    · exact ih h
    · next e => exact (hc s l h).withdrawn e

theorem Inv.afterLanes (h : Inv s) {faults races : Failed} {race : Option AccessRec} {kind : Nat}
    {refused : List (Nat × Nat × DWord)} :
    EffInv (s.afterLanes c faults races race kind refused) := by
  unfold State.afterLanes
  dsimp only
  split
  · change Inv _
    split
    · exact h.raceRecord
    · exact h
  · change Inv _
    split
    · split
      · exact h.raceRecord
      · exact h
    · refine Inv.updSheaf ?_
      split
      · exact h.raceRecord
      · exact h

theorem Inv.holdForService (h : Inv s) {met : List (Nat × Poison)} : Inv (s.holdForService c met) := by
  unfold State.holdForService
  split
  · exact h
  · exact h.updSheaf

theorem Inv.askPages (h : Inv s) {ea : Nat → DWord} : OptInv (s.askPages c space size ea r) := by
  unfold State.askPages
  split
  · exact OptInv.none
  · exact OptInv.ite OptInv.none ((h.foldl fun _ _ ht => ht.addMiss.updSheaf).some)

theorem Inv.ctxServe (h : Inv s) (ht : Inv t) : EffInv (c.serve s t p) := by
  unfold Ctx.serve
  split
  · exact ht
  · exact h.holdForService

theorem Inv.block (h : Inv s) (ht : Inv t) {u : UnitSt} {w align : Nat} {x : Eff}
    (e : c.block s t u w align size = .some x) :
    EffInv x := by
  unfold Ctx.block at e
  split at e
  · cases e
    exact ht
  · split at e
    · cases e
      exact h.ctxServe ht
    · cases e

/-! ### Loads, stores and atomics -/

theorem Inv.loadIssue (h : Inv s) {part : Nat → Outstanding} : Inv (s.loadIssue c part) := by
  unfold State.loadIssue
  refine h.foldl (fun _ _ ht => ?_)
  dsimp only
  split
  · exact ht.land
  · exact ht.updSheaf

theorem Inv.loadStepped (h : Inv s0) {part : Nat → Outstanding} : EffInv (s0.loadStepped c sh part) := by
  unfold State.loadStepped
  extract_lets check any step1
  have hc {got : Races} : Inv (Machine.checkLanes check s0 c.actLanes got).1 :=
    h.checkLanes fun _ _ ht => ht.checkAccess
  have hstep (q : State × List (Nat × Step1)) (l : Nat) (hq : Inv q.1) : Inv (step1 q l).1 := by
    unfold step1
    dsimp only
    split
    · exact hq
    · exact hq
    · split
      · next e => exact hq.loadLane.bytes e
      · next e => exact hq.loadLane.wait e
      · next e => exact hq.loadLane.bad e
  split
  · next e => exact h.askPages e
  · split
    · next e => exact hc.of_fst e
    · next e =>
        extract_lets clean
        split
        next e' =>
        have ht := Inv.of_fst (Inv.foldl_fst (p := (_, _)) (Inv.advance (hc.of_fst e)) hstep) e'
        refine .ite h.holdForService (.ite h ?_)
        refine Inv.afterLanes (Inv.updSheaf (Inv.foldl ht fun _ _ hu => ?_))
        split
        · exact hu.land
        · exact hu.updSheaf

theorem Inv.loadWord (h : Inv s) {part : Ctx → Nat → Outstanding} : OutInv (loadWord i s part) :=
  h.issueWord (fun _ _ ht => .ite h.loadStepped ht.loadIssue)

theorem Inv.makeRoom (h : Inv s) : Inv (s.makeRoom c n) := by
  induction n generalizing s with
  | zero => exact h
  | succ n ih =>
    unfold State.makeRoom
    split
    · exact h
    · split
      · exact h
      · dsimp only
        split
        · exact h
        · exact ih h.rollback

theorem Inv.enqueue (h : Inv s) {e : StoreEntry} : Inv (s.enqueue c e) := h.updSheaf

theorem Inv.translatePart (h : Inv s) {p : StorePart} : PartResInv (s.translatePart id space p) := by
  unfold State.translatePart
  split
  · exact h
  · split
    · exact trivial
    · exact h
    · next e =>
        split
        · next e' => exact (h.locate.here e).detect.clear e'
        · next e' => exact (h.locate.here e).detect.withdrawn e'
        · exact h.locate.here e

theorem Inv.translateChecked (h : Inv s) {p : StorePart} : PartResInv (s.translateChecked id space p) := by
  unfold State.translateChecked
  split
  · exact h
  · split
    · exact trivial
    · exact h
    · next e => exact h.locate.here e

theorem Inv.stepStore (h : Inv s) (hs0 : Inv s0) {entry : List StorePart → StoreEntry} {done : List StorePart}
    {races : Races} :
    EffInv (s.stepStore s0 c entry done races) := by
  unfold State.stepStore
  dsimp only
  split
  · exact hs0.holdForService
  · exact h.enqueue.afterLanes

theorem Inv.translateAll (h : Inv t) {tr : State → StorePart → PartRes} {parts : List StorePart}
    (htr : ∀ u p, Inv u → PartResInv (tr u p)) :
    Inv (Machine.translateAll tr t parts).1 := by
  unfold Machine.translateAll
  refine Inv.foldl_fst h fun q p hq => ?_
  split
  · exact hq
  · split
    · next e => exact (htr _ _ hq).ok e
    · exact hq
    · next e => exact (htr _ _ hq).again e

theorem Inv.storeWord (h : Inv s) {m : BitVec 3} {bytes : Ctx → Nat → List Byte} :
    OutInv (storeWord i s m a bytes) := by
  unfold Machine.storeWord
  refine h.issueWord fun c _ ht => ?_
  have hm : Inv (s.makeRoom c 64) := h.makeRoom
  dsimp only
  split
  · exact ht.makeRoom
  · refine .ite hm (.ite ht.makeRoom.enqueue ?_)
    split
    · next e => exact hm.askPages e
    · split
      · next e => exact (hm.checkLanes fun _ _ hu => hu.checkAccess).of_fst e
      · next e =>
          have h1 := (hm.checkLanes fun _ _ hu => hu.checkAccess).of_fst e
          exact (h1.advance.translateAll fun _ _ hu => hu.translateChecked).stepStore h

theorem Inv.prefetch (h : Inv s) : Inv (s.prefetch c ea) := by
  unfold State.prefetch
  split
  · exact Inv.ite h h.charge.l2Keep
  · exact h

theorem Inv.checkElem (h : Inv s) {q : StreamReg} {write : Bool} :
    CheckedInv (s.checkElem id lane region q k write) := by
  unfold State.checkElem
  split
  · exact h
  · split
    · exact h
    · split
      · exact h
      · split
        · next e => exact h.detect.clear e
        · next e => exact h.detect.withdrawn e
        · exact trivial

theorem Inv.popStepped (h : Inv s0) {q : StreamReg} {part : Nat → Nat → Outstanding} :
    EffInv (s0.popStepped c sh n q part) := by
  unfold State.popStepped
  extract_lets again pops got asked elemOf check faults
  have hc : Inv (Machine.checkLanes check s0 c.actLanes []).1 := h.checkLanes fun t l ht => by
    unfold check
    split
    · exact .ite ht ht.checkElem
    · exact ht
  split
  · exact h.holdForService
  · split
    · next e => exact hc.of_fst e
    · next e =>
        refine Inv.afterLanes (Inv.foldl (Inv.updSheaf (Inv.updSheaf (Inv.advance (hc.of_fst e)))) fun _ _ ht => ?_)
        split
        · exact .ite ht ht.land
        · exact ht

theorem Inv.execQrd {n : BitVec 3} {f : BitVec 4} (h : Inv s) : OutInv (execQrd y g d n f s) := by
  unfold Machine.execQrd
  refine h.issueWord (fun _ _ ht => ?_)
  split
  · exact ht
  · dsimp only
    split
    · exact trivial
    · split
      · exact h.popStepped
      · change Inv _
        refine ht.updSheaf.foldl (fun _ _ hu => ?_)
        split
        · exact hu.updSheaf
        · exact hu.land

theorem Inv.translatePush (h : Inv s) {q : StreamReg} {p : StorePart} {checked : Bool} :
    PartResInv (s.translatePush id q k p checked) := by
  unfold State.translatePush
  split
  · exact h
  · split
    · exact h
    · split
      · next e => exact h.detect.clear e
      · next e => exact h.detect.withdrawn e
      · exact h

theorem Inv.execQwr {n : BitVec 3} {f : BitVec 4} (h : Inv s) : OutInv (execQwr y g d n f s) := by
  unfold Machine.execQwr
  refine h.issueWord fun c _ ht => ?_
  have hm : Inv (s.makeRoom c 64) := h.makeRoom
  dsimp only
  split
  · exact ht.makeRoom
  · refine .ite trivial (.ite hm (.ite ht.makeRoom.enqueue ?_))
    split
    · next e => exact (hm.checkLanes fun _ _ hu => hu.checkElem).of_fst e
    · next e =>
        have h1 := (hm.checkLanes fun _ _ hu => hu.checkElem).of_fst e
        exact (h1.advance.translateAll fun _ _ hu => hu.translatePush).stepStore h

theorem Inv.execSbind {n : BitVec 3} (h : Inv s) : OutInv (execSbind y g n a s) := by
  unfold Machine.execSbind
  refine h.issueWord (fun _ _ ht => ?_)
  dsimp only
  split
  · next e => exact h.block ht e
  · exact EffInv.ite trivial ht.updSheaf

theorem Inv.atomLane (h : Inv s) {new : Nat → Nat} : Inv (s.atomLane c space op wide ea l right new).1 := by
  unfold State.atomLane
  extract_lets size
  split
  · exact h
  · split
    · exact h
    · split
      · exact h
      · exact h
      · next a s1 e =>
          have hl := h.locate.here e
          have hv : Inv (if a.win then s1 else a.keys.foldl State.verifyLine s1) :=
            .ite hl (hl.foldl fun _ _ ht => ht.verifyLine)
          extract_lets key va s2 old s3 peer s4
          have hv : Inv s2 := hv
          have h4 : Inv s4 := .ite hv.accWrite.sendRequest hv.accWrite
          clear_value s4 s2
          split
          · exact hl
          · split
            · exact hl
            · split
              · exact h
              · split
                · exact hv
                · exact .ite h4 h4.laneAccess

theorem Inv.atomLanes (h : Inv s) {s0 : State} {m : BitVec 3} {new : Nat → Nat → Nat} {lanes : List Nat} :
    Inv (s.atomLanes s0 c space op wide m a right new lanes).1 := by
  unfold State.atomLanes
  refine Inv.foldl_fst h fun q l hq => ?_
  split
  · exact hq
  · exact hq.atomLane

theorem Inv.atomReturn (h : Inv s) {m : BitVec 3} {x : Nat × AtomRes} :
    Inv (s.atomReturn c space wide returns m d a x) := by
  unfold State.atomReturn
  split
  · split
    · dsimp only
      refine Inv.updSheaf ?_
      split
      · exact h.frame
      · exact h
    · exact h.updSheaf
  · exact h.updSheaf

theorem Inv.atomEff (h : Inv s0) {m : BitVec 3} {new : Nat → Nat → Nat} :
    EffInv (s0.atomEff c sh op wide m d a right returns new) := by
  unfold State.atomEff
  extract_lets sp' check
  have hc {got : Races} : Inv (Machine.checkLanes check s0 c.actLanes got).1 :=
    h.checkLanes fun _ _ ht => .ite ht ht.checkAccess
  split
  · next e => exact h.askPages e
  · split
    · next e => exact hc.of_fst e
    · next e =>
        extract_lets clean
        split
        next e' =>
        have ht := Inv.of_fst (hc.of_fst e).advance.atomLanes e'
        refine .ite h.holdForService (.ite h ?_)
        extract_lets faults refused refMask t3 t4
        have h3 : Inv t3 := ht.updSheaf.foldl fun _ _ hu => hu.atomReturn
        have h4 : Inv t4 := .ite h3.dropCache h3
        clear_value refused
        split
        · exact .ite h4.afterLanes h4.report.afterLanes
        · exact h4.afterLanes

theorem Inv.atomWord (h : Inv s) {m : BitVec 3} {new : Ctx → Nat → Nat → Nat} :
    OutInv (atomWord i s op wide m d a right returns new) :=
  h.issueWord fun _ _ _ => h.atomEff

/-! ### Entries of the queues -/

theorem Inv.updEntry (h : Inv s) {g : Entry → Entry} : Inv (s.updEntry id g) := h.frame

theorem Inv.dropEntry (h : Inv s) : Inv (s.dropEntry id) := h.frame

theorem Inv.addEntry (h : Inv s) : Inv (s.addEntry e) := h.frame.frame

theorem Inv.push (h : Inv s) {q : QName} {w : Work} {dst : BitVec 7} : Inv (s.push c q w dst) := h.addEntry

theorem Inv.flagDown (h : Inv s) : Inv (s.flagDown o) := h.updSheaf

theorem Inv.performed (h : Inv s) : Inv (s.performed e) := h.flagDown.dropEntry.progress

theorem Inv.deliver (h : Inv s) {words : List (Nat × List Word)} : Inv (s.deliver o words) := h.updSheaf

theorem Inv.deliverAll (h : Inv s) {ws : List Word} : Inv (s.deliverAll o ws) := h.deliver

theorem Inv.freeCycles (h : Inv s) : Inv s.freeCycles.2 := h.frame

theorem Inv.later (h : Inv s) {cycles : Nat} {words : List (Nat × List Word)} : Inv (s.later c cycles d words) :=
  h.updSheaf

theorem Inv.updHandle (hs : Inv s) {h : Nat} {g : Handle → Handle} : Inv (s.updHandle u h g) := hs.setHandle

theorem Inv.reportEntry (hs : Inv s) {h : Nat} : Inv (s.reportEntry o h cause addr) := by
  unfold State.reportEntry
  dsimp only
  refine Inv.report ?_
  split
  · exact hs.malformed
  · exact hs

theorem Inv.lowerOpen (h : Inv s) {parity : Nat} : OptInv (s.lowerOpen ctx mrec parity) := by
  unfold State.lowerOpen
  dsimp only
  split
  · exact OptInv.none
  · split
    · next e => exact (h.writeVa e).some
    · exact OptInv.none

theorem Inv.closeProduct (h : Inv s) {parity : Nat} : Inv (s.closeProduct ctx mrec parity) := by
  unfold State.closeProduct
  split
  · next e => exact h.lowerOpen e
  · exact h.frame

/-! ### The matrix unit -/

theorem Inv.freeSlot (h : Inv s) {m : Nat} : Inv (s.freeSlot u m) := Inv.ite h.setSlot.updHandle h

theorem Inv.undescribe (h : Inv s) {m : Nat} : Inv (s.undescribe u m) := Inv.ite h.setSlot h

theorem Inv.execMclaim {n k : BitVec 5} (h : Inv s) : OutInv (execMclaim y g d n k s) :=
  h.issueWord (fun _ _ ht => (Inv.ite (ht.foldl fun _ _ hu => hu.setSlot) ht).later)

theorem Inv.execMrel {n k : BitVec 5} (h : Inv s) : OutInv (execMrel y g n k s) :=
  h.issueWord (fun _ _ ht => (ht.foldl fun _ _ hu => hu.undescribe).push)

theorem Inv.execMbind {h : BitVec 7} {n : BitVec 5} (hs : Inv s) : OutInv (execMbind y g h a n s) := by
  unfold Machine.execMbind
  refine hs.issueWord (fun _ _ ht => ?_)
  dsimp only
  split
  · next e => exact hs.block ht e
  · split
    · exact trivial
    · exact EffInv.ite trivial ht.setSlot.push

theorem Inv.millWord (h : Inv s) : OutInv (millWord i s) := by
  unfold Machine.millWord
  refine h.issueWord (fun _ _ ht => ?_)
  split
  · exact trivial
  · exact ht.push

theorem Inv.amovEnd (h : Inv s) {bad : Failed} : EffInv (s.amovEnd c bad) := h.afterLanes (race := none)

theorem Inv.ownTile (h : Inv s) {tile : Nat} : Inv (s.ownTile core tile u) := by
  unfold State.ownTile
  exact h.updCore

theorem Inv.execAmovRd {f : BitVec 4} (h : Inv s) : OutInv (execAmovRd y g d a f s) :=
  h.issueWord (fun _ _ ht => (Inv.ite ht.updSheaf ht.updSheaf.updSheaf).amovEnd)

theorem Inv.execAmovWr (h : Inv s) : OutInv (execAmovWr y g d a s) :=
  h.issueWord (fun _ _ ht => (ht.foldl fun _ _ hu => .ite hu hu.updCore.ownTile).amovEnd)

theorem Inv.execAcvt {sc : Bool} {t : BitVec 5} (h : Inv s) : OutInv (execAcvt y g d a sc t s) := by
  unfold Machine.execAcvt
  refine h.issueWord (fun _ _ ht => ?_)
  dsimp only
  split
  · exact trivial
  · split
    · exact ht
    · exact ht.push

theorem Inv.acvt (h : Inv s) {m : MillWork} : Inv (s.acvt u core m) := h.updUnit

theorem Inv.millEffect (h : Inv s) {m : MillWork} : Inv (s.millEffect u core m) := by
  unfold State.millEffect
  split
  · exact h.updCore.foldl fun _ _ ht => ht.ownTile
  · exact h.acvt
  · exact (Inv.ite h.updCore h.updCore).ownTile

theorem Inv.start (h : Inv s) {w : Work} {due : Nat} : Inv (s.start e w due) := h.updEntry.progress

theorem Inv.execMbindStart (h : Inv s) : OutInv (execMbindStart id s) := by
  unfold Machine.execMbindStart
  refine Inv.next ?_
  split
  · exact h
  · split
    · have hm {c : Prop} [Decidable c] {u k : Nat} {v : Handle} : Inv (if c then s.setHandle u k v else s) :=
        .ite h.setHandle h
      exact .ite h (.ite hm.setSlot.updHandle.performed hm.setSlot.updHandle.start)
    · exact h

theorem Inv.execMrelStart (h : Inv s) : OutInv (execMrelStart id s) := by
  unfold Machine.execMrelStart
  refine Inv.next ?_
  split
  · exact h
  · split
    · exact Inv.ite h ((h.foldl fun _ _ ht => ht.freeSlot).performed)
    · exact h

theorem Inv.execMillOpStart (h : Inv s) : OutInv (execMillOpStart id s) := by
  unfold Machine.execMillOpStart
  refine Inv.next ?_
  split
  · exact h
  · split
    · exact Inv.ite h h.start.updCore.charge
    · exact h

theorem Inv.stepMills (h : Inv s) : Inv s.stepMills := by
  unfold State.stepMills
  refine h.foldl (fun _ _ ht => ?_)
  split
  · exact Inv.ite ht.updCore ht
  · exact ht

theorem Inv.execMillOpRetire (h : Inv s) : OutInv (execMillOpRetire id s) := by
  unfold Machine.execMillOpRetire
  refine Inv.next ?_
  split
  · exact h
  · split
    · exact Inv.ite h h.millEffect.updCore.performed
    · exact h

/-! ### Copies, gathers and rings -/

theorem Inv.describeSlot (hs : Inv s) {r : Layout} {h : Nat} : OptInv (s.describeSlot u r h) :=
  OptInv.ite hs.setSlot.some OptInv.none

theorem Inv.followOn (h : Inv s) {b : CopyBlock} : OptInv (s.followOn c b) := by
  unfold State.followOn
  split
  · exact OptInv.none
  · dsimp only
    split
    · exact OptInv.none
    · split
      · exact OptInv.none
      · exact h.frame.updSheaf.addEntry.some

theorem Inv.execCopy {h : BitVec 7} {q : BitVec 3} {m : Bool} {r : BitVec 3} (hs : Inv s) :
    OutInv (execCopy y g h a q m r s) := by
  unfold Machine.execCopy
  refine hs.issueWord (fun _ _ ht => ?_)
  dsimp only
  split
  · next e => exact hs.block ht e
  · split
    · exact trivial
    · refine .ite trivial ?_
      split
      · exact trivial
      · exact ht
      · exact hs.ctxServe ht
      · split
        · exact trivial
        · next e =>
            have hd := OptInv.of_eq e (.ite (OptInv.bind fun _ => ht.describeSlot) ht.some)
            refine .ite hd.push (.ite hs ?_)
            split
            · next e' => exact hd.push.followOn e'
            · exact trivial

theorem Inv.execGather {h : BitVec 7} (hs : Inv s) : OutInv (execGather y g h a s) := by
  unfold Machine.execGather
  refine hs.issueWord (fun _ _ ht => ?_)
  dsimp only
  split
  · next e => exact hs.block ht e
  · refine .ite trivial ?_
    split
    · exact ht
    · exact ht
    · exact hs.ctxServe ht
    · exact hs.ctxServe ht
    · refine .ite trivial ?_
      split
      · exact trivial
      · next e => exact (OptInv.of_eq e (.ite ht.describeSlot ht.some)).push
    · exact trivial

theorem Inv.execStream (h : Inv s) : OutInv (execStream y g a s) := by
  unfold Machine.execStream
  refine h.issueWord (fun _ _ ht => ?_)
  dsimp only
  split
  · next e => exact h.block ht e
  · split
    · exact trivial
    · split
      · exact ht
      · exact h.ctxServe ht
      · exact ht.push
      · exact trivial

theorem Inv.execStreamPost {h : BitVec 7} (hs : Inv s) : OutInv (execStreamPost y g h s) := by
  unfold Machine.execStreamPost
  refine hs.issueWord (fun _ _ ht => ?_)
  split
  · exact trivial
  · exact EffInv.ite ht (.ite ht ht.updHandle.updEntry)

theorem Inv.hwaitWord {h : Nat} {full : Bool} (hs : Inv s) : OutInv (hwaitWord i h full s) := by
  unfold Machine.hwaitWord
  refine hs.issueWord (fun _ _ ht => ?_)
  split
  · exact trivial
  · split
    · exact ht
    · exact ht.holdLanes
    · exact ht

theorem Inv.execHrel {h : BitVec 7} (hs : Inv s) : OutInv (execHrel y g h s) :=
  hs.issueWord (fun _ _ ht => .ite trivial (.ite ht (.ite ht ht.setHandle)))

theorem Inv.move (h : Inv s) {src dst : Side} {limit : Nat} {rm : Word} {els : List Elem} :
    Inv (s.move src dst limit rm els last).s := by
  unfold State.move
  dsimp only
  split
  · exact h
  · exact h.putOutput

theorem Inv.chargeBytes (h : Inv s) {d : Side} {sent : Bool} : Inv (s.chargeBytes d sent n) := by
  unfold State.chargeBytes
  split
  · exact h
  · split
    · exact h.chargeKey
    · exact h

theorem Inv.chargeMove (h : Inv s) {src dst : Side} {read written : Nat} : Inv (s.chargeMove src dst read written) :=
  h.frame.chargeBytes.chargeBytes.charge

theorem Inv.endCopy (h : Inv s) {c : CopyWork} {m : Moved} : Inv (s.endCopy e c m) := by
  unfold State.endCopy
  dsimp only
  refine Inv.performed ?_
  split
  · refine Inv.progress ?_
    split
    · exact h.report
    · exact h.reportEntry
    · exact h
  · split
    · refine Inv.updHandle ?_
      refine Inv.updHandle ?_
      split
      · exact h.report
      · exact h.reportEntry
      · exact h
    · refine Inv.updHandle ?_
      split
      · exact h.report
      · exact h.reportEntry
      · exact h

theorem Inv.runCopy (h : Inv s) {c : CopyWork} : Inv (s.runCopy e c last) := by
  unfold State.runCopy
  extract_lets fail
  have hf {cause : Nat} {a : DWord} : Inv (fail cause a) := h.endCopy
  split
  · exact hf
  · exact hf
  · exact .ite hf h.updEntry
  · split
    extract_lets s1 cond els m
    have h1 : Inv s1 := h.updEntry
    have hm : Inv m.s := h1.move
    clear_value cond m
    refine .ite (.ite hf ?_) (.ite h.updEntry hm.chargeMove.endCopy)
    split
    · exact .ite hf h1.updEntry
    · exact h1.updEntry

theorem Inv.runGather (h : Inv s) {g : GatherWork} : Inv (s.runGather e g last) := by
  unfold State.runGather
  extract_lets o bad
  split
  extract_lets m cond s1 s2 s3
  have hm : Inv m.s := h.move
  clear_value m bad cond
  have h1 : Inv s1 := hm.chargeMove.chargeBytes
  have h2 : Inv s2 := by
    unfold s2
    split
    · exact h1.reportEntry
    · exact h1
  have h3 : Inv s3 := by
    unfold s3
    split
    · exact h2.reportEntry
    · exact h2
  exact .ite h.updEntry h3.updHandle.performed

theorem Inv.leaveRing (h : Inv s) : Inv (s.leaveRing e) := h.frame

theorem Inv.parkRing (h : Inv s) : Inv (s.parkRing id) := by
  unfold State.parkRing
  split
  · exact h
  · split
    · exact Inv.ite h.leaveRing h
    · exact h

theorem Inv.runChunk (h : Inv s) {r : RingWork} {c : Nat} : Inv (s.runChunk e r c last) := by
  unfold State.runChunk
  extract_lets o n lo win mem mine got els kept all
  split
  extract_lets m s1 s2 s3 r' s4
  have hm : Inv m.s := Inv.moved h.putOutput h.move
  clear_value m
  have h1 : Inv s1 := .ite hm.chargeMove hm.chargeMove
  have h2 : Inv s2 := by
    unfold s2
    split
    · exact h1.reportEntry
    · exact h1
  have h3 : Inv s3 := .ite h2.updHandle h2.updHandle
  have h4 : Inv s4 := h3.updEntry.progress
  exact .ite h.updEntry (.ite h4.performed h4.parkRing)

theorem Inv.partMove (h : Inv s) {src dst : Side} {read : Nat} {o : Output} : Inv (s.partMove src dst read o) :=
  h.frame.putOutput.chargeMove

theorem Inv.partCopy (h : Inv s) {c : CopyWork} : Inv (s.partCopy e c) := by
  unfold State.partCopy
  split
  · split
    · exact h.partMove
    · exact h.partMove.frame
    · exact h

theorem Inv.partGather (h : Inv s) {g : GatherWork} : Inv (s.partGather e g) := h.partMove

theorem Inv.partChunk (h : Inv s) {r : RingWork} {c : Nat} : Inv (s.partChunk e r c) := Inv.ite h.partMove h.partMove

theorem Inv.orphanEntry (h : Inv s) : Inv (s.orphanEntry e) := by
  unfold State.orphanEntry
  dsimp only
  split
  · split
    · exact h.dropEntry
    · refine Inv.dropEntry ?_
      split
      · exact h.partCopy.updHandle.updHandle
      · exact h.partCopy.updHandle
  · exact Inv.ite h.dropEntry h.partGather.updHandle.dropEntry
  · exact (h.foldl fun _ _ ht => ht.partChunk.updHandle).dropEntry
  · exact Inv.ite h.closeProduct.updUnit.updHandle.dropEntry ((Inv.ite h.setHandle h).dropEntry)
  · exact h.updEntry

theorem Inv.beginCopy (h : Inv s) {c : CopyWork} : Inv (s.beginCopy e c) := by
  unfold State.beginCopy
  split
  · exact Inv.ite h.runCopy h.updEntry
  · exact h.updEntry
  · exact h.runCopy

theorem Inv.execCopyStart (h : Inv s) : OutInv (execCopyStart id s) := by
  unfold Machine.execCopyStart
  refine Inv.next ?_
  split
  · exact h
  · split
    · exact h
    · dsimp only
      split
      · split
        · exact h.start.beginCopy
        · split
          · exact h
          · refine Inv.beginCopy ?_
            refine Inv.start ?_
            split
            · exact h.updHandle.updHandle
            · exact h.updHandle
      · exact Inv.ite h h.updHandle.start
      · exact h.start.parkRing
      · exact h

theorem Inv.execCopyComplete (h : Inv s) : OutInv (execCopyComplete id s) := by
  unfold Machine.execCopyComplete
  refine Inv.next ?_
  split
  · exact h
  · split
    · exact h
    · split
      · exact h.orphanEntry
      · split
        · exact Inv.ite h h.runCopy
        · exact h.runGather
        · split
          · exact h.runChunk
          · exact h
        · exact h

theorem Inv.execRingChunkStart (h : Inv s) : OutInv (execRingChunkStart id s) := by
  unfold Machine.execRingChunkStart
  refine Inv.next ?_
  split
  · exact h
  · split
    · dsimp only
      split
      · exact h
      · split
        · exact h
        · exact (Inv.ite h.updHandle h.updHandle).updEntry
    · exact h

theorem Inv.execQfencePass (h : Inv s) : OutInv (execQfencePass id s) := by
  unfold Machine.execQfencePass
  refine Inv.next ?_
  split
  · exact h
  · split
    · exact Inv.ite (h.flagDown.foldl fun _ _ ht => ht.dropEntry) h
    · exact h

theorem Inv.cullOwners (h : Inv s) : Inv (s.cullOwners id m) := by
  unfold State.cullOwners
  dsimp only
  refine h.foldl (fun _ _ ht => ?_)
  split
  · split
    · exact ht.updEntry.orphanEntry
    · exact ht.updEntry
  · exact ht.updEntry

/-! ### Products and joins -/

theorem Inv.productWord (h : Inv s) {work : ProductBlock → Work} : OutInv (productWord i s a d work) := by
  unfold Machine.productWord
  refine h.issueWord (fun _ _ ht => ?_)
  dsimp only
  split
  · next e => exact h.block ht e
  · split
    · exact trivial
    · exact EffInv.ite ht ht.push

theorem Inv.putCensus (h : Inv s) {g : Census → Census} : Inv (s.putCensus key g) := h.frame

theorem Inv.updCensus (h : Inv s) {g : Census → Census} : Inv (s.updCensus key ctx g) := Inv.ite h.frame h.frame

theorem Inv.settleVals (h : Inv s) {vals : List (Option Word)} : Inv (s.settleVals ctx mrec vals).1 := by
  unfold State.settleVals
  split
  · exact h.frame
  · exact h

theorem Inv.setOpn (h : Inv s) {v : Bool} : Inv (s.setOpn u b v) := h.updUnit

theorem Inv.failProduct (hs : Inv s) {h : Nat} : Inv (s.failProduct e h cause addr) :=
  hs.updHandle.reportEntry.performed

theorem Inv.openProduct (h : Inv s) {m : MatrixRec} (ht : s.openProduct e b m = .ok t) : Inv t := by
  unfold State.openProduct at ht
  obtain ⟨marks, -, ht⟩ := Except.exists_of_bind_eq_ok ht
  obtain ⟨n, -, ht⟩ := Except.exists_of_bind_eq_ok ht
  obtain ⟨s1, e1, ht⟩ := Except.exists_of_bind_eq_ok ht
  have h1 := h.writeVa e1
  dsimp only at ht
  split at ht
  · cases ht
    exact h1.updCensus.updUnit.setOpn.dropCache.deliver.start.updHandle.performed
  · cases ht
    exact h1.updCensus.updUnit.setOpn.dropCache.deliver.start

theorem Inv.tryQmv (h : Inv s) : Inv (s.tryQmv e b last) := by
  unfold State.tryQmv
  dsimp only
  split
  · exact Inv.ite h.failProduct h
  · exact h.failProduct
  · split
    · exact h.failProduct
    · split
      · exact h
      · split
        · next e => exact h.openProduct e
        · exact Inv.ite h.failProduct h

theorem Inv.execQmvStart (h : Inv s) : OutInv (execQmvStart id s) := by
  unfold Machine.execQmvStart
  refine Inv.next ?_
  split
  · exact h
  · split
    · exact Inv.ite (.ite h.tryQmv h) (.ite h h.updHandle.updEntry.tryQmv)
    · exact h

theorem Inv.endRow (h : Inv s) {m : MatrixRec} {gen i : Nat} {err : Option Poison} :
    Inv (s.endRow e b m gen rows i err) := by
  unfold State.endRow
  dsimp only
  split
  · refine Inv.performed ?_
    refine Inv.updHandle ?_
    split
    · exact h.reportEntry
    · exact h
  · exact h.updHandle.updEntry.progress

theorem Inv.quernRow (h : Inv s) {m : MatrixRec} {gen i : Nat} {err : Option Poison} :
    Inv (s.quernRow e b m gen rows i err last) := by
  unfold State.quernRow
  dsimp only
  split
  · exact h.settleVals.updUnit.charge.charge.endRow
  · exact .ite h.updUnit.endRow h

theorem Inv.execQuernRow {row : Nat} (h : Inv s) : OutInv (execQuernRow id row s) := by
  unfold Machine.execQuernRow
  refine Inv.next ?_
  split
  · exact h
  · split
    · exact Inv.ite h.orphanEntry (.ite h.quernRow h)
    · exact h

theorem Inv.censusAtomic (h : Inv s) {census : DWord} {r : Nat} {new : Nat → Nat} :
    Inv (s.censusAtomic rec ctx census r new) := by
  unfold State.censusAtomic
  dsimp only
  split
  · exact Inv.ite h.store.putCensus h.store.charge
  · exact h

theorem Inv.joinRow (h : Inv s) {m : MatrixRec} {g i : Nat} : Inv (s.joinRow e b m g i).1 := by
  unfold State.joinRow
  dsimp only
  split
  · exact h.settleVals.updUnit
  · exact h

theorem Inv.countProduct (h : Inv s) {m : MatrixRec} : Inv (s.countProduct ctx b m) := by
  unfold State.countProduct
  dsimp only
  split
  · exact h
  · refine Inv.updCensus ?_
    split
    · next e => exact h.writeVa e
    · exact h

theorem Inv.beginJoin (h : Inv s) {m : MatrixRec} : Inv (s.beginJoin e b m) := by
  unfold State.beginJoin
  extract_lets u ok
  split
  next e' =>
  refine Inv.start (Inv.of_fst (Inv.foldl_fst ?_ ?_) e')
  · exact h.setOpn
  · exact fun q i hq => hq.joinRow

theorem Inv.joinStep (h : Inv s) {m : MatrixRec} {counts : List (Nat × Nat)} {ok : Bool} :
    Inv (s.joinStep e b m counts ok) := by
  unfold State.joinStep
  dsimp only
  split
  · exact h.frame.censusAtomic.updEntry.progress
  · exact (Inv.ite h.countProduct h).closeProduct.updHandle.performed

theorem Inv.tryRjoin (h : Inv s) : Inv (s.tryRjoin e b last) := by
  unfold State.tryRjoin
  dsimp only
  split
  · exact Inv.ite h.frame.setOpn.failProduct h.updEntry
  · exact (Inv.ite h.closeProduct h).setOpn.failProduct
  · split
    · exact (Inv.ite h.closeProduct h).setOpn.failProduct
    · split
      · exact h
      · split
        · exact h.performed
        · split
          · exact h.failProduct
          · split
            · exact h.beginJoin
            · exact Inv.ite h.closeProduct.setOpn.failProduct h.updEntry

theorem Inv.execRjoinStart (h : Inv s) : OutInv (execRjoinStart id s) := by
  unfold Machine.execRjoinStart
  refine Inv.next ?_
  split
  · exact h
  · split
    · exact h.joinStep
    · exact Inv.ite h.tryRjoin h
    · exact h

theorem Inv.execRecordReachableAgain (h : Inv s) : OutInv (execRecordReachableAgain rec s) := by
  unfold Machine.execRecordReachableAgain
  refine Inv.next ?_
  refine h.foldl (fun _ _ ht => ?_)
  split
  · next e => exact (ht.lowerOpen e).frame
  · exact ht

theorem Inv.giveUpRows (h : Inv s) : Inv (s.giveUpRows id rows) := by
  induction rows generalizing s with
  | nil => exact h
  | cons i rest ih =>
    unfold State.giveUpRows
    refine ih ?_
    split
    · split
      · split
        · exact h.quernRow
        · exact h
      · exact h
    · exact h

theorem Inv.execCopySlowPath {serviced : Bool} {tables : List (Nat × Nat)} (h : Inv s0) :
    OutInv (execCopySlowPath id serviced tables s0) := by
  unfold Machine.execCopySlowPath
  refine Inv.next ?_
  split
  · exact h
  · extract_lets s healed s' e'
    have hs : Inv s := .ite h.writeTables h
    have hh : Inv healed := .ite (hs.foldl fun _ _ ht => ht.healWords) hs
    have hs' : Inv s' := by
      unfold s'
      split
      · exact .ite hs.healWords hs
      · exact hs
    clear_value s healed s'
    split
    · exact .ite hs.orphanEntry (.ite (.ite hh hs.giveUpRows) (.ite hh.tryQmv hs))
    · exact .ite hh.tryRjoin hs
    · refine .ite hs (.ite hs.orphanEntry (.ite hs ?_))
      split
      · exact hs'.runCopy
      · exact hs'.runGather
      · split
        · exact hs'.runChunk
        · exact hs'
      · exact hs'

/-! ### Scans and chains -/

theorem Inv.execScan (h : Inv s) : OutInv (execScan y g a s) := by
  unfold Machine.execScan
  refine h.issueWord (fun _ _ ht => ?_)
  dsimp only
  split
  · next e => exact h.block ht e
  · split
    · exact trivial
    · split
      · exact ht
      · exact ht.push

theorem Inv.execScanStart (h : Inv s) : OutInv (execScanStart id s) := by
  unfold Machine.execScanStart
  refine Inv.next ?_
  split
  · exact h
  · split
    · exact Inv.ite h h.start
    · exact h

theorem Inv.execScanPerformed (h : Inv s) : OutInv (execScanPerformed id s) := by
  unfold Machine.execScanPerformed
  refine Inv.next ?_
  split
  · exact h
  · split
    · exact Inv.ite h h.updUnit.performed
    · exact h

theorem Inv.updMember (h : Inv s) {p : Nat} {g : Member → Member} : Inv (s.updMember l p g) := h.updLaunch

theorem Inv.chainWord (h : Inv s) {work : Nat → Nat → Work} : OutInv (chainWord i s a work) := by
  unfold Machine.chainWord
  refine h.issueWord (fun _ _ ht => ?_)
  dsimp only
  split
  · exact trivial
  · split
    · exact ht
    · exact ht.push

theorem Inv.execCsendStart (h : Inv s) : OutInv (execCsendStart id s) := by
  unfold Machine.execCsendStart
  refine Inv.next ?_
  split
  · exact h
  · split
    · split
      · exact h
      · dsimp only
        split
        · exact Inv.ite h.start h.start.sendOn.charge
        · exact h.start
    · exact h

theorem Inv.placeCarry (h : Inv s) {q : Nat} {c : Carry} : OptInv (s.placeCarry l q c) :=
  OptInv.ite h.some (.ite OptInv.none h.updMember.some)

theorem Inv.carrySent (h : Inv s) {p : Nat} : Inv (s.carrySent e l p) := (Inv.ite h h.updMember).performed

theorem Inv.placeOwn (h : Inv s) : Inv (s.placeOwn id) := by
  unfold State.placeOwn
  split
  · split
    · exact h.ackOn.getD h
    · exact h
  · split
    · split
      · exact h
      · split
        · split
          · next e => exact (h.ackOn e).carrySent
          · exact Inv.ite h.carrySent h
        · split
          · exact h.carrySent
          · split
            · next e' => exact (h.placeCarry e').carrySent
            · exact h
    · exact h

theorem Inv.placeRemote (h : Inv s) {c : Carry} : Inv (s.placeRemote l src seq c) := by
  unfold State.placeRemote
  split
  · exact h
  · split
    · exact h
    · next e =>
        split
        · next e' => exact ((h.takenFrom e).placeCarry e').progress
        · exact h

theorem Inv.acquireUnit (h : Inv s) : Inv (s.acquireUnit u) := by
  unfold State.acquireUnit
  split
  · exact h.dropCache
  · exact h

theorem Inv.execCrecvTake (h : Inv s) : OutInv (execCrecvTake id s) := by
  unfold Machine.execCrecvTake
  refine Inv.next ?_
  split
  · exact h
  · split
    · split
      · exact h
      · dsimp only
        split
        · exact h.updUnit.performed.acquireUnit
        · split
          · exact h.updUnit.updMember.performed.acquireUnit
          · split
            · exact .ite h.updUnit.updMember.performed.acquireUnit
                (.ite h.report.updUnit.updMember.performed.acquireUnit h.updUnit.updMember.performed.acquireUnit)
            · exact .ite h.updUnit.updMember.performed.acquireUnit h
    · exact h

theorem Inv.giveNotice (h : Inv s) : Inv (s.giveNotice l) := by
  unfold State.giveNotice
  dsimp only
  split
  · exact h.sendOn.updLaunch
  · exact h.sendOn.updLaunch
  · exact h

theorem Inv.noticeTold (h : Inv s) : Inv (s.noticeTold l) := by
  unfold State.noticeTold
  split
  · exact h
  · dsimp only
    split
    · exact Inv.ite (h.ackOn.getD h) h
    · exact h

theorem Inv.execCarryPlaced {carry : CarrySource} (h : Inv s) : OutInv (execCarryPlaced carry s) := by
  unfold Machine.execCarryPlaced
  refine Inv.next ?_
  split
  · exact h.placeOwn
  · exact h.placeRemote
  · exact h.giveNotice
  · exact h.noticeTold

theorem Inv.execRoundComplete {round : RoundNotice} (h : Inv s) : OutInv (execRoundComplete round s) := by
  unfold Machine.execRoundComplete
  refine Inv.next ?_
  split
  · exact h
  · split
    · exact Inv.ite h h.updMember.deliverAll.performed.acquireUnit
    · exact h

/-! ### Launches and units -/

theorem Inv.list (h : Inv s) {e : Listed} : Inv (s.list e) := h.frame

theorem Inv.listUnit (h : Inv s) : Inv (s.listUnit u) := by
  unfold State.listUnit
  split
  · exact h
  · exact Inv.ite h.setUnit h.setUnit.list

theorem Inv.releaseSuccs (h : Inv s) {succs : List Nat} : Inv (s.releaseSuccs succs) := by
  unfold State.releaseSuccs
  refine h.foldl (fun _ _ ht => ?_)
  split
  · exact ht
  · exact Inv.ite ht.setUnit.listUnit ht.setUnit

theorem Inv.settleJob (h : Inv s) : Inv (s.settleJob j) := Inv.ite h.updJob.frame h

theorem Inv.endSweeps (h : Inv s) : Inv s.endSweeps := (h.foldl fun _ _ ht => ht.flagDown).frame

theorem Inv.finishUnit (h : Inv s) {how : UnitStage} : Inv (s.finishUnit u how) := by
  unfold State.finishUnit
  split
  · exact h
  · exact Inv.progress (Inv.settleJob (Inv.endSweeps (Inv.releaseSuccs h.frame)))

theorem Inv.dropOne (h : Inv s) : Inv (s.dropOne j) := h.updJob

theorem Inv.refuseLaunch (h : Inv s) : Inv (s.refuseLaunch ctx job launch) := h.report.endJob.settleJob

theorem Inv.listLaunch (h : Inv s) : Inv (s.listLaunch l) := by
  unfold State.listLaunch
  split
  · exact h
  · exact h.foldl fun _ _ ht => .ite ht.list ht

theorem Inv.launchNode (h : Inv s) {x : Node} : Inv (s.launchNode n x ctx job) := by
  unfold State.launchNode
  split
  next e =>
  extract_lets k s1
  have h1 : Inv s1 := (h.take.of_snd e).updJob
  split
  · exact h1.refuseLaunch
  · split
    · exact h1.refuseLaunch
    · exact .ite h1.refuseLaunch h1.setLaunch.updNode.listLaunch

theorem Inv.startNode (h : Inv s) : Inv (s.startNode n) := by
  unfold State.startNode
  split
  · exact h
  · split
    · exact h
    · split
      · exact h
      · split
        · exact h.launchNode
        · dsimp only
          split
          · exact h.report.updNode
          · exact Inv.ite h h.addEntry.updNode

theorem Inv.releaseNodes (h : Inv s) {phase : Nat} {succs : List Nat} : Inv (s.releaseNodes phase succs) := by
  unfold State.releaseNodes
  refine h.foldl (fun _ _ ht => ?_)
  split
  · exact ht
  · exact Inv.ite ht.updNode.startNode ht.updNode

theorem Inv.completeNode (h : Inv s) : Inv (s.completeNode n) := by
  unfold State.completeNode
  split
  · exact h
  · exact h.updNode.releaseNodes

theorem Inv.feedGraph (h : Inv s) : Inv s.feedGraph := h.foldl fun _ _ ht => ht.startNode

theorem Inv.execNodeComplete {node : Nat} (h : Inv s) : OutInv (execNodeComplete node s) := by
  unfold Machine.execNodeComplete
  refine Inv.next ?_
  split
  · exact h
  · exact Inv.ite h.completeNode.feedGraph h

theorem Inv.growLaunch (h : Inv s) : Inv (s.growLaunch o launch n) := by
  unfold State.growLaunch
  split
  · exact h.deliverAll
  · exact Inv.ite h.deliverAll ((Inv.ite h.updLaunch h.updLaunch.listLaunch).deliverAll)

theorem Inv.execSpawn (h : Inv s) : OutInv (execSpawn y g d a s) := by
  unfold Machine.execSpawn
  refine h.issueWord (fun _ _ ht => ?_)
  dsimp only
  split
  · next e => exact h.block ht e
  · split
    · exact trivial
    · split
      · next e' => exact h.block ht e'
      · split
        · exact trivial
        · exact ht.frame.frame

theorem Inv.dropSpawn (h : Inv s) {r : SpawnReq} : Inv (s.dropSpawn r) := h.frame.dropOne.deliverAll

theorem Inv.enterChild (h : Inv s) {parent : Option Nat} {krec args : DWord} {ranges : List Range}
    {stamp : Option (Word × Word)} : Inv (s.enterChild job ctx launch parent krec args ranges stamp) := by
  unfold State.enterChild
  extract_lets lrec preds k
  split
  next e =>
  extract_lets s2 s3 s4 s5
  have h4 : Inv s4 := Inv.updJob (Inv.foldl (h.take.of_snd e).setUnit fun _ _ ht => ht.updUnit)
  have h5 : Inv s5 := .ite h4.report h4
  exact .ite h5.listUnit h5

theorem Inv.execSpawnArrival (h : Inv s) : OutInv (execSpawnArrival id s) := by
  unfold Machine.execSpawnArrival
  refine Inv.next ?_
  split
  · exact h
  · split
    · exact h.dropSpawn
    · dsimp only
      split
      · exact h
      · split
        · exact h.dropSpawn
        · split
          · exact h.frame.growLaunch
          · exact h.updJob.frame
          · exact Inv.ite h h.frame.enterChild.deliverAll

theorem Inv.execRemoteEnqueueReceive {dev krec args : Nat} {body : EnqueueBody} (h : Inv s) :
    OutInv (execRemoteEnqueueReceive job dev krec args body s) := by
  unfold Machine.execRemoteEnqueueReceive
  refine Inv.next ?_
  split
  · exact h
  · exact Inv.ite h ((Inv.ite h.updJob.dropOne h.updJob.enterChild).progress)

theorem Inv.execRemoteEnqueueAck {entered : Bool} (h : Inv s) : OutInv (execRemoteEnqueueAck id entered s) := by
  unfold Machine.execRemoteEnqueueAck
  refine Inv.next ?_
  split
  · exact h
  · exact h.frame.updJob.deliverAll.progress

theorem Inv.stampSweep (h : Inv s) : Inv (s.stampSweep j die) :=
  (h.foldl fun _ _ ht => ht.finishUnit.dropOne).foldl fun _ _ ht => ht.dropSpawn

theorem Inv.execCwaitRelease (h : Inv s) : OutInv (execCwaitRelease sheaf s) := by
  unfold Machine.execCwaitRelease
  refine Inv.next ?_
  split
  · exact h
  · exact Inv.ite h h.releaseLanes.acquireAt

theorem Inv.cancelSweep (h : Inv s) {units launches nodes : List Nat} : Inv (s.cancelSweep units launches nodes) := by
  unfold State.cancelSweep
  extract_lets s1 s2 s3 gone s4
  have h1 : Inv s1 := h.foldl fun _ _ ht => ht.updLaunch
  have h3 : Inv s3 := Inv.foldl (s := s2) h1.frame fun t u ht => by
    split
    · exact ht
    · exact .ite ht (.ite ht.setUnit ht.setUnit.finishUnit)
  have h4 : Inv s4 := h3.foldl fun _ _ ht => ht.updNode
  exact h4.foldl fun _ _ ht => ht.releaseNodes

theorem Inv.cancelInstance (h : Inv s) {me level : Nat} : Inv (s.cancelInstance me x level).1 := h.cancelSweep

theorem Inv.cancelJob (h : Inv s) : Inv (s.cancelJob j) := by
  unfold State.cancelJob
  split
  · exact h
  · exact h.cancelInstance

theorem Inv.placeSheaves (h : Inv s) : Inv (s.placeSheaves u core x) :=
  h.foldl fun _ _ ht => ht.frame.frame.updCore.setSheaf

theorem Inv.letIn (h : Inv s) : Inv (s.letIn core u off x) := h.setUnit.updCore.dropCache.placeSheaves.progress

theorem Inv.admitListed (h : Inv s) {e : Listed} : Inv (s.admitListed core off e) := by
  unfold State.admitListed
  split
  · split
    · exact h
    · exact Inv.letIn h.frame
  · split
    · exact h
    · exact Inv.letIn (Inv.frame (Inv.updLaunch h.take))
  · exact h

theorem Inv.execUnitAdmission (h : Inv s0) : OutInv (execUnitAdmission core s0) := by
  unfold Machine.execUnitAdmission
  refine Inv.next ?_
  extract_lets d s fit
  have hs : Inv s := h.frame
  split
  · exact h
  · split
    · exact h
    · split
      · exact hs.admitListed
      · split
        · exact h
        · split
          · exact h
          · exact .ite hs.admitListed (Inv.frame (Inv.admitListed (s := s) hs))

theorem Inv.execUnitComplete (h : Inv s) : OutInv (execUnitComplete unit s) := by
  unfold Machine.execUnitComplete
  refine Inv.next ?_
  split
  · exact h
  · exact Inv.ite h ((h.foldl fun _ _ ht => ht.undescribe.freeSlot).finishUnit)

theorem Inv.execJobCompletionSweep {parts : List (Nat × Nat)} (h : Inv s) :
    OutInv (execJobCompletionSweep job parts s) := by
  unfold Machine.execJobCompletionSweep
  refine Inv.next ?_
  split
  · exact h
  · exact Inv.ite h (.ite h.updJob (.ite h.updJob.settleJob h.updJob))

/-! ### Queues and barriers -/

theorem Inv.queueWord (h : Inv s) {push virt : Bool} : OutInv (queueWord i s push d a virt) := by
  unfold Machine.queueWord
  refine h.issueWord (fun _ _ ht => ?_)
  split
  · exact ht
  · exact h.ctxServe ht
  · split
    · exact trivial
    · dsimp only
      split
      · exact trivial
      · exact ht.frame.frame.holdLanes

theorem Inv.qWrite (h : Inv s) {k : QKey} {a : Nat} {b : List Byte} : OptInv (s.qWrite k ctx a b) := by
  unfold State.qWrite
  split
  · exact h.updUnit.some
  · split
    · exact h.write.some
    · exact OptInv.none

theorem Inv.finishQWord (h : Inv s) {push : Bool} : Inv (s.finishQWord id push o) :=
  (Inv.ite h.releaseLanes.progress h.releaseLanes.progress.acquireAt).flagDown

theorem Inv.endQWord (h : Inv s) : Inv (s.endQWord w) := Inv.ite h.frame h.frame.finishQWord

theorem Inv.putQWord (h : Inv s) : Inv (s.putQWord w) := Inv.ite h.endQWord h.frame

theorem Inv.placeItem (h : Inv s) : OptInv (s.placeItem w item) := by
  intro t e
  simp only [State.placeItem, Option.bind_eq_bind, Option.bind_eq_some_iff, Option.pure_def, Option.some.injEq] at e
  obtain ⟨q, -, s1, e1, s2, e2, rfl⟩ := e
  exact (h.qWrite e1).qWrite e2 |>.frame

theorem Inv.giveItem (h : Inv s) {counts : List Nat} : Inv (s.giveItem w lane item sheaf counts) :=
  Inv.ite h h.frame.frame

theorem Inv.pushOne (h : Inv s) : OptInv (s.pushOne w item) := by
  unfold State.pushOne
  split
  · split
    · exact h.giveItem.putQWord.some
    · exact OptInv.none
  · split
    · exact OptInv.ite h.placeItem OptInv.none
    · exact OptInv.none

theorem Inv.refill (h : Inv s) {k : QKey} : Inv (s.refill k) := by
  unfold State.refill
  split
  · exact h
  · split
    · split
      · next e => exact (h.placeItem e).putQWord
      · exact h
    · exact h

theorem Inv.popOne (h : Inv s) : OptInv (s.popOne w lane) := by
  intro t e
  simp only [State.popOne, Option.bind_eq_bind, Option.bind_eq_some_iff] at e
  obtain ⟨q, -, e⟩ := e
  split at e
  · simp at e
  · simp only [Option.bind_eq_some_iff, Option.pure_def, Option.some.injEq] at e
    obtain ⟨x, -, s1, e1, rfl⟩ := e
    exact Inv.refill (Inv.giveItem (h.qWrite e1).frame)

theorem Inv.serve (h : Inv s) {items : List (Nat × List Byte)} : Inv (s.serve w items) := by
  induction items generalizing s with
  | nil => exact h.endQWord
  | cons x rest ih =>
    unfold State.serve
    split
    · next e =>
        refine ih ?_
        split at e
        · exact h.pushOne e
        · exact h.popOne e
    · exact .ite h.endQWord h.frame

theorem Inv.execQueueWordAtHome (h : Inv s) : OutInv (execQueueWordAtHome id s) := by
  unfold Machine.execQueueWordAtHome
  refine Inv.next ?_
  split
  · exact h
  · exact Inv.ite h h.serve

theorem Inv.execPopDelivery (h : Inv s) : OutInv (execPopDelivery id s) := by
  unfold Machine.execPopDelivery
  refine Inv.next ?_
  split
  · exact h
  · exact Inv.ite h (.ite h.frame.updSheaf.progress h.frame.updSheaf.finishQWord)

theorem Inv.execBarrierComplete (h : Inv s) : OutInv (execBarrierComplete unit s) :=
  Inv.next (.ite h (h.foldl fun _ _ ht => ht.updSheaf.releaseLanes.acquireAt.progress))

/-! ### Incumbents -/

theorem Inv.lagReplicas (h : Inv s) : Inv (s.lagReplicas j n) := h.frame

theorem Inv.offer (h : Inv s) : Inv (s.offer j n value payload) := Inv.ite h.lagReplicas.updJob h

theorem Inv.commitOffer (h : Inv s) : Inv (s.commitOffer j n value payload) :=
  Inv.ite (h.offer.foldl fun _ _ ht => ht.sendOn) h.offer

theorem Inv.applyOffers (h : Inv s) {m : IncMsg} {offers : List (Nat × Word × Word)} :
    Inv (s.applyOffers m offers).1 := by
  induction offers generalizing s with
  | nil => exact h
  | cons x rest ih => exact ih h.commitOffer

theorem Inv.updIncMsg (h : Inv s) {g : IncMsg → IncMsg} : Inv (s.updIncMsg id g) := h.frame

theorem Inv.dropIncMsg (h : Inv s) : Inv (s.dropIncMsg id) := h.frame

theorem Inv.execIncumbentCommit (h : Inv s) : OutInv (execIncumbentCommit id s) := by
  unfold Machine.execIncumbentCommit
  refine Inv.next ?_
  split
  · exact h
  · exact Inv.ite h h.applyOffers.updIncMsg

theorem Inv.execIncupReply (h : Inv s) : OutInv (execIncupReply id s) := by
  unfold Machine.execIncupReply
  refine Inv.next ?_
  split
  · exact h
  · exact Inv.ite h h.dropIncMsg.deliver

theorem Inv.execIncrdRootReply (h : Inv s) : OutInv (execIncrdRootReply id s) := by
  unfold Machine.execIncrdRootReply
  refine Inv.next ?_
  split
  · exact h
  · exact Inv.ite h h.acquireAt.dropIncMsg.deliver

theorem Inv.forwarded (h : Inv s) {d : Nat} : Inv (s.forwarded job reg d) := by
  unfold State.forwarded
  split
  · exact Inv.ite (h.ackOn.getD h) h
  · exact h

theorem Inv.execCrierReplicaUpdate {onDie : Bool} {place : Nat} (h : Inv s) :
    OutInv (execCrierReplicaUpdate job reg onDie place s) :=
  Inv.next (.ite h.forwarded (.ite h (.ite h.frame.stampSweep h.frame)))

theorem Inv.execCrierForward {source : CrierSource} {cycles : Nat} (h : Inv s) :
    OutInv (execCrierForward source reg value payload cycles s) := by
  unfold Machine.execCrierForward
  refine Inv.next ?_
  split
  · next e => exact (Inv.ite ((h.takenFrom e).offer) ((h.takenFrom e).offer.report)).progress
  · next e' => exact h.takenFrom e'
  · exact h

theorem Inv.execIncrd {p : Bool} {n : BitVec 4} (h : Inv s) : OutInv (execIncrd y g d p n s) :=
  h.issueWord (fun _ _ ht => .ite trivial (.ite ht.dropCache.later ht.frame.frame))

/-! ### The end of a job -/

theorem Inv.cullQWords (h : Inv s) : Inv (s.cullQWords id m) :=
  (h.frame.foldl fun _ _ ht => ht.endQWord).foldl fun _ _ ht => .ite ht ht.finishQWord

theorem Inv.cullRequests (h : Inv s) : Inv (s.cullRequests id m) := h.frame

theorem Inv.cullLanes (h : Inv s) : Inv (s.cullLanes id m) := by
  unfold State.cullLanes
  split
  · exact h
  · exact Inv.ite h h.cullOwners.cullQWords.cullRequests.updSheaf.forgetLanes

/-! ### Replies, walks and faults -/

theorem Inv.acknowledge (h : Inv s) {o : Outstanding} : Inv (s.acknowledge o) := by
  unfold State.acknowledge
  split
  · exact h
  · exact h.frame

theorem Inv.remoteProgress (h : Inv s) {remote : Bool} : Inv (s.remoteProgress f remote) := Inv.ite h.progress h

theorem Inv.landPop (h : Inv s) {o : Outstanding} : Inv (s.landPop id f o n k) := by
  unfold State.landPop
  dsimp only
  split
  · exact h.land
  · split
    · exact h.land
    · split
      · exact h.land
      · split
        · exact h.land
        · next e => exact h.detect.withdrawn e
        · next e => exact (Inv.ite (h.detect.clear e) ((h.detect.clear e).dropLines)).land

theorem Inv.execLoadReply (h : Inv s) : OutInv (execLoadReply sheaf id s) := by
  unfold Machine.execLoadReply
  refine Inv.next ?_
  split
  · exact h
  · split
    · exact h
    · dsimp only
      split
      · exact h
      · split
        · split
          · next e => exact h.loadLane.wait e
          · next e' => exact (h.loadLane.bad e').land
          · next e' => exact (h.loadLane.bytes e').land.remoteProgress
        · exact h.landPop
        · exact Inv.ite h h.acknowledge.land.remoteProgress
        · exact h.acknowledge.land

theorem Inv.translateEntry (h : Inv s) : Inv (s.translateEntry sheaf id lane) := by
  unfold State.translateEntry
  split
  · exact h
  · split
    · exact h
    · next e =>
        split
        · exact h
        · extract_lets k res
          have hr : PartResInv res := by
            unfold res
            split
            · exact h.translatePart
            · exact h.translatePush
          clear_value res
          split
          · exact Inv.updSheaf hr
          · exact h.addMiss
          · exact hr

theorem Inv.failMisses (h : Inv s) {kind : PoisonKind} : Inv (s.failMisses die ctx page kind) :=
  h.foldl fun _ _ ht => (ht.foldl fun _ _ hu => hu.land).updSheaf.updSheaf

theorem Inv.execTlbWalk (h : Inv s) : OutInv (execTlbWalk die ctx page s) := by
  unfold Machine.execTlbWalk
  refine Inv.next ?_
  dsimp only
  split
  · exact h
  · split
    · exact h.frame.frame
    · exact h.frame.failMisses
    · exact h.frame.malformed.failMisses

theorem Inv.execTlbInvalidation {first last : Nat} (h : Inv s) : OutInv (execTlbInvalidation ctx first last s) := by
  unfold Machine.execTlbInvalidation
  refine Inv.next ?_
  dsimp only
  split
  · exact Inv.ite h.frame h.frame
  · exact h.frame

theorem Inv.serviced (h : Inv s) {a : Awaiting} {stepped : Bool} : Inv (s.serviced id f a stepped) :=
  Inv.ite h.setSheaf.replay.updSheaf (.ite h.setSheaf.updSheaf h.setSheaf)

theorem Inv.healRead (h : Inv s) : Inv (s.healRead f p) := h.healWords

theorem Inv.execFaultService {ok : Bool} (h : Inv s) : OutInv (execFaultService sheaf ok s) := by
  unfold Machine.execFaultService
  refine Inv.next ?_
  split
  · exact h
  · split
    · exact h
    · split
      · exact h.setSheaf
      · exact h.setSheaf
      · exact h.serviced
      · exact Inv.ite h.healRead.serviced h.serviced
      · exact h.serviced
      · exact h.serviced
      · exact h.serviced

theorem Inv.execDriverAnswer {mapped : Bool} {hwm : Nat} {tables : List (Nat × Nat)} (h : Inv s) :
    OutInv (execDriverAnswer sheaf mapped hwm tables s) := by
  unfold Machine.execDriverAnswer
  refine Inv.next ?_
  split
  · exact h
  · split
    · exact h
    · exact Inv.ite h.serviced ((Inv.ite h.writeTables.updContext h.writeTables).serviced)

theorem Inv.execStreamElementFetch {q : Nat} (h : Inv s) : OutInv (execStreamElementFetch sheaf q s) := by
  unfold Machine.execStreamElementFetch
  refine Inv.next ?_
  split
  · exact h
  · dsimp only
    split
    · exact h
    · split
      · exact h.updSheaf.metMalformed
      · exact h.updSheaf.charge

theorem Inv.endLate (h : Inv s) : Inv (s.endLate id f lanes) := by
  unfold State.endLate
  split
  · exact h.beginService
  · exact h.commit.frame.updSheaf

theorem Inv.execYParkEnd (h : Inv s) : OutInv (execYParkEnd sheaf s) := by
  unfold Machine.execYParkEnd
  refine Inv.next ?_
  split
  · exact h
  · split
    · exact h
    · exact Inv.ite h ((h.setSheaf.foldl fun _ _ ht => ht.endLate).updSheaf)

/-! ### The quadrants -/

theorem Inv.tick (h : Inv s) : Inv s.tick := h.frame.stepMills

theorem Inv.cullSheaf (h : Inv s) : Inv (s.cullSheaf id) := by
  unfold State.cullSheaf
  split
  · exact h
  · exact Inv.ite h h.cullLanes

theorem Inv.askFetch (h : Inv s) : Inv (s.askFetch id) := by
  unfold State.askFetch
  split
  · exact h
  · exact h.foldl fun _ _ ht => ht.addMiss.updSheaf

theorem Inv.fireTimers (h : Inv s) : Inv (s.fireTimers id) := by
  unfold State.fireTimers
  split
  · exact h
  · exact h.setSheaf.foldl fun _ _ ht => ht.deliver

theorem Inv.releaseLwait (h : Inv s) : Inv (s.releaseLwait id) := by
  unfold State.releaseLwait
  split
  · exact h
  · exact Inv.ite h h.releaseLanes.releaseLanes

theorem Inv.releaseTraps (h : Inv s) : Inv (s.releaseTraps id) := by
  unfold State.releaseTraps
  split
  · exact h
  · split
    · exact h
    · split
      · exact h.setSheaf.raiseTrap
      · exact h.setSheaf

theorem Inv.pollHwaits (h : Inv s) : Inv (s.pollHwaits id) := by
  unfold State.pollHwaits
  split
  · exact h
  · refine h.foldl (fun _ _ ht => ?_)
    split
    · exact ht
    · split
      · exact ht
      · split
        · exact ht
        · exact ht.releaseLanes
        · exact Inv.ite ht ht.raiseTrap

theorem Inv.pollAll (h : Inv s) : Inv s.pollAll := h.foldl fun _ _ ht => ht.pollHwaits

theorem Inv.serveRegions (h : Inv s) : Inv (s.serveRegions id) := by
  unfold State.serveRegions
  split
  · exact h
  · split
    · exact h
    · refine h.foldl (fun _ _ ht => ?_)
      dsimp only
      split
      · exact ht
      · split
        · exact Inv.ite ht.beginService ht
        · exact ht

theorem Inv.chooseSheaf (h : Inv s) {skip : List (Nat × Mask)} {ids : List Nat} :
    Inv (s.chooseSheaf core quad skip ids) := by
  induction ids generalizing s with
  | nil => exact h
  | cons id rest ih =>
    unfold State.chooseSheaf
    split
    · exact ih h
    · dsimp only
      split
      · exact ih (Inv.setSheaf h)
      · exact h.frame

theorem Inv.withLatch (h : Inv s) {v : Option Latch} {u : Option Cur} : Inv { s with latch := v, cur := u } := h.frame

theorem Inv.chooseAgain (h : Inv s) {l : Latch} {t : Trial} : Inv (s.chooseAgain l t m) := by
  unfold State.chooseAgain
  split
  · exact h.frame
  · exact h.updSheaf.updCore.withLatch.chooseSheaf

theorem Inv.quadrantRun (h : Inv s) : Inv (s.quadrantRun core quad) := by
  unfold State.quadrantRun
  extract_lets ids s1 s2
  have h1 : Inv s1 := h.foldl fun _ _ ht => ht.cullSheaf
  have h2 : Inv s2 := h1.foldl fun _ _ ht =>
    .ite ht.fireTimers ht.fireTimers.releaseLwait.releaseTraps.askFetch.serveRegions
  exact h2.chooseSheaf

theorem Inv.execQuadrantCycle (h : Inv s) : OutInv (execQuadrantCycle core quad s) :=
  Inv.next (.ite h (.ite ((Inv.ite h.tick.pollAll h).frame.quadrantRun) ((Inv.ite h.tick.pollAll h).frame)))

/-! ### Pre-emption -/

theorem Inv.beginSave (h : Inv s) : Inv (s.beginSave core ctx) := by
  unfold State.beginSave
  exact Inv.updCore (h.foldl fun _ _ ht => ht.updSheaf)

theorem Inv.holdRequest (h : Inv s) {isRestore : Bool} : Inv (s.holdRequest core ctx isRestore unit) := h.updCore

theorem Inv.endDrain (h : Inv s) : Inv (s.endDrain id) := by
  unfold State.endDrain
  split
  · exact h
  · exact h.rollback.updSheaf

theorem Inv.execDrainEnd (h : Inv s) : OutInv (execDrainEnd core s) := by
  unfold Machine.execDrainEnd
  refine Inv.next ?_
  split
  · exact h
  · exact Inv.ite h ((h.foldl fun _ _ ht => ht.endDrain).updCore)

theorem Inv.cutMill (h : Inv s) {m : MillWork} : Inv (s.cutMill e m) :=
  Inv.ite h.millEffect.updCore.performed h.updCore.ownTile.refund.updEntry

theorem Inv.cutScan (h : Inv s) {w : ScanWork} : Inv (s.cutScan e w) := Inv.ite h.setUnit.performed h.setUnit.updEntry

theorem Inv.cutCsend (h : Inv s) {a scc : Nat} : Inv (s.cutCsend e a scc) := by
  unfold State.cutCsend
  dsimp only
  split
  · split
    · next e => exact (h.unsend e).updEntry
    · exact h
  · exact Inv.ite h.placeOwn h.placeOwn.updEntry

theorem Inv.saveEntry (h : Inv s) : Inv (s.saveEntry e) := by
  unfold State.saveEntry
  dsimp only
  split
  · exact Inv.ite h.cutMill h.updEntry
  · exact Inv.ite h.cutScan h.updEntry
  · exact h.cutCsend
  · exact Inv.ite h.leaveRing h
  · exact Inv.ite h.updEntry h

theorem Inv.settleSheaf (h : Inv s) : Inv (s.settleSheaf id) := by
  unfold State.settleSheaf
  split
  · exact h
  · exact h.setSheaf.foldl fun _ _ ht => ht.deliver

theorem Inv.saveUnit (h : Inv s) : Inv (s.saveUnit core u) := by
  unfold State.saveUnit
  extract_lets s1
  have h1 : Inv s1 := h.foldl fun t id ht => by
    split
    · exact ht.saveEntry
    · exact ht
  split
  · exact h1
  · exact h1.setUnit.updCore.foldl fun _ _ ht => ht.settleSheaf.updSheaf

theorem Inv.restoreUnit (h : Inv s) : Inv (s.restoreUnit u core) := by
  unfold State.restoreUnit
  split
  · exact h
  · split
    · exact h
    · exact Inv.ite h ((h.setUnit.updCore.dropCache.foldl fun _ _ ht => ht.updCore.updSheaf.updSheaf.cullSheaf).frame)

theorem Inv.tryRestore (h : Inv s) : Inv (s.tryRestore u core) := by
  unfold State.tryRestore
  exact Inv.updCore h.restoreUnit

theorem Inv.loadHeld (h : Inv s) : Inv (s.loadHeld core) := by
  unfold State.loadHeld
  dsimp only
  split
  · exact h
  · exact Inv.ite (h.updCore.foldl fun _ _ ht => ht.tryRestore) h.updCore.beginSave

theorem Inv.dropEnded (h : Inv s) {us : List Nat} : Inv (s.dropEnded us) :=
  (h.dropImages.foldl fun _ _ ht => ht.updUnit).endSweeps.foldl fun _ _ ht => ht.settleJob

theorem Inv.execSaveEnd (h : Inv s) : OutInv (execSaveEnd core s) := by
  unfold Machine.execSaveEnd
  refine Inv.next ?_
  split
  · exact (h.foldl fun _ _ ht => ht.saveUnit).dropEnded.updCore.loadHeld
  · exact h

theorem Inv.execRestore (h : Inv s) : OutInv (execRestore unit core s) := by
  unfold Machine.execRestore
  refine Inv.next ?_
  split
  · split
    · exact Inv.ite h.holdRequest h
    · exact h
  · exact h.tryRestore

theorem Inv.execWatchdogExpiry (h : Inv s) : OutInv (execWatchdogExpiry sheaf s) := by
  unfold Machine.execWatchdogExpiry
  refine Inv.next ?_
  split
  · exact h
  · exact Inv.ite h h.report.endJob

/-! ### Routes -/

theorem Inv.linkChanged (h : Inv s) {link : Nat} {x : Link} : Inv (s.linkChanged link x) := h.frame

theorem Inv.reroute (h : Inv s) : Inv s.reroute := h.frame.frame

/-! ### The host -/

theorem Inv.dropContext (h : Inv s) : Inv (s.dropContext ctx) := by
  unfold State.dropContext
  extract_lets jobs s1 mine s2 units s3
  have h1 : Inv s1 := h.foldl fun _ _ ht => ht.endJob
  have h2 : Inv s2 := h1.foldl fun _ _ ht => ht.cullLanes
  have h3 : Inv s3 := h2.foldl fun _ _ ht => by
    split
    · exact ht.updCore
    · exact ht
  exact h3.frame

theorem Inv.updQueue (h : Inv s) {queue : Nat} {g : SubQueue → SubQueue} : Inv (s.updQueue ctx queue g) := h.frame

theorem Inv.execDoorbellWrite {offset bytes : Nat} {value : DWord} (h : Inv s) :
    OutInv (execDoorbellWrite offset bytes value s) := by
  unfold Machine.execDoorbellWrite
  refine Inv.next ?_
  split
  · exact h.updQueue
  · exact h

theorem Inv.refuseEntry (h : Inv s) : Inv (s.refuseEntry q last) := by
  unfold State.refuseEntry
  dsimp only
  refine Inv.updQueue ?_
  split
  · exact h.report.updPhase
  · exact h.report

theorem Inv.beginPhase (h : Inv s) {incs : List (Nat × Word × Word)} {parts : List Nat} {reach : Word}
    {exported : Nat × Nat} :
    Inv (s.beginPhase q j incs parts reach exported) := by
  unfold State.beginPhase
  dsimp only
  split
  · exact Inv.ite h.refuseEntry (.ite h.updQueue h.frame.frame.updQueue)
  · exact h.frame.frame.frame.updQueue

theorem Inv.createNode (h : Inv s) {e : SubEntry} {span : Option Span} : Inv (s.createNode q e span) := by
  unfold State.createNode
  split
  · exact h.refuseEntry
  · exact Inv.ite h.refuseEntry (.ite h.frame.frame.startNode h.frame.frame)

theorem Inv.endPhase (h : Inv s) {e : SubEntry} : Inv (s.endPhase q e) := by
  unfold State.endPhase
  split
  · exact h.refuseEntry
  · exact Inv.ite h.refuseEntry h.updPhase.updQueue

theorem Inv.execSubmissionEntry {queue : Nat} {incs : List (Nat × Word × Word)} {parts : List Nat} {reach : Word}
    {tables : EntryTables} (h : Inv s) : OutInv (execSubmissionEntry ctx queue incs parts reach tables s) := by
  unfold Machine.execSubmissionEntry
  refine Inv.next ?_
  split
  · exact h
  · have h1 {c k : Nat} {g : SubQueue → SubQueue} : Inv (s.updQueue c k g) := h.updQueue
    exact .ite h (.ite (.ite h1.updQueue h1) (.ite h1.refuseEntry (.ite (.ite h1.refuseEntry h1.beginPhase)
      (.ite h1.endPhase h1.createNode))))

theorem Inv.withMsix (h : Inv s) {v : Store Nat} : Inv { s with msix := v } := h.frame

theorem Inv.execPhaseEndCompletion {phase : Nat} (h : Inv s) : OutInv (execPhaseEndCompletion phase s) := by
  unfold Machine.execPhaseEndCompletion
  refine Inv.next ?_
  split
  · exact h
  · refine .ite h ?_
    extract_lets s1
    have h1 : Inv s1 := by
      unfold s1
      split
      · exact h.store.withMsix
      · exact h
    exact h1.updPhase.progress

theorem Inv.writeFrom (h : Inv s) {data : List (Option Byte)} : Inv (s.writeFrom key data) :=
  h.write.foldl fun _ _ ht => ht.setPoison

theorem Inv.execHostHdmAccess {addr : Nat} {write : Bool} {data : List (Option Byte)} (h : Inv s) :
    OutInv (execHostHdmAccess addr write data s) :=
  Inv.next (.ite (.ite h.writeFrom h) (.ite h ((h.foldl fun _ _ ht => ht.verifyLine).frame)))

theorem Inv.peerDo (h : Inv s0) {x y : DWord} : Inv (s0.peerDo key op size x y).1 := by
  unfold State.peerDo
  extract_lets keys s old put
  have hs : Inv s := h.foldl fun _ _ ht => ht.verifyLine
  split
  · exact hs.write
  · split
    · exact hs.writeFrom
    · split
      · exact hs
      · split
        · exact hs
        · exact hs.write

theorem Inv.dropReply (h : Inv s) {p : HeldReply → Bool} : Inv (s.dropReply src seq p) := h.frame

theorem Inv.execPeerRequest {offset : Nat} {x y : DWord} (h : Inv s) :
    OutInv (execPeerRequest src seq job offset op size x y s) := by
  unfold Machine.execPeerRequest
  refine Inv.next ?_
  split
  · exact h.dropReply
  · split
    · exact h
    · extract_lets good
      split
      next t v cause e =>
      refine Inv.progress (Inv.frame (s := t) ?_)
      split at e
      · cases e
        exact h
      · split at e
        · cases e
          exact h
        · split at e
          · cases e
            exact h
          · exact h.peerDo.of_fst e

theorem Inv.execRouteRecompute {link : Nat} {loss : RouteLoss} (h : Inv s) : OutInv (execRouteRecompute link loss s) :=
  Inv.next (.ite h ((Inv.ite h h.linkChanged).frame.reroute.foldl fun _ _ ht => ht.updJob))

theorem Inv.loseReplies (h : Inv s) : Inv (s.loseReplies id peer op) := by
  unfold State.loseReplies
  split
  · exact h
  · split
    · exact h
    · exact h.updSheaf.report

theorem Inv.execPeerUnreachable (h : Inv s) : OutInv (execPeerUnreachable peer s) :=
  Inv.next (.ite h (h.frame.foldl fun _ _ ht => ht.foldl fun _ _ hu => hu.loseReplies))

theorem Inv.execRemoteStoreFailure (h : Inv s) : OutInv (execRemoteStoreFailure id cause s) := by
  unfold Machine.execRemoteStoreFailure
  refine Inv.next ?_
  split
  · exact h
  · exact h.frame.report

theorem Inv.execRdmaCompletion {data : List Byte} (h : Inv s) : OutInv (execRdmaCompletion id data s) := by
  unfold Machine.execRdmaCompletion
  refine Inv.next ?_
  split
  · exact h
  · split
    · split
      · exact h.chargeMove.endCopy
      · split
        · exact h
        · dsimp only
          split
          · exact h.updEntry
          · exact h.putOutput.chargeMove.endCopy

theorem Inv.execNak {answer : NakAnswer} (h : Inv s) : OutInv (execNak id answer s) := by
  unfold Machine.execNak
  refine Inv.next ?_
  split
  · exact h
  · exact h.putOutput.endCopy

theorem Inv.rehome (h : Inv s) : Inv (s.rehome j die) := Inv.ite h h.frame.updJob.stampSweep

theorem Inv.setMatrixField (h : Inv s) {field v : Nat} : Inv (s.setMatrixField key field v) := by
  unfold State.setMatrixField
  dsimp only
  split
  · exact h
  · split
    · exact h.store
    · exact h.store
    · exact h.store
    · exact h

theorem Inv.execRegisterWrite {value : DWord} (h : Inv s) : OutInv (execRegisterWrite reg value s) := by
  unfold Machine.execRegisterWrite
  refine Inv.next ?_
  dsimp only
  obtain ⟨hdrain, hwdog, hpeer, hage, hscrub, hhdm⟩ := PkgRegs.ok_iff.1 h.regs
  split
  · exact h.putRegs fun hv => PkgRegs.ok_iff.2 ⟨of_decide_eq_true hv, hwdog, hpeer, hage, hscrub, hhdm⟩
  · exact h.putRegs fun hv => PkgRegs.ok_iff.2 ⟨hdrain, hv, hpeer, hage, hscrub, hhdm⟩
  · exact h.putRegs fun hv => PkgRegs.ok_iff.2 ⟨hdrain, hwdog, of_decide_eq_true hv, hage, hscrub, hhdm⟩
  · exact h.putRegs fun hv => PkgRegs.ok_iff.2 ⟨hdrain, hwdog, hpeer, of_decide_eq_true hv, hscrub, hhdm⟩
  · exact h.putRegs fun hv => PkgRegs.ok_iff.2 ⟨hdrain, hwdog, hpeer, hage, of_decide_eq_true hv, hhdm⟩
  · exact ⟨h.mem, PkgRegs.ok_iff.2 ⟨hdrain, hwdog, hpeer, hage, hscrub, hhdm⟩⟩
  · exact .ite h.frame h
  · exact .ite h.updContext (.ite h.updCore (.ite h.frame (.ite h.setMatrixField (.ite h.rehome h))))

/-! ### Censuses and migration -/

theorem Inv.setRec (h : Inv s) {v : Nat} : Inv (s.setRec key off n v) := h.store

theorem Inv.setMstate (h : Inv s) {state : Nat} : Inv (s.setMstate key state) := h.setRec

theorem Inv.setMcause (h : Inv s) : Inv (s.setMcause key cause) := h.setRec

theorem Inv.notify (h : Inv s) : Inv (s.notify key) := h.putCensus

theorem Inv.execFallowSweepEnd (h : Inv s) : OutInv (execFallowSweepEnd rec s) := by
  unfold Machine.execFallowSweepEnd
  refine Inv.next ?_
  split
  · split
    · exact h
    · split
      · split
        · exact h.censusAtomic.putCensus
        · exact h
      · exact h.setRec.putCensus.notify
  · exact h

theorem Inv.withCensusQueue (h : Inv s) {v : List (Nat × Nat)} : Inv { s with censusQueue := v } := h.frame

theorem Inv.stage (h : Inv s) {map : List Nat} : OptInv (s.stage key ctx smap mlist map rows) := by
  unfold State.stage
  refine .ite .none ?_
  split
  · exact OptInv.none
  · next e =>
      split
      · exact OptInv.none
      · next e' => exact ((h.writeVa e).writeVa e').setRec.setRec.setRec.withCensusQueue.some

theorem Inv.execCensusRanking (h : Inv s) : OutInv (execCensusRanking rec smap mlist s) := by
  unfold Machine.execCensusRanking
  refine Inv.next ?_
  split
  · split
    · exact h
    · split
      · exact h
      · dsimp only
        split
        · exact h.putCensus
        · split
          · next e => exact (h.stage e).putCensus
          · exact h
  · exact h

theorem Inv.relist (h : Inv s) {c : Census} {m : MatrixRec} : Inv (s.relist rec c m) := by
  unfold State.relist
  split
  · exact h
  · split
    · exact h
    · dsimp only
      split
      · next e => exact (h.stage e).putCensus
      · exact h

theorem Inv.execColdChangeReport (h : Inv s) : OutInv (execColdChangeReport rec smap mlist rows s) := by
  unfold Machine.execColdChangeReport
  refine Inv.next ?_
  split
  · exact Inv.ite h h.putCensus.relist
  · exact h

theorem Inv.execMigrationCommand (h : Inv s) : OutInv (execMigrationCommand rec ctx s) :=
  Inv.next (.ite h (.ite h.frame (.ite h.frame.setMcause h.frame.setMcause.setMstate.setRec.putCensus)))

theorem Inv.leaveMigration (h : Inv s) : Inv (s.leaveMigration key) := h.putCensus

theorem Inv.failMigration (h : Inv s) : Inv (s.failMigration key cause) := h.setMcause.setMstate.leaveMigration.notify

theorem Inv.copyEntry (h : Inv s) {c : Census} {m : MatrixRec} : MigrationStepInv (s.copyEntry key c m) := by
  unfold State.copyEntry
  dsimp only
  split
  · exact trivial
  · split
    · exact trivial
    · split
      · exact trivial
      · split
        · exact trivial
        · next e => exact (h.writeVa e).charge.putCensus

theorem Inv.copyListed (h : Inv s) {c : Census} {m : MatrixRec} {i : Nat} :
    MigrationStepInv (s.copyListed key c m i) := by
  unfold State.copyListed
  dsimp only
  split
  · exact trivial
  · split
    · exact trivial
    · split
      · exact trivial
      · split
        · exact trivial
        · split
          · exact trivial
          · split
            · exact trivial
            · next e => exact (h.writeVa e).setRec.charge

theorem Inv.migrateStep (h : Inv s) {c : Census} {m : MatrixRec} : MigrationStepInv (s.migrateStep key c m) :=
  MigrationStepInv.ite h.copyEntry (MigrationStepInv.ite h.copyListed h.setMstate)

theorem Inv.execMigrationCopy (h : Inv s) : OutInv (execMigrationCopy rec s) := by
  unfold Machine.execMigrationCopy
  refine Inv.next ?_
  split
  · extract_lets st
    refine .ite h (.ite (.ite h h.setMstate) (.ite h (.ite (.ite h.putCensus h) ?_)))
    split
    next e =>
    extract_lets s1
    have h1 : Inv s1 := (h.freeCycles.of_snd e).charge
    split
    · next e => exact h1.migrateStep.went e
    · exact h1.failMigration
    · exact .ite h1.healWords h1.failMigration
  · exact h

/-! ### Lane-crossing words -/

theorem Inv.redWrite (h : Inv s) {t : BitVec 3} {g : Nat → DWord} : Inv (s.redWrite c d t g) :=
  Inv.ite h.result64 h.result

theorem Inv.execShfl {b : BitVec 7} (h : Inv s) : OutInv (execShfl y g d a b s) := by
  unfold Machine.execShfl
  refine h.issueWord (fun _ _ ht => ?_)
  dsimp only
  split
  · exact trivial
  · exact Inv.ite ht.result64 ht.result

/-! ### Power, integrity and trust -/

theorem Inv.execDvfSetPoint (h : Inv s) : OutInv (execDvfSetPoint die value s) :=
  Inv.next (.ite h (.ite h.setDie (.ite h.setDie (.ite h.setDie (.ite h.setDie h.setDie)))))

theorem Inv.wipeDie (h : Inv s) {d : Nat} : Inv (s.wipeDie d) := (h.foldl fun _ _ ht => ht.updCore).setDie

theorem Inv.execDvfGate (h : Inv s) : OutInv (execDvfGate die value s) :=
  Inv.next (.ite h (.ite h.setDie (.ite h.setDie (.ite h.setDie (.ite h.setDie (.ite h.setDie h.setDie))))))

theorem Inv.execDvfWake (h : Inv s) : OutInv (execDvfWake die value s) :=
  Inv.next (.ite h (.ite h.setDie (.ite h (.ite h.setDie h.setDie))))

theorem Inv.upset (h : Inv s) {line kind : Nat} : Inv (s.upset line kind) := by
  unfold State.upset
  split
  · exact h.updUnit
  · exact h.updSheaf
  · exact h.updCore
  · exact h.updCore
  · exact h.updLaunch
  · exact h

theorem Inv.askMove (h : Inv s) {row : DWord} : Inv (s.askMove row) := Inv.ite h h.frame

theorem Inv.rowError (h : Inv s) : Inv (s.rowError line) := Inv.ite h.frame.askMove h.frame

theorem Inv.execScrubPass {kind : Nat} (h : Inv s) : OutInv (execScrubPass line kind s) := by
  unfold Machine.execScrubPass
  exact Inv.next (.ite h.frame (.ite h.frame (.ite h.upset (.ite h (.ite h.rowError (.ite (.ite h.frame h)
    (.ite h.setPoison.askMove h)))))))

theorem Inv.execCoreFailure (h : Inv s) : OutInv (execCoreFailure core s) :=
  Inv.next (.ite h (h.frame.updCore.foldl fun _ _ ht => .ite ht.holdRequest ht.beginSave))

theorem Inv.execModuleReset (h : Inv s) : OutInv (execModuleReset s) := Inv.next ⟨Memory.wf_filter _ h.mem, rfl⟩

theorem Inv.boot (h : Inv s) {i : FwImage} : Inv (s.boot i) := by
  obtain ⟨hdrain, hwdog, hpeer, hage, hscrub, -⟩ := PkgRegs.ok_iff.1 h.regs
  exact ⟨h.mem, PkgRegs.ok_iff.2 ⟨hdrain, hwdog, hpeer, hage, hscrub, Nat.min_le_left _ _⟩⟩

theorem Inv.execBootImageLoad {bank : Nat} (h : Inv s) : OutInv (execBootImageLoad bank s) := by
  unfold Machine.execBootImageLoad
  refine Inv.next ?_
  dsimp only
  split
  · exact h
  · split
    · exact Inv.ite h.boot h.frame
    · exact h.frame

theorem Inv.answer (h : Inv s) {stage : SpdmStage} {req ans : List Nat} : Inv (s.answer stage req ans) := h.frame

theorem Inv.execGetMeasurements {index nonce : Nat} (h : Inv s) : OutInv (execGetMeasurements index nonce s) := by
  unfold Machine.execGetMeasurements
  refine Inv.next ?_
  split
  · exact Inv.ite h.answer h
  · exact h

/-! ### The front of issue -/

theorem Inv.fetchFault (h : Inv s) : Inv (s.fetchFault f lanes pc) := h.report.endJob

theorem Inv.badXmod (h : Inv s) : Inv (s.badXmod id lanes job) := h.updSheaf.progress

theorem Inv.rawIssue (h : Inv s) : Inv (s.rawIssue c sh) := by
  unfold State.rawIssue
  dsimp only
  split
  · exact h.beginService
  · exact Inv.ite h (.ite h.advance.conclude h.emulWord)

theorem Inv.withCur (h : Inv s) {v : Option Cur} : Inv { s with cur := v } := h.frame

theorem Inv.frontTail (h : Inv s) {l : Latch} {endl : DWord} : FrontInv (s.frontTail l m endl) := by
  unfold State.frontTail
  extract_lets after s1
  have ha (tail : Option (Mask × DWord)) : Inv (after tail) := h.frame
  clear_value after
  have h1 : Inv s1 := ha none
  split
  · exact h1
  · extract_lets lanes
    split
    · exact h1
    · refine .ite h1 ?_
      split
      · exact (ha _).withCur
      · exact h1

theorem Inv.frontWord {s1 : State} (h : Inv s1) {l : Latch} : FrontInv (s1.frontWord l m) := by
  unfold State.frontWord
  split
  · exact h
  · extract_lets lanes
    split
    · exact h
    · split
      · exact h.fetchFault
      · split
        · exact h.withCur
        · exact FrontInv.ite h.badXmod h.rawIssue

/-! ### The words and events that one of the lemmas above settles -/

theorem Inv.execRcp (h : Inv s) : OutInv (execRcp y g d a s) := h.sfuWord

theorem Inv.execRsq (h : Inv s) : OutInv (execRsq y g d a s) := h.sfuWord

theorem Inv.execSqrt (h : Inv s) : OutInv (execSqrt y g d a s) := h.sfuWord

theorem Inv.execEx2 (h : Inv s) : OutInv (execEx2 y g d a s) := h.sfuWord

theorem Inv.execLg2 (h : Inv s) : OutInv (execLg2 y g d a s) := h.sfuWord

theorem Inv.execSin (h : Inv s) : OutInv (execSin y g d a s) := h.sfuWord

theorem Inv.execCos (h : Inv s) : OutInv (execCos y g d a s) := h.sfuWord

theorem Inv.execTanh (h : Inv s) : OutInv (execTanh y g d a s) := h.sfuWord

theorem Inv.execCvti {k : BitVec 2} {t : BitVec 5} (h : Inv s) : OutInv (execCvti y g d a k t s) :=
  h.issueWord (fun _ _ ht => Inv.ite ht.result64 ht.result)

theorem Inv.execCvtf {k : BitVec 2} {t : BitVec 5} (h : Inv s) : OutInv (execCvtf y g d a k t s) :=
  h.issueWord (fun _ _ ht => Inv.ite ht.result64 ht.result)

theorem Inv.execQblk {k : BitVec 4} {t : BitVec 3} (h : Inv s) : OutInv (execQblk y g d a k t s) :=
  h.issueWord (fun _ _ ht => .ite trivial ht.updSheaf)

theorem Inv.execEret (h : Inv s) : OutInv (execEret g s) := h.issueWord (fun _ _ ht => .ite trivial ht.updSheaf)

theorem Inv.execBndcfg (h : Inv s) : OutInv (execBndcfg y g a s) :=
  h.issueWord (fun _ _ ht => .ite trivial ht.updSheaf)

theorem Inv.execFcmp {cond : BitVec 4} {p : BitVec 3} {a b : BitVec 7} (h : Inv s) :
    OutInv (execFcmp y g cond p a b s) :=
  h.issueWord (fun _ _ ht => ht.resultPred)

theorem Inv.execPlop {g p q r : BitVec 3} {t : BitVec 4} (h : Inv s) : OutInv (execPlop y g p q r t s) :=
  h.issueWord (fun _ _ ht => ht.resultPred)

theorem Inv.execPmovP {g p : BitVec 3} (h : Inv s) : OutInv (execPmovP y g p a s) :=
  h.issueWord (fun _ _ ht => ht.resultPred)

theorem Inv.execVoteAll {g p q : BitVec 3} (h : Inv s) : OutInv (execVoteAll y g p q s) :=
  h.issueWord (fun _ _ ht => ht.resultPred)

theorem Inv.execVoteAny {g p q : BitVec 3} (h : Inv s) : OutInv (execVoteAny y g p q s) :=
  h.issueWord (fun _ _ ht => ht.resultPred)

theorem Inv.execVoteUni {g p : BitVec 3} (h : Inv s) : OutInv (execVoteUni y g p a s) :=
  h.issueWord (fun _ _ ht => ht.resultPred)

theorem Inv.execPmovS (h : Inv s) : OutInv (execPmovS y g a s) :=
  h.issueWord (fun _ _ ht => ht.foldl fun _ _ hu => hu.resultPred)

theorem Inv.execSched {w : BitVec 12} {p q r t : BitVec 3} (h : Inv s) : OutInv (execSched w p q r t s) := h.issueHint

theorem Inv.execLimm {i : BitVec 24} (h : Inv s) : OutInv (execLimm i s) := h.issueHint

theorem Inv.execXmod {f c : BitVec 4} {v : Bool} {o : BitVec 3} {p : BitVec 2} {m : BitVec 4} (h : Inv s) :
    OutInv (execXmod f c v o p m s) :=
  h.issueHint

theorem Inv.execExit (h : Inv s) : OutInv (execExit g s) := h.issueWord (fun _ _ ht => ht.updSheaf)

theorem Inv.execBndset (h : Inv s) : OutInv (execBndset y g a s) := h.issueWord (fun _ _ ht => ht.updSheaf)

theorem Inv.execRdclkCyc (h : Inv s) : OutInv (execRdclkCyc y g d s) := h.issueWord (fun _ _ ht => ht.result64)

theorem Inv.execRdclkNs (h : Inv s) : OutInv (execRdclkNs y g d s) := h.issueWord (fun _ _ ht => ht.result64)

theorem Inv.execBra {i : BitVec 7} (h : Inv s) : OutInv (execBra y g i s) := h.issueWord (fun _ _ ht => ht.branch)

theorem Inv.execCall {d i : BitVec 7} (h : Inv s) : OutInv (execCall y g d i s) :=
  h.issueWord (fun _ _ ht => ht.result64.branch)

theorem Inv.execRet (h : Inv s) : OutInv (execRet y g a s) := h.issueWord (fun _ _ ht => .ite trivial ht.branch)

theorem Inv.execBrx {a b : BitVec 7} (h : Inv s) : OutInv (execBrx y g a b s) :=
  h.issueWord (fun _ _ ht => .ite trivial ht.branch)

theorem Inv.execJoin (h : Inv s) : OutInv (execJoin y g s) := h.issueWord (fun _ _ ht => ht)

theorem Inv.execJoinM (h : Inv s) : OutInv (execJoinM y g a s) := h.issueWord (fun _ _ ht => ht)

theorem Inv.execFence {m : BitVec 4} {k7 : Bool} {k : BitVec 7} (h : Inv s) : OutInv (execFence y g m k7 k s) :=
  h.issueWord (fun _ _ ht => ht)

theorem Inv.execLwait {f : BitVec 4} (h : Inv s) : OutInv (execLwait y g f s) :=
  h.issueWord (fun _ _ ht => ht.holdLanes)

theorem Inv.execBar {m : BitVec 4} (h : Inv s) : OutInv (execBar y m s) := h.issueWord (fun _ _ ht => ht.holdLanes)

theorem Inv.execPrf {m : Bool} (h : Inv s) : OutInv (execPrf y g a m s) :=
  h.issueWord (fun _ _ ht => ht.foldl fun _ _ hu => hu.prefetch)

theorem Inv.execHwaitFree {h : BitVec 7} (hs : Inv s) : OutInv (execHwaitFree y g h s) := hs.hwaitWord

theorem Inv.execHwaitFull {h : BitVec 7} (hs : Inv s) : OutInv (execHwaitFull y g h s) := hs.hwaitWord

theorem Inv.execHstat {d h : BitVec 7} (hs : Inv s) : OutInv (execHstat y g d h s) :=
  hs.issueWord (fun _ _ ht => .ite trivial ht.frame.later)

theorem Inv.execQfence {m : BitVec 2} {k : BitVec 7} (h : Inv s) : OutInv (execQfence y g m k s) :=
  h.issueWord (fun _ _ ht => ht.foldl fun _ _ hu => hu.push)

theorem Inv.execQmv (h : Inv s) : OutInv (execQmv y g d a s) := h.productWord

theorem Inv.execRjoin (h : Inv s) : OutInv (execRjoin y g a s) := h.productWord

theorem Inv.execScfg {g n : BitVec 3} {w : BitVec 2} (h : Inv s) : OutInv (execScfg y g n w s) :=
  h.issueWord (fun _ _ ht => ht.updSheaf.later)

theorem Inv.execCsend (h : Inv s) : OutInv (execCsend y g a s) := h.chainWord

theorem Inv.execCbar (h : Inv s) : OutInv (execCbar y g d s) := h.issueWord (fun _ _ ht => .ite trivial ht.push)

theorem Inv.execGrow (h : Inv s) : OutInv (execGrow y g d a s) :=
  h.issueWord (fun _ _ ht => .ite trivial ht.frame.frame)

theorem Inv.execIncup {p : Bool} {n : BitVec 4} (h : Inv s) : OutInv (execIncup y g d a p n s) :=
  h.issueWord (fun _ _ ht => .ite trivial ht.frame.frame)

theorem Inv.execCwait {g l : BitVec 3} (h : Inv s) : OutInv (execCwait y g l s) :=
  h.issueWord (fun _ _ ht => .ite ht.dropCache ht.holdLanes)

theorem Inv.execCancel {g l : BitVec 3} (h : Inv s) : OutInv (execCancel y g l s) :=
  h.issueWord (fun _ _ ht => ht.cancelSweep.frame.endSweeps)

theorem Inv.execQpop {m : BitVec 2} (h : Inv s) : OutInv (execQpop y g d a m s) := h.queueWord

theorem Inv.execRed {o t : BitVec 3} (h : Inv s) : OutInv (execRed y g d a o t s) :=
  h.issueWord (fun _ _ ht => ht.redWrite)

theorem Inv.execScanl {o : BitVec 3} {x : Bool} {t : BitVec 3} (h : Inv s) : OutInv (execScanl y g d a o x t s) :=
  h.issueWord (fun _ _ ht => ht.redWrite)

theorem Inv.withTranslations (h : Inv s) {v : List TlbEntry} {w : List Miss} : Inv { s with tlbs := v, misses := w } :=
  h.frame

theorem Inv.execGatingDone (h : Inv s) : OutInv (execGatingDone die s) := by
  unfold Machine.execGatingDone
  exact Inv.next (.ite h.wipeDie.setDie.withTranslations h)

theorem Inv.withSpdm (h : Inv s) {v : Spdm} : Inv { s with spdm := v } := h.frame

theorem Inv.execKeyExchange {pub : Nat} (h : Inv s) : OutInv (execKeyExchange pub s) := by
  unfold Machine.execKeyExchange
  refine Inv.next (.ite ?_ h)
  extract_lets t
  have ht : Inv t := h.answer
  exact ht.frame

theorem Inv.withKeys (h : Inv s) {v : List Nat} : Inv { s with ideKeys := v } := h.frame

theorem Inv.execFinish {verify : Nat} (h : Inv s) : OutInv (execFinish verify s) := by
  unfold Machine.execFinish
  exact Inv.next (.ite h.answer.withKeys h)

theorem Inv.execEndSession (h : Inv s) : OutInv (execEndSession s) := by
  unfold Machine.execEndSession
  exact Inv.next (.ite h.answer.withSpdm h)

/-! ### A step -/

/-- Whatever is executed, an instruction or an event, keeps the invariant. -/
theorem Inv.exec (h : Inv s) : OutInv (exec i s) := by
  cases i with
  | iadd | isub | iaddi | imul | imulh | imad | imin | imax | and | or | xor | andn | shl | shr | sar | mov | sel
    | bcast => exact h.laneForm
  | bfe | bfi | popc | clz | ctz | brev | bswap | idot4 | fmul | fmin | fmax | fabs | fneg | fnabs | fcls | fdot2
    | frnd | fscl | cvtb | cvts | pack | unpk | pmovV | pmovM | voteBallot | conf => exact h.lane32
  | lea | imadw => exact h.lane64
  | fadd | fsub | ffma => exact h.fpWord
  | icmp | icmpi => exact h.icmpWord
  | ld | ldv | lds => exact h.loadWord
  | st | stv | stq => exact h.storeWord
  | atom | cas | atomf | atst => exact h.atomWord
  | mma | mmas | mmab | azero => exact h.millWord
  | crecv => exact h.chainWord
  | jobEnd => exact Inv.next (.ite h.cancelJob h.endJob.settleJob)
  | qpush => exact h.queueWord
  | storeTranslated => exact Inv.next (.ite h (h.foldl fun _ _ ht => ht.translateEntry))
  | replayLimit => exact h.updSheaf.next
  | trapEntry => exact h.tryTrap.next
  | saveRequest => exact Inv.next (.ite h (.ite h.holdRequest h.beginSave))
  | budgetPeriod | contextCreate | submissionQueueCreate | capabilityPublish | congestionNotificationPacket
    | hbmRowRetire => exact Inv.next (.ite h h.frame)
  | contextDestroy => exact Inv.next (.ite h h.dropContext)
  | queuePairCreate => exact Inv.next (.ite h h.updContext)
  | replyHoldExpiry => exact h.dropReply.next
  | linkRetrain => exact Inv.next (.ite h h.linkChanged)
  | matrixRecordRegistration => exact h.updCensus.next
  | migrationInstant => exact Inv.next (.ite h h.setRec.setMstate.leaveMigration)
  | pointChangeDone => exact Inv.next (.ite h.setDie h)
  | thermalThrottle | throttleRelease => exact Inv.next (.ite h h.setDie)
  | wakeDone => exact Inv.next (.ite h.wipeDie.setDie h)
  | repairRecordWrite => exact Inv.next (.ite h.frame h)
  | recoveryImageDoe => exact Inv.next (.ite h.boot h)
  | getVersion => exact h.frame.answer.next
  | getCapabilities | negotiateAlgorithms | getDigests | getCertificate | challenge => exact Inv.next (.ite h.answer h)
  | rcp => exact h.execRcp
  | rsq => exact h.execRsq
  | sqrt => exact h.execSqrt
  | ex2 => exact h.execEx2
  | lg2 => exact h.execLg2
  | sin => exact h.execSin
  | cos => exact h.execCos
  | tanh => exact h.execTanh
  | cvti => exact h.execCvti
  | cvtf => exact h.execCvtf
  | qblk => exact h.execQblk
  | eret => exact h.execEret
  | bndcfg => exact h.execBndcfg
  | fcmp => exact h.execFcmp
  | plop => exact h.execPlop
  | pmovP => exact h.execPmovP
  | voteAll => exact h.execVoteAll
  | voteAny => exact h.execVoteAny
  | voteUni => exact h.execVoteUni
  | pmovS => exact h.execPmovS
  | sched => exact h.execSched
  | limm => exact h.execLimm
  | xmod => exact h.execXmod
  | exit => exact h.execExit
  | bndset => exact h.execBndset
  | rdclkCyc => exact h.execRdclkCyc
  | rdclkNs => exact h.execRdclkNs
  | bra => exact h.execBra
  | call => exact h.execCall
  | ret => exact h.execRet
  | brx => exact h.execBrx
  | join => exact h.execJoin
  | joinM => exact h.execJoinM
  | fence => exact h.execFence
  | lwait => exact h.execLwait
  | bar => exact h.execBar
  | prf => exact h.execPrf
  | hwaitFree => exact h.execHwaitFree
  | hwaitFull => exact h.execHwaitFull
  | hstat => exact h.execHstat
  | qfence => exact h.execQfence
  | qmv => exact h.execQmv
  | rjoin => exact h.execRjoin
  | scfg => exact h.execScfg
  | csend => exact h.execCsend
  | cbar => exact h.execCbar
  | grow => exact h.execGrow
  | incup => exact h.execIncup
  | cwait => exact h.execCwait
  | cancel => exact h.execCancel
  | qpop => exact h.execQpop
  | red => exact h.execRed
  | scanl => exact h.execScanl
  | gatingDone => exact h.execGatingDone
  | keyExchange => exact h.execKeyExchange
  | finish => exact h.execFinish
  | endSession => exact h.execEndSession
  | rdx => exact h.execRdx
  | wrx => exact h.execWrx
  | movsRd => exact h.execMovsRd
  | movsWr => exact h.execMovsWr
  | shi => exact h.execShi
  | shfl => exact h.execShfl
  | loop => exact h.execLoop
  | endl => exact h.execEndl
  | qrd => exact h.execQrd
  | qwr => exact h.execQwr
  | mclaim => exact h.execMclaim
  | mrel => exact h.execMrel
  | mbind => exact h.execMbind
  | amovRd => exact h.execAmovRd
  | amovWr => exact h.execAmovWr
  | acvt => exact h.execAcvt
  | copy => exact h.execCopy
  | gather => exact h.execGather
  | sbind => exact h.execSbind
  | stream => exact h.execStream
  | streamPost => exact h.execStreamPost
  | hrel => exact h.execHrel
  | scan => exact h.execScan
  | spawn => exact h.execSpawn
  | incrd => exact h.execIncrd
  | moduleReset => exact h.execModuleReset
  | bootImageLoad => exact h.execBootImageLoad
  | quadrantCycle => exact h.execQuadrantCycle
  | yParkEnd => exact h.execYParkEnd
  | loadReply => exact h.execLoadReply
  | tlbWalk => exact h.execTlbWalk
  | tlbInvalidation => exact h.execTlbInvalidation
  | faultService => exact h.execFaultService
  | driverAnswer => exact h.execDriverAnswer
  | streamElementFetch => exact h.execStreamElementFetch
  | copyStart => exact h.execCopyStart
  | copyComplete => exact h.execCopyComplete
  | copySlowPath => exact h.execCopySlowPath
  | ringChunkStart => exact h.execRingChunkStart
  | qfencePass => exact h.execQfencePass
  | mbindStart => exact h.execMbindStart
  | mrelStart => exact h.execMrelStart
  | millOpStart => exact h.execMillOpStart
  | millOpRetire => exact h.execMillOpRetire
  | qmvStart => exact h.execQmvStart
  | quernRow => exact h.execQuernRow
  | rjoinStart => exact h.execRjoinStart
  | fallowSweepEnd => exact h.execFallowSweepEnd
  | censusRanking => exact h.execCensusRanking
  | migrationCommand => exact h.execMigrationCommand
  | migrationCopy => exact h.execMigrationCopy
  | scanStart => exact h.execScanStart
  | scanPerformed => exact h.execScanPerformed
  | csendStart => exact h.execCsendStart
  | carryPlaced => exact h.execCarryPlaced
  | crecvTake => exact h.execCrecvTake
  | roundComplete => exact h.execRoundComplete
  | spawnArrival => exact h.execSpawnArrival
  | unitAdmission => exact h.execUnitAdmission
  | unitComplete => exact h.execUnitComplete
  | nodeComplete => exact h.execNodeComplete
  | remoteEnqueueReceive => exact h.execRemoteEnqueueReceive
  | remoteEnqueueAck => exact h.execRemoteEnqueueAck
  | jobCompletionSweep => exact h.execJobCompletionSweep
  | queueWordAtHome => exact h.execQueueWordAtHome
  | popDelivery => exact h.execPopDelivery
  | barrierComplete => exact h.execBarrierComplete
  | cwaitRelease => exact h.execCwaitRelease
  | incumbentCommit => exact h.execIncumbentCommit
  | incupReply => exact h.execIncupReply
  | incrdRootReply => exact h.execIncrdRootReply
  | crierReplicaUpdate => exact h.execCrierReplicaUpdate
  | crierForward => exact h.execCrierForward
  | watchdogExpiry => exact h.execWatchdogExpiry
  | drainEnd => exact h.execDrainEnd
  | saveEnd => exact h.execSaveEnd
  | restore => exact h.execRestore
  | doorbellWrite => exact h.execDoorbellWrite
  | submissionEntry => exact h.execSubmissionEntry
  | phaseEndCompletion => exact h.execPhaseEndCompletion
  | hostHdmAccess => exact h.execHostHdmAccess
  | peerRequest => exact h.execPeerRequest
  | routeRecompute => exact h.execRouteRecompute
  | peerUnreachable => exact h.execPeerUnreachable
  | remoteStoreFailure => exact h.execRemoteStoreFailure
  | rdmaCompletion => exact h.execRdmaCompletion
  | dvfSetPoint => exact h.execDvfSetPoint
  | dvfGate => exact h.execDvfGate
  | dvfWake => exact h.execDvfWake
  | scrubPass => exact h.execScrubPass
  | coreFailure => exact h.execCoreFailure
  | getMeasurements => exact h.execGetMeasurements
  | registerWrite => exact h.execRegisterWrite
  | recordReachableAgain => exact h.execRecordReachableAgain
  | coldChangeReport => exact h.execColdChangeReport
  | nak => exact h.execNak

theorem Inv.notReady (h : Inv s) {l : Latch} : OptInv (s.notReady l m) := by
  unfold State.notReady
  dsimp only
  split
  · exact OptInv.none
  · next e => exact .ite (h.updSheaf.frontWord.went e).some OptInv.none
  · next e =>
      split
      · next e' => exact .ite ((h.updSheaf.frontWord.issue e).exec e').some OptInv.none
      · exact OptInv.none

theorem Inv.tryLatch (h : Inv s) {l : Latch} {t : Trial} : Inv (s.tryLatch l t) := by
  unfold State.tryLatch
  split
  · next e =>
      obtain ⟨m, -, hm⟩ := List.exists_of_findSome?_eq_some e
      obtain ⟨u, hu, ⟨⟩⟩ := Option.map_eq_some_iff.1 hm
      exact (h.notReady hu).chooseAgain
  · exact h.frame

theorem Inv.front (h : Inv s) : FrontInv s.front := by
  unfold State.front
  split
  · exact trivial
  · split
    · exact h.tryLatch
    · split
      · exact h.frontTail
      · split
        · exact h.frame
        · exact h.frame.frontWord

/-- A step keeps the invariant. -/
theorem Inv.step (h : Inv s) : OutInv (step s) := by
  unfold Machine.step
  split
  · next e => exact (h.front.went e).next
  · next e => exact (h.front.issue e).exec
  · dsimp only
    split
    · exact h.frame.exec
    · exact h.frame.exec

end

/-- Settles O58: whatever a step executes is made of operations that keep the invariant. -/
theorem stepKeepsInvariant : Obligations.StepKeepsInvariant := fun _ _ h e => h.step e

/-! ### Reset -/

/-- The invariant holds after reset. -/
theorem Inv.reset : Inv State.reset := ⟨Memory.wf_reset, rfl⟩

/-- Settles O57: the registers have their reset values, and no store lists anything after reset, so that every read answers the default of
what it reads. -/
theorem resetHolds : Obligations.ResetHolds :=
  ⟨Inv.reset, rfl, fun _ _ => ⟨rfl, rfl, rfl⟩, rfl, rfl, rfl, rfl, rfl, fun _ => rfl, fun _ => rfl, fun _ => rfl, fun _ => rfl,
    fun _ _ => rfl, fun _ _ => rfl, fun _ _ => ⟨rfl, rfl⟩, fun _ => rfl⟩

end Sys2Proof.Machine
end

section
/-!
PROOFS. The host interface (O48): what each event of the host does, one lemma for each clause of the statement.
-/
namespace Sys2Proof

/-- A value that a store reads as other than the default is listed. -/
theorem Store.mem_cells_of_get_eq_some {α : Type} {m : Store (Option α)} {k : Nat} {x : α} (h : m.get k = some x) :
    (k, some x) ∈ m.cells := by
  have hf {l : List (Nat × Option α)} (e : (Store.find k l).getD default = some x) : (k, some x) ∈ l := by
    induction l with
    | nil => cases e
    | cons c rest ih =>
      obtain ⟨k', v⟩ := c
      unfold Store.find at e
      split at e
      · next hk => subst hk; simp only [Option.getD_some] at e; simp [e]
      · exact List.mem_cons_of_mem _ (ih e)
  exact hf h

end Sys2Proof

namespace Sys2Proof.Machine

/-! ### Contexts (R352, R379, R391) -/

theorem keepSome_get {α : Type} {m : Store (Option α)} {p : Nat → α → Bool} {k : Nat} {x : α}
    (h : (keepSome m p).get k = some x) : p k x = true :=
  (List.mem_filter.1 (Store.mem_cells_of_get_eq_some h)).2

variable {s : State} {ctx : Nat}

theorem exec_contextCreate {prio : Nat} {spw : Bool} {ptb pvb pspan hwm eqb eqn : Nat} {budgets : List Nat}
    (h : s.context ctx = none)
    (ok : contextOk ctx { ptb := ptb, spw := spw, prio := prio, hwm := hwm, pvb := pvb, pspan := pspan, eqb := eqb
                          eqn := eqn, budgets := budgets } = true) :
    exec (.contextCreate ctx prio spw ptb pvb pspan hwm eqb eqn budgets) s = .next { s with
      contexts := s.contexts.set ctx (some { ptb := ptb, spw := spw, prio := prio, hwm := hwm, pvb := pvb, pspan := pspan
                                             eqb := eqb, eqn := eqn, budgets := budgets }) } :=
  congrArg Host.Outcome.next (if_neg (by simp [h, ok]))

theorem exec_contextDestroy (h : s.context ctx ≠ none) : exec (.contextDestroy ctx) s = .next (s.dropContext ctx) :=
  congrArg Host.Outcome.next (if_neg (by simp [h]))

/-- Nothing of a destroyed context is left. -/
theorem State.dropContext_gone (s : State) (ctx : Nat) : (s.dropContext ctx).context ctx = none
    ∧ (∀ u x, (s.dropContext ctx).unit u = some x → x.ctx ≠ ctx)
    ∧ (∀ j x, (s.dropContext ctx).job j = some x → x.ctx ≠ ctx)
    ∧ (∀ e ∈ (s.dropContext ctx).entries, e.owner.ctx ≠ ctx) ∧ (∀ x ∈ (s.dropContext ctx).tlbs, x.ctx ≠ ctx)
    ∧ (∀ q ∈ (s.dropContext ctx).subQueues, q.ctx ≠ ctx)
    ∧ ∀ q ∈ (s.dropContext ctx).censusQueue, q.2 ≠ ctx := by
  unfold State.dropContext
  extract_lets jobs s1 mine s2 units s3
  clear_value s3
  refine ⟨Store.get_set_self _ ctx none, fun u x h => ?_, fun j x h => ?_, fun e h => ?_, fun e h => ?_, fun e h => ?_,
    fun e h => ?_⟩
  · exact bne_iff_ne.1 (keepSome_get (m := s3.units) (p := fun _ y => y.ctx != ctx) h)
  · exact bne_iff_ne.1 (keepSome_get (m := s3.jobs) (p := fun _ y => y.ctx != ctx) h)
  all_goals exact bne_iff_ne.1 (List.mem_filter.1 h).2

theorem exec_submissionQueueCreate {q base n : Nat} (h : s.context ctx ≠ none) (hq : q < 8) (h4 : 4 ≤ n) (h16 : n ≤ 16)
    (hb : base % 64 = 0) (he : base + 64 * 2 ^ n ≤ Config.hbmBytes)
    (hn : ∀ x ∈ s.subQueues, ¬ (x.ctx = ctx ∧ x.queue = q)) :
    exec (.submissionQueueCreate ctx q base n) s
      = .next { s with subQueues := s.subQueues ++ [{ ctx := ctx, queue := q, base := base, size := 2 ^ n }] } := by
  refine congrArg Host.Outcome.next (if_neg ?_)
  have ha : s.subQueues.any (fun x => x.ctx == ctx && x.queue == q) = false := by simpa using hn
  rw [ha]
  have hi : (s.context ctx).isNone = false := Option.isNone_eq_false_iff.2 (Option.isSome_iff_ne_none.2 h)
  rw [hi]
  simp only [Bool.false_eq_true, or_false, false_or]
  omega

theorem exec_queuePairCreate {qpn : Nat} {x : Context} (h : s.context ctx = some x) (hq : qpn < 2 ^ 24)
    (hn : ∀ c ∈ s.contexts.cells, ∀ y, c.2 = some y → qpn ∉ y.qps) :
    exec (.queuePairCreate ctx qpn) s = .next { s with
      contexts := s.contexts.set ctx (some { x with qps := x.qps ++ [qpn] }) } := by
  have hu : s.updContext ctx (fun c => { c with qps := c.qps ++ [qpn] })
      = { s with contexts := s.contexts.set ctx (some { x with qps := x.qps ++ [qpn] }) } := by
    unfold State.updContext
    rw [h]
  rw [← hu]
  refine congrArg Host.Outcome.next (if_neg ?_)
  rintro (hc | hc)
  · omega
  · obtain ⟨c, hm, hc⟩ := List.any_eq_true.1 hc
    obtain ⟨y, hy, hc⟩ := (Option.any_eq_true _ _).1 hc
    exact hn c hm y hy (List.contains_iff_mem.1 hc)

/-! ### Doorbells (R377, R379) -/

theorem doorbellAt_bell {q : Nat} (hc : ctx < 64) (hq : q < 8) : doorbellAt (0x1000 + 64 * ctx + 8 * q) = some (ctx, q) := by
  unfold doorbellAt
  rw [if_pos (by omega)]
  congr 2
  · omega
  · omega

theorem exec_doorbellWrite {q : Nat} {tail : DWord} (hc : ctx < 64) (hq : q < 8) :
    exec (.doorbellWrite (0x1000 + 64 * ctx + 8 * q) 8 tail) s = .next { s with
      subQueues := s.subQueues.map fun x => if x.ctx = ctx ∧ x.queue = q then { x with tail := tail.toNat } else x } := by
  show execDoorbellWrite _ _ _ _ = _
  unfold execDoorbellWrite
  rw [if_pos rfl, doorbellAt_bell hc hq]
  simp [State.updQueue]

theorem exec_doorbellWrite_other {off n : Nat} {v : DWord} (h : n ≠ 8 ∨ off < 0x1000 ∨ 0x2000 ≤ off ∨ off % 8 ≠ 0) :
    exec (.doorbellWrite off n v) s = .next s := by
  have hb : (if n = 8 then doorbellAt off else none) = none := by
    split
    · exact if_neg (by omega)
    · rfl
  show execDoorbellWrite _ _ _ _ = _
  unfold execDoorbellWrite
  rw [hb]

/-! ### Submission entries (R379 to R381) -/

theorem State.find_updQueue {qn : Nat} {q : SubQueue} {g : SubQueue → SubQueue}
    (h : s.subQueues.find? (fun q => q.ctx == ctx && q.queue == qn) = some q)
    (hg : ∀ x, (g x).ctx = x.ctx ∧ (g x).queue = x.queue) :
    (s.updQueue ctx qn g).subQueues.find? (fun q => q.ctx == ctx && q.queue == qn) = some (g q) := by
  have hp : q.ctx == ctx && q.queue == qn := by simpa using List.find?_some h
  show (s.subQueues.map _).find? _ = _
  rw [List.find?_map]
  have he : ((fun q : SubQueue => q.ctx == ctx && q.queue == qn)
        ∘ fun q => if q.ctx == ctx && q.queue == qn then g q else q)
      = fun q => q.ctx == ctx && q.queue == qn := by
    funext x
    dsimp only [Function.comp]
    split
    · rw [(hg x).1, (hg x).2]
    · rfl
  rw [he, h, Option.map_some, if_pos hp]

section
variable {qn : Nat} {q : SubQueue} {incs : List (Nat × Word × Word)} {parts : List Nat} {reach : Word}
  {tables : EntryTables}

/-- The entry that Baruri takes next from a queue. -/
def State.nextEntry (s : State) (q : SubQueue) : SubEntry := parseSub (s.bytesAt (q.base + 64 * (q.taken % q.size)) 64)

/-- The state in which an entry has been taken from a queue. -/
def State.entryTaken (s : State) (ctx qn : Nat) : State :=
  s.updQueue ctx qn fun x => { x with taken := (x.taken + 1) % 2 ^ 64 }

/-- What taking an entry of a queue that discards nothing comes to. -/
theorem exec_submissionEntry (h : s.subQueues.find? (fun q => q.ctx == ctx && q.queue == qn) = some q)
    (ht : q.taken ≠ q.tail) (hd : q.discarding = false) :
    exec (.submissionEntry ctx qn incs parts reach tables) s = .next (
      if !(s.nextEntry q).ok || tables.barred then (s.entryTaken ctx qn).refuseEntry q ((s.nextEntry q).kind == 4)
      else if (s.nextEntry q).kind = 1 then
        (if q.phase.isSome then (s.entryTaken ctx qn).refuseEntry q false
         else (s.entryTaken ctx qn).beginPhase q ((s.nextEntry q).obj.toNat % 2 ^ 32) incs parts reach tables.exported)
      else if (s.nextEntry q).kind = 4 then (s.entryTaken ctx qn).endPhase q (s.nextEntry q)
      else (s.entryTaken ctx qn).createNode q (s.nextEntry q)
        (tables.span.map fun x => { before := x.1, after := x.2.1, first := x.2.2.1, last := x.2.2.2 })) := by
  show execSubmissionEntry _ _ _ _ _ _ _ = _
  unfold execSubmissionEntry
  rw [h]
  dsimp only
  rw [if_neg ht, hd, Bool.false_and, if_neg Bool.false_ne_true]
  unfold State.nextEntry
  rw [show memKey 0 (q.base + 64 * (q.taken % q.size)) = q.base + 64 * (q.taken % q.size) by simp [memKey]]
  rfl

/-- A phase begin of a new job makes the job and a phase, which its queue names (R314, R386). -/
theorem State.beginPhase_new {j : Nat} {exported : Nat × Nat} (h : s.job j = none) :
    ∃ p x, (s.beginPhase q j incs parts reach exported).job j = some x ∧ x.ctx = q.ctx ∧ x.parts = parts
      ∧ x.reach = reach ∧ x.ended = none ∧ x.complete = false
      ∧ (s.beginPhase q j incs parts reach exported).phase p = some { job := j, ctx := q.ctx, queue := q.queue }
      ∧ (s.beginPhase q j incs parts reach exported).subQueues
        = (s.updQueue q.ctx q.queue fun y => { y with phase := some p, discarding := false }).subQueues := by
  unfold State.beginPhase
  rw [h]
  exact ⟨s.fresh, _, Store.get_set_self .., rfl, rfl, rfl, rfl, rfl, Store.get_set_self .., rfl⟩

/-- A node that waits for others, of a phase of which none is complete, is created as its entry describes it (R325, R380). -/
theorem State.createNode_waiting {e : SubEntry} {span : Option Span} {p : Nat} (hp : q.phase = some p)
    (hi : ∀ c ∈ s.nodeList, c.2.phase = p → c.2.index ≠ e.node)
    (hb : e.kind = 3 → (∃ k, s.nodeBlock q.ctx e.obj 0 = .ok k) ∨ ∃ k, s.nodeBlock q.ctx e.obj 0 = .serve k)
    (hn : 0 < e.npred) (hc : ∀ c ∈ s.nodeList, c.2.phase = p → c.2.stage ≠ .complete) :
    ∃ n, (s.createNode q e span).node n = some {
      phase := p, graph := e.graph, index := e.node, npred := e.npred, succs := e.succs, obj := e.obj
      kind := if e.kind = 3 then .copy else .launch, span := span } := by
  unfold State.createNode
  rw [hp]
  dsimp -zeta only
  extract_lets mates badCopy gone x s2
  have hm {c : Nat × Node} (h : c ∈ mates) : c ∈ s.nodeList ∧ c.2.phase = p := by
    obtain ⟨h1, h2⟩ := List.mem_filter.1 h
    exact ⟨h1, beq_iff_eq.1 h2⟩
  have hbad : badCopy = false := by
    unfold badCopy
    by_cases hk : e.kind = 3
    · obtain ⟨k, hk⟩ | ⟨k, hk⟩ := hb hk
      all_goals rw [hk, Bool.and_false]
    · rw [beq_false_of_ne hk, Bool.false_and]
  have hany : mates.any (fun c => c.2.index == e.node) = false :=
    List.any_eq_false.2 fun c h => by simpa using hi c (hm h).1 (hm h).2
  have hgone : gone = 0 :=
    List.length_eq_zero_iff.2 (List.filter_eq_nil_iff.2 fun c h => by simp [hc c (hm h).1 (hm h).2])
  clear_value gone
  subst hgone
  rw [hbad, hany, if_neg (by simp), if_neg (show ¬ x.npred = 0 from hn.ne')]
  exact ⟨s.fresh, Store.get_set_self ..⟩

/-- A phase end names the completion word of its phase (R380). -/
theorem State.endPhase_ending {e : SubEntry} {p : Nat} {x : Phase} (hp : q.phase = some p) (hx : s.phase p = some x)
    (hs : ∀ c ∈ s.nodeList, c.2.phase = p → ∀ k ∈ c.2.succs, ∃ d ∈ s.nodeList, d.2.phase = p ∧ d.2.index = k) :
    (s.endPhase q e).phase p = some { x with ending := some (e.obj, e.value) } := by
  unfold State.endPhase
  rw [hp]
  dsimp -zeta only
  extract_lets mates
  have hany : (mates.any fun c => c.2.succs.any fun k => !mates.any fun d => d.2.index == k) = false := by
    simp only [mates, List.any_eq_false, List.mem_filter, beq_iff_eq, Bool.not_eq_true', and_imp,
      List.any_eq_true]
    intro c hc hcp
    simpa [and_assoc] using hs c hc hcp
  rw [hany]
  exact (s.phase_updPhase p _ p).trans (by rw [if_pos rfl, hx]; rfl)

end

/-- A queue's name and context are those under which it is found. -/
theorem SubQueue.name_of_find {qn : Nat} {q : SubQueue}
    (h : s.subQueues.find? (fun q => q.ctx == ctx && q.queue == qn) = some q) :
    q.ctx = ctx ∧ q.queue = qn := by
  simpa using List.find?_some h

section
variable {qn : Nat} {q : SubQueue} {incs : List (Nat × Word × Word)} {parts : List Nat} {reach : Word}
  {tables : EntryTables}
  (h : s.subQueues.find? (fun q => q.ctx == ctx && q.queue == qn) = some q) (ht : q.taken ≠ q.tail)
  (hd : q.discarding = false)
include h ht hd

/-- An entry that breaks the layout, or that Baruri's policy bars, is refused (R379, R380). -/
theorem exec_submissionEntry_refused (hb : (s.nextEntry q).ok = false ∨ tables.barred = true) :
    exec (.submissionEntry ctx qn incs parts reach tables) s
      = .next ((s.entryTaken ctx qn).refuseEntry q ((s.nextEntry q).kind == 4)) := by
  rw [exec_submissionEntry h ht hd, if_pos (by simpa using hb)]

/-- A phase begin of a new job (R314, R380, R386). -/
theorem exec_submissionEntry_begin (ok : (s.nextEntry q).ok = true) (hb : tables.barred = false)
    (hk : (s.nextEntry q).kind = 1) (hp : q.phase = none) (hj : s.job ((s.nextEntry q).obj.toNat % 2 ^ 32) = none) :
    ∃ t p x, exec (.submissionEntry ctx qn incs parts reach tables) s = .next t
      ∧ t.job ((s.nextEntry q).obj.toNat % 2 ^ 32) = some x ∧ x.ctx = ctx ∧ x.parts = parts ∧ x.reach = reach
      ∧ x.ended = none ∧ x.complete = false
      ∧ t.phase p = some { job := (s.nextEntry q).obj.toNat % 2 ^ 32, ctx := ctx, queue := qn }
      ∧ ∃ z, t.subQueues.find? (fun q => q.ctx == ctx && q.queue == qn) = some z ∧ z.phase = some p
        ∧ z.taken = (q.taken + 1) % 2 ^ 64 := by
  obtain ⟨hc, hn⟩ := SubQueue.name_of_find h
  obtain ⟨p, x, hx, hxc, hxp, hxr, hxe, hxf, hph, hsq⟩ := State.beginPhase_new (s := s.entryTaken ctx qn) (q := q)
    (incs := incs) (parts := parts) (reach := reach) (exported := tables.exported) hj
  rw [hc, hn] at hph hsq
  refine ⟨_, p, x, ?_, hx, hxc.trans hc, hxp, hxr, hxe, hxf, hph, ?_⟩
  · rw [exec_submissionEntry h ht hd, if_neg (by simp [ok, hb]), if_pos hk, if_neg (by simp [hp])]
  · rw [hsq]
    have h1 : (s.entryTaken ctx qn).subQueues.find? (fun q => q.ctx == ctx && q.queue == qn)
        = some { q with taken := (q.taken + 1) % 2 ^ 64 } := State.find_updQueue h fun _ => ⟨rfl, rfl⟩
    exact ⟨_, State.find_updQueue h1 fun _ => ⟨rfl, rfl⟩, rfl, rfl⟩

/-- A node's entry (R325, R380). -/
theorem exec_submissionEntry_node (ok : (s.nextEntry q).ok = true) (hb : tables.barred = false)
    (hk : (s.nextEntry q).kind = 2 ∨ (s.nextEntry q).kind = 3) {p : Nat} (hp : q.phase = some p)
    (hi : ∀ c ∈ s.nodeList, c.2.phase = p → c.2.index ≠ (s.nextEntry q).node)
    (hn : (s.nextEntry q).kind = 3 → (∃ k, (s.entryTaken ctx qn).nodeBlock ctx (s.nextEntry q).obj 0 = .ok k)
      ∨ ∃ k, (s.entryTaken ctx qn).nodeBlock ctx (s.nextEntry q).obj 0 = .serve k) (hw : 0 < (s.nextEntry q).npred)
    (hc : ∀ c ∈ s.nodeList, c.2.phase = p → c.2.stage ≠ .complete) :
    ∃ t n, exec (.submissionEntry ctx qn incs parts reach tables) s = .next t ∧ t.node n = some {
      phase := p, graph := (s.nextEntry q).graph, index := (s.nextEntry q).node, npred := (s.nextEntry q).npred
      succs := (s.nextEntry q).succs, obj := (s.nextEntry q).obj
      kind := if (s.nextEntry q).kind = 3 then .copy else .launch
      span := tables.span.map fun y => { before := y.1, after := y.2.1, first := y.2.2.1, last := y.2.2.2 } } := by
  rw [← (SubQueue.name_of_find h).1] at hn
  obtain ⟨n, hx⟩ := State.createNode_waiting (s := s.entryTaken q.ctx qn) (e := s.nextEntry q)
    (span := tables.span.map fun y => { before := y.1, after := y.2.1, first := y.2.2.1, last := y.2.2.2 }) hp hi hn hw hc
  refine ⟨_, n, ?_, hx⟩
  rw [exec_submissionEntry h ht hd, if_neg (by simp [ok, hb]), if_neg (by omega), if_neg (by omega),
    (SubQueue.name_of_find h).1]

/-- A phase end whose successors all name nodes of the phase (R380). -/
theorem exec_submissionEntry_end (ok : (s.nextEntry q).ok = true) (hb : tables.barred = false)
    (hk : (s.nextEntry q).kind = 4) {p : Nat} {x : Phase} (hp : q.phase = some p) (hx : s.phase p = some x)
    (hs : ∀ c ∈ s.nodeList, c.2.phase = p → ∀ k ∈ c.2.succs, ∃ d ∈ s.nodeList, d.2.phase = p ∧ d.2.index = k) :
    ∃ t, exec (.submissionEntry ctx qn incs parts reach tables) s = .next t
      ∧ t.phase p = some { x with ending := some ((s.nextEntry q).obj, (s.nextEntry q).value) } := by
  refine ⟨_, ?_, State.endPhase_ending (s := s.entryTaken ctx qn) hp hx hs⟩
  rw [exec_submissionEntry h ht hd, if_neg (by simp [ok, hb]), if_neg (by omega), if_pos hk]

end

/-! ### The end of a phase (R381) -/

@[simp] theorem State.updPhase_msix (s : State) (n : Nat) (g : Phase → Phase) : (s.updPhase n g).msix = s.msix := by
  unfold State.updPhase
  split <;> rfl
@[simp] theorem State.progress_msix (s : State) (j : Nat) : (s.progress j).msix = s.msix := by
  unfold State.progress State.updJob
  split <;> rfl
@[simp] theorem State.progress_phase (s : State) (j n : Nat) : (s.progress j).phase n = s.phase n :=
  congrArg (fun m : Store (Option Phase) => m.get n) (s.updJob_phases j _)

theorem State.store_phase (s : State) (cells : List (Nat × Byte)) (n : Nat) : (s.store cells).phase n = s.phase n := by
  rw [s.store_frame cells]
  rfl
theorem State.store_msix (s : State) (cells : List (Nat × Byte)) : (s.store cells).msix = s.msix := by
  rw [s.store_frame cells]

/-- A phase whose counter reads zero writes its completion word, raises its context's vector and is complete. -/
theorem exec_phaseEndCompletion {n : Nat} {p : Phase} {a v : DWord} (hp : s.phase n = some p) (hc : p.complete = false)
    (he : p.ending = some (a, v)) (hz : s.phaseZero n = true) : ∃ t, exec (.phaseEndCompletion n) s = .next t
      ∧ t.phase n = some { p with complete := true }
      ∧ t.mem = (s.store (((List.range 8).zip (toBytes 8 v.toNat)).map fun c => (2 ^ 60 + (a.toNat + c.1), c.2))).mem
      ∧ t.msix = s.msix.modify p.ctx (· + 1) := by
  show ∃ t, execPhaseEndCompletion n s = .next t ∧ _
  unfold execPhaseEndCompletion
  rw [hp]
  dsimp only
  rw [if_neg (by simp [hc, he, hz]), he]
  simp only [memKey, one_mul]
  generalize hcells : ((List.range 8).zip (toBytes 8 v.toNat)).map (fun c => (2 ^ 60 + (a.toNat + c.1), c.2)) = cells
  have ht := (s.store_phase cells n).trans hp
  have hm := s.store_msix cells
  generalize s.store cells = t at ht hm ⊢
  refine ⟨_, rfl, ?_, ?_, ?_⟩
  · rw [State.progress_phase, State.phase_updPhase, if_pos rfl]
    exact (congrArg (Option.map _) ht).trans (by rw [← he]; rfl)
  · rw [State.progress_rest]
    exact State.updPhase_mem ..
  · rw [State.progress_msix, State.updPhase_msix, ← hm]

/-! ### The HDM window (R377, R378) -/

/-- Poison that is set stays where more is set. -/
theorem State.poisonAt_foldl_setPoison {α : Type} {l : List α} {key : α → Nat} {k : Nat}
    (h : (∃ x ∈ l, key x = k) ∨ s.poisonAt k = true) :
    (l.foldl (fun (acc : State) x => acc.setPoison (key x) true) s).poisonAt k = true := by
  induction l generalizing s with
  | nil => simpa using h
  | cons x rest ih =>
    refine ih ?_
    have hs : (s.setPoison (key x) true).poisonAt k = if k / 8 = key x / 8 then true else s.poisonAt k :=
      Store.get_set s.memPoison (key x / 8) (k / 8) true
    rw [hs]
    obtain ⟨y, hy, rfl⟩ | h := h
    · obtain rfl | hy := List.mem_cons.1 hy
      · exact .inr (if_pos rfl)
      · exact .inl ⟨y, hy, rfl⟩
    · exact .inr (by split; rfl; exact h)

theorem State.poisonAt_writeFrom {key j : Nat} {data : List (Option Byte)} (h : data[j]? = some none) :
    (s.writeFrom key data).poisonAt (key + j) = true := by
  unfold State.writeFrom
  refine State.poisonAt_foldl_setPoison (key := fun c : Nat × Option Byte => key + c.1) (.inl ⟨(j, none), ?_, rfl⟩)
  obtain ⟨hj, h⟩ := List.getElem?_eq_some_iff.1 h
  refine List.mem_filter.2 ⟨List.mem_iff_getElem.2 ⟨j, by simpa using hj, ?_⟩, rfl⟩
  simp [h]

theorem State.writeFrom_some {key : Nat} {bytes : List Byte} : s.writeFrom key (bytes.map some)
    = s.write (((List.range bytes.length).zip bytes).map fun c => (key + c.1, c.2)) := by
  unfold State.writeFrom
  extract_lets cells t
  have hc : cells = ((List.range bytes.length).zip bytes).map fun c => (c.1, some c.2) := by
    unfold cells
    rw [List.length_map, List.zip_map_right]
    rfl
  have hn : cells.filter (fun c => c.2.isNone) = [] := by
    rw [hc]
    refine List.filter_eq_nil_iff.2 fun c h => ?_
    obtain ⟨x, -, rfl⟩ := List.mem_map.1 h
    exact Bool.false_ne_true
  rw [hn]
  unfold t
  rw [hc]
  simp [Function.comp_def]

section
variable {addr : Nat} {data : List (Option Byte)}

theorem exec_hostHdmAccess_read (h : s.inHdm addr data.length = true) :
    let keys := (List.range data.length).map (addr + ·)
    let t := keys.foldl State.verifyLine s
    exec (.hostHdmAccess addr false data) s = .next { t with
      hostAnswer := { addr := addr, bytes := t.bytesAt addr data.length, poison := keys.any t.poisonAt } } := by
  intro keys t
  show execHostHdmAccess _ _ _ _ = _
  unfold execHostHdmAccess
  rw [if_neg Bool.false_ne_true, if_neg (by simp [h])]

theorem exec_hostHdmAccess_write (h : s.inHdm addr data.length = true) :
    exec (.hostHdmAccess addr true data) s = .next (s.writeFrom addr data) :=
  congrArg Host.Outcome.next ((if_pos rfl).trans (if_pos (.inl h)))

theorem exec_hostHdmAccess_read_outside (h : s.inHdm addr data.length = false) :
    exec (.hostHdmAccess addr false data) s = .next s := by
  show execHostHdmAccess _ _ _ _ = _
  unfold execHostHdmAccess
  rw [if_neg Bool.false_ne_true, if_pos (by simp [h])]

theorem exec_hostHdmAccess_write_outside (h : s.inHdm addr data.length = false) (ha : addr < 2 ^ 60) :
    exec (.hostHdmAccess addr true data) s = .next s :=
  congrArg Host.Outcome.next ((if_pos rfl).trans (if_neg (by simpa [h] using ha)))

end

/-! ### The registers that Baruri writes (R4) -/

section
variable {v : DWord}

/-- A register whose value is in its range takes it (R4). -/
theorem exec_registerWrite_drain (h : 1024 ≤ v.toNat) (h' : v.toNat ≤ 2 ^ 20) :
    exec (.registerWrite 0 v) s = .next { s with regs := { s.regs with drain := v.toNat } } :=
  congrArg Host.Outcome.next (if_pos (decide_eq_true ⟨h, h'⟩))

theorem powerOfTwo_pow {lo hi k : Nat} (hk : k < 64) (h : lo ≤ 2 ^ k) (h' : 2 ^ k ≤ hi) :
    powerOfTwo (2 ^ k) lo hi = true :=
  List.any_eq_true.2 ⟨k, List.mem_range.2 hk, by simp [h, h']⟩

theorem exec_registerWrite_wdog {k : Nat} (h : 20 ≤ k) (h' : k ≤ 30) (hv : v.toNat = 2 ^ k) :
    exec (.registerWrite 1 v) s = .next { s with regs := { s.regs with wdog := v.toNat } } := by
  refine congrArg Host.Outcome.next (if_pos ?_)
  rw [hv]
  exact powerOfTwo_pow (by omega) (Nat.pow_le_pow_right two_pos h) (Nat.pow_le_pow_right two_pos h')

theorem exec_registerWrite_peerto (h : 2 ^ 16 ≤ v.toNat) (h' : v.toNat ≤ 2 ^ 26) :
    exec (.registerWrite 2 v) s = .next { s with regs := { s.regs with peerto := v.toNat } } :=
  congrArg Host.Outcome.next (if_pos (decide_eq_true ⟨h, h'⟩))

theorem exec_registerWrite_age (h : v.toNat ≤ 255) :
    exec (.registerWrite 3 v) s = .next { s with regs := { s.regs with age := v.toNat } } :=
  congrArg Host.Outcome.next (if_pos (decide_eq_true h))

theorem exec_registerWrite_scrub (h : 1 ≤ v.toNat) (h' : v.toNat ≤ 168) :
    exec (.registerWrite 4 v) s = .next { s with regs := { s.regs with scrub := v.toNat } } :=
  congrArg Host.Outcome.next (if_pos (decide_eq_true ⟨h, h'⟩))

theorem exec_registerWrite_number (h : v.toNat < Config.fabricDevices) :
    exec (.registerWrite 6 v) s = .next { s with fabric := { s.fabric with number := v.toNat } } :=
  congrArg Host.Outcome.next (if_pos h)

/-- The numbers from 7 on stand for registers of a context, a core, the HDM window, a matrix record or a job. -/
theorem exec_registerWrite_of_seven_le {n : Nat} (h : 7 ≤ n) : exec (.registerWrite n v) s = .next (
    if 64 ≤ n ∧ n < 128 then s.updContext (n - 64) fun c => { c with head := v.toNat % 2 ^ 32 }
    else if 256 ≤ n ∧ n < 256 + Config.coresPerDie * Config.dies then
      s.updCore (n - 256) fun k => { k with closed := v.getLsbD 0 }
    else if 512 ≤ n ∧ n < 1024 ∧ n < 512 + s.regs.hdmsz then
      { s with hdmBias := s.hdmBias.set (n - 512) (v.getLsbD 0) }
    else if 2 ^ 60 ≤ n then s.setMatrixField (128 * ((n - 2 ^ 60) / 4)) (n % 4) v.toNat
    else if 2 ^ 32 ≤ n then s.rehome (n - 2 ^ 32) v.toNat
    else s) := by
  show execRegisterWrite _ _ _ = _
  unfold execRegisterWrite
  congr 1
  dsimp only
  split
  case h_8 => rfl
  all_goals omega

theorem exec_registerWrite_head {x : Context} (hc : ctx < 64) (hx : s.context ctx = some x) :
    exec (.registerWrite (64 + ctx) v) s
      = .next { s with contexts := s.contexts.set ctx (some { x with head := v.toNat % 2 ^ 32 }) } := by
  rw [exec_registerWrite_of_seven_le (by omega), if_pos (by omega), Nat.add_sub_cancel_left]
  unfold State.updContext
  rw [hx]

theorem exec_registerWrite_closed {c : Nat} (hc : c < 192) :
    exec (.registerWrite (256 + c) v) s = .next (s.setCore c { s.core c with closed := v.getLsbD 0 }) := by
  have hn : 256 ≤ 256 + c ∧ 256 + c < 256 + Config.coresPerDie * Config.dies := by
    simp only [Config.coresPerDie, Config.dies]
    omega
  rw [exec_registerWrite_of_seven_le (by omega), if_neg (by omega), if_pos hn, Nat.add_sub_cancel_left]
  rfl

theorem exec_registerWrite_bias {g : Nat} (hg : g < 512) (hs : g < s.regs.hdmsz) :
    exec (.registerWrite (512 + g) v) s = .next { s with hdmBias := s.hdmBias.set g (v.getLsbD 0) } := by
  have hn : ¬ (256 ≤ 512 + g ∧ 512 + g < 256 + Config.coresPerDie * Config.dies) := by
    simp only [Config.coresPerDie, Config.dies]
    omega
  rw [exec_registerWrite_of_seven_le (by omega), if_neg (by omega), if_neg hn, if_pos (by omega), Nat.add_sub_cancel_left]

theorem exec_registerWrite_field {k f : Nat} (hf : f < 4) :
    exec (.registerWrite (2 ^ 60 + 4 * k + f) v) s = .next (s.setMatrixField (128 * k) f v.toNat) := by
  have hn : ¬ (256 ≤ 2 ^ 60 + 4 * k + f ∧ 2 ^ 60 + 4 * k + f < 256 + Config.coresPerDie * Config.dies) := by
    simp only [Config.coresPerDie, Config.dies]
    omega
  rw [exec_registerWrite_of_seven_le (by omega), if_neg (by omega), if_neg hn, if_neg (by omega), if_pos (by omega)]
  congr 2
  · omega
  · omega

/-- Bytes of a matrix record, from an offset of it on, take a value. -/
def State.putField (s : State) (key off n x : Nat) : State :=
  s.store (((List.range n).map fun j => key + off + j).zip (toBytes n x))

theorem State.setMatrixField_theta {key n : Nat} (h : key + 128 ≤ Config.hbmBytes) :
    s.setMatrixField key 0 n = s.putField key 0x44 4 n := if_neg (by omega)

theorem State.setMatrixField_kind {key n : Nat} (h : key + 128 ≤ Config.hbmBytes) : s.setMatrixField key 1 n
    = s.putField key 0x40 1 ((s.byteAt (key + 0x40)).toNat % 16 + 16 * (n % 4) + (s.byteAt (key + 0x40)).toNat / 64 * 64) :=
  if_neg (by omega)

theorem State.setMatrixField_fallow {key n : Nat} (h : key + 128 ≤ Config.hbmBytes) :
    s.setMatrixField key 2 n = s.putField key 0x54 4 n := if_neg (by omega)

/-! ### The home die of a job (R324, R336, R419) -/

/-- An entry of the dispatch list, at the die where its job is homed. -/
def State.moveListed (s : State) (j die : Nat) (e : Listed) : Listed :=
  if (e.unit.bind s.unit).any fun x => x.job == j then { e with die := die } else e

/-- Where no stamp is passed, nothing goes. -/
theorem State.stampSweep_of_none_passed {j die : Nat} (hu : ∀ c ∈ s.unitList, s.stampPassed j die c.2.stamp = false)
    (hq : ∀ q ∈ s.spawns, s.stampPassed j die q.stamp = false) : s.stampSweep j die = s := by
  unfold State.stampSweep
  have hk : (s.unitList.filter fun c => c.2.job == j && (c.2.stage == .matched || c.2.stage == .listed)
      && ((s.job j).map Job.homeDie).getD 0 == die && s.stampPassed j die c.2.stamp) = [] :=
    List.filter_eq_nil_iff.2 fun c hc => by simp [hu c hc]
  rw [hk]
  have hr : (s.spawns.filter fun r => !r.sent && s.jobOf r.owner.unit == j && dieOf r.core == die
      && s.stampPassed j die r.stamp) = [] := List.filter_eq_nil_iff.2 fun r hr => by simp [hq r hr]
  exact congrArg (List.foldl _ s) hr

/-- The state in which a job has another home die. -/
def State.homed (s : State) (j die : Nat) (x : Job) : State :=
  { s with listed := s.listed.map (s.moveListed j die), jobs := s.jobs.set j (some { x with homeDie := die }) }

theorem State.homed_job {j die : Nat} {x : Job} : (s.homed j die x).job j = some { x with homeDie := die } :=
  Store.get_set_self ..

/-- Whether a replica passes a stamp does not depend on where the job is homed. -/
theorem State.homed_stampPassed {j die d : Nat} {x : Job} {st : Option (Word × Word)} (hx : s.job j = some x) :
    (s.homed j die x).stampPassed j d st = s.stampPassed j d st := by
  have hr (n : Nat) (onDie : Bool) : (s.homed j die x).replica j n onDie d = s.replica j n onDie d := by
    unfold State.replica
    rw [s.homed_job, hx]
    rfl
  unfold State.stampPassed
  split
  · rfl
  · rw [hr]

theorem State.rehome_eq {j die : Nat} {x : Job} (hd : die < Config.dies) (ho : s.dieOpen die = true) (hx : s.job j = some x)
    (hu : ∀ c ∈ s.unitList, s.stampPassed j die c.2.stamp = false)
    (hq : ∀ q ∈ s.spawns, s.stampPassed j die q.stamp = false) : s.rehome j die = s.homed j die x := by
  have hm : ({ s with listed := s.listed.map (s.moveListed j die) } : State).updJob j (fun y => { y with homeDie := die })
      = s.homed j die x := by
    unfold State.updJob
    rw [show State.job { s with listed := s.listed.map (s.moveListed j die) } j = some x from hx]
    rfl
  unfold State.rehome
  rw [if_neg (by simp [ho, hx, hd])]
  refine (congrArg (State.stampSweep · j die) hm).trans (State.stampSweep_of_none_passed (fun c hc => ?_) fun q hq' => ?_)
  · rw [State.homed_stampPassed hx]
    exact hu c hc
  · rw [State.homed_stampPassed hx]
    exact hq q hq'

theorem exec_registerWrite_home {j : Nat} {x : Job} (hj : j < 2 ^ 32) (hx : s.job j = some x) (hv : v.toNat < 4)
    (ho : s.dieOpen v.toNat = true) (hu : ∀ c ∈ s.unitList, s.stampPassed j v.toNat c.2.stamp = false)
    (hq : ∀ q ∈ s.spawns, s.stampPassed j v.toNat q.stamp = false) :
    exec (.registerWrite (2 ^ 32 + j) v) s = .next (s.homed j v.toNat x) := by
  have hn : ¬ (256 ≤ 2 ^ 32 + j ∧ 2 ^ 32 + j < 256 + Config.coresPerDie * Config.dies) := by
    simp only [Config.coresPerDie, Config.dies]
    omega
  rw [exec_registerWrite_of_seven_le (by omega), if_neg (by omega), if_neg hn, if_neg (by omega), if_neg (by omega),
    if_pos (by omega), Nat.add_sub_cancel_left, State.rehome_eq hv ho hx hu hq]

theorem State.moveListed_die {j die u : Nat} {e : Listed} {y : UnitSt} (he : (s.moveListed j die e).unit = some u)
    (hu : s.unit u = some y) (hy : y.job = j) : (s.moveListed j die e).die = die := by
  have hk : (s.moveListed j die e).unit = e.unit := by
    unfold State.moveListed
    split
    · rfl
    · rfl
  unfold State.moveListed
  rw [if_pos (by simp [← hk, he, hu, hy])]

theorem State.moveListed_rest {j die : Nat} {e : Listed} : ((s.moveListed j die e).launch, (s.moveListed j die e).unit,
    (s.moveListed j die e).prio, (s.moveListed j die e).pass) = (e.launch, e.unit, e.prio, e.pass) := by
  unfold State.moveListed
  split
  · rfl
  · rfl

end

/-! ### The statement -/

/-- Settles O48: clause by clause, each by the lemma that says what its event does. -/
theorem hostEvents : Obligations.HostEvents := by
  unfold Obligations.HostEvents
  intro s ctx
  refine ⟨fun _ _ _ _ _ _ _ _ _ h => exec_contextCreate h,
    fun h => ⟨_, exec_contextDestroy h, s.dropContext_gone ctx⟩,
    fun _ _ _ => exec_submissionQueueCreate,
    fun _ _ => exec_queuePairCreate,
    fun _ _ => exec_doorbellWrite,
    fun _ _ _ => exec_doorbellWrite_other,
    fun qn incs parts reach tables q hq ht hd => ?_,
    fun _ _ _ _ => exec_phaseEndCompletion,
    fun addr data => ⟨fun h => ?_, fun h bytes e => ?_, fun h => ?_, fun h => ?_⟩,
    fun v => ⟨exec_registerWrite_drain, fun _ => exec_registerWrite_wdog, exec_registerWrite_peerto,
      exec_registerWrite_age, exec_registerWrite_scrub, rfl, exec_registerWrite_number, fun k hk => ⟨?_, ?_, ?_⟩,
      fun _ => exec_registerWrite_bias, fun _ => exec_registerWrite_head, fun _ => exec_registerWrite_closed,
      fun j x hj hx hv ho hu hq => ?_⟩⟩
  · exact ⟨exec_submissionEntry_refused hq ht hd, fun ok hb =>
      ⟨exec_submissionEntry_begin hq ht hd ok hb,
        fun hk _ => exec_submissionEntry_node hq ht hd ok hb hk,
        fun hk _ _ => exec_submissionEntry_end hq ht hd ok hb hk⟩⟩
  · exact exec_hostHdmAccess_read (decide_eq_true h)
  · subst e
    exact (exec_hostHdmAccess_write (decide_eq_true h)).trans (congrArg _ State.writeFrom_some)
  · exact ⟨_, exec_hostHdmAccess_write (decide_eq_true h), fun _ => State.poisonAt_writeFrom⟩
  · exact ⟨exec_hostHdmAccess_read_outside (decide_eq_false h), exec_hostHdmAccess_write_outside (decide_eq_false h)⟩
  · exact (exec_registerWrite_field (f := 0) (by omega)).trans (congrArg _ (State.setMatrixField_theta hk))
  · exact (exec_registerWrite_field (by omega)).trans (congrArg _ (State.setMatrixField_kind hk))
  · exact (exec_registerWrite_field (by omega)).trans (congrArg _ (State.setMatrixField_fallow hk))
  · refine ⟨_, exec_registerWrite_home hj hx hv ho hu hq, s.homed_job, rfl, fun k => ?_, fun e he u y heu hy hj => ?_⟩
    · show _ = ((s.listed.map (s.moveListed j v.toNat))[k]?).map _
      rw [List.getElem?_map, Option.map_map]
      exact congrArg (Option.map · s.listed[k]?) (funext fun e => s.moveListed_rest.symm)
    · obtain ⟨e, -, rfl⟩ := List.mem_map.1 he
      exact State.moveListed_die heu hy hj

end Sys2Proof.Machine
end

section
/-!
PROOFS. Integrity and boot (O52): what each event of scrubbing, repair, module reset and boot does, one lemma for each clause of the statement.
-/
namespace Sys2Proof

variable {α : Type} [Inhabited α]

/-- Entries left out by their key read as the default; the others read as before. -/
theorem Store.get_filter_key {l : List (Nat × α)} {p : Nat → Bool} {k : Nat} :
    (⟨l.filter fun c => p c.1⟩ : Store α).get k = if p k = true then (⟨l⟩ : Store α).get k else default := by
  have hf : Store.find k (l.filter fun c => p c.1) = if p k = true then Store.find k l else none := by
    induction l with
    | nil => simp [Store.find]
    | cons c rest ih =>
      obtain ⟨j, v⟩ := c
      by_cases hk : j = k
      · subst hk
        by_cases hp : p j = true
        · simp [hp, Store.find]
        · simp [hp, ih]
      · by_cases hp : p j = true
        · simp [hp, Store.find, hk, ih]
        · simp [hp, Store.find, hk, ih]
  unfold Store.get
  rw [hf]
  split
  · rfl
  · rfl

/-- One value written to many keys: each of them reads it, the others read as before. -/
theorem Store.get_foldl_set [DecidableEq α] {l : List Nat} {v : α} {m : Store α} {k : Nat} :
    (l.foldl (fun acc c => acc.set c v) m).get k = if k ∈ l then v else m.get k := by
  induction l generalizing m with
  | nil => simp
  | cons c rest ih =>
    rw [List.foldl_cons, ih, Store.get_set]
    by_cases hr : k ∈ rest
    · simp [hr]
    · simp [hr]

end Sys2Proof

namespace Sys2Proof.Machine

variable {s t : State} {line core ctx k : Nat} {row : DWord}

/-! ### Scrubbing (R422 to R425) -/

/-- The rows whose pages are to move, a row among them. -/
theorem State.askMove_eq : s.askMove row
    = { s with moveAsked := if row ∈ s.moveAsked then s.moveAsked else s.moveAsked ++ [row] } := by
  unfold State.askMove
  by_cases h : row ∈ s.moveAsked
  · simp [h]
  · simp [h]

/-- The corrected errors of the scrub period under way, with one more for a line's row. -/
def State.rowCounts (s : State) (line : Nat) : Store Nat :=
  (if s.scrubPeriod = s.scrubNow then s.rowErrors else {}).modify (lineRow line).toNat (· + 1)

theorem State.rowError_eq : s.rowError line = { s with
    rowErrors := s.rowCounts line
    scrubPeriod := s.scrubNow
    moveAsked :=
      if s.regs.rowThreshold < (s.rowCounts line).get (lineRow line).toNat then
        if lineRow line ∈ s.moveAsked then s.moveAsked else s.moveAsked ++ [lineRow line]
      else s.moveAsked } := by
  unfold State.rowError
  extract_lets counts row t
  rw [State.askMove_eq, show t.rowErrors = s.rowCounts line from rfl]
  split
  · rfl
  · rfl

/-- A pass that reports of a line of HBM: of the kinds below 19. -/
theorem exec_scrubPass_line {kind : Nat} (h : 128 * line < Config.hbmBytes) (hk : kind < 19) : exec (.scrubPass line kind) s = .next (
    if kind = 1 then s.rowError line
    else if kind = 18 then (if s.checkOk line then { s with checks := s.checks.set line (some (s.lineCheck line ^^^ 1)) } else s)
    else if 2 ≤ kind then (s.setPoison (memKey 0 (128 * line + 8 * (kind - 2))) true).askMove (lineRow line)
    else s) :=
  congrArg Host.Outcome.next (by
    rw [if_neg (by omega), if_neg (by omega), if_neg (by omega), if_neg (by omega)])

theorem exec_scrubPass_clean (h : 128 * line < Config.hbmBytes) : exec (.scrubPass line 0) s = .next s :=
  exec_scrubPass_line h (by omega)

theorem exec_scrubPass_corrected (h : 128 * line < Config.hbmBytes) : exec (.scrubPass line 1) s = .next (s.rowError line) :=
  exec_scrubPass_line h (by omega)

theorem exec_scrubPass_uncorrected (h : 128 * line < Config.hbmBytes) (hk : k < 16) : exec (.scrubPass line (2 + k)) s
    = .next ((s.setPoison (128 * line + 8 * k) true).askMove (lineRow line)) := by
  rw [exec_scrubPass_line h (by omega), if_neg (by omega), if_neg (by omega), if_pos (by omega)]
  simp [memKey]

/-- The words that poison has reached, one word of a line more. -/
theorem State.poisonAt_setPoison_word {a : Nat} :
    (s.setPoison (128 * line + 8 * k) true).poisonAt a = (s.poisonAt a || decide (a / 8 = 16 * line + k)) := by
  have hw : (128 * line + 8 * k) / 8 = 16 * line + k := by omega
  unfold State.poisonAt State.setPoison
  rw [hw, Store.get_set]
  by_cases h : a / 8 = 16 * line + k
  · simp [h]
  · simp [h]

theorem exec_scrubPass_check (h : 128 * line < Config.hbmBytes) (hc : s.checkOk line = true) :
    exec (.scrubPass line 18) s = .next { s with checks := s.checks.set line (some (s.lineCheck line ^^^ 1)) } :=
  (exec_scrubPass_line h (by omega)).trans (congrArg Host.Outcome.next (if_pos hc))

theorem exec_scrubPass_check_bad (h : 128 * line < Config.hbmBytes) (hc : s.checkOk line = false) :
    exec (.scrubPass line 18) s = .next s :=
  (exec_scrubPass_line h (by omega)).trans (congrArg Host.Outcome.next (if_neg (Bool.eq_false_iff.1 hc)))

/-- A check value with its lowest bit inverted is another one. -/
theorem xor_one_ne (c : Word) : c ^^^ 1 ≠ c := by
  intro h
  have h0 := congrArg (BitVec.getLsbD · 0) h
  simp at h0

/-! ### Retired rows (R427) -/

theorem exec_hbmRowRetire_unasked (h : row ∉ s.moveAsked) : exec (.hbmRowRetire row) s = .next s :=
  congrArg Host.Outcome.next (if_pos (by simp [h]))

theorem Repair.record_eq {r : Repair} : r.record row
    = if ∃ x ∈ r.rows, rowOf x = rowOf row then r else { r with seq := r.seq + 1, rows := r.rows ++ [rowOf row] } := by
  unfold Repair.record
  exact if_congr (by simp) rfl rfl

theorem exec_hbmRowRetire (h : row ∈ s.moveAsked) : exec (.hbmRowRetire row) s = .next { s with
    moveAsked := s.moveAsked.erase row
    retiredRows := if row ∈ s.retiredRows then s.retiredRows else s.retiredRows ++ [row]
    repair := s.repair.record row } := by
  refine congrArg Host.Outcome.next ((if_neg (by simp [h])).trans ?_)
  congr 1
  exact if_congr List.contains_iff_mem rfl rfl

/-! ### Failed cores (R426) -/

/-- A save of a context begins on a core, or is held while another runs there. -/
def State.requestSave (s : State) (core ctx : Nat) : State :=
  if (s.core core).saving.isSome then s.holdRequest core ctx false 0 else s.beginSave core ctx

/-- A core that has failed: it is marked in the record, disabled and closed. -/
def State.failed (s : State) (core : Nat) : State :=
  { s with
    coreMask := s.coreMask &&& ~~~BitVec.twoPow 192 core
    repair := match s.built.getD core none with
      | some b => s.repair.failCore (dieOf core) b
      | none => s.repair }.updCore core fun k => { k with enabled := false, closed := true }

/-- The contexts that reside on a core. -/
def State.residentContexts (s : State) (core : Nat) : List Nat := ((s.residents core).map fun u => u.2.ctx).eraseDups

theorem exec_coreFailure (h : core < 192) : exec (.coreFailure core) s
    = .next ((s.residentContexts core).foldl (State.requestSave · core) (s.failed core)) :=
  congrArg Host.Outcome.next (if_neg (by simp only [Config.coresPerDie, Config.dies]; omega))

/-- What a request to save leaves of a core that has failed, and of what the record and the mask say. -/
structure State.SameFailure (core : Nat) (s t : State) : Prop where
  coreMask : t.coreMask = s.coreMask
  repair : t.repair = s.repair
  enabled : (t.core core).enabled = (s.core core).enabled
  closed : (t.core core).closed = (s.core core).closed

theorem State.SameFailure.trans {u : State} (h : State.SameFailure core s t) (g : State.SameFailure core t u) :
    State.SameFailure core s u :=
  ⟨g.coreMask.trans h.coreMask, g.repair.trans h.repair, g.enabled.trans h.enabled, g.closed.trans h.closed⟩

theorem State.SameFailure.updCore {g : Core → Core} (he : ∀ k, (g k).enabled = k.enabled) (hc : ∀ k, (g k).closed = k.closed) :
    State.SameFailure core s (s.updCore core g) where
  coreMask := rfl
  repair := rfl
  enabled := by simp [State.updCore, State.core_setCore, he]
  closed := by simp [State.updCore, State.core_setCore, hc]

theorem State.SameFailure.updSheaf {id : Nat} {g : Sheaf → Sheaf} : State.SameFailure core s (s.updSheaf id g) where
  coreMask := State.updSheaf_coreMask s id g
  repair := by
    unfold State.updSheaf
    split
    · rfl
    · rfl
  enabled := by simp [State.core]
  closed := by simp [State.core]

/-- What each step keeps, a sequence of steps keeps. -/
theorem State.SameFailure.foldl {β : Type} {g : State → β → State} (hg : ∀ t x, State.SameFailure core t (g t x)) (l : List β) :
    State.SameFailure core s (l.foldl g s) := by
  induction l generalizing s with
  | nil => exact ⟨rfl, rfl, rfl, rfl⟩
  | cons x rest ih => exact (hg s x).trans ih

theorem State.SameFailure.requestSave : State.SameFailure core s (s.requestSave core ctx) := by
  unfold State.requestSave
  split
  · exact .updCore (fun _ => rfl) fun _ => rfl
  · exact (State.SameFailure.foldl (fun _ _ => .updSheaf) _).trans
      (.updCore (g := fun k => { k with saving := some (ctx, s.cycleOf core + s.regs.drain) }) (fun _ => rfl) fun _ => rfl)

/-- After a request a save runs on the core. -/
theorem State.saving_requestSave : ((s.requestSave core ctx).core core).saving.isSome = true := by
  unfold State.requestSave
  split
  next h => simpa [State.holdRequest, State.updCore, State.core_setCore] using h
  next h => simp [State.beginSave, State.updCore, State.core_setCore]

theorem State.saving_requestSaves {l : List Nat} (hl : l ≠ []) :
    ((l.foldl (State.requestSave · core) s).core core).saving.isSome = true := by
  induction l generalizing s with
  | nil => exact absurd rfl hl
  | cons c rest ih =>
    cases rest with
    | nil => exact State.saving_requestSave
    | cons d rest => exact ih (by simp)

theorem State.residentContexts_ne_nil (h : s.residents core ≠ []) : s.residentContexts core ≠ [] := by
  unfold State.residentContexts
  obtain ⟨u, rest, hu⟩ := List.exists_cons_of_ne_nil h
  rw [hu, List.map_cons, List.eraseDups_cons]
  exact List.cons_ne_nil _ _

theorem State.failed_core : (s.failed core).core core = { s.core core with enabled := false, closed := true } := by
  unfold State.failed State.updCore
  rw [State.core_setCore, if_pos rfl]
  rfl

/-- The mask of enabled cores loses one. -/
theorem getLsbD_clear_core {m : BitVec 192} (h : core < 192) (c : Nat) :
    (m &&& ~~~BitVec.twoPow 192 core).getLsbD c = (m.getLsbD c && decide (c ≠ core)) := by
  by_cases hc : c < 192
  · by_cases e : c = core
    · simp [e, h]
    · simp [e, hc]
  · simp [BitVec.getLsbD_of_ge _ _ (Nat.le_of_not_lt hc)]

/-! ### The repair record (R428) -/

theorem exec_repairRecordWrite {fails : List Nat} {rows : List DWord} {seq ed ml : Nat} :
    exec (.repairRecordWrite fails rows seq ed ml) s =
      if fails.length = 4 ∧ s.repair.seq < seq
          ∧ Config.edVerify (Config.identityKey 0) (Repair.digest { seq := seq, fails := fails, rows := rows }) ed = true
          ∧ Config.mlVerify (Config.identityKey 1) (Repair.digest { seq := seq, fails := fails, rows := rows }) ml = true
      then .next { s with repair := Repair.trimmed { seq := seq, fails := fails, rows := rows } } else .next s := by
  refine (apply_ite Host.Outcome.next _ _ _).trans (if_congr ?_ rfl rfl)
  simp only [Bool.and_eq_true, decide_eq_true_eq, and_assoc]

/-! ### Module reset (R12, R426 to R428) -/

/-- A logical core of a die is absent when its number is not below that of the die's enabled cores. -/
theorem Repair.mem_absent {r : Repair} {c : Nat} (h : c < 192) : c ∈ r.absent ↔ r.enabledCores (c / 48) ≤ c % 48 := by
  unfold Repair.absent
  simp only [List.mem_flatMap, List.mem_filterMap, List.mem_range, Config.dies, Config.coresPerDie, Option.ite_none_right_eq_some,
    Option.some.injEq]
  constructor
  · rintro ⟨d, hd, k, hk, ha, rfl⟩
    rwa [show (d * 48 + k) / 48 = d by omega, show (d * 48 + k) % 48 = k by omega]
  · exact fun ha => ⟨c / 48, by omega, c % 48, by omega, ha, by omega⟩

theorem Repair.enabled_cores {r : Repair} {c : Nat} (h : c < 192) :
    (r.cores.get c).enabled = decide (c % 48 < r.enabledCores (c / 48)) := by
  unfold Repair.cores
  rw [Store.get_foldl_set]
  by_cases ha : c ∈ r.absent
  · simpa [ha] using (r.mem_absent h).1 ha
  · rw [if_neg ha]
    exact (decide_eq_true (Nat.lt_of_not_le fun hc => ha ((r.mem_absent h).2 hc))).symm

/-- Cores taken from a mask of enabled ones: those that are not among them are left. -/
theorem getLsbD_clear_cores {l : List Nat} {m : BitVec 192} {c : Nat} (hl : ∀ x ∈ l, x < 192) :
    (l.foldl (fun m x => m &&& ~~~BitVec.twoPow 192 x) m).getLsbD c = (m.getLsbD c && decide (c ∉ l)) := by
  induction l generalizing m with
  | nil => simp
  | cons x rest ih =>
    rw [List.foldl_cons, ih fun y hy => hl y (List.mem_cons_of_mem _ hy), getLsbD_clear_core (hl x List.mem_cons_self)]
    simp [Bool.and_assoc]

theorem Repair.absent_lt {r : Repair} : ∀ c ∈ r.absent, c < 192 := by
  intro c hc
  unfold Repair.absent at hc
  simp only [List.mem_flatMap, List.mem_filterMap, List.mem_range, Config.dies, Config.coresPerDie, Option.ite_none_right_eq_some,
    Option.some.injEq] at hc
  obtain ⟨d, hd, k, hk, -, rfl⟩ := hc
  omega

/-- The reported mask names the cores that are enabled. -/
theorem Repair.getLsbD_coreMask {r : Repair} {c : Nat} (h : c < 192) : r.coreMask.getLsbD c = (r.cores.get c).enabled := by
  unfold Repair.coreMask
  rw [getLsbD_clear_cores r.absent_lt, r.enabled_cores h, BitVec.getLsbD_allOnes, decide_eq_true h, Bool.true_and]
  exact decide_eq_decide.2 (by rw [r.mem_absent h, Nat.not_le])

theorem Repair.afterReset_eq {r : Repair} : r.afterReset =
    let rows := r.rows.map fun x => if x ||| 1 ∈ r.applied then x ||| 1 else x
    if rows = r.rows then r else { r with seq := r.seq + 1, rows := rows } := by
  unfold Repair.afterReset
  simp only [List.contains_iff_mem]

/-! ### Boot (R429) -/

/-- An accepted image is the one that its manifest names, and of no lower version than the counter. -/
theorem Trust.accepts_version {u : Trust} {i : FwImage} (h : u.accepts i = true) :
    Config.manifestDigest i.manifest = Config.sha384 i.image ∧ u.counter ≤ i.version := by
  unfold Trust.accepts at h
  simp only [Bool.and_eq_true, beq_iff_eq, decide_eq_true_eq] at h
  obtain ⟨⟨-, hd⟩, hv⟩ := h
  exact ⟨hd, hv⟩

section
variable {bank : Nat} (hb : bank < 2) (hi : s.trust.image = none)
include hb hi

theorem exec_bootImageLoad_runs {i : FwImage} (hx : (if bank = 0 then s.trust.bank0 else s.trust.bank1) = some i)
    (ha : s.trust.accepts i = true) : exec (.bootImageLoad bank) s = .next (s.boot i) := by
  refine congrArg Host.Outcome.next ((if_neg (by simp [hi]; omega)).trans ?_)
  simp only [hx]
  exact if_pos ha

theorem exec_bootImageLoad_fails
    (ha : ∀ i, (if bank = 0 then s.trust.bank0 else s.trust.bank1) = some i → s.trust.accepts i = false) :
    exec (.bootImageLoad bank) s =
      let tried := if bank ∈ s.trust.triedBanks then s.trust.triedBanks else s.trust.triedBanks ++ [bank]
      .next { s with trust := { s.trust with triedBanks := tried, recovery := decide (tried.length = 2) } } := by
  refine congrArg Host.Outcome.next ((if_neg (by simp [hi]; omega)).trans ?_)
  simp only [List.contains_iff_mem]
  split
  next i hx => exact if_neg (by simp [ha i hx])
  next => rfl

end

theorem exec_recoveryImageDoe {m ed ml : Nat} {b : ImageBody} :
    exec (.recoveryImageDoe m ed ml b) s =
      let i : FwImage := { manifest := m, edSig := ed, mlSig := ml, version := b.version, image := b.image }
      if s.trust.recovery = true ∧ s.trust.accepts i = true then .next (s.boot i) else .next s := by
  refine (apply_ite Host.Outcome.next _ _ _).trans (if_congr ?_ rfl rfl)
  exact Bool.and_eq_true_iff

/-! ### The statement -/

/-- Settles O52: clause by clause, each by the lemma that says what its event does. -/
theorem integrityAndBoot : Obligations.IntegrityAndBoot := by
  unfold Obligations.IntegrityAndBoot
  intro s
  refine ⟨fun line k h => ⟨exec_scrubPass_clean h, ⟨?_, fun hk => ?_⟩, fun hc => ?_, exec_scrubPass_check_bad h⟩,
    fun n => ⟨rfl, rfl⟩,
    fun row => exec_hbmRowRetire_unasked,
    fun row h => ?_,
    fun core h => ?_,
    fun fails rows seq ed ml => exec_repairRecordWrite,
    ?_,
    fun bank hb hi => ⟨fun i => exec_bootImageLoad_runs hb hi, exec_bootImageLoad_fails hb hi,
      fun i => Trust.accepts_version, fun m ed ml ver im => exec_recoveryImageDoe⟩⟩
  · exact (exec_scrubPass_corrected h).trans (congrArg Host.Outcome.next State.rowError_eq)
  · exact ⟨_, (exec_scrubPass_uncorrected h hk).trans (congrArg Host.Outcome.next State.askMove_eq), rfl,
      fun a => State.poisonAt_setPoison_word⟩
  · exact ⟨_, xor_one_ne _, exec_scrubPass_check h hc⟩
  · rw [exec_hbmRowRetire h, Repair.record_eq]
    rfl
  · have hs := State.SameFailure.foldl (core := core) (s := s.failed core)
      (fun _ c => State.SameFailure.requestSave (ctx := c)) (s.residentContexts core)
    refine ⟨_, exec_coreFailure h, ?_, ?_, fun c => ?_, fun b hb => ?_, fun _ hr => ?_⟩
    · rw [hs.enabled, State.failed_core]
    · rw [hs.closed, State.failed_core]
    · rw [hs.coreMask]
      exact getLsbD_clear_core h c
    · rw [hs.repair]
      unfold State.failed
      simp only [hb]
      rfl
    · exact State.saving_requestSaves (State.residentContexts_ne_nil hr)
  · refine ⟨_, rfl, fun a => ?_, rfl, rfl, rfl, rfl, rfl, rfl, rfl, rfl, rfl, rfl, rfl, rfl, Repair.afterReset_eq, rfl, rfl, rfl,
      rfl, fun c hc => ⟨Repair.enabled_cores hc, Repair.getLsbD_coreMask hc⟩⟩
    refine (Store.get_filter_key (p := fun n => decide (2 ^ 60 ≤ n))).trans ?_
    by_cases ha : a < 2 ^ 60
    · rw [if_neg (by simpa using ha), if_pos ha]
      rfl
    · rw [if_pos (by simpa using ha), if_neg ha]
      rfl

end Sys2Proof.Machine
end

section
/-!
PROOFS. Traps and parks (O25): what the entry of a pending trap and the end of a park come to, one lemma for each clause of the statement.
-/
namespace Sys2Proof.Machine
open Sys2Proof.Claims

variable {s t : State} {id : Nat} {f g : Sheaf} {m : Mask} {l : Nat}

/-! ### Changes of one sheaf -/

theorem State.setSheaf_oneSheaf : OneSheaf s (s.setSheaf id f) id := ⟨fun k hk => by simp [hk], rfl⟩

theorem State.updSheaf_oneSheaf {u : Sheaf → Sheaf} : OneSheaf s (s.updSheaf id u) id := by
  unfold State.updSheaf
  split
  · exact State.setSheaf_oneSheaf
  · exact ⟨fun _ _ => rfl, rfl⟩

theorem State.sheaf_setSheaf_self : (s.setSheaf id f).sheaf id = some f := (s.sheaf_setSheaf id id f).trans (if_pos rfl)

theorem oneSheaf_trans {u : State} (a : OneSheaf s t id) (b : OneSheaf t u id) : OneSheaf s u id := by
  obtain ⟨ha, ea⟩ := a
  obtain ⟨hb, eb⟩ := b
  refine ⟨fun k hk => (hb k hk).trans (ha k hk), ?_⟩
  rw [ea] at eb
  exact eb

theorem State.updSheaf_rest {u : Sheaf → Sheaf} : s.updSheaf id u = { s with sheaves := (s.updSheaf id u).sheaves } :=
  State.updSheaf_oneSheaf.2

/-- What a report of a fault leaves of its sheaf. -/
theorem State.beginService_sheaf {p : Poison} (h : s.sheaf id = some f) :
    (s.beginService id m p false).sheaf id = some { f with awaiting := f.awaiting ++ [⟨m, p, .reported, false, []⟩] } :=
  State.sheaf_updSheaf h _

/-! ### What the commit of a sheaf's stores leaves of its lanes (R182) -/

theorem State.updSheaf_lanes {u : Sheaf → Sheaf} (h : ∀ x, (u x).lanes = x.lanes) :
    ((s.updSheaf id u).sheaf id).map Sheaf.lanes = (s.sheaf id).map Sheaf.lanes := by
  unfold State.updSheaf
  split
  · next x hx => simp [hx, h]
  · rfl

theorem State.performEntry_lanes {e : StoreEntry} :
    ((s.performEntry id m e).sheaf id).map Sheaf.lanes = (s.sheaf id).map Sheaf.lanes := by
  unfold State.performEntry
  dsimp only
  refine (State.updSheaf_lanes fun _ => by rfl).trans ?_
  split
  · unfold State.sheaf
    rw [foldl_keeps State.sheaves _ fun _ _ => State.performPart_sheaves ..]
  · refine (State.updSheaf_lanes fun _ => by rfl).trans ?_
    unfold State.sheaf
    rw [foldl_keeps State.sheaves _ fun _ _ => State.performPush_sheaves ..]

/-- After a commit the sheaf stands, its lanes as they were. -/
theorem State.commit_lanes (h : s.sheaf id = some f) : ∃ p, (s.commit id m).sheaf id = some p ∧ p.lanes = f.lanes := by
  have hl : ((s.commit id m).sheaf id).map Sheaf.lanes = (s.sheaf id).map Sheaf.lanes := by
    unfold State.commit
    rw [h]
    refine (State.updSheaf_lanes fun _ => by rfl).trans ?_
    rw [foldl_keeps (fun t : State => (t.sheaf id).map Sheaf.lanes) _ fun _ _ => State.performEntry_lanes, h]
  rw [h] at hl
  exact Option.map_eq_some_iff.1 hl

/-- A region start changes lanes and the pops that they settle. -/
theorem Sheaf.startRegion_frame {seq : Nat} :
    f.startRegion seq m = { f with lanes := (f.startRegion seq m).lanes, streams := (f.startRegion seq m).streams } := by
  unfold Sheaf.startRegion
  rw [Sheaf.updLanes_eq]
  rfl

theorem Sheaf.startRegion_hold {seq : Nat} : ((f.startRegion seq m).lane l).hold = (f.lane l).hold := by
  rw [Sheaf.startRegion_lane]
  split <;> rfl

/-! ### The end of a job (R365, R433) -/

@[simp] theorem State.report_jobs {r : ErrRec} : (s.report r).jobs = s.jobs := by
  unfold State.report
  split
  · rfl
  · next x hx =>
    split
    · exact State.updContext_jobs ..
    · split
      · next t ht =>
        obtain ⟨keys, -, hk⟩ := Except.exists_of_bind_eq_ok ht
        cases hk
        rw [State.updContext_jobs, State.store_frame]
      · rfl

theorem State.endJob_jobEnds {j cause : Nat} : JobEnds s (s.endJob j cause) j cause := by
  intro x hx he hc
  refine ⟨{ x with ended := some cause }, ?_, rfl⟩
  unfold State.endJob
  rw [hx]
  dsimp only
  rw [if_neg (by simp [he, hc])]
  exact Store.get_set_self ..

theorem jobEnds_of_jobs {u : State} {j cause : Nat} (h : u.jobs = s.jobs) (he : JobEnds u t j cause) : JobEnds s t j cause :=
  fun x hx => he x (by rw [State.job, h]; exact hx)

/-- A trap outside a handler that the launch has no entry for ends the job: TYPE 12 for a lane fault, and 3 else (R35, R365). -/
theorem State.fatalTrap_jobEnds {r : TrapRec} :
    JobEnds s (s.fatalTrap id f r false) (s.unitOf f).job (if r.kind = .lane then 12 else 3) := by
  unfold State.fatalTrap
  extract_lets lane e s1
  have hj : s1.jobs = s.jobs := by simp [s1]
  have hc : e.typ = if r.kind = .lane then 12 else 3 := by simp [e, lane, State.nameSheaf]
  rw [← hc]
  exact jobEnds_of_jobs hj State.endJob_jobEnds

/-! ### The entry of a trap (R92) -/

theorem vector_eq (u : UnitSt) (k : TrapKind) : vector u k = u.lrec.entry k := by cases k <;> rfl

/-- The sheaf of a trap that is entered: its lanes at the vector entry, in the handler, at a new region start. -/
def Sheaf.atVector (f : Sheaf) (r : TrapRec) (entry : DWord) (seq : Nat) : Sheaf :=
  let g : Sheaf := { f with emw := r.emw, emg := r.emg, emd := r.emd, ema := r.ema, emb := r.emb, empc := r.empc, trap := none }
  (g.updLanes r.lanes fun _ x =>
    { x with pc := entry, handler := true, limm := none, xmod := none, sched := none, hold := .none }).startRegion seq r.lanes

theorem Sheaf.atVector_frame {r : TrapRec} {entry : DWord} {seq : Nat} :
    f.atVector r entry seq = { f with
      emw := r.emw, emg := r.emg, emd := r.emd, ema := r.ema, emb := r.emb, empc := r.empc, trap := none
      lanes := (f.atVector r entry seq).lanes, streams := (f.atVector r entry seq).streams } := by
  unfold Sheaf.atVector
  dsimp only
  rw [Sheaf.startRegion_frame, Sheaf.updLanes_eq]

theorem Sheaf.atVector_lane {r : TrapRec} {entry : DWord} {seq : Nat} (hl : l < 32) :
    if r.lanes.getLsbD l = true then
      ((f.atVector r entry seq).lane l).pc = entry ∧ ((f.atVector r entry seq).lane l).start = entry
        ∧ ((f.atVector r entry seq).lane l).handler = true ∧ ((f.atVector r entry seq).lane l).limm = none
        ∧ ((f.atVector r entry seq).lane l).xmod = none ∧ ((f.atVector r entry seq).lane l).sched = none
        ∧ ((f.atVector r entry seq).lane l).hold = .none ∧ ((f.atVector r entry seq).lane l).life = (f.lane l).life
    else (f.atVector r entry seq).lane l = f.lane l := by
  unfold Sheaf.atVector
  dsimp only
  rw [Sheaf.startRegion_lane, Sheaf.lane_updLanes]
  split
  · next h =>
    rw [if_pos ⟨hl, h⟩, if_pos ⟨hl, h⟩]
    exact ⟨rfl, rfl, rfl, rfl, rfl, rfl, rfl, rfl⟩
  · next h =>
    rw [if_neg (by simp [h]), if_neg (by simp [h])]
    rfl

section
variable {r : TrapRec}

theorem State.enterTrap_fatal (hf : s.sheaf id = some f) (hv : vector (s.unitOf f) r.kind = 0) :
    s.enterTrap id r = s.fatalTrap id f r false := by
  unfold State.enterTrap
  rw [hf]
  exact if_pos ((vector_eq ..).symm.trans hv)

theorem State.enterTrap_enters (hf : s.sheaf id = some f) (hv : vector (s.unitOf f) r.kind ≠ 0) :
    s.enterTrap id r = (s.commit id r.lanes).take.2.updSheaf id fun g =>
      g.atVector r (vector (s.unitOf f) r.kind) (s.commit id r.lanes).fresh := by
  unfold State.enterTrap
  rw [vector_eq] at hv ⊢
  rw [hf]
  exact if_neg hv

variable (hf : s.sheaf id = some f) (ht : f.trap = some r)
include hf ht

/-- A saved sheaf enters no trap (log 33). -/
theorem exec_trapEntry_away (hp : f.place = none) : exec (.trapEntry id) s = .next s := by
  show Host.Outcome.next (s.tryTrap id) = _
  unfold State.tryTrap
  simp only [hf, ht, hp]
  rfl

variable (hd : s.drained id f = true) (hq : f.translated r.lanes = true) (hp : f.place.isSome = true)
include hd hq hp

/-- What the event of a pending trap of a drained sheaf comes to, its lanes' stores translated (log 33, log 51). -/
theorem exec_trapEntry_placed : exec (.trapEntry id) s = .next (
    (f.firstFault r.lanes).elim (if s.commitHeld f r.lanes = true then s else s.enterTrap id r)
      fun p => (s.setSheaf id { f with trap := none }).beginService id r.lanes p false) := by
  show Host.Outcome.next (s.tryTrap id) = _
  unfold State.tryTrap
  simp only [hf, ht, hd, hq, Option.isNone_eq_false_iff.2 hp]
  cases f.firstFault r.lanes <;> rfl

/-- A region that has met a condition is replayed instead. -/
theorem exec_trapEntry_replays {q : Poison} (hx : f.firstFault r.lanes = some q) :
    ∃ t z, exec (.trapEntry id) s = .next t ∧ t.sheaf id = some z ∧ OneSheaf s t id
      ∧ z = { f with trap := none, awaiting := f.awaiting ++ [⟨r.lanes, q, .reported, false, []⟩] } := by
  have hs : ((s.setSheaf id { f with trap := none }).beginService id r.lanes q false).sheaf id
      = some { f with trap := none, awaiting := f.awaiting ++ [⟨r.lanes, q, .reported, false, []⟩] } :=
    State.beginService_sheaf State.sheaf_setSheaf_self
  refine ⟨_, _, ?_, hs, oneSheaf_trans State.setSheaf_oneSheaf State.updSheaf_oneSheaf, rfl⟩
  rw [exec_trapEntry_placed hf ht hd hq hp, hx]
  rfl

variable (hx : f.firstFault r.lanes = none)
include hx

theorem exec_trapEntry_held (hc : s.commitHeld f r.lanes = true) : exec (.trapEntry id) s = .next s := by
  rw [exec_trapEntry_placed hf ht hd hq hp, hx]
  exact congrArg Host.Outcome.next (if_pos hc)

variable (hc : s.commitHeld f r.lanes = false)
include hc

theorem exec_trapEntry_goes : exec (.trapEntry id) s = .next (s.enterTrap id r) := by
  rw [exec_trapEntry_placed hf ht hd hq hp, hx]
  exact congrArg Host.Outcome.next (if_neg (by simp [hc]))

theorem exec_trapEntry_enters (hv : vector (s.unitOf f) r.kind ≠ 0) :
    ∃ t z p, exec (.trapEntry id) s = .next t ∧ (s.commit id r.lanes).sheaf id = some p ∧ t.sheaf id = some z
      ∧ (∀ k, k ≠ id → t.sheaf k = (s.commit id r.lanes).sheaf k)
      ∧ t = { s.commit id r.lanes with sheaves := t.sheaves, fresh := t.fresh }
      ∧ z = p.atVector r (vector (s.unitOf f) r.kind) (s.commit id r.lanes).fresh := by
  obtain ⟨p, hs, -⟩ := State.commit_lanes (m := r.lanes) hf
  have hz := State.sheaf_updSheaf (s := (s.commit id r.lanes).take.2) hs fun g =>
    g.atVector r (vector (s.unitOf f) r.kind) (s.commit id r.lanes).fresh
  refine ⟨_, _, p, ?_, hs, hz, (State.updSheaf_in ..).others, ?_, rfl⟩
  · rw [exec_trapEntry_goes hf ht hd hq hp hx hc, State.enterTrap_enters hf hv]
  · rw [State.updSheaf_rest]
    rfl

end

/-! ### The end of a park (R82, R157) -/

/-- The sheaf of a park that ends: the lanes that an `EXIT` holds exit. -/
def Sheaf.exitsOver (f : Sheaf) : Sheaf := f.endLanes f.exiting .exited

theorem Sheaf.exitsOver_frame : f.exitsOver = { f with
    lanes := f.exitsOver.lanes, flagOps := f.exitsOver.flagOps, streams := f.exitsOver.streams
    outstanding := f.exitsOver.outstanding } := by
  unfold Sheaf.exitsOver Sheaf.endLanes
  dsimp only
  rw [Sheaf.updLanes_eq]
  rfl

theorem Sheaf.getLsbD_exiting (hl : l < 32) : f.exiting.getLsbD l = decide ((f.lane l).hold = .exit) := by
  unfold Sheaf.exiting
  rw [getLsbD_laneMask, decide_eq_true hl, Bool.true_and, Bool.beq_eq_decide_eq]

theorem Sheaf.exitsOver_lane (hl : l < 32) : f.exitsOver.lane l = if (f.lane l).hold = .exit then
    { f.lane l with life := .exited, handler := false, pass := 0, limm := none, xmod := none, sched := none, hold := .none
                    poisoned := none, alsoMet := [], declined := none } else f.lane l := by
  unfold Sheaf.exitsOver Sheaf.endLanes
  dsimp only
  rw [Sheaf.lane_updLanes]
  simp only [hl, Sheaf.getLsbD_exiting hl, true_and, decide_eq_true_eq]
  rfl

theorem Sheaf.exitsOver_flagOps {o : FlagOp} (ho : o ∈ f.exitsOver.flagOps) (hl : l < 32) (he : (f.lane l).hold = .exit) :
    o.lanes.getLsbD l = false := by
  unfold Sheaf.exitsOver Sheaf.endLanes at ho
  dsimp only at ho
  rw [Sheaf.updLanes_eq] at ho
  obtain ⟨x, -, rfl⟩ := List.mem_map.1 (List.mem_filter.1 ho).1
  simp [Sheaf.getLsbD_exiting hl, he]

/-- Where lanes are held as they were, those that an `EXIT` held are done with. -/
theorem exitsDone_exitsOver (h : ∀ l, l < 32 → (g.lane l).hold = (f.lane l).hold) : ExitsDone f g.exitsOver := by
  refine ⟨fun l hl he => ?_, fun o ho l hl he => Sheaf.exitsOver_flagOps ho hl ((h l hl).trans he)⟩
  rw [Sheaf.exitsOver_lane hl, if_pos ((h l hl).trans he)]
  exact ⟨rfl, rfl⟩

/-- A change of the sheaf by which the lanes that an `EXIT` held exit, and no other lane differs. -/
theorem State.updSheaf_exitsOver (hg : s.sheaf id = some g) (h : ∀ l, l < 32 → (g.lane l).hold = (f.lane l).hold) :
    ∃ z, (s.updSheaf id Sheaf.exitsOver).sheaf id = some z
      ∧ z = { g with lanes := z.lanes, flagOps := z.flagOps, streams := z.streams, outstanding := z.outstanding }
      ∧ ExitsDone f z ∧ ∀ l, l < 32 → (f.lane l).hold ≠ .exit → z.lane l = g.lane l := by
  refine ⟨_, State.sheaf_updSheaf hg _, Sheaf.exitsOver_frame, exitsDone_exitsOver h, fun l hl he => ?_⟩
  rw [Sheaf.exitsOver_lane hl, if_neg fun hx => he ((h l hl).symm.trans hx)]

/-- A position that commits late, its region having met nothing: its stores commit and a region starts. -/
theorem State.endLate_sound (hg : s.sheaf id = some g) (hx : f.firstFault m = none) :
    ∃ q, (s.commit id m).sheaf id = some q ∧ q.lanes = g.lanes
      ∧ (s.endLate id f m).sheaf id = some (q.startRegion (s.commit id m).fresh m)
      ∧ s.endLate id f m = { s.commit id m with sheaves := (s.endLate id f m).sheaves, fresh := (s.endLate id f m).fresh } := by
  obtain ⟨q, hs, hk⟩ := State.commit_lanes (m := m) hg
  have he : s.endLate id f m = (s.commit id m).take.2.updSheaf id fun g => g.startRegion (s.commit id m).fresh m := by
    unfold State.endLate
    rw [hx]
    rfl
  rw [he]
  refine ⟨q, hs, hk, State.sheaf_updSheaf (s := (s.commit id m).take.2) hs _, ?_⟩
  rw [State.updSheaf_rest]
  rfl

theorem State.endLate_fault {q : Poison} (hx : f.firstFault m = some q) : s.endLate id f m = s.beginService id m q false := by
  unfold State.endLate
  rw [hx]

section
variable {p : Park} (hf : s.sheaf id = some f) (hp : f.park = some p)
include hf hp

/-- A saved sheaf stays parked (log 61). -/
theorem exec_yParkEnd_away (hq : f.place = none) : exec (.yParkEnd id) s = .next s := by
  show execYParkEnd id s = _
  unfold execYParkEnd
  simp only [hf, hp, hq]
  rfl

variable (hd : s.drained id f = true) (hq : f.place.isSome = true)
include hd hq

/-- What the event of a drained sheaf's park comes to (log 51, log 61). -/
theorem exec_yParkEnd_placed : exec (.yParkEnd id) s = .next (
    let late := p.late.map (· &&& f.liveMask)
    if (late.any fun m => !f.translated m || s.commitHeld f m) = true then s
    else (late.foldl (fun (acc : State) m => acc.endLate id f m) (s.setSheaf id { f with park := none })).updSheaf id
      Sheaf.exitsOver) := by
  show execYParkEnd id s = _
  unfold execYParkEnd
  simp only [hf, hp, hd, Option.isNone_eq_false_iff.2 hq]
  rfl

theorem exec_yParkEnd_plain (hl : p.late = []) : ∃ t z, exec (.yParkEnd id) s = .next t ∧ OneSheaf s t id ∧ t.sheaf id = some z
    ∧ z = { f with park := none, lanes := z.lanes, flagOps := z.flagOps, streams := z.streams, outstanding := z.outstanding }
    ∧ ExitsDone f z ∧ ∀ l, l < 32 → (f.lane l).hold ≠ .exit → z.lane l = f.lane l := by
  obtain ⟨z, hz⟩ := State.updSheaf_exitsOver (f := f) (State.sheaf_setSheaf_self (s := s) (id := id) (f := { f with park := none }))
    fun _ _ => rfl
  refine ⟨_, z, ?_, oneSheaf_trans State.setSheaf_oneSheaf State.updSheaf_oneSheaf, hz⟩
  rw [exec_yParkEnd_placed hf hp hd hq, hl]
  rfl

variable (hl : p.late = [m])
include hl

theorem exec_yParkEnd_held (hc : s.commitHeld f (m &&& f.liveMask) = true) : exec (.yParkEnd id) s = .next s := by
  rw [exec_yParkEnd_placed hf hp hd hq, hl]
  exact congrArg Host.Outcome.next (if_pos (by simp [hc]))

variable (ht : f.translated (m &&& f.liveMask) = true) (hc : s.commitHeld f (m &&& f.liveMask) = false)
include ht hc

theorem exec_yParkEnd_goes : exec (.yParkEnd id) s
    = .next (((s.setSheaf id { f with park := none }).endLate id f (m &&& f.liveMask)).updSheaf id Sheaf.exitsOver) := by
  rw [exec_yParkEnd_placed hf hp hd hq, hl]
  exact congrArg Host.Outcome.next (if_neg (by simp [ht, hc]))

/-- A position that commits late commits its stores, and goes on in a new region. -/
theorem exec_yParkEnd_commits (hx : f.firstFault (m &&& f.liveMask) = none) :
    ∃ t u z q, exec (.yParkEnd id) s = .next t ∧ u.sheaf id = some { f with park := none } ∧ OneSheaf s u id
      ∧ (u.commit id (m &&& f.liveMask)).sheaf id = some q ∧ t.sheaf id = some z
      ∧ t = { u.commit id (m &&& f.liveMask) with sheaves := t.sheaves, fresh := t.fresh }
      ∧ z = { q with lanes := z.lanes, streams := z.streams, flagOps := z.flagOps, outstanding := z.outstanding }
      ∧ ExitsDone f z ∧ ∀ l, l < 32 → (f.lane l).hold ≠ .exit → if (m &&& f.liveMask).getLsbD l = true
          then (z.lane l).start = (q.lane l).pc ∧ (z.lane l).pc = (q.lane l).pc ∧ (z.lane l).stepped = false
            ∧ (z.lane l).replays = 0
          else z.lane l = q.lane l := by
  obtain ⟨q, hs, hk, hg, hr⟩ := State.endLate_sound (State.sheaf_setSheaf_self (s := s) (id := id) (f := { f with park := none })) hx
  have hh (l : Nat) : q.lane l = f.lane l := congrArg (fun x : Store LaneSt => x.get l) hk
  obtain ⟨z, hz, hfr, he, hst⟩ := State.updSheaf_exitsOver (f := f) hg fun l _ => by rw [Sheaf.startRegion_hold, hh]
  refine ⟨_, _, z, q, exec_yParkEnd_goes hf hp hd hq hl ht hc, State.sheaf_setSheaf_self, State.setSheaf_oneSheaf, hs, hz, ?_, ?_, he,
    fun l hl hn => ?_⟩
  · rw [State.updSheaf_rest, hr]
  · rw [Sheaf.startRegion_frame] at hfr
    exact hfr
  · rw [hst l hl hn, Sheaf.startRegion_lane]
    split
    · next h =>
      rw [if_pos ⟨hl, h⟩]
      exact ⟨rfl, rfl, rfl, rfl⟩
    · next h => exact if_neg fun x => h x.2

theorem exec_yParkEnd_reports {x : Poison} (hx : f.firstFault (m &&& f.liveMask) = some x) :
    ∃ t z, exec (.yParkEnd id) s = .next t ∧ OneSheaf s t id ∧ t.sheaf id = some z
      ∧ z = { f with park := none, awaiting := f.awaiting ++ [⟨m &&& f.liveMask, x, .reported, false, []⟩]
                     lanes := z.lanes, flagOps := z.flagOps, streams := z.streams, outstanding := z.outstanding }
      ∧ ExitsDone f z ∧ ∀ l, l < 32 → (f.lane l).hold ≠ .exit → z.lane l = f.lane l := by
  obtain ⟨z, hz⟩ := State.updSheaf_exitsOver (f := f)
    (State.beginService_sheaf (m := m &&& f.liveMask) (p := x)
      (State.sheaf_setSheaf_self (s := s) (id := id) (f := { f with park := none }))) fun _ _ => rfl
  refine ⟨_, z, ?_, ?_, hz⟩
  · rw [exec_yParkEnd_goes hf hp hd hq hl ht hc, State.endLate_fault hx]
  · exact oneSheaf_trans (oneSheaf_trans State.setSheaf_oneSheaf State.updSheaf_oneSheaf) State.updSheaf_oneSheaf

end

/-! ### The statement -/

/-- Settles O25: clause by clause, each by the lemma that says what its event comes to. -/
theorem trapsAndParksEnd : Obligations.TrapsAndParksEnd := by
  unfold Obligations.TrapsAndParksEnd
  refine ⟨fun s id f r hf ht hd hq => ⟨exec_trapEntry_away hf ht, exec_trapEntry_held hf ht hd hq, fun hp hx hc hv => ?_,
      fun q hp hx => exec_trapEntry_replays hf ht hd hq hp hx, fun hp hx hc hv => ?_⟩,
    fun s id f p hf hp hd => ⟨exec_yParkEnd_away hf hp, exec_yParkEnd_plain hf hp hd, fun m => exec_yParkEnd_held hf hp hd,
      fun m hq hl => exec_yParkEnd_commits hf hp hd hq hl, fun m x hq hl ht hc => exec_yParkEnd_reports hf hp hd hq hl ht hc⟩⟩
  · obtain ⟨t, z, p, hn, hs, hz, ho, hr, rfl⟩ := exec_trapEntry_enters hf ht hd hq hp hx hc hv
    exact ⟨t, _, p, hn, hs, hz, ho, hr, Sheaf.atVector_frame, fun l => Sheaf.atVector_lane⟩
  · rw [exec_trapEntry_goes hf ht hd hq hp hx hc, State.enterTrap_fatal hf hv]
    exact ⟨_, rfl, State.fatalTrap_jobEnds⟩

end Sys2Proof.Machine
end

section
/-!
SUPPORT. Laws of words that write registers: what a word that runs may take for granted of its fields, its results in one register or in a
pair, its trap, a word that changes its sheaf beyond registers, and the clocks, which no commit of stores moves.
-/
namespace Sys2Proof.Machine
open Sys2Proof.Claims

/-! ### What a word that runs comes to -/

section
variable {i : Instr} {s : State} {c : Ctx} (r : Runs i s c)
include r

/-- The fields of a word that runs hold values that its description lists (R92). -/
theorem Runs.fields : (c.shapeOf i).fields = true := by
  have h := r.inOrder
  simp only [shapeOk, Bool.and_eq_true] at h
  exact h.1.2

/-- A word that runs has a FORM that it takes (R75). -/
theorem Runs.form_mem : c.form ∈ (c.shapeOf i).forms := by
  have h := r.inOrder
  simp only [shapeOk, attachOk, Bool.and_eq_true, List.contains_iff_mem] at h
  exact h.1.1.1.2

theorem Runs.committed_sheaf : ∃ f, (s.committedBy c (c.shapeOf i)).sheaf c.id = some f :=
  Option.isSome_iff_exists.1 (State.committedBy_stands (State.issuing_spec r.issuing).1)

variable {eff : Ctx → State → Eff} (hx : exec i s = issueWord i s eff)
include hx

/-- A word whose effect refuses takes the emulation trap (R92). -/
theorem Runs.emulates (hF : eff c (s.advance c (c.shapeOf i)) = .emul) : exec i s = .next (s.emulWord c) := by
  rw [hx, r.issue, hF]

variable {lat : Nat} {d : BitVec 7}

/-- One register a lane, the value taken from the state in which the effect begins. -/
theorem Runs.writes_result {G : Nat → Word}
    (hF : eff c (s.advance c (c.shapeOf i)) = .done ((s.advance c (c.shapeOf i)).result c lat d G)) :
    Completes i s c c.after (Writes c lat d 1 fun l => [G l]) :=
  r.completes_regs hx hF (fun f => f.writeField_regs ..) fun _ _ _ a b => (Writes.one r.active G _).congr a b

/-- The same for a pair. -/
theorem Runs.writes_result64 {G : Nat → DWord}
    (hF : eff c (s.advance c (c.shapeOf i)) = .done ((s.advance c (c.shapeOf i)).result64 c lat d G)) :
    Completes i s c c.after (Writes c lat d 2 fun l => pair (G l)) :=
  r.completes_regs hx hF (fun f => f.writeWords_regs ..) fun _ _ _ a b =>
    (Writes.wide r.active 2 (fun l => pair (G l)) _).congr a b

end

/-- The values of a destination field, written in another way. -/
theorem Completes.writes_congr {i : Instr} {s : State} {c : Ctx} {pcOf : Nat → DWord} {lat n : Nat} {d : BitVec 7}
    {val val' : Nat → List Word} (h : Completes i s c pcOf (Writes c lat d n val)) (hv : ∀ l, val l = val' l) :
    Completes i s c pcOf (Writes c lat d n val') :=
  (funext hv : val = val') ▸ h

/-! ### Words that change their sheaf beyond registers -/

/-- Where an effect keeps what the issue made of the lanes, they stand at the next word in the end. -/
theorem lanesGo_concluded {i : Instr} {c : Ctx} {sh : Shape} {f x : Sheaf} {seq : Nat}
    (hsub : ∀ l, c.act.getLsbD l = true → c.lanes.getLsbD l = true)
    (hk : ∀ l, LaneKept ((f.advanced c sh).lane l) (x.lane l))
    (hs : ∀ l, c.lanes.getLsbD l = false → x.lane l = (f.advanced c sh).lane l) :
    LanesGo f (x.concluded seq i c sh) c c.after := by
  refine ⟨fun l hl hm => ?_, fun l hl hm => ?_⟩
  · have k := (hk l).trans (Sheaf.concluded_lane x seq i c sh l).1
    have al := f.advanced_lane c sh l
    rw [if_pos ⟨hl, hm⟩] at al
    rw [al] at k
    exact ⟨k.pc, k.limm, k.xmod, k.life, k.handler, k.hold, k.bnd⟩
  · have hact : c.act.getLsbD l = false := Bool.eq_false_iff.2 fun h => by simp [hsub l h] at hm
    rw [(Sheaf.concluded_lane x seq i c sh l).2 hm hact, hs l hm, f.advanced_lane, if_neg (by simp [hm])]

/-- A word whose effect puts a sheaf in place of its own: the machine goes on to it, but for what every word's end does. -/
theorem Runs.replaces {i : Instr} {s : State} {c : Ctx} (r : Runs i s c) {eff : Ctx → State → Eff} (hx : exec i s = issueWord i s eff)
    {f x : Sheaf} (hf : (s.committedBy c (c.shapeOf i)).sheaf c.id = some f)
    (hF : eff c (s.advance c (c.shapeOf i)) = .done ((s.advance c (c.shapeOf i)).setSheaf c.id x))
    (hk : ∀ l, LaneKept ((f.advanced c (c.shapeOf i)).lane l) (x.lane l))
    (hs : ∀ l, c.lanes.getLsbD l = false → x.lane l = (f.advanced c (c.shapeOf i)).lane l) :
    ∃ t g, exec i s = .next t ∧ t.sheaf c.id = some g ∧ OnlySheaf (s.committedBy c (c.shapeOf i)) t c.id c.unit.job
      ∧ x.Quiet g ∧ LanesGo f g c c.after := by
  have hx' : ((s.advance c (c.shapeOf i)).setSheaf c.id x).sheaf c.id = some x := State.sheaf_setSheaf_self
  exact ⟨_, _, hx.trans (r.done hF), State.conclude_sheaf hx',
    ((State.advance_spec hf).1.trans (State.setSheaf_in ..)).trans (State.conclude_in ..), Sheaf.concluded_quiet ..,
    lanesGo_concluded (State.issuing_spec r.issuing).2 hk hs⟩

/-! ### One uniform register -/

section
variable {f : Sheaf} {now lat n : Nat} {x : Word}

theorem Sheaf.writeU_u : (f.writeU now lat n x).u = f.u.set n x := by unfold Sheaf.writeU Sheaf.setU; rw [Sheaf.note_eq]
theorem Sheaf.writeU_v : (f.writeU now lat n x).v = f.v := by unfold Sheaf.writeU Sheaf.setU; rw [Sheaf.note_eq]
theorem Sheaf.writeU_vPoison : (f.writeU now lat n x).vPoison = f.vPoison := by unfold Sheaf.writeU Sheaf.setU; rw [Sheaf.note_eq]
theorem Sheaf.writeU_p : (f.writeU now lat n x).p = f.p := by unfold Sheaf.writeU Sheaf.setU; rw [Sheaf.note_eq]

theorem Sheaf.get_writeU {k : Nat} : (f.writeU now lat n x).u.get k = if k = n then x else f.u.get k := by
  rw [Sheaf.writeU_u, Store.get_set]

theorem Sheaf.poisonAt_uKey (hn : n < 4096) : f.poisonAt (uKey n) = f.uPoison.get n := by
  unfold Sheaf.poisonAt uKey
  rw [if_neg (by omega), if_pos (by omega), Nat.add_sub_cancel_left]

/-- A uniform register's new value is on its way. -/
theorem Sheaf.writeU_late (hl : lat ≠ 0) (hn : n < 4096) :
    (⟨uKey n, f.u.get n, now + lat, f.uPoison.get n⟩ : Pending) ∈ (f.writeU now lat n x).pending :=
  Sheaf.poisonAt_uKey (f := f) hn ▸ Sheaf.note_new (f := f) hl

end

/-! ### The clocks (R160) -/

/-- What the clock words read: the ticks of the package, and the cycles of each die. -/
def State.clocks (s : State) : Nat × (Nat → Nat) := (s.ticks, fun d => (s.die d).cycle)

section
variable {s : State}

theorem State.setDie_clocks {d : Nat} {x : Die} (h : x.cycle = (s.die d).cycle) : (s.setDie d x).clocks = s.clocks := by
  refine Prod.ext rfl (funext fun k => ?_)
  show ((s.setDie d x).die k).cycle = (s.die k).cycle
  rw [State.die_setDie]
  split
  · next hk => rw [h, hk]
  · rfl

theorem State.l2Keep_clocks {d key cp : Nat} : (s.l2Keep d key cp).clocks = s.clocks :=
  State.setDie_clocks (by split <;> rfl)

theorem State.l2Only_clocks {key : Nat} : (s.l2Only key).clocks = s.clocks :=
  foldl_keeps State.clocks _ (fun t d => by
    split
    · rfl
    · exact State.setDie_clocks rfl) _ _

theorem State.charge_clocks {ctx n : Nat} {b : Budget} : (s.charge ctx b n).clocks = s.clocks := by
  rw [State.charge_frame]; rfl

theorem State.write_clocks {cells : List (Nat × Byte)} : (s.write cells).clocks = s.clocks := by
  rw [State.write_frame]; rfl

theorem State.updUnit_clocks {u : Nat} {g : UnitSt → UnitSt} : (s.updUnit u g).clocks = s.clocks := by
  unfold State.updUnit; split <;> rfl

theorem State.updSheaf_clocks {id : Nat} {g : Sheaf → Sheaf} : (s.updSheaf id g).clocks = s.clocks := by
  rw [State.updSheaf_rest]; rfl

theorem State.laneAccess_clocks {core ctx key cp n : Nat} {write : Bool} :
    (s.laneAccess core ctx key write cp n).clocks = s.clocks := by
  unfold State.laneAccess
  split
  · split
    · exact State.charge_clocks
    · rfl
  · split
    · split
      · rfl
      · exact State.l2Keep_clocks
    · extract_lets hit s1 s2
      have h1 : s1.clocks = s.clocks := by
        unfold s1; split
        · rfl
        · exact State.charge_clocks
      have h2 : s2.clocks = s.clocks := by
        unfold s2; split
        · exact h1
        · rw [State.l2Keep_clocks, State.l2Keep_clocks, h1]
      split
      · rw [State.l2Only_clocks, h2]
      · exact h2

theorem State.performAt_clocks {id : Nat} {f : Sheaf} {e : StoreEntry} {p : StorePart} {va : DWord} {keys : List Nat} :
    (s.performAt id f e p va keys).clocks = s.clocks := by
  unfold State.performAt
  extract_lets u key s1
  have h1 : s1.clocks = s.clocks := by unfold s1; split <;> rfl
  split
  · rfl
  · clear_value s1
    have hd {t : State} {lines : List Nat} : (t.dropLines f.coreNo lines).clocks = t.clocks := rfl
    rw [State.laneAccess_clocks, hd, State.write_clocks, h1]

theorem State.performPart_clocks {id : Nat} {e : StoreEntry} {p : StorePart} : (s.performPart id e p).clocks = s.clocks := by
  unfold State.performPart
  split
  · rfl
  · split
    · exact State.updUnit_clocks
    · split
      · rfl
      · exact State.performAt_clocks

theorem State.performPush_clocks {id k : Nat} {e : StoreEntry} {r : StreamReg} {p : StorePart} :
    (s.performPush id e r k p).clocks = s.clocks := by
  unfold State.performPush
  split
  · dsimp only
    split
    · exact State.updUnit_clocks
    · exact State.performAt_clocks
  · rfl

theorem State.performEntry_clocks {id : Nat} {m : Mask} {e : StoreEntry} : (s.performEntry id m e).clocks = s.clocks := by
  unfold State.performEntry
  dsimp only
  rw [State.updSheaf_clocks]
  split
  · exact foldl_keeps State.clocks _ (fun _ _ => State.performPart_clocks) _ _
  · rw [State.updSheaf_clocks]
    exact foldl_keeps State.clocks _ (fun _ _ => State.performPush_clocks) _ _

/-- A commit of stores moves no clock. -/
theorem State.commit_clocks {id : Nat} {m : Mask} : (s.commit id m).clocks = s.clocks := by
  unfold State.commit
  split
  · rfl
  · rw [State.updSheaf_clocks]
    exact foldl_keeps State.clocks _ (fun _ _ => State.performEntry_clocks) _ _

/-- The clocks stand as a word issues. -/
theorem State.advance_clocks {c : Ctx} {sh : Shape} : (s.advance c sh).clocks = s.clocks := by
  have hp {t : State} {j : Nat} : (t.progress j).clocks = t.clocks := by rw [State.progress_rest]; rfl
  have hc {t : State} : t.counted.clocks = t.clocks := rfl
  rw [State.advance, hp, hc, State.updSheaf_clocks]
  unfold State.committedBy
  split
  · exact State.commit_clocks
  · rfl

theorem State.advance_cycleOf {c : Ctx} {sh : Shape} {core : Nat} : (s.advance c sh).cycleOf core = (s.die (core / 48)).cycle :=
  congrArg (fun k => k.2 (core / 48)) State.advance_clocks

theorem State.advance_nanos {c : Ctx} {sh : Shape} : (s.advance c sh).nanos = s.ticks * 1000 / 2900 :=
  congrArg (fun k => k.1 * 1000 / 2900) State.advance_clocks

end

end Sys2Proof.Machine
end

section
/-!
PROOFS. Conversions, packing and unpacking (O8): the model's values are those of the statement, and each word writes them.
-/
namespace Sys2Proof.Machine
open Sys2Proof.Claims

/-! ### Values -/

theorem rmMode_eq (rm : Word) : rmMode rm = rm.toNat % 8 := by
  rw [rmMode, BitVec.extractLsb'_toNat, Nat.shiftRight_zero]

/-- A whole word read as a signed integer is its value in two's complement. -/
theorem readInt_signed {w : Nat} (hw : 0 < w) (x : BitVec w) : readInt w true x.toNat = x.toInt := by
  have h2 : 2 ^ w = 2 * 2 ^ (w - 1) := by rw [← Nat.pow_succ', Nat.succ_eq_add_one, Nat.sub_add_cancel hw]
  simp only [readInt, Nat.mod_eq_of_lt x.isLt, Bool.true_and, decide_eq_true_eq, BitVec.toInt_eq_toNat_cond]
  split
  · rw [if_neg (by omega)]
  · rw [if_pos (by omega)]

theorem readInt_unsigned {w : Nat} (x : BitVec w) : readInt w false x.toNat = x.toNat := by
  simp only [readInt, Nat.mod_eq_of_lt x.isLt, Bool.false_and, Bool.false_eq_true, if_false]

theorem convertEx_eq (c : Ctx) (t : Nat) (x : Ex) : convertEx c.f.rm (c.form == 1) t x = fromFloat c t x := by
  unfold convertEx fromFloat
  rw [rmMode_eq]
  rfl

/-- SAT clamps where the target is narrower than the source or of the other signedness (R60). -/
theorem intToInt_eq (sat : Bool) (w : Nat) (sg : Bool) (tw : Nat) (ts : Bool) (z : Int) :
    intToInt sat w sg tw ts z
      = if tw ≤ w ∧ ¬ (tw = w ∧ ts = sg) ∧ sat = true then max (intMin tw ts) (min z (intMax tw ts)) else z := by
  unfold intToInt clampInt
  by_cases hs : w = tw ∧ sg = ts
  · simp only [hs, decide_true, Bool.and_self, if_true, and_self, not_true_eq_false, false_and, and_false, if_false]
  · have hs' : ¬ (tw = w ∧ ts = sg) := fun h => hs ⟨h.1.symm, h.2.symm⟩
    by_cases hw : w < tw
    · simp only [Bool.and_eq_true, decide_eq_true_eq, if_neg hs, if_pos hw, Nat.not_le.2 hw, false_and, if_false]
    · simp only [Bool.and_eq_true, decide_eq_true_eq, if_neg hs, if_neg hw, Nat.le_of_not_lt hw, hs', not_false_eq_true, true_and]

theorem convertInt_eq (c : Ctx) (w : Nat) (sg : Bool) (t : Nat) (z : Int) :
    convertInt c.f.rm (c.form == 1) w sg t z = fromInt c w sg t z := by
  unfold convertInt fromInt intResult
  rcases h : intOf t with _ | ⟨tw, ts⟩
  · rfl
  · exact congrArg (fun x => bits64 (readInt tw ts (bits64 x).toNat)) (intToInt_eq ..)

theorem convertInt_signed (c : Ctx) {w : Nat} (hw : 0 < w) (t : Nat) (x : BitVec w) :
    convertInt c.f.rm (c.form == 1) w true t (readInt w true x.toNat) = fromInt c w true t x.toInt := by
  rw [convertInt_eq, readInt_signed hw]

theorem convertInt_unsigned (c : Ctx) {w : Nat} (t : Nat) (x : BitVec w) :
    convertInt c.f.rm (c.form == 1) w false t (readInt w false x.toNat) = fromInt c w false t x.toNat := by
  rw [convertInt_eq, readInt_unsigned]

/-- The codes of the narrow formats, which `cvt` reads and `CVTS` names by FORM, have a format each (R125, R127, R128). -/
theorem fmtOf_narrow {k : Nat} (inf : Bool) (h : (isBinary8 k || decide (11 ≤ k ∧ k ≤ 15)) = true) : ∃ f, fmtOf k inf = some f := by
  have hk : k < 32 := by
    simp only [isBinary8, Bool.or_eq_true, decide_eq_true_eq] at h
    omega
  have all : ∀ n < 32, (isBinary8 n || decide (11 ≤ n ∧ n ≤ 15)) = true → (fmtOf n inf).isSome = true := by
    cases inf <;> decide
  exact Option.isSome_iff_exists.1 (all k hk h)

theorem scaledBy_eq {form : Nat} (h : form < 12) : scaledBy form = some (scaledFmt form) := by
  unfold scaledBy scaledFmt
  by_cases h5 : form < 5
  · obtain ⟨f, hf⟩ := fmtOf_narrow (k := 11 + form) false (Bool.or_eq_true_iff.2 (.inr (decide_eq_true (by omega))))
    rw [if_pos h5, if_pos h5, hf, Option.getD_some]
  · obtain ⟨f, hf⟩ := fmtOf_narrow (k := 12 + form) false
      (Bool.or_eq_true_iff.2 (.inl (Bool.or_eq_true_iff.2 (.inl (decide_eq_true (by omega))))))
    rw [if_neg h5, if_pos h, if_neg h5, hf, Option.getD_some]

/-- A value under the scale in the low byte of a word (R54, R128). -/
theorem scaled_lowByte (x : Ex) (b : Word) :
    x.scaled (b.extractLsb' 0 8) = if b.toNat % 256 = 255 then .nan else x.scale (b.toNat % 256 - 127) := by
  have hb : (b.extractLsb' 0 8).toNat = b.toNat % 256 := by rw [BitVec.extractLsb'_toNat, Nat.shiftRight_zero]
  unfold Ex.scaled scaleExp
  by_cases h : b.toNat % 256 = 255
  · rw [if_pos h, if_pos (BitVec.eq_of_toNat_eq (y := 0xFF) (hb.trans h))]
  · rw [if_neg h, if_neg fun e => h (by rw [← hb, e]; rfl), hb]
    rfl

theorem toNat_append_eq {p q : Nat} (u : BitVec p) (v : BitVec q) : (u ++ v).toNat = v.toNat + u.toNat * 2 ^ q := by
  rw [BitVec.toNat_append, ← Nat.shiftLeft_add_eq_or_of_lt v.isLt, Nat.shiftLeft_eq, Nat.add_comm]

theorem singleton_eq_one {x : Word} {n : Nat} (h : x.toNat = n) : [x] = one n := by
  rw [one, ← h, BitVec.ofInt_natCast, BitVec.ofNat_toNat, BitVec.setWidth_eq]

section
variable (d a b : Word)

theorem packOf_halves : [packOf 0 d a b] = one (a.toNat % 2 ^ 16 + b.toNat % 2 ^ 16 * 2 ^ 16) :=
  singleton_eq_one (n := a.toNat % 2 ^ 16 + b.toNat % 2 ^ 16 * 2 ^ 16)
    ((toNat_append_eq (b.extractLsb' 0 16) (a.extractLsb' 0 16)).trans
      (by rw [BitVec.extractLsb'_toNat, BitVec.extractLsb'_toNat, Nat.shiftRight_zero, Nat.shiftRight_zero]))

theorem packOf_bytes :
    [packOf 1 d a b] = one (a.toNat % 2 ^ 8 + b.toNat % 2 ^ 8 * 2 ^ 8 + d.toNat % 2 ^ 16 * 2 ^ 16) :=
  singleton_eq_one (n := a.toNat % 2 ^ 8 + b.toNat % 2 ^ 8 * 2 ^ 8 + d.toNat % 2 ^ 16 * 2 ^ 16)
    ((toNat_append_eq (d.extractLsb' 0 16 ++ b.extractLsb' 0 8) (a.extractLsb' 0 8)).trans
      (by simp only [toNat_append_eq, BitVec.extractLsb'_toNat, Nat.shiftRight_zero]; omega))

theorem packOf_nibbles (n : Nat) :
    [packOf (n + 2) d a b] = one (a.toNat % 2 ^ 4 + b.toNat % 2 ^ 4 * 2 ^ 4 + d.toNat % 2 ^ 24 * 2 ^ 8) :=
  singleton_eq_one (n := a.toNat % 2 ^ 4 + b.toNat % 2 ^ 4 * 2 ^ 4 + d.toNat % 2 ^ 24 * 2 ^ 8)
    ((toNat_append_eq (d.extractLsb' 0 24 ++ b.extractLsb' 0 4) (a.extractLsb' 0 4)).trans
      (by simp only [toNat_append_eq, BitVec.extractLsb'_toNat, Nat.shiftRight_zero]; omega))

end

/-- Bits of an element that `UNPK` takes (R130). -/
theorem unpkWidth {w : BitVec 2} (h : w.toNat ≤ 2) : 16 / 2 ^ w.toNat = if w = 0 then 16 else if w = 1 then 8 else 4 := by
  revert w
  decide

/-! ### Words -/

/-- A converted value goes to one register, or to a pair where the target has 64 bits (R126). -/
theorem Runs.writes_converted {i : Instr} {s : State} {c : Ctx} (r : Runs i s c) {t : BitVec 5} {d : BitVec 7}
    {conv : Ctx → Nat → DWord}
    (hx : exec i s = issueWord i s fun c u =>
      .done (if wideCode t then u.result64 c 4 d (conv c) else u.result c 4 d fun l => lo32 (conv c l))) :
    Completes i s c c.after (Writes c 4 d (convRegs t.toNat) fun l => convWords t.toNat (conv c l)) := by
  have hw : wideCode t = true ↔ t.toNat = 3 ∨ t.toNat = 7 := by
    simp only [wideCode, Bool.or_eq_true, beq_iff_eq, BitVec.toNat_eq]
    rfl
  unfold convRegs convWords
  by_cases h : wideCode t = true
  · simp only [hw.1 h, if_true]
    exact r.writes_result64 hx (by simp only [h, if_true])
  · simp only [mt hw.2 h, if_false]
    exact r.writes_result hx (by simp only [h]; rfl)

/-- Settles O8: word by word, each by the lemma that says what its value is. -/
theorem conversions : Obligations.Conversions := by
  unfold Obligations.Conversions
  intro y g d a b k2 k3 t k5
  refine ⟨fun s c r => ?_, fun s c r => ?_, fun s c r => ?_, fun s c r => ?_, fun s c r => ?_, fun s c r => ?_⟩
  · refine Completes.writes_congr (r.writes_converted rfl) fun l => congrArg (convWords t.toNat) ?_
    obtain rfl | rfl | rfl | rfl : k2 = 0 ∨ k2 = 1 ∨ k2 = 2 ∨ k2 = 3 := by bv_omega
    · exact convertInt_signed c (by omega) t.toNat (c.r32 a l)
    · exact convertInt_unsigned c t.toNat (c.r32 a l)
    · exact convertInt_signed c (by omega) t.toNat (c.r64 a l)
    · exact convertInt_unsigned c t.toNat (c.r64 a l)
  · exact Completes.writes_congr (r.writes_converted rfl) fun _ => congrArg (convWords t.toNat) (convertEx_eq c t.toNat _)
  · refine Completes.writes_congr (r.lane32 rfl) fun l => ?_
    obtain ⟨f, hf⟩ := fmtOf_narrow (c.form == 1) r.fields
    dsimp only
    rw [hf, Option.getD_some, convertEx_eq]
  · refine Completes.writes_congr (r.lane32 rfl) fun l => ?_
    dsimp only
    rw [scaledBy_eq (List.mem_range.1 r.form_mem), scaled_lowByte]
  · refine Completes.writes_congr (r.lane32 rfl) fun l => ?_
    dsimp only
    generalize c.form = n
    match n with
    | 0 => exact packOf_halves ..
    | 1 => exact packOf_bytes ..
    | n + 2 => exact packOf_nibbles ..
  · refine Completes.writes_congr (r.lane32 rfl) fun l => ?_
    have hf : decide (k2.toNat ≤ 2 ∧ k3.toNat < 2 ^ (k2.toNat + 1)) = true := r.fields
    dsimp only
    rw [unpkWidth (of_decide_eq_true hf).1, one, ← BitVec.ofInt_natCast]
    push_cast
    rfl

end Sys2Proof.Machine
end

section
/-!
PROOFS. Block quantisation (O9): what `QBLK` writes in the active lanes and as the block's scale.
-/
namespace Sys2Proof.Machine
open Sys2Proof.Claims

/-- Before a member of a list without repetitions stand as many as its position says. -/
theorem length_takeWhile_getElem {l : List Nat} (hn : l.Nodup) (n : Nat) (h : n < l.length) :
    (l.takeWhile fun k => k != l[n]).length = n := by
  induction l generalizing n with
  | nil => simp at h
  | cons x xs ih =>
    obtain ⟨hx, hxs⟩ := List.nodup_cons.1 hn
    cases n with
    | zero => simp
    | succ n =>
      have hl : n < xs.length := Nat.lt_of_succ_lt_succ h
      have hne : x ≠ xs[n] := fun e => hx (e ▸ List.getElem_mem hl)
      simp [hne, ih hxs n hl]

/-- The block rule gives a code for each value. -/
theorem quantBlock_length (f : Fmt) (mode : Nat) (vals : List (Option Ex)) : (quantBlock f mode vals).2.length = vals.length := by
  unfold quantBlock
  extract_lets
  split
  · exact List.length_map ..
  · exact List.length_map ..

/-- The codes of a block, lane by lane. -/
theorem zip_laneCode (c : Ctx) {codes : List Nat} (h : codes.length = c.actLanes.length) :
    c.actLanes.zip (codes.map (BitVec.ofNat 32)) = c.actLanes.map fun l => (l, laneCode c codes l) := by
  refine List.ext_getElem (by simp only [List.length_zip, List.length_map, h, min_self]) fun n h1 h2 => ?_
  have hn : n < c.actLanes.length := by rwa [List.length_map] at h2
  have hd : c.actLanes.Nodup := nodup_maskLanes _
  have hc : codes.getD n 0 = codes[n] := List.getD_eq_getElem codes 0 (by omega)
  rw [List.getElem_zip, List.getElem_map, List.getElem_map, laneCode, length_takeWhile_getElem hd n hn, hc]

/-- A sheaf once its active lanes are quantised as a block of a format: a code in each lane, and the scale in a uniform register. -/
def Sheaf.quantised (x : Sheaf) (c : Ctx) (d a : BitVec 7) (k : BitVec 4) (f : Fmt) : Sheaf :=
  (x.writeField c.now 6 d.toNat (c.actLanes.map fun l => (l, laneCode c (laneBlock c a f).2 l))).writeU c.now 6 k.toNat
    ((laneBlock c a f).1.setWidth 32)

theorem Sheaf.quantised_regs {x : Sheaf} {c : Ctx} {d a : BitVec 7} {k : BitVec 4} {f : Fmt} : x.RegsOnly (x.quantised c d a k f) :=
  (x.writeField_regs ..).trans (Sheaf.writeU_regs ..)

variable {y : Bool} {g : BitVec 3} {d a : BitVec 7} {k : BitVec 4} {t : BitVec 3} {s : State} {c : Ctx}

theorem exec_qblk : exec (.qblk y g d a k t) s = issueWord (.qblk y g d a k t) s fun c u =>
    if c.bunch ≠ 32 then .emul
    else .done (u.updSheaf c.id fun x => x.quantised c d a k ((fmtOf (11 + t.toNat) false).getD f32)) := by
  show execQblk y g d a k t s = _
  unfold execQblk
  congr
  funext c u
  extract_lets f q
  have hq : q = laneBlock c a f := congrArg (fun m => quantBlock f m _) (rmMode_eq _)
  have hz := zip_laneCode c (codes := q.2) ((quantBlock_length ..).trans (List.length_map ..))
  simp only [bne_iff_ne, hz]
  rw [hq]
  rfl

theorem Runs.qblk_completes (r : Runs (.qblk y g d a k t) s c) (hb : c.bunch = 32) {f : Fmt} (hf : fmtOf (11 + t.toNat) false = some f) :
    Completes (.qblk y g d a k t) s c c.after fun x z =>
      ∃ w, Writes c 6 d 1 (fun l => [laneCode c (laneBlock c a f).2 l]) x w
        ∧ z.u.get k.toNat = (laneBlock c a f).1.setWidth 32 ∧ z.v = w.v ∧ z.p = w.p ∧ z.vPoison = w.vPoison
        ∧ ∀ n, n < 64 → n ≠ k.toNat → z.u.get n = w.u.get n := by
  refine r.completes_regs exec_qblk (F := fun x => x.quantised c d a k f) (by rw [if_neg (not_not.2 hb), hf]; rfl)
    (fun _ => Sheaf.quantised_regs) fun x x' z hx hz =>
      ⟨_, (Writes.one r.active (laneCode c (laneBlock c a f).2) x').congr hx ⟨rfl, rfl, rfl, rfl, rfl, rfl⟩, ?_,
        hz.v.trans Sheaf.writeU_v, hz.p.trans Sheaf.writeU_p, hz.vPoison.trans Sheaf.writeU_vPoison, fun n _ hn => ?_⟩
  · rw [hz.u, Sheaf.quantised, Sheaf.get_writeU, if_pos rfl]
  · rw [hz.u, Sheaf.quantised, Sheaf.get_writeU, if_neg hn]

/-- Settles O9: with `BP` 32 the block's codes and scale are written, with any other the word is refused. -/
theorem blockQuantisation : Obligations.BlockQuantisation := by
  unfold Obligations.BlockQuantisation
  intro y g d a k t s c r
  split
  · next hb => exact fun f hf => r.qblk_completes hb hf
  · next hb => exact r.emulates exec_qblk (if_pos hb)

end Sys2Proof.Machine
end

section
/-!
PROOFS. Sheaf registers and clocks (O14): what `MOVS` reads and writes by selector, and what `RDCLK` reads.
-/
namespace Sys2Proof.Machine
open Sys2Proof.Claims

/-! ### Sheaf registers by selector (R159) -/

theorem exists_of_rel_some {α β : Type} {R : α → β → Prop} {x : α} {o : Option β} (h : Option.Rel R (some x) o) :
    ∃ w, o = some w ∧ R x w := by
  cases h with
  | some h => exact ⟨_, rfl, h⟩

theorem eq_none_of_rel_none {α β : Type} {R : α → β → Prop} {o : Option β} (h : Option.Rel R none o) : o = none := by
  cases h
  rfl

theorem lo32_eq (x : DWord) : lo32 x = BitVec.ofNat 32 x.toNat :=
  BitVec.eq_of_toNat_eq (by rw [lo32, BitVec.extractLsb'_toNat, Nat.shiftRight_zero, BitVec.toNat_ofNat])

theorem empcHigh_eq (x : DWord) : (x.extractLsb' 32 25).setWidth 32 = BitVec.ofNat 32 (x.toNat / 2 ^ 32 % 2 ^ 25) :=
  BitVec.eq_of_toNat_eq (by
    simp only [BitVec.toNat_setWidth, BitVec.extractLsb'_toNat, Nat.shiftRight_eq_div_pow, BitVec.toNat_ofNat])

/-- From selector 64 on a read gives what the register holds. -/
theorem special_eq_sheafReg {c : Ctx} {sel : Nat} (h : 64 ≤ sel) : c.special sel = sheafReg c.f sel := by
  unfold Ctx.special
  rw [if_neg (by omega)]
  split
  · rw [sheafReg, if_pos (by omega)]
  · next h67 =>
    have hr : ¬ (64 ≤ sel ∧ sel ≤ 66) := by omega
    split
    case h_10 => exact congrArg some (lo32_eq _)
    case h_11 => exact congrArg some (empcHigh_eq _)
    case h_12 => simp (disch := omega) only [sheafReg, if_neg]
    all_goals rfl

/-- The bits of a value below a power of two. -/
theorem and_mask_eq (v : Word) {n : Nat} (hn : n ≤ 32) : v &&& BitVec.ofNat 32 (2 ^ n - 1) = BitVec.ofNat 32 (v.toNat % 2 ^ n) := by
  have hp : 2 ^ n ≤ 2 ^ 32 := Nat.pow_le_pow_right (by decide) hn
  have h0 : 0 < 2 ^ n := Nat.two_pow_pos n
  have hm : v.toNat % 2 ^ n < 2 ^ 32 := Nat.lt_of_lt_of_le (Nat.mod_lt _ h0) hp
  refine BitVec.eq_of_toNat_eq ?_
  rw [BitVec.toNat_and, BitVec.toNat_ofNat, BitVec.toNat_ofNat, Nat.mod_eq_of_lt (by omega), Nat.and_two_pow_sub_one_eq_mod,
    Nat.mod_eq_of_lt hm]

/-- A write to the low or to the high word of `EMPC`, reserved bits written as zero, keeps the other word. -/
theorem empcLowSet_eq (x : DWord) (v : Word) : x.extractLsb' 32 32 ++ v = BitVec.ofNat 64 (x.toNat / 2 ^ 32 * 2 ^ 32 + v.toNat) := by
  refine BitVec.eq_of_toNat_eq ((toNat_append_eq ..).trans ?_)
  simp only [BitVec.extractLsb'_toNat, Nat.shiftRight_eq_div_pow, BitVec.toNat_ofNat]
  omega

theorem empcHighSet_eq (x : DWord) (v : Word) :
    (v.extractLsb' 0 25).setWidth 32 ++ lo32 x = BitVec.ofNat 64 (v.toNat % 2 ^ 25 * 2 ^ 32 + x.toNat % 2 ^ 32) := by
  refine BitVec.eq_of_toNat_eq ((toNat_append_eq ..).trans ?_)
  simp only [lo32, BitVec.toNat_setWidth, BitVec.extractLsb'_toNat, Nat.shiftRight_zero, BitVec.toNat_ofNat]
  omega

theorem sheafRegSet_bp {f : Sheaf} {v : Word} : sheafRegSet f 67 v =
    if v.toNat % 64 ∈ [2, 4, 8, 16, 32] then some { f with bp := BitVec.ofNat 32 (v.toNat % 64) } else none := rfl

theorem sheafRegSet_rm {f : Sheaf} {v : Word} : sheafRegSet f 68 v =
    if v.toNat % 8 < 5 then some { f with rm := BitVec.ofNat 32 (v.toNat % 16) } else none := rfl

/-- Whether a write is taken is a matter of the selector and the value. -/
theorem sheafRegSet_isSome {f g : Sheaf} {sel : Nat} {v : Word} : (sheafRegSet f sel v).isSome = (sheafRegSet g sel v).isSome := by
  unfold sheafRegSet
  split_ifs <;> rfl

/-- Where two sheaves differ in lanes and the like alone, so do they once a sheaf register is written. -/
theorem sheafRegSet_quiet {f g : Sheaf} {sel : Nat} {v : Word} (a : f.Quiet g) :
    Option.Rel Sheaf.Quiet (sheafRegSet f sel v) (sheafRegSet g sel v) := by
  unfold sheafRegSet
  unfold Sheaf.Quiet at a
  split_ifs <;> constructor <;> (unfold Sheaf.Quiet; rw [a])

/-- A sheaf whose lanes of a mask carry the mark of a write, and whose registers are those of another. -/
structure Sheaf.Marked (m : Mask) (f h g : Sheaf) : Prop where
  quiet : h.Quiet g
  kept : ∀ l, LaneKept (f.lane l) (g.lane l)
  stood : ∀ l, m.getLsbD l = false → g.lane l = f.lane l

theorem Sheaf.Marked.of_lanes {m : Mask} {f h : Sheaf} (e : h.lanes = f.lanes) : Sheaf.Marked m f h h :=
  have hl (l : Nat) : h.lane l = f.lane l := congrArg (fun x : Store LaneSt => x.get l) e
  ⟨.refl h, fun l => hl l ▸ .refl _, fun l _ => hl l⟩

theorem Sheaf.Marked.updLanes {m : Mask} {f h : Sheaf} {u : Nat → LaneSt → LaneSt} (e : h.lanes = f.lanes)
    (hu : ∀ l x, LaneKept x (u l x)) : Sheaf.Marked m f h (h.updLanes m u) := by
  have hl (l : Nat) : h.lane l = f.lane l := congrArg (fun x : Store LaneSt => x.get l) e
  refine ⟨Sheaf.updLanes_quiet .., fun l => ?_, fun l hm => ?_⟩
  · rw [Sheaf.lane_updLanes, hl]
    split
    · exact hu ..
    · exact .refl _
  · rw [Sheaf.lane_updLanes, if_neg (by simp [hm]), hl]

theorem legalBunch_iff {v : Word} : legalBunch v = true ↔ v.toNat % 64 ∈ [2, 4, 8, 16, 32] := by
  simp only [legalBunch, Bool.or_eq_true, beq_iff_eq, or_assoc, List.mem_cons, List.not_mem_nil, or_false]

/-- From selector 64 on a write takes what the statement takes, and marks the lanes of a write to `BP`, `RM` or `CLR`. -/
theorem Sheaf.writeSpecial_marked {f : Sheaf} {now sel : Nat} {m : Mask} {v : Word} (h : 64 ≤ sel) :
    Option.Rel (Sheaf.Marked m f) (sheafRegSet f sel v) (f.writeSpecial now m sel v) := by
  unfold Sheaf.writeSpecial
  rw [if_neg (by omega)]
  split
  · rw [sheafRegSet, if_pos (by omega)]
    exact .some (.of_lanes rfl)
  · next h67 =>
    have hr : ¬ (64 ≤ sel ∧ sel ≤ 66) := by omega
    split
    · split
      · next hv =>
        have hm : v &&& 63 = BitVec.ofNat 32 (v.toNat % 64) := and_mask_eq v (n := 6) (by decide)
        rw [hm, sheafRegSet_bp, if_pos (legalBunch_iff.1 hv)]
        exact .some (.updLanes rfl fun _ _ => ⟨rfl, rfl, rfl, rfl, rfl, rfl, rfl⟩)
      · next hv =>
        rw [sheafRegSet_bp, if_neg (mt legalBunch_iff.2 hv)]
        exact .none
    · rw [rmMode_eq]
      split
      · next hv =>
        rw [sheafRegSet_rm, if_neg (by omega)]
        exact .none
      · next hv =>
        have hm : v &&& 15 = BitVec.ofNat 32 (v.toNat % 16) := and_mask_eq v (n := 4) (by decide)
        rw [hm, sheafRegSet_rm, if_pos (by omega)]
        exact .some (.updLanes rfl fun _ _ => ⟨rfl, rfl, rfl, rfl, rfl, rfl, rfl⟩)
    · have hm : v &&& 7 = BitVec.ofNat 32 (v.toNat % 8) := and_mask_eq v (n := 3) (by decide)
      rw [hm]
      exact .some (.updLanes rfl fun _ _ => ⟨rfl, rfl, rfl, rfl, rfl, rfl, rfl⟩)
    · rw [empcLowSet_eq]
      exact .some (.of_lanes rfl)
    · rw [empcHighSet_eq]
      exact .some (.of_lanes rfl)
    · rw [show sheafRegSet f sel v = none by simp (disch := omega) only [sheafRegSet, if_neg]]
      exact .none

/-! ### Words -/

variable {y : Bool} {g : BitVec 3} {d a sel : BitVec 7} {s : State} {c : Ctx}

section
variable (r : Runs (.movsRd y g d sel) s c)
include r

theorem Runs.movsRd_uniform (h : sel.toNat < 64) (hp : c.f.settlePoison c.now c.free (uKey sel.toNat) = none) :
    Completes (.movsRd y g d sel) s c c.after
      (Writes c 4 d 1 fun _ => [c.f.settle c.now c.free (uKey sel.toNat) (c.f.u.get sel.toNat)]) :=
  r.writes_result (execMovsRd.eq_1 ..) (by simp only [Ctx.special, if_pos h, hp])

theorem Runs.movsRd_register (h : 64 ≤ sel.toNat) {v : Word} (hv : sheafReg c.f sel.toNat = some v) :
    Completes (.movsRd y g d sel) s c c.after (Writes c 4 d 1 fun _ => [v]) :=
  r.writes_result (execMovsRd.eq_1 ..) (by simp only [special_eq_sheafReg h, hv, if_neg (Nat.not_lt.2 h)])

theorem Runs.movsRd_emulates (h : 64 ≤ sel.toNat) (hv : sheafReg c.f sel.toNat = none) :
    exec (.movsRd y g d sel) s = .next (s.emulWord c) :=
  r.emulates (execMovsRd.eq_1 ..) (by simp only [special_eq_sheafReg h, hv])

end

section
variable (r : Runs (.movsWr y g sel a) s c)
include r

theorem Runs.movsWr_uniform (h : sel.toNat < 64) : Completes (.movsWr y g sel a) s c c.after fun f z =>
    (∀ k, z.u.get k = if k = sel.toNat then c.low32 a else f.u.get k) ∧ z.v = f.v ∧ z.p = f.p
      ∧ ⟨uKey sel.toNat, f.u.get sel.toNat, c.now + 4, f.uPoison.get sel.toNat⟩ ∈ z.pending := by
  refine r.completes_regs (execMovsWr.eq_1 ..) (F := fun f => f.writeU c.now 4 sel.toNat (c.low32 a)) ?_ (fun f => f.writeU_regs ..)
    fun f f' z hf hz => ⟨fun k => ?_, hz.v.trans (Sheaf.writeU_v.trans hf.v), hz.p.trans (Sheaf.writeU_p.trans hf.p), ?_⟩
  · simp only [State.updSheaf, Sheaf.writeSpecial, if_pos h]
    split
    · next hs => simp only [hs]
    · next x hs => simp only [hs]
  · rw [hz.u, Sheaf.get_writeU, hf.u]
  · rw [hz.pending, ← hf.u, ← hf.uPoison]
    exact Sheaf.writeU_late (by omega) (by omega)

theorem Runs.movsWr_register (h : 64 ≤ sel.toNat) (hv : (sheafRegSet c.f sel.toNat (c.low32 a)).isSome = true) :
    Does (.movsWr y g sel a) s c fun p f t z =>
      ∃ h, sheafRegSet f sel.toNat (c.low32 a) = some h ∧ Sets c (fun _ => h) p f t z := by
  obtain ⟨f, hf⟩ := r.committed_sheaf
  obtain ⟨x, hx⟩ := Option.isSome_iff_exists.1 (sheafRegSet_isSome.symm.trans hv : (sheafRegSet f _ _).isSome = true)
  obtain ⟨x', hx', hq⟩ := exists_of_rel_some (hx ▸ sheafRegSet_quiet (f.advanced_quiet c (c.shapeOf (.movsWr y g sel a))))
  obtain ⟨w, hw, hm⟩ := exists_of_rel_some (hx' ▸ Sheaf.writeSpecial_marked (now := c.now) (m := c.lanes) h)
  obtain ⟨t, z, ht, hz, ho, hqz, hl⟩ := r.replaces (execMovsWr.eq_1 ..) hf (x := w)
    (by simp only [(State.advance_spec hf).2, hw]) hm.kept hm.stood
  exact ⟨t, f, z, ht, hf, hz, x, hx, ho, (hq.trans hm.quiet).trans hqz, hl⟩

theorem Runs.movsWr_emulates (h : 64 ≤ sel.toNat) (hv : (sheafRegSet c.f sel.toNat (c.low32 a)).isSome = false) :
    exec (.movsWr y g sel a) s = .next (s.emulWord c) := by
  obtain ⟨f, hf⟩ := r.committed_sheaf
  have hs : sheafRegSet (f.advanced c (c.shapeOf (.movsWr y g sel a))) sel.toNat (c.low32 a) = none :=
    Option.not_isSome_iff_eq_none.1 (by rw [sheafRegSet_isSome (g := c.f), hv]; decide)
  have hw := eq_none_of_rel_none (hs ▸ Sheaf.writeSpecial_marked (now := c.now) (m := c.lanes) h)
  exact r.emulates (execMovsWr.eq_1 ..) (by simp only [(State.advance_spec hf).2, hw])

end

theorem Runs.rdclkCyc_completes (r : Runs (.rdclkCyc y g d) s c) : Completes (.rdclkCyc y g d) s c c.after
    (Writes c 4 d 2 fun _ => pair (BitVec.ofNat 64 (s.die (c.core / 48)).cycle)) :=
  r.writes_result64 (execRdclkCyc.eq_1 ..) (by rw [State.advance_cycleOf])

theorem Runs.rdclkNs_completes (r : Runs (.rdclkNs y g d) s c) : Completes (.rdclkNs y g d) s c c.after
    (Writes c 4 d 2 fun _ => pair (BitVec.ofNat 64 (s.ticks * 1000 / 2900))) :=
  r.writes_result64 (execRdclkNs.eq_1 ..) (by rw [State.advance_nanos])

/-- Settles O14: selector by selector, each by the lemma that says what its word does. -/
theorem sheafRegisterAndClockReads : Obligations.SheafRegisterAndClockReads := by
  unfold Obligations.SheafRegisterAndClockReads
  refine ⟨fun y g d a sel s c => ⟨fun r => ?_, fun r => ?_⟩, fun y g d s c => ⟨Runs.rdclkCyc_completes, Runs.rdclkNs_completes⟩⟩
  · split
    · next h => exact r.movsRd_uniform h
    · next h =>
      split
      · next v hv => exact r.movsRd_register (Nat.not_lt.1 h) hv
      · next hv => exact r.movsRd_emulates (Nat.not_lt.1 h) hv
  · split
    · next h => exact r.movsWr_uniform h
    · next h =>
      split
      · next hv => exact r.movsWr_register (Nat.not_lt.1 h) hv
      · next hv => exact r.movsWr_emulates (Nat.not_lt.1 h) (Bool.eq_false_iff.2 hv)

end Sys2Proof.Machine
end

section
/-!
PROOFS. Words and instructions (O54, O55): decoding the word of any instruction gives it back.
-/
namespace Sys2Proof.Laws.Encoding
/-- Constructor by constructor, each by its own lemma; no event has a word. -/
theorem ofInstr (i : Instr) : Statement i := by
  cases i with
  | sched => apply sched
  | limm => apply limm
  | xmod => apply xmod
  | eret => apply eret
  | exit => apply exit
  | rdx => apply rdx
  | wrx => apply wrx
  | movsRd => apply movsRd
  | movsWr => apply movsWr
  | rdclkCyc => apply rdclkCyc
  | rdclkNs => apply rdclkNs
  | iadd => apply iadd
  | isub => apply isub
  | iaddi => apply iaddi
  | imul => apply imul
  | imulh => apply imulh
  | imad => apply imad
  | imin => apply imin
  | imax => apply imax
  | and => apply and
  | or => apply or
  | xor => apply xor
  | andn => apply andn
  | shl => apply shl
  | shr => apply shr
  | sar => apply sar
  | shi => apply shi
  | bfe => apply bfe
  | bfi => apply bfi
  | popc => apply popc
  | clz => apply clz
  | ctz => apply ctz
  | brev => apply brev
  | bswap => apply bswap
  | mov => apply mov
  | lea => apply lea
  | idot4 => apply idot4
  | imadw => apply imadw
  | fadd => apply fadd
  | fsub => apply fsub
  | fmul => apply fmul
  | ffma => apply ffma
  | fmin => apply fmin
  | fmax => apply fmax
  | fabs => apply fabs
  | fneg => apply fneg
  | fnabs => apply fnabs
  | fcls => apply fcls
  | fdot2 => apply fdot2
  | frnd => apply frnd
  | fscl => apply fscl
  | rcp => apply rcp
  | rsq => apply rsq
  | sqrt => apply sqrt
  | ex2 => apply ex2
  | lg2 => apply lg2
  | sin => apply sin
  | cos => apply cos
  | tanh => apply tanh
  | cvti => apply cvti
  | cvtf => apply cvtf
  | cvtb => apply cvtb
  | cvts => apply cvts
  | qblk => apply qblk
  | pack => apply pack
  | unpk => apply unpk
  | icmp => apply icmp
  | fcmp => apply fcmp
  | sel => apply sel
  | plop => apply plop
  | pmovP => apply pmovP
  | pmovV => apply pmovV
  | pmovM => apply pmovM
  | pmovS => apply pmovS
  | icmpi => apply icmpi
  | shfl => apply shfl
  | voteAll => apply voteAll
  | voteAny => apply voteAny
  | voteBallot => apply voteBallot
  | voteUni => apply voteUni
  | red => apply red
  | scanl => apply scanl
  | conf => apply conf
  | bcast => apply bcast
  | bra => apply bra
  | call => apply call
  | ret => apply ret
  | join => apply join
  | joinM => apply joinM
  | loop => apply loop
  | endl => apply endl
  | lwait => apply lwait
  | brx => apply brx
  | ld => apply ld
  | st => apply st
  | ldv => apply ldv
  | stv => apply stv
  | stq => apply stq
  | prf => apply prf
  | lds => apply lds
  | qrd => apply qrd
  | qwr => apply qwr
  | atom => apply atom
  | cas => apply cas
  | atomf => apply atomf
  | atst => apply atst
  | mclaim => apply mclaim
  | mrel => apply mrel
  | mbind => apply mbind
  | mma => apply mma
  | mmas => apply mmas
  | mmab => apply mmab
  | amovRd => apply amovRd
  | amovWr => apply amovWr
  | azero => apply azero
  | acvt => apply acvt
  | qmv => apply qmv
  | rjoin => apply rjoin
  | copy => apply copy
  | gather => apply gather
  | sbind => apply sbind
  | stream => apply stream
  | streamPost => apply streamPost
  | hwaitFree => apply hwaitFree
  | hwaitFull => apply hwaitFull
  | hrel => apply hrel
  | hstat => apply hstat
  | scfg => apply scfg
  | scan => apply scan
  | csend => apply csend
  | crecv => apply crecv
  | cbar => apply cbar
  | grow => apply grow
  | spawn => apply spawn
  | qpush => apply qpush
  | qpop => apply qpop
  | cwait => apply cwait
  | cancel => apply cancel
  | incup => apply incup
  | incrd => apply incrd
  | bndset => apply bndset
  | bndcfg => apply bndcfg
  | fence => apply fence
  | bar => apply bar
  | qfence => apply qfence
  | _ => rintro _ ⟨⟩

end Sys2Proof.Laws.Encoding
namespace Sys2Proof.Machine
/-- Settles O55, whatever the fields of the word hold. -/
theorem decodeGivesBackEncode : Obligations.DecodeGivesBackEncode :=
  fun i w _ => Laws.Encoding.ofInstr i w

/-- Settles O54: each word is decoded. -/
theorem sampleWordsDecode : Obligations.SampleWordsDecode :=
  ⟨rfl, rfl, rfl, rfl, rfl, rfl, rfl, rfl, rfl, rfl, rfl⟩
end Sys2Proof.Machine
end

section
/-!
PROOFS. The front of issue (O56): what a step comes to, by the state of the latch.
-/
namespace Sys2Proof.Machine
open Sys2Proof.Claims

/-! ### The front of issue -/

section
variable {s : State} {l : Latch}

theorem step_of_front_went {t : State} (h : s.front = .went t) : step s = .next t := by simp only [step, h]
theorem step_of_front_issue {i : Instr} {t : State} (h : s.front = .issue i t) : step s = exec i t := by simp only [step, h]

theorem State.front_of_trial {t : Trial} (hl : s.latch = some l) (ht : l.trial = some t) : s.front = .went (s.tryLatch l t) := by
  simp only [State.front, hl, ht]

theorem State.front_of_tail {t : Mask × DWord} (hl : s.latch = some l) (hn : l.trial = none) (ht : l.tail = some t) :
    s.front = s.frontTail l t.1 t.2 := by
  simp only [State.front, hl, hn, ht]

theorem State.front_of_positions {m : Mask} {rest : List Mask} (hl : s.latch = some l) (hn : l.trial = none) (ht : l.tail = none)
    (hp : l.positions = m :: rest) :
    let tail := l.ends.find? fun e => e.1 == m
    s.front = { s with latch := if rest = [] ∧ tail = none then none else some { l with positions := rest, tail := tail }
                       cur := none }.frontWord l m := by
  simp only [State.front, hl, hn, ht, hp, Bool.and_eq_true, List.isEmpty_iff, Option.isNone_iff_eq_none]

/-- A choice none of whose words proves not ready stands. -/
theorem State.tryLatch_of_ready {t : Trial} (h : ∀ q ∈ l.positions, s.notReady l q = none) :
    s.tryLatch l t = { s with latch := some { l with trial := none } } := by
  have hn : (l.positions.findSome? fun m => (s.notReady l m).map fun u => (m, u)) = none :=
    List.findSome?_eq_none_iff.2 fun q hq => by rw [h q hq, Option.map_none]
  simp only [State.tryLatch, hn]

/-- A position's word that decodes is the instruction to execute, by the lanes that still stand as they were chosen. -/
theorem State.frontWord_of_decode {f : Sheaf} {m : Mask} {l0 : Nat} {w : Word} {i : Instr} (hf : s.sheaf l.sheaf = some f)
    (h0 : lowest (l.still f m) = some l0) (hw : s.wordAt f l0 = some w) (hd : decode w = .ok i) :
    s.frontWord l m = .issue i { s with cur := some ⟨l.sheaf, l.still f m, l.view⟩ } := by
  simp only [State.frontWord, hf, h0, hw, hd]

/-- An `ENDL` that its body's last word takes along is executed by the lanes that stand at it, where they are all the live lanes. -/
theorem State.frontTail_of_endl {f : Sheaf} {m : Mask} {a : DWord} {l0 : Nat} {w : Word} {y : Bool} {n : BitVec 2} {imm : BitVec 7}
    (hf : s.sheaf l.sheaf = some f) :
    let lanes := laneMask fun k => m.getLsbD k && f.free k && (f.lane k).pc == a
    let around := (s.tailOf f a 0x5D).map fun b => (lanes, b)
    lowest lanes = some l0 → f.holdsAll lanes = true → s.endWaits f lanes = false → f.faultedLanes lanes = 0 →
    s.wordAt f l0 = some w → decode w = .ok (.endl y n imm) →
    s.frontTail l m a = .issue (.endl y n imm)
      { s with latch := if l.positions = [] ∧ around = none then none else some { l with tail := around }
               cur := some ⟨l.sheaf, lanes, f⟩ } := by
  intro lanes around h0 hall hends hbad hw hd
  unfold State.frontTail
  extract_lets after s1
  have hs : s1.sheaf l.sheaf = some f := hf
  have he : s1.endWaits f lanes = false := hends
  have hw1 : s1.wordAt f l0 = some w := hw
  have ht : (s.tailOf f a 0x5D).map (fun b => (lanes, b)) = around := rfl
  have h : (!f.holdsAll lanes || s1.endWaits f lanes || f.faultedLanes lanes != 0) = false := by simp [hall, he, hbad]
  simp only [hs]
  rw [show lowest _ = some l0 from h0]
  simp only [show (laneMask fun k => m.getLsbD k && f.free k && (f.lane k).pc == a) = lanes from rfl, h, hw1, hd, ht, Option.map_some,
    Bool.false_eq_true, if_false, after, Bool.and_eq_true, List.isEmpty_iff, Option.isNone_iff_eq_none]

/-- With the latch empty no position issues. -/
theorem State.front_of_idle (hl : s.latch = none) : s.front = .idle := by simp only [State.front, hl]

end

/-- Settles O56: the front of issue, case by case of the latch. -/
theorem stepRunsDecodedWord : Obligations.StepRunsDecodedWord := by
  unfold Obligations.StepRunsDecodedWord
  refine ⟨fun s l m rest f l0 w i hl hf => ⟨fun t ht hr => ?_, fun hn ht hp h0 hw hd => ?_, fun a y n imm hn ht => ?_⟩,
    fun s hl => ⟨fun i rest ha => ?_, fun ha => ?_⟩⟩
  · exact step_of_front_went ((State.front_of_trial hl ht).trans (congrArg Front.went (State.tryLatch_of_ready hr)))
  · exact step_of_front_issue ((State.front_of_positions hl hn ht hp).trans (State.frontWord_of_decode hf h0 hw hd))
  · intro lanes around h0 ha he hb hw hd
    exact step_of_front_issue ((State.front_of_tail hl hn ht).trans (State.frontTail_of_endl hf h0 ha he hb hw hd))
  · simp only [step, State.front_of_idle hl, ha]
  · simp only [step, State.front_of_idle hl, ha]

end Sys2Proof.Machine
end

section
/-!
PROOFS. Hints (O12): what becomes of the lanes that take one, and when one is refused.
-/
namespace Sys2Proof.Machine
open Sys2Proof.Claims

section
variable {i : Instr} {s : State} {c : Ctx} {take : LaneSt → Option LaneSt}

/-- The sheaf of a hint that its lanes take: they go on to the next word. -/
def Sheaf.hinted (f : Sheaf) (c : Ctx) (take : LaneSt → Option LaneSt) : Sheaf :=
  { (f.updLanes c.lanes fun _ x => { (take x).getD x with pc := c.pc + 4, pass := 0 }) with issued := true }

theorem Sheaf.hinted_frame {f : Sheaf} : f.hinted c take = { f with lanes := (f.hinted c take).lanes, issued := true } := by
  unfold Sheaf.hinted
  rw [Sheaf.updLanes_eq]

theorem Sheaf.hinted_lane {f : Sheaf} {l : Nat} (hl : l < 32) :
    (f.hinted c take).lane l =
      if c.lanes.getLsbD l = true then { (take (f.lane l)).getD (f.lane l) with pc := c.pc + 4, pass := 0 } else f.lane l := by
  refine (Sheaf.lane_updLanes ..).trans ?_
  simp only [hl, true_and]

/-- A hint that every lane of the position can take changes its sheaf alone. -/
theorem RunsHint.taken (r : RunsHint i s c) (h : ∀ l, l < 32 → c.lanes.getLsbD l = true → (take (c.f.lane l)).isSome = true) :
    ∃ z f, issueHint i s take = .next z ∧ s.sheaf c.id = some f ∧ z.sheaf c.id = some (f.hinted c take)
      ∧ OnlySheaf s z c.id c.unit.job := by
  obtain ⟨f, hf⟩ := Option.isSome_iff_exists.1 (State.issuing_spec r.issuing).1
  have hn : ((maskLanes c.lanes).any fun l => (take (c.f.lane l)).isNone) = false := by
    refine List.any_eq_false.2 fun l hl => ?_
    obtain ⟨hl, hm⟩ := mem_maskLanes.1 hl
    simp [Option.isSome_iff_ne_none.1 (h l hl hm)]
  refine ⟨(s.updSheaf c.id fun f => f.hinted c take).progress c.unit.job, f, ?_, hf, ?_, (State.updSheaf_in ..).progress _⟩
  · unfold issueHint
    simp only [r.issuing, hn]
    rfl
  · rw [State.progress_sheaf, State.sheaf_updSheaf hf]

/-- A hint that some lane of the position cannot take is an emulation trap. -/
theorem RunsHint.refused (r : RunsHint i s c) {l : Nat} (hl : l < 32) (hm : c.lanes.getLsbD l = true) (h : take (c.f.lane l) = none) :
    issueHint i s take = .next (s.emulWord c) := by
  have hn : ((maskLanes c.lanes).any fun l => (take (c.f.lane l)).isNone) = true :=
    List.any_eq_true.2 ⟨l, mem_maskLanes.2 ⟨hl, hm⟩, by rw [h]; rfl⟩
  unfold issueHint
  simp only [r.issuing, hn, if_true]

/-- A hint that any lane takes: what it leaves of each lane. -/
theorem RunsHint.attaches {u : LaneSt → LaneSt} (r : RunsHint i s c) (hx : exec i s = issueHint i s fun x => some (u x)) :
    ∃ z f g, exec i s = .next z ∧ s.sheaf c.id = some f ∧ z.sheaf c.id = some g ∧ OnlySheaf s z c.id c.unit.job
      ∧ g = { f with lanes := g.lanes, issued := true }
      ∧ ∀ l, l < 32 → g.lane l = if c.lanes.getLsbD l = true then { u (f.lane l) with pc := c.pc + 4, pass := 0 } else f.lane l := by
  obtain ⟨z, f, hz, hf, hg, ho⟩ := r.taken (take := fun x => some (u x)) fun _ _ _ => rfl
  exact ⟨z, f, _, hx.trans hz, hf, hg, ho, Sheaf.hinted_frame, fun l hl => Sheaf.hinted_lane hl⟩

end

/-- Settles O12: `SCHED` and `XMOD` every lane takes, `LIMM` every lane without one. -/
theorem hintsAttach : Obligations.HintsAttach := by
  unfold Obligations.HintsAttach
  refine fun s c => ⟨fun w p q r t h => h.attaches rfl, fun i h => ⟨fun hn => ?_, fun hn => ?_⟩, fun f' k v o p m h => h.attaches rfl⟩
  · obtain ⟨z, f, hz, hf, hg, ho⟩ := h.taken (take := fun x => if x.limm.isSome then none else some { x with limm := some i })
      fun l hl hm => by simp [hn l hl hm]
    refine ⟨z, f, _, hz, hf, hg, ho, Sheaf.hinted_frame, fun l hl hm hx => ?_⟩
    rw [Sheaf.hinted_lane hl, if_pos hm, hx]
    rfl
  · push Not at hn
    obtain ⟨l, hl, hm, hx⟩ := hn
    exact h.refused (take := fun x => if x.limm.isSome then none else some { x with limm := some i }) hl hm
      (if_pos (Option.isSome_iff_ne_none.2 hx))

end Sys2Proof.Machine
end

section
/-!
PROOFS. Branches, calls, returns and exits (O16): where the lanes go, and the words that park their sheaf.
-/
namespace Sys2Proof.Machine
open Sys2Proof.Claims

/-! ### Targets (R133, R135) -/

theorem four_signExtend_eq {w : Nat} (x : BitVec w) : (4 : DWord) * x.signExtend 64 = BitVec.ofInt 64 (4 * x.toInt) := by
  rw [BitVec.ofInt_mul]
  rfl

/-- The immediate of an I-format word as an integer. -/
theorem Ctx.immOr_toInt (c : Ctx) (i : BitVec 7) : (c.immOr i).toInt = opImm c i := by
  unfold Ctx.immOr Ctx.imm opImm
  cases c.limm with
  | none => exact BitVec.toInt_signExtend_of_le (by decide)
  | some x => exact BitVec.toInt_signExtend_of_le (by decide)

theorem Ctx.rel_immOr (c : Ctx) (i : BitVec 7) : c.rel (c.immOr i) = toOff c i := by
  rw [Ctx.rel, four_signExtend_eq, Ctx.immOr_toInt, toOff]

theorem badTarget_eq_false {t : DWord} : badTarget t = false ↔ t.toNat < 2 ^ 57 ∧ t.toNat % 4 = 0 := by
  unfold badTarget
  simp only [Bool.or_eq_false_iff, bne_eq_false_iff_eq, BitVec.toNat_eq, BitVec.extractLsb'_toNat, Nat.shiftRight_eq_div_pow,
    Nat.pow_zero, Nat.div_one, show (0 : BitVec 7).toNat = 0 from rfl, show (0 : BitVec 2).toNat = 0 from rfl]
  have := t.isLt
  omega

section
variable {c : Ctx} {p : Nat → Bool} {q : Nat → Prop}

/-- Some active lane is refused, or none. -/
theorem Ctx.any_actLanes_eq_false (h : ∀ l, p l = false ↔ q l) :
    (c.actLanes.any p) = false ↔ ∀ l, c.act.getLsbD l = true → q l := by
  rw [Ctx.actLanes, List.any_eq_false]
  refine ⟨fun a l hl => (h l).1 (Bool.eq_false_iff.2 (a l (mem_maskLanes.2 ⟨BitVec.lt_of_getLsbD hl, hl⟩))), fun a l hl => ?_⟩
  exact Bool.eq_false_iff.1 ((h l).2 (a l (mem_maskLanes.1 hl).2))

end

/-! ### Words that send their active lanes elsewhere -/

theorem SameRegs.trans {f g h : Sheaf} (a : SameRegs f g) (b : SameRegs g h) : SameRegs f h :=
  ⟨b.v.trans a.v, b.vPoison.trans a.vPoison, b.u.trans a.u, b.uPoison.trans a.uPoison, b.p.trans a.p, b.pending.trans a.pending⟩

section
variable {i : Instr} {s : State} {c : Ctx} (r : Runs i s c) {eff : Ctx → State → Eff} (hx : exec i s = issueWord i s eff)
include r hx

/-- A word that writes registers and branches. -/
theorem Runs.jumps {u : State} {R : Sheaf → Sheaf} {target : Nat → DWord} {E : Sheaf → Sheaf → Prop}
    (hF : eff c (s.advance c (c.shapeOf i)) = .done (u.branch c c.act target)) (hI : InSheaf (s.advance c (c.shapeOf i)) u c.id)
    (hU : ∀ f, (s.advance c (c.shapeOf i)).sheaf c.id = some f → u.sheaf c.id = some (R f)) (hR : ∀ f : Sheaf, f.RegsOnly (R f))
    (hE : ∀ f g h, SameRegs f g → SameRegs (R g) h → E f h) : Completes i s c (jump c target) E := by
  have hsub := (State.issuing_spec r.issuing).2
  refine r.completes hx hF (hI.trans (State.updSheaf_in ..)) (fun f hf => State.sheaf_updSheaf (hU f hf) _)
    (fun f => (hR f).only.trans (Sheaf.updLanes_quiet ..).only) (fun f l hl => ?_)
    fun f g h hf hg => hE f g h hf ((Sheaf.updLanes_quiet ..).same.trans hg)
  rw [Sheaf.lane_updLanes, (hR f).lane l]
  by_cases ha : c.act.getLsbD l = true
  · rw [if_pos ⟨hl, ha⟩]
    exact ⟨fun _ _ => ⟨(if_pos ha).symm, rfl, rfl, rfl, rfl, rfl, rfl⟩, fun hm => by simp [hsub l ha] at hm⟩
  · rw [if_neg fun h => ha h.2]
    exact ⟨fun _ h => ⟨h.trans (if_neg ha).symm, rfl, rfl, rfl, rfl, rfl, rfl⟩, fun _ => rfl⟩

/-- A word that only branches. -/
theorem Runs.branches {target : Nat → DWord}
    (hF : eff c (s.advance c (c.shapeOf i)) = .done ((s.advance c (c.shapeOf i)).branch c c.act target)) :
    Completes i s c (jump c target) WritesNothing :=
  r.jumps hx hF (.refl ..) (R := id) (fun _ h => h) (fun _ => rfl) fun _ _ _ a b => .of_same (a.trans b)

end

section
variable {y : Bool} {g : BitVec 3} {d a b n : BitVec 7} {s : State} {c : Ctx}

theorem Runs.bra_completes (r : Runs (.bra y g n) s c) : Completes (.bra y g n) s c (jump c fun _ => toOff c n) WritesNothing :=
  r.branches (execBra.eq_1 ..) (by rw [Ctx.rel_immOr])

theorem Runs.call_completes (r : Runs (.call y g d n) s c) :
    Completes (.call y g d n) s c (jump c fun _ => toOff c n) (Writes c 2 d 2 fun _ => pair (c.pc + 4)) := by
  refine r.jumps (execCall.eq_1 ..) (by rw [Ctx.rel_immOr]; rfl) (State.updSheaf_in ..) (fun f hf => State.sheaf_updSheaf hf _)
    (fun f => f.writeWords_regs ..) fun _ _ _ hf hg => (Writes.wide r.active 2 (fun _ => pair (c.pc + 4)) _).congr hf hg

section
variable {i : Instr} {eff : Ctx → State → Eff} {target : Nat → DWord}

/-- A word that takes its targets from registers traps where one is refused (R135). -/
theorem Runs.goes_to_registers (r : Runs i s c) (hx : exec i s = issueWord i s eff)
    (hF : ∀ t, eff c t = if c.actLanes.any fun l => badTarget (target l) then .emul else .done (t.branch c c.act target)) :
    When (∀ l, c.act.getLsbD l = true → (target l).toNat < 2 ^ 57 ∧ (target l).toNat % 4 = 0)
      (Completes i s c (jump c target) WritesNothing) (exec i s = .next (s.emulWord c)) := by
  have ht := Ctx.any_actLanes_eq_false (c := c) (fun l => badTarget_eq_false (t := target l))
  refine ⟨fun h => r.branches hx ?_, fun h => r.emulates hx ?_⟩
  · rw [hF, if_neg (by simp [ht.2 h])]
  · rw [hF, if_pos (Bool.of_not_eq_false (mt ht.1 h))]

end

theorem Runs.ret_goes (r : Runs (.ret y g a) s c) :
    When (∀ l, c.act.getLsbD l = true → (c.r64 a l).toNat < 2 ^ 57 ∧ (c.r64 a l).toNat % 4 = 0)
      (Completes (.ret y g a) s c (jump c fun l => c.r64 a l) WritesNothing) (exec (.ret y g a) s = .next (s.emulWord c)) :=
  r.goes_to_registers (execRet.eq_1 ..) fun _ => rfl

theorem Runs.brx_goes (r : Runs (.brx y g a b) s c) :
    let target (l : Nat) : DWord := c.r64 a l + BitVec.ofInt 64 (4 * (c.b32 b l).toInt)
    When (∀ l, c.act.getLsbD l = true → (target l).toNat < 2 ^ 57 ∧ (target l).toNat % 4 = 0)
      (Completes (.brx y g a b) s c (jump c target) WritesNothing) (exec (.brx y g a b) s = .next (s.emulWord c)) :=
  r.goes_to_registers (execBrx.eq_1 ..) fun _ => by simp only [four_signExtend_eq]

/-! ### Words that park their sheaf and change their active lanes -/

theorem Sheaf.closedSync_park {f : Sheaf} {seq : Nat} {i : Instr} : (f.closedSync seq i c).park = f.park := by
  unfold Sheaf.closedSync
  split
  · rw [Sheaf.updLanes_eq]
  · rfl

theorem Sheaf.endedRegion_park {f : Sheaf} {seq : Nat} {sh : Shape} : (f.endedRegion seq c sh).park = f.park := by
  unfold Sheaf.endedRegion
  split
  · rw [Sheaf.startRegion_frame]
  · rfl

/-- A word with Y that does not commit late parks its position's lanes. -/
theorem Sheaf.concluded_park {f : Sheaf} {seq : Nat} {i : Instr} {sh : Shape} (hy : sh.y = true) (hl : opCommitsLate sh.op = false) :
    (f.concluded seq i c sh).park = some ⟨(f.park.getD {}).lanes ||| c.lanes, (f.park.getD {}).late⟩ := by
  unfold Sheaf.concluded Sheaf.parkedBy Sheaf.parked
  rw [if_pos hy, hl, Sheaf.endedRegion_park, Sheaf.closedSync_park]
  simp

theorem Sheaf.advanced_park {f : Sheaf} {sh : Shape} : (f.advanced c sh).park = f.park := by
  have hr (x : Sheaf) : (x.raise c.op c.flag c.act).park = x.park := by unfold Sheaf.raise; split <;> rfl
  unfold Sheaf.advanced
  rw [Sheaf.updLanes_eq]
  by_cases h : sh.op = 0x5E
  · simp only [h, if_true]
  · simp only [h, if_false, hr]

/-- A word that parks its sheaf and changes its active lanes: what becomes of each lane, but for what every word's end does. -/
theorem Runs.parks {i : Instr} (r : Runs i s c) {eff : Ctx → State → Eff} (hx : exec i s = issueWord i s eff) {u : LaneSt → LaneSt}
    (hF : eff c (s.advance c (c.shapeOf i)) = .done ((s.advance c (c.shapeOf i)).updSheaf c.id fun f => f.updLanes c.act fun _ x => u x))
    (hy : (c.shapeOf i).y = true) (hl : opCommitsLate (c.shapeOf i).op = false) :
    Does i s c fun a f t z => OnlySheaf a t c.id c.unit.job ∧ OnlyLanes f z
      ∧ z.park = some ⟨(f.park.getD {}).lanes ||| c.lanes, (f.park.getD {}).late⟩
      ∧ ∀ l, l < 32 → (c.act.getLsbD l = true → LaneKept (u (c.advanced (c.shapeOf i) (f.lane l))) (z.lane l))
        ∧ (¬ c.act.getLsbD l = true → c.lanes.getLsbD l = true → LaneKept (c.advanced (c.shapeOf i) (f.lane l)) (z.lane l))
        ∧ (¬ c.lanes.getLsbD l = true → z.lane l = f.lane l) := by
  obtain ⟨f, hf⟩ := r.committed_sheaf
  obtain ⟨ha, hs⟩ := State.advance_spec hf
  have hsub := (State.issuing_spec r.issuing).2
  have hq := (f.advanced_quiet c (c.shapeOf i)).trans (Sheaf.updLanes_quiet _ c.act fun _ x => u x)
  refine ⟨_, f, _, hx.trans (r.done hF), hf, State.conclude_sheaf (State.sheaf_updSheaf hs _),
    (ha.trans (State.updSheaf_in ..)).trans (State.conclude_in ..), hq.trans (Sheaf.concluded_quiet ..), ?_, fun l hl => ?_⟩
  · rw [Sheaf.concluded_park hy hl, Sheaf.updLanes_eq]
    simp only [Sheaf.advanced_park]
  · obtain ⟨hk, hn⟩ := Sheaf.concluded_lane ((f.advanced c (c.shapeOf i)).updLanes c.act fun _ x => u x)
      ((s.advance c (c.shapeOf i)).updSheaf c.id fun f => f.updLanes c.act fun _ x => u x).fresh i c (c.shapeOf i) l
    rw [Sheaf.lane_updLanes, Sheaf.advanced_lane] at hk hn
    refine ⟨fun h => ?_, fun h hm => ?_, fun hm => ?_⟩
    · rwa [if_pos ⟨hl, h⟩, if_pos ⟨hl, hsub l h⟩] at hk
    · rwa [if_neg fun e => h e.2, if_pos ⟨hl, hm⟩] at hk
    · have h : ¬ c.act.getLsbD l = true := mt (hsub l) hm
      rw [if_neg fun e => h e.2, if_neg fun e => hm e.2] at hn
      exact hn (Bool.eq_false_iff.2 hm) (Bool.eq_false_iff.2 h)

theorem Runs.exit_parks (r : Runs (.exit g) s c) : Does (.exit g) s c fun a f t z => OnlySheaf a t c.id c.unit.job ∧ OnlyLanes f z
    ∧ z.park = some ⟨(f.park.getD {}).lanes ||| c.lanes, (f.park.getD {}).late⟩
    ∧ (∀ l, l < 32 → if c.lanes.getLsbD l = true then (z.lane l).pc = c.pc + 4 ∧ (z.lane l).life = (f.lane l).life
          ∧ (z.lane l).hold = (if c.act.getLsbD l = true then .exit else (f.lane l).hold)
        else z.lane l = f.lane l) := by
  obtain ⟨t, f, z, hx, hf, hz, ho, hq, hp, hl⟩ := r.parks (execExit.eq_1 ..) (u := fun x => { x with hold := .exit }) rfl rfl rfl
  refine ⟨t, f, z, hx, hf, hz, ho, hq, hp, fun l h => ?_⟩
  obtain ⟨hact, hpass, hstay⟩ := hl l h
  by_cases hm : c.lanes.getLsbD l = true
  · rw [if_pos hm]
    by_cases ha : c.act.getLsbD l = true
    · rw [if_pos ha]
      exact ⟨(hact ha).pc, (hact ha).life, (hact ha).hold⟩
    · rw [if_neg ha]
      exact ⟨(hpass ha hm).pc, (hpass ha hm).life, (hpass ha hm).hold⟩
  · rw [if_neg hm]
    exact hstay hm

theorem Runs.eret_returns (r : Runs (.eret g) s c) (h : ∀ l, c.act.getLsbD l = true → (c.f.lane l).handler = true) :
    Does (.eret g) s c fun a f t z => OnlySheaf a t c.id c.unit.job ∧ OnlyLanes f z
      ∧ z.park = some ⟨(f.park.getD {}).lanes ||| c.lanes, (f.park.getD {}).late⟩
      ∧ ∀ l, l < 32 → if c.act.getLsbD l = true then (z.lane l).pc = c.f.empc + 4 ∧ (z.lane l).handler = false
        else if c.lanes.getLsbD l = true then (z.lane l).pc = c.pc + 4 ∧ (z.lane l).handler = (f.lane l).handler
        else z.lane l = f.lane l := by
  have hn := (Ctx.any_actLanes_eq_false (p := fun l => !(c.f.lane l).handler) fun l => by simp).2 h
  obtain ⟨t, f, z, hx, hf, hz, ho, hq, hp, hl⟩ := r.parks (execEret.eq_1 ..) (if_neg (by simp [hn])) rfl rfl
  refine ⟨t, f, z, hx, hf, hz, ho, hq, hp, fun l h => ?_⟩
  obtain ⟨hact, hpass, hstay⟩ := hl l h
  by_cases ha : c.act.getLsbD l = true
  · rw [if_pos ha]
    exact ⟨(hact ha).pc, (hact ha).handler⟩
  · rw [if_neg ha]
    by_cases hm : c.lanes.getLsbD l = true
    · rw [if_pos hm]
      exact ⟨(hpass ha hm).pc, (hpass ha hm).handler⟩
    · rw [if_neg hm]
      exact hstay hm

theorem Runs.eret_emulates (r : Runs (.eret g) s c) (h : ¬ ∀ l, c.act.getLsbD l = true → (c.f.lane l).handler = true) :
    exec (.eret g) s = .next (s.emulWord c) := by
  have hn := mt (Ctx.any_actLanes_eq_false (p := fun l => !(c.f.lane l).handler) fun l => by simp).1 h
  exact r.emulates (execEret.eq_1 ..) (if_pos (Bool.of_not_eq_false hn))

end

/-- Settles O16: word by word, each by the lemma that says where its lanes go. -/
theorem branchesCallsExitsReturns : Obligations.BranchesCallsExitsReturns := by
  unfold Obligations.BranchesCallsExitsReturns
  exact ⟨fun y g d a b i s c => ⟨Runs.bra_completes, Runs.call_completes, Runs.ret_goes, Runs.brx_goes⟩,
    fun g s c => ⟨Runs.exit_parks, fun r => ⟨r.eret_returns, r.eret_emulates⟩⟩⟩

end Sys2Proof.Machine
end

section
/-!
PROOFS. Rollback (O26): what it does to each part of its sheaf.
-/
namespace Sys2Proof

/-- A store whose every value goes through a function that keeps the default. -/
theorem Store.get_mapValues {α : Type} [Inhabited α] {u : α → α} (h : u default = default) (m : Store α) (k : Nat) :
    (⟨m.cells.map fun c => (c.1, u c.2)⟩ : Store α).get k = u (m.get k) := by
  have hf (l : List (Nat × α)) : (Store.find k (l.map fun c => (c.1, u c.2))).getD default = u ((Store.find k l).getD default) := by
    induction l with
    | nil => exact h.symm
    | cons c rest ih =>
      simp only [List.map_cons, Store.find]
      split
      · rfl
      · exact ih
  exact hf m.cells

namespace Machine
open Sys2Proof.Claims

variable {s : State} {id : Nat} {f : Sheaf} {m : Mask} {l : Nat}

/-! ### What a rollback does to each part of its sheaf (R83, R186, R361) -/

/-- The lanes that a rollback moves are those whose `EXIT` has not issued. -/
theorem and_not_exiting_eq : m &&& ~~~f.exiting = goingOn f m := by
  refine BitVec.eq_of_getLsbD_eq fun l hl => ?_
  rw [goingOn, getLsbD_laneMask, BitVec.getLsbD_and, BitVec.getLsbD_not, Sheaf.getLsbD_exiting hl]
  simp only [hl, decide_true, Bool.true_and, bne, Bool.beq_eq_decide_eq]

/-- A choice among lanes of the one, of those that wrote a register, that passed its region start first. -/
def FirstWriter (f : Sheaf) (wrote : LaneSt → Bool) (ks : List Nat) : Option LaneSt → Prop
  | none => ∀ l ∈ ks, wrote (f.lane l) = false
  | some x => ∃ l ∈ ks, wrote (f.lane l) = true ∧ x = f.lane l
      ∧ ∀ k ∈ ks, wrote (f.lane k) = true → (f.lane l).startSeq ≤ (f.lane k).startSeq

theorem Sheaf.firstWriter_spec {wrote : LaneSt → Bool} : FirstWriter f wrote (maskLanes m) (f.firstWriter m wrote) := by
  unfold Sheaf.firstWriter
  induction maskLanes m using List.reverseRecOn with
  | nil => exact fun _ h => absurd h List.not_mem_nil
  | append_singleton ks k ih =>
    rw [List.foldl_append, List.foldl_cons, List.foldl_nil]
    generalize ks.foldl _ none = best at ih ⊢
    by_cases hk : wrote (f.lane k) = true
    · cases best with
      | none =>
        have hn : ∀ l ∈ ks, wrote (f.lane l) = false := ih
        simp only [hk, if_true]
        refine ⟨k, by simp, hk, rfl, fun j hj hw => ?_⟩
        obtain hj | rfl := List.mem_append.1 hj |>.imp_right List.mem_singleton.1
        · simp [hn j hj] at hw
        · exact Nat.le_refl _
      | some b =>
        obtain ⟨l, hl, hw, rfl, hmin⟩ := ih
        simp only [hk, if_true]
        split
        · next hlt =>
          refine ⟨k, by simp, hk, rfl, fun j hj hw => ?_⟩
          obtain hj | rfl := List.mem_append.1 hj |>.imp_right List.mem_singleton.1
          · exact Nat.le_trans (Nat.le_of_lt hlt) (hmin j hj hw)
          · exact Nat.le_refl _
        · next hlt =>
          refine ⟨l, List.mem_append_left _ hl, hw, rfl, fun j hj hw => ?_⟩
          obtain hj | rfl := List.mem_append.1 hj |>.imp_right List.mem_singleton.1
          · exact hmin j hj hw
          · exact Nat.le_of_not_lt hlt
    · simp only [hk]
      have hmem {j : Nat} (hj : j ∈ ks ++ [k]) (hw : wrote (f.lane j) = true) : j ∈ ks := by
        obtain hj | rfl := List.mem_append.1 hj |>.imp_right List.mem_singleton.1
        · exact hj
        · exact absurd hw hk
      cases best with
      | none => exact fun j hj => Bool.eq_false_iff.2 fun hw => by simp [ih j (hmem hj hw)] at hw
      | some b =>
        obtain ⟨l, hl, hw, hb, hmin⟩ := ih
        exact ⟨l, List.mem_append_left _ hl, hw, hb, fun j hj hw => hmin j (hmem hj hw) hw⟩

theorem restored_firstWriter {wrote : LaneSt → Bool} {saved : LaneSt → Word} {now : Word} :
    Restored f m wrote saved now (((f.firstWriter m wrote).map saved).getD now) := by
  have h := Sheaf.firstWriter_spec (f := f) (m := m) (wrote := wrote)
  cases hx : f.firstWriter m wrote with
  | none =>
    rw [hx] at h
    exact .inl ⟨fun l hl hm => h l (mem_maskLanes.2 ⟨hl, hm⟩), rfl⟩
  | some x =>
    rw [hx] at h
    obtain ⟨l, hl, hw, rfl, hmin⟩ := h
    obtain ⟨hl, hm⟩ := mem_maskLanes.1 hl
    exact .inr ⟨l, hl, hm, hw, rfl, fun k hk hm => hmin k (mem_maskLanes.2 ⟨hk, hm⟩)⟩

/-- Lanes that give up their parts of every word are counted by no flag; the others are counted as before. -/
theorem Sheaf.laneFlag_dropAllParts {n : Nat} (hl : l < 32) :
    (f.dropAllParts m).laneFlag n l = if m.getLsbD l = true then 0 else f.laneFlag n l := by
  unfold Sheaf.laneFlag Sheaf.dropAllParts
  dsimp only
  rw [List.filter_filter, List.filter_map, List.length_map]
  split
  · next h => simp [Function.comp_def, h]
  · next h =>
    congr 1
    refine List.filter_congr fun o _ => ?_
    have hb : (o.lanes &&& ~~~m).getLsbD l = o.lanes.getLsbD l := by
      rw [BitVec.getLsbD_and, BitVec.getLsbD_not, Bool.eq_false_iff.2 h, decide_eq_true hl, Bool.not_false, Bool.and_true, Bool.and_true]
    have hne : o.lanes.getLsbD l = true → (o.lanes &&& ~~~m != 0) = true := fun ho =>
      bne_iff_ne.2 fun e => by simp [e, ho] at hb
    dsimp only [Function.comp]
    rw [hb]
    cases ho : o.lanes.getLsbD l with
    | false => simp
    | true => rw [hne ho, Bool.and_true]

theorem State.firstWriter_rewindPops {wrote : LaneSt → Bool} : (s.rewindPops f m).firstWriter m wrote = f.firstWriter m wrote := rfl

/-- The sheaf of a rollback but for its lanes. -/
def State.withdrawn (s : State) (f0 : Sheaf) (m : Mask) : Sheaf :=
  let f := s.rewindPops f0 m
  let f := { f with
    rm := ((f.firstWriter m LaneSt.wroteRm).map LaneSt.startRm).getD f.rm
    bp := ((f.firstWriter m LaneSt.wroteBp).map LaneSt.startBp).getD f.bp
    clr := ((f.firstWriter m LaneSt.wroteClr).map LaneSt.startClr).getD f.clr
    outstanding := (f.outstanding.filter fun o => !(m.getLsbD o.lane && o.inRegion)) }
  (((f.dropStores m).dropAllParts m).clearPoison m).dropTraps m

theorem State.withdrawn_frame : s.withdrawn f m = { f with
    streams := (s.rewindPops f m).streams
    rm := ((f.firstWriter m LaneSt.wroteRm).map LaneSt.startRm).getD f.rm
    bp := ((f.firstWriter m LaneSt.wroteBp).map LaneSt.startBp).getD f.bp
    clr := ((f.firstWriter m LaneSt.wroteClr).map LaneSt.startClr).getD f.clr
    flagOps := (f.dropAllParts m).flagOps
    outstanding := f.outstanding.filter fun o => !(m.getLsbD o.lane && o.inRegion)
    storeQueue := (f.dropStores m).storeQueue
    vPoison := (f.clearPoison m).vPoison, uPoison := (f.clearPoison m).uPoison, pending := (f.clearPoison m).pending
    trap := f.trap.bind fun t => t.less m, trapsAfter := f.trapsAfter.filterMap fun t => t.less m } := by
  unfold State.withdrawn
  simp only [State.firstWriter_rewindPops]
  simp only [Sheaf.dropTraps, Sheaf.clearPoison, Sheaf.dropAllParts, Sheaf.dropStores, State.rewindPops]

/-- A lane of a rollback. -/
def LaneSt.rolledBack (x : LaneSt) : LaneSt :=
  { x with pc := x.start, limm := none, xmod := none, sched := none, hold := .none, asked := none
           wroteRm := false, wroteBp := false, wroteClr := false, poisoned := none, alsoMet := [] }

theorem State.rollback_eq (h : s.sheaf id = some f) :
    s.rollback id m = s.setSheaf id ((s.withdrawn f (goingOn f m)).updLanes (goingOn f m) fun _ => LaneSt.rolledBack) := by
  unfold State.rollback
  rw [h, ← and_not_exiting_eq]
  rfl

theorem withdrawn_lane : (s.withdrawn f m).lane l = f.lane l := by
  rw [State.withdrawn_frame]
  rfl

/-- A trap that is left of a pending one keeps its kind. -/
theorem TrapRec.less_spec (t : TrapRec) : if t.lanes &&& ~~~m = 0 ∨ (t.who ≠ 0 ∧ t.who &&& ~~~m = 0) then t.less m = none
    else ∃ x, t.less m = some x ∧ x.kind = t.kind ∧ x.lanes = t.lanes &&& ~~~m ∧ x.who = t.who &&& ~~~m := by
  unfold TrapRec.less
  extract_lets lanes who u
  split
  · rfl
  · split
    · exact ⟨_, rfl, rfl, rfl, rfl⟩
    · exact ⟨_, rfl, rfl, rfl, rfl⟩

theorem clearPoison_pending : ((f.clearPoison m).pending.map fun q => (q.key, q.old, q.ready))
    = f.pending.map fun q => (q.key, q.old, q.ready) := by
  unfold Sheaf.clearPoison
  rw [List.map_map]
  refine List.map_congr_left fun q _ => ?_
  dsimp only [Function.comp]
  split <;> rfl

theorem rewindPops_streams (n : Nat) :
    { (s.rewindPops f m).streams.get n with tentative := [], rewound := [] } = { f.streams.get n with tentative := [], rewound := [] }
    ∧ ((s.rewindPops f m).streams.get n).tentative = (f.streams.get n).tentative.filter fun e => !m.getLsbD e.1 := by
  have h := Store.get_mapValues (u := fun q : StreamReg => { q with
    tentative := (q.tentative.filter fun t => !m.getLsbD t.1)
    rewound := ((q.tentative.filter fun t => m.getLsbD t.1).map fun t =>
      (t.1, if t.2.poison.isSome then s.fetchElem f q t.2.k else t.2)) ++ q.rewound }) rfl f.streams n
  rw [show (s.rewindPops f m).streams.get n = _ from h]
  exact ⟨rfl, rfl⟩

/-- What a rollback leaves of its sheaf, part by part. -/
theorem rolledBack_withdrawn : RolledBack f m ((s.withdrawn f m).updLanes m fun _ => LaneSt.rolledBack) := by
  have hl (l : Nat) : _ = _ := Sheaf.lane_updLanes (s.withdrawn f m) m (fun _ => LaneSt.rolledBack) l
  simp only [withdrawn_lane] at hl
  have hz := (Sheaf.updLanes_eq (s.withdrawn f m) m fun _ => LaneSt.rolledBack).trans (by rw [State.withdrawn_frame])
  generalize (s.withdrawn f m).updLanes m (fun _ => LaneSt.rolledBack) = z at hl hz
  have hflag (n l : Nat) : z.laneFlag n l = (f.dropAllParts m).laneFlag n l := by rw [hz]; rfl
  have htrap : z.trap = f.trap.bind fun t => t.less m := by rw [hz]
  have hpend : z.pending = (f.clearPoison m).pending := by rw [hz]
  have hst : z.streams = (s.rewindPops f m).streams := by rw [hz]
  refine ⟨?_, ?_, fun h => ?_, fun t h => ?_, ?_, ?_, ?_,
    fun n l hl => ?_, ?_, fun l h => ?_⟩
  · rw [hz]; rfl
  · rw [hpend, clearPoison_pending]
  · rw [htrap, h]; rfl
  · rw [htrap, h]
    exact TrapRec.less_spec t
  · rw [hz]; exact restored_firstWriter
  · rw [hz]; exact restored_firstWriter
  · rw [hz]; exact restored_firstWriter
  · rw [hflag, Sheaf.laneFlag_dropAllParts hl]
  · rw [hst]; exact rewindPops_streams
  · rw [hl]
    split
    · next hm =>
      rw [if_pos ⟨h, hm⟩]
      exact ⟨rfl, rfl, rfl, rfl, rfl, rfl, rfl, rfl, rfl⟩
    · next hm => exact if_neg fun e => hm e.2

/-- Settles O26: part by part, each by the lemma that says what a rollback does to it. -/
theorem rollbackAndReplayLimit : Obligations.RollbackAndReplayLimit := by
  unfold Obligations.RollbackAndReplayLimit
  refine fun s id m f h => ⟨⟨_, ?_, ?_, rolledBack_withdrawn (s := s)⟩, ?_⟩
  · rw [State.rollback_eq h]
    exact State.sheaf_setSheaf_self
  · rw [State.rollback_eq h]
    exact State.setSheaf_oneSheaf
  · refine ⟨_, _, rfl, State.sheaf_updSheaf h _, State.updSheaf_oneSheaf, Sheaf.updLanes_eq .., fun l hl => ?_⟩
    rw [Sheaf.lane_updLanes, getLsbD_laneMask]
    simp [hl]

end Machine
end Sys2Proof
end

section
/-!
PROOFS. Words out of shape (O24): a word that is no hint is issued in one way, and comes to its trap before any effect.
-/
namespace Sys2Proof.Machine
open Sys2Proof.Claims

variable {i : Instr} {s : State} {c : Ctx} {f : Sheaf}

/-! ### Every word but a hint is issued in one way -/

/-- An answer is that of a word issued with some effect. -/
def Issued (i : Instr) (s : State) (o : Out) : Prop := ∃ eff, o = issueWord i s eff

section
variable {lat op : Nat} {d a b : BitVec 7} {m p : BitVec 3} {wide returns push virt full : Bool} {eff : Ctx → State → Eff}
  {g : Ctx → Nat → Word} {h : Ctx → Nat → DWord}

theorem issued : Issued i s (issueWord i s eff) := ⟨eff, rfl⟩

theorem lane32_issued : Issued i s (lane32 i s lat d g) := issued
theorem lane64_issued : Issued i s (lane64 i s lat d h) := issued
theorem laneForm_issued {w : Nat → Bool} : Issued i s (laneForm i s lat d w g h) := issued
theorem fpWord_issued {terms : Fmt → Nat → Nat → Nat → List Ex} : Issued i s (fpWord i s d a b terms) := lane32_issued
theorem sfuWord_issued {code : Word → Word → Nat} : Issued i s (sfuWord i s d a code) := lane32_issued
theorem icmpWord_issued {cond : BitVec 4} : Issued i s (icmpWord i s p cond a g h) := issued
theorem loadWord_issued {part : Ctx → Nat → Outstanding} : Issued i s (loadWord i s part) := issued
theorem storeWord_issued {bytes : Ctx → Nat → List Byte} : Issued i s (storeWord i s m a bytes) := issued
theorem atomWord_issued {right : Right} {new : Ctx → Nat → Nat → Nat} :
    Issued i s (atomWord i s op wide m d a right returns new) := issued
theorem millWord_issued : Issued i s (millWord i s) := issued
theorem hwaitWord_issued {n : Nat} : Issued i s (hwaitWord i n full s) := issued
theorem productWord_issued {work : ProductBlock → Work} : Issued i s (productWord i s a d work) := issued
theorem chainWord_issued {work : Nat → Nat → Work} : Issued i s (chainWord i s a work) := issued
theorem queueWord_issued : Issued i s (queueWord i s push d a virt) := issued

end

/-- A word that is no hint is issued with some effect; an event has no word. -/
theorem exec_issued {form : Nat} {limm : Bool} (he : (encode i).isSome = true) (hn : opIsHint (shape i form limm).op = false) :
    Issued i s (exec i s) := by
  cases i with
  | sched | limm | xmod => cases hn
  | moduleReset | bootImageLoad | recoveryImageDoe | quadrantCycle | trapEntry | yParkEnd | loadReply | storeTranslated | tlbWalk
  | tlbInvalidation | faultService | driverAnswer | replayLimit | streamElementFetch | copyStart | copyComplete | copySlowPath
  | ringChunkStart | qfencePass | mbindStart | mrelStart | millOpStart | millOpRetire | qmvStart | quernRow | rjoinStart
  | fallowSweepEnd | censusRanking | migrationCommand | migrationCopy | migrationInstant | scanStart | scanPerformed | csendStart
  | carryPlaced | crecvTake | roundComplete | spawnArrival | unitAdmission | unitComplete | nodeComplete | remoteEnqueueReceive
  | remoteEnqueueAck | jobCompletionSweep | jobEnd | queueWordAtHome | popDelivery | barrierComplete | cwaitRelease | incumbentCommit
  | incupReply | incrdRootReply | crierReplicaUpdate | crierForward | watchdogExpiry | budgetPeriod | saveRequest | drainEnd | saveEnd
  | restore | contextCreate | contextDestroy | doorbellWrite | submissionEntry | phaseEndCompletion | hostHdmAccess | peerRequest
  | routeRecompute | linkRetrain | capabilityPublish | peerUnreachable | remoteStoreFailure | rdmaCompletion | dvfSetPoint | dvfGate
  | dvfWake | pointChangeDone | gatingDone | wakeDone | thermalThrottle | throttleRelease | scrubPass | hbmRowRetire | coreFailure
  | repairRecordWrite | getVersion | getCapabilities | negotiateAlgorithms | getDigests | getCertificate | challenge | getMeasurements
  | keyExchange | finish | endSession | registerWrite | recordReachableAgain | submissionQueueCreate | queuePairCreate
  | matrixRecordRegistration | coldChangeReport | congestionNotificationPacket | nak | replyHoldExpiry => cases he
  | iadd | isub | iaddi | imul | imulh | imad | imin | imax | and | or | xor | andn | shl | shr | sar | mov | sel | bcast =>
    exact laneForm_issued
  | bfe | bfi | popc | clz | ctz | brev | bswap | idot4 | fmul | fmin | fmax | fabs | fneg | fnabs | fcls | fdot2 | frnd | fscl | cvtb
  | cvts | pack | unpk | pmovV | pmovM | voteBallot | conf => exact lane32_issued
  | lea | imadw => exact lane64_issued
  | fadd | fsub | ffma => exact fpWord_issued
  | rcp | rsq | sqrt | ex2 | lg2 | sin | cos | tanh =>
    unfold exec
    exact sfuWord_issued
  | icmp | icmpi => exact icmpWord_issued
  | ld | ldv | lds => exact loadWord_issued
  | st | stv | stq => exact storeWord_issued
  | atom | cas | atomf | atst => exact atomWord_issued
  | mma | mmas | mmab | azero => exact millWord_issued
  | hwaitFree | hwaitFull =>
    unfold exec
    exact hwaitWord_issued
  | qmv | rjoin =>
    unfold exec
    exact productWord_issued
  | csend | crecv =>
    unfold exec
    exact chainWord_issued
  | qpush | qpop =>
    unfold exec
    exact queueWord_issued
  | _ =>
    unfold exec
    exact issued

/-! ### The emulation trap of a word out of shape (R92) -/

/-- A word that does not keep its shape comes to its emulation trap. -/
theorem issueWord_of_shape (hi : s.issuing i = some (some c)) (ha : c.act ≠ 0) (hh : wordHeld i (c.shapeOf i) c s = false)
    (hf : c.f.firstFault (if (c.shapeOf i).endsRegion then c.f.faultedLanes c.lanes else 0) = none)
    (hs : shapeOk (c.shapeOf i) c.unit.lrec.nv c.limm.isSome c.x = false) (eff : Ctx → State → Eff) :
    issueWord i s eff = .next (s.emulWord c) := by
  unfold Ctx.shapeOf at hh hf hs
  unfold issueWord
  rw [hi]
  simp only [hf, hh, ha, hs, if_false, Bool.not_false, Bool.false_eq_true, if_true]

theorem emulTrap_eq : emulTrap c.word c.pc c.act = emulRecord c := by
  have h (n w : Nat) (hw : w ≤ 32) : (c.word.extractLsb' n w).setWidth 32 = BitVec.ofNat 32 (c.word.toNat / 2 ^ n % 2 ^ w) := by
    refine BitVec.eq_of_toNat_eq ?_
    rw [BitVec.toNat_setWidth, BitVec.extractLsb'_toNat, BitVec.toNat_ofNat, Nat.shiftRight_eq_div_pow]
  unfold emulTrap emulRecord
  rw [h 21 3 (by decide), h 14 7 (by decide), h 7 7 (by decide), h 0 7 (by decide), Nat.pow_zero, Nat.div_one]
  rfl

theorem schedAfter_eq (op : Nat) (g : Option Sched) : schedAfter op g = schedGoesOn op g := by
  unfold schedAfter schedGoesOn
  cases g <;> rfl

/-- What a word without an effect of its own leaves of its sheaf. -/
def Sheaf.passed (f : Sheaf) (c : Ctx) : Sheaf :=
  { (f.updLanes c.lanes fun l x =>
      { x with pc := if c.act.getLsbD l then x.pc else c.pc + 4, limm := none, xmod := none, lastIssue := c.now, pass := 0
               sched := if c.act.getLsbD l then x.sched else schedAfter (wordOp c.word).toNat x.sched }) with
    issued := true
    restored := false }

theorem Sheaf.passed_frame : f.passed c = { f with lanes := (f.passed c).lanes, issued := true, restored := false } := by
  unfold Sheaf.passed
  rw [Sheaf.updLanes_eq]

theorem Sheaf.passed_lane {l : Nat} (hl : l < 32) : (f.passed c).lane l = if c.lanes.getLsbD l = true
    then { f.lane l with
      pc := if c.act.getLsbD l = true then (f.lane l).pc else c.pc + 4, limm := none, xmod := none, lastIssue := c.now, pass := 0
      sched := if c.act.getLsbD l = true then (f.lane l).sched else schedGoesOn (wordOp c.word).toNat (f.lane l).sched }
    else f.lane l := by
  refine (Sheaf.lane_updLanes ..).trans ?_
  simp only [hl, true_and, schedAfter_eq]

/-- Its lanes are in a handler as they were. -/
theorem Sheaf.passed_handlerMask : (f.passed c).handlerMask = f.handlerMask := by
  refine BitVec.eq_of_getLsbD_eq fun l hl => ?_
  unfold Sheaf.handlerMask
  rw [getLsbD_laneMask, getLsbD_laneMask, Sheaf.passed_lane hl]
  split <;> rfl

section
variable (hf : s.sheaf c.id = some f)
include hf

theorem State.emulWord_waits (hm : f.handlerMask &&& c.act = 0) (hw : f.handlerMask ≠ 0 ∨ f.trap.isSome = true) :
    s.emulWord c = s.updSheaf c.id fun f => f.updLanes c.lanes fun _ x => { x with hold := .trap } := by
  unfold State.emulWord State.trapWord
  rw [hf]
  exact if_pos ⟨hm, hw.imp_left bne_iff_ne.2⟩

theorem State.emulWord_raises (h : ¬ (f.handlerMask &&& c.act = 0 ∧ (f.handlerMask ≠ 0 ∨ f.trap.isSome = true))) :
    s.emulWord c = (s.updSheaf c.id fun f => f.passed c).raiseTrap c.id (emulRecord c) := by
  unfold State.emulWord State.trapWord
  rw [hf]
  refine (if_neg fun e => h ⟨e.1, e.2.imp_left bne_iff_ne.1⟩).trans ?_
  rw [emulTrap_eq]
  rfl

/-- With no handler in the sheaf the trap pends, as the event of its entry finds it. -/
theorem State.emulWord_pends (hm : f.handlerMask = 0) (ht : f.trap = none) :
    s.emulWord c = ((s.updSheaf c.id fun f => f.passed c).setSheaf c.id { f.passed c with trap := some (emulRecord c) }).tryTrap c.id := by
  rw [State.emulWord_raises hf (by simp [hm, ht]), State.raiseTrap, State.sheaf_updSheaf hf]
  simp [Sheaf.passed_handlerMask, hm]

/-- Inside a handler it ends the job (R94). -/
theorem State.emulWord_fatal (hm : f.handlerMask &&& c.act ≠ 0) :
    s.emulWord c = (s.updSheaf c.id fun f => f.passed c).fatalTrap c.id (f.passed c) (emulRecord c) true := by
  rw [State.emulWord_raises hf fun e => hm e.1, State.raiseTrap, State.sheaf_updSheaf hf]
  exact if_pos (by rw [Sheaf.passed_handlerMask]; exact bne_iff_ne.2 hm)

end

/-- A trap inside a handler ends the job with TYPE 3, whatever its kind (R94, R365). -/
theorem State.fatalTrap_inHandler_jobEnds {id : Nat} {r : TrapRec} : JobEnds s (s.fatalTrap id f r true) (s.unitOf f).job 3 := by
  unfold State.fatalTrap
  extract_lets lane e s1
  have hj : s1.jobs = s.jobs := by simp [s1]
  have hc : e.typ = 3 := by simp [e, lane, State.nameSheaf]
  rw [hc]
  exact jobEnds_of_jobs hj State.endJob_jobEnds

/-- Settles O24: by what stands in a handler of the sheaf. -/
theorem wordsOutOfShapeTrap : Obligations.WordsOutOfShapeTrap := by
  unfold Obligations.WordsOutOfShapeTrap
  intro i s c f he hn hi hf ha hh hp hs
  obtain ⟨eff, hx⟩ := exec_issued (s := s) he hn
  have hx := hx.trans (issueWord_of_shape hi ha hh hp hs eff)
  refine ⟨fun hm ht => ?_, fun hm hw => ?_, fun hm => ?_⟩
  · refine ⟨_, _, hx.trans (congrArg Host.Outcome.next (State.emulWord_pends hf hm ht)), State.sheaf_setSheaf_self,
      oneSheaf_trans State.updSheaf_oneSheaf State.setSheaf_oneSheaf, ?_, fun l hl => Sheaf.passed_lane hl⟩
    rw [Sheaf.passed_frame]
  · rw [State.emulWord_waits hf hm hw] at hx
    refine ⟨_, _, hx, State.sheaf_updSheaf hf _, State.updSheaf_oneSheaf, Sheaf.updLanes_eq .., fun l hl => ?_⟩
    rw [Sheaf.lane_updLanes]
    simp only [hl, true_and]
  · rw [State.emulWord_fatal hf hm] at hx
    have hu : (s.updSheaf c.id fun f => f.passed c).unitOf (f.passed c) = s.unitOf f := by
      rw [State.updSheaf_rest, Sheaf.passed_frame]
      rfl
    exact ⟨_, hx, jobEnds_of_jobs (s.updSheaf_jobs ..) (hu ▸ State.fatalTrap_inHandler_jobEnds)⟩

end Sys2Proof.Machine
end

section
/-!
PROOFS. What is ahead (for O47 and O59): one rule per operation of the state, that it leaves the agenda and the latch
as they are, in the order of the operations.
-/
namespace Sys2Proof.Machine

/-- What the outside world brings next, and the positions latched: what only a new choice of positions changes. -/
def State.ahead (s : State) : List Instr × Option Latch := (s.agenda, s.latch)

theorem foldl_ahead {s : State} {α : Type} {g : State → α → State} {l : List α} (h : ∀ t x, (g t x).ahead = t.ahead) :
    (l.foldl g s).ahead = s.ahead :=
  foldl_keeps State.ahead g h l s

theorem foldl_fst_ahead {α β : Type} {g : State × β → α → State × β} {l : List α} {a : State × β}
    (h : ∀ a x, (g a x).1.ahead = a.1.ahead) : (l.foldl g a).1.ahead = a.1.ahead :=
  foldl_keeps (fun a : State × β => a.1.ahead) g h l a

theorem State.setSheaf_ahead {s : State} {id f} : (State.setSheaf s id f).ahead = s.ahead := rfl

theorem State.updSheaf_ahead {s : State} {id g} : (State.updSheaf s id g).ahead = s.ahead := by
  grind [State.updSheaf, State.setSheaf_ahead]

theorem State.updContext_ahead {s : State} {c g} : (State.updContext s c g).ahead = s.ahead := by
  grind [State.updContext, State.ahead]

theorem State.putByte_ahead {s : State} {k b} : (State.putByte s k b).ahead = s.ahead := rfl

theorem State.setPoison_ahead {s : State} {k p} : (State.setPoison s k p).ahead = s.ahead := rfl

theorem State.verifyLine_ahead {s : State} {k} : (State.verifyLine s k).ahead = s.ahead := by
  grind [State.verifyLine, State.setPoison_ahead, foldl_ahead, State.ahead]

theorem State.store_ahead {s : State} {cells} : (State.store s cells).ahead = s.ahead := by
  grind [State.store, State.putByte_ahead, State.verifyLine_ahead, State.setPoison_ahead, foldl_ahead]

theorem State.writeVa_ahead {s t : State} {ctx va bytes} (h : State.writeVa s ctx va bytes = .ok t) : t.ahead = s.ahead := by
  obtain ⟨keys, -, hk⟩ := Except.exists_of_bind_eq_ok h
  cases hk
  exact State.store_ahead

theorem State.report_ahead {s : State} {r} : (State.report s r).ahead = s.ahead := by
  unfold State.report
  split
  · rfl
  · split
    · exact State.updContext_ahead
    · split
      · next t ht => exact State.updContext_ahead.trans (State.writeVa_ahead ht)
      · rfl

theorem State.dropImages_ahead {s : State} {us} : (State.dropImages s us).ahead = s.ahead := rfl

theorem State.endJob_ahead {s : State} {j cause} : (State.endJob s j cause).ahead = s.ahead := by
  grind [State.endJob, State.dropImages_ahead, State.ahead]

theorem State.fatalTrap_ahead {s : State} {id f t inHandler} : (State.fatalTrap s id f t inHandler).ahead = s.ahead := by
  grind [State.fatalTrap, State.report_ahead, State.updSheaf_ahead, State.endJob_ahead]

theorem State.beginService_ahead {s : State} {id m p inPlace} : (State.beginService s id m p inPlace).ahead = s.ahead := by
  grind [State.beginService, State.updSheaf_ahead]

theorem State.take_ahead {s : State} : (State.take s).2.ahead = s.ahead := rfl

theorem State.setUnit_ahead {s : State} {u x} : (State.setUnit s u x).ahead = s.ahead := rfl

theorem State.updUnit_ahead {s : State} {u g} : (State.updUnit s u g).ahead = s.ahead := by
  grind [State.updUnit, State.setUnit_ahead]

theorem State.storeFailed_ahead {s : State} {id f lane pc addr bytes peer cause} :
    (State.storeFailed s id f lane pc addr bytes peer cause).ahead = s.ahead := by
  grind [State.storeFailed, State.take_ahead, State.ahead]

theorem State.sendRequest_ahead {s : State} : (State.sendRequest s).ahead = s.ahead := rfl

theorem State.charge_ahead {s : State} {ctx b n} : (State.charge s ctx b n).ahead = s.ahead := by
  grind [State.charge, State.updContext_ahead]

theorem State.setDie_ahead {s : State} {d x} : (State.setDie s d x).ahead = s.ahead := rfl

theorem State.l2Keep_ahead {s : State} {d key cp} : (State.l2Keep s d key cp).ahead = s.ahead := by
  grind [State.l2Keep, State.setDie_ahead]

theorem State.l2Only_ahead {s : State} {key} : (State.l2Only s key).ahead = s.ahead := by
  grind [State.l2Only, State.setDie_ahead, foldl_ahead]

theorem State.laneAccess_ahead {s : State} {core ctx key write cp n} :
    (State.laneAccess s core ctx key write cp n).ahead = s.ahead := by
  grind [State.laneAccess, State.charge_ahead, State.l2Keep_ahead, State.l2Only_ahead]

theorem State.setCore_ahead {s : State} {c x} : (State.setCore s c x).ahead = s.ahead := rfl

theorem State.updCore_ahead {s : State} {c f} : (State.updCore s c f).ahead = s.ahead := by
  grind [State.updCore, State.setCore_ahead]

theorem State.dropLines_ahead {s : State} {core keys} : (State.dropLines s core keys).ahead = s.ahead := by
  grind [State.dropLines, State.updCore_ahead]

theorem State.noteUpset_ahead {s : State} {cells} : (State.noteUpset s cells).ahead = s.ahead := by
  grind [State.noteUpset, State.ahead]

theorem State.write_ahead {s0 : State} {cells} : (State.write s0 cells).ahead = s0.ahead := by
  grind [State.write, State.noteUpset_ahead, State.store_ahead, State.ahead]

theorem State.performAt_ahead {s : State} {id f e p va keys} : (State.performAt s id f e p va keys).ahead = s.ahead := by
  grind [State.performAt, State.storeFailed_ahead, State.sendRequest_ahead, State.laneAccess_ahead, State.dropLines_ahead,
    State.write_ahead]

theorem State.performPart_ahead {s : State} {id e p} : (State.performPart s id e p).ahead = s.ahead := by
  grind [State.performPart, State.updUnit_ahead, State.performAt_ahead]

theorem State.performPush_ahead {s : State} {id e r k p} : (State.performPush s id e r k p).ahead = s.ahead := by
  grind [State.performPush, State.updUnit_ahead, State.performAt_ahead]

theorem State.performEntry_ahead {s : State} {id m e} : (State.performEntry s id m e).ahead = s.ahead := by
  grind [State.performEntry, State.performPart_ahead, State.performPush_ahead, State.updSheaf_ahead, foldl_ahead]

theorem State.commit_ahead {s : State} {id m} : (State.commit s id m).ahead = s.ahead := by
  grind [State.commit, State.performEntry_ahead, State.updSheaf_ahead, foldl_ahead]

theorem State.enterTrap_ahead {s : State} {id t} : (State.enterTrap s id t).ahead = s.ahead := by
  grind [State.enterTrap, State.fatalTrap_ahead, State.take_ahead, State.commit_ahead, State.updSheaf_ahead]

theorem State.tryTrap_ahead {s : State} {id} : (State.tryTrap s id).ahead = s.ahead := by
  grind [State.tryTrap, State.beginService_ahead, State.setSheaf_ahead, State.enterTrap_ahead]

theorem State.raiseTrap_ahead {s : State} {id t} : (State.raiseTrap s id t).ahead = s.ahead := by
  grind [State.raiseTrap, State.fatalTrap_ahead, State.tryTrap_ahead, State.setSheaf_ahead]

theorem State.trapWord_ahead {s t : State} {c r} (h : t.ahead = s.ahead) : (State.trapWord s t c r).ahead = s.ahead := by
  grind [State.trapWord, State.updSheaf_ahead, State.raiseTrap_ahead]

theorem State.passInactive_ahead {s : State} {c} : (State.passInactive s c).ahead = s.ahead := by
  grind [State.passInactive, State.updSheaf_ahead]

theorem State.emulWord_ahead {s : State} {c} :
    (State.emulWord s c).ahead = s.ahead := State.trapWord_ahead State.passInactive_ahead

theorem State.updJob_ahead {s : State} {j g} : (State.updJob s j g).ahead = s.ahead := by
  grind [State.updJob, State.ahead]

theorem State.progress_ahead {s : State} {j} : (State.progress s j).ahead = s.ahead := by
  grind [State.progress, State.updJob_ahead]

theorem State.conclude_ahead {s : State} {i c sh} : (State.conclude s i c sh).ahead = s.ahead := by
  grind [State.conclude, State.take_ahead, State.updSheaf_ahead]

theorem State.counted_ahead {s : State} : (State.counted s).ahead = s.ahead := rfl

theorem State.committedBy_ahead {s : State} {c sh} : (State.committedBy s c sh).ahead = s.ahead := by
  grind [State.committedBy, State.commit_ahead]

theorem State.advance_ahead {s : State} {c sh} : (State.advance s c sh).ahead = s.ahead := by
  grind [State.advance, State.progress_ahead, State.counted_ahead, State.updSheaf_ahead, State.committedBy_ahead]

theorem State.consume_ahead {s : State} {c p} : (State.consume s c p).ahead = s.ahead := by
  grind [State.consume, State.beginService_ahead, State.updSheaf_ahead]

theorem State.result_ahead {s : State} {c lat d g} : (State.result s c lat d g).ahead = s.ahead := by
  grind [State.result, State.updSheaf_ahead]

theorem State.result64_ahead {s : State} {c lat d g} : (State.result64 s c lat d g).ahead = s.ahead := by
  grind [State.result64, State.updSheaf_ahead]

theorem State.resultPred_ahead {s : State} {c lat p g} : (State.resultPred s c lat p g).ahead = s.ahead := by
  grind [State.resultPred, State.updSheaf_ahead, foldl_ahead]

theorem State.redWrite_ahead {s : State} {c d t g} : (State.redWrite s c d t g).ahead = s.ahead := by
  grind [State.redWrite, State.result64_ahead, State.result_ahead]

theorem State.branch_ahead {s : State} {c m target} : (State.branch s c m target).ahead = s.ahead := by
  grind [State.branch, State.updSheaf_ahead]

theorem State.residence_ahead {s : State} {id f first endl} : (State.residence s id f first endl).ahead = s.ahead := by
  grind [State.residence, State.updCore_ahead, foldl_ahead]

theorem State.holdLanes_ahead {s : State} {c m h} : (State.holdLanes s c m h).ahead = s.ahead := by
  grind [State.holdLanes, State.updSheaf_ahead]

theorem State.tlbTouch_ahead {s : State} {core ctx page} : (State.tlbTouch s core ctx page).ahead = s.ahead := by
  grind [State.tlbTouch, State.ahead]

/-- What the locating of an access leaves, where it answers a state. -/
def Loc.Ahead (s : State) : Loc → Prop
  | .here _ t => t.ahead = s.ahead
  | .miss _ | .bad _ => True

theorem State.locate_spec {s : State} {f space lane ea size r inPlace} :
    (State.locate s f space lane ea size r inPlace).Ahead s := by
  unfold State.locate
  extract_lets u
  split
  · exact rfl
  · extract_lets c va
    split
    · trivial
    · split
      · split
        · split <;> trivial
        · trivial
      · trivial
      · split
        · trivial
        · exact State.tlbTouch_ahead

theorem State.locate_ahead {s t : State} {f space lane ea size r inPlace a}
    (h : State.locate s f space lane ea size r inPlace = .here a t) : t.ahead = s.ahead := by
  have : (State.locate s f space lane ea size r inPlace).Ahead s := State.locate_spec
  rwa [h] at this

theorem State.rollback_ahead {s : State} {id m} : (State.rollback s id m).ahead = s.ahead := by
  grind [State.rollback, State.setSheaf_ahead]

theorem State.dropRecords_ahead {s : State} {p} : (State.dropRecords s p).ahead = s.ahead := rfl

theorem State.forceClose_ahead {s : State} {r} : (State.forceClose s r).ahead = s.ahead := by
  grind [State.forceClose, State.take_ahead, State.updSheaf_ahead, State.rollback_ahead, State.dropRecords_ahead]

theorem State.recordAt_ahead {s : State} {win die key me write} : (State.recordAt s win die key me write).ahead = s.ahead := rfl

/-- What the detector leaves, where it answers a state. -/
def Detected.Ahead (s : State) : Detected → Prop
  | .clear t | .withdrawn t => t.ahead = s.ahead
  | .race .. => True

theorem Detected.Ahead.congr {s t : State} (h : t.ahead = s.ahead) {d : Detected} (hd : d.Ahead t) : d.Ahead s := by
  cases d with
  | clear | withdrawn => exact Eq.trans hd h
  | race => trivial

theorem State.detectAll_ahead {s : State} {core win me write} {l : List Nat} :
    (State.detectAll s core win me write l).Ahead s := by
  induction l generalizing s with
  | nil => exact rfl
  | cons key rest ih =>
    unfold State.detectAll
    split
    · trivial
    · extract_lets start
      split
      · trivial
      · next line hl =>
        extract_lets victims s1
        have h1 : s1.ahead = s.ahead := by grind [foldl_ahead, State.forceClose_ahead]
        split
        · exact h1
        · exact ih.congr (State.recordAt_ahead.trans h1)

theorem State.detect_spec {s : State} {id lane region watched win addrs write sync} :
    (State.detect s id lane region watched win addrs write sync).Ahead s := by
  unfold State.detect
  split
  · exact rfl
  · split
    · exact rfl
    · exact State.detectAll_ahead.congr State.take_ahead

theorem State.detect_clear_ahead {s t : State} {id lane region watched win addrs write sync}
    (h : State.detect s id lane region watched win addrs write sync = .clear t) : t.ahead = s.ahead := by
  have : (State.detect s id lane region watched win addrs write sync).Ahead s := State.detect_spec
  rwa [h] at this

theorem State.detect_withdrawn_ahead {s t : State} {id lane region watched win addrs write sync}
    (h : State.detect s id lane region watched win addrs write sync = .withdrawn t) : t.ahead = s.ahead := by
  have : (State.detect s id lane region watched win addrs write sync).Ahead s := State.detect_spec
  rwa [h] at this

/-- What the detector leaves of an access brought to it, where it answers a state. -/
def Checked.Ahead (s : State) : Checked → Prop
  | .clear t | .withdrawn t => t.ahead = s.ahead
  | .race .. => True

theorem State.checkAccess_ahead {s : State} {id u space lane ea size r region write sync} :
    (State.checkAccess s id u space lane ea size r region write sync).Ahead s := by
  grind [State.checkAccess, Checked.Ahead, → State.locate_ahead, → State.detect_clear_ahead, → State.detect_withdrawn_ahead]

theorem State.addMiss_ahead {s : State} {die ctx page} : (State.addMiss s die ctx page).ahead = s.ahead := by
  grind [State.addMiss, State.ahead]

theorem State.askPages_ahead {s t : State} {c space size ea r} (h : State.askPages s c space size ea r = some t) :
    t.ahead = s.ahead := by
  unfold State.askPages at h
  split at h
  · cases h
  · extract_lets misses at h
    split at h
    · cases h
    · cases h
      exact foldl_ahead fun t x => State.updSheaf_ahead.trans State.addMiss_ahead

theorem checkLanes_ahead {s : State} {check : State → Nat → Checked} (h : ∀ t l, (check t l).Ahead t) {l : List Nat} {got} :
    (checkLanes check s l got).1.ahead = s.ahead := by
  induction l generalizing s got with
  | nil => rfl
  | cons l rest ih =>
    unfold checkLanes
    split
    · next t ht =>
      have := h s l
      rw [ht] at this
      exact ih.trans this
    · exact ih
    · next t ht =>
      have := h s l
      rw [ht] at this
      exact this

theorem State.dropCache_ahead {s : State} {core} : (State.dropCache s core).ahead = s.ahead := by
  grind [State.dropCache, State.updCore_ahead]

theorem State.readHome_ahead {s : State} {core u a acquire} : (State.readHome s core u a acquire).2.ahead = s.ahead := by
  grind [State.readHome, State.updCore_ahead, State.ahead]

/-- What a lane's load leaves. -/
def Got.Ahead (s : State) : Got → Prop
  | .bytes _ t | .bad _ t | .wait t => t.ahead = s.ahead

theorem State.loadLane_ahead {s : State} {id o opNo inPlace checked} : (State.loadLane s id o opNo inPlace checked).Ahead s := by
  grind [State.loadLane, Got.Ahead, State.addMiss_ahead, → State.locate_ahead, → State.detect_clear_ahead,
    → State.detect_withdrawn_ahead, State.dropCache_ahead, State.readHome_ahead, State.sendRequest_ahead, State.laneAccess_ahead]

theorem State.holdForService_ahead {s : State} {c met} : (State.holdForService s c met).ahead = s.ahead := by
  cases met with
  | nil => rfl
  | cons x l => exact State.updSheaf_ahead

theorem State.land_ahead {s : State} {id o r} : (State.land s id o r).ahead = s.ahead := by
  grind [State.land, State.updSheaf_ahead]

theorem State.raceRecord_ahead {s : State} {id pc addr m r} : (State.raceRecord s id pc addr m r).ahead = s.ahead := by
  unfold State.raceRecord
  split
  · rfl
  · exact State.report_ahead

/-- What a word's effect leaves, where it answers a state. -/
def Eff.Ahead (s : State) : Eff → Prop
  | .done t | .trap _ t | .hold t => t.ahead = s.ahead
  | .emul | .poison _ => True

theorem Eff.Ahead.congr {s t : State} (h : t.ahead = s.ahead) {e : Eff} (he : e.Ahead t) : e.Ahead s := by
  cases e with
  | done | trap | hold => exact Eq.trans he h
  | emul | poison => trivial

theorem State.afterLanes_ahead {s : State} {c faults races race kind refused} :
    (State.afterLanes s c faults races race kind refused).Ahead s := by
  unfold State.afterLanes
  extract_lets s1 traps
  have h1 : s1.ahead = s.ahead := by
    simp only [s1]
    split
    · exact State.raceRecord_ahead
    · rfl
  clear_value traps
  cases traps with
  | nil => exact h1
  | cons r rest =>
    dsimp only [Eff.Ahead]
    split
    · exact h1
    · exact State.updSheaf_ahead.trans h1

theorem State.loadStepped_ahead {s : State} {c sh part} : (State.loadStepped s c sh part).Ahead s := by
  unfold State.loadStepped
  extract_lets check any step1
  split
  · next t h => exact State.askPages_ahead h
  · have hc := checkLanes_ahead (s := s) (check := check) (l := c.actLanes) (got := []) fun _ _ => State.checkAccess_ahead
    split
    · next t h =>
      rw [h] at hc
      exact hc
    · next s1 races h =>
      rw [h] at hc
      extract_lets clean
      have hs : (clean.foldl step1 (s1.advance c sh, [])).1.ahead = s.ahead := by
        refine (foldl_fst_ahead fun acc l => ?_).trans (State.advance_ahead.trans hc)
        unfold step1
        have hl {o opNo inPlace checked} : (acc.1.loadLane c.id o opNo inPlace checked).Ahead acc.1 := State.loadLane_ahead
        grind [Got.Ahead]
      generalize clean.foldl step1 (s1.advance c sh, []) = r at hs
      dsimp only
      split
      · exact State.holdForService_ahead
      · split
        · exact rfl
        · refine State.afterLanes_ahead.congr (State.updSheaf_ahead.trans ((foldl_ahead fun t x => ?_).trans hs))
          split
          · exact State.land_ahead
          · exact State.updSheaf_ahead

theorem State.loadIssue_ahead {s : State} {c part} : (State.loadIssue s c part).ahead = s.ahead := by
  grind [State.loadIssue, State.land_ahead, State.updSheaf_ahead, foldl_ahead]

theorem State.makeRoom_ahead {s : State} {c} {n : Nat} : (State.makeRoom s c n).ahead = s.ahead := by
  induction n generalizing s with
  | zero => rfl
  | succ n ih => grind [State.makeRoom, State.rollback_ahead]

theorem State.enqueue_ahead {s : State} {c e} : (State.enqueue s c e).ahead = s.ahead := by
  grind [State.enqueue, State.updSheaf_ahead]

/-- What the translation of a part of a store leaves, where it answers a state. -/
def PartRes.Ahead (s : State) : PartRes → Prop
  | .ok _ t | .again t => t.ahead = s.ahead
  | .miss _ => True

theorem State.translateChecked_ahead {s : State} {id space p} : (State.translateChecked s id space p).Ahead s := by
  grind [State.translateChecked, PartRes.Ahead, → State.locate_ahead]

theorem translateAll_ahead {t : State} {tr : State → StorePart → PartRes} (h : ∀ s p, (tr s p).Ahead s) {parts} :
    (translateAll tr t parts).1.ahead = t.ahead := by
  refine foldl_fst_ahead fun acc p => ?_
  split
  · rfl
  · have := h acc.1 p
    revert this
    cases tr acc.1 p with
    | ok q u | again u => exact id
    | miss => exact fun _ => rfl

theorem State.stepStore_ahead {s s0 t : State} (h : t.ahead = s.ahead) (h0 : s0.ahead = s.ahead) {c entry done races} :
    (State.stepStore t s0 c entry done races).Ahead s := by
  unfold State.stepStore
  extract_lets failed
  split
  · exact State.holdForService_ahead.trans h0
  · exact State.afterLanes_ahead.congr (State.enqueue_ahead.trans h)

theorem State.prefetch_ahead {s : State} {c ea} : (State.prefetch s c ea).ahead = s.ahead := by
  grind [State.prefetch, State.l2Keep_ahead, State.charge_ahead]

theorem State.checkElem_ahead {s : State} {id lane region q k write} : (State.checkElem s id lane region q k write).Ahead s := by
  grind [State.checkElem, Checked.Ahead, → State.detect_clear_ahead, → State.detect_withdrawn_ahead]

theorem State.popStepped_ahead {s : State} {c sh n q part} : (State.popStepped s c sh n q part).Ahead s := by
  unfold State.popStepped
  extract_lets again pops got asked elemOf check
  split
  · exact State.holdForService_ahead
  · have hk (t l) : (check t l).Ahead t := by
      simp only [check]
      split
      · split
        · exact rfl
        · exact State.checkElem_ahead
      · exact rfl
    have hc := checkLanes_ahead (s := s) (l := c.actLanes) (got := []) hk
    split
    · next t h =>
      rw [h] at hc
      exact hc
    · next s1 races h =>
      rw [h] at hc
      refine State.afterLanes_ahead.congr ((foldl_ahead fun t x => ?_).trans (State.updSheaf_ahead.trans
        (State.updSheaf_ahead.trans (State.advance_ahead.trans hc))))
      split
      · split
        · rfl
        · exact State.land_ahead
      · rfl

theorem State.translatePush_ahead {s : State} {id q k p checked} : (State.translatePush s id q k p checked).Ahead s := by
  grind [State.translatePush, PartRes.Ahead, → State.detect_clear_ahead, → State.detect_withdrawn_ahead]

theorem State.accWrite_ahead {s : State} {u core a bytes} : (State.accWrite s u core a bytes).ahead = s.ahead := by
  grind [State.accWrite, State.updUnit_ahead, State.dropLines_ahead, State.write_ahead]

theorem State.verifyLines_ahead {s : State} {l : List Nat} : (l.foldl State.verifyLine s).ahead = s.ahead :=
  foldl_ahead fun _ _ => State.verifyLine_ahead

theorem State.atomLane_ahead {s : State} {c space op wide ea l right new} :
    (State.atomLane s c space op wide ea l right new).1.ahead = s.ahead := by
  unfold State.atomLane
  extract_lets size
  split
  · rfl
  · split
    · rfl
    · split
      · rfl
      · rfl
      · next a s1 h =>
        have h1 := State.locate_ahead h
        extract_lets key va s2 old s3 peer s4
        have h2 : s2.ahead = s.ahead := by grind [State.verifyLines_ahead]
        have h4 : s4.ahead = s.ahead := by grind [State.accWrite_ahead, State.sendRequest_ahead]
        split
        · exact h1
        · split
          · exact h1
          · grind [State.laneAccess_ahead]

theorem State.atomLanes_ahead {s s0 : State} {c space op wide m a right new lanes} :
    (State.atomLanes s s0 c space op wide m a right new lanes).1.ahead = s.ahead := by
  refine foldl_fst_ahead fun acc l => ?_
  split
  · rfl
  · exact State.atomLane_ahead

theorem State.atomReturn_ahead {s : State} {c space wide returns m d a x} :
    (State.atomReturn s c space wide returns m d a x).ahead = s.ahead := by
  grind [State.atomReturn, State.updSheaf_ahead, State.ahead]

theorem State.atomEff_ahead {s : State} {c sh op wide m d a right returns new} :
    (State.atomEff s c sh op wide m d a right returns new).Ahead s := by
  unfold State.atomEff
  extract_lets space check
  split
  · next t h => exact State.askPages_ahead h
  · have hk (t l) : (check t l).Ahead t := by
      simp only [check]
      split
      · exact rfl
      · exact State.checkAccess_ahead
    have hc := checkLanes_ahead (s := s) (l := c.actLanes) (got := []) hk
    split
    · next t h =>
      rw [h] at hc
      exact hc
    · next s1 races h =>
      rw [h] at hc
      extract_lets clean
      have hs : ((s1.advance c sh).atomLanes s c space op wide m a right new clean).1.ahead = _ := State.atomLanes_ahead
      generalize (s1.advance c sh).atomLanes s c space op wide m a right new clean = r at hs
      dsimp only
      have h3 : (r.2.foldl (fun acc x => acc.atomReturn c space wide returns m d a x)
          (r.1.updSheaf c.id fun f => f.dropParts c.op races.failed.mask)).ahead = s.ahead :=
        (foldl_ahead fun _ _ => State.atomReturn_ahead).trans (State.updSheaf_ahead.trans (hs.trans (State.advance_ahead.trans hc)))
      generalize r.2.foldl _ _ = t3 at h3
      have h4 : (if c.flag != 15 && decide (6 ≤ scopeCode space c.x.scope.toNat) then t3.dropCache c.core else t3).ahead = s.ahead := by
        split
        · exact State.dropCache_ahead.trans h3
        · exact h3
      generalize (if c.flag != 15 && decide (6 ≤ scopeCode space c.x.scope.toNat) then t3.dropCache c.core else t3) = t4 at h4
      split
      · exact State.holdForService_ahead
      · split
        · exact rfl
        · split
          · split
            · exact State.afterLanes_ahead.congr h4
            · exact State.afterLanes_ahead.congr (State.report_ahead.trans h4)
          · exact State.afterLanes_ahead.congr h4

theorem State.setSlot_ahead {s : State} {u m v} : (State.setSlot s u m v).ahead = s.ahead := by
  grind [State.setSlot, State.setUnit_ahead, State.updCore_ahead]

theorem State.later_ahead {s : State} {c cycles d words} : (State.later s c cycles d words).ahead = s.ahead := by
  grind [State.later, State.updSheaf_ahead]

theorem State.undescribe_ahead {s : State} {u m} : (State.undescribe s u m).ahead = s.ahead := by
  grind [State.undescribe, State.setSlot_ahead]

theorem State.addEntry_ahead {s : State} {e} : (State.addEntry s e).ahead = s.ahead := by
  grind [State.addEntry, State.take_ahead, State.ahead]

theorem State.push_ahead {s : State} {c q w dst} : (State.push s c q w dst).ahead = s.ahead := by
  grind [State.push, State.addEntry_ahead]

theorem Ctx.serve_ahead {s t u : State} (h : t.ahead = s.ahead) (hu : u.ahead = s.ahead) {c p} : (Ctx.serve c u t p).Ahead s := by
  unfold Ctx.serve
  split
  · exact h
  · exact State.holdForService_ahead.trans hu

theorem Ctx.block_ahead {s t u : State} (h : t.ahead = s.ahead) (hu : u.ahead = s.ahead) {c x w align size e}
    (hb : Ctx.block c u t x w align size = some e) : e.Ahead s := by
  unfold Ctx.block at hb
  split at hb
  · cases hb
    exact h
  · split at hb
    · cases hb
      exact Ctx.serve_ahead h hu
    · cases hb

theorem State.amovEnd_ahead {s : State} {c bad} : (State.amovEnd s c bad).Ahead s := by
  unfold State.amovEnd
  exact State.afterLanes_ahead

theorem State.ownTile_ahead {s : State} {core tile u} : (State.ownTile s core tile u).ahead = s.ahead := by
  grind [State.ownTile, State.updCore_ahead]

theorem State.describeSlot_ahead {s : State} {u r h} {t} (h : State.describeSlot s u r h = some t) : t.ahead = s.ahead := by
  grind [State.describeSlot, State.setSlot_ahead]

theorem State.followOn_ahead {s : State} {c b} {t} (h : State.followOn s c b = some t) : t.ahead = s.ahead := by
  grind [State.followOn, State.take_ahead, State.updSheaf_ahead, State.addEntry_ahead]

theorem State.setHandle_ahead {s : State} {u h v} : (State.setHandle s u h v).ahead = s.ahead := by
  grind [State.setHandle, State.setUnit_ahead, State.updCore_ahead]

theorem State.updHandle_ahead {s : State} {u h g} : (State.updHandle s u h g).ahead = s.ahead := by
  grind [State.updHandle, State.setHandle_ahead]

theorem State.updEntry_ahead {s : State} {id g} : (State.updEntry s id g).ahead = s.ahead := rfl

theorem State.freeCycles_ahead {s : State} : (State.freeCycles s).2.ahead = s.ahead := rfl

theorem State.setLaunch_ahead {s : State} {l x} : (State.setLaunch s l x).ahead = s.ahead := rfl

theorem State.updLaunch_ahead {s : State} {l g} : (State.updLaunch s l g).ahead = s.ahead := by
  grind [State.updLaunch, State.setLaunch_ahead]

theorem State.settleJob_ahead {s : State} {j} : (State.settleJob s j).ahead = s.ahead := by
  grind [State.settleJob, State.updJob_ahead, State.ahead]

theorem State.flagDown_ahead {s : State} {o} : (State.flagDown s o).ahead = s.ahead := by
  grind [State.flagDown, State.updSheaf_ahead]

theorem State.endSweeps_ahead {s : State} : (State.endSweeps s).ahead = s.ahead := by
  grind [State.endSweeps, State.flagDown_ahead, foldl_ahead, State.ahead]

theorem State.list_ahead {s : State} {e} : (State.list s e).ahead = s.ahead := rfl

theorem State.listUnit_ahead {s : State} {u} : (State.listUnit s u).ahead = s.ahead := by
  grind [State.listUnit, State.setUnit_ahead, State.list_ahead]

theorem State.releaseSuccs_ahead {s : State} {succs} : (State.releaseSuccs s succs).ahead = s.ahead := by
  grind [State.releaseSuccs, State.setUnit_ahead, State.listUnit_ahead, foldl_ahead]

theorem State.finishUnit_ahead {s : State} {u how} : (State.finishUnit s u how).ahead = s.ahead := by
  grind [State.finishUnit, State.setUnit_ahead, State.progress_ahead, State.settleJob_ahead, State.endSweeps_ahead,
    State.releaseSuccs_ahead, State.ahead]

theorem State.updNode_ahead {s : State} {n g} : (State.updNode s n g).ahead = s.ahead := by
  grind [State.updNode, State.ahead]

theorem State.refuseLaunch_ahead {s : State} {ctx job launch} : (State.refuseLaunch s ctx job launch).ahead = s.ahead := by
  grind [State.refuseLaunch, State.settleJob_ahead, State.endJob_ahead, State.report_ahead]

theorem State.listLaunch_ahead {s : State} {l} : (State.listLaunch s l).ahead = s.ahead := by
  grind [State.listLaunch, State.list_ahead, foldl_ahead]

theorem State.launchNode_ahead {s : State} {n x ctx job} : (State.launchNode s n x ctx job).ahead = s.ahead := by
  grind [State.launchNode, State.take_ahead, State.updJob_ahead, State.refuseLaunch_ahead, State.setLaunch_ahead,
    State.listLaunch_ahead, State.updNode_ahead]

theorem State.startNode_ahead {s : State} {n} : (State.startNode s n).ahead = s.ahead := by
  unfold State.startNode
  split
  · rfl
  · split
    · rfl
    · split
      · rfl
      · split
        · exact State.launchNode_ahead
        · dsimp only
          split
          · exact State.updNode_ahead.trans State.report_ahead
          · split
            · rfl
            · exact State.updNode_ahead.trans State.addEntry_ahead

theorem State.releaseNodes_ahead {s : State} {phase succs} : (State.releaseNodes s phase succs).ahead = s.ahead := by
  grind [State.releaseNodes, State.updNode_ahead, State.startNode_ahead, foldl_ahead]

theorem State.cancelSweep_ahead {s : State} {units launches nodes} :
    (State.cancelSweep s units launches nodes).ahead = s.ahead := by
  grind [State.cancelSweep, State.updLaunch_ahead, State.setUnit_ahead, State.finishUnit_ahead, State.updNode_ahead,
    State.releaseNodes_ahead, foldl_ahead, State.ahead]

theorem State.cancelInstance_ahead {s : State} {me x level} : (State.cancelInstance s me x level).1.ahead = s.ahead := by
  grind [State.cancelInstance, State.cancelSweep_ahead]

theorem State.boot_ahead {s : State} {i} : (State.boot s i).ahead = s.ahead := rfl

theorem State.releaseLanes_ahead {s : State} {id m newRegion} : (State.releaseLanes s id m newRegion).ahead = s.ahead := by
  grind [State.releaseLanes, State.take_ahead, State.updSheaf_ahead]

theorem State.pollHwaits_ahead {s : State} {id} : (State.pollHwaits s id).ahead = s.ahead := by
  unfold State.pollHwaits
  split
  · rfl
  · refine foldl_ahead fun t w => ?_
    grind [State.releaseLanes_ahead, State.raiseTrap_ahead]

theorem State.pollAll_ahead {s : State} : (State.pollAll s).ahead = s.ahead := by
  grind [State.pollAll, State.pollHwaits_ahead, foldl_ahead]

theorem State.stepMills_ahead {s : State} : (State.stepMills s).ahead = s.ahead := by
  grind [State.stepMills, State.updCore_ahead, foldl_ahead]

theorem State.tick_ahead {s : State} : (State.tick s).ahead = s.ahead := by
  grind [State.tick, State.stepMills_ahead, foldl_ahead, State.ahead]

theorem State.cullRequests_ahead {s : State} {id m} : (State.cullRequests s id m).ahead = s.ahead := rfl

theorem State.acquireAt_ahead {s : State} {id} : (State.acquireAt s id).ahead = s.ahead := by
  grind [State.acquireAt, State.dropCache_ahead]

theorem State.finishQWord_ahead {s : State} {id push o} : (State.finishQWord s id push o).ahead = s.ahead := by
  grind [State.finishQWord, State.progress_ahead, State.releaseLanes_ahead, State.flagDown_ahead, State.acquireAt_ahead]

theorem State.endQWord_ahead {s : State} {w} : (State.endQWord s w).ahead = s.ahead := by
  grind [State.endQWord, State.finishQWord_ahead, State.ahead]

theorem State.cullQWords_ahead {s : State} {id m} : (State.cullQWords s id m).ahead = s.ahead := by
  grind [State.cullQWords, State.endQWord_ahead, State.finishQWord_ahead, foldl_ahead, State.ahead]

theorem State.dropEntry_ahead {s : State} {id} : (State.dropEntry s id).ahead = s.ahead := rfl

theorem State.invalidate_ahead {s : State} {core keys} : (State.invalidate s core keys).ahead = s.ahead := by
  cases core with
  | none => rfl
  | some n => exact State.dropLines_ahead

theorem State.sideWrite_ahead {s : State} {d cells} : (State.sideWrite s d cells).ahead = s.ahead := by
  grind [State.sideWrite, State.invalidate_ahead, State.write_ahead, State.updUnit_ahead, State.setSlot_ahead]

theorem State.sideSpoil_ahead {s : State} {d addrs} : (State.sideSpoil s d addrs).ahead = s.ahead := by
  grind [State.sideSpoil, State.invalidate_ahead, State.setPoison_ahead, State.updUnit_ahead, State.setSlot_ahead, foldl_ahead]

theorem State.putOutput_ahead {s : State} {d o} : (State.putOutput s d o).ahead = s.ahead := by
  grind [State.putOutput, State.sideWrite_ahead, State.sideSpoil_ahead]

theorem State.chargeKey_ahead {s : State} {ctx key sent n} : (State.chargeKey s ctx key sent n).ahead = s.ahead := by
  grind [State.chargeKey, State.charge_ahead]

theorem State.chargeBytes_ahead {s : State} {d sent n} : (State.chargeBytes s d sent n).ahead = s.ahead := by
  grind [State.chargeBytes, State.chargeKey_ahead]

theorem State.chargeMove_ahead {s : State} {src dst read written} :
    (State.chargeMove s src dst read written).ahead = s.ahead := by
  grind [State.chargeMove, State.freeCycles_ahead, State.charge_ahead, State.chargeBytes_ahead]

theorem State.partMove_ahead {s : State} {src dst read o} : (State.partMove s src dst read o).ahead = s.ahead := by
  grind [State.partMove, State.putOutput_ahead, State.chargeMove_ahead, State.ahead]

theorem State.partCopy_ahead {s : State} {e c} : (State.partCopy s e c).ahead = s.ahead := by
  grind [State.partCopy, State.partMove_ahead, State.ahead]

theorem State.partGather_ahead {s : State} {e g} : (State.partGather s e g).ahead = s.ahead := by
  grind [State.partGather, State.partMove_ahead]

theorem State.partChunk_ahead {s : State} {e r c} : (State.partChunk s e r c).ahead = s.ahead := by
  grind [State.partChunk, State.partMove_ahead]

theorem State.lowerOpen_ahead {s : State} {ctx mrec parity} {t} (h : State.lowerOpen s ctx mrec parity = some t) :
    t.ahead = s.ahead := by
  grind [State.lowerOpen, → State.writeVa_ahead]

theorem State.closeProduct_ahead {s : State} {ctx mrec parity} : (State.closeProduct s ctx mrec parity).ahead = s.ahead := by
  grind [State.closeProduct, → State.lowerOpen_ahead, State.ahead]

theorem State.orphanEntry_ahead {s : State} {e} : (State.orphanEntry s e).ahead = s.ahead := by
  grind [State.orphanEntry, State.dropEntry_ahead, State.updHandle_ahead, State.partCopy_ahead, State.partGather_ahead,
    State.partChunk_ahead, State.closeProduct_ahead, State.updUnit_ahead, State.setHandle_ahead, State.updEntry_ahead,
    foldl_ahead]

theorem State.cullOwners_ahead {s : State} {id m} : (State.cullOwners s id m).ahead = s.ahead := by
  grind [State.cullOwners, State.updEntry_ahead, State.orphanEntry_ahead, foldl_ahead]

theorem State.forgetLanes_ahead {s : State} {id m} : (State.forgetLanes s id m).ahead = s.ahead := by
  grind [State.forgetLanes, State.dropRecords_ahead]

theorem State.cullLanes_ahead {s : State} {id m} : (State.cullLanes s id m).ahead = s.ahead := by
  grind [State.cullLanes, State.cullRequests_ahead, State.cullQWords_ahead, State.cullOwners_ahead, State.updSheaf_ahead,
    State.forgetLanes_ahead]

theorem State.cullSheaf_ahead {s : State} {id} : (State.cullSheaf s id).ahead = s.ahead := by
  grind [State.cullSheaf, State.cullLanes_ahead]

theorem State.deliver_ahead {s : State} {o words} : (State.deliver s o words).ahead = s.ahead := by
  grind [State.deliver, State.updSheaf_ahead]

theorem State.fireTimers_ahead {s : State} {id} : (State.fireTimers s id).ahead = s.ahead := by
  grind [State.fireTimers, State.setSheaf_ahead, State.deliver_ahead, foldl_ahead]

theorem State.serveRegions_ahead {s : State} {id} : (State.serveRegions s id).ahead = s.ahead := by
  unfold State.serveRegions
  split
  · rfl
  · split
    · rfl
    · refine foldl_ahead fun t m => ?_
      extract_lets l0
      split
      · rfl
      · extract_lets e1 e2
        split
        · split
          · exact State.beginService_ahead
          · rfl
        · rfl

theorem State.askFetch_ahead {s : State} {id} : (State.askFetch s id).ahead = s.ahead := by
  grind [State.askFetch, State.updSheaf_ahead, State.addMiss_ahead, foldl_ahead]

theorem State.releaseTraps_ahead {s : State} {id} : (State.releaseTraps s id).ahead = s.ahead := by
  grind [State.releaseTraps, State.raiseTrap_ahead, State.setSheaf_ahead]

theorem State.releaseLwait_ahead {s : State} {id} : (State.releaseLwait s id).ahead = s.ahead := by
  grind [State.releaseLwait, State.releaseLanes_ahead]

theorem State.endLate_ahead {s : State} {id f lanes} : (State.endLate s id f lanes).ahead = s.ahead := by
  grind [State.endLate, State.beginService_ahead, State.take_ahead, State.commit_ahead, State.updSheaf_ahead]

theorem State.remoteProgress_ahead {s : State} {f remote} : (State.remoteProgress s f remote).ahead = s.ahead := by
  grind [State.remoteProgress, State.progress_ahead]

theorem State.landPop_ahead {s : State} {id f o n k} : (State.landPop s id f o n k).ahead = s.ahead := by
  unfold State.landPop
  extract_lets q
  split
  · exact State.land_ahead
  · split
    · exact State.land_ahead
    · extract_lets words
      split
      · exact State.land_ahead
      · grind [State.land_ahead, State.dropLines_ahead, → State.detect_clear_ahead, → State.detect_withdrawn_ahead]

theorem State.acknowledge_ahead {s : State} {o} : (State.acknowledge s o).ahead = s.ahead := by
  grind [State.acknowledge, State.ahead]

theorem State.translatePart_ahead {s : State} {id space p} : (State.translatePart s id space p).Ahead s := by
  grind [State.translatePart, PartRes.Ahead, → State.locate_ahead, → State.detect_clear_ahead, → State.detect_withdrawn_ahead]

theorem State.translateEntry_ahead {s : State} {sheaf id lane} : (State.translateEntry s sheaf id lane).ahead = s.ahead := by
  unfold State.translateEntry
  split
  · rfl
  · split
    · rfl
    · split
      · rfl
      · next p _ =>
        extract_lets i res
        have h : res.Ahead s := by
          simp only [res]
          split
          · exact State.translatePart_ahead
          · exact State.translatePush_ahead
        revert h
        cases res with
        | ok q t => exact fun h => State.updSheaf_ahead.trans h
        | miss page => exact fun _ => State.addMiss_ahead
        | again t => exact fun h => h

theorem State.failMisses_ahead {s : State} {die ctx page kind} : (State.failMisses s die ctx page kind).ahead = s.ahead := by
  grind [State.failMisses, State.land_ahead, State.updSheaf_ahead, foldl_ahead]

theorem State.malformed_ahead {s : State} {ctx va e} : (State.malformed s ctx va e).ahead = s.ahead := by
  grind [State.malformed, State.report_ahead]

theorem State.replay_ahead {s : State} {id m stepped} : (State.replay s id m stepped).ahead = s.ahead := by
  grind [State.replay, State.updSheaf_ahead, State.rollback_ahead]

theorem State.serviced_ahead {s : State} {id f a stepped} : (State.serviced s id f a stepped).ahead = s.ahead := by
  grind [State.serviced, State.setSheaf_ahead, State.updSheaf_ahead, State.replay_ahead, foldl_ahead]

theorem State.healWords_ahead {s : State} {u p} : (State.healWords s u p).ahead = s.ahead := by
  grind [State.healWords, State.updUnit_ahead, State.setPoison_ahead, foldl_ahead, State.ahead]

theorem State.healRead_ahead {s : State} {f p} : (State.healRead s f p).ahead = s.ahead := by
  grind [State.healRead, State.healWords_ahead]

theorem State.writeTables_ahead {s : State} {l} : (State.writeTables s l).ahead = s.ahead := by
  grind [State.writeTables, State.store_ahead, foldl_ahead]

theorem State.metMalformed_ahead {s : State} {ctx p} : (State.metMalformed s ctx p).ahead = s.ahead := by
  grind [State.metMalformed, State.malformed_ahead]

theorem State.reportEntry_ahead {s : State} {o h cause addr} : (State.reportEntry s o h cause addr).ahead = s.ahead := by
  grind [State.reportEntry, State.malformed_ahead, State.report_ahead]

theorem State.performed_ahead {s : State} {e} : (State.performed s e).ahead = s.ahead := by
  grind [State.performed, State.progress_ahead, State.dropEntry_ahead, State.flagDown_ahead]

theorem State.endCopy_ahead {s : State} {e c m} : (State.endCopy s e c m).ahead = s.ahead := by
  grind [State.endCopy, State.report_ahead, State.reportEntry_ahead, State.progress_ahead, State.updHandle_ahead,
    State.performed_ahead]

theorem State.move_ahead {s : State} {src dst limit rm els last} :
    (State.move s src dst limit rm els last).s.ahead = s.ahead := by
  grind [State.move, State.putOutput_ahead]

theorem State.runCopy_ahead {s : State} {e c last} : (State.runCopy s e c last).ahead = s.ahead := by
  grind [State.runCopy, State.endCopy_ahead, State.updEntry_ahead, State.move_ahead, State.chargeMove_ahead]

theorem State.beginCopy_ahead {s : State} {e c} : (State.beginCopy s e c).ahead = s.ahead := by
  grind [State.beginCopy, State.runCopy_ahead, State.updEntry_ahead]

theorem State.start_ahead {s : State} {e w due} : (State.start s e w due).ahead = s.ahead := by
  grind [State.start, State.progress_ahead, State.updEntry_ahead]

theorem State.leaveRing_ahead {s : State} {e} : (State.leaveRing s e).ahead = s.ahead := rfl

theorem State.parkRing_ahead {s : State} {id} : (State.parkRing s id).ahead = s.ahead := by
  grind [State.parkRing, State.leaveRing_ahead]

theorem State.runGather_ahead {s : State} {e g last} : (State.runGather s e g last).ahead = s.ahead := by
  grind [State.runGather, State.move_ahead, State.updEntry_ahead, State.chargeBytes_ahead, State.chargeMove_ahead,
    State.reportEntry_ahead, State.performed_ahead, State.updHandle_ahead]

theorem State.runChunk_ahead {s : State} {e r c last} : (State.runChunk s e r c last).ahead = s.ahead := by
  grind [State.runChunk, State.putOutput_ahead, State.move_ahead, State.updEntry_ahead, State.chargeMove_ahead,
    State.reportEntry_ahead, State.updHandle_ahead, State.progress_ahead, State.performed_ahead, State.parkRing_ahead]

theorem State.settleVals_ahead {s : State} {ctx mrec vals} : (State.settleVals s ctx mrec vals).1.ahead = s.ahead := by
  grind [State.settleVals, State.ahead]

theorem State.endRow_ahead {s : State} {e b m gen rows i err} : (State.endRow s e b m gen rows i err).ahead = s.ahead := by
  unfold State.endRow
  grind [State.reportEntry_ahead, State.performed_ahead, State.updHandle_ahead, State.updEntry_ahead, State.progress_ahead]

theorem State.quernRow_ahead {s : State} {e b m gen rows i err last} :
    (State.quernRow s e b m gen rows i err last).ahead = s.ahead := by
  grind [State.quernRow, State.settleVals_ahead, State.charge_ahead, State.updUnit_ahead, State.endRow_ahead]

theorem State.giveUpRows_ahead {s : State} {id} {l : List Nat} : (State.giveUpRows s id l).ahead = s.ahead := by
  induction l generalizing s with
  | nil => rfl
  | cons i rest ih =>
    unfold State.giveUpRows
    refine ih.trans ?_
    grind [State.quernRow_ahead]

theorem State.failProduct_ahead {s : State} {e h cause addr} : (State.failProduct s e h cause addr).ahead = s.ahead := by
  grind [State.failProduct, State.performed_ahead, State.reportEntry_ahead, State.updHandle_ahead]

theorem State.updCensus_ahead {s : State} {key ctx g} : (State.updCensus s key ctx g).ahead = s.ahead := by
  grind [State.updCensus, State.ahead]

theorem State.setOpn_ahead {s : State} {u b v} : (State.setOpn s u b v).ahead = s.ahead := by
  grind [State.setOpn, State.updUnit_ahead]

theorem State.openProduct_ahead {s t : State} {e b m} (h : State.openProduct s e b m = .ok t) : t.ahead = s.ahead := by
  obtain ⟨marks, -, h⟩ := Except.exists_of_bind_eq_ok h
  obtain ⟨n, -, h⟩ := Except.exists_of_bind_eq_ok h
  obtain ⟨s1, e1, h⟩ := Except.exists_of_bind_eq_ok h
  have h1 := State.writeVa_ahead e1
  dsimp only at h
  split at h <;> cases h <;>
    simp only [State.performed_ahead, State.updHandle_ahead, State.start_ahead, State.deliver_ahead, State.dropCache_ahead,
      State.setOpn_ahead, State.updUnit_ahead, State.updCensus_ahead, h1]

theorem State.tryQmv_ahead {s : State} {e b last} : (State.tryQmv s e b last).ahead = s.ahead := by
  grind [State.tryQmv, State.failProduct_ahead, → State.openProduct_ahead]

theorem State.joinRow_ahead {s : State} {e b m g i} : (State.joinRow s e b m g i).1.ahead = s.ahead := by
  grind [State.joinRow, State.settleVals_ahead, State.updUnit_ahead]

theorem State.beginJoin_ahead {s : State} {e b m} : (State.beginJoin s e b m).ahead = s.ahead := by
  unfold State.beginJoin
  refine State.start_ahead.trans ((foldl_fst_ahead fun acc i => ?_).trans State.setOpn_ahead)
  exact State.joinRow_ahead

theorem State.tryRjoin_ahead {s : State} {e b last} : (State.tryRjoin s e b last).ahead = s.ahead := by
  grind [State.tryRjoin, State.failProduct_ahead, State.setOpn_ahead, State.updEntry_ahead, State.closeProduct_ahead,
    State.performed_ahead, State.beginJoin_ahead, State.ahead]

theorem State.freeSlot_ahead {s : State} {u m} : (State.freeSlot s u m).ahead = s.ahead := by
  grind [State.freeSlot, State.updHandle_ahead, State.setSlot_ahead]

theorem State.acvt_ahead {s : State} {u core m} : (State.acvt s u core m).ahead = s.ahead := by
  grind [State.acvt, State.updUnit_ahead, foldl_ahead]

theorem State.millEffect_ahead {s : State} {u core m} : (State.millEffect s u core m).ahead = s.ahead := by
  grind [State.millEffect, State.ownTile_ahead, State.updCore_ahead, State.acvt_ahead, foldl_ahead]

theorem State.putCensus_ahead {s : State} {key g} : (State.putCensus s key g).ahead = s.ahead := rfl

theorem State.censusAtomic_ahead {s : State} {rec ctx census r new} :
    (State.censusAtomic s rec ctx census r new).ahead = s.ahead := by
  grind [State.censusAtomic, State.putCensus_ahead, State.store_ahead, State.charge_ahead]

theorem State.countProduct_ahead {s : State} {ctx b m} : (State.countProduct s ctx b m).ahead = s.ahead := by
  grind [State.countProduct, → State.writeVa_ahead, State.updCensus_ahead]

theorem State.joinStep_ahead {s : State} {e b m counts ok} : (State.joinStep s e b m counts ok).ahead = s.ahead := by
  grind [State.joinStep, State.censusAtomic_ahead, State.progress_ahead, State.updEntry_ahead, State.countProduct_ahead,
    State.performed_ahead, State.updHandle_ahead, State.closeProduct_ahead, State.ahead]

theorem State.notify_ahead {s : State} {key} : (State.notify s key).ahead = s.ahead := by
  grind [State.notify, State.putCensus_ahead]

theorem State.setRec_ahead {s : State} {key off n v} : (State.setRec s key off n v).ahead = s.ahead := by
  grind [State.setRec, State.store_ahead]

theorem State.stage_ahead {s : State} {key ctx smap mlist map rows} {t} (h : State.stage s key ctx smap mlist map rows = some t) :
    t.ahead = s.ahead := by
  grind [State.stage, → State.writeVa_ahead, State.setRec_ahead, State.ahead]

theorem State.setMcause_ahead {s : State} {key cause} : (State.setMcause s key cause).ahead = s.ahead := by
  grind [State.setMcause, State.setRec_ahead]

theorem State.setMstate_ahead {s : State} {key state} : (State.setMstate s key state).ahead = s.ahead := by
  grind [State.setMstate, State.setRec_ahead]

/-- What a step of a migration leaves, where it answers a state. -/
def MigrationStep.Ahead (s : State) : MigrationStep → Prop
  | .went t => t.ahead = s.ahead
  | .cause _ | .fault _ => True

theorem State.copyEntry_ahead {s : State} {key c m} : (State.copyEntry s key c m).Ahead s := by
  unfold State.copyEntry
  extract_lets pmap r earlier used
  split
  · trivial
  · split
    · trivial
    · split
      · trivial
      · split
        · trivial
        · next t h => exact State.putCensus_ahead.trans (State.charge_ahead.trans (State.writeVa_ahead h))

theorem State.copyListed_ahead {s : State} {key c m i} : (State.copyListed s key c m i).Ahead s := by
  unfold State.copyListed
  extract_lets n
  split
  · trivial
  · split
    · trivial
    · split
      · trivial
      · split
        · trivial
        · extract_lets q
          split
          · trivial
          · split
            · trivial
            · next t h => exact State.charge_ahead.trans (State.setRec_ahead.trans (State.writeVa_ahead h))

theorem State.migrateStep_ahead {s : State} {key c m} : (State.migrateStep s key c m).Ahead s := by
  unfold State.migrateStep
  split
  · exact State.copyEntry_ahead
  · split
    · exact State.copyListed_ahead
    · exact State.setMstate_ahead

theorem State.leaveMigration_ahead {s : State} {key} : (State.leaveMigration s key).ahead = s.ahead := by
  grind [State.leaveMigration, State.putCensus_ahead]

theorem State.failMigration_ahead {s : State} {key cause} : (State.failMigration s key cause).ahead = s.ahead := by
  grind [State.failMigration, State.notify_ahead, State.leaveMigration_ahead, State.setMstate_ahead, State.setMcause_ahead]

theorem State.updChannel_ahead {s : State} {d g} : (State.updChannel s d g).ahead = s.ahead := rfl

theorem State.sendOn_ahead {s : State} {d m} : (State.sendOn s d m).ahead = s.ahead := by
  grind [State.sendOn, State.updChannel_ahead]

theorem State.ackOn_ahead {s t : State} {d m} (h : State.ackOn s d m = some t) : t.ahead = s.ahead := by
  grind [State.ackOn, State.updChannel_ahead]

theorem State.ackOn_getD_ahead {s : State} {d m} : ((s.ackOn d m).getD s).ahead = s.ahead := by
  cases h : s.ackOn d m with
  | none => rfl
  | some t => exact State.ackOn_ahead h

theorem State.updMember_ahead {s : State} {l p g} : (State.updMember s l p g).ahead = s.ahead := by
  grind [State.updMember, State.updLaunch_ahead]

theorem State.carrySent_ahead {s : State} {e l p} : (State.carrySent s e l p).ahead = s.ahead := by
  grind [State.carrySent, State.performed_ahead, State.updMember_ahead]

theorem State.placeCarry_ahead {s : State} {l q c} {t} (h : State.placeCarry s l q c = some t) : t.ahead = s.ahead := by
  grind [State.placeCarry, State.updMember_ahead]

theorem State.placeOwn_ahead {s : State} {id} : (State.placeOwn s id).ahead = s.ahead := by
  unfold State.placeOwn
  split
  · split
    · exact State.ackOn_getD_ahead
    · rfl
  · split
    · split
      · rfl
      · split
        · split
          · next h => exact State.carrySent_ahead.trans (State.ackOn_ahead h)
          · split
            · exact State.carrySent_ahead
            · rfl
        · split
          · exact State.carrySent_ahead
          · split
            · next h => exact State.carrySent_ahead.trans (State.placeCarry_ahead h)
            · rfl
    · rfl

theorem State.takenFrom_ahead {s : State} {src seq} {t} (h : State.takenFrom s src seq = some t) : t.ahead = s.ahead := by
  grind [State.takenFrom, State.updChannel_ahead]

theorem State.placeRemote_ahead {s : State} {l src seq c} : (State.placeRemote s l src seq c).ahead = s.ahead := by
  grind [State.placeRemote, → State.takenFrom_ahead, → State.placeCarry_ahead, State.progress_ahead]

theorem State.giveNotice_ahead {s : State} {l} : (State.giveNotice s l).ahead = s.ahead := by
  grind [State.giveNotice, State.updLaunch_ahead, State.sendOn_ahead]

theorem State.noticeTold_ahead {s : State} {l} : (State.noticeTold s l).ahead = s.ahead := by
  have ho {d m} : ((s.ackOn d m).getD s).ahead = s.ahead := State.ackOn_getD_ahead
  unfold State.noticeTold
  grind

theorem State.acquireUnit_ahead {s : State} {u} : (State.acquireUnit s u).ahead = s.ahead := by
  grind [State.acquireUnit, State.dropCache_ahead]

theorem State.deliverAll_ahead {s : State} {o ws} : (State.deliverAll s o ws).ahead = s.ahead := by
  grind [State.deliverAll, State.deliver_ahead]

theorem State.dropOne_ahead {s : State} {j} : (State.dropOne s j).ahead = s.ahead := by
  grind [State.dropOne, State.updJob_ahead]

theorem State.dropSpawn_ahead {s : State} {r} : (State.dropSpawn s r).ahead = s.ahead := by
  grind [State.dropSpawn, State.deliverAll_ahead, State.dropOne_ahead, State.ahead]

theorem State.growLaunch_ahead {s : State} {o launch n} : (State.growLaunch s o launch n).ahead = s.ahead := by
  grind [State.growLaunch, State.deliverAll_ahead, State.updLaunch_ahead, State.listLaunch_ahead]

theorem State.enterChild_ahead {s : State} {job ctx launch parent krec args ranges stamp} :
    (State.enterChild s job ctx launch parent krec args ranges stamp).ahead = s.ahead := by
  grind [State.enterChild, State.take_ahead, State.setUnit_ahead, State.updUnit_ahead, State.updJob_ahead, State.report_ahead,
    State.listUnit_ahead, foldl_ahead]

theorem State.placeSheaves_ahead {s : State} {u core x} : (State.placeSheaves s u core x).ahead = s.ahead := by
  grind [State.placeSheaves, State.take_ahead, State.setSheaf_ahead, State.updCore_ahead, foldl_ahead]

theorem State.letIn_ahead {s : State} {core u off x} : (State.letIn s core u off x).ahead = s.ahead := by
  grind [State.letIn, State.dropCache_ahead, State.updCore_ahead, State.setUnit_ahead, State.progress_ahead,
    State.placeSheaves_ahead]

theorem State.admitListed_ahead {s : State} {core off e} : (State.admitListed s core off e).ahead = s.ahead := by
  grind [State.admitListed, State.letIn_ahead, State.take_ahead, State.updLaunch_ahead, State.ahead]

theorem State.feedGraph_ahead {s : State} : (State.feedGraph s).ahead = s.ahead := by
  grind [State.feedGraph, State.startNode_ahead, foldl_ahead]

theorem State.completeNode_ahead {s : State} {n} : (State.completeNode s n).ahead = s.ahead := by
  grind [State.completeNode, State.releaseNodes_ahead, State.updNode_ahead]

theorem State.cancelJob_ahead {s : State} {j} : (State.cancelJob s j).ahead = s.ahead := by
  grind [State.cancelJob, State.cancelInstance_ahead]

theorem State.putQWord_ahead {s : State} {w} : (State.putQWord s w).ahead = s.ahead := by
  grind [State.putQWord, State.endQWord_ahead, State.ahead]

theorem State.giveItem_ahead {s : State} {w lane item sheaf counts} :
    (State.giveItem s w lane item sheaf counts).ahead = s.ahead := by
  grind [State.giveItem, State.take_ahead, State.ahead]

theorem State.qWrite_ahead {s : State} {k ctx a b} {t} (h : State.qWrite s k ctx a b = some t) : t.ahead = s.ahead := by
  grind [State.qWrite, State.updUnit_ahead, State.write_ahead]

theorem State.placeItem_ahead {s t : State} {w item} (h : State.placeItem s w item = some t) : t.ahead = s.ahead := by
  obtain ⟨q, -, h⟩ := Option.bind_eq_some_iff.1 h
  obtain ⟨s1, h1, h⟩ := Option.bind_eq_some_iff.1 h
  obtain ⟨s2, h2, h⟩ := Option.bind_eq_some_iff.1 h
  cases h
  exact (State.qWrite_ahead h2).trans (State.qWrite_ahead h1)

theorem State.pushOne_ahead {s t : State} {w item} (h : State.pushOne s w item = some t) : t.ahead = s.ahead := by
  unfold State.pushOne at h
  split at h
  · split at h
    · cases h
      exact State.putQWord_ahead.trans State.giveItem_ahead
    · cases h
  · split at h
    · split at h
      · exact State.placeItem_ahead h
      · cases h
    · cases h

theorem State.refill_ahead {s : State} {k} : (State.refill s k).ahead = s.ahead := by
  grind [State.refill, → State.placeItem_ahead, State.putQWord_ahead]

theorem State.popOne_ahead {s t : State} {w lane} (h : State.popOne s w lane = some t) : t.ahead = s.ahead := by
  obtain ⟨q, -, h⟩ := Option.bind_eq_some_iff.1 h
  dsimp only at h
  split at h
  · cases h
  obtain ⟨x, -, h⟩ := Option.bind_eq_some_iff.1 h
  obtain ⟨s1, h1, h⟩ := Option.bind_eq_some_iff.1 h
  cases h
  exact State.refill_ahead.trans (State.giveItem_ahead.trans (show s1.ahead = s.ahead from State.qWrite_ahead h1))

theorem State.serve_ahead {s : State} {w : QWord} {l : List (Nat × List Byte)} : (State.serve s w l).ahead = s.ahead := by
  induction l generalizing s with
  | nil => exact State.endQWord_ahead
  | cons x rest ih =>
    unfold State.serve
    split
    · next t ht =>
      refine ih.trans ?_
      grind [→ State.pushOne_ahead, → State.popOne_ahead]
    · extract_lets left
      split
      · exact State.endQWord_ahead
      · rfl

theorem State.lagReplicas_ahead {s : State} {j n} : (State.lagReplicas s j n).ahead = s.ahead := rfl

theorem State.offer_ahead {s : State} {j n value payload} : (State.offer s j n value payload).ahead = s.ahead := by
  grind [State.offer, State.updJob_ahead, State.lagReplicas_ahead]

theorem State.commitOffer_ahead {s : State} {j n value payload} : (State.commitOffer s j n value payload).ahead = s.ahead := by
  grind [State.commitOffer, State.offer_ahead, State.sendOn_ahead, foldl_ahead]

theorem State.applyOffers_ahead {s : State} {m} {l : List (Nat × Word × Word)} : (State.applyOffers s m l).1.ahead = s.ahead := by
  induction l generalizing s with
  | nil => rfl
  | cons x rest ih => exact ih.trans State.commitOffer_ahead

theorem State.updIncMsg_ahead {s : State} {id g} : (State.updIncMsg s id g).ahead = s.ahead := rfl

theorem State.dropIncMsg_ahead {s : State} {id} : (State.dropIncMsg s id).ahead = s.ahead := rfl

theorem State.forwarded_ahead {s : State} {job reg d} : (State.forwarded s job reg d).ahead = s.ahead := by
  have ho {d m} : ((s.ackOn d m).getD s).ahead = s.ahead := State.ackOn_getD_ahead
  unfold State.forwarded
  grind

theorem State.stampSweep_ahead {s : State} {j die} : (State.stampSweep s j die).ahead = s.ahead := by
  grind [State.stampSweep, State.dropOne_ahead, State.finishUnit_ahead, State.dropSpawn_ahead, foldl_ahead]

theorem State.holdRequest_ahead {s : State} {core ctx isRestore unit} :
    (State.holdRequest s core ctx isRestore unit).ahead = s.ahead := by
  grind [State.holdRequest, State.updCore_ahead]

theorem State.beginSave_ahead {s : State} {core ctx} : (State.beginSave s core ctx).ahead = s.ahead := by
  grind [State.beginSave, State.updSheaf_ahead, State.updCore_ahead, foldl_ahead]

theorem State.endDrain_ahead {s : State} {id} : (State.endDrain s id).ahead = s.ahead := by
  grind [State.endDrain, State.updSheaf_ahead, State.rollback_ahead]

theorem State.refund_ahead {s : State} {ctx b n} : (State.refund s ctx b n).ahead = s.ahead := by
  grind [State.refund, State.updContext_ahead]

theorem State.cutMill_ahead {s : State} {e m} : (State.cutMill s e m).ahead = s.ahead := by
  grind [State.cutMill, State.performed_ahead, State.updCore_ahead, State.millEffect_ahead, State.ownTile_ahead,
    State.updEntry_ahead, State.refund_ahead, foldl_ahead]

theorem State.cutScan_ahead {s : State} {e w} : (State.cutScan s e w).ahead = s.ahead := by
  grind [State.cutScan, State.performed_ahead, State.setUnit_ahead, State.updEntry_ahead]

theorem State.unsend_ahead {s : State} {d m} {t} (h : State.unsend s d m = some t) : t.ahead = s.ahead := by
  grind [State.unsend, State.updChannel_ahead]

theorem State.cutCsend_ahead {s : State} {e a scc} : (State.cutCsend s e a scc).ahead = s.ahead := by
  grind [State.cutCsend, State.updEntry_ahead, → State.unsend_ahead, State.placeOwn_ahead]

theorem State.saveEntry_ahead {s : State} {e} : (State.saveEntry s e).ahead = s.ahead := by
  grind [State.saveEntry, State.updEntry_ahead, State.cutMill_ahead, State.cutScan_ahead, State.cutCsend_ahead,
    State.leaveRing_ahead]

theorem State.settleSheaf_ahead {s : State} {id} : (State.settleSheaf s id).ahead = s.ahead := by
  grind [State.settleSheaf, State.deliver_ahead, State.setSheaf_ahead, foldl_ahead]

theorem State.saveUnit_ahead {s : State} {core u} : (State.saveUnit s core u).ahead = s.ahead := by
  grind [State.saveUnit, State.saveEntry_ahead, State.updCore_ahead, State.setUnit_ahead, State.updSheaf_ahead,
    State.settleSheaf_ahead, foldl_ahead]

theorem State.restoreUnit_ahead {s : State} {u core} : (State.restoreUnit s u core).ahead = s.ahead := by
  grind [State.restoreUnit, State.dropCache_ahead, State.updCore_ahead, State.setUnit_ahead, State.updSheaf_ahead,
    State.cullSheaf_ahead, foldl_ahead, State.ahead]

theorem State.tryRestore_ahead {s : State} {u core} : (State.tryRestore s u core).ahead = s.ahead := by
  grind [State.tryRestore, State.restoreUnit_ahead, State.updCore_ahead]

theorem State.loadHeld_ahead {s : State} {core} : (State.loadHeld s core).ahead = s.ahead := by
  grind [State.loadHeld, State.updCore_ahead, State.tryRestore_ahead, State.beginSave_ahead, foldl_ahead]

theorem State.dropEnded_ahead {s : State} {us} : (State.dropEnded s us).ahead = s.ahead := by
  grind [State.dropEnded, State.updUnit_ahead, State.dropImages_ahead, State.settleJob_ahead, State.endSweeps_ahead, foldl_ahead]

theorem State.dropContext_ahead {s : State} {ctx} : (State.dropContext s ctx).ahead = s.ahead := by
  grind [State.dropContext, State.endJob_ahead, State.cullLanes_ahead, State.updCore_ahead, foldl_ahead, State.ahead]

theorem State.updQueue_ahead {s : State} {ctx queue g} : (State.updQueue s ctx queue g).ahead = s.ahead := rfl

theorem State.updPhase_ahead {s : State} {n g} : (State.updPhase s n g).ahead = s.ahead := by
  grind [State.updPhase, State.ahead]

theorem State.refuseEntry_ahead {s : State} {q last} : (State.refuseEntry s q last).ahead = s.ahead := by
  grind [State.refuseEntry, State.report_ahead, State.updPhase_ahead, State.updQueue_ahead]

theorem State.beginPhase_ahead {s : State} {q j incs parts reach exported} :
    (State.beginPhase s q j incs parts reach exported).ahead = s.ahead := by
  grind [State.beginPhase, State.take_ahead, State.updQueue_ahead, State.refuseEntry_ahead, foldl_ahead, State.ahead]

theorem State.endPhase_ahead {s : State} {q e} : (State.endPhase s q e).ahead = s.ahead := by
  grind [State.endPhase, State.refuseEntry_ahead, State.updQueue_ahead, State.updPhase_ahead]

theorem State.createNode_ahead {s : State} {q e span} : (State.createNode s q e span).ahead = s.ahead := by
  grind [State.createNode, State.refuseEntry_ahead, State.take_ahead, State.startNode_ahead, State.ahead]

theorem State.writeFrom_ahead {s : State} {key data} : (State.writeFrom s key data).ahead = s.ahead := by
  grind [State.writeFrom, State.write_ahead, State.setPoison_ahead, foldl_ahead]

theorem State.dropReply_ahead {s : State} {src seq p} : (State.dropReply s src seq p).ahead = s.ahead := rfl

theorem State.peerDo_ahead {s0 : State} {key op size x y} : (State.peerDo s0 key op size x y).1.ahead = s0.ahead := by
  grind [State.peerDo, State.verifyLine_ahead, State.write_ahead, State.writeFrom_ahead, foldl_ahead]

theorem State.linkChanged_ahead {s : State} {link x} : (State.linkChanged s link x).ahead = s.ahead := by
  grind [State.linkChanged, foldl_ahead, State.ahead]

theorem State.reroute_ahead {s : State} : (State.reroute s).ahead = s.ahead := by
  grind [State.reroute, foldl_ahead, State.ahead]

theorem State.loseReplies_ahead {s : State} {id peer op} : (State.loseReplies s id peer op).ahead = s.ahead := by
  grind [State.loseReplies, State.report_ahead, State.updSheaf_ahead]

theorem State.wipeDie_ahead {s : State} {d} : (State.wipeDie s d).ahead = s.ahead := by
  grind [State.wipeDie, State.updCore_ahead, State.setDie_ahead, foldl_ahead]

theorem State.upset_ahead {s : State} {line kind} : (State.upset s line kind).ahead = s.ahead := by
  unfold State.upset
  split
  · exact State.updUnit_ahead
  · exact State.updSheaf_ahead
  · exact State.updCore_ahead
  · exact State.updCore_ahead
  · exact State.updLaunch_ahead
  · rfl

theorem State.askMove_ahead {s : State} {row} : (State.askMove s row).ahead = s.ahead := by
  grind [State.askMove, State.ahead]

theorem State.rowError_ahead {s : State} {line} : (State.rowError s line).ahead = s.ahead := by
  grind [State.rowError, State.askMove_ahead, State.ahead]

theorem State.answer_ahead {s : State} {stage req ans} : (State.answer s stage req ans).ahead = s.ahead := rfl

theorem State.setMatrixField_ahead {s : State} {key field v} : (State.setMatrixField s key field v).ahead = s.ahead := by
  unfold State.setMatrixField
  extract_lets put
  have hp {off n x} : (put off n x).ahead = s.ahead := State.store_ahead
  split
  · rfl
  · split
    · exact hp
    · exact hp
    · exact hp
    · rfl

theorem State.rehome_ahead {s : State} {j die} : (State.rehome s j die).ahead = s.ahead := by
  grind [State.rehome, State.stampSweep_ahead, State.updJob_ahead, State.ahead]

theorem State.relist_ahead {s : State} {rec c m} : (State.relist s rec c m).ahead = s.ahead := by
  grind [State.relist, → State.stage_ahead, State.putCensus_ahead]

theorem State.fetchFault_ahead {s : State} {f lanes pc} : (State.fetchFault s f lanes pc).ahead = s.ahead := by
  grind [State.fetchFault, State.endJob_ahead, State.report_ahead]

theorem State.badXmod_ahead {s : State} {id lanes job} : (State.badXmod s id lanes job).ahead = s.ahead := by
  grind [State.badXmod, State.progress_ahead, State.updSheaf_ahead]

theorem State.rawIssue_ahead {s : State} {c sh} : (State.rawIssue s c sh).ahead = s.ahead := by
  grind [State.rawIssue, State.beginService_ahead, State.conclude_ahead, State.advance_ahead, State.emulWord_ahead]

end Sys2Proof.Machine
end

section
/-!
PROOFS. A word, whatever its effect, leaves what is ahead as it is (for O59).
-/
namespace Sys2Proof.Machine

/-- An answer keeps what is ahead, where it is a state. -/
def KeepsAhead (s : State) : Out → Prop
  | .next t => t.ahead = s.ahead
  | _ => True

theorem issueWord_keeps {i : Instr} {s : State} {eff : Ctx → State → Eff} (h : ∀ c t, t.ahead = s.ahead → (eff c t).Ahead s) :
    KeepsAhead s (issueWord i s eff) := by
  unfold issueWord
  split
  · trivial
  · exact rfl
  · next c _ =>
    extract_lets sh bad
    have ha := State.advance_ahead (s := s) (c := c) (sh := sh)
    dsimp only [KeepsAhead]
    split
    · exact State.beginService_ahead
    · split
      · rfl
      · split
        · exact State.conclude_ahead.trans ha
        · split
          · exact State.emulWord_ahead
          · split
            · exact State.consume_ahead
            · have he := h c _ ha
              revert he
              cases eff c (s.advance c sh) with
              | done t => exact fun h => State.conclude_ahead.trans h
              | emul => exact fun _ => State.emulWord_ahead
              | trap r t => exact fun h => State.trapWord_ahead (State.conclude_ahead.trans (State.updSheaf_ahead.trans h))
              | hold t => exact fun h => h
              | poison p => exact fun _ => State.consume_ahead

theorem issueHint_keeps {i : Instr} {s : State} {take : LaneSt → Option LaneSt} : KeepsAhead s (issueHint i s take) := by
  unfold issueHint
  split
  · trivial
  · exact rfl
  · split
    · exact State.emulWord_ahead
    · exact State.progress_ahead.trans State.updSheaf_ahead

theorem execEret_keeps {s : State} {g} : KeepsAhead s (execEret g s) :=
  issueWord_keeps fun _ _ _ => by grind [Eff.Ahead, State.updSheaf_ahead]

theorem execExit_keeps {s : State} {g} : KeepsAhead s (execExit g s) :=
  issueWord_keeps fun _ _ _ => by grind [Eff.Ahead, State.updSheaf_ahead]

theorem execRdx_keeps {s : State} {y g d a} : KeepsAhead s (execRdx y g d a s) :=
  issueWord_keeps fun _ _ _ => by grind [Eff.Ahead, State.result_ahead]

theorem execWrx_keeps {s : State} {y g a b} : KeepsAhead s (execWrx y g a b s) :=
  issueWord_keeps fun _ _ _ => by grind [Eff.Ahead, State.updSheaf_ahead, foldl_ahead]

theorem execMovsRd_keeps {s : State} {y g d sel} : KeepsAhead s (execMovsRd y g d sel s) :=
  issueWord_keeps fun _ _ _ => by grind [Eff.Ahead, State.result_ahead]

theorem execMovsWr_keeps {s : State} {y g sel a} : KeepsAhead s (execMovsWr y g sel a s) :=
  issueWord_keeps fun _ _ _ => by grind [Eff.Ahead, State.setSheaf_ahead]

theorem execRdclkCyc_keeps {s : State} {y g d} : KeepsAhead s (execRdclkCyc y g d s) :=
  issueWord_keeps fun _ _ _ => by grind [Eff.Ahead, State.result64_ahead]

theorem execRdclkNs_keeps {s : State} {y g d} : KeepsAhead s (execRdclkNs y g d s) :=
  issueWord_keeps fun _ _ _ => by grind [Eff.Ahead, State.result64_ahead]

theorem laneForm_keeps {s : State} {i lat d wide g h} : KeepsAhead s (laneForm i s lat d wide g h) :=
  issueWord_keeps fun _ _ _ => by grind [Eff.Ahead, State.result64_ahead, State.result_ahead]

theorem execShi_keeps {s : State} {y g d a k n} : KeepsAhead s (execShi y g d a k n s) :=
  issueWord_keeps fun _ _ _ => by grind [Eff.Ahead, State.result_ahead]

theorem lane32_keeps {s : State} {i lat d g} : KeepsAhead s (lane32 i s lat d g) :=
  issueWord_keeps fun _ _ _ => by grind [Eff.Ahead, State.result_ahead]

theorem lane64_keeps {s : State} {i lat d g} : KeepsAhead s (lane64 i s lat d g) :=
  issueWord_keeps fun _ _ _ => by grind [Eff.Ahead, State.result64_ahead]

theorem execCvti_keeps {s : State} {y g d a k t} : KeepsAhead s (execCvti y g d a k t s) :=
  issueWord_keeps fun _ _ _ => by grind [Eff.Ahead, State.result64_ahead, State.result_ahead]

theorem execCvtf_keeps {s : State} {y g d a k t} : KeepsAhead s (execCvtf y g d a k t s) :=
  issueWord_keeps fun _ _ _ => by grind [Eff.Ahead, State.result64_ahead, State.result_ahead]

theorem execQblk_keeps {s : State} {y g d a k t} : KeepsAhead s (execQblk y g d a k t s) :=
  issueWord_keeps fun _ _ _ => by grind [Eff.Ahead, State.updSheaf_ahead]

theorem icmpWord_keeps {s : State} {i p cond a y32 y64} : KeepsAhead s (icmpWord i s p cond a y32 y64) :=
  issueWord_keeps fun _ _ _ => by grind [Eff.Ahead, State.resultPred_ahead]

theorem execFcmp_keeps {s : State} {y g cond p a b} : KeepsAhead s (execFcmp y g cond p a b s) :=
  issueWord_keeps fun _ _ _ => by grind [Eff.Ahead, State.resultPred_ahead]

theorem execPlop_keeps {s : State} {y g p q r t} : KeepsAhead s (execPlop y g p q r t s) :=
  issueWord_keeps fun _ _ _ => by grind [Eff.Ahead, State.resultPred_ahead]

theorem execPmovP_keeps {s : State} {y g p a} : KeepsAhead s (execPmovP y g p a s) :=
  issueWord_keeps fun _ _ _ => by grind [Eff.Ahead, State.resultPred_ahead]

theorem execPmovS_keeps {s : State} {y g a} : KeepsAhead s (execPmovS y g a s) :=
  issueWord_keeps fun _ _ _ => by grind [Eff.Ahead, State.resultPred_ahead, foldl_ahead]

theorem execShfl_keeps {s : State} {y g d a b} : KeepsAhead s (execShfl y g d a b s) :=
  issueWord_keeps fun _ _ _ => by grind [Eff.Ahead, State.result64_ahead, State.result_ahead]

theorem execVoteAll_keeps {s : State} {y g p q} : KeepsAhead s (execVoteAll y g p q s) :=
  issueWord_keeps fun _ _ _ => by grind [Eff.Ahead, State.resultPred_ahead]

theorem execVoteAny_keeps {s : State} {y g p q} : KeepsAhead s (execVoteAny y g p q s) :=
  issueWord_keeps fun _ _ _ => by grind [Eff.Ahead, State.resultPred_ahead]

theorem execVoteUni_keeps {s : State} {y g p a} : KeepsAhead s (execVoteUni y g p a s) :=
  issueWord_keeps fun _ _ _ => by grind [Eff.Ahead, State.resultPred_ahead]

theorem execRed_keeps {s : State} {y g d a o t} : KeepsAhead s (execRed y g d a o t s) :=
  issueWord_keeps fun _ _ _ => by grind [Eff.Ahead, State.redWrite_ahead]

theorem execScanl_keeps {s : State} {y g d a o x t} : KeepsAhead s (execScanl y g d a o x t s) :=
  issueWord_keeps fun _ _ _ => by grind [Eff.Ahead, State.redWrite_ahead]

theorem execBra_keeps {s : State} {y g i} : KeepsAhead s (execBra y g i s) :=
  issueWord_keeps fun _ _ _ => by grind [Eff.Ahead, State.branch_ahead]

theorem execCall_keeps {s : State} {y g d i} : KeepsAhead s (execCall y g d i s) :=
  issueWord_keeps fun _ _ _ => by grind [Eff.Ahead, State.branch_ahead, State.result64_ahead]

theorem execRet_keeps {s : State} {y g a} : KeepsAhead s (execRet y g a s) :=
  issueWord_keeps fun _ _ _ => by grind [Eff.Ahead, State.branch_ahead]

theorem execJoin_keeps {s : State} {y g} : KeepsAhead s (execJoin y g s) :=
  issueWord_keeps fun _ _ _ => by grind [Eff.Ahead]

theorem execJoinM_keeps {s : State} {y g a} : KeepsAhead s (execJoinM y g a s) :=
  issueWord_keeps fun _ _ _ => by grind [Eff.Ahead]

theorem execLoop_keeps {s : State} {y n a i} : KeepsAhead s (execLoop y n a i s) :=
  issueWord_keeps fun _ _ _ => by grind [Eff.Ahead, State.updSheaf_ahead, State.branch_ahead]

theorem execEndl_keeps {s : State} {y n i} : KeepsAhead s (execEndl y n i s) :=
  issueWord_keeps fun _ _ _ => by grind [Eff.Ahead, State.residence_ahead, State.updSheaf_ahead, State.branch_ahead]

theorem execLwait_keeps {s : State} {y g f} : KeepsAhead s (execLwait y g f s) :=
  issueWord_keeps fun _ _ _ => by grind [Eff.Ahead, State.holdLanes_ahead]

theorem execBrx_keeps {s : State} {y g a b} : KeepsAhead s (execBrx y g a b s) :=
  issueWord_keeps fun _ _ _ => by grind [Eff.Ahead, State.branch_ahead]

theorem loadWord_keeps {s : State} {i part} : KeepsAhead s (loadWord i s part) :=
  issueWord_keeps fun _ _ _ => by grind [Eff.Ahead, State.loadStepped_ahead, State.loadIssue_ahead]

theorem checkLanes_eq_ahead {s t : State} {check : State → Nat → Checked} {l : List Nat} {got r} (h : checkLanes check s l got = (t, r))
    (hk : ∀ t l, (check t l).Ahead t) : t.ahead = s.ahead := by
  have := checkLanes_ahead (s := s) (l := l) (got := got) hk
  rwa [h] at this

theorem storeWord_keeps {s : State} {i m a bytes} : KeepsAhead s (storeWord i s m a bytes) := by
  refine issueWord_keeps fun c t h => ?_
  extract_lets u parts entry check
  have hu : u.ahead = s.ahead := State.makeRoom_ahead.trans h
  split
  · exact hu
  · split
    · exact State.makeRoom_ahead
    · split
      · exact State.enqueue_ahead.trans hu
      · split
        · next s1 ha => exact (State.askPages_ahead ha).trans State.makeRoom_ahead
        · have hk {s1 r} (e : checkLanes check (s.makeRoom c 64) c.actLanes [] = (s1, r)) : s1.ahead = s.ahead :=
            (checkLanes_eq_ahead e fun _ _ => State.checkAccess_ahead).trans State.makeRoom_ahead
          split
          · next e => exact hk e
          · next e =>
            exact State.stepStore_ahead
              ((translateAll_ahead fun _ _ => State.translateChecked_ahead).trans (State.advance_ahead.trans (hk e))) rfl

theorem execPrf_keeps {s : State} {y g a m} : KeepsAhead s (execPrf y g a m s) :=
  issueWord_keeps fun _ _ _ => by grind [Eff.Ahead, State.prefetch_ahead, foldl_ahead]

theorem execQrd_keeps {s : State} {y g d n f} : KeepsAhead s (execQrd y g d n f s) :=
  issueWord_keeps fun _ _ _ => by grind [Eff.Ahead, State.popStepped_ahead, State.updSheaf_ahead, State.land_ahead, foldl_ahead]

theorem execQwr_keeps {s : State} {y g d n f} : KeepsAhead s (execQwr y g d n f s) := by
  refine issueWord_keeps fun c t h => ?_
  extract_lets u entry
  have hu : u.ahead = s.ahead := State.makeRoom_ahead.trans h
  split
  · exact hu
  · extract_lets q first parts numberOf usable check
    split
    · trivial
    · split
      · exact State.makeRoom_ahead
      · split
        · exact State.enqueue_ahead.trans hu
        · have hk {s1 r} (e : checkLanes check (s.makeRoom c 64) usable [] = (s1, r)) : s1.ahead = s.ahead :=
            (checkLanes_eq_ahead e fun _ _ => State.checkElem_ahead).trans State.makeRoom_ahead
          split
          · next e => exact hk e
          · next e =>
            exact State.stepStore_ahead
              ((translateAll_ahead fun _ _ => State.translatePush_ahead).trans (State.advance_ahead.trans (hk e))) rfl

theorem atomWord_keeps {s : State} {i op wide m d a right returns new} :
    KeepsAhead s (atomWord i s op wide m d a right returns new) :=
  issueWord_keeps fun _ _ _ => by grind [Eff.Ahead, State.atomEff_ahead]

theorem execMclaim_keeps {s : State} {y g d n k} : KeepsAhead s (execMclaim y g d n k s) :=
  issueWord_keeps fun _ _ _ => by grind [Eff.Ahead, State.setSlot_ahead, State.later_ahead, foldl_ahead]

theorem execMrel_keeps {s : State} {y g n k} : KeepsAhead s (execMrel y g n k s) :=
  issueWord_keeps fun _ _ _ => by grind [Eff.Ahead, State.undescribe_ahead, State.push_ahead, foldl_ahead]

theorem execMbind_keeps {s : State} {y g h a n} : KeepsAhead s (execMbind y g h a n s) :=
  issueWord_keeps fun _ _ _ => by grind [Eff.Ahead, → Ctx.block_ahead, State.setSlot_ahead, State.push_ahead]

theorem millWord_keeps {s : State} {i} : KeepsAhead s (millWord i s) :=
  issueWord_keeps fun _ _ _ => by grind [Eff.Ahead, State.push_ahead]

theorem execAmovRd_keeps {s : State} {y g d a f} : KeepsAhead s (execAmovRd y g d a f s) := by
  refine issueWord_keeps fun c t h => State.amovEnd_ahead.congr ?_
  split
  · exact State.updSheaf_ahead.trans h
  · exact State.updSheaf_ahead.trans (State.updSheaf_ahead.trans h)

theorem execAmovWr_keeps {s : State} {y g d a} : KeepsAhead s (execAmovWr y g d a s) := by
  refine issueWord_keeps fun c t h => State.amovEnd_ahead.congr ((foldl_ahead fun u l => ?_).trans h)
  split
  · rfl
  · exact State.ownTile_ahead.trans State.updCore_ahead

theorem execAcvt_keeps {s : State} {y g d a sc t} : KeepsAhead s (execAcvt y g d a sc t s) :=
  issueWord_keeps fun _ _ _ => by grind [Eff.Ahead, State.push_ahead]

theorem productWord_keeps {s : State} {i a d work} : KeepsAhead s (productWord i s a d work) :=
  issueWord_keeps fun _ _ _ => by grind [Eff.Ahead, → Ctx.block_ahead, State.push_ahead]

theorem execCopy_keeps {s : State} {y g h a q m r} : KeepsAhead s (execCopy y g h a q m r s) := by
  refine issueWord_keeps fun c t ht => ?_
  extract_lets u w own
  split
  · next e => exact Ctx.block_ahead ht rfl e
  · split
    · trivial
    · extract_lets base
      split
      · trivial
      · split
        · trivial
        · exact ht
        · exact Ctx.serve_ahead ht rfl
        · next cw _ =>
          extract_lets described
          have hd {v} (e : described = some v) : v.ahead = s.ahead := by
            simp only [described] at e
            split at e
            · obtain ⟨d, -, e⟩ := Option.bind_eq_some_iff.1 e
              exact (State.describeSlot_ahead e).trans ht
            · cases e
              exact ht
          clear_value described
          cases described with
          | none => trivial
          | some v =>
            have hp {x : Work} : (v.push c (cqName q.toNat) x 120).ahead = s.ahead := State.push_ahead.trans (hd rfl)
            dsimp only
            split
            · exact hp
            · split
              · exact rfl
              · split
                · next e => exact (State.followOn_ahead e).trans hp
                · trivial

theorem execGather_keeps {s : State} {y g h a} : KeepsAhead s (execGather y g h a s) :=
  issueWord_keeps fun _ _ _ => by grind [Eff.Ahead, → Ctx.block_ahead, Ctx.serve_ahead, → State.describeSlot_ahead, State.push_ahead]

theorem execSbind_keeps {s : State} {y g n a} : KeepsAhead s (execSbind y g n a s) :=
  issueWord_keeps fun _ _ _ => by grind [Eff.Ahead, → Ctx.block_ahead, State.updSheaf_ahead]

theorem execStream_keeps {s : State} {y g a} : KeepsAhead s (execStream y g a s) :=
  issueWord_keeps fun _ _ _ => by grind [Eff.Ahead, → Ctx.block_ahead, Ctx.serve_ahead, State.push_ahead]

theorem execStreamPost_keeps {s : State} {y g h} : KeepsAhead s (execStreamPost y g h s) :=
  issueWord_keeps fun _ _ _ => by grind [Eff.Ahead, State.updHandle_ahead, State.updEntry_ahead]

theorem hwaitWord_keeps {s : State} {i h full} : KeepsAhead s (hwaitWord i h full s) :=
  issueWord_keeps fun _ _ _ => by grind [Eff.Ahead, State.holdLanes_ahead]

theorem execHrel_keeps {s : State} {y g h} : KeepsAhead s (execHrel y g h s) :=
  issueWord_keeps fun _ _ _ => by grind [Eff.Ahead, State.setHandle_ahead]

theorem execHstat_keeps {s : State} {y g d h} : KeepsAhead s (execHstat y g d h s) :=
  issueWord_keeps fun _ _ _ => by grind [Eff.Ahead, State.freeCycles_ahead, State.later_ahead]

theorem execScfg_keeps {st : State} {y g s w} : KeepsAhead st (execScfg y g s w st) :=
  issueWord_keeps fun _ _ _ => by grind [Eff.Ahead, State.updSheaf_ahead, State.later_ahead]

theorem execScan_keeps {s : State} {y g a} : KeepsAhead s (execScan y g a s) :=
  issueWord_keeps fun _ _ _ => by grind [Eff.Ahead, → Ctx.block_ahead, State.push_ahead]

theorem chainWord_keeps {s : State} {i a work} : KeepsAhead s (chainWord i s a work) :=
  issueWord_keeps fun _ _ _ => by grind [Eff.Ahead, State.push_ahead]

theorem execCbar_keeps {s : State} {y g d} : KeepsAhead s (execCbar y g d s) :=
  issueWord_keeps fun _ _ _ => by grind [Eff.Ahead, State.push_ahead]

theorem execGrow_keeps {s : State} {y g d a} : KeepsAhead s (execGrow y g d a s) :=
  issueWord_keeps fun _ _ _ => by grind [Eff.Ahead, State.take_ahead, State.ahead]

theorem execSpawn_keeps {s : State} {y g d a} : KeepsAhead s (execSpawn y g d a s) :=
  issueWord_keeps fun _ _ _ => by grind [Eff.Ahead, → Ctx.block_ahead, State.take_ahead, State.ahead]

theorem queueWord_keeps {s : State} {i push d a virt} : KeepsAhead s (queueWord i s push d a virt) :=
  issueWord_keeps fun _ _ _ => by grind [Eff.Ahead, Ctx.serve_ahead, State.take_ahead, State.holdLanes_ahead, State.ahead]

theorem execCwait_keeps {s : State} {y g l} : KeepsAhead s (execCwait y g l s) :=
  issueWord_keeps fun _ _ _ => by grind [Eff.Ahead, State.dropCache_ahead, State.holdLanes_ahead]

theorem execCancel_keeps {s : State} {y g l} : KeepsAhead s (execCancel y g l s) :=
  issueWord_keeps fun _ _ _ => by grind [Eff.Ahead, State.cancelInstance_ahead, State.endSweeps_ahead, State.ahead]

theorem execIncup_keeps {s : State} {y g d a p n} : KeepsAhead s (execIncup y g d a p n s) :=
  issueWord_keeps fun _ _ _ => by grind [Eff.Ahead, State.take_ahead, State.ahead]

theorem execIncrd_keeps {s : State} {y g d p n} : KeepsAhead s (execIncrd y g d p n s) :=
  issueWord_keeps fun _ _ _ => by grind [Eff.Ahead, State.later_ahead, State.dropCache_ahead, State.take_ahead, State.ahead]

theorem execBndset_keeps {s : State} {y g a} : KeepsAhead s (execBndset y g a s) :=
  issueWord_keeps fun _ _ _ => by grind [Eff.Ahead, State.updSheaf_ahead]

theorem execBndcfg_keeps {s : State} {y g a} : KeepsAhead s (execBndcfg y g a s) :=
  issueWord_keeps fun _ _ _ => by grind [Eff.Ahead, State.updSheaf_ahead]

theorem execFence_keeps {s : State} {y g m k7 k} : KeepsAhead s (execFence y g m k7 k s) :=
  issueWord_keeps fun _ _ _ => by grind [Eff.Ahead]

theorem execBar_keeps {s : State} {y m} : KeepsAhead s (execBar y m s) :=
  issueWord_keeps fun _ _ _ => by grind [Eff.Ahead, State.holdLanes_ahead]

theorem execQfence_keeps {s : State} {y g m k} : KeepsAhead s (execQfence y g m k s) :=
  issueWord_keeps fun _ _ _ => by grind [Eff.Ahead, State.push_ahead, foldl_ahead]

theorem fpWord_keeps {i : Instr} {s : State} {d a b terms} : KeepsAhead s (fpWord i s d a b terms) := lane32_keeps

theorem sfuWord_keeps {i : Instr} {s : State} {d a code} : KeepsAhead s (sfuWord i s d a code) := lane32_keeps

/-- A word keeps what is ahead. -/
theorem exec_keeps {i : Instr} {s : State} (h : (encode i).isSome = true) : KeepsAhead s (exec i s) := by
  cases i with
  | moduleReset | bootImageLoad | recoveryImageDoe | quadrantCycle | trapEntry | yParkEnd | loadReply
  | storeTranslated | tlbWalk | tlbInvalidation | faultService | driverAnswer | replayLimit | streamElementFetch
  | copyStart | copyComplete | copySlowPath | ringChunkStart | qfencePass | mbindStart | mrelStart | millOpStart
  | millOpRetire | qmvStart | quernRow | rjoinStart | fallowSweepEnd | censusRanking | migrationCommand
  | migrationCopy | migrationInstant | scanStart | scanPerformed | csendStart | carryPlaced | crecvTake
  | roundComplete | spawnArrival | unitAdmission | unitComplete | nodeComplete | remoteEnqueueReceive
  | remoteEnqueueAck | jobCompletionSweep | jobEnd | queueWordAtHome | popDelivery | barrierComplete | cwaitRelease
  | incumbentCommit | incupReply | incrdRootReply | crierReplicaUpdate | crierForward | watchdogExpiry | budgetPeriod
  | saveRequest | drainEnd | saveEnd | restore | contextCreate | contextDestroy | doorbellWrite | submissionEntry
  | phaseEndCompletion | hostHdmAccess | peerRequest | routeRecompute | linkRetrain | capabilityPublish
  | peerUnreachable | remoteStoreFailure | rdmaCompletion | dvfSetPoint | dvfGate | dvfWake | pointChangeDone
  | gatingDone | wakeDone | thermalThrottle | throttleRelease | scrubPass | hbmRowRetire | coreFailure
  | repairRecordWrite | getVersion | getCapabilities | negotiateAlgorithms | getDigests | getCertificate | challenge
  | getMeasurements | keyExchange | finish | endSession | registerWrite | recordReachableAgain | submissionQueueCreate
  | queuePairCreate | matrixRecordRegistration | coldChangeReport | congestionNotificationPacket | nak
  | replyHoldExpiry => cases h
  | iadd | isub | iaddi | imul | imulh | imad | imin | imax | and | or | xor | andn | shl | shr | sar | mov | sel
  | bcast => exact laneForm_keeps
  | bfe | bfi | popc | clz | ctz | brev | bswap | idot4 | fmul | fmin | fmax | fabs | fneg | fnabs | fcls | fdot2
  | frnd | fscl | cvtb | cvts | pack | unpk | pmovV | pmovM | voteBallot | conf => exact lane32_keeps
  | lea | imadw => exact lane64_keeps
  | fadd | fsub | ffma => exact fpWord_keeps
  | rcp | rsq | sqrt | ex2 | lg2 | sin | cos | tanh =>
    unfold exec
    exact sfuWord_keeps
  | icmp | icmpi => exact icmpWord_keeps
  | ld | ldv | lds => exact loadWord_keeps
  | st | stv | stq => exact storeWord_keeps
  | atom | cas | atomf | atst => exact atomWord_keeps
  | mma | mmas | mmab | azero => exact millWord_keeps
  | hwaitFree | hwaitFull =>
    unfold exec
    exact hwaitWord_keeps
  | qmv | rjoin =>
    unfold exec
    exact productWord_keeps
  | csend | crecv =>
    unfold exec
    exact chainWord_keeps
  | qpush | qpop =>
    unfold exec
    exact queueWord_keeps
  | sched | limm | xmod =>
    unfold exec
    exact issueHint_keeps
  | eret => exact execEret_keeps
  | exit => exact execExit_keeps
  | rdx => exact execRdx_keeps
  | wrx => exact execWrx_keeps
  | movsRd => exact execMovsRd_keeps
  | movsWr => exact execMovsWr_keeps
  | rdclkCyc => exact execRdclkCyc_keeps
  | rdclkNs => exact execRdclkNs_keeps
  | shi => exact execShi_keeps
  | cvti => exact execCvti_keeps
  | cvtf => exact execCvtf_keeps
  | qblk => exact execQblk_keeps
  | fcmp => exact execFcmp_keeps
  | plop => exact execPlop_keeps
  | pmovP => exact execPmovP_keeps
  | pmovS => exact execPmovS_keeps
  | shfl => exact execShfl_keeps
  | voteAll => exact execVoteAll_keeps
  | voteAny => exact execVoteAny_keeps
  | voteUni => exact execVoteUni_keeps
  | red => exact execRed_keeps
  | scanl => exact execScanl_keeps
  | bra => exact execBra_keeps
  | call => exact execCall_keeps
  | ret => exact execRet_keeps
  | join => exact execJoin_keeps
  | joinM => exact execJoinM_keeps
  | loop => exact execLoop_keeps
  | endl => exact execEndl_keeps
  | lwait => exact execLwait_keeps
  | brx => exact execBrx_keeps
  | prf => exact execPrf_keeps
  | qrd => exact execQrd_keeps
  | qwr => exact execQwr_keeps
  | mclaim => exact execMclaim_keeps
  | mrel => exact execMrel_keeps
  | mbind => exact execMbind_keeps
  | amovRd => exact execAmovRd_keeps
  | amovWr => exact execAmovWr_keeps
  | acvt => exact execAcvt_keeps
  | copy => exact execCopy_keeps
  | gather => exact execGather_keeps
  | sbind => exact execSbind_keeps
  | stream => exact execStream_keeps
  | streamPost => exact execStreamPost_keeps
  | hrel => exact execHrel_keeps
  | hstat => exact execHstat_keeps
  | scfg => exact execScfg_keeps
  | scan => exact execScan_keeps
  | cbar => exact execCbar_keeps
  | grow => exact execGrow_keeps
  | spawn => exact execSpawn_keeps
  | cwait => exact execCwait_keeps
  | cancel => exact execCancel_keeps
  | incup => exact execIncup_keeps
  | incrd => exact execIncrd_keeps
  | bndset => exact execBndset_keeps
  | bndcfg => exact execBndcfg_keeps
  | fence => exact execFence_keeps
  | bar => exact execBar_keeps
  | qfence => exact execQfence_keeps

end Sys2Proof.Machine
end

section
/-!
PROOFS. An event goes on, and but for two leaves what is ahead as it is (for O59).
-/
namespace Sys2Proof.Machine

/-- An answer goes on and keeps what is ahead. -/
def GoesOn (s : State) : Out → Prop
  | .next t => t.ahead = s.ahead
  | _ => False

theorem goesOn_next {s t : State} (h : t.ahead = s.ahead) : GoesOn s (.next t) := h

theorem execBootImageLoad_goes {s : State} {bank} : GoesOn s (execBootImageLoad bank s) := by
  grind [execBootImageLoad, GoesOn, State.boot_ahead, State.ahead]

theorem execRecoveryImageDoe_goes {s : State} {manifest edSig mlSig body} :
    GoesOn s (execRecoveryImageDoe manifest edSig mlSig body s) := by
  grind [execRecoveryImageDoe, GoesOn, State.boot_ahead, State.ahead]

theorem execTrapEntry_goes {s : State} {sheaf} : GoesOn s (execTrapEntry sheaf s) := by
  grind [execTrapEntry, GoesOn, State.tryTrap_ahead, State.ahead]

theorem execYParkEnd_goes {s : State} {sheaf} : GoesOn s (execYParkEnd sheaf s) := by
  grind [execYParkEnd, GoesOn, State.endLate_ahead, State.setSheaf_ahead, State.updSheaf_ahead, foldl_ahead, State.ahead]

theorem execLoadReply_goes {s : State} {sheaf id} : GoesOn s (execLoadReply sheaf id s) := by
  refine goesOn_next ?_
  split
  · rfl
  · split
    · rfl
    · next o _ =>
      extract_lets first turn t
      split
      · rfl
      · simp only [t]
        split
        · have h := State.loadLane_ahead (s := s) (id := sheaf) (o := o) (opNo := o.op) (inPlace := false) (checked := false)
          revert h
          cases s.loadLane sheaf o o.op false false with
          | wait t => exact fun h => h
          | bad p t => exact fun h => State.land_ahead.trans h
          | bytes b t => exact fun h => State.remoteProgress_ahead.trans (State.land_ahead.trans h)
        · exact State.landPop_ahead
        · split
          · rfl
          · exact State.remoteProgress_ahead.trans (State.land_ahead.trans State.acknowledge_ahead)
        · exact State.land_ahead.trans State.acknowledge_ahead

theorem execStoreTranslated_goes {s : State} {sheaf id} : GoesOn s (execStoreTranslated sheaf id s) := by
  grind [execStoreTranslated, GoesOn, State.translateEntry_ahead, foldl_ahead, State.ahead]

theorem execTlbWalk_goes {s : State} {die ctx page} : GoesOn s (execTlbWalk die ctx page s) := by
  grind [execTlbWalk, GoesOn, State.failMisses_ahead, State.malformed_ahead, State.ahead]

theorem execTlbInvalidation_goes {s : State} {ctx first last} : GoesOn s (execTlbInvalidation ctx first last s) := by
  grind [execTlbInvalidation, GoesOn, State.ahead]

theorem execFaultService_goes {s : State} {sheaf ok} : GoesOn s (execFaultService sheaf ok s) := by
  grind [execFaultService, GoesOn, State.setSheaf_ahead, State.serviced_ahead, State.healRead_ahead, State.ahead]

theorem execDriverAnswer_goes {s : State} {sheaf mapped hwm tables} : GoesOn s (execDriverAnswer sheaf mapped hwm tables s) := by
  grind [execDriverAnswer, GoesOn, State.serviced_ahead, State.writeTables_ahead, State.updContext_ahead, State.ahead]

theorem execReplayLimit_goes {s : State} {sheaf} : GoesOn s (execReplayLimit sheaf s) := by
  grind [execReplayLimit, GoesOn, State.updSheaf_ahead, State.ahead]

theorem execStreamElementFetch_goes {s : State} {sheaf q} : GoesOn s (execStreamElementFetch sheaf q s) := by
  grind [execStreamElementFetch, GoesOn, State.updSheaf_ahead, State.metMalformed_ahead, State.charge_ahead, State.ahead]

theorem execCopyStart_goes {s : State} {id} : GoesOn s (execCopyStart id s) := by
  grind [execCopyStart, GoesOn, State.beginCopy_ahead, State.start_ahead, State.updHandle_ahead, State.parkRing_ahead,
    State.ahead]

theorem execCopyComplete_goes {s : State} {id} : GoesOn s (execCopyComplete id s) := by
  grind [execCopyComplete, GoesOn, State.orphanEntry_ahead, State.runCopy_ahead, State.runGather_ahead, State.runChunk_ahead,
    State.ahead]

theorem execCopySlowPath_goes {s : State} {id serviced tables} : GoesOn s (execCopySlowPath id serviced tables s) := by
  refine goesOn_next ?_
  split
  · rfl
  · next e _ =>
    extract_lets s1 healed s2 e2
    have h1 : s1.ahead = s.ahead := by
      simp only [s1]
      split
      · exact State.writeTables_ahead
      · rfl
    have hh : healed.ahead = s.ahead := by
      simp only [healed]
      split
      · exact (foldl_ahead fun _ _ => State.healWords_ahead).trans h1
      · exact h1
    clear_value healed
    split
    · grind [State.orphanEntry_ahead, State.giveUpRows_ahead, State.tryQmv_ahead]
    · grind [State.tryRjoin_ahead]
    · split
      · exact h1
      · split
        · exact State.orphanEntry_ahead.trans h1
        · split
          · exact h1
          · have h2 : s2.ahead = s.ahead := by
              simp only [s2]
              grind [State.healWords_ahead]
            clear_value s2 e2
            split
            · exact State.runCopy_ahead.trans h2
            · exact State.runGather_ahead.trans h2
            · split
              · exact State.runChunk_ahead.trans h2
              · exact h2
            · exact h2

theorem execRingChunkStart_goes {s : State} {id} : GoesOn s (execRingChunkStart id s) := by
  grind [execRingChunkStart, GoesOn, State.updHandle_ahead, State.updEntry_ahead, State.ahead]

theorem execQfencePass_goes {s : State} {id} : GoesOn s (execQfencePass id s) := by
  grind [execQfencePass, GoesOn, State.dropEntry_ahead, State.flagDown_ahead, foldl_ahead, State.ahead]

theorem execMbindStart_goes {s : State} {id} : GoesOn s (execMbindStart id s) := by
  grind [execMbindStart, GoesOn, State.setHandle_ahead, State.setSlot_ahead, State.performed_ahead, State.updHandle_ahead,
    State.start_ahead, State.ahead]

theorem execMrelStart_goes {s : State} {id} : GoesOn s (execMrelStart id s) := by
  grind [execMrelStart, GoesOn, State.performed_ahead, State.freeSlot_ahead, foldl_ahead, State.ahead]

theorem execMillOpStart_goes {s : State} {id} : GoesOn s (execMillOpStart id s) := by
  grind [execMillOpStart, GoesOn, State.start_ahead, State.charge_ahead, State.updCore_ahead, State.ahead]

theorem execMillOpRetire_goes {s : State} {id} : GoesOn s (execMillOpRetire id s) := by
  grind [execMillOpRetire, GoesOn, State.performed_ahead, State.updCore_ahead, State.millEffect_ahead, State.ahead]

theorem execQmvStart_goes {s : State} {id} : GoesOn s (execQmvStart id s) := by
  grind [execQmvStart, GoesOn, State.tryQmv_ahead, State.updEntry_ahead, State.updHandle_ahead, State.ahead]

theorem execQuernRow_goes {s : State} {id row} : GoesOn s (execQuernRow id row s) := by
  grind [execQuernRow, GoesOn, State.orphanEntry_ahead, State.quernRow_ahead, State.ahead]

theorem execRjoinStart_goes {s : State} {id} : GoesOn s (execRjoinStart id s) := by
  grind [execRjoinStart, GoesOn, State.joinStep_ahead, State.tryRjoin_ahead, State.ahead]

theorem execFallowSweepEnd_goes {s : State} {rec} : GoesOn s (execFallowSweepEnd rec s) := by
  grind [execFallowSweepEnd, GoesOn, State.putCensus_ahead, State.censusAtomic_ahead, State.notify_ahead, State.setRec_ahead,
    State.ahead]

theorem execCensusRanking_goes {s : State} {rec smap mlist} : GoesOn s (execCensusRanking rec smap mlist s) := by
  grind [execCensusRanking, GoesOn, State.putCensus_ahead, → State.stage_ahead, State.ahead]

theorem execMigrationCommand_goes {s : State} {rec ctx} : GoesOn s (execMigrationCommand rec ctx s) := by
  grind [execMigrationCommand, GoesOn, State.setMcause_ahead, State.putCensus_ahead, State.setRec_ahead, State.setMstate_ahead,
    State.ahead]

theorem execMigrationCopy_goes {s : State} {rec} : GoesOn s (execMigrationCopy rec s) := by
  refine goesOn_next ?_
  split
  · next c m _ _ =>
    extract_lets st
    split
    · rfl
    · split
      · grind [State.setMstate_ahead]
      · split
        · rfl
        · split
          · split
            · exact State.putCensus_ahead
            · rfl
          · dsimp only
            generalize hz : s.freeCycles.2.charge c.mctx .copy s.freeCycles.1 = s2
            have h2 : s2.ahead = s.ahead := hz ▸ State.charge_ahead.trans State.freeCycles_ahead
            have h := State.migrateStep_ahead (s := s2) (key := rec) (c := c) (m := m)
            revert h
            cases s2.migrateStep rec c m with
            | went t => exact fun h => Eq.trans h h2
            | cause k => exact fun _ => State.failMigration_ahead.trans h2
            | fault p =>
              intro _
              dsimp only
              split
              · exact State.healWords_ahead.trans h2
              · exact State.failMigration_ahead.trans h2
  · rfl

theorem execMigrationInstant_goes {s : State} {rec} : GoesOn s (execMigrationInstant rec s) := by
  grind [execMigrationInstant, GoesOn, State.leaveMigration_ahead, State.setMstate_ahead, State.setRec_ahead, State.ahead]

theorem execScanStart_goes {s : State} {id} : GoesOn s (execScanStart id s) := by
  grind [execScanStart, GoesOn, State.start_ahead, State.ahead]

theorem execScanPerformed_goes {s : State} {id} : GoesOn s (execScanPerformed id s) := by
  grind [execScanPerformed, GoesOn, State.performed_ahead, State.updUnit_ahead, State.ahead]

theorem execCsendStart_goes {s : State} {id} : GoesOn s (execCsendStart id s) := by
  grind [execCsendStart, GoesOn, State.start_ahead, State.charge_ahead, State.sendOn_ahead, State.ahead]

theorem execCarryPlaced_goes {s : State} {carry} : GoesOn s (execCarryPlaced carry s) := by
  cases carry with
  | own id => exact State.placeOwn_ahead
  | peer l from_ seq broken words => exact State.placeRemote_ahead
  | notice l => exact State.giveNotice_ahead
  | told l => exact State.noticeTold_ahead

theorem execCrecvTake_goes {s : State} {id} : GoesOn s (execCrecvTake id s) := by
  grind [execCrecvTake, GoesOn, State.updUnit_ahead, State.acquireUnit_ahead, State.performed_ahead, State.updMember_ahead,
    State.report_ahead, State.ahead]

theorem execRoundComplete_goes {s : State} {round} : GoesOn s (execRoundComplete round s) := by
  grind [execRoundComplete, GoesOn, State.updMember_ahead, State.acquireUnit_ahead, State.performed_ahead, State.deliverAll_ahead,
    State.ahead]

theorem execSpawnArrival_goes {s : State} {id} : GoesOn s (execSpawnArrival id s) := by
  refine goesOn_next ?_
  split
  · rfl
  · split
    · exact State.dropSpawn_ahead
    · next p _ =>
      extract_lets die s1
      have h1 : s1.ahead = s.ahead := rfl
      split
      · rfl
      · split
        · exact State.dropSpawn_ahead
        · split
          · exact State.growLaunch_ahead.trans h1
          · exact State.updJob_ahead (s := s)
          · split
            · rfl
            · exact State.deliverAll_ahead.trans (State.enterChild_ahead.trans h1)

theorem execUnitAdmission_goes {s0 : State} {core} : GoesOn s0 (execUnitAdmission core s0) := by
  grind [execUnitAdmission, GoesOn, State.admitListed_ahead, State.ahead]

theorem execUnitComplete_goes {s : State} {unit} : GoesOn s (execUnitComplete unit s) := by
  grind [execUnitComplete, GoesOn, State.finishUnit_ahead, State.freeSlot_ahead, State.undescribe_ahead, foldl_ahead, State.ahead]

theorem execNodeComplete_goes {s : State} {node} : GoesOn s (execNodeComplete node s) := by
  grind [execNodeComplete, GoesOn, State.feedGraph_ahead, State.completeNode_ahead, State.ahead]

theorem execRemoteEnqueueReceive_goes {s : State} {job dev krec args body} :
    GoesOn s (execRemoteEnqueueReceive job dev krec args body s) := by
  grind [execRemoteEnqueueReceive, GoesOn, State.updJob_ahead, State.progress_ahead, State.dropOne_ahead, State.enterChild_ahead,
    State.ahead]

theorem execRemoteEnqueueAck_goes {s : State} {id entered} : GoesOn s (execRemoteEnqueueAck id entered s) := by
  grind [execRemoteEnqueueAck, GoesOn, State.updJob_ahead, State.progress_ahead, State.deliverAll_ahead, State.ahead]

theorem execJobCompletionSweep_goes {s : State} {job parts} : GoesOn s (execJobCompletionSweep job parts s) := by
  grind [execJobCompletionSweep, GoesOn, State.updJob_ahead, State.settleJob_ahead, State.ahead]

theorem execJobEnd_goes {s : State} {job cause} : GoesOn s (execJobEnd job cause s) := by
  grind [execJobEnd, GoesOn, State.cancelJob_ahead, State.settleJob_ahead, State.endJob_ahead, State.ahead]

theorem execQueueWordAtHome_goes {s : State} {id} : GoesOn s (execQueueWordAtHome id s) := by
  grind [execQueueWordAtHome, GoesOn, State.serve_ahead, State.ahead]

theorem execPopDelivery_goes {s : State} {id} : GoesOn s (execPopDelivery id s) := by
  grind [execPopDelivery, GoesOn, State.updSheaf_ahead, State.progress_ahead, State.finishQWord_ahead, State.ahead]

theorem execBarrierComplete_goes {s : State} {unit} : GoesOn s (execBarrierComplete unit s) := by
  grind [execBarrierComplete, GoesOn, State.updSheaf_ahead, State.progress_ahead, State.acquireAt_ahead, State.releaseLanes_ahead,
    foldl_ahead, State.ahead]

theorem execCwaitRelease_goes {s : State} {sheaf} : GoesOn s (execCwaitRelease sheaf s) := by
  grind [execCwaitRelease, GoesOn, State.acquireAt_ahead, State.releaseLanes_ahead, State.ahead]

theorem execIncumbentCommit_goes {s : State} {id} : GoesOn s (execIncumbentCommit id s) := by
  grind [execIncumbentCommit, GoesOn, State.applyOffers_ahead, State.updIncMsg_ahead, State.ahead]

theorem execIncupReply_goes {s : State} {id} : GoesOn s (execIncupReply id s) := by
  grind [execIncupReply, GoesOn, State.deliver_ahead, State.dropIncMsg_ahead, State.ahead]

theorem execIncrdRootReply_goes {s : State} {id} : GoesOn s (execIncrdRootReply id s) := by
  grind [execIncrdRootReply, GoesOn, State.acquireAt_ahead, State.deliver_ahead, State.dropIncMsg_ahead, State.ahead]

theorem execCrierReplicaUpdate_goes {s : State} {job reg onDie place} :
    GoesOn s (execCrierReplicaUpdate job reg onDie place s) := by
  grind [execCrierReplicaUpdate, GoesOn, State.forwarded_ahead, State.stampSweep_ahead, State.ahead]

theorem execCrierForward_goes {s : State} {source reg value payload cycles} :
    GoesOn s (execCrierForward source reg value payload cycles s) := by
  grind [execCrierForward, GoesOn, → State.takenFrom_ahead, State.offer_ahead, State.report_ahead, State.progress_ahead,
    State.ahead]

theorem execWatchdogExpiry_goes {s : State} {sheaf} : GoesOn s (execWatchdogExpiry sheaf s) := by
  grind [execWatchdogExpiry, GoesOn, State.endJob_ahead, State.report_ahead, State.ahead]

theorem execBudgetPeriod_goes {s : State} : GoesOn s (execBudgetPeriod s) := by
  grind [execBudgetPeriod, GoesOn, State.ahead]

theorem execSaveRequest_goes {s : State} {core ctx} : GoesOn s (execSaveRequest core ctx s) := by
  grind [execSaveRequest, GoesOn, State.holdRequest_ahead, State.beginSave_ahead, State.ahead]

theorem execDrainEnd_goes {s : State} {core} : GoesOn s (execDrainEnd core s) := by
  grind [execDrainEnd, GoesOn, State.updCore_ahead, State.endDrain_ahead, foldl_ahead, State.ahead]

theorem execSaveEnd_goes {s : State} {core} : GoesOn s (execSaveEnd core s) := by
  grind [execSaveEnd, GoesOn, State.saveUnit_ahead, State.loadHeld_ahead, State.updCore_ahead, State.dropEnded_ahead, foldl_ahead,
    State.ahead]

theorem execRestore_goes {s : State} {unit core} : GoesOn s (execRestore unit core s) := by
  grind [execRestore, GoesOn, State.holdRequest_ahead, State.tryRestore_ahead, State.ahead]

theorem execContextCreate_goes {s : State} {ctx prio spw ptb pvb pspan hwm eqb eqn budgets} :
    GoesOn s (execContextCreate ctx prio spw ptb pvb pspan hwm eqb eqn budgets s) := by
  grind [execContextCreate, GoesOn, State.ahead]

theorem execContextDestroy_goes {s : State} {ctx} : GoesOn s (execContextDestroy ctx s) := by
  grind [execContextDestroy, GoesOn, State.dropContext_ahead, State.ahead]

theorem execDoorbellWrite_goes {s : State} {offset bytes value} : GoesOn s (execDoorbellWrite offset bytes value s) := by
  grind [execDoorbellWrite, GoesOn, State.updQueue_ahead, State.ahead]

theorem execSubmissionEntry_goes {s : State} {ctx queue incs parts reach tables} :
    GoesOn s (execSubmissionEntry ctx queue incs parts reach tables s) := by
  grind [execSubmissionEntry, GoesOn, State.updQueue_ahead, State.refuseEntry_ahead, State.beginPhase_ahead, State.endPhase_ahead,
    State.createNode_ahead, State.ahead]

theorem execPhaseEndCompletion_goes {s : State} {phase} : GoesOn s (execPhaseEndCompletion phase s) := by
  grind [execPhaseEndCompletion, GoesOn, State.store_ahead, State.progress_ahead, State.updPhase_ahead, State.ahead]

theorem execHostHdmAccess_goes {s : State} {addr write data} : GoesOn s (execHostHdmAccess addr write data s) := by
  refine goesOn_next ?_
  split
  · split
    · exact State.writeFrom_ahead
    · rfl
  · split
    · rfl
    · exact State.verifyLines_ahead (s := s)

theorem execPeerRequest_goes {s : State} {src seq job offset op size x y} :
    GoesOn s (execPeerRequest src seq job offset op size x y s) := by
  grind [execPeerRequest, GoesOn, State.dropReply_ahead, State.peerDo_ahead, State.progress_ahead, State.ahead]

theorem execRouteRecompute_goes {s : State} {link loss} : GoesOn s (execRouteRecompute link loss s) := by
  grind [execRouteRecompute, GoesOn, State.linkChanged_ahead, State.updJob_ahead, State.reroute_ahead, foldl_ahead, State.ahead]

theorem execLinkRetrain_goes {s : State} {link a1 b1 a2 b2} : GoesOn s (execLinkRetrain link a1 b1 a2 b2 s) := by
  grind [execLinkRetrain, GoesOn, State.linkChanged_ahead, State.ahead]

theorem execCapabilityPublish_goes {s : State} {peer mask exports} : GoesOn s (execCapabilityPublish peer mask exports s) := by
  grind [execCapabilityPublish, GoesOn, State.ahead]

theorem execPeerUnreachable_goes {s : State} {peer} : GoesOn s (execPeerUnreachable peer s) := by
  grind [execPeerUnreachable, GoesOn, State.loseReplies_ahead, foldl_ahead, State.ahead]

theorem execRemoteStoreFailure_goes {s : State} {id cause} : GoesOn s (execRemoteStoreFailure id cause s) := by
  grind [execRemoteStoreFailure, GoesOn, State.report_ahead, State.ahead]

theorem execRdmaCompletion_goes {s : State} {id data} : GoesOn s (execRdmaCompletion id data s) := by
  grind [execRdmaCompletion, GoesOn, State.endCopy_ahead, State.chargeMove_ahead, State.updEntry_ahead, State.putOutput_ahead,
    State.ahead]

theorem execDvfSetPoint_goes {s : State} {die value} : GoesOn s (execDvfSetPoint die value s) := by
  grind [execDvfSetPoint, GoesOn, State.setDie_ahead, State.ahead]

theorem execDvfGate_goes {s : State} {die value} : GoesOn s (execDvfGate die value s) := by
  grind [execDvfGate, GoesOn, State.setDie_ahead, State.ahead]

theorem execDvfWake_goes {s : State} {die value} : GoesOn s (execDvfWake die value s) := by
  grind [execDvfWake, GoesOn, State.setDie_ahead, State.ahead]

theorem execPointChangeDone_goes {s : State} {die} : GoesOn s (execPointChangeDone die s) := by
  grind [execPointChangeDone, GoesOn, State.setDie_ahead, State.ahead]

theorem execGatingDone_goes {s : State} {die} : GoesOn s (execGatingDone die s) := by
  grind [execGatingDone, GoesOn, State.wipeDie_ahead, State.setDie_ahead, State.ahead]

theorem execWakeDone_goes {s : State} {die} : GoesOn s (execWakeDone die s) := by
  grind [execWakeDone, GoesOn, State.wipeDie_ahead, State.setDie_ahead, State.ahead]

theorem execThermalThrottle_goes {s : State} {die} : GoesOn s (execThermalThrottle die s) := by
  grind [execThermalThrottle, GoesOn, State.setDie_ahead, State.ahead]

theorem execThrottleRelease_goes {s : State} {die} : GoesOn s (execThrottleRelease die s) := by
  grind [execThrottleRelease, GoesOn, State.setDie_ahead, State.ahead]

theorem execScrubPass_goes {s : State} {line kind} : GoesOn s (execScrubPass line kind s) := by
  grind [execScrubPass, GoesOn, State.upset_ahead, State.rowError_ahead, State.askMove_ahead, State.setPoison_ahead, State.ahead]

theorem execHbmRowRetire_goes {s : State} {row} : GoesOn s (execHbmRowRetire row s) := by
  grind [execHbmRowRetire, GoesOn, State.ahead]

theorem execCoreFailure_goes {s : State} {core} : GoesOn s (execCoreFailure core s) := by
  grind [execCoreFailure, GoesOn, State.holdRequest_ahead, State.beginSave_ahead, State.updCore_ahead, foldl_ahead, State.ahead]

theorem execRepairRecordWrite_goes {s : State} {fails rows seq edSig mlSig} :
    GoesOn s (execRepairRecordWrite fails rows seq edSig mlSig s) := by
  grind [execRepairRecordWrite, GoesOn, State.ahead]

theorem execGetVersion_goes {s : State} : GoesOn s (execGetVersion s) := by
  grind [execGetVersion, GoesOn, State.answer_ahead, State.ahead]

theorem execGetCapabilities_goes {s : State} : GoesOn s (execGetCapabilities s) := by
  grind [execGetCapabilities, GoesOn, State.answer_ahead, State.ahead]

theorem execNegotiateAlgorithms_goes {s : State} {hash sig dhe aead} :
    GoesOn s (execNegotiateAlgorithms hash sig dhe aead s) := by
  grind [execNegotiateAlgorithms, GoesOn, State.answer_ahead, State.ahead]

theorem execGetDigests_goes {s : State} : GoesOn s (execGetDigests s) := by
  grind [execGetDigests, GoesOn, State.answer_ahead, State.ahead]

theorem execGetCertificate_goes {s : State} {slot} : GoesOn s (execGetCertificate slot s) := by
  grind [execGetCertificate, GoesOn, State.answer_ahead, State.ahead]

theorem execChallenge_goes {s : State} {nonce} : GoesOn s (execChallenge nonce s) := by
  grind [execChallenge, GoesOn, State.answer_ahead, State.ahead]

theorem execGetMeasurements_goes {s : State} {index nonce} : GoesOn s (execGetMeasurements index nonce s) := by
  grind [execGetMeasurements, GoesOn, State.answer_ahead, State.ahead]

theorem execKeyExchange_goes {s : State} {pub} : GoesOn s (execKeyExchange pub s) := by
  grind [execKeyExchange, GoesOn, State.answer_ahead, State.ahead]

theorem execFinish_goes {s : State} {verify} : GoesOn s (execFinish verify s) := by
  grind [execFinish, GoesOn, State.answer_ahead, State.ahead]

theorem execEndSession_goes {s : State} : GoesOn s (execEndSession s) := by
  grind [execEndSession, GoesOn, State.answer_ahead, State.ahead]

theorem execRegisterWrite_goes {s : State} {reg value} : GoesOn s (execRegisterWrite reg value s) := by
  grind [execRegisterWrite, GoesOn, State.updContext_ahead, State.updCore_ahead, State.setMatrixField_ahead, State.rehome_ahead,
    State.ahead]

theorem execRecordReachableAgain_goes {s : State} {rec} : GoesOn s (execRecordReachableAgain rec s) := by
  grind [execRecordReachableAgain, GoesOn, → State.lowerOpen_ahead, foldl_ahead, State.ahead]

theorem execSubmissionQueueCreate_goes {s : State} {ctx queue base logSize} :
    GoesOn s (execSubmissionQueueCreate ctx queue base logSize s) := by
  grind [execSubmissionQueueCreate, GoesOn, State.ahead]

theorem execQueuePairCreate_goes {s : State} {ctx qpn} : GoesOn s (execQueuePairCreate ctx qpn s) := by
  grind [execQueuePairCreate, GoesOn, State.updContext_ahead, State.ahead]

theorem execMatrixRecordRegistration_goes {s : State} {rec budget policy} :
    GoesOn s (execMatrixRecordRegistration rec budget policy s) := by
  grind [execMatrixRecordRegistration, GoesOn, State.updCensus_ahead, State.ahead]

theorem execColdChangeReport_goes {s : State} {rec smap mlist rows} : GoesOn s (execColdChangeReport rec smap mlist rows s) := by
  grind [execColdChangeReport, GoesOn, State.relist_ahead, State.putCensus_ahead, State.ahead]

theorem execCongestionNotificationPacket_goes {s : State} {port} : GoesOn s (execCongestionNotificationPacket port s) := by
  grind [execCongestionNotificationPacket, GoesOn, State.ahead]

theorem execNak_goes {s : State} {id answer} : GoesOn s (execNak id answer s) := by
  grind [execNak, GoesOn, State.endCopy_ahead, State.putOutput_ahead, State.ahead]

theorem execReplyHoldExpiry_goes {s : State} {src seq} : GoesOn s (execReplyHoldExpiry src seq s) := by
  grind [execReplyHoldExpiry, GoesOn, State.dropReply_ahead, State.ahead]

/-- An event goes on, and but for two keeps what is ahead. -/
theorem exec_goesOn {i : Instr} {s : State} (h : encode i = none) (hr : i ≠ .moduleReset)
    (hq : ∀ core quad, i ≠ .quadrantCycle core quad) : GoesOn s (exec i s) := by
  cases i with
  | moduleReset => exact absurd rfl hr
  | quadrantCycle core quad => exact absurd rfl (hq core quad)
  | sched | limm | xmod | eret | exit | rdx | wrx | movsRd | movsWr | rdclkCyc | rdclkNs | iadd | isub | iaddi | imul
  | imulh | imad | imin | imax | and | or | xor | andn | shl | shr | sar | shi | bfe | bfi | popc | clz | ctz | brev
  | bswap | mov | lea | idot4 | imadw | fadd | fsub | fmul | ffma | fmin | fmax | fabs | fneg | fnabs | fcls | fdot2
  | frnd | fscl | rcp | rsq | sqrt | ex2 | lg2 | sin | cos | tanh | cvti | cvtf | cvtb | cvts | qblk | pack | unpk
  | icmp | fcmp | sel | plop | pmovP | pmovV | pmovM | pmovS | icmpi | shfl | voteAll | voteAny | voteBallot | voteUni
  | red | scanl | conf | bcast | bra | call | ret | join | joinM | loop | endl | lwait | brx | ld | st | ldv | stv
  | stq | prf | lds | qrd | qwr | atom | cas | atomf | atst | mclaim | mrel | mbind | mma | mmas | mmab | amovRd
  | amovWr | azero | acvt | qmv | rjoin | copy | gather | sbind | stream | streamPost | hwaitFree | hwaitFull | hrel
  | hstat | scfg | scan | csend | crecv | cbar | grow | spawn | qpush | qpop | cwait | cancel | incup | incrd | bndset
  | bndcfg | fence | bar | qfence => cases h
  | bootImageLoad => exact execBootImageLoad_goes
  | recoveryImageDoe => exact execRecoveryImageDoe_goes
  | trapEntry => exact execTrapEntry_goes
  | yParkEnd => exact execYParkEnd_goes
  | loadReply => exact execLoadReply_goes
  | storeTranslated => exact execStoreTranslated_goes
  | tlbWalk => exact execTlbWalk_goes
  | tlbInvalidation => exact execTlbInvalidation_goes
  | faultService => exact execFaultService_goes
  | driverAnswer => exact execDriverAnswer_goes
  | replayLimit => exact execReplayLimit_goes
  | streamElementFetch => exact execStreamElementFetch_goes
  | copyStart => exact execCopyStart_goes
  | copyComplete => exact execCopyComplete_goes
  | copySlowPath => exact execCopySlowPath_goes
  | ringChunkStart => exact execRingChunkStart_goes
  | qfencePass => exact execQfencePass_goes
  | mbindStart => exact execMbindStart_goes
  | mrelStart => exact execMrelStart_goes
  | millOpStart => exact execMillOpStart_goes
  | millOpRetire => exact execMillOpRetire_goes
  | qmvStart => exact execQmvStart_goes
  | quernRow => exact execQuernRow_goes
  | rjoinStart => exact execRjoinStart_goes
  | fallowSweepEnd => exact execFallowSweepEnd_goes
  | censusRanking => exact execCensusRanking_goes
  | migrationCommand => exact execMigrationCommand_goes
  | migrationCopy => exact execMigrationCopy_goes
  | migrationInstant => exact execMigrationInstant_goes
  | scanStart => exact execScanStart_goes
  | scanPerformed => exact execScanPerformed_goes
  | csendStart => exact execCsendStart_goes
  | carryPlaced => exact execCarryPlaced_goes
  | crecvTake => exact execCrecvTake_goes
  | roundComplete => exact execRoundComplete_goes
  | spawnArrival => exact execSpawnArrival_goes
  | unitAdmission => exact execUnitAdmission_goes
  | unitComplete => exact execUnitComplete_goes
  | nodeComplete => exact execNodeComplete_goes
  | remoteEnqueueReceive => exact execRemoteEnqueueReceive_goes
  | remoteEnqueueAck => exact execRemoteEnqueueAck_goes
  | jobCompletionSweep => exact execJobCompletionSweep_goes
  | jobEnd => exact execJobEnd_goes
  | queueWordAtHome => exact execQueueWordAtHome_goes
  | popDelivery => exact execPopDelivery_goes
  | barrierComplete => exact execBarrierComplete_goes
  | cwaitRelease => exact execCwaitRelease_goes
  | incumbentCommit => exact execIncumbentCommit_goes
  | incupReply => exact execIncupReply_goes
  | incrdRootReply => exact execIncrdRootReply_goes
  | crierReplicaUpdate => exact execCrierReplicaUpdate_goes
  | crierForward => exact execCrierForward_goes
  | watchdogExpiry => exact execWatchdogExpiry_goes
  | budgetPeriod => exact execBudgetPeriod_goes
  | saveRequest => exact execSaveRequest_goes
  | drainEnd => exact execDrainEnd_goes
  | saveEnd => exact execSaveEnd_goes
  | restore => exact execRestore_goes
  | contextCreate => exact execContextCreate_goes
  | contextDestroy => exact execContextDestroy_goes
  | doorbellWrite => exact execDoorbellWrite_goes
  | submissionEntry => exact execSubmissionEntry_goes
  | phaseEndCompletion => exact execPhaseEndCompletion_goes
  | hostHdmAccess => exact execHostHdmAccess_goes
  | peerRequest => exact execPeerRequest_goes
  | routeRecompute => exact execRouteRecompute_goes
  | linkRetrain => exact execLinkRetrain_goes
  | capabilityPublish => exact execCapabilityPublish_goes
  | peerUnreachable => exact execPeerUnreachable_goes
  | remoteStoreFailure => exact execRemoteStoreFailure_goes
  | rdmaCompletion => exact execRdmaCompletion_goes
  | dvfSetPoint => exact execDvfSetPoint_goes
  | dvfGate => exact execDvfGate_goes
  | dvfWake => exact execDvfWake_goes
  | pointChangeDone => exact execPointChangeDone_goes
  | gatingDone => exact execGatingDone_goes
  | wakeDone => exact execWakeDone_goes
  | thermalThrottle => exact execThermalThrottle_goes
  | throttleRelease => exact execThrottleRelease_goes
  | scrubPass => exact execScrubPass_goes
  | hbmRowRetire => exact execHbmRowRetire_goes
  | coreFailure => exact execCoreFailure_goes
  | repairRecordWrite => exact execRepairRecordWrite_goes
  | getVersion => exact execGetVersion_goes
  | getCapabilities => exact execGetCapabilities_goes
  | negotiateAlgorithms => exact execNegotiateAlgorithms_goes
  | getDigests => exact execGetDigests_goes
  | getCertificate => exact execGetCertificate_goes
  | challenge => exact execChallenge_goes
  | getMeasurements => exact execGetMeasurements_goes
  | keyExchange => exact execKeyExchange_goes
  | finish => exact execFinish_goes
  | endSession => exact execEndSession_goes
  | registerWrite => exact execRegisterWrite_goes
  | recordReachableAgain => exact execRecordReachableAgain_goes
  | submissionQueueCreate => exact execSubmissionQueueCreate_goes
  | queuePairCreate => exact execQueuePairCreate_goes
  | matrixRecordRegistration => exact execMatrixRecordRegistration_goes
  | coldChangeReport => exact execColdChangeReport_goes
  | congestionNotificationPacket => exact execCongestionNotificationPacket_goes
  | nak => exact execNak_goes
  | replyHoldExpiry => exact execReplyHoldExpiry_goes

end Sys2Proof.Machine
end

section
/-!
PROOFS. No step stops (O59): every execution keeps the agenda, an event always goes on, and a word does where the latch
has put its position at issue.
-/
namespace Sys2Proof.Machine
open Sys2Proof.Claims

variable {s t u : State} {i : Instr}

/-! ### Choosing positions changes the latch alone of what is ahead -/

theorem State.agenda_of_ahead (h : t.ahead = s.ahead) : t.agenda = s.agenda := congrArg Prod.fst h

theorem State.latch_of_ahead (h : t.ahead = s.ahead) : t.latch = s.latch := congrArg Prod.snd h

theorem State.chooseSheaf_agenda {core quad : Nat} {skip} {l : List Nat} :
    (s.chooseSheaf core quad skip l).agenda = s.agenda := by
  induction l generalizing s with
  | nil => rfl
  | cons id rest ih =>
    unfold State.chooseSheaf
    split
    · exact ih
    · dsimp only
      split
      · exact ih.trans (State.agenda_of_ahead State.setSheaf_ahead)
      · simp

theorem State.chooseAgain_agenda {l : Latch} {r : Trial} {m : Mask} : (s.chooseAgain l r m).agenda = s.agenda := by
  unfold State.chooseAgain
  split
  · rfl
  · refine State.chooseSheaf_agenda.trans ?_
    simp

/-- The work of a quadrant before it chooses leaves what is ahead. -/
theorem State.quadrantRun_chooses {core quad : Nat} :
    ∃ u : State, u.ahead = s.ahead ∧ s.quadrantRun core quad = u.chooseSheaf core quad [] (s.quadSheaves core quad) := by
  refine ⟨_, (foldl_ahead fun t id => ?_).trans (foldl_ahead fun t id => State.cullSheaf_ahead), rfl⟩
  dsimp only
  split
  · exact State.fireTimers_ahead
  · exact State.serveRegions_ahead.trans (State.askFetch_ahead.trans (State.releaseTraps_ahead.trans
      (State.releaseLwait_ahead.trans State.fireTimers_ahead)))

theorem State.quadrantRun_agenda {core quad : Nat} : (s.quadrantRun core quad).agenda = s.agenda := by
  obtain ⟨u, hu, h⟩ := State.quadrantRun_chooses (s := s) (core := core) (quad := quad)
  exact h ▸ State.chooseSheaf_agenda.trans (State.agenda_of_ahead hu)

theorem execQuadrantCycle_agenda {core quad : Nat} (h : execQuadrantCycle core quad s = .next t) : t.agenda = s.agenda := by
  cases h
  extract_lets k passed s1 s2
  split
  · rfl
  · have hs : s2.agenda = s.agenda := by
      simp only [s2, s1]
      split
      · exact State.agenda_of_ahead (State.pollAll_ahead.trans State.tick_ahead)
      · rfl
    split
    · exact State.quadrantRun_agenda.trans hs
    · exact hs

/-! ### Every execution keeps the agenda, and an event always goes on -/

theorem exec_agenda (h : exec i s = .next t) : t.agenda = s.agenda := by
  cases he : encode i with
  | some w =>
    have := exec_keeps (s := s) (by rw [he]; rfl : (encode i).isSome = true)
    rw [h] at this
    exact State.agenda_of_ahead this
  | none =>
    by_cases hr : i = .moduleReset
    · subst hr
      cases h
      rfl
    by_cases hq : ∃ core quad, i = .quadrantCycle core quad
    · obtain ⟨core, quad, rfl⟩ := hq
      exact execQuadrantCycle_agenda h
    have := exec_goesOn (s := s) he hr fun core quad e => hq ⟨core, quad, e⟩
    rw [h] at this
    exact State.agenda_of_ahead this

theorem exec_next_of_event (he : encode i = none) : ∃ t, exec i s = .next t := by
  by_cases hr : i = .moduleReset
  · subst hr
    exact ⟨_, rfl⟩
  by_cases hq : ∃ core quad, i = .quadrantCycle core quad
  · obtain ⟨core, quad, rfl⟩ := hq
    exact ⟨_, rfl⟩
  have := exec_goesOn (s := s) he hr fun core quad e => hq ⟨core, quad, e⟩
  revert this
  cases exec i s with
  | next t => exact fun _ => ⟨t, rfl⟩
  | fault | refused => exact False.elim

/-! ### A word of a latched position goes on -/

/-- A position of a sheaf that stands has been chosen. -/
def State.Issues (s : State) : Prop := ∃ c, s.cur = some c ∧ (s.sheaf c.sheaf).isSome = true

theorem State.Issues.issuing (h : s.Issues) (i : Instr) : s.issuing i ≠ none := by
  obtain ⟨c, hc, hf⟩ := h
  obtain ⟨f, hf⟩ := Option.isSome_iff_exists.1 hf
  unfold State.issuing
  rw [hc]
  dsimp only
  rw [hf]
  dsimp only
  split <;> exact fun h => nomatch h

theorem issueWord_next {eff : Ctx → State → Eff} (h : s.issuing i ≠ none) : ∃ t, issueWord i s eff = .next t := by
  unfold issueWord
  split
  · next e => exact absurd e h
  · exact ⟨_, rfl⟩
  · exact ⟨_, rfl⟩

theorem issueHint_next {take : LaneSt → Option LaneSt} (h : s.issuing i ≠ none) : ∃ t, issueHint i s take = .next t := by
  unfold issueHint
  split
  · next e => exact absurd e h
  · exact ⟨_, rfl⟩
  · split <;> exact ⟨_, rfl⟩

theorem exec_next_of_issues (h : s.Issues) : ∃ t, exec i s = .next t := by
  cases he : encode i with
  | none => exact exec_next_of_event he
  | some w =>
    by_cases hn : opIsHint (shape i 0 false).op = true
    · cases i with
      | sched | limm | xmod =>
        unfold exec
        exact issueHint_next (h.issuing _)
      | _ => cases hn
    · obtain ⟨eff, hx⟩ := exec_issued (s := s) (form := 0) (limm := false) (by rw [he]; rfl) (eq_false_of_ne_true hn)
      rw [hx]
      exact issueWord_next (h.issuing i)

/-! ### What the latch answers -/

/-- The answer of the latch keeps the agenda, and a word of it goes on. -/
def Front.Sound (s : State) : Front → Prop
  | .idle => True
  | .went t => t.agenda = s.agenda
  | .issue _ t => t.agenda = s.agenda ∧ t.Issues

theorem Front.Sound.congr {r : Front} (h : t.agenda = s.agenda) (hr : r.Sound t) : r.Sound s := by
  cases r with
  | idle => trivial
  | went u => exact Eq.trans hr h
  | issue i u => exact ⟨hr.1.trans h, hr.2⟩

theorem State.frontWord_sound {l : Latch} {m : Mask} : (s.frontWord l m).Sound s := by
  unfold State.frontWord
  split
  · exact rfl
  · next f hf =>
    extract_lets lanes
    split
    · exact rfl
    · split
      · exact State.agenda_of_ahead State.fetchFault_ahead
      · split
        · exact ⟨rfl, _, rfl, Option.isSome_iff_exists.2 ⟨f, hf⟩⟩
        · split
          · exact State.agenda_of_ahead State.badXmod_ahead
          · exact State.agenda_of_ahead State.rawIssue_ahead

theorem State.frontTail_sound {l : Latch} {m : Mask} {endl : DWord} : (s.frontTail l m endl).Sound s := by
  unfold State.frontTail
  extract_lets after s1
  split
  · exact rfl
  · next f hf =>
    extract_lets lanes
    split
    · exact rfl
    · split
      · exact rfl
      · split
        · exact ⟨rfl, _, rfl, Option.isSome_iff_exists.2 ⟨f, hf⟩⟩
        · exact rfl

theorem State.notReady_agenda {l : Latch} {m : Mask} (h : s.notReady l m = some u) : u.agenda = s.agenda := by
  unfold State.notReady at h
  extract_lets s0 held at h
  have hs : (s0.frontWord l m).Sound s := State.frontWord_sound.congr (State.agenda_of_ahead State.updSheaf_ahead)
  revert h hs
  cases s0.frontWord l m with
  | idle => exact fun h => nomatch h
  | went t =>
    intro h hs
    dsimp only at h
    split at h
    · cases h
      exact hs
    · cases h
  | issue i t =>
    intro h hs
    dsimp only at h
    split at h
    · next t' ht =>
      split at h
      · cases h
        exact (exec_agenda ht).trans hs.1
      · cases h
    · cases h

theorem State.tryLatch_agenda {l : Latch} {r : Trial} : (s.tryLatch l r).agenda = s.agenda := by
  unfold State.tryLatch
  split
  · next m u h =>
    obtain ⟨m', -, h⟩ := List.exists_of_findSome?_eq_some h
    obtain ⟨u', hu, h⟩ := Option.map_eq_some_iff.1 h
    cases h
    exact State.chooseAgain_agenda.trans (State.notReady_agenda hu)
  · rfl

theorem State.front_sound : s.front.Sound s := by
  unfold State.front
  split
  · trivial
  · split
    · exact State.tryLatch_agenda
    · split
      · exact State.frontTail_sound
      · split
        · exact rfl
        · extract_lets tail
          exact State.frontWord_sound.congr rfl

/-! ### The next event of the model's own order -/

theorem exec_nextEvent_next : ∃ t, exec s.nextEvent s = .next t := by
  unfold State.nextEvent
  cases h : (candidates s).find? fun i => changes s (exec i s) with
  | none => exact exec_next_of_event rfl
  | some i =>
    have hi := List.find?_some h
    revert hi
    dsimp only [Option.getD_some]
    cases exec i s with
    | next t => exact fun _ => ⟨t, rfl⟩
    | fault | refused => exact fun h => nomatch h

/-- Settles O59: by what the latch answers, and by what the events that the outside world or the model's own order brings do. -/
theorem stepNeverStops : Obligations.StepNeverStops := by
  unfold Obligations.StepNeverStops
  intro s h
  have ok {t : State} (ht : t.agenda = s.agenda) : OnlyEvents t := fun i hi => h i (ht ▸ hi)
  have hs := State.front_sound (s := s)
  cases hf : s.front with
  | went t =>
    rw [hf] at hs
    exact ⟨t, step_of_front_went hf, ok hs⟩
  | issue i t =>
    rw [hf] at hs
    obtain ⟨u, hu⟩ := exec_next_of_issues (i := i) hs.2
    exact ⟨u, (step_of_front_issue hf).trans hu, ok ((exec_agenda hu).trans hs.1)⟩
  | idle =>
    unfold step
    rw [hf]
    dsimp only
    cases ha : s.agenda with
    | nil =>
      obtain ⟨t, ht⟩ := exec_nextEvent_next (s := { s with cur := none, agenda := [] })
      exact ⟨t, ht, ok ((exec_agenda ht).trans ha.symm)⟩
    | cons e rest =>
      obtain ⟨t, ht⟩ := exec_next_of_event (s := { s with cur := none, agenda := rest }) (h e (ha ▸ List.mem_cons_self ..))
      refine ⟨t, ht, fun i hi => h i ?_⟩
      rw [exec_agenda ht] at hi
      exact ha ▸ List.mem_cons_of_mem e hi

end Sys2Proof.Machine
end

section
/-!
PROOFS. Quadrant cycles (O47): what a choice of positions latches, what a tick does to a die, and when the cycle comes.
-/
namespace Sys2Proof.Machine
open Sys2Proof.Claims

variable {s t : State} {f g : Sheaf} {m : Mask}

/-! ### What may be chosen -/

/-- What a choice of positions looks at and leaves as it is. -/
def Sheaf.stand (f : Sheaf) : Option Park × Option TrapRec × Bool × (Nat → Life × Hold) :=
  (f.park, f.trap, f.stopped, fun l => ((f.lane l).life, (f.lane l).hold))

/-- A position may issue: its sheaf neither parks nor enters a trap nor is stopped, and its lanes are live and held by nothing. -/
def Sheaf.Issuable (f : Sheaf) (m : Mask) : Prop :=
  f.park = none ∧ f.trap = none ∧ f.stopped = false
    ∧ ∀ j, j < 32 → m.getLsbD j = true → (f.lane j).life = .live ∧ (f.lane j).hold = .none

theorem Sheaf.Issuable.congr (h : g.stand = f.stand) (hf : f.Issuable m) : g.Issuable m := by
  obtain ⟨hp, ht, hs, hl⟩ := hf
  simp only [Sheaf.stand, Prod.mk.injEq, funext_iff] at h
  obtain ⟨ep, et, es, el⟩ := h
  refine ⟨ep.trans hp, et.trans ht, es.trans hs, fun j hj hm => ?_⟩
  obtain ⟨e1, e2⟩ := el j
  exact ⟨e1.trans (hl j hj hm).1, e2.trans (hl j hj hm).2⟩

theorem Sheaf.updLanes_stand {u : Nat → LaneSt → LaneSt} (h : ∀ l x, (u l x).life = x.life ∧ (u l x).hold = x.hold) :
    (f.updLanes m u).stand = f.stand := by
  have hl (l : Nat) : (((f.updLanes m u).lane l).life, ((f.updLanes m u).lane l).hold) = ((f.lane l).life, (f.lane l).hold) := by
    rw [Sheaf.lane_updLanes]
    split
    · exact Prod.ext (h l _).1 (h l _).2
    · rfl
  unfold Sheaf.stand
  rw [funext hl, Sheaf.updLanes_eq]

theorem Sheaf.markJoins_stand {ps : List Ready} : (f.markJoins ps).stand = f.stand := Sheaf.updLanes_stand fun _ _ => ⟨rfl, rfl⟩

theorem Sheaf.countPasses_stand {ps chosen : List Ready} : (f.countPasses ps chosen).stand = f.stand := by
  unfold Sheaf.countPasses
  refine foldl_keeps Sheaf.stand _ (fun acc p => ?_) ps f
  exact Sheaf.updLanes_stand fun _ _ => ⟨rfl, rfl⟩

/-- The lanes of every mask of a list are free. -/
def Sheaf.AllFree (f : Sheaf) (ms : List Mask) : Prop := ∀ m ∈ ms, ∀ j, m.getLsbD j = true → f.free j = true

theorem Sheaf.allFree_positions {e : Nat → Bool} : f.AllFree (f.positions e) := by
  unfold Sheaf.positions
  suffices ∀ acc, f.AllFree acc → f.AllFree (laneList.foldl _ acc) from this [] fun _ h => nomatch h
  induction laneList with
  | nil => exact fun _ h => h
  | cons k l ih =>
    refine fun acc h => ih _ ?_
    dsimp only
    split
    · exact h
    · intro m hm j hj
      obtain hm | hm := List.mem_append.1 hm
      · exact h m hm j hj
      · rw [List.mem_singleton.1 hm, getLsbD_laneMask] at hj
        simp only [Bool.and_eq_true] at hj
        exact hj.2.1

theorem State.ready_lanes {id : Nat} {r : Ready} (h : s.ready id f m = some r) : r.lanes = m := by
  grind [State.ready]

theorem State.issuable_of_mem_readyList {id : Nat} {r : Ready} (h : r ∈ s.readyList id f) : f.Issuable r.lanes := by
  unfold State.readyList at h
  split at h
  · cases h
  · next hn =>
    simp only [Bool.or_eq_true, not_or, Bool.not_eq_true, Option.isSome_eq_false_iff, Option.isNone_iff_eq_none] at hn
    obtain ⟨⟨hp, ht⟩, hs⟩ := hn
    obtain ⟨m, hm, hr⟩ := List.mem_filterMap.1 h
    refine ⟨hp, ht, hs, fun j _ hj => ?_⟩
    rw [State.ready_lanes hr] at hj
    have := Sheaf.allFree_positions m hm j hj
    simp only [Sheaf.free, Bool.and_eq_true, beq_iff_eq] at this
    exact this.1

/-- Judging a sheaf leaves its standing, and every position judged may issue. -/
theorem State.judge_spec {id n : Nat} : (s.judge id n f).2.stand = f.stand ∧ ∀ r ∈ (s.judge id n f).1, f.Issuable r.lanes := by
  induction n generalizing f with
  | zero => exact ⟨rfl, fun _ => State.issuable_of_mem_readyList⟩
  | succ n ih =>
    unfold State.judge
    extract_lets ps g
    split
    · exact ⟨Sheaf.markJoins_stand, fun _ => State.issuable_of_mem_readyList⟩
    · exact ⟨ih.1.trans Sheaf.markJoins_stand, fun r hr => (ih.2 r hr).congr Sheaf.markJoins_stand.symm⟩

/-! ### Choosing -/

theorem mem_of_bestBy {before : Ready → Ready → Bool} {l : List Ready} {r : Ready} (h : bestBy before l = some r) : r ∈ l := by
  suffices ∀ (l : List Ready) (b : Option Ready), (l.foldl (fun best r => match best with
      | none => some r
      | some b => if before r b then some r else best) b) = some r → r ∈ l ∨ b = some r from
    (this l none h).elim id fun e => nomatch e
  intro l
  induction l with
  | nil => exact fun _ h => .inr h
  | cons a l ih =>
    intro b h
    obtain h | h := ih _ h
    · exact .inl (List.mem_cons_of_mem a h)
    · grind

/-- At most two positions are chosen, all of those judged. -/
theorem Sheaf.choose_spec {ps : List Ready} : (f.choose ps).length ≤ 2 ∧ ∀ r ∈ f.choose ps, r ∈ ps := by
  unfold Sheaf.choose
  split
  · exact ⟨by simp, by simp⟩
  · next a ha =>
    have ha := (List.mem_filter.1 (mem_of_bestBy ha)).1
    extract_lets others forced second
    have hs {b} (h : second = some b) : b ∈ ps := by
      simp only [second] at h
      split at h
      · exact (List.mem_filter.1 (List.mem_filter.1 (mem_of_bestBy h)).1).1
      · exact (List.mem_filter.1 (List.mem_filter.1 (mem_of_bestBy h)).1).1
    clear_value second
    cases second with
    | none => exact ⟨by simp, by simpa using ha⟩
    | some b =>
      have hb := hs rfl
      dsimp only
      split
      · split
        · exact ⟨by simp, by simpa using ha⟩
        · exact ⟨by simp, by simpa using hb⟩
      · exact ⟨by simp, by simpa using ⟨ha, hb⟩⟩

/-- One or two positions of a sheaf as it stands are latched, and each may issue. -/
def Latch.Chosen (l : Latch) (s : State) : Prop :=
  1 ≤ l.positions.length ∧ l.positions.length ≤ 2 ∧ s.sheaf l.sheaf = some l.view ∧ ∀ m ∈ l.positions, l.view.Issuable m

theorem State.chooseSheaf_chosen {core quad : Nat} {skip} {ids : List Nat} (hs : s.latch = none) {l : Latch}
    (h : (s.chooseSheaf core quad skip ids).latch = some l) : l.Chosen (s.chooseSheaf core quad skip ids) := by
  induction ids generalizing s with
  | nil => exact nomatch hs ▸ h
  | cons id rest ih =>
    unfold State.chooseSheaf at h ⊢
    split at h
    · exact ih hs h
    · next f0 _ =>
      have hj := State.judge_spec (s := s) (id := id) (n := 4) (f := f0)
      revert hj h
      obtain ⟨all, f⟩ := s.judge id 4 f0
      intro h hj
      dsimp only at h hj ⊢
      obtain ⟨hlen, hsub⟩ := Sheaf.choose_spec (f := f) (ps := all.filter fun p => !skip.contains (id, p.lanes))
      revert h hlen hsub
      generalize f.choose (all.filter fun p => !skip.contains (id, p.lanes)) = chosen
      intro h hlen hsub
      cases chosen with
      | nil => exact ih ((State.latch_of_ahead State.setSheaf_ahead).trans hs) h
      | cons a rest =>
        dsimp only at h ⊢
        cases h
        refine ⟨by simp, by simpa using hlen, ?_, fun m hm => ?_⟩
        · exact State.sheaf_setSheaf_self
        · obtain ⟨r, hr, rfl⟩ := List.mem_map.1 hm
          exact (hj.2 r (List.mem_filter.1 (hsub r hr)).1).congr (Sheaf.countPasses_stand.trans hj.1)

/-! ### The tick -/

theorem State.stepMills_time : (s.stepMills.ticks, s.stepMills.dies) = (s.ticks, s.dies) := by
  unfold State.stepMills
  refine foldl_keeps (fun t : State => (t.ticks, t.dies)) _ (fun t e => ?_) s.entries s
  dsimp only
  split
  · split <;> rfl
  · rfl

theorem State.tick_ticks : s.tick.ticks = s.ticks + 1 := congrArg Prod.fst State.stepMills_time

theorem State.die_tick {d : Nat} (hd : d < 4) : s.tick.die d = (s.die d).tick := by
  unfold State.die State.tick
  extract_lets dies t
  rw [show t.stepMills.dies = dies from congrArg Prod.snd State.stepMills_time]
  unfold dies
  have : d = 0 ∨ d = 1 ∨ d = 2 ∨ d = 3 := by omega
  simp only [Config.dies, List.range_succ, List.range_zero, List.nil_append, List.cons_append, List.foldl_cons, List.foldl_nil,
    Store.modify, Store.get_set]
  rcases this with rfl | rfl | rfl | rfl <;> simp

theorem Die.tick_eq (x : Die) : x.tick =
    if x.dvs.toNat / 2 ^ 30 = 2 then { x with running := false }
    else if 2900 ≤ x.acc + min x.clock (x.throttle.getD x.clock) then
      { x with acc := x.acc + min x.clock (x.throttle.getD x.clock) - 2900, cycle := x.cycle + 1, running := true }
    else { x with acc := x.acc + min x.clock (x.throttle.getD x.clock), running := false } := by
  have h : x.state = x.dvs.toNat / 2 ^ 30 := by
    unfold Die.state
    rw [BitVec.extractLsb'_toNat, Nat.shiftRight_eq_div_pow]
    exact Nat.mod_eq_of_lt (by omega)
  unfold Die.tick
  rw [h]
  rfl

/-! ### The cycle -/

/-- The quadrants whose turn a cycle passes over. -/
theorem mem_quadrantsBetween {a k n : Nat}
    (h : n ∈ if a ≤ k then (List.range (k - a)).map (a + ·) else (List.range (768 - a)).map (a + ·) ++ List.range k) :
    if a ≤ k then a ≤ n ∧ n < k else n < k ∨ (a ≤ n ∧ n < 768) := by
  have hr {b : Nat} (h : n ∈ (List.range (b - a)).map (a + ·)) : a ≤ n ∧ n < b := by
    obtain ⟨i, hi, rfl⟩ := List.mem_map.1 h
    rw [List.mem_range] at hi
    exact ⟨Nat.le_add_right a i, by omega⟩
  split at h
  · next hk =>
    rw [if_pos hk]
    exact hr h
  · next hk =>
    rw [if_neg hk]
    obtain h | h := List.mem_append.1 h
    · exact .inr (hr h)
    · exact .inl (List.mem_range.1 h)

/-- A quadrant's cycle comes when the quadrants between are idle. -/
theorem execQuadrantCycle_eq {core quad : Nat} (hc : core < 192) (hq : quad < 4) (hl : s.latch = none)
    (h : ∀ n, (if s.turn ≤ 4 * core + quad then s.turn ≤ n ∧ n < 4 * core + quad
        else n < 4 * core + quad ∨ (s.turn ≤ n ∧ n < 768)) →
      s.quadIdle (n / 4) (n % 4) = true) :
    execQuadrantCycle core quad s = .next (
      let b : State := { (if 4 * core + quad < s.turn then s.tick.pollAll else s) with turn := 4 * core + quad + 1 }
      if (b.die (dieOf core)).running = true then b.quadrantRun core quad else b) := by
  unfold execQuadrantCycle
  refine congrArg Host.Outcome.next (if_neg ?_)
  have hk : quadTotal = 768 := rfl
  rw [hk, hl]
  rintro (h4 | hk | hl | hany)
  · omega
  · omega
  · cases hl
  · obtain ⟨n, hn, hi⟩ := List.any_eq_true.1 hany
    simp [h n (mem_quadrantsBetween hn)] at hi

/-- Before it chooses, a quadrant's cycle leaves the latch as it is. -/
theorem State.cycle_latch {k : Nat} :
    ({ (if k < s.turn then s.tick.pollAll else s) with turn := k + 1 } : State).latch = s.latch := by
  dsimp only
  split
  · exact State.latch_of_ahead (State.pollAll_ahead.trans State.tick_ahead)
  · rfl

theorem execQuadrantCycle_chosen {core quad : Nat} (hl : s.latch = none) (h : execQuadrantCycle core quad s = .next t) {l : Latch}
    (ht : t.latch = some l) : l.Chosen t := by
  cases h
  revert ht
  extract_lets k passed s1 s2
  intro ht
  have h2 : s2.latch = none := State.cycle_latch.trans hl
  clear_value s2
  split at ht
  · cases hl.symm.trans ht
  · next hp =>
    rw [if_neg hp]
    split at ht
    · next hr =>
      rw [if_pos hr]
      obtain ⟨u, hu, e⟩ := State.quadrantRun_chooses (s := s2) (core := core) (quad := quad)
      rw [e] at ht ⊢
      exact State.chooseSheaf_chosen ((State.latch_of_ahead hu).trans h2) ht
    · cases h2.symm.trans ht

/-- Settles O47: by the tick's effect on each die, and by what a choice of positions latches. -/
theorem quadrantCycles : Obligations.QuadrantCycles := by
  unfold Obligations.QuadrantCycles
  intro s core quad hc hq hl
  refine ⟨fun h => execQuadrantCycle_eq hc hq hl h, State.tick_ticks, fun d hd => (State.die_tick hd).trans (Die.tick_eq _),
    fun t ht l h => ?_⟩
  obtain ⟨h1, h2, hs, hi⟩ := execQuadrantCycle_chosen hl ht h
  obtain ⟨m, hm⟩ := List.exists_mem_of_length_pos h1
  obtain ⟨hp, htr, hst, -⟩ := hi m hm
  exact ⟨h1, h2, hs, hp, htr, hst, fun m hm => (hi m hm).2.2.2⟩

end Sys2Proof.Machine
end

section
/-!
PROOFS. Lane-crossing words (O11): the active lanes of a bunch, the lane that a shuffle reads and the running value of a scan are those of
the statement, and each word writes what it makes of them.
-/
namespace Sys2Proof.Machine
open Sys2Proof.Claims

/-! ### Lanes of a bunch (R147, R148) -/

section
variable (c : Ctx) (l : Nat)

theorem Ctx.base_eq : c.base l = c.bunch * (l / c.bunch) := Nat.mul_comm ..

theorem Ctx.bunchLanes_eq : c.bunchLanes l = (List.range c.bunch).map fun k => c.bunch * (l / c.bunch) + k := by
  rw [Ctx.bunchLanes, Ctx.base_eq]

theorem Ctx.peers_eq_mates : c.peers l = mates c l := by rw [Ctx.peers, Ctx.bunchLanes_eq, mates]

/-- The place of a lane in its bunch. -/
theorem Ctx.sub_base : l - c.base l = l % c.bunch := by
  have := Nat.div_add_mod l c.bunch
  rw [Ctx.base_eq]
  omega

theorem Ctx.shuffleLane_eq_source (b : BitVec 7) : c.shuffleLane b l = source c (c.b32 b l) l := by
  unfold Ctx.shuffleLane source
  generalize c.form % 4 = kind
  match kind with
  | 0 => exact congrArg (fun n => n + (c.b32 b l).toNat % c.bunch) (c.base_eq l)
  | 1 => exact if_congr (by rw [Ctx.sub_base]) rfl rfl
  | 2 => exact if_congr (by rw [Ctx.sub_base]) rfl rfl
  | _ + 3 => exact congrArg₂ (fun n i => n + Nat.xor i ((c.b32 b l).toNat % c.bunch)) (c.base_eq l) (c.sub_base l)

theorem Ctx.alive_iff : c.alive l = true ↔ (c.f.lane l).life = .live := beq_iff_eq

end

/-! ### Poison that lanes supply (R101) -/

/-- No lane that is read supplies poison. -/
theorem Ctx.suppliedPoison_eq_none {c : Ctx} {lanes : List Nat} {field n : Nat}
    (h : ∀ l ∈ lanes, ∀ k < n, c.poisonIn (field + k) l = none) : c.suppliedPoison lanes field n = none := by
  refine List.findSome?_eq_none_iff.2 fun l hl => List.findSome?_eq_none_iff.2 fun k hk => ?_
  exact h l hl k (List.mem_range.1 hk)

/-! ### Running values (R150, R151) -/

section
variable (c : Ctx) (a : BitVec 7) (o t : BitVec 3)

/-- The values of lanes, combined one after the other. -/
theorem Ctx.running_eq_chained (lanes : List Nat) :
    (c.running a o t lanes).getD (redIdentity o.toNat t.toNat) = chained c o t (lanes.map fun k => c.redRead a t k) := by
  have after (x : DWord) (ks : List Nat) :
      (ks.foldl (fun acc l => match acc with
        | none => some (c.redRead a t l)
        | some x => some (redOp c.f.rm o.toNat t.toNat x (c.redRead a t l))) (some x))
      = some ((ks.map fun k => c.redRead a t k).foldl (redOp c.f.rm o.toNat t.toNat) x) := by
    induction ks generalizing x with
    | nil => rfl
    | cons k ks ih => exact ih _
  cases lanes with
  | nil => rfl
  | cons k ks => exact congrArg (fun v => Option.getD v _) (after (c.redRead a t k) ks)

end

/-! ### Words -/

theorem wideType_iff {t : BitVec 3} : wideType t = true ↔ t = 3 ∨ t = 4 := by
  simp only [wideType, Bool.or_eq_true, beq_iff_eq]

section
variable {y : Bool} {g p q o t : BitVec 3} {d a b : BitVec 7} {x : Bool} {s : State} {c : Ctx}

/-- A result of a type goes to one register or to a pair (R150). -/
theorem Runs.writes_crossed {i : Instr} (r : Runs i s c) {G : Ctx → Nat → DWord}
    (hx : exec i s = issueWord i s fun c u => .done (u.redWrite c d t (G c))) :
    Completes i s c c.after (Writes c 6 d (if t = 3 ∨ t = 4 then 2 else 1) fun l => crossWords t (G c l)) := by
  unfold crossWords
  by_cases h : t = 3 ∨ t = 4
  · simp only [if_pos h]
    exact r.writes_result64 hx (by simp only [State.redWrite, if_pos (wideType_iff.2 h)])
  · simp only [if_neg h]
    exact r.writes_result hx (by simp only [State.redWrite, if_neg (mt wideType_iff.1 h)])

/-- A shuffle that meets no poison gives each active lane its source's value, or 0 where the source does not live (R148). -/
theorem Runs.shfl_completes (r : Runs (.shfl y g d a b) s c)
    (hp : ∀ l, c.act.getLsbD l = true → l < 32 → ∀ k, k < (if 4 ≤ c.form then 2 else 1) →
      (c.f.lane (source c (c.b32 b l) l)).life = .live → c.poisonIn (a.toNat + k) (source c (c.b32 b l) l) = none) :
    Completes (.shfl y g d a b) s c c.after (Writes c 6 d (if 4 ≤ c.form then 2 else 1) fun l =>
      let from_ := source c (c.b32 b l) l
      if (c.f.lane from_).life = .live then (if 4 ≤ c.form then pair (c.r64 a from_) else [c.r32 a from_])
      else if 4 ≤ c.form then pair 0 else [0]) := by
  have hn : c.suppliedPoison ((c.actLanes.map fun l => source c (c.b32 b l) l).filter c.alive) a.toNat (if 4 ≤ c.form then 2 else 1)
      = none := by
    refine Ctx.suppliedPoison_eq_none fun k hk j hj => ?_
    obtain ⟨hk, ha⟩ := List.mem_filter.1 hk
    obtain ⟨l, hl, rfl⟩ := List.mem_map.1 hk
    obtain ⟨h32, hact⟩ := mem_maskLanes.1 hl
    exact hp l hact h32 j hj ((c.alive_iff _).1 ha)
  by_cases h : 4 ≤ c.form
  · simp only [if_pos h] at hn ⊢
    refine Completes.writes_congr (r.writes_result64 (execShfl.eq_1 ..) (G := fun l =>
      if c.alive (source c (c.b32 b l) l) then c.r64 a (source c (c.b32 b l) l) else 0) ?_) fun l => ?_
    · simp only [Ctx.shuffleLane_eq_source, decide_eq_true h, if_true, hn]
    · simp only [Ctx.alive_iff]
      exact apply_ite pair ..
  · simp only [if_neg h] at hn ⊢
    refine Completes.writes_congr (r.writes_result (execShfl.eq_1 ..) (G := fun l =>
      if c.alive (source c (c.b32 b l) l) then c.r32 a (source c (c.b32 b l) l) else 0) ?_) fun l => ?_
    · simp only [Ctx.shuffleLane_eq_source, decide_eq_false h, Bool.false_eq_true, if_false, hn]
    · simp only [Ctx.alive_iff]
      exact apply_ite (fun w : Word => [w]) ..

theorem Runs.voteAll_completes (r : Runs (.voteAll y g p q) s c) :
    Completes (.voteAll y g p q) s c c.after (WritesPred c 6 p fun l => (mates c l).all fun k => c.pred q k) := by
  simpa only [Ctx.peers_eq_mates] using r.pred (execVoteAll.eq_1 ..)

theorem Runs.voteAny_completes (r : Runs (.voteAny y g p q) s c) :
    Completes (.voteAny y g p q) s c c.after (WritesPred c 6 p fun l => (mates c l).any fun k => c.pred q k) := by
  simpa only [Ctx.peers_eq_mates] using r.pred (execVoteAny.eq_1 ..)

theorem Runs.voteUni_completes (r : Runs (.voteUni y g p a) s c) :
    Completes (.voteUni y g p a) s c c.after (WritesPred c 6 p fun l => (mates c l).all fun k => c.r32 a k == c.r32 a l) := by
  simpa only [Ctx.peers_eq_mates] using r.pred (execVoteUni.eq_1 ..)

theorem Runs.voteBallot_completes (r : Runs (.voteBallot y g d q) s c) :
    Completes (.voteBallot y g d q) s c c.after
      (Writes c 6 d 1 fun l => [bitsWhere fun k => decide (k ∈ mates c l) && c.pred q k]) := by
  simpa only [Ctx.peers_eq_mates, List.contains_eq_mem, bitsWhere] using r.lane32 (execVoteBallot.eq_1 ..)

theorem Runs.red_completes (r : Runs (.red y g d a o t) s c) :
    Completes (.red y g d a o t) s c c.after (Writes c 6 d (if t = 3 ∨ t = 4 then 2 else 1) fun l =>
      crossWords t (reduced c o t (((List.range c.bunch).map fun k => c.bunch * (l / c.bunch) + k).map fun k =>
        if c.act.getLsbD k = true then some (c.redRead a t k) else none))) := by
  simpa only [Ctx.bunchLanes_eq, reduced] using r.writes_crossed (execRed.eq_1 ..)

theorem Runs.scanl_completes (r : Runs (.scanl y g d a o x t) s c) :
    Completes (.scanl y g d a o x t) s c c.after (Writes c 6 d (if t = 3 ∨ t = 4 then 2 else 1) fun l =>
      crossWords t (chained c o t
        (((mates c l).filter fun k => if x then decide (k < l) else decide (k ≤ l)).map fun k => c.redRead a t k))) := by
  simpa only [Ctx.peers_eq_mates, Ctx.running_eq_chained] using r.writes_crossed (execScanl.eq_1 ..)

theorem Runs.conf_completes (r : Runs (.conf y g d a) s c) :
    Completes (.conf y g d a) s c c.after (Writes c 6 d 1 fun l => [bitsWhere fun k => decide (k ∈ mates c l) && decide (k < l)
      && (if c.form = 2 then c.r64 a k == c.r64 a l else c.r32 a k == c.r32 a l)]) := by
  simpa only [Ctx.peers_eq_mates, List.contains_eq_mem, bitsWhere] using r.lane32 (execConf.eq_1 ..)

theorem Runs.bcast_completes (r : Runs (.bcast y g d a) s c) :
    Completes (.bcast y g d a) s c c.after (Writes c 6 d (wideRegs c) fun l =>
      let first := (mates c l).headD l
      if c.form = 2 then pair (c.r64 a first) else [c.r32 a first]) := by
  simpa only [Ctx.peers_eq_mates, pairAt, beq_iff_eq, wideRegs, pair] using r.laneForm (execBcast.eq_1 ..)

end

/-- Settles O11: word by word, each by the lemma that says what it writes. -/
theorem laneCrossing : Obligations.LaneCrossing := by
  unfold Obligations.LaneCrossing
  exact fun y g p q o t d a b x => ⟨fun _ _ => Runs.shfl_completes, fun _ _ => Runs.voteAll_completes, fun _ _ => Runs.voteAny_completes,
    fun _ _ => Runs.voteBallot_completes, fun _ _ => Runs.voteUni_completes, fun _ _ => Runs.red_completes,
    fun _ _ => Runs.scanl_completes, fun _ _ => Runs.conf_completes, fun _ _ => Runs.bcast_completes⟩

end Sys2Proof.Machine
end

section
/-!
PROOFS. Registers by number (O13): which numbers name a register, and what becomes of the registers that the active lanes of a `WRX` name.
-/
namespace Sys2Proof.Machine
open Sys2Proof.Claims

/-! ### Numbers (R158) -/

/-- A number names no register exactly where the statement refuses it. -/
theorem numbered_isNone_eq_false {c : Ctx} {n : Word} {write : Bool} :
    (numbered c.unit.lrec.nv n write).isNone = false ↔ numberOk c write n = true := by
  unfold numbered numberOk
  rw [Bool.and_eq_true, Bool.or_eq_true, Bool.not_eq_true', decide_eq_true_eq, decide_eq_true_eq]
  dsimp only
  split_ifs with h128 h104 hnv hw
  · exact iff_of_false (by simp) (by omega)
  · exact iff_of_true rfl ⟨by omega, .inr (by omega)⟩
  · exact iff_of_false (by simp) (by omega)
  · rw [Bool.and_eq_true, decide_eq_true_eq] at hw
    exact iff_of_false (by simp) (by simp [hw])
  · refine iff_of_true rfl ⟨by omega, ?_⟩
    cases write
    · exact .inl rfl
    · exact .inr (Nat.not_lt.1 (by simpa using hw))

/-! ### A fold that sets what is read at one of its steps at most -/

theorem get_foldl_of_single {σ α β : Type} [DecidableEq α] (get : σ → β) (step : σ → α → σ) (m : α) (v : β) (p : Prop) [Decidable p]
    (ks : List α) (h : ∀ s, ∀ k ∈ ks, get (step s k) = if k = m ∧ p then v else get s) (s : σ) :
    get (ks.foldl step s) = if m ∈ ks ∧ p then v else get s := by
  induction ks generalizing s with
  | nil => simp
  | cons k ks ih =>
    rw [List.foldl_cons, ih (fun s j hj => h s j (List.mem_cons_of_mem _ hj)), h s k List.mem_cons_self]
    by_cases hp : p
    · by_cases hk : k = m
      · simp [hp, hk]
      · simp [hp, hk, Ne.symm hk]
    · simp [hp]

/-- Changes of one sheaf, one after the other. -/
theorem State.foldl_updSheaf {α : Type} {id : Nat} (u : α → Sheaf → Sheaf) (ks : List α) {s : State} {f : Sheaf} (h : s.sheaf id = some f) :
    InSheaf s (ks.foldl (fun acc k => acc.updSheaf id (u k)) s) id
      ∧ (ks.foldl (fun acc k => acc.updSheaf id (u k)) s).sheaf id = some (ks.foldl (fun acc k => u k acc) f) := by
  induction ks generalizing s f with
  | nil => exact ⟨.refl .., h⟩
  | cons k ks ih =>
    obtain ⟨hi, hs⟩ := ih (State.sheaf_updSheaf h (u k))
    exact ⟨(State.updSheaf_in ..).trans hi, hs⟩

/-! ### A field written in one lane -/

section
variable {f : Sheaf} {now lat n l : Nat} {x : Word}

theorem Sheaf.writeV_v : (f.writeV now lat n l x).v = f.v.set (vKey n l) x := by unfold Sheaf.writeV Sheaf.setV; rw [Sheaf.note_eq]
theorem Sheaf.writeV_u : (f.writeV now lat n l x).u = f.u := by unfold Sheaf.writeV Sheaf.setV; rw [Sheaf.note_eq]
theorem Sheaf.writeV_p : (f.writeV now lat n l x).p = f.p := by unfold Sheaf.writeV Sheaf.setV; rw [Sheaf.note_eq]

theorem Sheaf.writeField_thread (h : n < 104) : f.writeField now lat n [(l, x)] = f.writeV now lat n l x := if_pos h
theorem Sheaf.writeField_uniform (h : 104 ≤ n) (hn : n < 120) : f.writeField now lat n [(l, x)] = f.writeU now lat (n - 104) x := by
  rw [Sheaf.writeField, if_neg (by omega), if_pos hn]
theorem Sheaf.writeField_nowhere (h : 120 ≤ n) : f.writeField now lat n [(l, x)] = f := by
  rw [Sheaf.writeField, if_neg (by omega), if_neg (by omega)]

theorem Sheaf.writeField_lane_v {r k : Nat} (hl : l < 32) (hr : r < 104) (hk : k < 32) :
    (f.writeField now lat n [(l, x)]).v.get (vKey r k) = if l = k ∧ n = r then x else f.v.get (vKey r k) := by
  by_cases hv : n < 104
  · rw [Sheaf.writeField_thread hv, Sheaf.writeV_v, Store.get_set]
    refine if_congr ((vKey_inj hk hl).trans ?_) rfl rfl
    omega
  · rw [if_neg (show ¬ (l = k ∧ n = r) from fun e => hv (e.2 ▸ hr))]
    by_cases hu : n < 120
    · rw [Sheaf.writeField_uniform (by omega) hu, Sheaf.writeU_v]
    · rw [Sheaf.writeField_nowhere (by omega)]

theorem Sheaf.writeField_lane_u {k : Nat} (hk : k < 16) :
    (f.writeField now lat n [(l, x)]).u.get k = if n = 104 + k then x else f.u.get k := by
  by_cases hv : n < 104
  · rw [Sheaf.writeField_thread hv, Sheaf.writeV_u, if_neg (by omega)]
  · by_cases hu : n < 120
    · rw [Sheaf.writeField_uniform (by omega) hu, Sheaf.get_writeU]
      exact if_congr (by omega) rfl rfl
    · rw [Sheaf.writeField_nowhere (by omega), if_neg (by omega)]

theorem Sheaf.writeField_lane_p : (f.writeField now lat n [(l, x)]).p = f.p := by
  by_cases hv : n < 104
  · rw [Sheaf.writeField_thread hv, Sheaf.writeV_p]
  · by_cases hu : n < 120
    · rw [Sheaf.writeField_uniform (by omega) hu, Sheaf.writeU_p]
    · rw [Sheaf.writeField_nowhere (by omega)]

end

/-! ### The lanes of a `WRX` -/

/-- The active lanes that write: of those that name one uniform register, the lowest (R158). -/
def Ctx.writers (c : Ctx) (a : BitVec 7) : List Nat :=
  c.actLanes.filter fun l => decide ((c.r32 a l).toNat < 104) || c.actLanes.all fun k => decide (l ≤ k) || c.r32 a k != c.r32 a l

/-- A sheaf once the lanes that write have done so. -/
def Sheaf.writeNumbered (f : Sheaf) (c : Ctx) (a b : BitVec 7) : Sheaf :=
  (c.writers a).foldl (fun acc l => acc.writeField c.now 4 (c.r32 a l).toNat [(l, c.b32 b l)]) f

section
variable {c : Ctx} {a b : BitVec 7} {f : Sheaf}

theorem Ctx.lt_of_mem_writers {l : Nat} (h : l ∈ c.writers a) : l < 32 := (mem_maskLanes.1 (List.mem_of_mem_filter h)).1

theorem Ctx.mem_writers_of_thread {l : Nat} (h : (c.r32 a l).toNat < 104) : l ∈ c.writers a ↔ l < 32 ∧ c.act.getLsbD l = true := by
  unfold Ctx.writers Ctx.actLanes
  rw [List.mem_filter, mem_maskLanes, decide_eq_true h, Bool.true_or]
  exact and_iff_left rfl

/-- The lane that writes a uniform register is the lowest active one that names it. -/
theorem Ctx.mem_writers_uniform {k m : Nat} (hm : (c.actLanes.filter fun l => (c.r32 a l).toNat == 104 + k).head? = some m) :
    m ∈ c.writers a ∧ (c.r32 a m).toNat = 104 + k ∧ ∀ l ∈ c.writers a, (c.r32 a l).toNat = 104 + k → l = m := by
  obtain ⟨rest, hr⟩ := List.head?_eq_some_iff.1 hm
  have hmem (l : Nat) : l ∈ m :: rest ↔ l ∈ c.actLanes ∧ (c.r32 a l).toNat = 104 + k := by rw [← hr, List.mem_filter, beq_iff_eq]
  obtain ⟨hact, hnum⟩ := (hmem m).1 List.mem_cons_self
  have hlow (l : Nat) (hl : l ∈ c.actLanes) (hn : (c.r32 a l).toNat = 104 + k) : m ≤ l := by
    have hs : (m :: rest).Pairwise (· < ·) := hr ▸ (List.pairwise_lt_range.filter _).filter _
    rcases List.mem_cons.1 ((hmem l).2 ⟨hl, hn⟩) with h | h
    · exact h.ge
    · exact (List.rel_of_pairwise_cons hs h).le
  refine ⟨List.mem_filter.2 ⟨hact, ?_⟩, hnum, fun l hl hn => ?_⟩
  · refine Bool.or_eq_true_iff.2 (.inr (List.all_eq_true.2 fun j hj => ?_))
    by_cases e : c.r32 a j = c.r32 a m
    · rw [decide_eq_true (hlow j hj (e ▸ hnum)), Bool.true_or]
    · rw [bne_iff_ne.2 e, Bool.or_true]
  · obtain ⟨hl, hw⟩ := List.mem_filter.1 hl
    have hle : l ≤ m := by
      rcases Bool.or_eq_true_iff.1 hw with h | h
      · have := of_decide_eq_true h
        omega
      · have := List.all_eq_true.1 h m hact
        rwa [BitVec.eq_of_toNat_eq (hnum.trans hn.symm), bne_self_eq_false, Bool.or_false, decide_eq_true_eq] at this
    exact Nat.le_antisymm hle (hlow l hl hn)

theorem Sheaf.writeNumbered_v {r l : Nat} (hr : r < 104) (hl : l < 32) : (f.writeNumbered c a b).v.get (vKey r l) =
    if c.act.getLsbD l = true ∧ (c.r32 a l).toNat = r then c.b32 b l else f.v.get (vKey r l) := by
  refine (get_foldl_of_single (fun g : Sheaf => g.v.get (vKey r l)) _ l (c.b32 b l) ((c.r32 a l).toNat = r) _ (fun g k hk => ?_) f).trans ?_
  · rw [Sheaf.writeField_lane_v (Ctx.lt_of_mem_writers hk) hr hl]
    by_cases h : k = l
    · subst h; rfl
    · simp only [h, false_and, if_false]
  · refine if_congr (and_congr_left fun h => ?_) rfl rfl
    rw [Ctx.mem_writers_of_thread (h ▸ hr), and_iff_right hl]

theorem Sheaf.writeNumbered_u {k : Nat} (hk : k < 16) : (f.writeNumbered c a b).u.get k =
    match (c.actLanes.filter fun l => (c.r32 a l).toNat == 104 + k).head? with
    | some l => c.b32 b l
    | none => f.u.get k := by
  have single (m : Nat) (h : ∀ l ∈ c.writers a, (c.r32 a l).toNat = 104 + k → l = m) : (f.writeNumbered c a b).u.get k =
      if m ∈ c.writers a ∧ (c.r32 a m).toNat = 104 + k then c.b32 b m else f.u.get k := by
    refine get_foldl_of_single (fun g : Sheaf => g.u.get k) _ m (c.b32 b m) _ _ (fun g l hl => ?_) f
    rw [Sheaf.writeField_lane_u hk]
    by_cases hn : (c.r32 a l).toNat = 104 + k
    · obtain rfl := h l hl hn
      rw [if_pos hn, if_pos ⟨rfl, hn⟩]
    · rw [if_neg hn, if_neg (show ¬ (l = m ∧ _) from fun e => hn (e.1 ▸ e.2))]
  split
  · next m hm =>
    obtain ⟨hw, hn, hone⟩ := Ctx.mem_writers_uniform hm
    rw [single m hone, if_pos ⟨hw, hn⟩]
  · next hm =>
    have hno : ∀ l ∈ c.writers a, (c.r32 a l).toNat ≠ 104 + k := fun l hl => by
      simpa using List.filter_eq_nil_iff.1 (List.head?_eq_none_iff.1 hm) l (List.mem_of_mem_filter hl)
    rw [single 0 fun l hl hn => absurd hn (hno l hl), if_neg fun e => hno 0 e.1 e.2]

theorem Sheaf.writeNumbered_p : (f.writeNumbered c a b).p = f.p :=
  foldl_keeps Sheaf.p _ (fun _ _ => Sheaf.writeField_lane_p) _ _

theorem Sheaf.writeNumbered_regs : f.RegsOnly (f.writeNumbered c a b) :=
  Sheaf.fold_regs _ (fun g _ => g.writeField_regs ..) _ _

end

/-! ### Words -/

section
variable {y : Bool} {g : BitVec 3} {d a b : BitVec 7} {s : State} {c : Ctx}

/-- Every active lane's number names a register, or the word is refused. -/
theorem Ctx.numbers_ok_iff {write : Bool} :
    (c.actLanes.any fun l => (numbered c.unit.lrec.nv (c.r32 a l) write).isNone) = false
      ↔ ∀ l, c.act.getLsbD l = true → numberOk c write (c.r32 a l) = true :=
  Ctx.any_actLanes_eq_false fun _ => numbered_isNone_eq_false

theorem Runs.rdx_completes (r : Runs (.rdx y g d a) s c) (h : ∀ l, c.act.getLsbD l = true → numberOk c false (c.r32 a l) = true)
    (hp : ∀ l, c.act.getLsbD l = true → c.poisonIn (c.r32 a l).toNat l = none) :
    Completes (.rdx y g d a) s c c.after (Writes c 4 d 1 fun l => [c.reg (c.r32 a l).toNat l]) := by
  have hn : (c.actLanes.findSome? fun l => c.poisonIn (c.r32 a l).toNat l) = none :=
    List.findSome?_eq_none_iff.2 fun l hl => hp l (mem_maskLanes.1 hl).2
  exact r.writes_result (execRdx.eq_1 ..) (by rw [Ctx.numbers_ok_iff.2 h, hn]; rfl)

theorem Runs.rdx_emulates (r : Runs (.rdx y g d a) s c) (h : ¬ ∀ l, c.act.getLsbD l = true → numberOk c false (c.r32 a l) = true) :
    exec (.rdx y g d a) s = .next (s.emulWord c) :=
  r.emulates (execRdx.eq_1 ..) (if_pos (Bool.of_not_eq_false (mt Ctx.numbers_ok_iff.1 h)))

theorem Runs.wrx_completes (r : Runs (.wrx y g a b) s c) (h : ∀ l, c.act.getLsbD l = true → numberOk c true (c.r32 a l) = true) :
    Completes (.wrx y g a b) s c c.after fun f z =>
      (∀ r l, r < 104 → l < 32 → z.v.get (vKey r l) =
        if c.act.getLsbD l = true ∧ (c.r32 a l).toNat = r then c.b32 b l else f.v.get (vKey r l))
      ∧ (∀ k, k < 16 → z.u.get k = match (c.actLanes.filter fun l => (c.r32 a l).toNat == 104 + k).head? with
        | some l => c.b32 b l
        | none => f.u.get k)
      ∧ z.p = f.p := by
  obtain ⟨f, hf⟩ := r.committed_sheaf
  obtain ⟨hi, -⟩ := State.foldl_updSheaf (fun l x => x.writeField c.now 4 (c.r32 a l).toNat [(l, c.b32 b l)]) (c.writers a)
    (State.advance_spec hf).2
  refine r.completes (execWrx.eq_1 ..) (F := fun f => f.writeNumbered c a b)
    (by rw [Ctx.numbers_ok_iff.2 h]; rfl) hi (fun x hx => (State.foldl_updSheaf _ _ hx).2) (fun _ => Sheaf.writeNumbered_regs.only)
    (fun x l _ => ?_) fun x w z hx hz => ⟨fun n l hn hl => ?_, fun k hk => ?_, hz.p.trans (Sheaf.writeNumbered_p.trans hx.p)⟩
  · rw [Sheaf.writeNumbered_regs.lane l]
    exact ⟨fun _ h => ⟨h, rfl, rfl, rfl, rfl, rfl, rfl⟩, fun _ => rfl⟩
  · rw [hz.v, Sheaf.writeNumbered_v hn hl, hx.v]
  · rw [hz.u, Sheaf.writeNumbered_u hk, hx.u]

theorem Runs.wrx_emulates (r : Runs (.wrx y g a b) s c) (h : ¬ ∀ l, c.act.getLsbD l = true → numberOk c true (c.r32 a l) = true) :
    exec (.wrx y g a b) s = .next (s.emulWord c) :=
  r.emulates (execWrx.eq_1 ..) (if_pos (Bool.of_not_eq_false (mt Ctx.numbers_ok_iff.1 h)))

end

/-- Settles O13: where every active lane's number names a register the word completes, else it is refused. -/
theorem numberedRegisters : Obligations.NumberedRegisters := by
  unfold Obligations.NumberedRegisters
  exact fun y g d a b s c => ⟨fun r => ⟨r.rdx_completes, r.rdx_emulates⟩, fun r => ⟨r.wrx_completes, r.wrx_emulates⟩⟩

end Sys2Proof.Machine
end

section
/-!
PROOFS. Waits, joins and loops (O15): which lanes an `LWAIT` holds, and the counter and the address at which a loop word leaves its lanes.
-/
namespace Sys2Proof.Machine
open Sys2Proof.Claims

/-! ### Lanes that an effect moves -/

section
variable {i : Instr} {c : Ctx} {sh : Shape} {f y : Sheaf} {m : Mask} {u : LaneSt → LaneSt} {seq l : Nat}

/-- Where an effect changes some of the issuing lanes: what becomes of a changed lane, of another one of the position, and of the rest. -/
theorem Sheaf.concluded_updLanes_lane (hy : ∀ k, y.lane k = (f.advanced c sh).lane k) (hm : ∀ k, m.getLsbD k = true → c.lanes.getLsbD k = true)
    (hsub : ∀ k, c.act.getLsbD k = true → c.lanes.getLsbD k = true) (hl : l < 32) :
    let z := (y.updLanes m fun _ x => u x).concluded seq i c sh
    (m.getLsbD l = true → LaneKept (u (c.advanced sh (f.lane l))) (z.lane l))
      ∧ (m.getLsbD l = false → c.lanes.getLsbD l = true → LaneKept (c.advanced sh (f.lane l)) (z.lane l))
      ∧ (c.lanes.getLsbD l = false → z.lane l = f.lane l) := by
  intro z
  obtain ⟨hk, hn⟩ := Sheaf.concluded_lane (y.updLanes m fun _ x => u x) seq i c sh l
  rw [Sheaf.lane_updLanes, hy, Sheaf.advanced_lane] at hk hn
  refine ⟨fun h => ?_, fun h hc => ?_, fun hc => ?_⟩
  · rwa [if_pos ⟨hl, h⟩, if_pos ⟨hl, hm l h⟩] at hk
  · rwa [if_neg (by simp [h]), if_pos ⟨hl, hc⟩] at hk
  · have hml : ¬ m.getLsbD l = true := fun h => by simp [hm l h] at hc
    have hact : c.act.getLsbD l = false := Bool.eq_false_iff.2 fun h => by simp [hsub l h] at hc
    rw [if_neg fun e => hml e.2, if_neg (by simp [hc])] at hn
    exact hn hc hact

/-- A word that sends its whole position to an address. -/
theorem lanesGo_concluded_jump {target : DWord} (hy : ∀ k, y.lane k = (f.advanced c sh).lane k)
    (hsub : ∀ k, c.act.getLsbD k = true → c.lanes.getLsbD k = true) :
    LanesGo f ((y.updLanes c.lanes fun _ x => { x with pc := target, sched := none }).concluded seq i c sh) c fun _ => target := by
  refine ⟨fun l hl hm => ?_, fun l hl hm => ?_⟩
  · have k := (Sheaf.concluded_updLanes_lane (i := i) (u := fun x => { x with pc := target, sched := none }) (seq := seq) hy
      (fun _ h => h) hsub hl).1 hm
    exact ⟨k.pc, k.limm, k.xmod, k.life, k.handler, k.hold, k.bnd⟩
  · exact (Sheaf.concluded_updLanes_lane hy (fun _ h => h) hsub hl).2.2 hm

end

/-! ### `LWAIT` (R80, R137) -/

theorem Sheaf.laneDone_eq_waitOver (f : Sheaf) (n l : Nat) : f.laneDone n l = waitOver f n l := by
  simp only [Sheaf.laneDone, waitOver, Bool.not_and, bne]

/-- The lanes that an `LWAIT` holds: the active ones whose wait is not over. -/
def Ctx.waiting (c : Ctx) (n : Nat) : Mask := laneMask fun l => c.act.getLsbD l && !waitOver c.f n l

theorem Ctx.getLsbD_waiting {c : Ctx} {n l : Nat} (hl : l < 32) :
    (c.waiting n).getLsbD l = true ↔ c.act.getLsbD l = true ∧ waitOver c.f n l = false := by
  simp only [Ctx.waiting, getLsbD_laneMask, hl, decide_true, Bool.true_and, Bool.and_eq_true, Bool.not_eq_true']

theorem exec_lwait {y : Bool} {g : BitVec 3} {n : BitVec 4} {s : State} : exec (.lwait y g n) s = issueWord (.lwait y g n) s fun c t =>
    .done (t.holdLanes c (c.waiting n.toNat) (.lwait n.toNat)) := by
  show execLwait y g n s = _
  simp only [execLwait, Sheaf.laneDone_eq_waitOver]
  rfl

theorem Runs.lwait_waits {y : Bool} {g : BitVec 3} {n : BitVec 4} {s : State} {c : Ctx} (r : Runs (.lwait y g n) s c) :
    Does (.lwait y g n) s c fun a f t z => OnlySheaf a t c.id c.unit.job ∧ OnlyLanes f z ∧ ∀ l, l < 32 →
      if c.lanes.getLsbD l = false then z.lane l = f.lane l
      else if c.act.getLsbD l = true ∧ waitOver c.f n.toNat l = false then
        (z.lane l).pc = c.pc ∧ (z.lane l).hold = .lwait n.toNat ∧ (z.lane l).life = (f.lane l).life
      else (z.lane l).pc = c.pc + 4 ∧ (z.lane l).hold = (f.lane l).hold ∧ (z.lane l).life = (f.lane l).life := by
  obtain ⟨f, hf⟩ := r.committed_sheaf
  obtain ⟨ha, hs⟩ := State.advance_spec hf
  have hsub := (State.issuing_spec r.issuing).2
  have hw (l : Nat) (h : (c.waiting n.toNat).getLsbD l = true) : c.lanes.getLsbD l = true :=
    hsub l ((Ctx.getLsbD_waiting (BitVec.lt_of_getLsbD h)).1 h).1
  refine ⟨_, f, _, exec_lwait.trans (r.done rfl), hf, State.conclude_sheaf (State.sheaf_updSheaf hs _),
    (ha.trans (State.updSheaf_in ..)).trans (State.conclude_in ..),
    ((f.advanced_quiet ..).trans (Sheaf.updLanes_quiet ..)).trans (Sheaf.concluded_quiet ..), fun l hl => ?_⟩
  obtain ⟨hheld, hgoes, hstays⟩ := Sheaf.concluded_updLanes_lane (i := .lwait y g n)
    (u := fun x => { x with pc := c.pc, hold := .lwait n.toNat }) (fun _ => rfl) hw hsub hl
  split
  · next hm => exact hstays hm
  · next hm =>
    split
    · next h =>
      have k := hheld ((Ctx.getLsbD_waiting hl).2 h)
      exact ⟨k.pc, k.hold, k.life⟩
    · next h =>
      have k := hgoes (Bool.eq_false_iff.2 (mt (Ctx.getLsbD_waiting hl).1 h)) (Bool.of_not_eq_false hm)
      exact ⟨k.pc, k.hold, k.life⟩

/-! ### The lanes that a loop word must hold (R84, R143) -/

theorem Ctx.holdsAll_iff {c : Ctx} : c.f.holdsAll c.lanes = true ↔ holdsAll c := by
  have bit (l : Nat) (hl : l < 32) : (c.f.loopSet &&& ~~~c.lanes).getLsbD l = false ↔
      ((c.f.lane l).life = .live → (c.f.lane l).handler = false → c.lanes.getLsbD l = true) := by
    simp only [Sheaf.loopSet, BitVec.getLsbD_and, getLsbD_laneMask, BitVec.getLsbD_not, hl, decide_true, Bool.true_and]
    cases c.lanes.getLsbD l <;> cases (c.f.lane l).handler <;> simp
  unfold Sheaf.holdsAll holdsAll
  rw [beq_iff_eq]
  refine ⟨fun h l hl => (bit l hl).1 (by rw [h]; exact BitVec.getLsbD_zero), fun h => BitVec.eq_of_getLsbD_eq fun l hl => ?_⟩
  exact ((bit l hl).2 (h l hl)).trans BitVec.getLsbD_zero.symm

/-! ### Beside the sheaf, only resident bodies change (R145) -/

section
variable {c : Ctx} {a t u : State}

theorem onlyLoops_of_onlySheaf (h : OnlySheaf a t c.id c.unit.job) : OnlyLoops c a t := by
  have hc : t.cores = a.cores := by rw [h.rest]
  refine ⟨h.others, h.jobs, fun k => by simp only [State.core, hc], ?_⟩
  rw [hc]
  exact h.rest

theorem onlyLoops_trans (h : OnlyLoops c a t) (k : InSheaf t u c.id) : OnlyLoops c a u := by
  obtain ⟨hs, hj, hc, hr⟩ := h
  have ku := k.rest
  have kj : u.jobs = t.jobs := by rw [ku]
  have kc : u.cores = t.cores := by rw [ku]
  refine ⟨fun n hn => (k.others n hn).trans (hs n hn), fun n => ?_, fun n => ?_, ?_⟩
  · rw [← hj n, State.job, State.job, kj]
  · have e := hc n
    rwa [State.core, ← kc] at e
  · rw [kj, kc]
    rw [hr] at ku
    exact ku

/-- Of each core, the record of resident bodies alone changes as an `ENDL` acts. -/
theorem State.residence_cores (s : State) (id : Nat) (f : Sheaf) (first : Option DWord) (endl : DWord) :
    ∃ cores : Store Core, s.residence id f first endl = { s with cores := cores }
      ∧ ∀ k, cores.get k = { s.core k with loops := (cores.get k).loops } := by
  unfold State.residence
  split
  · exact ⟨s.cores, rfl, fun _ => rfl⟩
  · next core slot _ =>
    refine ⟨_, rfl, fun k => ?_⟩
    rw [Store.get_set]
    split
    · next hk =>
      subst hk
      dsimp only
      split
      · rfl
      · split_ifs <;> rfl
    · rfl

theorem State.residence_sheaf (s : State) (id : Nat) (f : Sheaf) (first : Option DWord) (endl : DWord) (k : Nat) :
    (s.residence id f first endl).sheaf k = s.sheaf k := by
  obtain ⟨cores, e, -⟩ := s.residence_cores id f first endl
  rw [e]
  rfl

theorem onlyLoops_residence (h : OnlyLoops c a t) (id : Nat) (f : Sheaf) (first : Option DWord) (endl : DWord) :
    OnlyLoops c a (t.residence id f first endl) := by
  obtain ⟨hs, hj, hc, hr⟩ := h
  obtain ⟨cores, e, hk⟩ := t.residence_cores id f first endl
  rw [e]
  refine ⟨hs, hj, fun k => (hk k).trans ?_, ?_⟩
  · rw [hc k]
    rfl
  · rw [hr]

end

/-! ### A counter -/

/-- A sheaf that differs from another in lanes and the like, and holds a value in loop counter `n`. -/
structure Sheaf.Counts (f x : Sheaf) (n : Nat) (v : Word) : Prop where
  quiet : Sheaf.Quiet { f with lc := x.lc } x
  lc : ∀ k, x.lc.get k = if k = n then v else f.lc.get k

section
variable {f x z : Sheaf} {n : Nat} {v : Word}

theorem Sheaf.Quiet.lc (h : f.Quiet x) : x.lc = f.lc := by
  unfold Sheaf.Quiet at h
  rw [h]

theorem Sheaf.Quiet.counts (h : f.Quiet x) (hv : f.lc.get n = v) : f.Counts x n v := by
  refine ⟨h.lc ▸ h, fun k => ?_⟩
  rw [h.lc]
  split
  · next hk => rw [hk, hv]
  · rfl

theorem Sheaf.Quiet.setLoop_counts (h : f.Quiet x) : f.Counts (x.setLoop n v) n v := by
  refine ⟨?_, fun k => ?_⟩
  · unfold Sheaf.Quiet at h ⊢
    rw [h]
    rfl
  · rw [Sheaf.setLoop, Store.get_set, h.lc]

theorem Sheaf.Counts.trans (h : f.Counts x n v) (k : x.Quiet z) : f.Counts z n v := by
  have e : z.lc = x.lc := k.lc
  exact ⟨e ▸ h.quiet.trans k, e ▸ h.lc⟩

end

/-! ### Words that count -/

section
variable {i : Instr} {s : State} {c : Ctx} (r : Runs i s c) {eff : Ctx → State → Eff} (hx : exec i s = issueWord i s eff)
  {f x : Sheaf} {u : State} {n : Nat} {v : Word} (hf : (s.committedBy c (c.shapeOf i)).sheaf c.id = some f)
  (hF : eff c (s.advance c (c.shapeOf i)) = .done u) (ho : OnlyLoops c (s.committedBy c (c.shapeOf i)) u)
include r hx hf hF ho

/-- A word whose effect leaves a counter at a value, its lanes going to an address: what every word's end does is no more. -/
theorem Runs.loops {target : DWord} (hu : u.sheaf c.id = some x) (hc : f.Counts x n v)
    (hl : LanesGo f (x.concluded u.fresh i c (c.shapeOf i)) c fun _ => target) : Does i s c (Loops c n v target) := by
  have hz := hc.trans (x.concluded_quiet u.fresh i c (c.shapeOf i))
  exact ⟨_, f, _, hx.trans (r.done hF), hf, State.conclude_sheaf hu, onlyLoops_trans ho (State.conclude_in ..), hz.quiet, hz.lc, hl⟩

/-- The lanes go to the next word. -/
theorem Runs.loops_next (hu : u.sheaf c.id = some x) (hc : f.Counts x n v)
    (hl : ∀ l, x.lane l = (f.advanced c (c.shapeOf i)).lane l) : Does i s c (Loops c n v (c.pc + 4)) :=
  r.loops hx hf hF ho hu hc (lanesGo_concluded (State.issuing_spec r.issuing).2 (fun l => hl l ▸ .refl _) fun l _ => hl l)

/-- The lanes branch. -/
theorem Runs.loops_branch {target : DWord}
    (hu : u.sheaf c.id = some (x.updLanes c.lanes fun _ k => { k with pc := target, sched := none })) (hc : f.Counts x n v)
    (hl : ∀ l, x.lane l = (f.advanced c (c.shapeOf i)).lane l) : Does i s c (Loops c n v target) :=
  r.loops hx hf hF ho hu (hc.trans (Sheaf.updLanes_quiet ..)) (lanesGo_concluded_jump hl (State.issuing_spec r.issuing).2)

end

/-- A word that has issued and set a counter, as its effect goes on. -/
theorem State.setLoop_spec {s : State} {c : Ctx} {sh : Shape} {f : Sheaf} (hf : (s.committedBy c sh).sheaf c.id = some f) (n : Nat)
    (v : Word) :
    OnlySheaf (s.committedBy c sh) ((s.advance c sh).updSheaf c.id fun f => f.setLoop n v) c.id c.unit.job
      ∧ ((s.advance c sh).updSheaf c.id fun f => f.setLoop n v).sheaf c.id = some ((f.advanced c sh).setLoop n v)
      ∧ f.Counts ((f.advanced c sh).setLoop n v) n v :=
  ⟨(State.advance_spec hf).1.trans (State.updSheaf_in ..), State.sheaf_updSheaf (State.advance_spec hf).2 _,
    (f.advanced_quiet c sh).setLoop_counts⟩

/-! ### `LOOP` (R142, R143) -/

section
variable {y : Bool} {n : BitVec 2} {a i : BitVec 7} {s : State} {c : Ctx}

/-- The words that a `LOOP` of count 0 passes over. -/
def Ctx.loopDist (c : Ctx) (i : BitVec 7) : Nat := (c.limm.map BitVec.toNat).getD i.toNat

theorem exec_loop : exec (.loop y n a i) s = issueWord (.loop y n a i) s fun c t =>
    if !c.f.holdsAll c.lanes || c.loopDist i = 0 then .emul
    else .done (if c.low32 a = 0
      then (t.updSheaf c.id fun f => f.setLoop n.toNat (c.low32 a)).branch c c.lanes fun _ => c.pc + BitVec.ofNat 64 (4 * (c.loopDist i + 1))
      else t.updSheaf c.id fun f => f.setLoop n.toNat (c.low32 a)) := by
  show execLoop y n a i s = _
  unfold execLoop Ctx.loopDist
  congr
  funext c t
  cases c.limm <;> rfl

theorem Ctx.loop_refused_iff : (!c.f.holdsAll c.lanes || decide (c.loopDist i = 0)) = false ↔ holdsAll c ∧ c.loopDist i ≠ 0 := by
  rw [Bool.or_eq_false_iff, Bool.not_eq_false', decide_eq_false_iff_not, Ctx.holdsAll_iff]

theorem Runs.loop_emulates (r : Runs (.loop y n a i) s c) (h : ¬ (holdsAll c ∧ c.loopDist i ≠ 0)) :
    exec (.loop y n a i) s = .next (s.emulWord c) :=
  r.emulates exec_loop (if_pos (Bool.of_not_eq_false (mt Ctx.loop_refused_iff.1 h)))

theorem Runs.loop_counts (r : Runs (.loop y n a i) s c) (h : holdsAll c ∧ c.loopDist i ≠ 0) :
    Does (.loop y n a i) s c (Loops c n.toNat (c.low32 a)
      (if c.low32 a = 0 then c.pc + BitVec.ofNat 64 (4 * (c.loopDist i + 1)) else c.pc + 4)) := by
  obtain ⟨f, hf⟩ := r.committed_sheaf
  obtain ⟨ho, hu, hc⟩ := State.setLoop_spec hf n.toNat (c.low32 a)
  have hF {e : Eff} : (if (!c.f.holdsAll c.lanes || decide (c.loopDist i = 0)) = true then .emul else e) = e :=
    if_neg (Bool.eq_false_iff.1 (Ctx.loop_refused_iff.2 h))
  by_cases h0 : c.low32 a = 0
  · rw [if_pos h0]
    exact r.loops_branch exec_loop hf (hF.trans (congrArg Eff.done (if_pos h0)))
      (onlyLoops_of_onlySheaf (ho.trans (State.updSheaf_in ..))) (State.sheaf_updSheaf hu _) hc fun _ => rfl
  · rw [if_neg h0]
    exact r.loops_next exec_loop hf (hF.trans (congrArg Eff.done (if_neg h0))) (onlyLoops_of_onlySheaf ho) hu hc fun _ => rfl

end

/-! ### `ENDL` (R142, R143, R145) -/

section
variable {y : Bool} {n : BitVec 2} {i : BitVec 7} {s : State} {c : Ctx}

theorem Ctx.endl_refused_iff : (!c.f.holdsAll c.lanes || !(c.immOr i).msb) = false ↔ holdsAll c ∧ opImm c i < 0 := by
  rw [Bool.or_eq_false_iff, Bool.not_eq_false', Bool.not_eq_false', BitVec.msb_eq_toInt, decide_eq_true_eq, Ctx.immOr_toInt,
    Ctx.holdsAll_iff]

theorem Runs.endl_emulates (r : Runs (.endl y n i) s c) (h : ¬ (holdsAll c ∧ opImm c i < 0)) :
    exec (.endl y n i) s = .next (s.emulWord c) :=
  r.emulates (execEndl.eq_1 ..) (if_pos (Bool.of_not_eq_false (mt Ctx.endl_refused_iff.1 h)))

theorem Runs.endl_counts (r : Runs (.endl y n i) s c) (h : holdsAll c ∧ opImm c i < 0)
    (hlc : ∀ f, (s.committedBy c (c.shapeOf (.endl y n i))).sheaf c.id = some f → f.lc.get n.toNat = c.f.lc.get n.toNat) :
    Does (.endl y n i) s c (Loops c n.toNat (if c.f.lc.get n.toNat = 0 then 0 else c.f.lc.get n.toNat - 1)
      (if (c.f.lc.get n.toNat).toNat ≤ 1 then c.pc + 4 else toOff c i)) := by
  obtain ⟨f, hf⟩ := r.committed_sheaf
  obtain ⟨ha, hs⟩ := State.advance_spec hf
  obtain ⟨ho, hu, hc⟩ := State.setLoop_spec hf n.toNat (c.f.lc.get n.toNat - 1)
  have hF {e : Eff} : (if (!c.f.holdsAll c.lanes || !(c.immOr i).msb) = true then .emul else e) = e :=
    if_neg (Bool.eq_false_iff.1 (Ctx.endl_refused_iff.2 h))
  have hlast : (c.f.lc.get n.toNat).toNat ≤ 1 ↔ c.f.lc.get n.toNat = 0 ∨ c.f.lc.get n.toNat = 1 := by bv_omega
  by_cases h0 : c.f.lc.get n.toNat = 0
  · rw [if_pos h0, if_pos (hlast.2 (.inl h0))]
    exact r.loops_next (execEndl.eq_1 ..) hf (hF.trans (if_pos h0)) (onlyLoops_residence (onlyLoops_of_onlySheaf ha) ..)
      ((State.residence_sheaf ..).trans hs) ((f.advanced_quiet ..).counts ((hlc f hf).trans h0)) fun _ => rfl
  · rw [if_neg h0]
    by_cases h1 : c.f.lc.get n.toNat = 1
    · rw [if_pos (hlast.2 (.inr h1))]
      exact r.loops_next (execEndl.eq_1 ..) hf (hF.trans ((if_neg h0).trans (if_pos h1)))
        (onlyLoops_residence (onlyLoops_of_onlySheaf ho) ..) ((State.residence_sheaf ..).trans hu) hc fun _ => rfl
    · rw [if_neg fun e => (hlast.1 e).elim h0 h1, ← Ctx.rel_immOr]
      exact r.loops_branch (execEndl.eq_1 ..) hf (hF.trans ((if_neg h0).trans (if_neg h1)))
        (onlyLoops_residence (onlyLoops_of_onlySheaf (ho.trans (State.updSheaf_in ..))) ..)
        ((State.residence_sheaf ..).trans (State.sheaf_updSheaf hu _)) hc fun _ => rfl

end

/-- Settles O15: word by word, each by the lemma that says where it leaves its lanes and its counter. -/
theorem joinsLoopsAndWaits : Obligations.JoinsLoopsAndWaits := by
  unfold Obligations.JoinsLoopsAndWaits
  exact ⟨fun y g n s c => Runs.lwait_waits, fun y g n a i s c => ⟨fun r => r.nothing rfl, fun r => r.nothing rfl,
    fun r => ⟨r.loop_counts, r.loop_emulates⟩, fun r => ⟨r.endl_counts, r.endl_emulates⟩⟩⟩

end Sys2Proof.Machine
end

section
/-!
PROOFS. Handle words (O35): what a commit of stores leaves to the engine words, what a change of one handle reaches, and the outcome of each
word by the state in which it finds its handle.
-/
namespace Sys2Proof.Machine
open Sys2Proof.Claims

/-! ### What a commit of stores leaves to the engine words (R182) -/

/-- A unit without the bytes of its window. -/
def UnitSt.windowless (x : UnitSt) : UnitSt := { x with win := {}, winPoison := {}, winHalf := {} }

/-- The engine entries, the units but for their windows and the cores but for their read caches: with them the handles, wherever they stand. -/
structure EngineView where
  entries : List Entry
  units : Nat → Option UnitSt
  cores : Nat → Core

def State.engineView (s : State) : EngineView :=
  ⟨s.entries, fun u => (s.unit u).map UnitSt.windowless, fun k => { s.core k with cache := [] }⟩

theorem UnitSt.windowless_winStore {x : UnitSt} {cells : List (Nat × Byte)} : (x.winStore cells).windowless = x.windowless := by
  unfold UnitSt.winStore
  exact foldl_keeps UnitSt.windowless _ (fun _ _ => by split <;> rfl) _ _

section
variable {s : State}

theorem State.write_engineView {cells : List (Nat × Byte)} : (s.write cells).engineView = s.engineView := by
  rw [State.write_frame]; rfl

theorem State.charge_engineView {ctx n : Nat} {b : Budget} : (s.charge ctx b n).engineView = s.engineView := by
  rw [State.charge_frame]; rfl

theorem State.updSheaf_engineView {id : Nat} {g : Sheaf → Sheaf} : (s.updSheaf id g).engineView = s.engineView := by
  rw [State.updSheaf_rest]; rfl

theorem State.progress_engineView {j : Nat} : (s.progress j).engineView = s.engineView := by
  rw [State.progress_rest]; rfl

theorem State.l2Keep_engineView {d key cp : Nat} : (s.l2Keep d key cp).engineView = s.engineView := rfl

theorem State.l2Only_engineView {key : Nat} : (s.l2Only key).engineView = s.engineView :=
  foldl_keeps State.engineView _ (fun _ _ => by split <;> rfl) _ _

theorem State.dropLines_engineView {core : Nat} {keys : List Nat} : (s.dropLines core keys).engineView = s.engineView := by
  refine congrArg (EngineView.mk _ _) (funext fun k => ?_)
  dsimp only [State.dropLines, State.updCore]
  rw [State.core_setCore]
  split
  · next hk => rw [hk]
  · rfl

/-- A change of a unit's window alone. -/
theorem State.updUnit_engineView {u : Nat} {g : UnitSt → UnitSt} (hg : ∀ x, (g x).windowless = x.windowless) :
    (s.updUnit u g).engineView = s.engineView := by
  have hunits : (fun k => ((s.updUnit u g).unit k).map UnitSt.windowless) = fun k => (s.unit k).map UnitSt.windowless := by
    funext k
    rw [State.unit_updUnit]
    split
    · rw [Option.map_map]
      exact congrArg (fun w => (s.unit k).map w) (funext hg)
    · rfl
  unfold State.engineView State.core
  rw [hunits, State.updUnit_entries, State.updUnit_cores]

theorem State.laneAccess_engineView {core ctx key cp n : Nat} {write : Bool} :
    (s.laneAccess core ctx key write cp n).engineView = s.engineView := by
  unfold State.laneAccess
  split
  · split
    · exact State.charge_engineView
    · rfl
  · split
    · split <;> rfl
    · extract_lets hit s1 s2
      have h1 : s1.engineView = s.engineView := by
        unfold s1; split
        · rfl
        · exact State.charge_engineView
      have h2 : s2.engineView = s.engineView := by
        unfold s2; split
        · exact h1
        · rw [State.l2Keep_engineView, State.l2Keep_engineView, h1]
      split
      · exact State.l2Only_engineView.trans h2
      · exact h2

theorem State.performAt_engineView {id : Nat} {f : Sheaf} {e : StoreEntry} {p : StorePart} {va : DWord} {keys : List Nat} :
    (s.performAt id f e p va keys).engineView = s.engineView := by
  unfold State.performAt
  extract_lets u key s1
  have h1 : s1.engineView = s.engineView := by unfold s1; split <;> rfl
  split
  · rfl
  · rw [State.laneAccess_engineView, State.dropLines_engineView, State.write_engineView, h1]

theorem State.performPart_engineView {id : Nat} {e : StoreEntry} {p : StorePart} : (s.performPart id e p).engineView = s.engineView := by
  unfold State.performPart
  split
  · rfl
  · split
    · exact State.updUnit_engineView fun _ => UnitSt.windowless_winStore
    · split
      · rfl
      · exact State.performAt_engineView

theorem State.performPush_engineView {id k : Nat} {e : StoreEntry} {r : StreamReg} {p : StorePart} :
    (s.performPush id e r k p).engineView = s.engineView := by
  unfold State.performPush
  split
  · dsimp only
    split
    · exact State.updUnit_engineView fun _ => UnitSt.windowless_winStore
    · exact State.performAt_engineView
  · rfl

theorem State.performEntry_engineView {id : Nat} {m : Mask} {e : StoreEntry} : (s.performEntry id m e).engineView = s.engineView := by
  unfold State.performEntry
  dsimp only
  rw [State.updSheaf_engineView]
  split
  · exact foldl_keeps State.engineView _ (fun _ _ => State.performPart_engineView) _ _
  · rw [State.updSheaf_engineView]
    exact foldl_keeps State.engineView _ (fun _ _ => State.performPush_engineView) _ _

theorem State.commit_engineView {id : Nat} {m : Mask} : (s.commit id m).engineView = s.engineView := by
  unfold State.commit
  split
  · rfl
  · rw [State.updSheaf_engineView]
    exact foldl_keeps State.engineView _ (fun _ _ => State.performEntry_engineView) _ _

theorem State.committedBy_engineView {c : Ctx} {sh : Shape} : (s.committedBy c sh).engineView = s.engineView := by
  unfold State.committedBy
  split
  · exact State.commit_engineView
  · rfl

/-- The issue of a word leaves the engine words what they find. -/
theorem State.advance_engineView {c : Ctx} {sh : Shape} : (s.advance c sh).engineView = s.engineView := by
  have hc {t : State} : t.counted.engineView = t.engineView := rfl
  rw [State.advance, State.progress_engineView, hc, State.updSheaf_engineView, State.committedBy_engineView]

end

/-! ### What is found of a handle -/

/-- A handle by what a commit leaves. -/
def EngineView.handle (v : EngineView) (u h : Nat) : Handle :=
  match v.units u with
  | some x => match x.image with
    | some im => im.handles.get h
    | none => (v.cores (x.core.getD 0)).handles.get h
  | none => {}

section
variable {s t : State} {u h : Nat}

theorem State.handle_eq_view : s.handle u h = s.engineView.handle u h := by
  unfold State.handle EngineView.handle State.engineView
  dsimp only
  cases s.unit u <;> rfl

theorem State.handle_congr (e : t.engineView = s.engineView) : t.handle u h = s.handle u h := by
  rw [State.handle_eq_view, e, State.handle_eq_view]

theorem State.willFree_congr (e : t.engineView = s.engineView) : t.willFree u h = s.willFree u h :=
  congrArg (fun v : EngineView => v.entries.any fun x => x.owner.unit == u && x.work.frees.contains h) e

theorem State.willFill_congr (e : t.engineView = s.engineView) : t.willFill u h = s.willFill u h :=
  congrArg (fun v : EngineView => v.entries.any fun x => x.owner.unit == u && x.work.fills.contains h) e

theorem State.waitTest_congr {full : Bool} (e : t.engineView = s.engineView) : t.waitTest u h full = s.waitTest u h full := by
  unfold State.waitTest
  rw [State.handle_congr e, State.willFree_congr e, State.willFill_congr e]

theorem State.unit_isSome_congr (e : t.engineView = s.engineView) : (t.unit u).isSome = (s.unit u).isSome := by
  have hu : (t.unit u).map UnitSt.windowless = (s.unit u).map UnitSt.windowless := congrArg (fun v : EngineView => v.units u) e
  rw [← Option.isSome_map (f := UnitSt.windowless), hu, Option.isSome_map]

/-- A word finds a handle as it stood before the issue. -/
@[simp] theorem State.advance_handle {c : Ctx} {sh : Shape} : (s.advance c sh).handle u h = s.handle u h :=
  State.handle_congr State.advance_engineView

/-! ### One handle changes -/

variable {x : UnitSt} {v : Handle}

theorem State.handle_core (hu : s.unit u = some x) (hi : x.image = none) : s.handle u h = (s.core (x.core.getD 0)).handles.get h := by
  simp only [State.handle, hu, hi]

theorem State.handle_image {im : Image} (hu : s.unit u = some x) (hi : x.image = some im) : s.handle u h = im.handles.get h := by
  simp only [State.handle, hu, hi]

theorem State.setHandle_core (hu : s.unit u = some x) (hi : x.image = none) :
    s.setHandle u h v = s.updCore (x.core.getD 0) fun c => { c with handles := c.handles.set h v } := by
  simp only [State.setHandle, hu, hi]

theorem State.setHandle_image {im : Image} (hu : s.unit u = some x) (hi : x.image = some im) :
    s.setHandle u h v = s.setUnit u { x with image := some { im with handles := im.handles.set h v } } := by
  simp only [State.setHandle, hu, hi]

theorem State.handle_setHandle (hu : s.unit u = some x) (k : Nat) :
    (s.setHandle u h v).handle u k = if k = h then v else s.handle u k := by
  cases hi : x.image with
  | none =>
    rw [State.setHandle_core hu hi, State.handle_core (s := s.updCore _ _) hu hi, State.handle_core hu hi, State.updCore,
      State.core_setCore, if_pos rfl]
    exact Store.get_set ..
  | some im =>
    rw [State.setHandle_image hu hi, State.handle_image ((State.unit_setUnit ..).trans (if_pos rfl)) rfl, State.handle_image hu hi]
    exact Store.get_set ..

/-- A handle changes at the core where its unit stands, or in the unit's image. -/
theorem State.setHandle_onlyHandles (hu : s.unit u = some x) : OnlyHandles u s (s.setHandle u h v) := by
  unfold OnlyHandles OnlyAt
  rw [hu]
  cases hi : x.image with
  | none =>
    rw [State.setHandle_core hu hi]
    refine ⟨fun k => ?_, fun _ _ => rfl, fun y hy => ⟨y, hu.trans hy, rfl⟩⟩
    rw [State.updCore, State.core_setCore]
    split
    · next hk => subst hk; exact (if_pos rfl).symm
    · next hk => exact (if_neg hk).symm
  | some im =>
    rw [State.setHandle_image hu hi]
    refine ⟨fun k => ?_, fun k hk => (State.unit_setUnit ..).trans (if_neg hk), fun y hy =>
      ⟨_, (State.unit_setUnit ..).trans (if_pos rfl), ?_⟩⟩
    · split <;> rfl
    · rw [Option.some.inj hy]

/-- Units and cores agree, and with them all that stands at a core or in a unit's image. -/
structure SameStores (s t : State) : Prop where
  units : t.units = s.units
  cores : t.cores = s.cores

theorem InSheaf.sameStores {id : Nat} (k : InSheaf s t id) : SameStores s t := by
  constructor <;> rw [k.rest]

theorem sameStores_of_onlySheaf {id job : Nat} (k : OnlySheaf s t id job) : SameStores s t := by
  constructor <;> rw [k.rest]

theorem onlyHandles_congr {a z : State} (ha : SameStores a s) (hz : SameStores t z) (k : OnlyHandles u s t) : OnlyHandles u a z := by
  unfold OnlyHandles OnlyAt State.unit State.core at *
  rwa [hz.units, hz.cores, ← ha.units, ← ha.cores]

theorem SameStores.handle (k : SameStores s t) : t.handle u h = s.handle u h := by
  unfold State.handle State.unit State.core
  rw [k.units, k.cores]

/-- Where a word's effect changes units and cores, the state in the end differs beside its sheaf in them alone. -/
theorem only_of_stores {c : Ctx} {a z : State} (ha : OnlySheaf a s c.id c.unit.job) (ht : t = { s with cores := t.cores, units := t.units })
    (hz : InSheaf t z c.id) : Only c (fun q => { q with cores := z.cores, units := z.units }) a z := by
  have hs : t.sheaves = s.sheaves := by rw [ht]
  have hj : z.jobs = s.jobs := by rw [hz.rest, ht]
  refine ⟨fun k hk => (hz.others k hk).trans ?_, fun j => ?_, ?_⟩
  · rw [State.sheaf, hs]
    exact ha.others k hk
  · rw [State.job, hj]
    exact ha.jobs j
  · have hrest := hz.rest
    rw [hj, hz.sameStores.cores, hz.sameStores.units]
    rw [ht, ha.rest] at hrest
    exact hrest

theorem only_of_onlySheaf {c : Ctx} {a z : State} (h : OnlySheaf a z c.id c.unit.job) : Only c id a z := ⟨h.others, h.jobs, h.rest⟩

end

/-! ### What a word that runs comes to -/

/-- A word holds its active lanes at it, and the other lanes of its position go to the next word. -/
def Holds (i : Instr) (s : State) (c : Ctx) (k : Hold) : Prop :=
  Does i s c fun a f t z => OnlySheaf a t c.id c.unit.job ∧ OnlyLanes f z ∧ ∀ l, l < 32 →
    if c.lanes.getLsbD l = false then z.lane l = f.lane l
    else if c.act.getLsbD l = true then (z.lane l).pc = c.pc ∧ (z.lane l).hold = k
    else (z.lane l).pc = c.pc + 4 ∧ (z.lane l).hold = (f.lane l).hold

section
variable {i : Instr} {s : State} {c : Ctx} (r : Runs i s c) {eff : Ctx → State → Eff} (hx : exec i s = issueWord i s eff)
include r hx

/-- A word whose effect leaves the state that issue has made completes with no result. -/
theorem Runs.completes_idle (hF : eff c (s.advance c (c.shapeOf i)) = .done (s.advance c (c.shapeOf i))) :
    Completes i s c c.after WritesNothing :=
  r.nothing (hx.trans ((r.done hF).trans (r.done rfl).symm))

/-- A word whose effect traps before it has changed anything. -/
theorem Runs.traps {k : TrapRec} (hF : eff c (s.advance c (c.shapeOf i)) = .trap k (s.advance c (c.shapeOf i))) : TakesTrap i s c k := by
  obtain ⟨f, hf⟩ := r.committed_sheaf
  obtain ⟨ha, hs⟩ := State.advance_spec hf
  have hd := State.sheaf_updSheaf hs fun g => g.dropParts c.op k.failing
  refine ⟨_, f, _, by rw [hx, r.issue, hF], hf, State.conclude_sheaf hd, (ha.trans (State.updSheaf_in ..)).trans (State.conclude_in ..), ?_⟩
  have hq : (f.advanced c (c.shapeOf i)).Quiet ((f.advanced c (c.shapeOf i)).dropParts c.op k.failing) := rfl
  exact ((f.advanced_quiet ..).trans hq).trans (Sheaf.concluded_quiet ..)

theorem Runs.holds {k : Hold} (hF : eff c (s.advance c (c.shapeOf i)) = .done ((s.advance c (c.shapeOf i)).holdLanes c c.act k)) :
    Holds i s c k := by
  obtain ⟨f, hf⟩ := r.committed_sheaf
  obtain ⟨ha, hs⟩ := State.advance_spec hf
  have hsub := (State.issuing_spec r.issuing).2
  refine ⟨_, f, _, hx.trans (r.done hF), hf, State.conclude_sheaf (State.sheaf_updSheaf hs _),
    (ha.trans (State.updSheaf_in ..)).trans (State.conclude_in ..),
    ((f.advanced_quiet ..).trans (Sheaf.updLanes_quiet ..)).trans (Sheaf.concluded_quiet ..), fun l hl => ?_⟩
  obtain ⟨hheld, hgoes, hstays⟩ := Sheaf.concluded_updLanes_lane (i := i) (u := fun x => { x with pc := c.pc, hold := k })
    (fun _ => rfl) hsub hsub hl
  split
  · next hm => exact hstays hm
  · next hm =>
    split
    · next h => exact ⟨(hheld h).pc, (hheld h).hold⟩
    · next h =>
      have kept := hgoes (Bool.eq_false_iff.2 h) (Bool.of_not_eq_false hm)
      exact ⟨kept.pc, kept.hold⟩

/-- A word whose effect changes one handle of its unit. -/
theorem Runs.sets_handle {u : UnitSt} {n : Nat} {g : Handle → Handle} (hu : s.unit c.f.unit = some u)
    (hF : eff c (s.advance c (c.shapeOf i)) =
      .done ((s.advance c (c.shapeOf i)).setHandle c.f.unit n (g (s.handle c.f.unit n)))) :
    Does i s c fun p f t z => Only c (fun q => { q with cores := t.cores, units := t.units }) p t
      ∧ OnlyHandles c.f.unit p t ∧ HandleChange c.f.unit n g p t ∧ OnlyLanes f z ∧ LanesGo f z c c.after := by
  obtain ⟨f, hf⟩ := r.committed_sheaf
  obtain ⟨ha, hp⟩ := State.advance_spec hf
  obtain ⟨x, hx'⟩ : ∃ x, (s.advance c (c.shapeOf i)).unit c.f.unit = some x :=
    Option.isSome_iff_exists.1 (by rw [State.unit_isSome_congr State.advance_engineView, hu]; rfl)
  have hframe := (s.advance c (c.shapeOf i)).setHandle_frame c.f.unit n (g (s.handle c.f.unit n))
  have hend := State.conclude_in ((s.advance c (c.shapeOf i)).setHandle c.f.unit n (g (s.handle c.f.unit n))) i c (c.shapeOf i)
  refine ⟨_, f, _, hx.trans (r.done hF), hf, State.conclude_sheaf (by rw [hframe]; exact hp), only_of_stores ha hframe hend,
    onlyHandles_congr (sameStores_of_onlySheaf ha) hend.sameStores (State.setHandle_onlyHandles hx'), fun k => ?_,
    (f.advanced_quiet ..).trans (Sheaf.concluded_quiet ..),
    lanesGo_concluded (State.issuing_spec r.issuing).2 (fun _ => .refl _) fun _ _ => rfl⟩
  rw [hend.sameStores.handle, State.handle_setHandle hx', ← (sameStores_of_onlySheaf ha).handle, State.advance_handle]
  split
  · next hk => rw [hk]
  · rfl

end

/-! ### The handle words -/

theorem idleTrap_eq {c : Ctx} {h : BitVec 7} {k : Nat} :
    idleTrap c.word c.pc c.act h.toNat k = { emulRecord c with kind := .idle, ema := h.setWidth 32, emb := BitVec.ofNat 32 k } := by
  rw [idleTrap, emulTrap_eq, BitVec.ofNat_toNat]

section
variable {y : Bool} {g : BitVec 3} {d h : BitVec 7} {s : State} {c : Ctx}

theorem Ctx.own_iff : (!c.unit.lrec.handles.contains h.toNat) = false ↔ h.toNat ∈ c.unit.lrec.handles := by
  rw [Bool.not_eq_false', List.contains_iff_mem]

/-- On a handle of the unit a word does not refuse. -/
theorem Ctx.if_own {e : Eff} (ho : h.toNat ∈ c.unit.lrec.handles) :
    (if !c.unit.lrec.handles.contains h.toNat then .emul else e) = e := if_neg (Bool.eq_false_iff.1 (Ctx.own_iff.2 ho))

/-- A handle outside the unit's set is refused by every handle word. -/
theorem Runs.handleWord_emulates {i : Instr} (hi : i = .hwaitFree y g h ∨ i = .hwaitFull y g h ∨ i = .hrel y g h ∨ i = .hstat y g d h)
    (r : Runs i s c) (ho : h.toNat ∉ c.unit.lrec.handles) : exec i s = .next (s.emulWord c) := by
  have hc : (!c.unit.lrec.handles.contains h.toNat) = true := Bool.of_not_eq_false (mt Ctx.own_iff.1 ho)
  rcases hi with rfl | rfl | rfl | rfl
  · exact r.emulates (hwaitWord.eq_1 ..) (if_pos hc)
  · exact r.emulates (hwaitWord.eq_1 ..) (if_pos hc)
  · exact r.emulates (execHrel.eq_1 ..) (if_pos hc)
  · exact r.emulates (execHstat.eq_1 ..) (if_pos hc)

/-! #### Waits (R174) -/

/-- What a wait does by what its test finds. -/
def waitEff (c : Ctx) (t : State) (h : Nat) (full : Bool) : WaitRes → Eff
  | .go => .done t
  | .stay => .done (t.holdLanes c c.act (.hwait full h))
  | .trap k => .trap (idleTrap c.word c.pc c.act h k) t

theorem hwaitWord_eq {i : Instr} {n : Nat} {full : Bool} : hwaitWord i n full s = issueWord i s fun c t =>
    if !c.unit.lrec.handles.contains n then .emul else waitEff c t n full (t.waitTest c.f.unit n full) := rfl

/-- A wait on a handle of the unit tests it as it stood before the issue. -/
theorem waitEff_own {sh : Shape} {full : Bool} {res : WaitRes} (ho : h.toNat ∈ c.unit.lrec.handles) (ht : s.waitTest c.f.unit h.toNat full = res) :
    (if !c.unit.lrec.handles.contains h.toNat then .emul
      else waitEff c (s.advance c sh) h.toNat full ((s.advance c sh).waitTest c.f.unit h.toNat full)) =
    waitEff c (s.advance c sh) h.toNat full res := by
  rw [Ctx.if_own ho, State.waitTest_congr State.advance_engineView, ht]

section
variable {i : Instr} {full : Bool} (r : Runs i s c) (hx : exec i s = hwaitWord i h.toNat full s) (ho : h.toNat ∈ c.unit.lrec.handles)
include r hx ho

theorem Runs.hwait_goes (ht : s.waitTest c.f.unit h.toNat full = .go) : Completes i s c c.after WritesNothing :=
  r.completes_idle (hx.trans hwaitWord_eq) (waitEff_own ho ht)

theorem Runs.hwait_holds (ht : s.waitTest c.f.unit h.toNat full = .stay) : Holds i s c (.hwait full h.toNat) :=
  r.holds (hx.trans hwaitWord_eq) (waitEff_own ho ht)

theorem Runs.hwait_traps {k : Nat} {w : Word} (ht : s.waitTest c.f.unit h.toNat full = .trap k) (hw : BitVec.ofNat 32 k = w) :
    TakesTrap i s c { emulRecord c with kind := .idle, ema := h.setWidth 32, emb := w } :=
  hw ▸ idleTrap_eq ▸ r.traps (hx.trans hwaitWord_eq) (waitEff_own ho ht)

end

section
variable {u n : Nat}

theorem State.waitTest_free (hs : (s.handle u n).state = .free) : s.waitTest u n false = .go := by
  simp [State.waitTest, hs]

theorem State.waitTest_not_free (hs : (s.handle u n).state ≠ .free) :
    s.waitTest u n false = if s.willFree u n = true then .stay else .trap 0 := by
  simp [State.waitTest, hs]

theorem State.waitTest_full (hs : (s.handle u n).state = .full) (he : (s.handle u n).err = false) (hv : (s.handle u n).ovf = false) :
    s.waitTest u n true = .go := by
  simp [State.waitTest, hs, he, hv]

theorem State.waitTest_marked (hs : (s.handle u n).state = .full) (hm : (s.handle u n).err = true ∨ (s.handle u n).ovf = true) :
    s.waitTest u n true = .trap (if (s.handle u n).err = true then 1 else 3) := by
  cases he : (s.handle u n).err with
  | true => simp [State.waitTest, hs, he]
  | false =>
    have hv : (s.handle u n).ovf = true := hm.resolve_left (by simp [he])
    simp [State.waitTest, hs, he, hv]

theorem State.waitTest_not_full (hs : (s.handle u n).state ≠ .full) : s.waitTest u n true =
    if s.willFill u n = true then .stay else .trap (if (s.handle u n).state = .free ∧ (s.handle u n).torn = true then 2 else 0) := by
  simp only [State.waitTest, hs, if_true, beq_iff_eq, if_false, Bool.and_eq_true]
  split_ifs <;> rfl

end

/-! #### `HREL` and `HSTAT` (R174, R175, R177) -/

section
variable (r : Runs (.hrel y g h) s c) (ho : h.toNat ∈ c.unit.lrec.handles)
include r ho

/-- A second release in one cycle has no effect. -/
theorem Runs.hrel_repeats (hr : (s.handle c.f.unit h.toNat).relAt = some c.now) :
    Completes (.hrel y g h) s c c.after WritesNothing :=
  r.completes_idle (execHrel.eq_1 ..) ((Ctx.if_own ho).trans (if_pos ((congrArg Handle.relAt State.advance_handle).trans hr)))

theorem Runs.hrel_traps (hr : (s.handle c.f.unit h.toNat).relAt ≠ some c.now)
    (hs : (s.handle c.f.unit h.toNat).state = .filling ∨ (s.handle c.f.unit h.toNat).state = .draining) :
    TakesTrap (.hrel y g h) s c { emulRecord c with kind := .idle, ema := h.setWidth 32, emb := 4 } := by
  refine idleTrap_eq (k := 4) ▸ r.traps (execHrel.eq_1 ..) ((Ctx.if_own ho).trans ?_)
  rw [State.advance_handle, if_neg hr, if_pos (by simpa using hs)]

theorem Runs.hrel_releases {u : UnitSt} (hu : s.unit c.f.unit = some u) (hr : (s.handle c.f.unit h.toNat).relAt ≠ some c.now)
    (hs : ¬ ((s.handle c.f.unit h.toNat).state = .filling ∨ (s.handle c.f.unit h.toNat).state = .draining)) :
    Does (.hrel y g h) s c fun p f t z => Only c (fun q => { q with cores := t.cores, units := t.units }) p t
      ∧ OnlyHandles c.f.unit p t ∧ HandleChange c.f.unit h.toNat (fun q =>
        { q with state := .free, err := false, torn := false, ovf := false, relAt := some c.now }) p t
      ∧ OnlyLanes f z ∧ LanesGo f z c c.after := by
  refine r.sets_handle (g := fun q => { q.released with relAt := some c.now }) (execHrel.eq_1 ..) hu ((Ctx.if_own ho).trans ?_)
  rw [State.advance_handle, if_neg hr, if_neg (by simpa using hs)]

end

/-- A result on its way stands beside what a quiet change differs in. -/
theorem Sheaf.Quiet.later {f x : Sheaf} {k : Nat} {ws : List Word} (q : f.Quiet x) : (Later c k d ws f).Quiet (Later c k d ws x) := by
  unfold Sheaf.Quiet at q ⊢
  rw [q]
  rfl

theorem Runs.hstat_answers (r : Runs (.hstat y g d h) s c) (ho : h.toNat ∈ c.unit.lrec.handles) :
    Does (.hstat y g d h) s c fun p f t z => Only c id p t ∧ LanesGo f z c c.after ∧ ∃ k, 1 ≤ k ∧ OnlyLanes
      (Later c k d [(s.handle c.f.unit h.toNat).status, BitVec.ofNat 32 (s.handle c.f.unit h.toNat).size] f) z := by
  obtain ⟨f, hf⟩ := r.committed_sheaf
  obtain ⟨ha, hp⟩ := State.advance_spec hf
  generalize hq : s.advance c (c.shapeOf (.hstat y g d h)) = q at ha hp
  have hh : q.handle c.f.unit h.toNat = s.handle c.f.unit h.toNat := hq ▸ State.advance_handle
  have hF : execHstat y g d h s = .next ((q.freeCycles.2.updSheaf c.id (Later c q.freeCycles.1 d
      [(s.handle c.f.unit h.toNat).status, BitVec.ofNat 32 (s.handle c.f.unit h.toNat).size])).conclude (.hstat y g d h) c
        (c.shapeOf (.hstat y g d h))) := by
    refine r.done ((Ctx.if_own ho).trans ?_)
    rw [hq, hh]
    rfl
  have hfree : InSheaf q q.freeCycles.2 c.id := ⟨fun _ _ => rfl, rfl⟩
  refine ⟨_, f, _, hF, hf, State.conclude_sheaf (State.sheaf_updSheaf (s := q.freeCycles.2) hp _),
    only_of_onlySheaf ((ha.trans (hfree.trans (State.updSheaf_in ..))).trans (State.conclude_in ..)),
    lanesGo_concluded (State.issuing_spec r.issuing).2 (fun _ => .refl _) fun _ _ => rfl,
    q.freeCycles.1, Nat.le_add_right .., (f.advanced_quiet ..).later.trans (Sheaf.concluded_quiet ..)⟩

end

/-- Settles O35: word by word, each by the lemma that says what the word does in a state of its handle. That SIZE stays at a release (log 77)
and that a wait for a full handle holds while an unperformed `QMV` names it (log 40) are the model's choice. -/
theorem handleWords : Obligations.HandleWords := by
  unfold Obligations.HandleWords
  intro y g d h s c u hu
  refine ⟨fun i hi r ho => r.handleWord_emulates hi ho, fun r ho => ⟨?_, ?_, ?_⟩, fun r ho => ⟨?_, ?_, ?_, ?_⟩, fun r ho =>
    ⟨r.hrel_repeats ho, fun hr => ⟨r.hrel_traps ho hr, r.hrel_releases ho hu hr⟩⟩, fun r ho => r.hstat_answers ho⟩
  · exact fun hs => r.hwait_goes rfl ho (State.waitTest_free hs)
  · exact fun hs hw => r.hwait_holds rfl ho ((State.waitTest_not_free hs).trans (if_pos hw))
  · exact fun hs hw => r.hwait_traps rfl ho ((State.waitTest_not_free hs).trans (if_neg (Bool.eq_false_iff.1 hw))) rfl
  · exact fun hs he hv => r.hwait_goes rfl ho (State.waitTest_full hs he hv)
  · exact fun hs hw => r.hwait_holds rfl ho ((State.waitTest_not_full hs).trans (if_pos hw))
  · exact fun hs hm => r.hwait_traps rfl ho (State.waitTest_marked hs hm) (apply_ite ..)
  · exact fun hs hw => r.hwait_traps rfl ho ((State.waitTest_not_full hs).trans (if_neg (Bool.eq_false_iff.1 hw))) (apply_ite ..)

end Sys2Proof.Machine
end

section
/-!
SUPPORT. Laws of memory words: the address, the checks, the bytes and the results of an access as the statements write them, and what a word
that issues a memory access finds of its sheaf.
-/
namespace Sys2Proof.Machine
open Sys2Proof.Claims

/-! ### The words' fields -/

section
variable {m : BitVec 3}

theorem spaceOf_eq : spaceOf m = spaceBy m := by
  revert m
  decide

theorem spaceBy_window (h : m.toNat % 4 = 0) : spaceBy m = .sp := if_pos h

theorem toNat_div_four_eq_one : m.toNat / 4 = 1 ↔ m.msb = true := by
  revert m
  decide

theorem toNat_div_four_eq_zero : m.toNat / 4 = 0 ↔ m.msb = false := by
  revert m
  decide

end

/-- An address offset is the hint's value with its sign, 0 without a hint (R178). -/
theorem Ctx.off_toInt (c : Ctx) : c.off = BitVec.ofInt 64 ((c.limm.map BitVec.toInt).getD 0) := by
  unfold Ctx.off
  cases c.limm with
  | none => rfl
  | some x => rfl

theorem Ctx.ea_eq (c : Ctx) (m : BitVec 3) (a : BitVec 7) (l : Nat) : c.ea m a l = address c m a l := by
  have nat64 (x : DWord) : BitVec.ofInt 64 x.toNat = x := by rw [BitVec.ofInt_natCast, BitVec.ofNat_toNat, BitVec.setWidth_eq]
  have nat32 (x : Word) : BitVec.ofInt 64 x.toNat = x.setWidth 64 := by rw [BitVec.ofInt_natCast, BitVec.ofNat_toNat]
  unfold Ctx.ea address
  rw [spaceOf_eq, Ctx.off_toInt]
  unfold spaceBy
  obtain h | h | h | h : m.toNat % 4 = 0 ∨ m.toNat % 4 = 1 ∨ m.toNat % 4 = 2 ∨ m.toNat % 4 = 3 := by omega
  · simp [h, BitVec.ofInt_add, nat32]
  · simp [h, BitVec.ofInt_add, nat32]
  · simp [h, BitVec.ofInt_add, nat64, nat32]
  · simp [h, BitVec.ofInt_add, nat64]

/-- An address beyond the 57 bits of the virtual space. -/
theorem extractLsb_high_eq_zero (x : DWord) : x.extractLsb' 57 7 = 0 ↔ x.toNat < 2 ^ 57 := by
  rw [← BitVec.toNat_inj, BitVec.extractLsb'_toNat, Nat.shiftRight_eq_div_pow]
  have := x.isLt
  rw [show (0 : BitVec 7).toNat = 0 from rfl]
  omega

theorem checkEa_eq (u : UnitSt) (m : BitVec 3) (ea : DWord) (size : Nat) : checkEa u (spaceBy m) ea size = addressFault u m ea size := by
  have hm : m.toNat % 4 < 4 := Nat.mod_lt _ (by omega)
  have hv : (spaceBy m == .g || spaceBy m == .ga) = decide (2 ≤ m.toNat % 4) := by
    revert m
    decide
  have hs : (spaceBy m == .sp) = decide (m.toNat % 4 = 0) := by
    revert m
    decide
  have hp : (spaceBy m == .pv) = decide (m.toNat % 4 = 1) := by
    revert m
    decide
  have hx : (ea.extractLsb' 57 7 != 0) = decide (2 ^ 57 ≤ ea.toNat) := by
    rw [Bool.eq_iff_iff, bne_iff_ne, decide_eq_true_iff, ← Nat.not_lt]
    exact not_congr (extractLsb_high_eq_zero ea)
  unfold checkEa addressFault
  dsimp only
  rw [hv, hs, hp, hx]
  simp only [Bool.and_eq_true, decide_eq_true_iff, bne_iff_ne]

theorem scopeCode_eq (c : Ctx) (m : BitVec 3) : scopeCode (spaceBy m) c.x.scope.toNat = scopeOf c m := by
  unfold scopeCode scopeOf spaceBy
  obtain h | h | h | h : m.toNat % 4 = 0 ∨ m.toNat % 4 = 1 ∨ m.toNat % 4 = 2 ∨ m.toNat % 4 = 3 := by omega
  all_goals simp [h]

theorem lowest_eq_some {m : Mask} (h : m ≠ 0) : lowest m = some (lowLaneOf m) := by
  obtain ⟨rest, hr⟩ := lowest_map m (fun _ => ()) h
  unfold lowLaneOf lowest
  cases hm : maskLanes m with
  | nil => rw [hm] at hr; cases hr
  | cons l ls => rfl

theorem Ctx.dstFor_eq {c : Ctx} (h : c.act ≠ 0) (d : BitVec 7) (l : Nat) : c.dstFor d l = dstSeen c d l := by
  unfold Ctx.dstFor dstSeen
  refine if_congr (or_congr_right ?_) rfl rfl
  rw [lowest_eq_some h, Option.some_inj, eq_comm]

/-! ### Bytes -/

theorem toBytes_length (n : Nat) : ∀ x, (toBytes n x).length = n := by
  induction n with
  | zero => exact fun _ => rfl
  | succ n ih => exact fun x => congrArg (· + 1) (ih (x / 256))

theorem toBytes_eq (n : Nat) : ∀ x, toBytes n x = littleEndian n x := by
  induction n with
  | zero => exact fun _ => rfl
  | succ n ih =>
    intro x
    rw [toBytes, ih, littleEndian, littleEndian, List.range_succ_eq_map, List.map_cons, List.map_map, Nat.pow_zero, Nat.div_one]
    refine congrArg _ (List.map_congr_left fun j _ => ?_)
    rw [Function.comp, Nat.div_div_eq_div_mul, Nat.succ_eq_add_one, Nat.pow_succ']

theorem littleEndian_length (n x : Nat) : (littleEndian n x).length = n := by
  rw [← toBytes_eq, toBytes_length]

theorem leNat_eq (b : List Byte) : leNat b = valueOf b := by
  induction b with
  | nil => rfl
  | cons x rest ih => rw [leNat, valueOf, ih]

theorem leNat_lt (b : List Byte) : leNat b < 256 ^ b.length := by
  induction b with
  | nil => exact Nat.one_pos
  | cons x rest ih =>
    have := x.isLt
    rw [leNat, List.length_cons, Nat.pow_succ]
    omega

theorem leNat_toBytes (n : Nat) : ∀ x, leNat (toBytes n x) = x % 256 ^ n := by
  induction n with
  | zero => exact fun x => (Nat.mod_one x).symm
  | succ n ih =>
    intro x
    rw [toBytes, leNat, ih, Nat.pow_succ', Nat.mod_mul, BitVec.toNat_ofNat]

theorem leNat_append (a b : List Byte) : leNat (a ++ b) = leNat a + 256 ^ a.length * leNat b := by
  induction a with
  | nil => simp [leNat]
  | cons x rest ih => rw [List.cons_append, leNat, leNat, ih, List.length_cons, Nat.pow_succ]; ring

/-- Words cut out of a value that its low 32 bits precede. -/
theorem map_words_succ (n lo hi : Nat) (h : lo < 2 ^ 32) :
    (List.range (n + 1)).map (fun j => BitVec.ofNat 32 ((lo + 2 ^ 32 * hi) / 2 ^ (32 * j)))
      = BitVec.ofNat 32 lo :: (List.range n).map fun j => BitVec.ofNat 32 (hi / 2 ^ (32 * j)) := by
  rw [List.range_succ_eq_map, List.map_cons, List.map_map]
  refine congrArg₂ _ ?_ (List.map_congr_left fun j _ => ?_)
  · apply BitVec.eq_of_toNat_eq
    simp only [BitVec.toNat_ofNat, Nat.mul_zero, Nat.pow_zero, Nat.div_one]
    omega
  · have hj : (lo + 2 ^ 32 * hi) / 2 ^ (32 * (j + 1)) = hi / 2 ^ (32 * j) := by
      rw [show 32 * (j + 1) = 32 + 32 * j by ring, Nat.pow_add, ← Nat.div_div_eq_div_mul]
      congr 1
      omega
    exact congrArg (BitVec.ofNat 32) hj

theorem toWords_eq : ∀ b : List Byte, toWords b = (List.range ((b.length + 3) / 4)).map fun j => BitVec.ofNat 32 (leNat b / 2 ^ (32 * j))
  | [] => rfl
  | [x] => by simp [toWords]
  | [x, y] => by simp [toWords]
  | [x, y, z] => by simp [toWords]
  | x :: y :: z :: w :: rest => by
    have h256 : 256 ^ [x, y, z, w].length = 2 ^ 32 := by norm_num
    have hv : leNat (x :: y :: z :: w :: rest) = leNat [x, y, z, w] + 2 ^ 32 * leNat rest := by
      rw [← h256]
      exact leNat_append [x, y, z, w] rest
    have hn : ((x :: y :: z :: w :: rest).length + 3) / 4 = (rest.length + 3) / 4 + 1 := by
      simp only [List.length_cons]
      omega
    have h4 : leNat [x, y, z, w] < 2 ^ 32 := h256 ▸ leNat_lt [x, y, z, w]
    rw [hv, hn, map_words_succ _ _ _ h4, toWords, toWords_eq rest]

theorem lo32_ofInt (z : Int) : lo32 (BitVec.ofInt 64 z) = BitVec.ofInt 32 z := by
  apply BitVec.eq_of_toNat_eq
  rw [lo32, BitVec.extractLsb'_toNat, Nat.shiftRight_zero, BitVec.toNat_ofInt, BitVec.toNat_ofInt]
  omega

theorem lo32_ofNat (n : Nat) : lo32 (BitVec.ofNat 64 n) = BitVec.ofInt 32 n := by
  rw [← lo32_ofInt, BitVec.ofInt_natCast]

/-- Loaded bytes fill their registers as R180 and R181 say. -/
theorem loadWords_eq {size : Nat} (signed : Bool) {b : List Byte} (h : b.length = size) :
    loadWords size signed b = wordsOf size signed (valueOf b) := by
  unfold loadWords wordsOf
  rw [← leNat_eq]
  split
  · cases signed with
    | false =>
      simp only [Bool.false_eq_true, false_and, if_false]
      exact congrArg (fun x => [x]) (lo32_ofNat _)
    | true =>
      unfold sext
      simp only [true_and, if_true]
      split
      · exact congrArg (fun x => [x]) (by rw [lo32_ofInt, Nat.cast_pow, Nat.cast_ofNat])
      · exact congrArg (fun x => [x]) (lo32_ofNat _)
  · rw [toWords_eq, h]

theorem toWords_toBytes {size old : Nat} (hs : 4 ≤ size) (ho : old < 256 ^ size) : toWords (toBytes size old) = wordsOf size false old := by
  have h := loadWords_eq (size := size) false (toBytes_length size old)
  rw [← leNat_eq, leNat_toBytes, Nat.mod_eq_of_lt ho] at h
  rw [← h, loadWords, if_neg (Nat.not_lt.2 hs)]

end Sys2Proof.Machine
end

section
/-!
PROOFS. The commit of stores (O19): what a write leaves at each byte, what an access to memory leaves as it was, and what the stores of
lanes, performed one after the other, come to.
-/
namespace Sys2Proof.Machine
open Sys2Proof.Claims

/-! ### The last byte written to a place -/

section
variable {w v : List (Nat × Byte)} {k : Nat} {old : Byte}

@[simp] theorem lastOf_nil : lastOf [] k old = old := rfl

theorem lastOf_append : lastOf (w ++ v) k old = lastOf v k (lastOf w k old) := by
  unfold lastOf
  rw [List.reverse_append, List.find?_append]
  cases v.reverse.find? fun c => c.1 == k <;> rfl

theorem lastOf_cons {c : Nat × Byte} : lastOf (c :: w) k old = lastOf w k (if c.1 = k then c.2 else old) := by
  rw [← List.singleton_append, lastOf_append]
  congr 1
  by_cases h : c.1 = k <;> simp [lastOf, h]

/-- A place to which nothing is written. -/
theorem lastOf_of_ne (h : ∀ c ∈ w, c.1 ≠ k) : lastOf w k old = old := by
  induction w generalizing old with
  | nil => rfl
  | cons c w ih => rw [lastOf_cons, if_neg (h c (by simp)), ih fun x hx => h x (by simp [hx])]

/-- What is written elsewhere does not count. -/
theorem lastOf_filter {p : Nat × Byte → Bool} (h : ∀ c ∈ w, c.1 = k → p c = true) : lastOf (w.filter p) k old = lastOf w k old := by
  induction w generalizing old with
  | nil => rfl
  | cons c w ih =>
    have ih {x : Byte} : lastOf (w.filter p) k x = lastOf w k x := ih fun x hx => h x (by simp [hx])
    rw [List.filter_cons, lastOf_cons]
    split
    · rw [lastOf_cons, ih]
    · next hp => rw [if_neg fun e => hp (h c (by simp) e), ih]

/-- Writes performed one after the other leave what the last of them wrote. -/
theorem get_foldl_eq_lastOf {σ : Type} {get : σ → Nat → Byte} {step : σ → Nat × Byte → σ}
    (h : ∀ a c k, get (step a c) k = if k = c.1 then c.2 else get a k) : ∀ a : σ, get (w.foldl step a) k = lastOf w k (get a k) := by
  induction w with
  | nil => exact fun _ => rfl
  | cons c w ih =>
    intro a
    rw [List.foldl_cons, ih, lastOf_cons, h]
    simp only [eq_comm]

end

/-! ### What a write leaves at a byte -/

section
variable {s : State} {cells : List (Nat × Byte)} {k : Nat}

theorem State.verifyLine_mem {j : Nat} : (s.verifyLine j).mem = s.mem := by
  unfold State.verifyLine
  dsimp only
  split
  · rfl
  · split
    · rfl
    · rw [foldl_keeps State.mem _ fun _ _ => State.setPoison_mem ..]

theorem State.byteAt_congr {t : State} (h : t.mem = s.mem) : t.byteAt k = s.byteAt k := congrArg (fun m => (⟨m⟩ : Store Byte).get k) h

theorem State.byteAt_store : (s.store cells).byteAt k = lastOf cells k (s.byteAt k) := by
  have hv : ((cells.map Prod.fst).foldl State.verifyLine s).byteAt k = s.byteAt k :=
    State.byteAt_congr (foldl_keeps State.mem _ (fun _ _ => State.verifyLine_mem) _ _)
  unfold State.store
  rw [← hv]
  exact (State.byteAt_congr (foldl_keeps State.mem _ (fun a j => by split <;> rfl) _ _)).trans
    (get_foldl_eq_lastOf (get := State.byteAt) (fun a c j => State.byteAt_putByte a c.1 j c.2) _)

/-- Where a counter lies, of records with the same counters. -/
theorem State.counterAt_congr {t : State} (h : t.census.map Census.counts = s.census.map Census.counts) : t.counterAt = s.counterAt := by
  have e (x : State) (k : Nat) : x.counterAt k
      = (x.census.map Census.counts).findSome? fun l => (l.find? fun r => decide (r.1 ≤ k ∧ k < r.1 + r.2)).map fun r => r.1 + 2 * ((k - r.1) / 2) := by
    unfold State.counterAt
    rw [List.findSome?_map]
    rfl
  funext k
  rw [e, e, h]

theorem State.counterAt_noteUpset : (s.noteUpset cells).counterAt = s.counterAt := by
  unfold State.noteUpset
  split
  · refine State.counterAt_congr ?_
    rw [List.map_map]
    exact List.map_congr_left fun c _ => by dsimp only [Function.comp]; split <;> rfl
  · rfl

theorem State.write_census : (s.write cells).census = (s.noteUpset cells).census := by
  unfold State.write
  dsimp only
  split <;> rw [State.store_frame]

theorem State.counterAt_write : (s.write cells).counterAt = s.counterAt := by
  exact (State.counterAt_congr (congrArg _ State.write_census)).trans State.counterAt_noteUpset

theorem State.byteAt_noteUpset : (s.noteUpset cells).byteAt k = s.byteAt k := by
  rw [State.noteUpset_frame]
  rfl

/-- A byte outside the census's counters holds what was last written to it (R400, log 82). -/
theorem State.byteAt_write (h : s.counterAt k = none) : (s.write cells).byteAt k = lastOf cells k (s.byteAt k) := by
  have hk : (s.noteUpset cells).counterAt k = none := by rw [State.counterAt_noteUpset, h]
  rw [← State.byteAt_noteUpset (s := s) (cells := cells)]
  unfold State.write
  dsimp only
  split
  · refine (State.byteAt_congr rfl).trans (State.byteAt_store.trans ?_)
    rw [lastOf_append, lastOf_of_ne, lastOf_filter]
    · intro c _ hc
      rw [hc, hk]
      rfl
    · intro c hc
      obtain ⟨j, hj, rfl⟩ := List.mem_map.1 hc
      rintro rfl
      rw [List.mem_filter, hk] at hj
      exact absurd hj.2 (by simp)
  · exact State.byteAt_store

end

section
variable {u : UnitSt} {cells : List (Nat × Byte)} {k : Nat}

theorem UnitSt.winByte_winStore : (u.winStore cells).winByte k = lastOf cells k (u.winByte k) := by
  unfold UnitSt.winStore
  dsimp only
  unfold UnitSt.winByte
  rw [foldl_keeps UnitSt.win _ (fun a j => by split <;> rfl)]
  exact get_foldl_eq_lastOf (get := Store.get) (fun (m : Store Byte) c j => Store.get_set m c.1 j c.2) u.win

/-- A store to the window changes its bytes and which of them read badly. -/
theorem UnitSt.winStore_frame :
    u.winStore cells = { u with win := (u.winStore cells).win, winPoison := (u.winStore cells).winPoison, winHalf := (u.winStore cells).winHalf } := by
  have h := UnitSt.windowless_winStore (x := u) (cells := cells)
  calc u.winStore cells
      = { (u.winStore cells).windowless with
            win := (u.winStore cells).win, winPoison := (u.winStore cells).winPoison, winHalf := (u.winStore cells).winHalf } := rfl
    _ = _ := by rw [h]; rfl

theorem UnitSt.winWrite_eq {a : Nat} {bytes : List Byte} :
    u.winWrite a bytes = u.winStore (((List.range bytes.length).map fun j => a + j).zip bytes) := by
  unfold UnitSt.winWrite
  rw [List.zip_map_left]
  rfl

end

/-! ### What an access to memory leaves as it was -/

/-- A context without what it used of its budgets in this period. -/
def Context.unused (x : Context) : Context := { x with used := [] }

/-- A die without the lines that its L2 and its directories hold. -/
def Die.lineless (x : Die) : Die := { x with l2 := [], directory := [] }

/-- Nothing differs but the lines that the dies hold and what the contexts used of their budgets (R75, R375). -/
structure Charged (s t : State) : Prop where
  rest : t = { s with dies := t.dies, contexts := t.contexts }
  dies (d : Nat) : (t.die d).lineless = (s.die d).lineless
  contexts (c : Nat) : (t.context c).map Context.unused = (s.context c).map Context.unused

section
variable {s t u : State}

theorem Charged.refl (s : State) : Charged s s := ⟨rfl, fun _ => rfl, fun _ => rfl⟩

theorem Charged.trans (a : Charged s t) (b : Charged t u) : Charged s u := by
  refine ⟨?_, fun d => (b.dies d).trans (a.dies d), fun c => (b.contexts c).trans (a.contexts c)⟩
  rw [b.rest, a.rest]

theorem Charged.ite {p : Prop} [Decidable p] (a : Charged s t) (b : Charged s u) : Charged s (if p then t else u) := by
  split
  · exact a
  · exact b

theorem Charged.foldl {α : Type} {g : State → α → State} (h : ∀ s x, Charged s (g s x)) (l : List α) : ∀ s, Charged s (l.foldl g s) := by
  induction l with
  | nil => exact .refl
  | cons x l ih => exact fun s => (h s x).trans (ih _)

theorem Charged.setDie {d : Nat} {x : Die} (h : x.lineless = (s.die d).lineless) : Charged s (s.setDie d x) := by
  refine ⟨rfl, fun k => ?_, fun _ => rfl⟩
  rw [State.die_setDie]
  split
  · next hk => rw [h, hk]
  · rfl

theorem Charged.charge {ctx n : Nat} {b : Budget} : Charged s (s.charge ctx b n) := by
  refine ⟨by rw [State.charge_frame], fun d => by rw [State.charge_frame]; rfl, fun c => ?_⟩
  unfold State.charge
  rw [State.context_updContext]
  split
  · rw [Option.map_map]
    refine congrArg (fun g => (s.context c).map g) (funext fun x => ?_)
    dsimp only [Function.comp]
    split <;> rfl
  · rfl

theorem Charged.l2Keep {d key cp : Nat} : Charged s (s.l2Keep d key cp) := .setDie (by split <;> rfl)

theorem Charged.l2Only {key : Nat} : Charged s (s.l2Only key) :=
  .foldl (fun t _ => by
    split
    · exact .refl t
    · exact .setDie rfl) _ _

theorem Charged.laneAccess {core ctx key cp n : Nat} {write : Bool} : Charged s (s.laneAccess core ctx key write cp n) := by
  unfold State.laneAccess
  split
  · exact .ite .charge (.refl s)
  · split
    · exact .ite (.refl s) .l2Keep
    · extract_lets hit s1 s2
      have h1 : Charged s s1 := .ite (.refl s) .charge
      have h2 : Charged s s2 := .ite h1 ((h1.trans .l2Keep).trans .l2Keep)
      exact .ite (h2.trans .l2Only) h2

end

/-! ### The stores of lanes, performed -/

/-- What the keys and the targets of a store depend on: the contexts but for their budgets, the units but for their windows, the peers, and
where the census's counters lie. -/
structure StoreView where
  contexts : Nat → Option Context
  units : Nat → Option UnitSt
  peers : Store Peer
  counters : Nat → Option Nat

def State.storeView (s : State) : StoreView :=
  ⟨fun c => (s.context c).map Context.unused, fun u => (s.unit u).map UnitSt.windowless, s.peers, s.counterAt⟩

section
variable {s t : State}

theorem State.unit_windowless_congr (h : t.storeView = s.storeView) (u : Nat) : (t.unit u).map UnitSt.windowless = (s.unit u).map UnitSt.windowless :=
  congrFun (congrArg StoreView.units h) u

theorem State.unitOf_windowless_congr (h : t.storeView = s.storeView) (f : Sheaf) :
    (t.unitOf f).windowless = (s.unitOf f).windowless := by
  have e (x : State) : (x.unitOf f).windowless = ((x.unit f.unit).map UnitSt.windowless).getD (default : UnitSt).windowless := by
    unfold State.unitOf
    cases x.unit f.unit <;> rfl
  rw [e, e, State.unit_windowless_congr h]

theorem UnitSt.windowless_job (x : UnitSt) : x.windowless.job = x.job := rfl
theorem UnitSt.windowless_ctx (x : UnitSt) : x.windowless.ctx = x.ctx := rfl

theorem State.unitOf_job_congr (h : t.storeView = s.storeView) (f : Sheaf) : (t.unitOf f).job = (s.unitOf f).job :=
  (UnitSt.windowless_job _).symm.trans ((congrArg UnitSt.job (State.unitOf_windowless_congr h f)).trans (UnitSt.windowless_job _))

theorem State.unitOf_ctx_congr (h : t.storeView = s.storeView) (f : Sheaf) : (t.unitOf f).ctx = (s.unitOf f).ctx :=
  (UnitSt.windowless_ctx _).symm.trans ((congrArg UnitSt.ctx (State.unitOf_windowless_congr h f)).trans (UnitSt.windowless_ctx _))

/-- A context's own registers, by what it has beside its budgets. -/
theorem State.context_field_congr {α : Type} (h : t.storeView = s.storeView) {g : Context → α} (hg : ∀ x, g x.unused = g x) (c : Nat) :
    (t.context c).map g = (s.context c).map g := by
  have e (x : State) : (x.context c).map g = ((x.context c).map Context.unused).map g := by
    rw [Option.map_map]
    exact congrArg (fun k => (x.context c).map k) (funext fun y => (hg y).symm)
  rw [e, e]
  exact congrArg (Option.map g) (congrFun (congrArg StoreView.contexts h) c)

theorem State.bytePlace_congr (h : t.storeView = s.storeView) : t.bytePlace = s.bytePlace := by
  have field {g : Context → Nat} (hg : ∀ x, g x.unused = g x) (f : Sheaf) :
      g ((t.context (t.unitOf f).ctx).getD default) = g ((s.context (s.unitOf f).ctx).getD default) := by
    have e (x : State) : g ((x.context (x.unitOf f).ctx).getD default) = ((x.context (x.unitOf f).ctx).map g).getD (g default) := by
      cases x.context (x.unitOf f).ctx <;> rfl
    rw [e, e, State.unitOf_ctx_congr h, State.context_field_congr h hg]
  funext f space lane ea j
  unfold State.bytePlace
  dsimp only
  rw [field (g := Context.pvb) (fun _ => rfl), field (g := Context.pspan) (fun _ => rfl)]

theorem State.keysOf_congr (h : t.storeView = s.storeView) : t.keysOf = s.keysOf := by
  funext f space lane ea n key
  unfold State.keysOf State.places
  rw [State.bytePlace_congr h]

/-- Whether a target takes an access at all does not depend on the address that a fault would name. -/
theorem State.isSome_targetFault_congr (h : t.storeView = s.storeView) {jobs : List Nat} {key size : Nat} {a b : DWord} :
    (t.targetFault jobs key size a).isSome = (s.targetFault jobs key size b).isSome := by
  have hp : t.peers = s.peers := congrArg StoreView.peers h
  unfold State.targetFault
  rw [hp]
  cases remoteOf key with
  | none => rfl
  | some n =>
    dsimp only
    split
    · rfl
    · split
      · rfl
      · split <;> rfl

theorem memTakes_congr (h : t.storeView = s.storeView) {f : Sheaf} {keys : List Nat} {bytes : List Byte} :
    memTakes t f keys bytes = memTakes s f keys bytes := by
  unfold memTakes
  rw [State.unitOf_job_congr h, State.isSome_targetFault_congr h]

theorem Charged.storeView (h : Charged s t) : t.storeView = s.storeView := by
  have hc : (fun c => (t.context c).map Context.unused) = fun c => (s.context c).map Context.unused := funext h.contexts
  unfold State.storeView
  rw [hc, h.rest]
  rfl

end

/-- Nothing differs but memory with its poison and checks, the windows, the read caches, and what is kept of the accesses. -/
def State.StoresOnly (s t : State) : Prop :=
  t = { s with mem := t.mem, memPoison := t.memPoison, checks := t.checks, units := t.units, cores := t.cores, sheaves := t.sheaves
               contexts := t.contexts, dies := t.dies, census := t.census, requests := t.requests, storeFailures := t.storeFailures
               fresh := t.fresh, free := t.free }

theorem State.StoresOnly.refl (s : State) : s.StoresOnly s := rfl

theorem State.StoresOnly.trans {s t u : State} (a : s.StoresOnly t) (b : t.StoresOnly u) : s.StoresOnly u := by
  unfold State.StoresOnly at *
  rw [a] at b
  exact b

theorem Charged.storesOnly {s t : State} (h : Charged s t) : s.StoresOnly t := by
  unfold State.StoresOnly
  rw [h.rest]

/-- From one state to another, the bytes `mw` have gone to memory and `ww` to the window of unit `n`, and to nothing else that a later
store depends on. -/
structure Performs (n : Nat) (s t : State) (mw ww : List (Nat × Byte)) : Prop where
  view : t.storeView = s.storeView
  byte (k : Nat) : s.counterAt k = none → t.byteAt k = lastOf mw k (s.byteAt k)
  window (u : UnitSt) : s.unit n = some u → ∃ w, t.unit n = some w ∧ (∀ k, w.winByte k = lastOf ww k (u.winByte k))
    ∧ w = { u with win := w.win, winPoison := w.winPoison, winHalf := w.winHalf }
  others (k : Nat) : k ≠ n → t.unit k = s.unit k
  rest : s.StoresOnly t

section
variable {n : Nat} {s t u : State} {a b c d : List (Nat × Byte)}

theorem Performs.refl : Performs n s s [] [] :=
  ⟨rfl, fun _ _ => rfl, fun u hu => ⟨u, hu, fun _ => rfl, rfl⟩, fun _ _ => rfl, rfl⟩

theorem Performs.trans (p : Performs n s t a b) (q : Performs n t u c d) : Performs n s u (a ++ c) (b ++ d) where
  view := q.view.trans p.view
  byte k h := by
    have hk : t.counterAt k = none := (congrFun (congrArg StoreView.counters p.view) k).trans h
    rw [q.byte k hk, p.byte k h, lastOf_append]
  window x hx := by
    obtain ⟨y, hy, hb, he⟩ := p.window x hx
    obtain ⟨z, hz, hc, hf⟩ := q.window y hy
    refine ⟨z, hz, fun k => by rw [hc, hb, lastOf_append], hf.trans ?_⟩
    rw [he]
  others k h := (q.others k h).trans (p.others k h)
  rest := p.rest.trans q.rest

/-- What touches neither memory nor a unit performs nothing. -/
theorem Performs.of_kept (hv : t.storeView = s.storeView) (hm : t.mem = s.mem) (hu : t.units = s.units) (hr : s.StoresOnly t) :
    Performs n s t [] [] := by
  have hu (k : Nat) : t.unit k = s.unit k := congrArg (fun x => Store.get x k) hu
  exact ⟨hv, fun k _ => congrArg (fun m => (⟨m⟩ : Store Byte).get k) hm, fun u h => ⟨u, (hu n).trans h, fun _ => rfl, rfl⟩, fun k _ => hu k, hr⟩

theorem Performs.charged (h : Charged s t) : Performs n s t [] [] :=
  .of_kept h.storeView (by rw [h.rest]) (by rw [h.rest]) h.storesOnly

theorem Performs.write {cells : List (Nat × Byte)} : Performs n s (s.write cells) cells [] := by
  have hw := s.write_frame cells
  refine ⟨?_, fun k h => State.byteAt_write h, fun u h => ⟨u, ?_, fun _ => rfl, rfl⟩, fun k _ => ?_, ?_⟩
  · unfold State.storeView
    rw [State.counterAt_write, hw]
    rfl
  · rw [hw]
    exact h
  · rw [hw]
    rfl
  · unfold State.StoresOnly
    rw [hw]

/-- A store to the window of unit `n`. -/
theorem Performs.winStore {cells : List (Nat × Byte)} {g : UnitSt → UnitSt} (hg : ∀ x, g x = x.winStore cells) :
    Performs n s (s.updUnit n g) [] cells := by
  obtain rfl : g = fun x => x.winStore cells := funext hg
  have hf : s.updUnit n (fun x => x.winStore cells) = { s with units := (s.updUnit n fun x => x.winStore cells).units } := by
    unfold State.updUnit
    split <;> rfl
  refine ⟨?_, fun k _ => by rw [hf]; rfl, fun u h => ⟨u.winStore cells, ?_, fun k => UnitSt.winByte_winStore, UnitSt.winStore_frame⟩,
    fun k h => ?_, by rw [hf]; rfl⟩
  · unfold State.storeView
    refine congr (congr (congr (congrArg _ ?_) (funext fun k => ?_)) ?_) ?_
    · rw [hf]; rfl
    · rw [State.unit_updUnit]
      split
      · rw [Option.map_map]
        exact congrArg (fun h => (s.unit k).map h) (funext fun x => UnitSt.windowless_winStore)
      · rfl
    · rw [hf]
    · rw [hf]; rfl
  · rw [State.unit_updUnit, if_pos rfl, h]
    rfl
  · rw [State.unit_updUnit, if_neg h]

theorem Performs.updSheaf {id : Nat} {g : Sheaf → Sheaf} : Performs n s (s.updSheaf id g) [] [] := by
  have h := State.updSheaf_rest (s := s) (id := id) (u := g)
  exact .of_kept (by rw [h]; rfl) (by rw [h]) (by rw [h]) (by rw [h]; rfl)

theorem Performs.dropLines {core : Nat} {keys : List Nat} : Performs n s (s.dropLines core keys) [] [] := .of_kept rfl rfl rfl rfl

theorem Performs.sendRequest : Performs n s s.sendRequest [] [] := .of_kept rfl rfl rfl rfl

theorem Performs.storeFailed {id lane bytes peer cause : Nat} {f : Sheaf} {pc addr : DWord} :
    Performs n s (s.storeFailed id f lane pc addr bytes peer cause) [] [] := .of_kept rfl rfl rfl rfl

theorem Performs.ite {p : Prop} [Decidable p] (x : Performs n s t a b) (y : Performs n s u a b) : Performs n s (if p then t else u) a b := by
  split
  · exact x
  · exact y

/-- A part at its keys in memory. -/
theorem Performs.performAt {id : Nat} {f : Sheaf} {e : StoreEntry} {p : StorePart} {va : DWord} {keys : List Nat} :
    Performs n s (s.performAt id f e p va keys) (memTakes s f keys p.bytes) [] := by
  have hf {a b : DWord} : (s.targetFault [(s.unitOf f).job] (keys.headD 0) p.bytes.length a).isSome
      = (s.targetFault [(s.unitOf f).job] (keys.headD 0) p.bytes.length b).isSome := State.isSome_targetFault_congr rfl
  unfold State.performAt memTakes
  extract_lets v key s1
  rw [hf (b := va)]
  split
  · next q hq =>
    rw [show s.targetFault [(s.unitOf f).job] (keys.headD 0) p.bytes.length va = some q from hq]
    exact .storeFailed
  · next hq =>
    rw [show s.targetFault [(s.unitOf f).job] (keys.headD 0) p.bytes.length va = none from hq]
    have h1 : Performs n s s1 [] [] := .ite .sendRequest .refl
    have h2 := (h1.trans (.write (cells := keys.zip p.bytes))).trans (.dropLines (core := f.coreNo) (keys := keys))
    have h3 := h2.trans (.charged (.laneAccess (core := f.coreNo) (ctx := v.ctx) (key := key) (cp := e.cp) (n := p.bytes.length) (write := true)))
    simpa using h3

end

/-- What one part of an entry writes to memory. -/
def partMem (s : State) (f : Sheaf) (e : StoreEntry) (p : StorePart) : List (Nat × Byte) :=
  match e.stream, e.space, p.phys with
  | none, .pv, some key | none, .g, some key | none, .ga, some key =>
    memTakes s f (s.keysOf f e.space p.lane p.ea p.bytes.length key) p.bytes
  | some q, _, some key =>
    if (f.streams.get q).sp then [] else memTakes s f ((List.range p.bytes.length).map fun j => key + j) p.bytes
  | _, _, _ => []

/-- What one part of an entry writes to the window. -/
def partWin (f : Sheaf) (e : StoreEntry) (p : StorePart) : List (Nat × Byte) :=
  match e.stream, e.space, p.phys with
  | none, .sp, _ => ((List.range p.bytes.length).map fun j => p.ea.toNat + j).zip p.bytes
  | some q, _, some key => if (f.streams.get q).sp then ((List.range p.bytes.length).map fun j => key + j).zip p.bytes else []
  | _, _, _ => []

/-- The parts of an entry that lanes of a mask have in it. -/
def StoreEntry.partsOf (e : StoreEntry) (m : Mask) : List StorePart := e.parts.filter fun p => m.getLsbD p.lane

theorem memWrites_eq (s : State) (f : Sheaf) (m : Mask) : memWrites s f m = f.storeQueue.flatMap fun e => (e.partsOf m).flatMap (partMem s f e) := by
  unfold memWrites
  refine congrArg (fun g => f.storeQueue.flatMap g) (funext fun e => congrArg (fun g => (e.partsOf m).flatMap g) (funext fun p => ?_))
  unfold partMem
  rfl

theorem winWrites_eq (f : Sheaf) (m : Mask) : winWrites f m = f.storeQueue.flatMap fun e => (e.partsOf m).flatMap (partWin f e) := by
  unfold winWrites
  refine congrArg (fun g => f.storeQueue.flatMap g) (funext fun e => congrArg (fun g => (e.partsOf m).flatMap g) (funext fun p => ?_))
  unfold partWin
  rfl

/-- The sheaf as its stores are performed: what of it a store depends on, and what it keeps until they are dropped. -/
structure Performing (f g : Sheaf) : Prop where
  rest : g = { f with streams := g.streams, committed := g.committed, drained := g.drained }
  sp (q : Nat) : (g.streams.get q).sp = (f.streams.get q).sp

section
variable {f g h : Sheaf}

theorem Performing.refl (f : Sheaf) : Performing f f := ⟨rfl, fun _ => rfl⟩

theorem Performing.trans (a : Performing f g) (b : Performing g h) : Performing f h := by
  refine ⟨?_, fun q => (b.sp q).trans (a.sp q)⟩
  rw [b.rest, a.rest]

theorem Performing.unit (a : Performing f g) : g.unit = f.unit := by rw [a.rest]

variable {s t : State} {e : StoreEntry} {p : StorePart}

theorem Performing.memTakes (a : Performing f g) {keys : List Nat} {bytes : List Byte} : memTakes s g keys bytes = memTakes s f keys bytes := by
  unfold Claims.memTakes State.unitOf
  rw [a.unit]

theorem Performing.keysOf (a : Performing f g) {space : Space} {lane n key : Nat} {ea : DWord} :
    s.keysOf g space lane ea n key = s.keysOf f space lane ea n key := by
  have hp : s.bytePlace g = s.bytePlace f := by
    funext space lane ea j
    unfold State.bytePlace State.unitOf
    rw [a.rest]
  unfold State.keysOf State.places
  rw [hp]

theorem Performing.partMem (a : Performing f g) (h : t.storeView = s.storeView) : partMem t g e p = partMem s f e p := by
  unfold Machine.partMem
  simp only [State.keysOf_congr h, memTakes_congr h, a.memTakes, a.keysOf, a.sp]

theorem Performing.partWin (a : Performing f g) : partWin g e p = partWin f e p := by
  unfold Machine.partWin
  simp only [a.sp]

end

section
variable {s t : State} {id : Nat} {m : Mask} {f : Sheaf} {e : StoreEntry} {p : StorePart}

/-- A part of a store word. -/
theorem Performs.performPart (hf : s.sheaf id = some f) (he : e.stream = none) :
    Performs f.unit s (s.performPart id e p) (partMem s f e p) (partWin f e p) := by
  unfold State.performPart partMem partWin
  rw [hf, he]
  dsimp only
  cases hs : e.space with
  | sp => exact .winStore fun x => UnitSt.winWrite_eq
  | pv => cases p.phys with
    | none => exact .refl
    | some key => exact .performAt
  | g => cases p.phys with
    | none => exact .refl
    | some key => exact .performAt
  | ga => cases p.phys with
    | none => exact .refl
    | some key => exact .performAt

/-- A push to a stream. -/
theorem Performs.performPush (hf : s.sheaf id = some f) {q k : Nat} {r : StreamReg} (he : e.stream = some q) (hr : r.sp = (f.streams.get q).sp) :
    Performs f.unit s (s.performPush id e r k p) (partMem s f e p) (partWin f e p) := by
  unfold State.performPush partMem partWin
  rw [hf, he, hr]
  cases p.phys with
  | none => exact .refl
  | some key =>
    dsimp only
    cases (f.streams.get q).sp with
    | true => exact .winStore fun _ => rfl
    | false => exact .performAt

/-- Parts performed one after the other, by an operation that leaves the sheaves. -/
theorem Performs.parts {α : Type} {step : State → α → State} {part : α → StorePart} (hf : s.sheaf id = some f)
    (hs : ∀ t x, (step t x).sheaves = t.sheaves)
    (h : ∀ t x, t.sheaf id = some f → Performs f.unit t (step t x) (partMem t f e (part x)) (partWin f e (part x))) (l : List α) :
    Performs f.unit s (l.foldl step s) ((l.map part).flatMap (partMem s f e)) ((l.map part).flatMap (partWin f e)) := by
  induction l generalizing s with
  | nil => exact .refl
  | cons x l ih =>
    have h1 := h s x hf
    have h2 := ih (s := step s x) ((congrArg (fun c => Store.get c id) (hs s x)).trans hf)
    rw [List.foldl_cons, List.map_cons, List.flatMap_cons, List.flatMap_cons]
    rw [show partMem (step s x) f e = partMem s f e from funext fun p => (Performing.refl f).partMem h1.view] at h2
    exact h1.trans h2

theorem State.foldl_performPart_sheaf (l : List StorePart) (k : Nat) :
    (l.foldl (fun (acc : State) p => acc.performPart id e p) s).sheaf k = s.sheaf k :=
  congrArg (fun c => Store.get c k) (foldl_keeps State.sheaves _ (fun _ _ => State.performPart_sheaves ..) _ _)

/-- An entry, performed: its parts, and what the sheaf counts of them. -/
theorem Performs.performEntry (hf : s.sheaf id = some f) :
    Performs f.unit s (s.performEntry id m e) ((e.partsOf m).flatMap (partMem s f e)) ((e.partsOf m).flatMap (partWin f e))
    ∧ (∃ g, (s.performEntry id m e).sheaf id = some g ∧ Performing f g) ∧ ∀ k, k ≠ id → (s.performEntry id m e).sheaf k = s.sheaf k := by
  unfold State.performEntry
  extract_lets mine s1
  have hm : mine = e.partsOf m := rfl
  have h1 : Performs f.unit s s1 ((e.partsOf m).flatMap (partMem s f e)) ((e.partsOf m).flatMap (partWin f e))
      ∧ (∃ g, s1.sheaf id = some g ∧ Performing f g) ∧ ∀ k, k ≠ id → s1.sheaf k = s.sheaf k := by
    cases he : e.stream with
    | none =>
      have hs (k : Nat) : s1.sheaf k = s.sheaf k := by
        unfold s1
        rw [he]
        exact State.foldl_performPart_sheaf ..
      refine ⟨?_, ⟨f, (hs id).trans hf, .refl f⟩, fun k _ => hs k⟩
      have h := Performs.parts (e := e) (part := fun p => p) (step := fun (acc : State) p => acc.performPart id e p) hf
        (fun _ _ => State.performPart_sheaves ..) (fun _ _ ht => .performPart ht he) mine
      rw [List.map_id'] at h
      unfold s1
      rw [he]
      exact h
    | some q =>
      obtain ⟨r, hr, hs1⟩ : ∃ r : StreamReg, r.sp = (f.streams.get q).sp
          ∧ s1 = (((List.range mine.length).zip mine).foldl (fun (acc : State) c => acc.performPush id e r (r.given + c.1) c.2) s).updSheaf id
            fun f => { f with streams := f.streams.modify q fun x => { x with given := x.given + mine.length } } := by
        unfold s1
        rw [he, hf]
        exact ⟨f.streams.get q, rfl, rfl⟩
      have hs (k : Nat) : (((List.range mine.length).zip mine).foldl (fun (acc : State) c => acc.performPush id e r (r.given + c.1) c.2) s).sheaf k
          = s.sheaf k := congrArg (fun c => Store.get c k) (foldl_keeps State.sheaves _ (fun _ _ => State.performPush_sheaves ..) _ _)
      rw [hs1]
      refine ⟨?_, ⟨_, State.sheaf_updSheaf ((hs id).trans hf) _, rfl, fun q' => ?_⟩, fun k hk => ?_⟩
      · have h := Performs.parts (e := e) (part := Prod.snd) (step := fun (acc : State) c => acc.performPush id e r (r.given + c.1) c.2) hf
          (fun _ _ => State.performPush_sheaves ..) (fun _ _ ht => .performPush ht he hr) ((List.range mine.length).zip mine)
        rw [List.map_snd_zip (by simp)] at h
        simpa [hm] using h.trans .updSheaf
      · dsimp only
        rw [Store.modify, Store.get_set]
        split
        · next hq => rw [hq]
        · rfl
      · rw [(State.updSheaf_in ..).1 k hk, hs]
  obtain ⟨hp, ⟨g, hg, hpg⟩, ho⟩ := h1
  refine ⟨by simpa using hp.trans .updSheaf, ⟨_, State.sheaf_updSheaf hg _, hpg.trans ⟨rfl, fun _ => rfl⟩⟩, fun k hk => ?_⟩
  rw [(State.updSheaf_in ..).1 k hk, ho k hk]

/-- Entries, performed one after the other. -/
theorem Performs.entries {f0 : Sheaf} (hf : s.sheaf id = some f) (h0 : Performing f0 f) (l : List StoreEntry) :
    Performs f0.unit s (l.foldl (fun acc e => acc.performEntry id m e) s) (l.flatMap fun e => (e.partsOf m).flatMap (partMem s f0 e))
      (l.flatMap fun e => (e.partsOf m).flatMap (partWin f0 e))
    ∧ (∃ g, (l.foldl (fun acc e => acc.performEntry id m e) s).sheaf id = some g ∧ Performing f0 g)
    ∧ ∀ k, k ≠ id → (l.foldl (fun acc e => acc.performEntry id m e) s).sheaf k = s.sheaf k := by
  induction l generalizing s f with
  | nil => exact ⟨.refl, ⟨f, hf, h0⟩, fun _ _ => rfl⟩
  | cons e l ih =>
    obtain ⟨hp, ⟨g, hg, hpg⟩, ho⟩ := Performs.performEntry (m := m) (e := e) hf
    obtain ⟨hp', hg', ho'⟩ := ih hg (h0.trans hpg)
    rw [show (partMem s f e) = partMem s f0 e from funext fun _ => h0.partMem rfl,
      show (partWin f e) = partWin f0 e from funext fun _ => h0.partWin, h0.unit] at hp
    have hv (e' : StoreEntry) : partMem (s.performEntry id m e) f0 e' = partMem s f0 e' :=
      funext fun _ => (Performing.refl f0).partMem hp.view
    simp only [hv] at hp'
    exact ⟨hp.trans hp', hg', fun k hk => (ho' k hk).trans (ho k hk)⟩

/-- The commit of lanes' queued stores: what is written, and what becomes of the sheaf. -/
theorem Performs.commit (hf : s.sheaf id = some f) :
    Performs f.unit s (s.commit id m) (memWrites s f m) (winWrites f m)
    ∧ (∃ g, (s.commit id m).sheaf id = some (g.dropStores m) ∧ Performing f g) ∧ ∀ k, k ≠ id → (s.commit id m).sheaf k = s.sheaf k := by
  obtain ⟨hp, ⟨g, hg, hpg⟩, ho⟩ := Performs.entries (m := m) hf (.refl f) f.storeQueue
  unfold State.commit
  rw [hf, memWrites_eq, winWrites_eq]
  refine ⟨by simpa using hp.trans .updSheaf, ⟨g, State.sheaf_updSheaf hg _, hpg⟩, fun k hk => ?_⟩
  dsimp only
  rw [(State.updSheaf_in ..).1 k hk, ho k hk]

end

/-- Settles O19: the parts that the lanes have in the queue are performed one after the other, each writing its bytes and leaving what the
next depends on; then they leave the queue. -/
theorem commitPerformsStores : Obligations.CommitPerformsStores := by
  unfold Obligations.CommitPerformsStores
  intro s id m f hf
  obtain ⟨hp, ⟨g, hg, hpg⟩, ho⟩ := Performs.commit (m := m) hf
  refine ⟨hp.byte, hp.window, hp.others, ho, ⟨_, hg, ?_, ?_⟩, hp.rest⟩
  · rw [hpg.rest]
    rfl
  · rw [hpg.rest]
    rfl

end Sys2Proof.Machine
end

section
/-!
PROOFS. One lane's part of an atomic word (O22): the checks that stop it one after the other, and what it leaves where it is performed.
-/
namespace Sys2Proof.Machine
open Sys2Proof.Claims

section
variable {s v : State} {k : Nat}

/-- Verified lines hold the bytes that they held. -/
theorem State.verifyLines_byteAt {keys : List Nat} : (keys.foldl State.verifyLine s).byteAt k = s.byteAt k :=
  State.byteAt_congr (foldl_keeps State.mem _ (fun _ _ => State.verifyLine_mem) _ _)

theorem State.verifyLines_only {keys : List Nat} : s.MemOnly (keys.foldl State.verifyLine s) := .foldl State.verifyLine_only _ _

/-- What an atomic leaves of the state in which its lane was let through: memory, its core's read cache, and what is kept of the access. -/
def State.AtomicOnly (s t : State) : Prop :=
  t = { s with mem := t.mem, memPoison := t.memPoison, checks := t.checks, cores := t.cores, contexts := t.contexts
               free := t.free, dies := t.dies, requests := t.requests, census := t.census }

theorem State.AtomicOnly.trans {u : State} (a : s.AtomicOnly v) (b : v.AtomicOnly u) : s.AtomicOnly u := by
  unfold State.AtomicOnly at *
  rw [a] at b
  exact b

theorem State.MemOnly.atomicOnly (h : s.MemOnly v) : s.AtomicOnly v := by
  unfold State.MemOnly at h
  unfold State.AtomicOnly
  rw [h]

theorem Charged.atomicOnly (h : Charged s v) : s.AtomicOnly v := by
  unfold State.AtomicOnly
  rw [h.rest]

theorem State.accWrite_atomicOnly {u core : Nat} {a : Acc} {b : List Byte} (h : a.win = false) : s.AtomicOnly (s.accWrite u core a b) := by
  unfold State.AtomicOnly State.accWrite
  rw [h, if_neg Bool.false_ne_true, State.write_frame]
  rfl

end

/-- An atomic's new value written to its place. -/
def State.atomicWrite (s : State) (c : Ctx) (f : Sheaf) (a : Acc) (bytes : List Byte) : State :=
  let s3 := s.accWrite f.unit f.coreNo a bytes
  let s4 := if (remoteOf (a.keys.headD 0)).isSome then s3.sendRequest else s3
  s4.laneAccess f.coreNo c.unit.ctx (a.keys.headD 0) true c.x.cp.toNat bytes.length

section
variable {s : State} {c : Ctx} {f : Sheaf} {a : Acc} {bytes : List Byte}

theorem State.accWrite_requests (ha : a.win = false) {u core : Nat} : (s.accWrite u core a bytes).requests = s.requests := by
  unfold State.accWrite
  rw [ha, if_neg Bool.false_ne_true, State.write_frame]
  rfl

theorem State.atomicWrite_requests (ha : a.win = false) :
    (s.atomicWrite c f a bytes).requests = s.requests + (if (remoteOf (a.keys.headD 0)).isSome then 1 else 0) := by
  unfold State.atomicWrite
  extract_lets s3 s4
  rw [Charged.laneAccess.rest]
  have h3 : s3.requests = s.requests := State.accWrite_requests ha
  unfold s4
  split
  · exact congrArg (· + 1) h3
  · exact h3

theorem State.atomicWrite_byteAt (ha : a.win = false) {k : Nat} (hk : s.counterAt k = none) :
    (s.atomicWrite c f a bytes).byteAt k = lastOf (a.keys.zip bytes) k (s.byteAt k) := by
  unfold State.atomicWrite
  extract_lets s3 s4
  have h3 : s3.byteAt k = lastOf (a.keys.zip bytes) k (s.byteAt k) := by
    unfold s3 State.accWrite
    rw [ha, if_neg Bool.false_ne_true]
    exact State.byteAt_write hk
  have h4 : s4.byteAt k = s3.byteAt k := State.byteAt_congr (by unfold s4; split <;> rfl)
  rw [← h3, ← h4]
  exact State.byteAt_congr (by rw [Charged.laneAccess.rest])

theorem State.atomicWrite_atomicOnly (ha : a.win = false) : s.AtomicOnly (s.atomicWrite c f a bytes) := by
  unfold State.atomicWrite
  extract_lets s3 s4
  have h4 : s3.AtomicOnly s4 := by
    unfold s4
    split <;> rfl
  exact ((State.accWrite_atomicOnly ha).trans h4).trans Charged.laneAccess.atomicOnly

end

section
variable {s p : State} {c : Ctx} {m : BitVec 3} {wide : Bool} {op l : Nat} {ea : DWord} {right : Right} {new : Nat → Nat} {f : Sheaf} {a : Acc}

theorem State.atomLane_addressFault {k : Nat} (hf : s.sheaf c.id = some f)
    (h : addressFault c.unit m ea (if wide then 8 else 4) = some k) :
    s.atomLane c (spaceBy m) op wide ea l right new = (s, .fault ⟨.unserviceable, k, ea, []⟩) := by
  rw [← checkEa_eq] at h
  simp only [State.atomLane, hf, h]

theorem State.atomLane_bad {q : Poison} (hf : s.sheaf c.id = some f) (hc : addressFault c.unit m ea (if wide then 8 else 4) = none)
    (h : s.locate f (spaceBy m) l ea (if wide then 8 else 4) right true = .bad q) :
    s.atomLane c (spaceBy m) op wide ea l right new = (s, .fault q) := by
  rw [← checkEa_eq] at hc
  simp only [State.atomLane, hf, hc, h]

/-- A lane whose access has a place in memory: its target, its link and its poison let it through in this order. -/
theorem State.atomLane_here (hf : s.sheaf c.id = some f) (hc : addressFault c.unit m ea (if wide then 8 else 4) = none)
    (hl : s.locate f (spaceBy m) l ea (if wide then 8 else 4) right true = .here a p) (ha : a.win = false) :
    s.atomLane c (spaceBy m) op wide ea l right new =
      let key := a.keys.headD 0
      let va := s.vaOf f (spaceBy m) l ea
      let v := a.keys.foldl State.verifyLine p
      (p.targetFault [c.unit.job] key (if wide then 8 else 4) va).elim
        ((p.refuses a op c.form wide).elim
          (if p.laneHeld f.coreNo c.unit.ctx key then (s, .later)
          else if a.keys.any v.poisonAt then (v, .fault ⟨.unserviceable, 7, va, []⟩)
          else
            let old := leNat (a.keys.map v.byteAt)
            let t := v.atomicWrite c f a (toBytes (if wide then 8 else 4) (new old))
            (t, .done old (remoteOf key) t.requests))
          fun k => (p, .refused k va))
        fun q => (p, .fault q) := by
  rw [← checkEa_eq] at hc
  simp only [State.atomLane, hf, hc, hl, ha, Bool.false_eq_true, if_false, Bool.not_false, Bool.true_and, State.accPoisoned, State.accBytes]
  cases p.targetFault [c.unit.job] (a.keys.headD 0) (if wide = true then 8 else 4) (s.vaOf f (spaceBy m) l ea) with
  | some q => rfl
  | none =>
    cases p.refuses a op c.form wide with
    | some k => rfl
    | none =>
      dsimp only [Option.elim]
      congr 2
      rw [State.atomicWrite, toBytes_length, Charged.laneAccess.rest]

end

/-- Settles O22: the checks in their order, each with the answer that it gives; a lane that they let through writes its new value alone. -/
theorem atomicLanes : Obligations.AtomicLanes := by
  unfold Obligations.AtomicLanes
  intro s c m wide op l ea right new f hf
  extract_lets size run va
  refine ⟨fun k h => State.atomLane_addressFault hf h, fun hc => ⟨fun q h => State.atomLane_bad hf hc h, fun a p hl ha => ?_⟩⟩
  have hrun := State.atomLane_here (op := op) (new := new) hf hc hl ha
  extract_lets key v
  refine ⟨fun q h => ?_, fun ht => ⟨fun k h => ?_, fun hr => ⟨fun h => ?_, fun hh => ⟨fun h => ?_, fun hp => ?_⟩⟩⟩⟩
  · exact hrun.trans (by dsimp only; rw [h]; rfl)
  · exact hrun.trans (by dsimp only; rw [ht, h]; rfl)
  · exact hrun.trans (by dsimp only; rw [ht, hr, if_pos h]; rfl)
  · exact hrun.trans (by dsimp only; rw [ht, hr, if_neg (by rw [hh]; exact Bool.false_ne_true), if_pos h]; rfl)
  · have hv : p.MemOnly v := State.verifyLines_only
    have hb : v.byteAt = p.byteAt := funext fun k => State.verifyLines_byteAt
    have hq : v.requests = p.requests := by rw [hv]
    have hcount : v.counterAt = p.counterAt := by rw [hv]; rfl
    refine ⟨v.atomicWrite c f a (toBytes size (new (leNat (a.keys.map v.byteAt)))), hrun.trans ?_, ?_, fun k hk => ?_, ?_⟩
    · dsimp only
      rw [ht, hr, if_neg (by rw [hh]; exact Bool.false_ne_true), if_neg (by rw [hp]; exact Bool.false_ne_true), ← leNat_eq, ← hb]
      rfl
    · rw [State.atomicWrite_requests ha, hq]
    · rw [State.atomicWrite_byteAt ha (by rw [hcount, hk]), toBytes_eq, leNat_eq, hb]
    · exact (hv.atomicOnly.trans (State.atomicWrite_atomicOnly ha))

end Sys2Proof.Machine
end

section
/-!
PROOFS. Atomic words at the window (O21): the new values as R193 gives them, the lanes performed one after the other, and their returns.
-/
namespace Sys2Proof.Machine
open Sys2Proof.Claims

/-! ### New values (R193) -/

theorem readInt_of_lt {w x : Nat} (h : x < 2 ^ w) : readInt w true x = if 2 ^ (w - 1) ≤ x then (x : Int) - 2 ^ w else x := by
  simp only [readInt, Nat.mod_eq_of_lt h, Bool.true_and, decide_eq_true_eq, Nat.cast_pow, Nat.cast_ofNat]

theorem roundSum_eq {f : Fmt} {rm : Word} {l : List Ex} : f.roundSum rm l = rounded f rm l := by
  rw [Fmt.roundSum, rounded, rmMode_eq]

section
variable {form w old x y : Nat} {rm : Word}

theorem atomNew_eq (hf : form < 9) (ho : old < 2 ^ w) (hx : x < 2 ^ w) : atomNew form w old x = atomicNew 0x6C form w rm old x y := by
  unfold atomNew atomicNew
  rw [readInt_of_lt ho, readInt_of_lt hx, if_pos rfl]
  obtain rfl | rfl | rfl | rfl | rfl | rfl | rfl | rfl | rfl :
    form = 0 ∨ form = 1 ∨ form = 2 ∨ form = 3 ∨ form = 4 ∨ form = 5 ∨ form = 6 ∨ form = 7 ∨ form = 8 := by omega
  all_goals rfl

theorem atomfNew_eq (hf : form < 5) : atomfNew rm form old x = atomicNew 0x6E form w rm old x y := by
  unfold atomfNew atomicNew
  simp only [roundSum_eq]
  obtain rfl | rfl | rfl | rfl | rfl : form = 0 ∨ form = 1 ∨ form = 2 ∨ form = 3 ∨ form = 4 := by omega
  all_goals rfl

theorem atomicNew_cas : atomicNew 0x6D form w rm old x y = if old = x then y else old := rfl

theorem atomicNew_atst : atomicNew 0x6F form w rm old x y = x := rfl

end

theorem hi32_pair64 {a b : Word} : hi32 (pair64 a b) = b := by
  rw [hi32, pair64, BitVec.extractLsb'_append_eq_left]

theorem Ctx.hi32_r64 {c : Ctx} {d : BitVec 7} {l : Nat} : (hi32 (c.r64 d l)).toNat = if d = 120 then 0 else (c.reg (d.toNat + 1) l).toNat := by
  unfold Ctx.r64
  split
  · rfl
  · rw [hi32_pair64]

/-! ### Lanes performed one after the other -/

section
variable {size : Nat} {ea : Nat → Nat} {new new' : Nat → Nat → Nat}

theorem length_window {u : UnitSt} {a n : Nat} : ((List.range n).map fun j => u.winByte (a + j)).length = n := by
  rw [List.length_map, List.length_range]

/-- Bytes make no more than their number allows. -/
theorem valueOf_window_lt {u : UnitSt} {a n : Nat} : valueOf ((List.range n).map fun j => u.winByte (a + j)) < 256 ^ n := by
  have h := leNat_lt ((List.range n).map fun j => u.winByte (a + j))
  rwa [leNat_eq, length_window] at h

theorem inTurn_congr (h : ∀ l old, old < 256 ^ size → new l old = new' l old) (ls : List Nat) :
    ∀ u, inTurn size ea new ls u = inTurn size ea new' ls u := by
  induction ls with
  | nil => exact fun _ => rfl
  | cons l ls ih =>
    intro u
    unfold inTurn
    extract_lets old r r'
    have hr : r = r' := by
      unfold r r'
      rw [h l old valueOf_window_lt, ih]
    rw [hr]

theorem inTurn_lt {ls : List Nat} : ∀ {u : UnitSt} {x : Nat × Nat}, x ∈ (inTurn size ea new ls u).1 → x.2 < 256 ^ size := by
  induction ls with
  | nil => exact fun h => absurd h (List.not_mem_nil)
  | cons l ls ih =>
    intro u x h
    rcases List.mem_cons.1 h with rfl | h
    · exact valueOf_window_lt
    · exact ih h

end

/-- A store to the window spoils no byte. -/
theorem UnitSt.badByte_winStore {u : UnitSt} {cells : List (Nat × Byte)} {k : Nat} (h : u.badByte k = false) : (u.winStore cells).badByte k = false := by
  unfold UnitSt.winStore
  extract_lets keys u1
  have h1 : u1.badByte k = false := h
  clear_value u1
  have key (l : List Nat) : ∀ x : UnitSt, x.badByte k = false →
      (l.foldl (fun acc k => if acc.badByte k && coversWord keys k then acc.winHeal (k / 8) else acc) x).badByte k = false := by
    induction l with
    | nil => exact fun _ h => h
    | cons j l ih =>
      intro x hx
      refine ih _ ?_
      dsimp only
      split
      · simp only [UnitSt.badByte, UnitSt.winHeal, Store.get_set, Bool.or_eq_false_iff] at hx ⊢
        constructor
        · split
          · rfl
          · exact hx.1
        · split
          · rfl
          · split
            · rfl
            · exact hx.2
      · exact hx
  exact key keys u1 h1

/-- From one state to another only the window of a unit differs, which is then `w`. -/
structure WindowBecomes (n : Nat) (w : UnitSt) (s t : State) : Prop where
  unit : t.unit n = some w
  others (k : Nat) : k ≠ n → t.unit k = s.unit k
  rest : t = { s with units := t.units }

theorem WindowBecomes.trans {n : Nat} {v w : UnitSt} {s t u : State} (a : WindowBecomes n v s t) (b : WindowBecomes n w t u) :
    WindowBecomes n w s u := by
  refine ⟨b.unit, fun k h => (b.others k h).trans (a.others k h), ?_⟩
  rw [b.rest, a.rest]

theorem WindowBecomes.updUnit {s : State} {n : Nat} {u : UnitSt} {g : UnitSt → UnitSt} (h : s.unit n = some u) :
    WindowBecomes n (g u) s (s.updUnit n g) := by
  refine ⟨?_, fun k hk => ?_, ?_⟩
  · rw [State.unit_updUnit, if_pos rfl, h]
    rfl
  · rw [State.unit_updUnit, if_neg hk]
  · unfold State.updUnit
    split <;> rfl

section
variable {s : State} {c : Ctx} {m : BitVec 3} {a : BitVec 7} {op : Nat} {wide : Bool} {right : Right} {f : Sheaf} {u : UnitSt}

/-- One lane at the window. -/
theorem State.atomLane_window {x : State} {new : Nat → Nat} {ea : DWord} {l : Nat} (hx : x.sheaf c.id = some f) (hu : x.unit f.unit = some u)
    (hc : addressFault c.unit m ea (if wide then 8 else 4) = none) (hm : m.toNat % 4 = 0)
    (hb : ∀ j, j < (if wide then 8 else 4) → u.badByte (ea.toNat + j) = false) :
    x.atomLane c (spaceBy m) op wide ea l right new =
      let old := valueOf ((List.range (if wide then 8 else 4)).map fun j => u.winByte (ea.toNat + j))
      let t := x.updUnit f.unit fun u => u.winWrite ea.toNat (littleEndian (if wide then 8 else 4) (new old))
      (t, .done old none t.requests) := by
  have hbad : (((List.range (if wide then 8 else 4)).map fun j => ea.toNat + j).any u.badByte) = false := by
    rw [List.any_map, List.any_eq_false]
    intro j hj
    rw [Function.comp, hb j (List.mem_range.1 hj)]
    exact Bool.false_ne_true
  rw [← checkEa_eq] at hc
  rw [spaceBy_window hm] at hc ⊢
  simp only [State.atomLane, hx, hc, State.locate, State.refuses, State.accPoisoned, State.accBytes, State.accWrite, hu, Option.getD_some,
    hbad, Bool.true_or, Bool.not_true, Bool.false_and, Bool.false_eq_true, if_true, if_false, Option.isSome_none, List.map_map, leNat_eq,
    toBytes_eq, UnitSt.winWrite_eq, littleEndian_length]
  rfl

/-- One lane of the word, with what the lanes before it gave. -/
def State.atomStep (s0 : State) (c : Ctx) (space : Space) (op : Nat) (wide : Bool) (m : BitVec 3) (a : BitVec 7) (right : Right)
    (new : Nat → Nat → Nat) (acc : State × List (Nat × AtomRes)) (l : Nat) : State × List (Nat × AtomRes) :=
  match c.declined s0 l with
  | some p => (acc.1, acc.2 ++ [(l, .fault p)])
  | none =>
    let r := acc.1.atomLane c space op wide (c.ea m a l) l right (new l)
    (r.1, acc.2 ++ [(l, r.2)])

theorem State.atomLanes_eq {x s0 : State} {space : Space} {new : Nat → Nat → Nat} {ls : List Nat} :
    x.atomLanes s0 c space op wide m a right new ls = ls.foldl (State.atomStep s0 c space op wide m a right new) (x, []) := rfl

/-- The lanes of the word, one after the other: what `inTurn` says. -/
theorem State.atomLanes_window {new : Nat → Nat → Nat} (hm : m.toNat % 4 = 0) (ls : List Nat) :
    ∀ {x : State} {u : UnitSt} (got : List (Nat × AtomRes)), x.sheaf c.id = some f → x.unit f.unit = some u →
      (∀ l ∈ ls, addressFault c.unit m (address c m a l) (if wide then 8 else 4) = none ∧ c.declined s l = none
        ∧ ∀ j, j < (if wide then 8 else 4) → u.badByte ((address c m a l).toNat + j) = false) →
      let r := inTurn (if wide then 8 else 4) (fun l => (address c m a l).toNat) new ls u
      ∃ t, ls.foldl (State.atomStep s c (spaceBy m) op wide m a right new) (x, got)
          = (t, got ++ r.1.map fun y => (y.1, .done y.2 none x.requests))
        ∧ WindowBecomes f.unit r.2 x t := by
  induction ls with
  | nil => exact fun got _ hu _ => ⟨_, by rw [List.foldl_nil]; simp [inTurn], hu, fun _ _ => rfl, rfl⟩
  | cons l ls ih =>
    intro x u got hx hu hls
    obtain ⟨hc, hd, hb⟩ := hls l (by simp)
    have h1 := State.atomLane_window (op := op) (right := right) (new := new l) (l := l) hx hu hc hm hb
    extract_lets old x1 at h1
    have hw : WindowBecomes f.unit (u.winWrite (address c m a l).toNat (littleEndian (if wide then 8 else 4) (new l old))) x x1 :=
      .updUnit (g := fun u => u.winWrite (address c m a l).toNat (littleEndian (if wide then 8 else 4) (new l old))) hu
    have hstep : State.atomStep s c (spaceBy m) op wide m a right new (x, got) l = (x1, got ++ [(l, .done old none x.requests)]) := by
      unfold State.atomStep
      rw [hd]
      dsimp only
      rw [Ctx.ea_eq, h1, hw.rest]
    obtain ⟨t, ht, hwt⟩ := ih (got ++ [(l, .done old none x.requests)]) (x := x1) (by rw [hw.rest]; exact hx) hw.unit fun k hk => by
      obtain ⟨hc, hd, hb⟩ := hls k (by simp [hk])
      exact ⟨hc, hd, fun j hj => UnitSt.badByte_winStore (hb j hj)⟩
    refine ⟨t, ?_, hw.trans hwt⟩
    rw [List.foldl_cons, hstep, ht, hw.rest, List.append_assoc]
    rfl

/-- What a lane's old value comes back as, from the window. -/
def atomPart (c : Ctx) (wide : Bool) (m : BitVec 3) (d a : BitVec 7) (request : Nat) (x : Nat × Nat) : Outstanding :=
  { id := 32 * c.op + x.1, lane := x.1, kind := .value (wordsOf (if wide then 8 else 4) false x.2), space := .sp, ea := address c m a x.1
    size := if wide then 8 else 4, dst := dstSeen c d x.1, regs := (if wide then 8 else 4) / 4, op := c.op, acquire := scopeOf c m
    request := request, pc := c.pc, inRegion := false }

/-- Of a sheaf only flag parts differ, and parts have come to wait. -/
def Awaits (g h : Sheaf) (l : List Outstanding) : Prop := h = { g with flagOps := h.flagOps, outstanding := g.outstanding ++ l }

theorem Awaits.refl (g : Sheaf) : Awaits g g [] := by
  unfold Awaits
  rw [List.append_nil]

theorem Awaits.trans {g h k : Sheaf} {l l' : List Outstanding} (x : Awaits g h l) (y : Awaits h k l') : Awaits g k (l ++ l') := by
  unfold Awaits at *
  rw [x] at y
  rw [y, List.append_assoc]

theorem Awaits.dropParts {g : Sheaf} {n : Nat} {k : Mask} : Awaits g (g.dropParts n k) [] := by
  unfold Awaits
  rw [List.append_nil]
  rfl

/-- The words of an old value, with and without the names of the statement. -/
theorem atomWords_eq {old : Nat} (h : old < 256 ^ (if wide then 8 else 4)) :
    toWords (toBytes (if wide then 8 else 4) old) = wordsOf (if wide then 8 else 4) false old := toWords_toBytes (by split <;> omega) h

/-- One lane's return from the window. -/
theorem State.atomReturn_window {x : State} {g : Sheaf} {d : BitVec 7} {returns : Bool} {request : Nat} {y : Nat × Nat} (hact : c.act ≠ 0)
    (hm : m.toNat % 4 = 0) (hg : x.sheaf c.id = some g) (hy : y.2 < 256 ^ (if wide then 8 else 4)) :
    InSheaf x (x.atomReturn c (spaceBy m) wide returns m d a (y.1, .done y.2 none request)) c.id
    ∧ ∃ h, (x.atomReturn c (spaceBy m) wide returns m d a (y.1, .done y.2 none request)).sheaf c.id = some h
      ∧ Awaits g h (if returns = true ∧ c.flag ≠ 15 then [atomPart c wide m d a request y] else []) := by
  unfold State.atomReturn
  dsimp only
  by_cases h : returns = true ∧ c.flag ≠ 15
  · have hc : (c.flag != 15 && returns) = true := by rw [h.1, Bool.and_true]; exact bne_iff_ne.2 h.2
    rw [if_pos h, if_pos hc]
    refine ⟨State.updSheaf_in .., _, State.sheaf_updSheaf hg _, ?_⟩
    unfold Awaits atomPart
    rw [atomWords_eq hy, Ctx.ea_eq, Ctx.dstFor_eq hact, scopeCode_eq, spaceBy_window hm]
    cases wide <;> rfl
  · have hc : ¬ (c.flag != 15 && returns) = true := fun e => h (by
      rw [Bool.and_eq_true, bne_iff_ne] at e
      exact ⟨e.2, e.1⟩)
    rw [if_neg h, if_neg hc]
    exact ⟨State.updSheaf_in .., _, State.sheaf_updSheaf hg _, .dropParts⟩

/-- The returns of all lanes. -/
theorem State.atomReturns_window {d : BitVec 7} {returns : Bool} {request : Nat} (hact : c.act ≠ 0) (hm : m.toNat % 4 = 0)
    (l : List (Nat × Nat)) : ∀ {x : State} {g : Sheaf}, x.sheaf c.id = some g → (∀ y ∈ l, y.2 < 256 ^ (if wide then 8 else 4)) →
    let t := (l.map fun y => (y.1, AtomRes.done y.2 none request)).foldl
      (fun (acc : State) y => acc.atomReturn c (spaceBy m) wide returns m d a y) x
    InSheaf x t c.id ∧ ∃ h, t.sheaf c.id = some h
      ∧ Awaits g h (if returns = true ∧ c.flag ≠ 15 then l.map (atomPart c wide m d a request) else []) := by
  induction l with
  | nil =>
    intro x g hg _
    refine ⟨.refl .., g, hg, ?_⟩
    rw [List.map_nil, ite_self]
    exact .refl g
  | cons y l ih =>
    intro x g hg hl
    obtain ⟨h1, g1, hg1, ha1⟩ := State.atomReturn_window (a := a) (d := d) (returns := returns) (request := request) hact hm hg (hl y (by simp))
    obtain ⟨h2, g2, hg2, ha2⟩ := ih hg1 fun z hz => hl z (by simp [hz])
    refine ⟨h1.trans h2, g2, hg2, ?_⟩
    have h := ha1.trans ha2
    split
    · next hr => rwa [if_pos hr, if_pos hr] at h
    · next hr => rwa [if_neg hr, if_neg hr] at h

end

/-! ### The word -/

/-- A commit of stores leaves what the word's checks look at. -/
theorem State.committedBy_view {s : State} {c : Ctx} {sh : Shape} {f : Sheaf} (h : (s.committedBy c sh).sheaf c.id = some f) :
    (s.committedBy c sh).storeView = s.storeView ∧ ∃ f0, s.sheaf c.id = some f0 ∧ f.unit = f0.unit := by
  unfold State.committedBy at h ⊢
  split
  · next hc =>
    rw [if_pos hc] at h
    cases h0 : s.sheaf c.id with
    | none =>
      have : s.commit c.id c.lanes = s := by unfold State.commit; rw [h0]
      rw [this, h0] at h
      cases h
    | some f0 =>
      obtain ⟨hp, ⟨g, hg, hpg⟩, _⟩ := Performs.commit (m := c.lanes) h0
      obtain rfl := Option.some.inj (hg.symm.trans h)
      exact ⟨hp.view, f0, rfl, hpg.unit⟩
  · next hc =>
    rw [if_neg hc] at h
    exact ⟨rfl, f, h, rfl⟩

theorem State.windowWatched_congr {s t : State} {f g : Sheaf} (h : t.storeView = s.storeView) (hu : g.unit = f.unit) :
    t.windowWatched g = s.windowWatched f := by
  have hg : t.unitOf g = t.unitOf f := by unfold State.unitOf; rw [hu]
  unfold State.windowWatched
  rw [hg, State.unitOf_ctx_congr h, State.context_field_congr h fun _ => rfl]

section
variable {s : State} {c : Ctx} {m : BitVec 3} {a : BitVec 7} {right : Right} {f0 : Sheaf} {size : Nat}

/-- No lane of a word at the window waits for a page. -/
theorem State.askPages_window {ea : Nat → DWord} : s.askPages c .sp size ea right = none := by
  unfold State.askPages
  cases s.sheaf c.id with
  | none => rfl
  | some f =>
    have hn (l : Nat) : (if (f.lane l).declined.isSome || (checkEa c.unit .sp (ea l) size).isSome then none
        else match s.locate f .sp l (ea l) size right true with
          | .miss p => some (l, p)
          | _ => none) = (none : Option (Nat × Nat)) := by
      split
      · rfl
      · rfl
    refine if_pos ?_
    rw [List.isEmpty_iff, List.filterMap_eq_nil_iff]
    exact fun l _ => hn l

/-- In a window that is not watched no lane's access comes to the detector. -/
theorem State.checkAccess_window {u : UnitSt} {ea : DWord} {l region : Nat} {w sync : Bool} (hf : s.sheaf c.id = some f0)
    (h : s.windowWatched f0 = false) : s.checkAccess c.id u .sp l ea size right region w sync = .clear s := by
  unfold State.checkAccess
  rw [hf]
  cases checkEa u .sp ea size with
  | some k => rfl
  | none =>
    simp only [State.locate, h, Bool.not_false, if_true]

theorem checkLanes_clear {check : State → Nat → Checked} {got : Races} (h : ∀ l, check s l = .clear s) (ls : List Nat) :
    checkLanes check s ls got = (s, some got) := by
  induction ls with
  | nil => rfl
  | cons l ls ih =>
    unfold checkLanes
    rw [h]
    exact ih

/-- What the effect of an atomic word comes to where every lane is performed at the window. -/
theorem State.atomEff_window {g : Sheaf} {u : UnitSt} {sh : Shape} {op : Nat} {wide returns : Bool} {d : BitVec 7} {new : Nat → Nat → Nat}
    (hact : c.act ≠ 0) (hm : m.toNat % 4 = 0) (hf : s.sheaf c.id = some f0) (hw : s.windowWatched f0 = false)
    (hg : (s.advance c sh).sheaf c.id = some g) (hu : (s.advance c sh).unit g.unit = some u)
    (hl : ∀ l ∈ c.actLanes, addressFault c.unit m (address c m a l) (if wide then 8 else 4) = none ∧ c.declined s l = none
        ∧ ∀ j, j < (if wide then 8 else 4) → u.badByte ((address c m a l).toNat + j) = false) :
    let r := inTurn (if wide then 8 else 4) (fun l => (address c m a l).toNat) new c.actLanes u
    ∃ x t h, WindowBecomes g.unit r.2 (s.advance c sh) x ∧ InSheaf x t c.id ∧ t.sheaf c.id = some h
      ∧ Awaits g h (if returns = true ∧ c.flag ≠ 15 then r.1.map (atomPart c wide m d a (s.advance c sh).requests) else [])
      ∧ s.atomEff c sh op wide m d a right returns new
        = .done (if c.flag != 15 && decide (6 ≤ scopeOf c m) then t.dropCache c.core else t) := by
  intro r
  obtain ⟨x, hx, hwx⟩ := State.atomLanes_window (op := op) (right := right) (new := new) hm c.actLanes [] hg hu hl
  rw [← State.atomLanes_eq, List.nil_append] at hx
  have hxg : x.sheaf c.id = some g := by rw [hwx.rest]; exact hg
  obtain ⟨hi, h, hh, haw⟩ := State.atomReturns_window (a := a) (d := d) (returns := returns) (request := (s.advance c sh).requests) hact hm r.1
    (State.sheaf_updSheaf hxg fun f => f.dropParts c.op (Failed.mask [])) fun y hy => inTurn_lt hy
  refine ⟨x, _, h, hwx, (State.updSheaf_in ..).trans hi, hh, Awaits.dropParts.trans haw, ?_⟩
  unfold State.atomEff
  dsimp only
  rw [spaceOf_eq, spaceBy_window hm, State.askPages_window]
  dsimp only
  rw [checkLanes_clear (got := []) (s := s) fun l => ?_]
  · have hclean : (c.actLanes.filter fun l => !([] : Races).any fun x => x.1 == l) = c.actLanes := List.filter_eq_self.2 fun _ _ => rfl
    have hnone {β : Type} (k : Nat × AtomRes → Option β) (hk : ∀ n o, k (n, .done o none (s.advance c sh).requests) = none) :
        (r.1.map fun y => (y.1, AtomRes.done y.2 none (s.advance c sh).requests)).filterMap k = [] := by
      rw [List.filterMap_map, List.filterMap_eq_nil_iff]
      exact fun y _ => hk y.1 y.2
    have hany (k : Nat × AtomRes → Bool) (hk : ∀ n o, k (n, .done o none (s.advance c sh).requests) = false) :
        (r.1.map fun y => (y.1, AtomRes.done y.2 none (s.advance c sh).requests)).any k = false := by
      rw [List.any_map, List.any_eq_false]
      exact fun y _ => Bool.eq_false_iff.1 (hk y.1 y.2)
    dsimp only
    rw [hclean, ← spaceBy_window hm, hx, scopeCode_eq]
    simp only [show (inTurn (if wide then 8 else 4) (fun l => (address c m a l).toNat) new c.actLanes u).1 = r.1 from rfl, hnone, hany,
      implies_true, List.isEmpty_nil, Bool.not_true, Bool.false_eq_true, if_false]
    rfl
  · split
    · rfl
    · exact State.checkAccess_window hf hw

end

section
variable {i : Instr} {op : Nat} {wide returns : Bool} {m : BitVec 3} {d a : BitVec 7} {right : Right} {new : Ctx → Nat → Nat → Nat}

theorem State.core_dropCache {s : State} {n k : Nat} : (s.dropCache n).core k = { s.core k with cache := ((s.dropCache n).core k).cache } := by
  unfold State.dropCache State.updCore
  rw [State.core_setCore]
  split
  · next h => rw [h]
  · rfl

/-- What an atomic word at the window leaves as it was, from its commit to its end. -/
theorem window_frame {p s x t u z : State} {n id job : Nat} {w : UnitSt} (ha : OnlySheaf p s id job) (hx : WindowBecomes n w s x)
    (ht : InSheaf x t id) (hu : u = { t with cores := u.cores }) (hc : ∀ k, u.core k = { t.core k with cache := (u.core k).cache })
    (hz : InSheaf u z id) : z.unit n = some w ∧ (∀ k, k ≠ n → z.unit k = p.unit k) ∧ (∀ k, k ≠ id → z.sheaf k = p.sheaf k)
      ∧ z = { p with sheaves := z.sheaves, units := z.units, jobs := z.jobs, cores := z.cores, fresh := z.fresh, free := z.free }
      ∧ ∀ k, z.core k = { p.core k with cache := (z.core k).cache } := by
  have hzu : z.units = x.units := by rw [hz.rest, hu, ht.rest]
  have hsu : s.units = p.units := by rw [ha.rest]
  have hzc : z.cores = u.cores := by rw [hz.rest]
  have htc : t.cores = p.cores := by rw [ht.rest, hx.rest, ha.rest]
  have hus : u.sheaves = t.sheaves := by rw [hu]
  have hxs : x.sheaves = s.sheaves := by rw [hx.rest]
  refine ⟨(congrArg (fun y => Store.get y n) hzu).trans hx.unit, fun k hk => (congrArg (fun y => Store.get y k) hzu).trans
    ((hx.others k hk).trans (congrArg (fun y => Store.get y k) hsu)), fun k hk => ?_, ?_, fun k => ?_⟩
  · exact (hz.others k hk).trans ((congrArg (fun y => Store.get y k) hus).trans ((ht.others k hk).trans
      ((congrArg (fun y => Store.get y k) hxs).trans (ha.others k hk))))
  · rw [hz.rest, hu, ht.rest, hx.rest, ha.rest]
  · have h1 : z.core k = u.core k := congrArg (fun y => Store.get y k) hzc
    have h2 : t.core k = p.core k := congrArg (fun y => Store.get y k) htc
    rw [h1, hc k, h2]

theorem window_sheaf {f g h z : Sheaf} {l : List Outstanding} (a : f.Quiet g) (b : Awaits g h l) (c : h.Quiet z) :
    z = { f with lanes := z.lanes, flagOps := z.flagOps, streams := z.streams, issued := z.issued, restored := z.restored, park := z.park
                 outstanding := z.outstanding } ∧ z.outstanding = f.outstanding ++ l := by
  unfold Sheaf.Quiet at a c
  unfold Awaits at b
  have ho : g.outstanding = f.outstanding := by rw [a]
  constructor
  · rw [c, b, a]
  · rw [c, b]
    exact congrArg (· ++ l) ho

/-- An atomic word whose new values are those of R193. -/
theorem atomics_of_new (hx : ∀ s, exec i s = atomWord i s op wide m d a right returns new)
    (hnew : ∀ s c, Runs i s c → ∀ l old, old < 256 ^ (if wide then 8 else 4) → new c l old =
      atomicNew op c.form (8 * if wide then 8 else 4) c.f.rm old (if wide then (c.r64 d l).toNat else (c.r32 d l).toNat)
        (if wide then (pair64 (c.reg (d.toNat + 2) l) (c.reg (d.toNat + 3) l)).toNat
          else if d = 120 then 0 else (c.reg (d.toNat + 1) l).toNat)) : Atomics i op wide returns m d a := by
  intro s c f u r hf hu hw hm hl
  obtain ⟨ha, hs⟩ := State.advance_spec hf
  obtain ⟨hv, f0, hf0, hu0⟩ := State.committedBy_view hf
  have hq := f.advanced_quiet c (c.shapeOf i)
  have hgu : (f.advanced c (c.shapeOf i)).unit = f.unit := by rw [hq]
  have hau : (s.advance c (c.shapeOf i)).unit f.unit = some u := by rw [ha.rest]; exact hu
  have hreq : (s.advance c (c.shapeOf i)).requests = (s.committedBy c (c.shapeOf i)).requests := by rw [ha.rest]
  obtain ⟨x, t, h, hwx, hi, hh, haw, he⟩ := State.atomEff_window (op := op) (right := right) (d := d) (returns := returns) (new := new c) r.active hm
    hf0 ((State.windowWatched_congr hv hu0).symm.trans hw) hs (by rw [hgu]; exact hau) fun l hl' => hl l (mem_maskLanes.1 hl').2
  rw [inTurn_congr (hnew s c r), hgu] at hwx
  rw [inTurn_congr (hnew s c r), hreq] at haw
  generalize hT : (if c.flag != 15 && decide (6 ≤ scopeOf c m) then t.dropCache c.core else t) = T at he
  obtain ⟨hTr, hTc⟩ : T = { t with cores := T.cores } ∧ ∀ k, T.core k = { t.core k with cache := (T.core k).cache } := by
    subst hT
    split
    · exact ⟨rfl, fun k => State.core_dropCache⟩
    · exact ⟨rfl, fun k => rfl⟩
  have hTs : T.sheaf c.id = some h := by rw [hTr]; exact hh
  obtain ⟨hz, ho⟩ := window_sheaf hq haw (Sheaf.concluded_quiet h T.fresh i c (c.shapeOf i))
  obtain ⟨f1, f2, f3, f4, f5⟩ := window_frame ha hwx hi hTr hTc (State.conclude_in T i c (c.shapeOf i))
  refine ⟨_, f, _, (hx s).trans (r.done he), hf, State.conclude_sheaf hTs, f1, f2, f3, f4, f5, hz, ho, ?_⟩
  have hlane (l : Nat) : h.lane l = (f.advanced c (c.shapeOf i)).lane l := by
    unfold Awaits at haw
    rw [haw]
    rfl
  exact lanesGo_concluded (State.issuing_spec r.issuing).2 (fun l => hlane l ▸ .refl _) fun l _ => hlane l

end

theorem decide_div_four {m : BitVec 3} : decide (m.toNat / 4 = 1) = m.msb := by
  rw [Bool.eq_iff_iff, decide_eq_true_iff, toNat_div_four_eq_one]

theorem pow_256 {n : Nat} : 256 ^ n = 2 ^ (8 * n) := by
  rw [Nat.pow_mul]

section
variable {y : Bool} {g : BitVec 3} {d a : BitVec 7} {f : BitVec 4} {m : BitVec 3}

theorem atom_atomics : Atomics (.atom y g d a f m) 0x6C m.msb true m d a :=
  atomics_of_new (fun s => execAtom.eq_1 y g d a f m s) fun s c r l old ho => by
    have hf : c.form < 9 := List.mem_range.1 r.form_mem
    rw [pow_256] at ho
    cases hm : m.msb with
    | false =>
      rw [hm] at ho
      exact atomNew_eq hf ho (c.r32 d l).isLt
    | true =>
      rw [hm] at ho
      exact atomNew_eq hf ho (c.r64 d l).isLt

theorem cas_atomics : Atomics (.cas y g d a f m) 0x6D m.msb true m d a :=
  atomics_of_new (fun s => execCas.eq_1 y g d a f m s) fun s c _ l old _ => by
    rw [atomicNew_cas]
    cases m.msb with
    | false =>
      simp only [Bool.false_eq_true, if_false, Ctx.hi32_r64]
    | true => rfl

theorem atomf_atomics : Atomics (.atomf y g d a f m) 0x6E false true m d a :=
  atomics_of_new (fun s => execAtomf.eq_1 y g d a f m s) fun s c r l old _ => by
    have hf : c.form < 5 := List.mem_range.1 r.form_mem
    exact atomfNew_eq hf

theorem atst_atomics : Atomics (.atst y g d a f m) 0x6F m.msb false m d a :=
  atomics_of_new (fun s => execAtst.eq_1 y g d a f m s) fun _ _ _ _ _ _ => atomicNew_atst.symm

end

/-- Settles O21: word by word, each an atomic word whose new values are those of R193. -/
theorem atomicsInTurn : Obligations.AtomicsInTurn := by
  unfold Obligations.AtomicsInTurn
  intro y g d a f m
  rw [decide_div_four]
  exact ⟨atom_atomics, cas_atomics, atomf_atomics, atst_atomics⟩

end Sys2Proof.Machine
end

section
/-!
SUPPORT. Variable-latency results and poisons that land in registers (R78, R195): what each register and the results on their way to it come
to, and what becomes of the flag.
-/
namespace Sys2Proof.Machine
open Sys2Proof.Claims

/-! ### The oldest result on its way -/

section
variable {key k : Nat} {change : Pending → Pending}

theorem filter_beforeOldest_same (hc : ∀ q, (change q).key = q.key) (l : List Pending) :
    (beforeOldest key change l).filter (·.key == key) = (l.filter (·.key == key)).modifyHead change := by
  induction l with
  | nil => rfl
  | cons p l ih =>
    unfold beforeOldest
    by_cases h : p.key = key
    · rw [if_pos h, List.filter_cons_of_pos (by simpa [hc] using h), List.filter_cons_of_pos (by simpa using h), List.modifyHead_cons]
    · rw [if_neg h, List.filter_cons_of_neg (by simpa using h), List.filter_cons_of_neg (by simpa using h), ih]

theorem filter_beforeOldest_other (hc : ∀ q, (change q).key = q.key) (hk : k ≠ key) (l : List Pending) :
    (beforeOldest key change l).filter (·.key == k) = l.filter (·.key == k) := by
  induction l with
  | nil => rfl
  | cons p l ih =>
    unfold beforeOldest
    by_cases h : p.key = key
    · have hp : ¬ p.key = k := fun e => hk (e.symm.trans h)
      rw [if_pos h, List.filter_cons_of_neg (by simpa [hc] using hp), List.filter_cons_of_neg (by simpa using hp)]
    · rw [if_neg h, List.filter_cons, List.filter_cons, ih]

theorem any_beforeOldest {test : Pending → Bool} (hc : ∀ q, test (change q) = test q) (l : List Pending) :
    (beforeOldest key change l).any test = l.any test := by
  induction l with
  | nil => rfl
  | cons p l ih =>
    unfold beforeOldest
    split
    · rw [List.any_cons, List.any_cons, hc]
    · rw [List.any_cons, List.any_cons, ih]

end

/-! ### What lands -/

/-- A value, or a poison that leaves the value. -/
structure Landing where
  value : Option Word := none
  poison : Option Poison := none

/-- What stands before a result on its way once something has landed under it. -/
def Landing.under (x : Landing) (q : Pending) : Pending := { q with old := x.value.getD q.old, poison := x.poison }

/-- Something lands under the results on their way to a register. -/
def Landing.underAll (x : Landing) (l : List Pending) : List Pending := (l.reverse.modifyHead x.under).reverse

theorem Landing.underAll_cons (x : Landing) (q q' : Pending) (l : List Pending) : x.underAll (q :: q' :: l) = q :: x.underAll (q' :: l) := by
  unfold Landing.underAll
  rw [List.reverse_cons]
  obtain ⟨a, rest, h⟩ := List.exists_cons_of_ne_nil (List.reverse_ne_nil_iff.2 (List.cons_ne_nil q' l))
  rw [h, List.cons_append, List.modifyHead_cons, List.modifyHead_cons, ← List.cons_append, List.reverse_append]
  rfl

theorem underThem_eq (w : Word) : ∀ l, underThem w l = Landing.underAll { value := some w } l
  | [] => rfl
  | [_] => rfl
  | q :: q' :: rest => by rw [underThem, Landing.underAll_cons, underThem_eq w (q' :: rest)]; exact fun e => nomatch e

theorem spoilUnder_eq (p : Poison) : ∀ l, spoilUnder p l = Landing.underAll { poison := some p } l
  | [] => rfl
  | [_] => rfl
  | q :: q' :: rest => by rw [spoilUnder, Landing.underAll_cons, spoilUnder_eq p (q' :: rest)]; exact fun e => nomatch e

/-- The value that a register holds, by its key. -/
def Sheaf.valueAt (f : Sheaf) (key : Nat) : Word := if key < 4096 then f.v.get key else f.u.get (key - 4096)

theorem Sheaf.valueAt_vKey {f : Sheaf} {r l : Nat} (hr : r < 104) (hl : l < 32) : f.valueAt (vKey r l) = f.v.get (vKey r l) :=
  if_pos (by unfold vKey; omega)

theorem Sheaf.valueAt_uKey {f : Sheaf} {n : Nat} : f.valueAt (uKey n) = f.u.get n := by
  unfold Sheaf.valueAt uKey
  rw [if_neg (by omega), Nat.add_sub_cancel_left]

/-- What one register comes to as something lands in it, or nothing does; that results are on their way to registers stays. -/
structure LandedAt (now key : Nat) (x : Option Landing) (f g : Sheaf) : Prop where
  late (k : Nat) : lateAt g now k = lateAt f now k
  value : g.valueAt key = x.elim (f.valueAt key) fun y => if lateAt f now key = true then f.valueAt key else y.value.getD (f.valueAt key)
  poison : g.poisonAt key = x.elim (f.poisonAt key) fun y => if lateAt f now key = true then f.poisonAt key else y.poison
  pending : g.pending.filter (·.key == key) = x.elim (f.pending.filter (·.key == key)) fun y =>
    if lateAt f now key = true then y.underAll (f.pending.filter (·.key == key)) else f.pending.filter (·.key == key)

/-- Only registers and results on their way differ. -/
def Sheaf.LandsOnly (f g : Sheaf) : Prop := g = { f with v := g.v, vPoison := g.vPoison, u := g.u, uPoison := g.uPoison, pending := g.pending }

theorem Sheaf.LandsOnly.refl (f : Sheaf) : f.LandsOnly f := rfl

theorem Sheaf.LandsOnly.trans {f g h : Sheaf} (a : f.LandsOnly g) (b : g.LandsOnly h) : f.LandsOnly h := by
  unfold Sheaf.LandsOnly at *
  rw [a] at b
  exact b

theorem Sheaf.LandsOnly.foldl {α : Type} {step : Sheaf → α → Sheaf} (h : ∀ (f : Sheaf) x, f.LandsOnly (step f x)) (l : List α) :
    ∀ f : Sheaf, f.LandsOnly (l.foldl step f) := by
  induction l with
  | nil => exact .refl
  | cons x l ih => exact fun f => (h f x).trans (ih _)

section
variable {now key : Nat} {x y : Option Landing} {f g h : Sheaf}

theorem LandedAt.of_same (hv : g.valueAt key = f.valueAt key) (hp : g.poisonAt key = f.poisonAt key) (hd : g.pending = f.pending) :
    LandedAt now key none f g := by
  refine ⟨fun k => ?_, hv, hp, congrArg _ hd⟩
  unfold lateAt
  rw [hd]

theorem LandedAt.refl (now key : Nat) (f : Sheaf) : LandedAt now key none f f := .of_same rfl rfl rfl

/-- Of two steps at most one lands in the register. -/
theorem LandedAt.trans (a : LandedAt now key x f g) (b : LandedAt now key y g h) (hxy : x = none ∨ y = none) :
    LandedAt now key (x.or y) f h := by
  refine ⟨fun k => (b.late k).trans (a.late k), ?_, ?_, ?_⟩
  · rw [b.value, a.value, a.late]
    rcases hxy with rfl | rfl
    · rfl
    · rw [Option.or_none]; rfl
  · rw [b.poison, a.poison, a.late]
    rcases hxy with rfl | rfl
    · rfl
    · rw [Option.or_none]; rfl
  · rw [b.pending, a.pending, a.late]
    rcases hxy with rfl | rfl
    · rfl
    · rw [Option.or_none]; rfl

end

/-! ### One register -/

/-- The key of a register as a lane sees it: one of its own or a uniform one. -/
def keyOf (r l : Nat) : Nat := if r < 104 then vKey r l else uKey (r - 104)

/-- Something lands in a register that a lane sees. -/
def Sheaf.landKey (f : Sheaf) (now r l : Nat) (x : Landing) : Sheaf :=
  if f.unwritten now (keyOf r l) then { f with pending := (beforeOldest (keyOf r l) x.under f.pending.reverse).reverse }
  else if r < 104 then { f with v := x.value.elim f.v (f.v.set (vKey r l)), vPoison := f.vPoison.set (vKey r l) x.poison }
  else { f with u := x.value.elim f.u (f.u.set (r - 104)), uPoison := f.uPoison.set (r - 104) x.poison }

section
variable {f : Sheaf} {now r l : Nat} {x : Landing}

theorem Sheaf.landKey_only : f.LandsOnly (f.landKey now r l x) := by
  unfold Sheaf.landKey
  split
  · rfl
  · split <;> rfl

theorem lateAt_eq_unwritten (k : Nat) : lateAt f now k = f.unwritten now k := rfl

theorem Landing.under_key (q : Pending) : (x.under q).key = q.key := rfl

/-- A landing under results on their way. -/
theorem LandedAt.under (hu : f.unwritten now (keyOf r l) = true) (key : Nat) :
    LandedAt now key (if keyOf r l = key then some x else none) f
      { f with pending := (beforeOldest (keyOf r l) x.under f.pending.reverse).reverse } := by
  refine ⟨fun k => ?_, ?_, ?_, ?_⟩
  · unfold lateAt
    dsimp only
    rw [List.any_reverse, any_beforeOldest (change := x.under) fun _ => rfl, List.any_reverse]
  · split
    · next h => rw [Option.elim_some, lateAt_eq_unwritten, ← h, if_pos hu]; rfl
    · rfl
  · split
    · next h => rw [Option.elim_some, lateAt_eq_unwritten, ← h, if_pos hu]; rfl
    · rfl
  · dsimp only
    rw [List.filter_reverse]
    split
    · next h =>
      rw [Option.elim_some, lateAt_eq_unwritten, ← h, if_pos hu, filter_beforeOldest_same Landing.under_key, List.filter_reverse]
      rfl
    · next h => rw [filter_beforeOldest_other Landing.under_key (Ne.symm h), List.filter_reverse, List.reverse_reverse]; rfl

/-- A register written, or left as it was. -/
theorem get_elim_set {m : Store Word} {k key : Nat} {o : Option Word} :
    (o.elim m (m.set k)).get key = if key = k then o.getD (m.get key) else m.get key := by
  cases o with
  | none => exact (ite_self _).symm
  | some w => exact Store.get_set m k key w

variable {k key n : Nat} {o : Option Word} {q : Option Poison}

theorem Sheaf.valueAt_setV (hk : k < 4096) : ({ f with v := o.elim f.v (f.v.set k), vPoison := f.vPoison.set k q } : Sheaf).valueAt key
    = if key = k then o.getD (f.valueAt key) else f.valueAt key := by
  unfold Sheaf.valueAt
  by_cases h : key < 4096
  · simp only [if_pos h, get_elim_set]
  · simp only [if_neg h, if_neg (show ¬ key = k by omega)]

theorem Sheaf.poisonAt_setV (hk : k < 4096) : ({ f with v := o.elim f.v (f.v.set k), vPoison := f.vPoison.set k q } : Sheaf).poisonAt key
    = if key = k then q else f.poisonAt key := by
  unfold Sheaf.poisonAt
  by_cases h : key < 4096
  · simp only [if_pos h, Store.get_set]
  · simp only [if_neg h, if_neg (show ¬ key = k by omega)]

theorem Sheaf.valueAt_setU : ({ f with u := o.elim f.u (f.u.set n), uPoison := f.uPoison.set n q } : Sheaf).valueAt key
    = if key = uKey n then o.getD (f.valueAt key) else f.valueAt key := by
  unfold Sheaf.valueAt uKey
  by_cases h : key < 4096
  · simp only [if_pos h, if_neg (show ¬ key = 4096 + n by omega)]
  · simp only [if_neg h, get_elim_set, show (key - 4096 = n) = (key = 4096 + n) from propext (by omega)]

theorem Sheaf.poisonAt_setU (hn : n < 4096) : ({ f with u := o.elim f.u (f.u.set n), uPoison := f.uPoison.set n q } : Sheaf).poisonAt key
    = if key = uKey n then q else f.poisonAt key := by
  unfold Sheaf.poisonAt uKey
  by_cases h : key < 4096
  · simp only [if_pos h, if_neg (show ¬ key = 4096 + n by omega)]
  · by_cases h8 : key < 8192
    · simp only [if_neg h, if_pos h8, Store.get_set, show (key - 4096 = n) = (key = 4096 + n) from propext (by omega)]
    · simp only [if_neg h, if_neg h8, if_neg (show ¬ key = 4096 + n by omega)]

/-- A landing in a register that no result is on its way to. -/
theorem LandedAt.set {g : Sheaf} {k : Nat} (hu : f.unwritten now k = false) (hd : g.pending = f.pending) (key : Nat)
    (hv : g.valueAt key = if key = k then x.value.getD (f.valueAt key) else f.valueAt key)
    (hp : g.poisonAt key = if key = k then x.poison else f.poisonAt key) : LandedAt now key (if k = key then some x else none) f g := by
  by_cases h : k = key
  · subst h
    rw [if_pos rfl] at hv hp ⊢
    have hl : ¬ lateAt f now k = true := Bool.eq_false_iff.1 hu
    refine ⟨fun j => ?_, ?_, ?_, ?_⟩
    · unfold lateAt
      rw [hd]
    · rw [hv, Option.elim_some, if_neg hl]
    · rw [hp, Option.elim_some, if_neg hl]
    · rw [hd, Option.elim_some, if_neg hl]
  · rw [if_neg (Ne.symm h)] at hv hp
    rw [if_neg h]
    exact .of_same hv hp hd

theorem Sheaf.landKey_landed (hr : r < 120) (hl : l < 32) (key : Nat) :
    LandedAt now key (if keyOf r l = key then some x else none) f (f.landKey now r l x) := by
  by_cases hu : f.unwritten now (keyOf r l) = true
  · have e : f.landKey now r l x = { f with pending := (beforeOldest (keyOf r l) x.under f.pending.reverse).reverse } := if_pos hu
    rw [e]
    exact .under hu key
  · have hu' := Bool.eq_false_iff.2 hu
    by_cases h : r < 104
    · have hk : keyOf r l = vKey r l := if_pos h
      have hlt : vKey r l < 4096 := by unfold vKey; omega
      have e : f.landKey now r l x = { f with v := x.value.elim f.v (f.v.set (vKey r l)), vPoison := f.vPoison.set (vKey r l) x.poison } :=
        (if_neg hu).trans (if_pos h)
      rw [hk] at hu' ⊢
      rw [e]
      exact .set hu' (by rfl) key (Sheaf.valueAt_setV hlt) (Sheaf.poisonAt_setV hlt)
    · have hk : keyOf r l = uKey (r - 104) := if_neg h
      have e : f.landKey now r l x = { f with u := x.value.elim f.u (f.u.set (r - 104)), uPoison := f.uPoison.set (r - 104) x.poison } :=
        (if_neg hu).trans (if_neg h)
      have hn : r - 104 < 4096 := by omega
      rw [hk] at hu' ⊢
      rw [e]
      exact .set hu' (by rfl) key Sheaf.valueAt_setU (Sheaf.poisonAt_setU hn)

/-- A value lands as the model lands it. -/
theorem Sheaf.landAt_eq {w : Word} (hr : r < 120) : f.landAt now r l w = f.landKey now r l { value := some w } := by
  unfold Sheaf.landAt Sheaf.landKey keyOf
  by_cases h : r < 104
  · simp only [if_pos h]; rfl
  · simp only [if_neg h, if_pos hr]; rfl

end

/-! ### The registers of a destination field -/

/-- A register of a lane, or a uniform one, named by its key: register `r0` as a lane for which `p` holds sees it. -/
def Names (key l r0 : Nat) (p : Prop) : Prop := ∀ r, r < 120 → (keyOf r l = key ↔ r = r0 ∧ p)

theorem names_vKey {r0 l l' : Nat} (h0 : r0 < 104) (hl : l < 32) (hl' : l' < 32) : Names (vKey r0 l') l r0 (l' = l) := by
  intro r hr
  unfold keyOf
  split
  · rw [vKey_inj hl hl']
    exact and_congr_right fun _ => eq_comm
  · unfold vKey uKey
    omega

theorem names_uKey {n l : Nat} (hl : l < 32) : Names (uKey n) l (104 + n) True := by
  intro r hr
  unfold keyOf
  split
  · unfold vKey uKey
    omega
  · unfold uKey
    rw [and_true]
    omega

section
variable {f : Sheaf} {now field l key r0 : Nat} {p : Prop} [Decidable p]

/-- Landings in the registers of a field, one after the other, each register taking its own. -/
theorem landFold {step : Sheaf → Nat → Sheaf} {y : Nat → Landing} (hs : ∀ f k, LandedAt now key
      (if field + k < 120 ∧ keyOf (field + k) l = key then some (y k) else none) f (step f k))
    (hn : Names key l r0 p) (n : Nat) :
    LandedAt now key (if p ∧ r0 < 120 ∧ field ≤ r0 ∧ r0 < field + n then some (y (r0 - field)) else none) f ((List.range n).foldl step f) := by
  induction n with
  | zero =>
    rw [if_neg (by omega)]
    exact .refl ..
  | succ n ih =>
    rw [List.range_succ, List.foldl_append]
    have h := hs ((List.range n).foldl step f) n
    have hkey : field + n < 120 ∧ keyOf (field + n) l = key ↔ p ∧ r0 < 120 ∧ r0 = field + n := by
      constructor
      · intro ⟨h1, h2⟩
        obtain ⟨h3, h4⟩ := (hn _ h1).1 h2
        exact ⟨h4, by omega, h3.symm⟩
      · intro ⟨h1, h2, h3⟩
        exact ⟨by omega, (hn _ (by omega)).2 ⟨h3.symm, h1⟩⟩
    by_cases hlast : p ∧ r0 < 120 ∧ r0 = field + n
    · rw [if_pos (hkey.2 hlast)] at h
      obtain ⟨hp, h120, rfl⟩ := hlast
      rw [if_neg (by omega)] at ih
      rw [if_pos ⟨hp, h120, by omega, by omega⟩, Nat.add_sub_cancel_left]
      exact ih.trans h (.inl rfl)
    · rw [if_neg (mt hkey.1 hlast)] at h
      have hiff : (p ∧ r0 < 120 ∧ field ≤ r0 ∧ r0 < field + (n + 1)) ↔ (p ∧ r0 < 120 ∧ field ≤ r0 ∧ r0 < field + n) := by
        constructor
        · intro ⟨h1, h2, h3, h4⟩
          refine ⟨h1, h2, h3, ?_⟩
          by_contra h5
          exact hlast ⟨h1, h2, by omega⟩
        · intro ⟨h1, h2, h3, h4⟩
          exact ⟨h1, h2, h3, by omega⟩
      have ht := ih.trans h (.inr rfl)
      rw [Option.or_none] at ht
      rwa [if_congr hiff rfl rfl]

/-- A poison in one register of a field, as `landPoison` lands it. -/
def Sheaf.poisonIn (f : Sheaf) (now r l : Nat) (q : Poison) : Sheaf :=
  if 120 ≤ r then f else if f.unwritten now (keyOf r l) then f.poisonUnder (keyOf r l) q else f.poisonField r 1 l q

theorem Sheaf.landPoison_eq {q : Poison} {n : Nat} :
    f.landPoison now field n l q = (List.range n).foldl (fun acc k => acc.poisonIn now (field + k) l q) f := rfl

theorem Sheaf.poisonIn_past {q : Poison} {r : Nat} (hr : ¬ r < 120) : f.poisonIn now r l q = f := if_pos (Nat.not_lt.1 hr)

theorem Sheaf.poisonIn_eq {q : Poison} {r : Nat} (hr : r < 120) : f.poisonIn now r l q = f.landKey now r l { poison := some q } := by
  unfold Sheaf.poisonIn Sheaf.landKey Sheaf.poisonField
  rw [if_neg (Nat.not_le.2 hr)]
  simp only [List.range_one, List.foldl_cons, List.foldl_nil, Nat.add_zero, if_pos hr]
  rfl

/-- A poison that lands in a field: the registers of the field, each by itself. -/
theorem Sheaf.landPoison_landed {q : Poison} (hl : l < 32) (hn : Names key l r0 p) (n : Nat) :
    LandedAt now key (if p ∧ r0 < 120 ∧ field ≤ r0 ∧ r0 < field + n then some { poison := some q } else none) f
      (f.landPoison now field n l q) := by
  refine landFold (y := fun _ => { poison := some q }) (fun f k => ?_) hn n
  change LandedAt now key _ f (f.poisonIn now (field + k) l q)
  by_cases hr : field + k < 120
  · rw [Sheaf.poisonIn_eq hr, if_congr (and_iff_right hr) rfl rfl]
    exact Sheaf.landKey_landed hr hl key
  · rw [Sheaf.poisonIn_past hr, if_neg fun h => hr h.1]
    exact .refl ..

/-- Words that land in a field of one lane. -/
theorem Sheaf.landWords_landed {d : BitVec 7} {ws : List Word} (hl : l < 32) (hn : Names key l r0 p) :
    LandedAt now key (if p ∧ r0 < 120 ∧ d.toNat ≤ r0 ∧ r0 < d.toNat + ws.length then some { value := some (ws.getD (r0 - d.toNat) 0) } else none) f
      (f.landWords now d l ws) := by
  unfold Sheaf.landWords Sheaf.landField
  by_cases hd : d.toNat = 120
  · rw [if_pos hd, if_neg (show ¬ (p ∧ r0 < 120 ∧ d.toNat ≤ r0 ∧ r0 < d.toNat + ws.length) by omega)]
    exact .refl ..
  · rw [if_neg hd]
    refine landFold (y := fun k => { value := some (ws.getD k 0) }) (fun f k => ?_) hn ws.length
    have e : (if d.toNat + k < 104 then [(l, ws)] else [(l, ws)].take 1) = [(l, ws)] := ite_self _
    rw [e, List.foldl_cons, List.foldl_nil]
    by_cases hr : d.toNat + k < 120
    · rw [if_congr (and_iff_right hr) rfl rfl, Sheaf.landAt_eq hr]
      exact Sheaf.landKey_landed hr hl key
    · rw [if_neg fun h => hr h.1]
      unfold Sheaf.landAt
      rw [if_neg (by omega), if_neg hr]
      exact .refl ..

theorem Sheaf.landPoison_only {n : Nat} {q : Poison} : f.LandsOnly (f.landPoison now field n l q) :=
  .foldl (fun f k => by
    change f.LandsOnly (f.poisonIn now (field + k) l q)
    by_cases hr : field + k < 120
    · rw [Sheaf.poisonIn_eq hr]
      exact Sheaf.landKey_only
    · rw [Sheaf.poisonIn_past hr]
      exact .refl f) _ _

theorem Sheaf.landWords_only {d : BitVec 7} {ws : List Word} : f.LandsOnly (f.landWords now d l ws) := by
  unfold Sheaf.landWords Sheaf.landField
  split
  · exact .refl f
  · refine .foldl (fun f k => .foldl (fun f c => ?_) _ _) _ _
    unfold Sheaf.landAt
    split
    · split <;> rfl
    · split
      · split <;> rfl
      · exact .refl f

/-- A poison that lands leaves the values. -/
theorem Sheaf.landPoison_values {n : Nat} {q : Poison} : (f.landPoison now field n l q).v = f.v ∧ (f.landPoison now field n l q).u = f.u := by
  have hk (f : Sheaf) (k : Nat) : ((f.poisonIn now (field + k) l q).v, (f.poisonIn now (field + k) l q).u) = (f.v, f.u) := by
    by_cases hr : field + k < 120
    · rw [Sheaf.poisonIn_eq hr]
      unfold Sheaf.landKey
      split
      · rfl
      · split <;> rfl
    · rw [Sheaf.poisonIn_past hr]
  exact Prod.mk.inj (foldl_keeps (fun g : Sheaf => (g.v, g.u)) _ hk _ _)

end

/-! ### What the statements say of it -/

theorem LandedAt.spoilt {f g : Sheaf} {now key : Nat} {x : Option Poison} {was is : Option Poison}
    (h : LandedAt now key (x.map fun p => { poison := some p }) f g) (hw : f.poisonAt key = was) (hi : g.poisonAt key = is) :
    SpoiltAt f g now key was is x := by
  subst hw hi
  refine ⟨?_, ?_⟩
  · rw [h.poison]
    cases x with
    | none => simp
    | some p => cases lateAt f now key <;> rfl
  · rw [h.pending]
    cases x with
    | none => rfl
    | some p =>
      simp only [spoilUnder_eq]
      rfl

end Sys2Proof.Machine
end

section
/-!
PROOFS. Replies that come home (O20): what a part's return makes of its sheaf, and what a lane's load reads where nothing watches or spoils its
bytes.
-/
namespace Sys2Proof.Machine
open Sys2Proof.Claims

/-! ### A part comes home -/

/-- A part waits no more, and its part of the flag has fallen. -/
def Sheaf.home (f : Sheaf) (o : Outstanding) : Sheaf :=
  Sheaf.dropParts { f with outstanding := f.outstanding.filter fun x => x.id != o.id } o.op (BitVec.twoPow 32 o.lane)

/-- What a part's return makes of its sheaf. -/
def Sheaf.landed (f : Sheaf) (now : Nat) (o : Outstanding) : Except Poison (List Word) → Sheaf
  | .ok ws => (f.home o).landWords now o.dst o.lane ws
  | .error p =>
    let g := (f.home o).landPoison now o.dst.toNat o.regs o.lane p
    if o.inRegion then g.updLane o.lane fun x => x.meet p else g

section
variable {s t u : State} {id : Nat} {f g : Sheaf} {o : Outstanding} {r : Except Poison (List Word)}

theorem State.now_congr (h : t.clocks = s.clocks) (hp : g.place = f.place) : t.now g = s.now f := by
  unfold State.now
  rw [hp]
  cases f.place with
  | none => rfl
  | some c => exact congrFun (congrArg Prod.snd h) (dieOf c.1)

theorem State.land_eq : s.land id o r = s.updSheaf id fun f => f.landed (s.now f) o r := by
  unfold State.land
  congr 1

theorem State.land_sheaf (h : s.sheaf id = some f) : (s.land id o r).sheaf id = some (f.landed (s.now f) o r) := by
  rw [State.land_eq]
  exact State.sheaf_updSheaf h _

theorem State.land_one : OneSheaf s (s.land id o r) id := by
  rw [State.land_eq]
  exact State.updSheaf_oneSheaf

/-- A lane that gives up a part keeps its other parts, and the other lanes keep theirs. -/
theorem Sheaf.mem_flagOps_dropParts {w : FlagOp} {n l : Nat} (hl : l < 32) (h : w ∈ (f.dropParts n (BitVec.twoPow 32 l)).flagOps) (hw : w.id = n) :
    w.lanes.getLsbD l = false := by
  unfold Sheaf.dropParts at h
  obtain ⟨v, -, hv⟩ := List.mem_map.1 (List.mem_filter.1 h).1
  by_cases hid : (v.id == n) = true
  · rw [if_pos hid] at hv
    rw [← hv, BitVec.getLsbD_and, BitVec.getLsbD_not, BitVec.getLsbD_twoPow]
    simp [hl]
  · rw [if_neg hid] at hv
    exact absurd (beq_iff_eq.2 (hv ▸ hw)) hid

theorem Sheaf.laneFlag_dropParts {n k l : Nat} {m : Mask} (hl : l < 32) (h : m.getLsbD l = false) :
    (f.dropParts n m).laneFlag k l = f.laneFlag k l := by
  unfold Sheaf.laneFlag Sheaf.dropParts
  dsimp only
  rw [List.filter_filter, List.filter_map, List.length_map]
  congr 1
  refine List.filter_congr fun v _ => ?_
  have hb (x : Mask) : (x &&& ~~~m).getLsbD l = x.getLsbD l := by
    rw [BitVec.getLsbD_and, BitVec.getLsbD_not, h, decide_eq_true hl]
    simp
  have hne (x : Mask) : (x.getLsbD l && x != 0) = x.getLsbD l := by
    cases hx : x.getLsbD l
    · rfl
    · refine bne_iff_ne.2 fun e => ?_
      rw [e] at hx
      simp at hx
  dsimp only [Function.comp]
  split
  · rw [Bool.and_assoc, hne, hb]
  · rw [Bool.and_assoc, hne]

theorem Sheaf.home_frame : f.home o = { f with outstanding := f.outstanding.filter fun x => x.id != o.id, flagOps := (f.home o).flagOps } := rfl

theorem Sheaf.landed_ok_frame {now : Nat} {ws : List Word} : f.landed now o (.ok ws) =
    { f with v := (f.landed now o (.ok ws)).v, vPoison := (f.landed now o (.ok ws)).vPoison, u := (f.landed now o (.ok ws)).u
             uPoison := (f.landed now o (.ok ws)).uPoison, pending := (f.landed now o (.ok ws)).pending
             outstanding := f.outstanding.filter fun x => x.id != o.id, flagOps := (f.home o).flagOps } := by
  have h : (f.home o).LandsOnly (f.landed now o (.ok ws)) := Sheaf.landWords_only
  unfold Sheaf.LandsOnly at h
  rw [h]
  rfl

/-- What a register comes to, case by case, where a value lands in it or not. -/
theorem LandedAt.cases {now key : Nat} {p : Prop} [Decidable p] {w : Word} (h : LandedAt now key (if p then some { value := some w } else none) f g) :
    (p → lateAt f now key = true → g.valueAt key = f.valueAt key ∧ g.poisonAt key = f.poisonAt key
        ∧ g.pending.filter (·.key == key) = underThem w (f.pending.filter (·.key == key)))
    ∧ (p → ¬ lateAt f now key = true → g.valueAt key = w ∧ g.poisonAt key = none)
    ∧ (¬ p → g.valueAt key = f.valueAt key ∧ g.poisonAt key = f.poisonAt key)
    ∧ (¬ (p ∧ lateAt f now key = true) → g.pending.filter (·.key == key) = f.pending.filter (·.key == key)) := by
  have hv := h.value
  have hq := h.poison
  have hd := h.pending
  refine ⟨fun hp hl => ?_, fun hp hl => ?_, fun hp => ?_, fun hn => ?_⟩
  · rw [if_pos hp, Option.elim_some, if_pos hl] at hv hq hd
    exact ⟨hv, hq, hd.trans (underThem_eq w _).symm⟩
  · rw [if_pos hp, Option.elim_some, if_neg hl] at hv hq
    exact ⟨hv, hq⟩
  · rw [if_neg hp] at hv hq
    exact ⟨hv, hq⟩
  · by_cases hp : p
    · rw [if_pos hp, Option.elim_some, if_neg fun hl => hn ⟨hp, hl⟩] at hd
      exact hd
    · rw [if_neg hp] at hd
      exact hd

/-- A returned value lands. -/
theorem lands_of_landed {ws : List Word} (ht : t.sheaf id = some (f.landed (s.now f) o (.ok ws))) (hk : ∀ k, k ≠ id → t.sheaf k = s.sheaf k)
    (hl : o.lane < 32) : Lands id o ws s f t := by
  have hflag : (f.landed (s.now f) o (.ok ws)).flagOps = (f.home o).flagOps := by rw [Sheaf.landed_ok_frame]
  refine ⟨_, ht, hk, ?_, ⟨fun r l hr hl' => ?_, fun n hn => ?_⟩, fun w hw => ?_, fun n l hl' hne => ?_⟩
  · rw [Sheaf.landed_ok_frame]
  · have h := (Sheaf.landWords_landed (f := f.home o) (now := s.now f) (d := o.dst) (ws := ws) hl (names_vKey hr hl hl')).cases
    have hiff : (l = o.lane ∧ r < 120 ∧ o.dst.toNat ≤ r ∧ r < o.dst.toNat + ws.length) ↔ (l = o.lane ∧ o.dst.toNat ≤ r ∧ r < o.dst.toNat + ws.length) :=
      and_congr_right fun _ => and_iff_right (by omega)
    rw [hiff] at h
    rw [Sheaf.valueAt_vKey hr hl', Sheaf.poisonAt_v _ hr hl', Sheaf.valueAt_vKey hr hl', Sheaf.poisonAt_v _ hr hl'] at h
    exact h
  · have h := (Sheaf.landWords_landed (f := f.home o) (now := s.now f) (d := o.dst) (ws := ws) hl (names_uKey (n := n) hl)).cases
    have hiff : (True ∧ 104 + n < 120 ∧ o.dst.toNat ≤ 104 + n ∧ 104 + n < o.dst.toNat + ws.length)
        ↔ (n < 16 ∧ o.dst.toNat ≤ 104 + n ∧ 104 + n < o.dst.toNat + ws.length) := by
      rw [true_and]
      omega
    have hn4 : n < 4096 := by omega
    rw [hiff] at h
    rw [Sheaf.valueAt_uKey, Sheaf.poisonAt_uKey hn4, Sheaf.valueAt_uKey, Sheaf.poisonAt_uKey hn4] at h
    exact h
  · rw [hflag] at hw
    exact Sheaf.mem_flagOps_dropParts hl hw
  · have hbit : (BitVec.twoPow 32 o.lane).getLsbD l = false := by
      rw [BitVec.getLsbD_twoPow]
      simp [Ne.symm hne]
    unfold Sheaf.laneFlag
    rw [hflag]
    exact Sheaf.laneFlag_dropParts (f := { f with outstanding := f.outstanding.filter fun x => x.id != o.id }) hl' hbit

end

/-! ### What a lane's load reads -/

section
variable {s p : State} {id : Nat} {f : Sheaf} {o : Outstanding} {a : Acc}

theorem findSome?_filter_eq {α β : Type} {g : α → Option β} {p : α → Bool} (l : List α) :
    (l.findSome? fun x => if p x = true then g x else none) = (l.filter p).findSome? g := by
  induction l with
  | nil => rfl
  | cons x l ih =>
    rw [List.findSome?_cons, List.filter_cons, ih]
    by_cases h : p x = true
    · rw [if_pos h, if_pos h, List.findSome?_cons]
    · rw [if_neg h, if_neg h]

/-- A byte that the lane's own stores hold, as the statement gives it (R183). -/
theorem State.forward_eq {lane n : Nat} {place : Bool × Nat} : s.forward f lane n place = Claims.forwarded s f lane n place := by
  unfold State.forward Claims.forwarded
  refine congrArg (fun g => f.storeQueue.reverse.findSome? g) (funext fun e => ?_)
  have hc : (decide (e.id < n) && e.stream.isNone) = true ↔ e.id < n ∧ e.stream = none := by
    rw [Bool.and_eq_true, decide_eq_true_iff, Option.isNone_iff_eq_none]
  rw [if_congr hc rfl rfl, ← findSome?_filter_eq]
  simp only [beq_iff_eq]

/-- Where an access lies, only the TLBs learn. -/
theorem State.locate_here {space : Space} {lane size : Nat} {ea : DWord} {right : Right} {inPlace : Bool}
    (h : s.locate f space lane ea size right inPlace = .here a p) : p = { s with tlbs := p.tlbs } := by
  have htouch (core ctx page : Nat) : s.tlbTouch core ctx page = { s with tlbs := (s.tlbTouch core ctx page).tlbs } := by
    unfold State.tlbTouch
    dsimp only
    split
    · rfl
    · split <;> rfl
  unfold State.locate at h
  extract_lets u at h
  split at h
  · cases h
    rfl
  · extract_lets c va at h
    split at h
    · cases h
    · split at h
      · split at h
        · split at h <;> cases h
        · cases h
      · cases h
      · split at h
        · cases h
        · cases h
          exact htouch ..

/-- What a core's read of a place leaves: its read cache may take in a line. -/
theorem State.dropCache_frame {core : Nat} : s.dropCache core = { s with cores := (s.dropCache core).cores } := rfl

/-- A place is read at its home where the core's read cache does not hold it. -/
theorem State.readHome_home {core u : Nat} {acquire : Bool} (h : a.win = false → ∀ x ∈ (s.core core).cache, x.1 ≠ a.keys.headD 0 / 128) :
    (s.readHome core u a acquire).1 = s.accBytes u a
    ∧ (s.readHome core u a acquire).2 = { s with cores := (s.readHome core u a acquire).2.cores } := by
  unfold State.readHome
  split
  · exact ⟨rfl, rfl⟩
  · next hc =>
    have hwin : a.win = false := by
      by_contra e
      rw [Bool.eq_true_of_not_eq_false e, Bool.or_true] at hc
      exact hc rfl
    have hnone : (s.core core).cache.find? (fun l => l.1 == a.keys.headD 0 / 128) = none := by
      rw [List.find?_eq_none]
      intro x hx
      exact fun e => h hwin x hx (beq_iff_eq.1 e)
    dsimp only
    rw [hnone]
    exact ⟨rfl, rfl⟩

/-- What a load leaves as it was. -/
def State.LoadOnly (s t : State) : Prop :=
  t = { s with cores := t.cores, contexts := t.contexts, tlbs := t.tlbs, dies := t.dies, requests := t.requests }

theorem State.LoadOnly.trans {s t u : State} (a : s.LoadOnly t) (b : t.LoadOnly u) : s.LoadOnly u := by
  unfold State.LoadOnly at *
  rw [a] at b
  exact b

theorem Charged.loadOnly {s t : State} (h : Charged s t) : s.LoadOnly t := by
  unfold State.LoadOnly
  rw [h.rest]

theorem Charged.clocks {s t : State} (h : Charged s t) : t.clocks = s.clocks := by
  have hd (d : Nat) : (t.die d).cycle = (s.die d).cycle := show (t.die d).lineless.cycle = (s.die d).lineless.cycle by rw [h.dies d]
  unfold State.clocks
  rw [funext hd, h.rest]

/-- The bytes of a load: the lane's own stores before the place. -/
def loadBytes (s : State) (f : Sheaf) (o : Outstanding) (a : Acc) : List Byte :=
  (List.range o.size).map fun j =>
    let k := a.keys.getD j 0
    (forwarded s f o.lane o.op (s.bytePlace f o.space o.lane o.ea j)).getD
      (if a.win then ((s.unit f.unit).getD default).winByte k else s.byteAt k)

theorem map_eq_range_map {α β : Type} {l : List α} {n : Nat} (d : α) (g : α → β) (h : l.length = n) :
    l.map g = (List.range n).map fun j => g (l.getD j d) := by
  subst h
  refine List.ext_getElem (by simp) fun j h1 h2 => ?_
  simp only [List.getElem_map, List.getElem_range]
  rw [List.getD_eq_getElem?_getD, List.getElem?_eq_getElem (by simpa using h1), Option.getD_some]

theorem zip_map_range {α β γ : Type} {g : Nat → α} {h : Nat → β} {k : α × β → γ} (n : Nat) :
    ((((List.range n).map g).zip ((List.range n).map h)).map k) = (List.range n).map fun j => k (g j, h j) := by
  rw [List.zip_map', List.map_map]
  rfl

theorem loadBytes_eq (hn : a.keys.length = o.size) :
    ((((s.places f o.space o.lane o.ea o.size).map (s.forward f o.lane o.op)).zip (s.accBytes f.unit a)).map fun c => c.1.getD c.2) = loadBytes s f o a := by
  have hb : s.accBytes f.unit a
      = (List.range o.size).map fun j => if a.win then ((s.unit f.unit).getD default).winByte (a.keys.getD j 0) else s.byteAt (a.keys.getD j 0) := by
    unfold State.accBytes
    dsimp only
    split <;> exact map_eq_range_map 0 _ hn
  rw [hb, State.places, List.map_map, zip_map_range]
  unfold loadBytes
  simp only [Function.comp, State.forward_eq]

theorem State.detect_unwatched {lane region : Nat} {win : Option Nat} {l : List Nat} {w sync : Bool} :
    s.detect id lane region false win l w sync = .clear s := rfl

/-- Where no byte of a place reads badly, none of those that no store of the lane covers does. -/
theorem State.accPoisoned_of_subset {b : Acc} {u : Nat} (hw : b.win = a.win) (hs : ∀ k ∈ b.keys, k ∈ a.keys)
    (hm : a.win = false → a.keys.any s.poisonAt = false) (hb : a.win = true → ∀ k ∈ a.keys, ((s.unit u).getD default).badByte k = false) :
    s.accPoisoned u b = false := by
  unfold State.accPoisoned
  dsimp only
  rw [hw]
  split
  · next h => exact List.any_eq_false.2 fun k hk => Bool.eq_false_iff.1 (hb h k (hs k hk))
  · next h => exact List.any_eq_false.2 fun k hk => List.any_eq_false.1 (hm (Bool.eq_false_iff.2 h)) k (hs k hk)

/-- The bytes of a load's place that no store of the lane covers. -/
def State.bare (s : State) (f : Sheaf) (o : Outstanding) (a : Acc) : Acc :=
  let own := (s.places f o.space o.lane o.ea o.size).map (s.forward f o.lane o.op)
  { a with keys := (a.keys.zip own).filterMap fun c => if c.2.isNone then some c.1 else none }

theorem State.bare_subset {k : Nat} (h : k ∈ (s.bare f o a).keys) : k ∈ a.keys := by
  obtain ⟨c, hc, he⟩ := List.mem_filterMap.1 h
  split at he
  · obtain rfl := Option.some.inj he
    exact (List.of_mem_zip hc).1
  · cases he

/-- What is read of a place depends on memory and the windows alone. -/
theorem State.accBytes_congr {t : State} {u : Nat} (hm : t.mem = s.mem) (hu : t.units = s.units) : t.accBytes u a = s.accBytes u a := by
  have hb : t.byteAt = s.byteAt := funext fun k => State.byteAt_congr hm
  unfold State.accBytes State.unit
  rw [hb, hu]

/-- The reading of a place that the detector has let through, and what is kept of the access. -/
theorem State.readPlace (hc : a.win = false → ∀ x ∈ (s.core f.coreNo).cache, x.1 ≠ a.keys.headD 0 / 128) {ctx : Nat} :
    let s2 := if decide (6 ≤ o.acquire) then s.dropCache f.coreNo else s
    let r := s2.readHome f.coreNo f.unit a (o.acquire != 0)
    let t := if a.win then r.2
      else (if (remoteOf (a.keys.headD 0)).isSome then r.2.sendRequest else r.2).laneAccess f.coreNo ctx (a.keys.headD 0) false o.cp o.size
    r.1 = s.accBytes f.unit a ∧ s.LoadOnly t ∧ t.clocks = s.clocks := by
  intro s2 r t
  have h2 : s2 = { s with cores := s2.cores } := by
    unfold s2
    split <;> rfl
  have hc2 : ∀ x ∈ (s2.core f.coreNo).cache, x ∈ (s.core f.coreNo).cache := by
    unfold s2
    split
    · intro x hx
      rw [State.dropCache, State.updCore, State.core_setCore, if_pos rfl] at hx
      cases hx
    · exact fun x hx => hx
  obtain ⟨hb, h3⟩ := State.readHome_home (s := s2) (u := f.unit) (a := a) (core := f.coreNo) (acquire := o.acquire != 0)
    fun h x hx => hc h x (hc2 x hx)
  have hr : s.LoadOnly r.2 ∧ r.2.clocks = s.clocks := by
    constructor
    · unfold State.LoadOnly
      rw [h3, h2]
    · rw [h3, h2]
      rfl
  refine ⟨hb.trans (State.accBytes_congr (by rw [h2]) (by rw [h2])), ?_⟩
  unfold t
  clear_value r
  split
  · exact hr
  · have hsend : s.LoadOnly (if (remoteOf (a.keys.headD 0)).isSome then r.2.sendRequest else r.2)
        ∧ (if (remoteOf (a.keys.headD 0)).isSome then r.2.sendRequest else r.2).clocks = s.clocks := by
      split
      · exact ⟨hr.1.trans rfl, hr.2⟩
      · exact hr
    exact ⟨hsend.1.trans Charged.laneAccess.loadOnly, State.laneAccess_clocks.trans hsend.2⟩

/-- A lane's load where nothing watches or spoils its bytes. -/
theorem State.loadLane_here (hf : s.sheaf id = some f) (hl : s.locate f o.space o.lane o.ea o.size .read false = .here a p)
    (hw : a.watched = false) (hn : a.keys.length = o.size)
    (hm : a.win = false → p.laneHeld f.coreNo (s.unitOf f).ctx (a.keys.headD 0) = false ∧ a.keys.any s.poisonAt = false
      ∧ ∀ x ∈ (s.core f.coreNo).cache, x.1 ≠ a.keys.headD 0 / 128)
    (hb : a.win = true → ∀ k ∈ a.keys, ((s.unit f.unit).getD default).badByte k = false) :
    ∃ t, s.loadLane id o o.op false false = .bytes (loadBytes s f o a) t ∧ s.LoadOnly t ∧ t.clocks = s.clocks := by
  have hp := State.locate_here hl
  have hunit : p.unit f.unit = s.unit f.unit := by rw [hp]; rfl
  have hpoison : p.poisonAt = s.poisonAt := by rw [hp]; rfl
  have hcore : p.core f.coreNo = s.core f.coreNo := by rw [hp]; rfl
  have hheld : (!a.win && p.laneHeld f.coreNo (s.unitOf f).ctx (a.keys.headD 0)) = false := by
    cases h : a.win with
    | true => rfl
    | false => exact (hm h).1
  obtain ⟨hbytes, honly, hclocks⟩ := State.readPlace (s := p) (f := f) (o := o) (a := a) (ctx := (s.unitOf f).ctx)
    fun h => hcore ▸ (hm h).2.2
  have hbad : p.accPoisoned f.unit (s.bare f o a) = false :=
    State.accPoisoned_of_subset (a := a) rfl (fun _ => State.bare_subset) (fun h => hpoison ▸ (hm h).2.1) fun h => hunit ▸ hb h
  unfold State.bare at hbad
  unfold State.loadLane
  rw [hf]
  dsimp only
  rw [hl]
  dsimp only
  rw [hheld, if_neg Bool.false_ne_true, hbad, if_neg Bool.false_ne_true, hw, Bool.false_and, State.detect_unwatched]
  refine ⟨_, congrArg₂ Got.bytes ?_ rfl, ?_, hclocks.trans (by rw [hp]; rfl)⟩
  · rw [hbytes, State.accBytes_congr (s := s) (by rw [hp]) (by rw [hp])]
    exact loadBytes_eq hn
  · exact State.LoadOnly.trans (by unfold State.LoadOnly; rw [hp]) honly

theorem State.loadLane_bad {q : Poison} (hf : s.sheaf id = some f) (hl : s.locate f o.space o.lane o.ea o.size .read false = .bad q) :
    s.loadLane id o o.op false false = .bad q s := by
  unfold State.loadLane
  rw [hf]
  dsimp only
  rw [hl]

/-! ### The event -/

theorem State.sameLine_self : s.sameLine f o o = true := by
  unfold State.sameLine
  rw [beq_self_eq_true, beq_self_eq_true]
  rfl

/-- The turn of the only load of its lane on its lines has come (R285). -/
theorem find?_sameLine (ho : o ∈ f.outstanding) (hk : o.kind = .load) (h : ∀ x ∈ f.outstanding, x.kind = .load → s.sameLine f x o = true → x = o) :
    f.outstanding.find? (fun x => x.kind == .load && s.sameLine f x o) = some o := by
  have hself : (o.kind == .load && s.sameLine f o o) = true := by rw [hk, State.sameLine_self]; rfl
  cases hx : f.outstanding.find? fun x => x.kind == .load && s.sameLine f x o with
  | none => exact absurd hself (List.find?_eq_none.1 hx o ho)
  | some x =>
    have hp := List.find?_some hx
    rw [Bool.and_eq_true, beq_iff_eq] at hp
    rw [h x (List.mem_of_find?_eq_some hx) hp.1 hp.2]

variable {n : Nat}

theorem State.acknowledge_frame : s.acknowledge o = { s with unacked := (s.acknowledge o).unacked } := by
  unfold State.acknowledge
  split <;> rfl

theorem State.remoteProgress_frame {b : Bool} : s.remoteProgress f b = { s with jobs := (s.remoteProgress f b).jobs } := by
  unfold State.remoteProgress
  split
  · exact State.progress_rest s _
  · rfl

/-- The return of an atomic's old value. -/
theorem loadReply_value {ws : List Word} (hf : s.sheaf id = some f) (ho : f.outstanding.find? (fun x => x.id == n) = some o)
    (hk : o.kind = .value ws) : exec (.loadReply id n) s = .next (if o.peer.any (fun k => (s.peers.get k).broken) then s
      else ((s.acknowledge o).land id o (.ok ws)).remoteProgress f o.peer.isSome) := by
  refine (execLoadReply.eq_1 ..).trans (congrArg Host.Outcome.next ?_)
  rw [hf]
  dsimp only
  rw [ho]
  dsimp only
  rw [hk]
  rfl

/-- The reply to a load that comes in its turn, by what reading for the lane gives. -/
theorem loadReply_bytes {b : List Byte} {t : State} (hf : s.sheaf id = some f) (ho : f.outstanding.find? (fun x => x.id == n) = some o)
    (hk : o.kind = .load) (h : ∀ x ∈ f.outstanding, x.kind = .load → s.sameLine f x o = true → x = o)
    (hr : s.loadLane id o o.op false false = .bytes b t) :
    exec (.loadReply id n) s = .next ((t.land id o (.ok (loadWords o.size o.signed b))).remoteProgress f (t.requests != s.requests)) := by
  refine (execLoadReply.eq_1 ..).trans (congrArg Host.Outcome.next ?_)
  rw [hf]
  dsimp only
  rw [ho]
  dsimp only
  rw [find?_sameLine (List.mem_of_find?_eq_some ho) hk h, Option.any_some, List.find?_some ho, Bool.or_true, hk]
  dsimp only
  rw [hr]
  rfl

theorem loadReply_bad {q : Poison} {t : State} (hf : s.sheaf id = some f) (ho : f.outstanding.find? (fun x => x.id == n) = some o)
    (hk : o.kind = .load) (h : ∀ x ∈ f.outstanding, x.kind = .load → s.sameLine f x o = true → x = o)
    (hr : s.loadLane id o o.op false false = .bad q t) : exec (.loadReply id n) s = .next (t.land id o (.error q)) := by
  refine (execLoadReply.eq_1 ..).trans (congrArg Host.Outcome.next ?_)
  rw [hf]
  dsimp only
  rw [ho]
  dsimp only
  rw [find?_sameLine (List.mem_of_find?_eq_some ho) hk h, Option.any_some, List.find?_some ho, Bool.or_true, hk]
  dsimp only
  rw [hr]
  rfl

/-- A value that comes back. -/
theorem loadReply_value_lands {ws : List Word} (hf : s.sheaf id = some f) (ho : f.outstanding.find? (fun x => x.id == n) = some o)
    (hl : o.lane < 32) (hk : o.kind = .value ws) (hb : ¬ o.peer.any (fun k => (s.peers.get k).broken) = true) :
    ∃ t, exec (.loadReply id n) s = .next t ∧ Lands id o ws s f t
      ∧ t.unacked = (match o.peer with
        | some k => s.unacked.filter fun r => !(r.seq == o.request && r.peer == k)
        | none => s.unacked)
      ∧ (o.peer = none → t.jobs = s.jobs) ∧ t = { s with sheaves := t.sheaves, unacked := t.unacked, jobs := t.jobs } := by
  have hack := State.acknowledge_frame (s := s) (o := o)
  obtain ⟨hothers, hin⟩ : OneSheaf (s.acknowledge o) ((s.acknowledge o).land id o (.ok ws)) id := State.land_one
  have hprog := State.remoteProgress_frame (s := (s.acknowledge o).land id o (.ok ws)) (f := f) (b := o.peer.isSome)
  have hsheaf : (s.acknowledge o).sheaf id = some f := by rw [hack]; exact hf
  have hnow : (s.acknowledge o).now f = s.now f := by rw [hack]; rfl
  have hun : ((s.acknowledge o).land id o (.ok ws)).unacked = (s.acknowledge o).unacked := by rw [hin]
  refine ⟨_, (loadReply_value hf ho hk).trans (congrArg _ (if_neg hb)), lands_of_landed ?_ (fun k hne => ?_) hl, ?_, fun hnone => ?_, ?_⟩
  · rw [hprog, ← hnow]
    exact State.land_sheaf hsheaf
  · rw [hprog]
    refine (hothers k hne).trans ?_
    rw [hack]
    rfl
  · rw [hprog]
    refine hun.trans ?_
    unfold State.acknowledge
    cases o.peer <;> rfl
  · rw [hnone]
    refine Eq.trans (b := ((s.acknowledge o).land id o (.ok ws)).jobs) rfl ?_
    rw [hin, hack]
  · rw [hprog, hin, hack]

/-- A load's bytes that come back. -/
theorem loadReply_load_lands (hf : s.sheaf id = some f) (ho : f.outstanding.find? (fun x => x.id == n) = some o) (hl : o.lane < 32)
    (hk : o.kind = .load) (h : ∀ x ∈ f.outstanding, x.kind = .load → s.sameLine f x o = true → x = o)
    (hloc : s.locate f o.space o.lane o.ea o.size .read false = .here a p) (hw : a.watched = false) (hn : a.keys.length = o.size)
    (hm : a.win = false → p.laneHeld f.coreNo (s.unitOf f).ctx (a.keys.headD 0) = false ∧ a.keys.any s.poisonAt = false
      ∧ ∀ x ∈ (s.core f.coreNo).cache, x.1 ≠ a.keys.headD 0 / 128)
    (hb : a.win = true → ∀ k ∈ a.keys, ((s.unit f.unit).getD default).badByte k = false) :
    ∃ t, exec (.loadReply id n) s = .next t ∧ Lands id o (wordsOf o.size o.signed (valueOf (loadBytes s f o a))) s f t
      ∧ t = { s with sheaves := t.sheaves, cores := t.cores, contexts := t.contexts, tlbs := t.tlbs, dies := t.dies
                     requests := t.requests, jobs := t.jobs } := by
  obtain ⟨t, ht, honly, hclocks⟩ := State.loadLane_here hf hloc hw hn hm hb
  have hlen : (loadBytes s f o a).length = o.size := by rw [loadBytes, List.length_map, List.length_range]
  obtain ⟨hothers, hrest⟩ : OneSheaf t (t.land id o (.ok (loadWords o.size o.signed (loadBytes s f o a)))) id := State.land_one
  have hsheaves : t.sheaves = s.sheaves := by rw [honly]
  have hsheaf (k : Nat) : t.sheaf k = s.sheaf k := congrArg (fun x => Store.get x k) hsheaves
  have hprog := State.remoteProgress_frame (s := t.land id o (.ok (loadWords o.size o.signed (loadBytes s f o a)))) (f := f)
    (b := t.requests != s.requests)
  refine ⟨_, loadReply_bytes hf ho hk h ht, lands_of_landed ?_ (fun k hne => ?_) hl, ?_⟩
  · rw [hprog, ← loadWords_eq o.signed hlen, ← State.now_congr hclocks rfl]
    exact State.land_sheaf ((hsheaf id).trans hf)
  · rw [hprog]
    exact (hothers k hne).trans (hsheaf k)
  · rw [hprog, hrest, honly]

/-- A load whose translation meets a condition. -/
theorem loadReply_load_poison {q : Poison} (hf : s.sheaf id = some f) (ho : f.outstanding.find? (fun x => x.id == n) = some o) (hl : o.lane < 32)
    (hk : o.kind = .load) (h : ∀ x ∈ f.outstanding, x.kind = .load → s.sameLine f x o = true → x = o)
    (hloc : s.locate f o.space o.lane o.ea o.size .read false = .bad q) : ∃ t z, exec (.loadReply id n) s = .next t
      ∧ t.sheaf id = some z ∧ t = { s with sheaves := t.sheaves } ∧ z.v = f.v ∧ z.u = f.u
      ∧ (∀ r l, r < 104 → l < 32 → z.vPoison.get (vKey r l) =
          if l = o.lane ∧ o.dst.toNat ≤ r ∧ r < o.dst.toNat + o.regs ∧ lateAt f (s.now f) (vKey r l) = false then some q
          else f.vPoison.get (vKey r l))
      ∧ (∀ x ∈ z.outstanding, x.id ≠ o.id) ∧ (∀ w ∈ z.flagOps, w.id = o.op → w.lanes.getLsbD o.lane = false) := by
  obtain ⟨-, hrest⟩ : OneSheaf s (s.land id o (.error q)) id := State.land_one
  have hmeet : f.landed (s.now f) o (.error q) = { (f.home o).landPoison (s.now f) o.dst.toNat o.regs o.lane q with
      lanes := (f.landed (s.now f) o (.error q)).lanes } := by
    unfold Sheaf.landed
    dsimp only
    split <;> rfl
  obtain ⟨hv, hu⟩ := Sheaf.landPoison_values (f := f.home o) (now := s.now f) (field := o.dst.toNat) (l := o.lane) (n := o.regs) (q := q)
  have hfr : (f.home o).LandsOnly ((f.home o).landPoison (s.now f) o.dst.toNat o.regs o.lane q) := Sheaf.landPoison_only
  unfold Sheaf.LandsOnly at hfr
  refine ⟨_, _, loadReply_bad hf ho hk h (State.loadLane_bad hf hloc), State.land_sheaf hf, hrest, ?_, ?_, fun r l hr hl' => ?_, ?_, ?_⟩
  · rw [hmeet]
    exact hv
  · rw [hmeet]
    exact hu
  · have hp := (Sheaf.landPoison_landed (f := f.home o) (now := s.now f) (field := o.dst.toNat) (q := q) hl (names_vKey hr hl hl') o.regs).poison
    rw [Sheaf.poisonAt_v _ hr hl', Sheaf.poisonAt_v _ hr hl'] at hp
    rw [hmeet]
    refine hp.trans ?_
    have hlate : lateAt (f.home o) (s.now f) (vKey r l) = lateAt f (s.now f) (vKey r l) := rfl
    have hget : (f.home o).vPoison.get (vKey r l) = f.vPoison.get (vKey r l) := rfl
    rw [hlate, hget]
    by_cases hin : l = o.lane ∧ o.dst.toNat ≤ r ∧ r < o.dst.toNat + o.regs
    · obtain ⟨h1, h2, h3⟩ := hin
      rw [if_pos ⟨h1, by omega, h2, h3⟩, Option.elim_some]
      cases lateAt f (s.now f) (vKey r l) with
      | true => rw [if_pos rfl, if_neg (by simp)]
      | false => rw [if_neg Bool.false_ne_true, if_pos ⟨h1, h2, h3, rfl⟩]
    · rw [if_neg (fun ⟨h1, _, h2, h3⟩ => hin ⟨h1, h2, h3⟩), if_neg (fun ⟨h1, h2, h3, _⟩ => hin ⟨h1, h2, h3⟩)]
      rfl
  · rw [hmeet, hfr]
    intro x hx
    exact bne_iff_ne.1 (List.mem_filter.1 hx).2
  · rw [hmeet, hfr]
    intro w hw
    exact Sheaf.mem_flagOps_dropParts hl hw

end

/-- Settles O20: by the kind of the part, each reply by what reading for the lane gives and by what its landing makes of the sheaf. -/
theorem repliesComeHome : Obligations.RepliesComeHome := by
  unfold Obligations.RepliesComeHome
  intro s id n f o hf ho hl
  refine ⟨fun ws hk => ?_, fun hk _ h => ⟨fun a p hloc hw hn hm hb => ?_, fun p hloc => ?_⟩⟩
  · split
    · next hb => exact (loadReply_value hf ho hk).trans (congrArg _ (if_pos hb))
    · next hb => exact loadReply_value_lands hf ho hl hk hb
  · exact loadReply_load_lands hf ho hl hk h hloc hw hn hm hb
  · exact loadReply_load_poison hf ho hl hk h hloc

end Sys2Proof.Machine
end

section
/-!
PROOFS. Loads issue (O17): the parts of a word that come to wait, and the poisons that its other lanes receive, one lane after the other.
-/
namespace Sys2Proof.Machine
open Sys2Proof.Claims

/-! ### The parts of a word, lane after lane -/

/-- A part comes to wait, or its lane receives poison at once. -/
def Sheaf.issuePart (now : Nat) (f : Sheaf) (x : Outstanding × Option Poison) : Sheaf :=
  x.2.elim { f with outstanding := f.outstanding ++ [x.1] } fun p => f.landed now x.1 (.error p)

def State.issuePart (id : Nat) (s : State) (x : Outstanding × Option Poison) : State :=
  x.2.elim (s.updSheaf id fun f => { f with outstanding := f.outstanding ++ [x.1] }) fun p => s.land id x.1 (.error p)

/-- The parts of one word: each of its own lane, named after the word and the lane. -/
structure Parts (op : Nat) (l : List (Outstanding × Option Poison)) : Prop where
  nodup : (l.map fun x => x.1.lane).Nodup
  named : ∀ x ∈ l, x.1.id = 32 * op + x.1.lane ∧ x.1.op = op ∧ x.1.lane < 32

/-- Of a sheaf only what parts of a word change differs. -/
def PartsOnly (f g : Sheaf) : Prop :=
  g = { f with lanes := g.lanes, flagOps := g.flagOps, outstanding := g.outstanding, vPoison := g.vPoison, uPoison := g.uPoison, pending := g.pending }

section
variable {f g : Sheaf} {now op : Nat} {x : Outstanding × Option Poison} {l : List (Outstanding × Option Poison)}

theorem Parts.tail (h : Parts op (x :: l)) : Parts op l := ⟨(List.nodup_cons.1 h.nodup).2, fun y hy => h.named y (by simp [hy])⟩

theorem Parts.head_lane (h : Parts op (x :: l)) {y : Outstanding × Option Poison} (hy : y ∈ l) : y.1.lane ≠ x.1.lane := fun e =>
  (List.nodup_cons.1 h.nodup).1 (List.mem_map.2 ⟨y, hy, e⟩)

theorem PartsOnly.trans {h : Sheaf} (a : PartsOnly f g) (b : PartsOnly g h) : PartsOnly f h := by
  unfold PartsOnly at *
  rw [a] at b
  exact b

theorem PartsOnly.place (h : PartsOnly f g) : g.place = f.place := by
  unfold PartsOnly at h
  rw [h]

/-- What the landing of a poison makes of the sheaf, but for its lane. -/
theorem Sheaf.landed_error_eq {o : Outstanding} {p : Poison} : f.landed now o (.error p) =
    { (f.home o).landPoison now o.dst.toNat o.regs o.lane p with lanes := (f.landed now o (.error p)).lanes } := by
  unfold Sheaf.landed
  dsimp only
  split <;> rfl

theorem Sheaf.landed_error_only {o : Outstanding} {p : Poison} : PartsOnly f (f.landed now o (.error p)) := by
  have h : (f.home o).LandsOnly ((f.home o).landPoison now o.dst.toNat o.regs o.lane p) := Sheaf.landPoison_only
  obtain ⟨hv, hu⟩ := Sheaf.landPoison_values (f := f.home o) (now := now) (field := o.dst.toNat) (l := o.lane) (n := o.regs) (q := p)
  unfold Sheaf.LandsOnly at h
  rw [hv, hu] at h
  unfold PartsOnly
  rw [Sheaf.landed_error_eq, h]
  rfl

theorem Sheaf.landed_error_lane {o : Outstanding} {p : Poison} (k : Nat) :
    LaneKept (f.lane k) ((f.landed now o (.error p)).lane k) ∧ (k ≠ o.lane → (f.landed now o (.error p)).lane k = f.lane k) := by
  have h : (f.home o).LandsOnly ((f.home o).landPoison now o.dst.toNat o.regs o.lane p) := Sheaf.landPoison_only
  have hl (k : Nat) : ((f.home o).landPoison now o.dst.toNat o.regs o.lane p).lane k = f.lane k := by
    unfold Sheaf.LandsOnly at h
    rw [h]
    rfl
  have hmeet (x : LaneSt) : LaneKept x (x.meet p) := by
    unfold LaneSt.meet
    split <;> exact ⟨rfl, rfl, rfl, rfl, rfl, rfl, rfl⟩
  unfold Sheaf.landed
  dsimp only
  split
  · rw [Sheaf.lane_updLane, hl, hl]
    split
    · next hk => exact ⟨hk ▸ hmeet _, fun hne => absurd hk hne⟩
    · exact ⟨.refl _, fun _ => rfl⟩
  · rw [hl]
    exact ⟨.refl _, fun _ => rfl⟩

theorem Sheaf.landed_error_waits {o : Outstanding} {p : Poison} :
    (f.landed now o (.error p)).outstanding = f.outstanding.filter (fun x => x.id != o.id)
    ∧ (f.landed now o (.error p)).flagOps = (f.home o).flagOps := by
  have h : (f.home o).LandsOnly ((f.home o).landPoison now o.dst.toNat o.regs o.lane p) := Sheaf.landPoison_only
  unfold Sheaf.LandsOnly at h
  rw [Sheaf.landed_error_eq, h]
  exact ⟨rfl, rfl⟩

theorem Sheaf.landed_error_landed {o : Outstanding} {p : Poison} {key r0 : Nat} {q : Prop} [Decidable q] (hl : o.lane < 32)
    (hn : Names key o.lane r0 q) : LandedAt now key
      (if q ∧ r0 < 120 ∧ o.dst.toNat ≤ r0 ∧ r0 < o.dst.toNat + o.regs then some { poison := some p } else none) f (f.landed now o (.error p)) := by
  have h := Sheaf.landPoison_landed (f := f.home o) (now := now) (field := o.dst.toNat) (q := p) hl hn o.regs
  rw [Sheaf.landed_error_eq]
  exact ⟨h.late, h.value, h.poison, h.pending⟩

theorem Sheaf.issuePart_landed {key r0 : Nat} {q : Prop} [Decidable q] (hl : x.1.lane < 32) (hn : Names key x.1.lane r0 q) :
    LandedAt now key (if q ∧ r0 < 120 ∧ x.1.dst.toNat ≤ r0 ∧ r0 < x.1.dst.toNat + x.1.regs then x.2.map fun p => { poison := some p } else none)
      f (f.issuePart now x) := by
  unfold Sheaf.issuePart
  cases x.2 with
  | none =>
    rw [Option.map_none, ite_self]
    exact .of_same rfl rfl rfl
  | some p => exact Sheaf.landed_error_landed hl hn

/-! ### All parts -/

theorem Sheaf.issueParts_only (l : List (Outstanding × Option Poison)) : ∀ f : Sheaf, PartsOnly f (l.foldl (Sheaf.issuePart now) f) := by
  induction l with
  | nil => exact fun _ => rfl
  | cons x l ih =>
    intro f
    have h1 : PartsOnly f (f.issuePart now x) := by
      unfold Sheaf.issuePart
      cases x.2 with
      | none => rfl
      | some p => exact Sheaf.landed_error_only
    exact h1.trans (ih _)

theorem Sheaf.issuePart_lane (k : Nat) :
    LaneKept (f.lane k) ((f.issuePart now x).lane k) ∧ (k ≠ x.1.lane → (f.issuePart now x).lane k = f.lane k) := by
  unfold Sheaf.issuePart
  cases x.2 with
  | none => exact ⟨.refl _, fun _ => rfl⟩
  | some p => exact Sheaf.landed_error_lane k

theorem Sheaf.issueParts_lane (k : Nat) (l : List (Outstanding × Option Poison)) : ∀ f : Sheaf,
    LaneKept (f.lane k) ((l.foldl (Sheaf.issuePart now) f).lane k)
    ∧ ((∀ x ∈ l, x.1.lane ≠ k) → (l.foldl (Sheaf.issuePart now) f).lane k = f.lane k) := by
  induction l with
  | nil => exact fun _ => ⟨.refl _, fun _ => rfl⟩
  | cons x l ih =>
    intro f
    obtain ⟨h1, h2⟩ := Sheaf.issuePart_lane (f := f) (now := now) (x := x) k
    obtain ⟨h3, h4⟩ := ih (f.issuePart now x)
    exact ⟨h1.trans h3, fun h => (h4 fun y hy => h y (by simp [hy])).trans (h2 (Ne.symm (h x (by simp))))⟩

/-- What waits after the parts have been issued: what waited, but for what bore the name of a part that got poison, and the other parts. -/
theorem Sheaf.mem_issueParts (l : List (Outstanding × Option Poison)) : ∀ f : Sheaf, Parts op l →
    (∀ x ∈ l, x.2 = none → x.1 ∈ (l.foldl (Sheaf.issuePart now) f).outstanding)
    ∧ (∀ o ∈ (l.foldl (Sheaf.issuePart now) f).outstanding, o ∈ f.outstanding ∨ ∃ x ∈ l, x.2 = none ∧ o = x.1)
    ∧ ∀ o ∈ f.outstanding, (∀ x ∈ l, o.id ≠ x.1.id) → o ∈ (l.foldl (Sheaf.issuePart now) f).outstanding := by
  induction l with
  | nil => exact fun f _ => ⟨fun x hx => absurd hx List.not_mem_nil, fun o ho => .inl ho, fun o ho _ => ho⟩
  | cons x l ih =>
    intro f h
    obtain ⟨h1, h2, h3⟩ := ih (f.issuePart now x) h.tail
    have hout : (f.issuePart now x).outstanding = if x.2 = none then f.outstanding ++ [x.1] else f.outstanding.filter fun y => y.id != x.1.id := by
      unfold Sheaf.issuePart
      cases x.2 with
      | none => rfl
      | some p => exact Sheaf.landed_error_waits.1
    have hid : ∀ y ∈ l, x.1.id ≠ y.1.id := fun y hy e => h.head_lane hy (by
      have := (h.named x (by simp)).1
      have := (h.named y (by simp [hy])).1
      omega)
    refine ⟨fun y hy hn => ?_, fun o ho => ?_, fun o ho hne => ?_⟩
    · rcases List.mem_cons.1 hy with rfl | hy
      · refine h3 _ ?_ hid
        rw [hout, if_pos hn]
        simp
      · exact h1 y hy hn
    · rcases h2 o ho with ho | ⟨y, hy, hn, e⟩
      · rw [hout] at ho
        split at ho
        · next hn =>
          rcases List.mem_append.1 ho with ho | ho
          · exact .inl ho
          · exact .inr ⟨x, by simp, hn, List.mem_singleton.1 ho⟩
        · exact .inl (List.mem_filter.1 ho).1
      · exact .inr ⟨y, by simp [hy], hn, e⟩
    · refine h3 o ?_ fun y hy => hne y (by simp [hy])
      rw [hout]
      split
      · exact List.mem_append_left _ ho
      · exact List.mem_filter.2 ⟨ho, bne_iff_ne.2 (hne x (by simp))⟩

/-- A lane that receives no poison keeps its count of a flag. -/
theorem Sheaf.issueParts_laneFlag {k n : Nat} (hk : k < 32) (l : List (Outstanding × Option Poison)) : ∀ f : Sheaf,
    (∀ x ∈ l, x.2 ≠ none → x.1.lane ≠ k) → (l.foldl (Sheaf.issuePart now) f).laneFlag n k = f.laneFlag n k := by
  induction l with
  | nil => exact fun _ _ => rfl
  | cons x l ih =>
    intro f h
    refine (ih _ fun y hy => h y (by simp [hy])).trans ?_
    unfold Sheaf.issuePart
    cases hx : x.2 with
    | none => rfl
    | some p =>
      have hbit : (BitVec.twoPow 32 x.1.lane).getLsbD k = false := by
        rw [BitVec.getLsbD_twoPow]
        simp [h x (by simp) (by simp [hx])]
      have hh := Sheaf.laneFlag_dropParts (f := { f with outstanding := f.outstanding.filter fun y => y.id != x.1.id }) (n := x.1.op) (k := n) hk hbit
      unfold Sheaf.laneFlag at hh ⊢
      dsimp only [Option.elim]
      rw [Sheaf.landed_error_waits.2]
      exact hh

/-- A register as poison lands in it: of the lanes of the word at most one, `l0`, has it. -/
theorem Sheaf.issueParts_landed {key l0 : Nat} {y : Outstanding × Option Poison → Option Landing} (l : List (Outstanding × Option Poison)) :
    ∀ f : Sheaf, Parts op l → (∀ x ∈ l, ∀ f, LandedAt now key (y x) f (f.issuePart now x)) → (∀ x ∈ l, x.1.lane ≠ l0 → y x = none) →
      LandedAt now key ((l.find? fun x => x.1.lane == l0).bind y) f (l.foldl (Sheaf.issuePart now) f) := by
  induction l with
  | nil => exact fun f _ _ _ => .refl ..
  | cons x l ih =>
    intro f h hs h0
    have h1 := hs x (by simp) f
    have h2 := ih (f.issuePart now x) h.tail (fun z hz => hs z (by simp [hz])) fun z hz => h0 z (by simp [hz])
    by_cases hx : x.1.lane = l0
    · have hnone : l.find? (fun z => z.1.lane == l0) = none := List.find?_eq_none.2 fun z hz e =>
        h.head_lane hz ((beq_iff_eq.1 e).trans hx.symm)
      rw [hnone] at h2
      have ht := h1.trans h2 (.inr rfl)
      rw [List.find?_cons_of_pos (by simpa using hx)]
      rwa [Option.bind_none, Option.or_none] at ht
    · rw [h0 x (by simp) hx] at h1
      rw [List.find?_cons_of_neg (by simpa using hx)]
      exact h1.trans h2 (.inl rfl)

end

/-! ### The same in a state -/

theorem State.issueParts {id : Nat} (l : List (Outstanding × Option Poison)) : ∀ {s : State} {f : Sheaf}, s.sheaf id = some f →
    OneSheaf s (l.foldl (State.issuePart id) s) id
    ∧ (l.foldl (State.issuePart id) s).sheaf id = some (l.foldl (Sheaf.issuePart (s.now f)) f) := by
  induction l with
  | nil => exact fun h => ⟨⟨fun _ _ => rfl, rfl⟩, h⟩
  | cons x l ih =>
    intro s f h
    have h1 : OneSheaf s (s.issuePart id x) id ∧ (s.issuePart id x).sheaf id = some (f.issuePart (s.now f) x) := by
      unfold State.issuePart Sheaf.issuePart
      cases x.2 with
      | none => exact ⟨State.updSheaf_oneSheaf, State.sheaf_updSheaf h _⟩
      | some p =>
        dsimp only [Option.elim]
        exact ⟨State.land_one, State.land_sheaf h⟩
    obtain ⟨h2, h3⟩ := ih h1.2
    have hnow : (s.issuePart id x).now (f.issuePart (s.now f) x) = s.now f := by
      refine State.now_congr ?_ ?_
      · rw [h1.1.2]
        rfl
      · exact (Sheaf.issueParts_only (now := s.now f) [x] f).place
    rw [hnow] at h3
    exact ⟨oneSheaf_trans h1.1 h2, h3⟩

/-! ### A word that issues parts -/

section
variable {i : Instr} {s : State} {c : Ctx} {f : Sheaf}

/-- A word whose Y commits late commits nothing at its issue (R82). -/
theorem State.committedBy_of_late {sh : Shape} (hl : opCommitsLate sh.op = true) (he : opEndsRegion sh.op = false) : s.committedBy c sh = s := by
  have h : (sh.endsRegion && !(sh.y && opCommitsLate sh.op)) = false := by
    rw [Shape.endsRegion, hl, he]
    cases sh.y <;> rfl
  exact if_neg (Bool.eq_false_iff.1 h)

theorem Sheaf.endedRegion_of_late {seq : Nat} {sh : Shape} (hl : opCommitsLate sh.op = true) (he : opEndsRegion sh.op = false) :
    f.endedRegion seq c sh = f := by
  have h : (sh.endsRegion && !(sh.y && opCommitsLate sh.op)) = false := by
    rw [Shape.endsRegion, hl, he]
    cases sh.y <;> rfl
  exact if_neg (Bool.eq_false_iff.1 h)

/-- The cycle of a word is that of its sheaf's core. -/
theorem Runs.now_eq (r : Runs i s c) (hf : s.sheaf c.id = some f) : c.now = s.now f := by
  have h := r.issuing
  unfold State.issuing at h
  split at h
  · cases h
  · next cur _ =>
    split at h
    · cases h
    · next g hg =>
      dsimp only at h
      split at h
      · cases h
      · have hc := Option.some.inj (Option.some.inj h)
        have hid : c.id = cur.sheaf := by rw [← hc]; rfl
        have hnow : c.now = s.now g := by rw [← hc]; rfl
        rw [hid, hg] at hf
        rw [hnow, Option.some.inj hf]

theorem Sheaf.advanced_frame {sh : Shape} : f.advanced c sh = { f with
    lanes := (f.advanced c sh).lanes, flagOps := (f.advanced c sh).flagOps, issued := true, restored := false } := by
  unfold Sheaf.advanced
  dsimp only
  rw [Sheaf.updLanes_eq]
  split
  · rfl
  · unfold Sheaf.raise
    split <;> rfl

/-- A lane that is active raises its flag by one (R79). -/
theorem Sheaf.advanced_laneFlag {sh : Shape} {l : Nat} (ho : sh.op ≠ 0x5E) (hflag : c.flag < 12) (hl : c.act.getLsbD l = true) :
    (f.advanced c sh).laneFlag c.flag l = f.laneFlag c.flag l + 1 := by
  have hact : c.act ≠ 0 := fun e => by
    rw [e] at hl
    simp at hl
  unfold Sheaf.advanced Sheaf.laneFlag
  dsimp only
  rw [if_neg ho, Sheaf.raise, if_pos (Bool.and_eq_true_iff.2 ⟨decide_eq_true hflag, bne_iff_ne.2 hact⟩)]
  dsimp only
  rw [Sheaf.updLanes_eq, List.filter_append, List.length_append]
  simp [hl]

theorem Sheaf.concluded_flagOps {seq : Nat} {sh : Shape} : (f.concluded seq i c sh).flagOps = f.flagOps := by
  have h1 : (f.closedSync seq i c).flagOps = f.flagOps := by
    unfold Sheaf.closedSync
    split
    · rw [Sheaf.updLanes_eq]
    · rfl
  have h2 (g : Sheaf) : (g.endedRegion seq c sh).flagOps = g.flagOps := by
    unfold Sheaf.endedRegion
    split
    · rw [Sheaf.startRegion_frame]
    · rfl
  have h3 (g : Sheaf) : (g.parkedBy c sh).flagOps = g.flagOps := by
    unfold Sheaf.parkedBy
    split <;> rfl
  exact (h3 _).trans ((h2 _).trans h1)

theorem LandedAt.congr {now key : Nat} {x : Option Landing} {f f' g g' : Sheaf} (h : LandedAt now key x f g) (a : SameRegs f' f)
    (b : SameRegs g g') : LandedAt now key x f' g' := by
  have hv {x y : Sheaf} (e : SameRegs x y) : y.valueAt key = x.valueAt key := by unfold Sheaf.valueAt; rw [e.v, e.u]
  have hp {x y : Sheaf} (e : SameRegs x y) : y.poisonAt key = x.poisonAt key := by unfold Sheaf.poisonAt; rw [e.vPoison, e.uPoison]
  have hl {x y : Sheaf} (e : SameRegs x y) (k : Nat) : lateAt y now k = lateAt x now k := by unfold lateAt; rw [e.pending]
  refine ⟨fun k => by rw [hl b, h.late, hl a], ?_, ?_, ?_⟩
  · rw [hv b, h.value, hl a, hv a]
  · rw [hp b, h.poison, hl a, hp a]
  · rw [b.pending, h.pending, hl a, a.pending]

variable {op : Nat} {l : List (Outstanding × Option Poison)} {g : Sheaf} {u : State}

/-- A word that commits nothing and whose effect issues parts: what is known of the state and the sheaf in the end. -/
theorem Runs.issues_parts (r : Runs i s c) {eff : Ctx → State → Eff} (hx : exec i s = issueWord i s eff) (hf : s.sheaf c.id = some f)
    (hl : opCommitsLate (c.shapeOf i).op = true) (he : opEndsRegion (c.shapeOf i).op = false)
    (hF : eff c (s.advance c (c.shapeOf i)) = .done (l.foldl (State.issuePart c.id) u)) (hu : OneSheaf (s.advance c (c.shapeOf i)) u c.id)
    (hg : u.sheaf c.id = some g) (hgf : g = { f.advanced c (c.shapeOf i) with streams := g.streams }) :
    ∃ t seq, exec i s = .next t ∧ (s.committedBy c (c.shapeOf i)).sheaf c.id = some f ∧ OnlySheaf (s.committedBy c (c.shapeOf i)) t c.id c.unit.job
      ∧ t.sheaf c.id = some ((l.foldl (Sheaf.issuePart c.now) g).concluded seq i c (c.shapeOf i)) := by
  have hcm : s.committedBy c (c.shapeOf i) = s := State.committedBy_of_late hl he
  have hf' : (s.committedBy c (c.shapeOf i)).sheaf c.id = some f := by rw [hcm]; exact hf
  obtain ⟨ha, hs⟩ := State.advance_spec hf'
  obtain ⟨hone, hsheaf⟩ := State.issueParts (id := c.id) l hg
  have hclocks : u.clocks = s.clocks := by
    rw [hu.2]
    exact State.advance_clocks
  have hplace : g.place = f.place := by rw [hgf, Sheaf.advanced_frame]
  rw [State.now_congr hclocks hplace, ← r.now_eq hf] at hsheaf
  have hin : InSheaf (s.advance c (c.shapeOf i)) (l.foldl (State.issuePart c.id) u) c.id := by
    obtain ⟨h1, h2⟩ := oneSheaf_trans hu hone
    exact ⟨h1, by rw [h2]⟩
  exact ⟨_, _, hx.trans (r.done hF), hf', (ha.trans hin).trans (State.conclude_in ..), State.conclude_sheaf hsheaf⟩

/-- What its sheaf has kept. -/
theorem issued_onlyLoads {seq : Nat} (hgf : g = { f.advanced c (c.shapeOf i) with streams := g.streams }) :
    OnlyLoads f ((l.foldl (Sheaf.issuePart c.now) g).concluded seq i c (c.shapeOf i)) := by
  have h1 := Sheaf.issueParts_only (now := c.now) l g
  have h2 := (l.foldl (Sheaf.issuePart c.now) g).concluded_quiet seq i c (c.shapeOf i)
  unfold PartsOnly at h1
  unfold Sheaf.Quiet at h2
  rw [Sheaf.advanced_frame] at hgf
  unfold OnlyLoads
  rw [h2, h1, hgf]

theorem issued_lanesGo (r : Runs i s c) {seq : Nat} (hgf : g = { f.advanced c (c.shapeOf i) with streams := g.streams })
    (hp : ∀ x ∈ l, c.act.getLsbD x.1.lane = true) :
    LanesGo f ((l.foldl (Sheaf.issuePart c.now) g).concluded seq i c (c.shapeOf i)) c c.after := by
  have hsub := (State.issuing_spec r.issuing).2
  have hlane (k : Nat) : g.lane k = (f.advanced c (c.shapeOf i)).lane k := by rw [hgf]; rfl
  refine lanesGo_concluded hsub (fun k => hlane k ▸ (Sheaf.issueParts_lane k l g).1) fun k hk => ?_
  refine ((Sheaf.issueParts_lane k l g).2 fun x hx e => ?_).trans (hlane k)
  have := hsub _ (hp x hx)
  rw [e, hk] at this
  cases this

/-- A register of the sheaf, from the word's beginning to its end. -/
theorem issued_landed {seq key l0 : Nat} {y : Outstanding × Option Poison → Option Landing} (hp : Parts op l)
    (hgf : g = { f.advanced c (c.shapeOf i) with streams := g.streams })
    (hs : ∀ x ∈ l, ∀ f, LandedAt c.now key (y x) f (f.issuePart c.now x)) (h0 : ∀ x ∈ l, x.1.lane ≠ l0 → y x = none) :
    LandedAt c.now key ((l.find? fun x => x.1.lane == l0).bind y) f ((l.foldl (Sheaf.issuePart c.now) g).concluded seq i c (c.shapeOf i)) := by
  refine (Sheaf.issueParts_landed l g hp hs h0).congr ?_ (Sheaf.concluded_quiet ..).same
  rw [hgf]
  have h := (f.advanced_quiet c (c.shapeOf i)).same
  exact ⟨h.v, h.vPoison, h.u, h.uPoison, h.p, h.pending⟩

end

/-! ### Words with one part in each active lane -/

section
variable {i : Instr} {s : State} {c : Ctx} {f g : Sheaf} {part : Nat → Outstanding} {bad : Nat → Option Poison}

/-- The parts of a word's active lanes. -/
def Ctx.parts (c : Ctx) (part : Nat → Outstanding) (bad : Nat → Option Poison) : List (Outstanding × Option Poison) :=
  c.actLanes.map fun l => (part l, bad l)

/-- A part bears the names of its word and its lane. -/
def Ctx.Named (c : Ctx) (part : Nat → Outstanding) : Prop := ∀ l, (part l).id = 32 * c.op + l ∧ (part l).op = c.op ∧ (part l).lane = l

theorem Ctx.Named.parts (h : c.Named part) : Parts c.op (c.parts part bad) := by
  refine ⟨?_, fun x hx => ?_⟩
  · unfold Ctx.parts
    rw [List.map_map]
    exact (List.map_congr_left fun l _ => (h l).2.2).symm ▸ (List.map_id _).symm ▸ nodup_maskLanes c.act
  · obtain ⟨l, hl, rfl⟩ := List.mem_map.1 hx
    obtain ⟨hid, hop, hlane⟩ := h l
    exact ⟨by rw [hid, hlane], hop, hlane.symm ▸ (mem_maskLanes.1 hl).1⟩

theorem Ctx.Named.find_parts (h : c.Named part) {l : Nat} (hl : l < 32) :
    (c.parts part bad).find? (fun x => x.1.lane == l) = if c.act.getLsbD l = true then some (part l, bad l) else none := by
  have hlane (k : Nat) : (part k).lane = k := (h k).2.2
  unfold Ctx.parts
  rw [List.find?_map]
  have hf : c.actLanes.find? ((fun x : Outstanding × Option Poison => x.1.lane == l) ∘ fun l => (part l, bad l))
      = if c.act.getLsbD l = true then some l else none := by
    split
    · next hact =>
      have hm : l ∈ c.actLanes := mem_maskLanes.2 ⟨hl, hact⟩
      cases hx : c.actLanes.find? ((fun x : Outstanding × Option Poison => x.1.lane == l) ∘ fun l => (part l, bad l)) with
      | none => exact absurd (beq_iff_eq.2 (hlane l)) (List.find?_eq_none.1 hx l hm)
      | some k =>
        have := List.find?_some hx
        rw [Function.comp, hlane, beq_iff_eq] at this
        rw [this]
    · next hact =>
      rw [List.find?_eq_none]
      intro k hk e
      rw [Function.comp, hlane, beq_iff_eq] at e
      exact hact (e ▸ (mem_maskLanes.1 hk).2)
  rw [hf]
  split <;> rfl

theorem Ctx.act_lanes (h : c.Named part) : ∀ x ∈ c.parts part bad, c.act.getLsbD x.1.lane = true := by
  intro x hx
  obtain ⟨l, hl, rfl⟩ := List.mem_map.1 hx
  rw [(h l).2.2]
  exact (mem_maskLanes.1 hl).2

/-- A thread register after the word. -/
theorem issued_spoilt_v {seq r l : Nat} (h : c.Named part) (hgf : g = { f.advanced c (c.shapeOf i) with streams := g.streams })
    (hr : r < 104) (hl : l < 32) : let z := ((c.parts part bad).foldl (Sheaf.issuePart c.now) g).concluded seq i c (c.shapeOf i)
    SpoiltAt f z c.now (vKey r l) (f.vPoison.get (vKey r l)) (z.vPoison.get (vKey r l))
      (if c.act.getLsbD l = true ∧ (part l).dst.toNat ≤ r ∧ r < (part l).dst.toNat + (part l).regs then bad l else none) := by
  have hlanes : ∀ x ∈ c.parts part bad, x.1.lane < 32 := fun x hx => (h.parts.named x hx).2.2
  have hs := issued_landed (i := i) (seq := seq) (key := vKey r l) (l0 := l) h.parts hgf
    (fun x hx f => Sheaf.issuePart_landed (hlanes x hx) (names_vKey hr (hlanes x hx) hl)) fun x hx hne => if_neg fun e => hne e.1.symm
  refine LandedAt.spoilt ?_ (Sheaf.poisonAt_v _ hr hl) (Sheaf.poisonAt_v _ hr hl)
  rw [h.find_parts hl] at hs
  convert hs using 1
  by_cases hact : c.act.getLsbD l = true
  · rw [if_pos hact, Option.bind_some]
    have e : (l = (part l).lane ∧ r < 120 ∧ (part l).dst.toNat ≤ r ∧ r < (part l).dst.toNat + (part l).regs)
        ↔ (c.act.getLsbD l = true ∧ (part l).dst.toNat ≤ r ∧ r < (part l).dst.toNat + (part l).regs) :=
      ⟨fun ⟨_, _, h1⟩ => ⟨hact, h1⟩, fun ⟨_, h1⟩ => ⟨(h l).2.2.symm, by omega, h1⟩⟩
    rw [if_congr e rfl rfl]
    split <;> rfl
  · rw [if_neg hact, if_neg fun e => hact e.1]
    rfl

/-- A uniform register after the word, of which one active lane's part alone sees it. -/
theorem issued_spoilt_u {seq k l0 : Nat} (h : c.Named part) (hgf : g = { f.advanced c (c.shapeOf i) with streams := g.streams }) (hk : k < 16)
    (hl : l0 < 32) (hact : c.act.getLsbD l0 = true) (h0 : ∀ l, l ≠ l0 → 120 ≤ (part l).dst.toNat) :
    let z := ((c.parts part bad).foldl (Sheaf.issuePart c.now) g).concluded seq i c (c.shapeOf i)
    SpoiltAt f z c.now (uKey k) (f.uPoison.get k) (z.uPoison.get k)
      (if (part l0).dst.toNat ≤ 104 + k ∧ 104 + k < (part l0).dst.toNat + (part l0).regs then bad l0 else none) := by
  have hlanes : ∀ x ∈ c.parts part bad, x.1.lane < 32 := fun x hx => (h.parts.named x hx).2.2
  have hs := issued_landed (i := i) (seq := seq) (key := uKey k) (l0 := l0) h.parts hgf
    (fun x hx f => Sheaf.issuePart_landed (hlanes x hx) (names_uKey (hlanes x hx))) fun x hx hne => if_neg fun ⟨_, h1, h2, _⟩ => by
      obtain ⟨l, -, rfl⟩ := List.mem_map.1 hx
      have := h0 l ((h l).2.2 ▸ hne)
      dsimp only at h2
      omega
  refine LandedAt.spoilt ?_ (Sheaf.poisonAt_u _ hk) (Sheaf.poisonAt_u _ hk)
  rw [h.find_parts hl, if_pos hact, Option.bind_some] at hs
  convert hs using 1
  have e : (True ∧ 104 + k < 120 ∧ (part l0).dst.toNat ≤ 104 + k ∧ 104 + k < (part l0).dst.toNat + (part l0).regs)
      ↔ ((part l0).dst.toNat ≤ 104 + k ∧ 104 + k < (part l0).dst.toNat + (part l0).regs) :=
    ⟨fun ⟨_, _, h1⟩ => h1, fun h1 => ⟨trivial, by omega, h1⟩⟩
  rw [if_congr e rfl rfl]
  split <;> rfl

end

/-! ### The load words -/

section
variable {c : Ctx} {m : BitVec 3} {d a : BitVec 7}

theorem form_of_memSize {form : Nat} {wide : Bool} (h : (memSize form wide).isSome = true) : form < 5 ∧ (wide = true → form = 0) := by
  rcases form with _ | _ | _ | _ | _ | form
  all_goals cases wide
  all_goals simp [memSize] at h ⊢

/-- The size and the extension of a memory word's access (R180). -/
theorem memSize_eq (h : (memSize c.form m.msb).isSome = true) : (memSize c.form m.msb).getD (4, false) = (accessSize c m, accessSigned c m) := by
  obtain ⟨h5, h0⟩ := form_of_memSize h
  have hnarrow : decide (m.toNat / 4 = 0) = !m.msb := by
    rw [Bool.eq_iff_iff, decide_eq_true_iff, toNat_div_four_eq_zero, Bool.not_eq_true']
  unfold accessSize accessSigned
  rw [hnarrow, if_congr toNat_div_four_eq_one rfl rfl]
  cases hm : m.msb with
  | true =>
    simp only [h0 hm]
    rfl
  | false =>
    obtain h | h | h | h | h : c.form = 0 ∨ c.form = 1 ∨ c.form = 2 ∨ c.form = 3 ∨ c.form = 4 := by omega
    all_goals
      simp only [h]
      rfl

variable {i : Instr} {s : State} {size n acquire : Nat} {signed : Bool}

/-- A load's part as the statement gives it. -/
theorem Ctx.part_eq (h : c.act ≠ 0) (l : Nat) : c.part m d a size n signed acquire l =
    { id := 32 * c.op + l, lane := l, kind := .load, space := spaceBy m, ea := address c m a l, size := size, signed := signed
      dst := dstSeen c d l, regs := n, op := c.op, acquire := acquire, cp := c.x.cp.toNat, pc := c.pc, region := (c.f.lane l).syncRegion } := by
  unfold Ctx.part Ctx.region
  rw [spaceOf_eq, Ctx.ea_eq, Ctx.dstFor_eq h]

theorem Ctx.part_named : c.Named (c.part m d a size n signed acquire) := fun _ => ⟨rfl, rfl, rfl⟩

/-- The poison of a lane that a check of R179 stops. -/
def Ctx.checked (c : Ctx) (m : BitVec 3) (a : BitVec 7) (size l : Nat) : Option Poison :=
  (addressFault c.unit m (address c m a l) size).map fun k => ⟨.unserviceable, k, address c m a l, []⟩

/-- A load's effect issues the parts of its lanes. -/
theorem State.loadIssue_eq : s.loadIssue c (c.part m d a size n signed acquire)
    = (c.parts (c.part m d a size n signed acquire) (c.checked m a size)).foldl (State.issuePart c.id) s := by
  unfold State.loadIssue Ctx.parts
  rw [List.foldl_map]
  refine congrArg (fun g => List.foldl g s c.actLanes) (funext fun t => funext fun l => ?_)
  dsimp only [Ctx.part]
  rw [spaceOf_eq, checkEa_eq, Ctx.ea_eq]
  unfold State.issuePart Ctx.checked
  cases addressFault c.unit m (address c m a l) size <;> rfl

/-- The field as a lane sees it, at a thread register. -/
theorem dstSeen_iff {l r : Nat} (hr : r < 104) :
    ((dstSeen c d l).toNat ≤ r ∧ r < (dstSeen c d l).toNat + n) ↔ (d.toNat ≤ r ∧ r < d.toNat + n) := by
  unfold dstSeen
  split
  · exact .rfl
  · next h =>
    have h1 : ¬ d.toNat < 104 := fun e => h (.inl e)
    have h2 : (120 : BitVec 7).toNat = 120 := rfl
    omega

theorem dstSeen_low : dstSeen c d (lowLaneOf c.act) = d := if_pos (.inr rfl)

theorem dstSeen_other {l : Nat} (hd : 104 ≤ d.toNat) (hl : l ≠ lowLaneOf c.act) : (dstSeen c d l).toNat = 120 := by
  unfold dstSeen
  rw [if_neg (by omega)]
  rfl

theorem lowLaneOf_active (h : c.act ≠ 0) : lowLaneOf c.act < 32 ∧ c.act.getLsbD (lowLaneOf c.act) = true :=
  mem_maskLanes.1 (List.mem_of_mem_head? (lowest_eq_some h))

/-- A load word whose sizes are those of the statement. -/
theorem loads_of_part {size n : Ctx → Nat} {signed : Ctx → Bool} {acquire : Ctx → Nat} {part : Ctx → Nat → Outstanding}
    (hx : ∀ s, exec i s = loadWord i s part) (hpart : ∀ s c, Runs i s c → part c = c.part m d a (size c) (n c) (signed c) (acquire c))
    (hl : ∀ c : Ctx, opCommitsLate (c.shapeOf i).op = true) (he : ∀ c : Ctx, opEndsRegion (c.shapeOf i).op = false)
    (h5 : ∀ c : Ctx, (c.shapeOf i).op ≠ 0x5E) : Loads i m d a size n signed acquire := by
  intro s c r hst
  obtain ⟨f, hf⟩ := Option.isSome_iff_exists.1 (State.issuing_spec r.issuing).1
  have hcm : s.committedBy c (c.shapeOf i) = s := State.committedBy_of_late (hl c) (he c)
  have hs := (State.advance_spec (hcm.symm ▸ hf : (s.committedBy c (c.shapeOf i)).sheaf c.id = some f)).2
  have hnamed : c.Named (c.part m d a (size c) (n c) (signed c) (acquire c)) := Ctx.part_named
  have hparts := hnamed.parts (bad := c.checked m a (size c))
  have hgf : f.advanced c (c.shapeOf i) = { f.advanced c (c.shapeOf i) with streams := (f.advanced c (c.shapeOf i)).streams } := rfl
  obtain ⟨t, seq, ht, hfc, honly, hz⟩ := r.issues_parts (l := c.parts (c.part m d a (size c) (n c) (signed c) (acquire c)) (c.checked m a (size c)))
    (hx s) hf (hl c) (he c) ((if_neg (Bool.eq_false_iff.1 hst)).trans (by rw [hpart s c r, State.loadIssue_eq])) ⟨fun _ _ => rfl, rfl⟩ hs hgf
  have hmem := Sheaf.mem_issueParts (now := c.now) _ (f.advanced c (c.shapeOf i)) hparts
  have hq := Sheaf.concluded_quiet ((c.parts (c.part m d a (size c) (n c) (signed c) (acquire c)) (c.checked m a (size c))).foldl
    (Sheaf.issuePart c.now) (f.advanced c (c.shapeOf i))) seq i c (c.shapeOf i)
  have hout := congrArg Sheaf.outstanding hq
  have hfo : (f.advanced c (c.shapeOf i)).outstanding = f.outstanding := by rw [Sheaf.advanced_frame]
  obtain ⟨hm1, hm2, hm3⟩ := hmem
  refine ⟨t, f, _, ht, hfc, hz, ?_⟩
  extract_lets fault part' mark
  have hpe (l : Nat) : c.part m d a (size c) (n c) (signed c) (acquire c) l = part' l := Ctx.part_eq r.active l
  have hbad {l : Nat} (h : fault l = none) : c.checked m a (size c) l = none := congrArg (Option.map _) h
  refine ⟨honly, issued_onlyLoads hgf, issued_lanesGo r hgf (Ctx.act_lanes hnamed), fun l hlt hact hfault => ⟨?_, fun hflag => ?_⟩,
    fun o ho => ?_, fun o ho hid => ?_, fun x l hr hlt => ?_, fun hd k hk => ?_⟩
  · rw [hout, ← hpe]
    exact hm1 _ (List.mem_map.2 ⟨l, mem_maskLanes.2 ⟨hlt, hact⟩, rfl⟩) (hbad hfault)
  · have hkeep := Sheaf.issueParts_laneFlag (now := c.now) (n := c.flag) hlt
      (c.parts (c.part m d a (size c) (n c) (signed c) (acquire c)) (c.checked m a (size c))) (f.advanced c (c.shapeOf i)) fun x hxm hne e => by
        obtain ⟨k, -, rfl⟩ := List.mem_map.1 hxm
        obtain rfl : k = l := e
        exact hne (hbad hfault)
    refine Eq.trans ?_ (hkeep.trans (Sheaf.advanced_laneFlag (h5 c) hflag hact))
    unfold Sheaf.laneFlag
    rw [Sheaf.concluded_flagOps]
  · rw [hout] at ho
    rcases hm2 o ho with h | ⟨x, hxm, hn, rfl⟩
    · exact .inl (hfo ▸ h)
    · obtain ⟨k, hk, rfl⟩ := List.mem_map.1 hxm
      obtain ⟨hk32, hact⟩ := mem_maskLanes.1 hk
      exact .inr ⟨k, hk32, hact, Option.map_eq_none_iff.1 hn, hpe k⟩
  · rw [hout]
    refine hm3 o (hfo.symm ▸ ho) fun x hxm e => hid ?_
    obtain ⟨hid', -, hlane⟩ := hparts.named x hxm
    omega
  · have h := issued_spoilt_v (i := i) (bad := c.checked m a (size c)) (seq := seq) hnamed hgf hr hlt
    convert h using 1
    refine if_congr (and_congr_right fun _ => ?_) rfl rfl
    rw [hpe]
    exact (dstSeen_iff hr).symm
  · obtain ⟨hlow, hact⟩ := lowLaneOf_active r.active
    have h := issued_spoilt_u (i := i) (bad := c.checked m a (size c)) (seq := seq) hnamed hgf hk hlow hact fun l hne => by
      rw [hpe]
      exact (dstSeen_other hd hne).ge
    convert h using 1
    refine if_congr ?_ rfl rfl
    rw [hpe]
    dsimp only [part']
    rw [dstSeen_low]

end

/-- Settles O17: word by word, a load word whose sizes are those that its fields give. -/
theorem loadsIssue : Obligations.LoadsIssue := by
  unfold Obligations.LoadsIssue
  intro y g d a f m
  refine ⟨loads_of_part (fun s => execLd.eq_1 y g d a f m s) (fun s c r => ?_) (fun _ => rfl) (fun _ => rfl) fun _ => (by decide : (0x60 : Nat) ≠ 0x5E),
    loads_of_part (fun s => execLdv.eq_1 y g d a f m s) (fun _ _ _ => rfl) (fun _ => rfl) (fun _ => rfl) fun _ => (by decide : (0x62 : Nat) ≠ 0x5E),
    loads_of_part (fun s => execLds.eq_1 y g d a f m s) (fun s c r => ?_) (fun _ => rfl) (fun _ => rfl) fun _ => (by decide : (0x66 : Nat) ≠ 0x5E)⟩
  · funext l
    rw [memSize_eq r.fields]
    rfl
  · funext l
    rw [memSize_eq r.fields, spaceOf_eq, scopeCode_eq]
    rfl

end Sys2Proof.Machine
end

section
/-!
PROOFS. Store words (O18): room in the store queue, and the entry that a word's lanes take in it.
-/
namespace Sys2Proof.Machine
open Sys2Proof.Claims

section
variable {i : Instr} {s t : State} {c : Ctx} {f : Sheaf} {m : BitVec 3} {d a : BitVec 7}

/-! ### Room in the queue (R186) -/

theorem State.makeRoom_of_room (hf : s.sheaf c.id = some f) (h : f.storeQueue.length < 64) (n : Nat) : s.makeRoom c n = s := by
  cases n with
  | zero => rfl
  | succ n =>
    unfold State.makeRoom
    rw [hf]
    exact if_pos h

/-- No lane of another position holds an entry, so that none can make room. -/
theorem State.makeRoom_of_own (hf : s.sheaf c.id = some f)
    (h : ∀ e ∈ f.storeQueue, ∀ x ∈ e.parts, x.lane < 32 → c.lanes.getLsbD x.lane = true) (n : Nat) : s.makeRoom c n = s := by
  have hnone : (laneMask fun l => f.storeQueue.any fun e => e.parts.any fun p => p.lane == l) &&& ~~~c.lanes = 0 := by
    refine BitVec.eq_of_getLsbD_eq fun l hl => ?_
    rw [BitVec.getLsbD_and, getLsbD_laneMask, BitVec.getLsbD_not, decide_eq_true hl, Bool.true_and, Bool.true_and]
    cases hq : f.storeQueue.any fun e => e.parts.any fun p => p.lane == l with
    | false => simp
    | true =>
      obtain ⟨e, he, hp⟩ := List.any_eq_true.1 hq
      obtain ⟨x, hx, hxl⟩ := List.any_eq_true.1 hp
      obtain rfl := beq_iff_eq.1 hxl
      rw [h e he x hx hl]
      simp
  cases n with
  | zero => rfl
  | succ n =>
    unfold State.makeRoom
    rw [hf]
    dsimp only
    rw [hnone]
    split <;> rfl

/-! ### The entry -/

theorem Sheaf.advanced_storeQueue {sh : Shape} : (f.advanced c sh).storeQueue = f.storeQueue := by rw [Sheaf.advanced_frame]

/-- A word that commits nothing and whose effect puts an entry into the store queue. -/
theorem Runs.enqueues (r : Runs i s c) {eff : Ctx → State → Eff} (hx : exec i s = issueWord i s eff) (hf : s.sheaf c.id = some f)
    (hl : opCommitsLate (c.shapeOf i).op = true) (he : opEndsRegion (c.shapeOf i).op = false) {e : StoreEntry}
    (hF : eff c (s.advance c (c.shapeOf i)) = .done ((s.advance c (c.shapeOf i)).enqueue c e)) :
    Does i s c fun p g t z => g = f ∧ OnlySheaf p t c.id c.unit.job ∧ LanesGo g z c c.after
      ∧ OnlyLanes { g with storeQueue := g.storeQueue ++ [e] } z := by
  have hcm : s.committedBy c (c.shapeOf i) = s := State.committedBy_of_late hl he
  have hf' : (s.committedBy c (c.shapeOf i)).sheaf c.id = some f := by rw [hcm]; exact hf
  obtain ⟨ha, hs⟩ := State.advance_spec hf'
  refine ⟨_, f, _, hx.trans (r.done hF), hf', State.conclude_sheaf (State.sheaf_updSheaf hs _), rfl,
    (ha.trans (State.updSheaf_in ..)).trans (State.conclude_in ..),
    lanesGo_concluded (State.issuing_spec r.issuing).2 (fun _ => .refl _) fun _ _ => rfl, ?_⟩
  refine Sheaf.Quiet.trans (g := { f.advanced c (c.shapeOf i) with storeQueue := (f.advanced c (c.shapeOf i)).storeQueue ++ [e] }) ?_
    (Sheaf.concluded_quiet ..)
  rw [Sheaf.advanced_frame]
  rfl

/-- The entry of a store word with its bytes (R182). -/
def Ctx.entry (c : Ctx) (s : State) (m : BitVec 3) (a : BitVec 7) (bytes : Nat → List Byte) : StoreEntry :=
  { id := c.op, space := spaceBy m, pc := c.pc, cp := c.x.cp.toNat, colour := if c.x.cv then c.x.colour.toNat else c.f.clr.toNat % 8
    parts := c.actLanes.map fun l =>
      { lane := l, ea := address c m a l, bytes := bytes l, region := (c.f.lane l).syncRegion
        fault := (c.declined s l).or
          ((addressFault c.unit m (address c m a l) (bytes l).length).map fun k => ⟨.unserviceable, k, address c m a l, []⟩) } }

/-- A store word whose bytes are those of the statement. -/
theorem stores_of_bytes {bytes bytes' : Ctx → Nat → List Byte} (hx : ∀ s, exec i s = storeWord i s m a bytes)
    (hb : ∀ s c, Runs i s c → bytes c = bytes' c) (hl : ∀ c : Ctx, opCommitsLate (c.shapeOf i).op = true)
    (he : ∀ c : Ctx, opEndsRegion (c.shapeOf i).op = false) : Stores i m a bytes' := by
  intro s c r hst f hf
  have hcm : s.committedBy c (c.shapeOf i) = s := State.committedBy_of_late (hl c) (he c)
  have hs := (State.advance_spec (hcm.symm ▸ hf : (s.committedBy c (c.shapeOf i)).sheaf c.id = some f)).2
  have hq : (f.advanced c (c.shapeOf i)).storeQueue = f.storeQueue := Sheaf.advanced_storeQueue
  refine ⟨fun hroom => ?_, fun hfull hown => ?_⟩
  · obtain ⟨t, g, z, ht, hg, hz, rfl, honly, hgo, hlanes⟩ := r.enqueues (e := c.entry s m a (bytes' c)) (hx s) hf (hl c) (he c) (by
      dsimp only
      rw [State.makeRoom_of_room hs (hq.symm ▸ hroom), hs]
      dsimp only
      rw [hq, if_neg (Nat.not_le.2 hroom), hst, hb s c r, spaceOf_eq]
      simp only [Ctx.ea_eq, checkEa_eq]
      rw [if_pos (by rfl)]
      refine congrArg (fun ps => Eff.done ((s.advance c (c.shapeOf i)).enqueue c { c.entry s m a (bytes' c) with parts := ps }))
        (List.map_congr_left fun l _ => ?_)
      cases c.declined s l <;> rfl)
    exact ⟨t, g, z, ht, hg, hz, honly, hgo, hlanes⟩
  · rw [hx s, storeWord, r.issue]
    dsimp only
    rw [State.makeRoom_of_own hs (hq.symm ▸ hown), hs]
    dsimp only
    rw [hq, if_pos hfull, State.makeRoom_of_own hf hown]

/-! ### The bytes -/

theorem stqFmt_eq {form : Nat} {inf : Bool} : stqFmt form inf = match form with
    | 0 => bf16
    | 1 => f16
    | 2 => e4m3
    | 3 => e5m2
    | k => b8p (k - 3) inf := by
  unfold stqFmt
  rcases form with _ | _ | _ | _ | k <;> rfl

theorem stBytes_eq {l : Nat} (h : (memSize c.form m.msb).isSome = true) :
    (if ((memSize c.form m.msb).getD (4, false)).1 = 8 then toBytes 8 (c.r64 d l).toNat
      else wordLow ((memSize c.form m.msb).getD (4, false)).1 (c.r32 d l))
    = littleEndian (accessSize c m) (if accessSize c m = 8 then (c.r64 d l).toNat else (c.r32 d l).toNat) := by
  rw [memSize_eq h]
  dsimp only [wordLow]
  split
  · next h8 => rw [h8, toBytes_eq]
  · rw [toBytes_eq]

theorem stvBytes_eq {l : Nat} : ((List.range 4).flatMap fun k => wordBytesOf (c.reg (d.toNat + k) l))
    = (List.range 16).map fun j => BitVec.ofNat 8 ((c.reg (d.toNat + j / 4) l).toNat / 256 ^ (j % 4)) := by
  unfold wordBytesOf
  simp only [toBytes_eq]
  rfl

end

/-- Settles O18: word by word, a store word whose bytes are those that its FORM gives. -/
theorem storesQueue : Obligations.StoresQueue := by
  unfold Obligations.StoresQueue
  intro y g d a f m
  refine ⟨stores_of_bytes (fun s => execSt.eq_1 y g d a m s) (fun s c r => ?_) (fun _ => rfl) fun _ => rfl,
    stores_of_bytes (fun s => execStv.eq_1 y g d a m s) (fun s c r => ?_) (fun _ => rfl) fun _ => rfl,
    stores_of_bytes (fun s => execStq.eq_1 y g d a f m s) (fun s c r => ?_) (fun _ => rfl) fun _ => rfl⟩
  · funext l
    exact stBytes_eq r.fields
  · funext l
    exact stvBytes_eq
  · funext l
    rw [decide_div_four, toBytes_eq, stqFmt_eq] <;> rfl

end Sys2Proof.Machine
end

section
/-!
PROOFS. Stream registers (O29): the elements that a word's lanes pop, the entry that its pushes take, and what the engine of a strided stream
fetches.
-/
namespace Sys2Proof.Machine
open Sys2Proof.Claims

/-! ### The elements that lanes take -/

/-- One lane's turn in a pop. -/
def StreamReg.popTurn (q : StreamReg) (acc : StreamReg × List (Nat × Option StreamElem)) (l : Nat) : StreamReg × List (Nat × Option StreamElem) :=
  match (if q.bound && !q.write then acc.1.pop l else none) with
  | some (e, q') => (q', acc.2 ++ [(l, some e)])
  | none => (acc.1, acc.2 ++ [(l, none)])

section
variable {q : StreamReg} {lanes : List Nat}

theorem StreamReg.popTurns_of_buffered (hb : q.bound = true) (hw : q.write = false) : ∀ (lanes : List Nat) (p : StreamReg)
    (acc : List (Nat × Option StreamElem)), p.rewound = [] → lanes.length ≤ p.buffer.length → lanes.foldl q.popTurn (p, acc) =
      ({ p with buffer := p.buffer.drop lanes.length, given := p.given + lanes.length, tentative := p.tentative ++ lanes.zip p.buffer },
        acc ++ (lanes.zip p.buffer).map fun e => (e.1, some e.2)) := by
  intro lanes
  induction lanes with
  | nil => intro p acc _ _; simp
  | cons l lanes ih =>
    intro p acc hr hk
    obtain ⟨e, rest, hp⟩ := List.exists_cons_of_length_pos (Nat.lt_of_lt_of_le (Nat.succ_pos _) hk)
    have hturn : q.popTurn (p, acc) l
        = ({ p with buffer := rest, given := p.given + 1, tentative := p.tentative ++ [(l, e)] }, acc ++ [(l, some e)]) := by
      simp [popTurn, StreamReg.pop, hb, hw, hr, hp]
    rw [hp] at hk
    rw [List.foldl_cons, hturn, ih { p with buffer := rest, given := p.given + 1, tentative := p.tentative ++ [(l, e)] } _ hr
      (Nat.le_of_succ_le_succ hk), hp]
    simp [Nat.add_comm, Nat.add_left_comm]

theorem StreamReg.popTurns_of_unbound (h : (q.bound && !q.write) = false) : ∀ (lanes : List Nat) (acc : List (Nat × Option StreamElem)),
    lanes.foldl q.popTurn (q, acc) = (q, acc ++ lanes.map fun l => (l, none)) := by
  intro lanes
  induction lanes with
  | nil => intro acc; simp
  | cons l lanes ih =>
    intro acc
    have hturn : q.popTurn (q, acc) l = (q, acc ++ [(l, none)]) := by simp [popTurn, h]
    rw [List.foldl_cons, hturn, ih]
    simp

/-- The lanes take their turns in ascending order. -/
theorem StreamReg.pops_eq : q.pops lanes = lanes.foldl q.popTurn (q, []) := rfl

theorem StreamReg.pops_of_buffered (hb : q.bound = true) (hw : q.write = false) (hr : q.rewound = []) (hk : lanes.length ≤ q.buffer.length) :
    q.pops lanes = ({ q with buffer := q.buffer.drop lanes.length, given := q.given + lanes.length
                             tentative := q.tentative ++ lanes.zip q.buffer }, (lanes.zip q.buffer).map fun p => (p.1, some p.2)) :=
  pops_eq.trans <| (popTurns_of_buffered hb hw lanes q [] hr hk).trans (by rw [List.nil_append])

theorem StreamReg.pops_of_unbound (h : (q.bound && !q.write) = false) : q.pops lanes = (q, lanes.map fun l => (l, none)) :=
  pops_eq.trans <| (popTurns_of_unbound h lanes []).trans (by rw [List.nil_append])

end

/-- What a lane's pop comes to: a part that waits for its element, or the poison of a lane that has none. -/
def StreamReg.popPart (q : StreamReg) (part : Nat → Nat → Outstanding) (p : Nat × Option StreamElem) : Outstanding × Option Poison :=
  p.2.elim (part p.1 0, some (streamFault q)) fun e => (part p.1 e.k, none)

/-- Parts that all wait. -/
theorem Sheaf.issueParts_waiting {now : Nat} (l : List (Outstanding × Option Poison)) : ∀ f : Sheaf, (∀ x ∈ l, x.2 = none) →
    l.foldl (Sheaf.issuePart now) f = { f with outstanding := f.outstanding ++ l.map Prod.fst } := by
  induction l with
  | nil => intro f _; simp
  | cons x l ih =>
    intro f h
    have hx : f.issuePart now x = { f with outstanding := f.outstanding ++ [x.1] } := by rw [Sheaf.issuePart, h x (by simp)]; rfl
    rw [List.foldl_cons, hx, ih _ fun y hy => h y (by simp [hy])]
    simp

/-! ### The pop word -/

section
variable {i : Instr} {s : State} {c : Ctx} {f : Sheaf}

theorem Sheaf.advanced_streams {sh : Shape} : (f.advanced c sh).streams = f.streams := by rw [Sheaf.advanced_frame]

theorem Sheaf.closedSync_streams {seq : Nat} : (f.closedSync seq i c).streams = f.streams := by
  unfold Sheaf.closedSync
  split
  · rw [Sheaf.updLanes_eq]
  · rfl

theorem Sheaf.parkedBy_streams {sh : Shape} : (f.parkedBy c sh).streams = f.streams := by
  unfold Sheaf.parkedBy
  split <;> rfl

/-- A word that ends no region in its cycle keeps the stream registers as its effect left them. -/
theorem Sheaf.concluded_streams {seq : Nat} {sh : Shape} (hl : opCommitsLate sh.op = true) (he : opEndsRegion sh.op = false) :
    (f.concluded seq i c sh).streams = f.streams := by
  unfold Sheaf.concluded
  rw [Sheaf.endedRegion_of_late hl he, Sheaf.parkedBy_streams, Sheaf.closedSync_streams]

variable {y : Bool} {g : BitVec 3} {d : BitVec 7} {n : BitVec 3} {x : BitVec 4}

/-- The part of a lane that pops element `k`. -/
def Ctx.popPart (c : Ctx) (d : BitVec 7) (n : BitVec 3) (wide : Bool) (l k : Nat) : Outstanding :=
  let regs := if wide then 2 else 1
  { id := 32 * c.op + l, lane := l, kind := .pop n.toNat k, size := 4 * regs, dst := c.dstFor d l, regs := regs
    op := c.op, pc := c.pc, region := c.region l }

/-- The parts that a pop issues. -/
def Ctx.popItems (c : Ctx) (d : BitVec 7) (n : BitVec 3) (q : StreamReg) : List (Outstanding × Option Poison) :=
  (q.pops c.actLanes).2.map (q.popPart (c.popPart d n q.wide))

/-- The sheaf of a pop, its lanes gone on and the register standing as they leave it. -/
def Sheaf.popped (f : Sheaf) (c : Ctx) (sh : Shape) (n : BitVec 3) (q : StreamReg) : Sheaf :=
  { f.advanced c sh with streams := f.streams.set n.toNat (q.pops c.actLanes).1 }

theorem Sheaf.popped_frame {sh : Shape} {q : StreamReg} : f.popped c sh n q = { f with
    lanes := (f.popped c sh n q).lanes, flagOps := (f.popped c sh n q).flagOps, issued := true, restored := false
    streams := (f.popped c sh n q).streams } := by
  unfold Sheaf.popped
  rw [Sheaf.advanced_frame]

/-- A pop issues the parts of its lanes, the register standing as they left it. -/
theorem Runs.pops (r : Runs (.qrd y g d n x) s c) (hf : s.sheaf c.id = some f) (hst : c.isStepped = false) {q : StreamReg}
    (hq : f.streams.get n.toNat = q) (hpair : (q.wide && !groupOk c.unit.lrec.nv d 2 true) = false) :
    ∃ t seq, exec (.qrd y g d n x) s = .next t ∧ (s.committedBy c (c.shapeOf (.qrd y g d n x))).sheaf c.id = some f
      ∧ OnlySheaf (s.committedBy c (c.shapeOf (.qrd y g d n x))) t c.id c.unit.job
      ∧ t.sheaf c.id = some (((c.popItems d n q).foldl (Sheaf.issuePart c.now) (f.popped c (c.shapeOf (.qrd y g d n x)) n q)).concluded seq
          (.qrd y g d n x) c (c.shapeOf (.qrd y g d n x))) := by
  have hcm : s.committedBy c (c.shapeOf (.qrd y g d n x)) = s := State.committedBy_of_late rfl rfl
  have hs := (State.advance_spec (hcm.symm ▸ hf : (s.committedBy c (c.shapeOf (.qrd y g d n x))).sheaf c.id = some f)).2
  have hu := State.sheaf_updSheaf hs fun f => { f with streams := f.streams.set n.toNat (q.pops c.actLanes).1 }
  rw [Sheaf.advanced_streams] at hu
  refine r.issues_parts (execQrd.eq_1 ..) hf rfl rfl ?_ State.updSheaf_oneSheaf hu rfl
  rw [hs]
  dsimp only
  rw [Sheaf.advanced_streams, hq, if_neg (Bool.eq_false_iff.1 hpair), if_neg (Bool.eq_false_iff.1 hst), Ctx.popItems, List.foldl_map]
  refine congrArg (fun turn => Eff.done (List.foldl turn _ _)) (funext fun u => funext fun p => ?_)
  obtain ⟨lane, e⟩ := p
  cases e <;> rfl

/-- The lanes that pop are the word's active lanes. -/
theorem Ctx.popItems_lanes {q : StreamReg} (hq : ∀ p ∈ (q.pops c.actLanes).2, p.1 ∈ c.actLanes) :
    ∀ p ∈ c.popItems d n q, c.act.getLsbD p.1.lane = true := by
  intro p hp
  obtain ⟨⟨l, e⟩, he, rfl⟩ := List.mem_map.1 hp
  have hl := (mem_maskLanes.1 (hq _ he)).2
  cases e <;> exact hl

theorem Runs.pops_buffered (r : Runs (.qrd y g d n x) s c) (hf : s.sheaf c.id = some f) (hst : c.isStepped = false) {q : StreamReg}
    (hq : f.streams.get n.toNat = q) (hpair : (q.wide && !groupOk c.unit.lrec.nv d 2 true) = false) (hb : q.bound = true)
    (hw : q.write = false) (hr : q.rewound = []) (hk : c.actLanes.length ≤ q.buffer.length) :
    let k := c.actLanes.length
    let regs := if q.wide then 2 else 1
    Does (.qrd y g d n x) s c fun p f t z => OnlySheaf p t c.id c.unit.job ∧ OnlyLoads f z ∧ LanesGo f z c c.after
      ∧ z.pending = f.pending ∧ z.vPoison = f.vPoison ∧ z.uPoison = f.uPoison
      ∧ z.outstanding = f.outstanding ++ (c.actLanes.zip q.buffer).map (fun e =>
          { id := 32 * c.op + e.1, lane := e.1, kind := .pop n.toNat e.2.k, size := 4 * regs, dst := dstSeen c d e.1, regs := regs
            op := c.op, pc := c.pc, region := (c.f.lane e.1).syncRegion })
      ∧ z.streams.get n.toNat =
          { q with buffer := q.buffer.drop k, given := q.given + k, tentative := q.tentative ++ c.actLanes.zip q.buffer } := by
  intro k regs
  obtain ⟨t, seq, ht, hfc, honly, hz⟩ := r.pops hf hst hq hpair
  have hpops := StreamReg.pops_of_buffered hb hw hr hk
  have hlanes : ∀ p ∈ c.popItems d n q, c.act.getLsbD p.1.lane = true := Ctx.popItems_lanes fun p hp => by
    rw [hpops] at hp
    obtain ⟨e, he, rfl⟩ := List.mem_map.1 hp
    exact (List.of_mem_zip (a := e.1) (b := e.2) he).1
  have hwait : ∀ p ∈ c.popItems d n q, p.2 = none := fun p hp => by
    rw [Ctx.popItems, hpops, List.map_map] at hp
    obtain ⟨e, he, rfl⟩ := List.mem_map.1 hp
    rfl
  refine ⟨t, f, _, ht, hfc, hz, honly, issued_onlyLoads rfl, issued_lanesGo r rfl hlanes, ?_⟩
  have hquiet := Sheaf.concluded_quiet ((c.popItems d n q).foldl (Sheaf.issuePart c.now) (f.popped c (c.shapeOf (.qrd y g d n x)) n q)) seq
    (.qrd y g d n x) c (c.shapeOf (.qrd y g d n x))
  have hstreams := Sheaf.concluded_streams (seq := seq) (i := .qrd y g d n x) (c := c) (sh := c.shapeOf (.qrd y g d n x))
    (f := (c.popItems d n q).foldl (Sheaf.issuePart c.now) (f.popped c (c.shapeOf (.qrd y g d n x)) n q)) rfl rfl
  rw [Sheaf.issueParts_waiting _ _ hwait] at hquiet hstreams ⊢
  unfold Sheaf.Quiet at hquiet
  refine ⟨?_, ?_, ?_, ?_, ?_⟩
  · rw [hquiet, Sheaf.popped_frame]
  · rw [hquiet, Sheaf.popped_frame]
  · rw [hquiet, Sheaf.popped_frame]
  · rw [hquiet, Sheaf.popped_frame, Ctx.popItems, hpops]
    refine congrArg (f.outstanding ++ ·) ?_
    rw [List.map_map, List.map_map]
    refine List.map_congr_left fun e _ => ?_
    dsimp only [Function.comp, StreamReg.popPart, Option.elim, Ctx.popPart]
    rw [Ctx.dstFor_eq r.active]
    rfl
  · rw [hstreams, Sheaf.popped, hpops, Store.get_set_self]

theorem Runs.pops_unbound (r : Runs (.qrd y g d n x) s c) (hf : s.sheaf c.id = some f) (hst : c.isStepped = false) {q : StreamReg}
    (hq : f.streams.get n.toNat = q) (hpair : (q.wide && !groupOk c.unit.lrec.nv d 2 true) = false) (hb : (q.bound && !q.write) = false) :
    let regs := if q.wide then 2 else 1
    Does (.qrd y g d n x) s c fun p f t z => OnlySheaf p t c.id c.unit.job ∧ OnlyLoads f z ∧ LanesGo f z c c.after
      ∧ (∀ o ∈ z.outstanding, o ∈ f.outstanding)
      ∧ ∀ r l, r < 104 → l < 32 → SpoiltAt f z c.now (vKey r l) (f.vPoison.get (vKey r l)) (z.vPoison.get (vKey r l))
          (if c.act.getLsbD l = true ∧ d.toNat ≤ r ∧ r < d.toNat + regs
           then some ⟨.unserviceable, 6, BitVec.ofNat 64 q.given, []⟩ else none) := by
  intro regs
  obtain ⟨t, seq, ht, hfc, honly, hz⟩ := r.pops hf hst hq hpair
  have hpops := StreamReg.pops_of_unbound (lanes := c.actLanes) hb
  have hnamed : c.Named fun l => c.popPart d n q.wide l 0 := fun _ => ⟨rfl, rfl, rfl⟩
  have hitems : c.popItems d n q = c.parts (fun l => c.popPart d n q.wide l 0) fun _ => some (streamFault q) := by
    rw [Ctx.popItems, hpops, List.map_map]
    rfl
  rw [hitems] at hz
  refine ⟨t, f, _, ht, hfc, hz, honly, issued_onlyLoads rfl, issued_lanesGo r rfl (Ctx.act_lanes hnamed), fun o ho => ?_, fun k l hk hl => ?_⟩
  · rw [congrArg Sheaf.outstanding (Sheaf.concluded_quiet ..)] at ho
    obtain ⟨-, h2, -⟩ := Sheaf.mem_issueParts (now := c.now) _ (f.popped c (c.shapeOf (.qrd y g d n x)) n q)
      (hnamed.parts (bad := fun _ => some (streamFault q)))
    rcases h2 o ho with h | ⟨p, hp, hn, -⟩
    · rw [Sheaf.popped_frame] at h
      exact h
    · obtain ⟨l, -, rfl⟩ := List.mem_map.1 hp
      cases hn
  · have h := issued_spoilt_v (i := .qrd y g d n x) (bad := fun _ => some (streamFault q)) (seq := seq) hnamed
      (g := f.popped c (c.shapeOf (.qrd y g d n x)) n q) rfl hk hl
    convert h using 1
    refine if_congr (and_congr_right fun _ => ?_) rfl rfl
    dsimp only [Ctx.popPart]
    rw [Ctx.dstFor_eq r.active]
    exact (dstSeen_iff hk).symm

/-- A register of 64-bit elements needs a pair. -/
theorem Runs.pop_emulates (r : Runs (.qrd y g d n x) s c) (hf : s.sheaf c.id = some f) (hw : (f.streams.get n.toNat).wide = true)
    (hpair : groupOk c.unit.lrec.nv d 2 true = false) : exec (.qrd y g d n x) s = .next (s.emulWord c) := by
  have hcm : s.committedBy c (c.shapeOf (.qrd y g d n x)) = s := State.committedBy_of_late rfl rfl
  have hs := (State.advance_spec (hcm.symm ▸ hf : (s.committedBy c (c.shapeOf (.qrd y g d n x))).sheaf c.id = some f)).2
  refine r.emulates (execQrd.eq_1 ..) ?_
  rw [hs]
  dsimp only
  rw [Sheaf.advanced_streams, hw, hpair]
  rfl

/-! ### The push word -/

theorem Runs.push_emulates (r : Runs (.qwr y g d n x) s c) (hf : s.sheaf c.id = some f) (hw : (f.streams.get n.toNat).wide = true)
    (hpair : groupOk c.unit.lrec.nv d 2 false = false) (hroom : f.storeQueue.length < 64) :
    exec (.qwr y g d n x) s = .next (s.emulWord c) := by
  have hcm : s.committedBy c (c.shapeOf (.qwr y g d n x)) = s := State.committedBy_of_late rfl rfl
  have hs := (State.advance_spec (hcm.symm ▸ hf : (s.committedBy c (c.shapeOf (.qwr y g d n x))).sheaf c.id = some f)).2
  refine r.emulates (execQwr.eq_1 ..) ?_
  dsimp only
  rw [State.makeRoom_of_room hs (Sheaf.advanced_storeQueue.symm ▸ hroom), hs]
  dsimp only
  rw [Sheaf.advanced_streams, hw, hpair]
  rfl

/-- The entry that a push takes in the store queue (R200). -/
def Ctx.pushEntry (c : Ctx) (s : State) (f : Sheaf) (d : BitVec 7) (n : BitVec 3) : StoreEntry :=
  let q := f.streams.get n.toNat
  { id := c.op, pc := c.pc, cp := c.x.cp.toNat, stream := some n.toNat, colour := if c.x.cv then c.x.colour.toNat else c.f.clr.toNat % 8
    parts := ((List.range c.actLanes.length).zip c.actLanes).map fun e =>
      { lane := e.2, bytes := littleEndian (4 * if q.wide then 2 else 1) (if q.wide then (c.r64 d e.2).toNat else (c.r32 d e.2).toNat)
        region := (c.f.lane e.2).syncRegion
        fault := (c.declined s e.2).or
          (if q.bound = true ∧ q.write = true ∧ q.given + f.pushesBefore n.toNat c.op + e.1 < q.count then none
           else some ⟨.unserviceable, 6, BitVec.ofNat 64 q.given, []⟩) } }

theorem Sheaf.advanced_pushesBefore {sh : Shape} {n k : Nat} : (f.advanced c sh).pushesBefore n k = f.pushesBefore n k := by
  unfold Sheaf.pushesBefore
  rw [Sheaf.advanced_storeQueue]

theorem Ctx.actLanes_length_le (c : Ctx) : c.actLanes.length ≤ 32 := (List.length_filter_le ..).trans_eq List.length_range

theorem range_zip_of_le {α : Type} (l : List α) {n : Nat} (h : l.length ≤ n) : (List.range n).zip l = (List.range l.length).zip l := by
  obtain ⟨k, rfl⟩ := Nat.exists_eq_add_of_le h
  rw [List.range_add, ← List.append_nil l, List.zip_append (by simp)]
  simp

theorem Runs.pushes (r : Runs (.qwr y g d n x) s c) (hf : s.sheaf c.id = some f) (hst : c.isStepped = false)
    (hpair : ((f.streams.get n.toNat).wide && !groupOk c.unit.lrec.nv d 2 false) = false) (hroom : f.storeQueue.length < 64) :
    Does (.qwr y g d n x) s c fun p g t z => g = f ∧ OnlySheaf p t c.id c.unit.job ∧ LanesGo g z c c.after
      ∧ OnlyLanes { g with storeQueue := g.storeQueue ++ [c.pushEntry s f d n] } z := by
  have hcm : s.committedBy c (c.shapeOf (.qwr y g d n x)) = s := State.committedBy_of_late rfl rfl
  have hs := (State.advance_spec (hcm.symm ▸ hf : (s.committedBy c (c.shapeOf (.qwr y g d n x))).sheaf c.id = some f)).2
  have hq : (f.advanced c (c.shapeOf (.qwr y g d n x))).storeQueue = f.storeQueue := Sheaf.advanced_storeQueue
  refine r.enqueues (execQwr.eq_1 ..) hf rfl rfl ?_
  dsimp only
  rw [State.makeRoom_of_room hs (hq.symm ▸ hroom), hs]
  dsimp only
  rw [Sheaf.advanced_streams, Sheaf.advanced_pushesBefore, if_neg (Bool.eq_false_iff.1 hpair), if_neg (hq.symm ▸ Nat.not_le.2 hroom), hst,
    if_pos (by rfl), List.map_map,
    range_zip_of_le _ c.actLanes_length_le]
  refine congrArg (fun ps => Eff.done ((s.advance c (c.shapeOf (.qwr y g d n x))).enqueue c { c.pushEntry s f d n with parts := ps }))
    (List.map_congr_left fun e _ => ?_)
  have hbytes : (if (f.streams.get n.toNat).wide then toBytes 8 (c.r64 d e.2).toNat else wordBytesOf (c.r32 d e.2))
      = littleEndian (4 * if (f.streams.get n.toNat).wide then 2 else 1)
          (if (f.streams.get n.toNat).wide then (c.r64 d e.2).toNat else (c.r32 d e.2).toNat) := by
    rw [wordBytesOf, toBytes_eq, toBytes_eq]
    cases (f.streams.get n.toNat).wide <;> rfl
  dsimp only [Function.comp]
  rw [hbytes]
  cases c.declined s e.2 with
  | some p => rfl
  | none =>
    simp only [Bool.and_eq_true, decide_eq_true_iff, and_assoc]
    rfl

end

/-! ### The engine of a strided stream in the window -/

section
variable {s : State} {f : Sheaf} {r : StreamReg} {u : UnitSt} {k : Nat}

/-- The place of element `k` of a strided stream (R198). -/
def StreamReg.strided (r : StreamReg) (k : Nat) : DWord := r.base + BitVec.ofNat 64 k * r.stride

def StreamReg.size (r : StreamReg) : Nat := if r.wide then 8 else 4

/-- What a strided element in the window is: its condition, or its value. -/
theorem State.fetchElem_strided (hk : r.kind = 0) (hs : r.sp = true) (hu : s.unit f.unit = some u) : s.fetchElem f r k =
    let a := r.strided k
    if a.toNat % r.size ≠ 0 then { k := k, poison := some ⟨.unserviceable, 2, a, []⟩ }
    else if u.lrec.win < a.toNat + r.size then { k := k, poison := some ⟨.unserviceable, 0, a, []⟩ }
    else if u.winPoisoned a.toNat r.size = true then { k := k, poison := some (u.badWords a.toNat r.size) }
    else { k := k, value := BitVec.ofNat 64 (u.winValue a.toNat r.size) } := by
  have hun : s.unitOf f = u := by rw [State.unitOf, hu]; rfl
  have ha : s.elemAddr f r k = .ok (r.strided k) := if_pos hk
  unfold State.fetchElem
  simp only [hun, ha, hs]
  dsimp only [bind, Except.bind]
  change (match (if (r.strided k).toNat % r.size != 0 then (.error ⟨.unserviceable, 2, r.strided k, []⟩ : Except Poison Nat)
      else if True then
        (if u.lrec.win < (r.strided k).toNat + r.size then .error ⟨.unserviceable, 0, r.strided k, []⟩
         else if u.winPoisoned (r.strided k).toNat r.size = true then .error (u.badWords (r.strided k).toNat r.size)
         else .ok (u.winValue (r.strided k).toNat r.size))
      else s.readVaNat u.ctx (r.strided k) r.size) with
    | .ok x => ({ k := k, value := BitVec.ofNat 64 x } : StreamElem)
    | .error p => { k := k, poison := some p }) = _
  by_cases h1 : (r.strided k).toNat % r.size = 0
  · rw [if_neg (by rw [h1]; decide), if_neg (not_not.2 h1), if_pos trivial]
    by_cases h2 : u.lrec.win < (r.strided k).toNat + r.size
    · rw [if_pos h2, if_pos h2]
    · rw [if_neg h2, if_neg h2]
      by_cases h3 : u.winPoisoned (r.strided k).toNat r.size = true
      · rw [if_pos h3, if_pos h3]
      · rw [if_neg h3, if_neg h3]
  · rw [if_pos (bne_iff_ne.2 h1), if_pos h1]

theorem State.fetchElem_k : (s.fetchElem f r k).k = k := by
  unfold State.fetchElem
  dsimp only
  split <;> rfl

/-- No condition of a strided element in the window is a malformed entry's. -/
theorem State.fetchElem_wellFormed (hk : r.kind = 0) (hs : r.sp = true) (hu : s.unit f.unit = some u) {p : Poison}
    (h : (s.fetchElem f r k).poison = some p) : p.cause ≠ 4 := by
  rw [State.fetchElem_strided hk hs hu] at h
  dsimp only at h
  split at h
  · rw [← Option.some.inj h]; exact (by decide : (2 : Nat) ≠ 4)
  · split at h
    · rw [← Option.some.inj h]; exact (by decide : (0 : Nat) ≠ 4)
    · split at h
      · rw [← Option.some.inj h]; exact (by decide : (7 : Nat) ≠ 4)
      · cases h

theorem State.metMalformed_of_cause {ctx : Nat} {p : Poison} (h : p.cause ≠ 4) : s.metMalformed ctx p = s :=
  if_pos (Bool.or_eq_true_iff.2 (.inr (bne_iff_ne.2 h)))

/-- The engine takes the element into its buffer; beside its sheaf only its context's account differs. -/
theorem streamElementFetch_fetches {id q : Nat} (hf : s.sheaf id = some f) (hu : s.unit f.unit = some u) (hr : f.streams.get q = r)
    (hb : r.bound = true) (hk : r.kind = 0) (hs : r.sp = true) (hw : r.write = false) (hroom : r.buffer.length < 256)
    (hmore : r.fetched < r.count) :
    ∃ t, exec (.streamElementFetch id q) s = .next t
      ∧ t.sheaf id = some { f with streams := f.streams.set q { r with buffer := r.buffer ++ [s.fetchElem f r r.fetched], fetched := r.fetched + 1 } }
      ∧ (∀ k, k ≠ id → t.sheaf k = s.sheaf k) ∧ t = { s with sheaves := t.sheaves, contexts := t.contexts } := by
  subst hr
  let g (f' : Sheaf) : Sheaf := { f' with streams := f'.streams.set q { f.streams.get q with
    buffer := (f.streams.get q).buffer ++ [s.fetchElem f (f.streams.get q) (f.streams.get q).fetched], fetched := (f.streams.get q).fetched + 1 } }
  have hone : OneSheaf s (s.updSheaf id g) id := State.updSheaf_oneSheaf
  have hx : exec (.streamElementFetch id q) s = .next (match (s.fetchElem f (f.streams.get q) (f.streams.get q).fetched).poison with
      | some p => (s.updSheaf id g).metMalformed (s.unitOf f).ctx p
      | none => (s.updSheaf id g).charge (s.unitOf f).ctx .hbm (if (f.streams.get q).sp then 0 else if (f.streams.get q).wide then 8 else 4)) := by
    refine (execStreamElementFetch.eq_1 ..).trans (congrArg Host.Outcome.next ?_)
    rw [hf]
    dsimp only
    refine (if_neg (by simp [hb, hw, hs, Nat.not_le.2 hroom, Nat.not_le.2 hmore])).trans ?_
    cases (s.fetchElem f (f.streams.get q) (f.streams.get q).fetched).poison <;> rfl
  cases hp : (s.fetchElem f (f.streams.get q) (f.streams.get q).fetched).poison with
  | some p =>
    rw [hp] at hx
    dsimp only at hx
    rw [State.metMalformed_of_cause (State.fetchElem_wellFormed hk hs hu hp)] at hx
    exact ⟨_, hx, State.sheaf_updSheaf hf g, hone.1, by rw [hone.2]⟩
  | none =>
    rw [hp] at hx
    dsimp only at hx
    have hsheaf (t : State) (b : Budget) (c n k : Nat) : (t.charge c b n).sheaf k = t.sheaf k := by rw [State.charge_frame]; rfl
    refine ⟨_, hx, (hsheaf ..).trans (State.sheaf_updSheaf hf g), fun k hk => (hsheaf ..).trans (hone.1 k hk), ?_⟩
    rw [State.charge_frame, hone.2]

end

/-- Settles O29: the clauses of a pop, of a push and of an engine's fetch. -/
theorem streamsPopPushAndMove : Obligations.StreamsPopPushAndMove := by
  unfold Obligations.StreamsPopPushAndMove
  refine ⟨fun y g d n x s c f0 hf0 => ?_, fun s id q f u hf hu => ?_⟩
  · intro q regs k hst
    refine ⟨fun r hw hp => r.pop_emulates hf0 hw hp, fun r hw hp hroom => r.push_emulates hf0 hw hp hroom, fun r hpair => ?_,
      fun r hpair hroom => ?_⟩
    · have hpair' : (q.wide && !groupOk c.unit.lrec.nv d 2 true) = false := by
        cases hw : q.wide with
        | false => rfl
        | true => rw [hpair hw]; rfl
      exact ⟨r.pops_buffered hf0 hst rfl hpair', r.pops_unbound hf0 hst rfl hpair'⟩
    · have hpair' : (q.wide && !groupOk c.unit.lrec.nv d 2 false) = false := by
        cases hw : q.wide with
        | false => rfl
        | true => rw [hpair hw]; rfl
      obtain ⟨t, f, z, ht, hf, hz, rfl, honly, hgo, hlanes⟩ := r.pushes hf0 hst hpair' hroom
      exact ⟨t, f, z, ht, hf, hz, honly, hgo, hlanes⟩
  · intro r size at_
    refine ⟨fun hb hk hs hw hroom hmore => ?_, fun hb hw => ?_⟩
    · obtain ⟨t, ht, hz, hothers, hrest⟩ := streamElementFetch_fetches hf hu rfl hb hk hs hw hroom hmore
      refine ⟨t, _, s.fetchElem f r r.fetched, ht, hz, hothers, hrest, rfl, fun j => Store.get_set .., State.fetchElem_k, fun h1 h2 h3 => ?_⟩
      rw [State.fetchElem_strided hk hs hu]
      dsimp only
      rw [if_neg (not_not.2 (by exact h1)), if_neg (Nat.not_lt.2 (by exact h2)), if_neg (Bool.eq_false_iff.1 (by exact h3))]
      exact ⟨rfl, rfl⟩
    · refine (execStreamElementFetch.eq_1 ..).trans (congrArg Host.Outcome.next ?_)
      rw [hf]
      exact if_pos (by simp [show (f.streams.get q).write = true from hw])

end Sys2Proof.Machine
end

section
/-!
PROOFS. Prefetches, fences and stream binding (O23): what a prefetch leaves of the state, the synchronisation region that a fence begins, and
the register that a record binds.
-/
namespace Sys2Proof.Machine
open Sys2Proof.Claims

/-! ### Prefetch (R187) -/

section
variable {i : Instr} {s t u : State} {c : Ctx} {f : Sheaf}

theorem Charged.prefetch {ea : DWord} : Charged s (s.prefetch c ea) := by
  unfold State.prefetch
  split
  · exact .ite (.refl s) (Charged.charge.trans .l2Keep)
  · exact .refl s

/-- Of a die only the lines that it holds differ. -/
theorem Charged.die (h : Charged s t) (k : Nat) : t.die k = { s.die k with l2 := (t.die k).l2, directory := (t.die k).directory } := by
  calc t.die k = { (t.die k).lineless with l2 := (t.die k).l2, directory := (t.die k).directory } := rfl
    _ = _ := by rw [h.dies k]; rfl

/-- Of a context only what it used of its budgets differs. -/
theorem Charged.context (h : Charged s t) (k : Nat) :
    t.context k = (s.context k).map fun x => { x with used := ((t.context k).map Context.used).getD [] } := by
  have hk := h.contexts k
  cases ht : t.context k with
  | none =>
    rw [ht] at hk
    cases hs : s.context k with
    | none => rfl
    | some x => rw [hs] at hk; cases hk
  | some y =>
    rw [ht] at hk
    cases hs : s.context k with
    | none => rw [hs] at hk; cases hk
    | some x =>
      rw [hs] at hk
      have hxy : y.unused = x.unused := Option.some.inj hk
      refine congrArg some ?_
      calc y = { y.unused with used := y.used } := rfl
        _ = _ := by rw [hxy]; rfl

/-- A word that commits nothing and whose effect changes nothing but what is kept of accesses. -/
theorem Runs.charges (r : Runs i s c) {eff : Ctx → State → Eff} (hx : exec i s = issueWord i s eff)
    (hF : eff c (s.advance c (c.shapeOf i)) = .done u) (hu : Charged (s.advance c (c.shapeOf i)) u) :
    Does i s c fun p f t z => (∀ k, k ≠ c.id → t.sheaf k = p.sheaf k)
      ∧ (∀ k, t.die k = { p.die k with l2 := (t.die k).l2, directory := (t.die k).directory })
      ∧ (∀ k, t.context k = (p.context k).map fun x => { x with used := ((t.context k).map Context.used).getD [] })
      ∧ t = { p with sheaves := t.sheaves, jobs := t.jobs, dies := t.dies, contexts := t.contexts, fresh := t.fresh, free := t.free }
      ∧ OnlyLanes f z ∧ LanesGo f z c c.after := by
  obtain ⟨f, hf⟩ := r.committed_sheaf
  obtain ⟨ha, hs⟩ := State.advance_spec hf
  have hsheaf (k : Nat) : u.sheaf k = (s.advance c (c.shapeOf i)).sheaf k := by rw [hu.rest]; rfl
  have hcon := u.conclude_in i c (c.shapeOf i)
  have hdie (k : Nat) : (u.conclude i c (c.shapeOf i)).die k = u.die k := by rw [hcon.rest]; rfl
  have hctx (k : Nat) : (u.conclude i c (c.shapeOf i)).context k = u.context k := by rw [hcon.rest]; rfl
  have hd (k : Nat) : (s.advance c (c.shapeOf i)).die k = (s.committedBy c (c.shapeOf i)).die k := by rw [ha.rest]; rfl
  have hc (k : Nat) : (s.advance c (c.shapeOf i)).context k = (s.committedBy c (c.shapeOf i)).context k := by rw [ha.rest]; rfl
  refine ⟨_, f, _, hx.trans (r.done hF), hf, State.conclude_sheaf ((hsheaf _).trans hs), fun k hk => ?_, fun k => ?_, fun k => ?_, ?_,
    (f.advanced_quiet ..).trans (Sheaf.concluded_quiet ..),
    lanesGo_concluded (State.issuing_spec r.issuing).2 (fun _ => .refl _) fun _ _ => rfl⟩
  · exact (hcon.others k hk).trans ((hsheaf k).trans (ha.others k hk))
  · rw [hdie, ← hd]
    exact hu.die k
  · rw [hctx, ← hc]
    exact hu.context k
  · rw [hcon.rest, hu.rest, ha.rest]

end

/-! ### Names given out by a commit -/

section
variable {s : State} {id : Nat} {f : Sheaf} {e : StoreEntry} {p : StorePart}

theorem le_foldl_fresh {α : Type} {g : State → α → State} (h : ∀ s x, s.fresh ≤ (g s x).fresh) (l : List α) :
    ∀ s : State, s.fresh ≤ (l.foldl g s).fresh := by
  induction l with
  | nil => exact fun _ => le_rfl
  | cons x l ih => exact fun s => (h s x).trans (ih _)

theorem State.le_performAt_fresh {va : DWord} {keys : List Nat} : s.fresh ≤ (s.performAt id f e p va keys).fresh := by
  unfold State.performAt
  extract_lets v key s1
  split
  · exact Nat.le_succ _
  · have h1 : s1.fresh = s.fresh := by
      unfold s1
      split <;> rfl
    have h2 : ((s1.write (keys.zip p.bytes)).dropLines f.coreNo keys).fresh = s.fresh := by
      rw [State.write_frame]
      exact h1
    rw [Charged.laneAccess.rest]
    exact h2.ge

theorem State.le_performPart_fresh : s.fresh ≤ (s.performPart id e p).fresh := by
  unfold State.performPart
  split
  · exact le_rfl
  · split
    · exact (State.updUnit_fresh ..).ge
    · split
      · exact le_rfl
      · exact State.le_performAt_fresh

theorem State.le_performPush_fresh {r : StreamReg} {k : Nat} : s.fresh ≤ (s.performPush id e r k p).fresh := by
  unfold State.performPush
  split
  · split
    · exact (State.updUnit_fresh ..).ge
    · exact State.le_performAt_fresh
  · exact le_rfl

theorem State.le_performEntry_fresh {m : Mask} : s.fresh ≤ (s.performEntry id m e).fresh := by
  unfold State.performEntry
  extract_lets mine s1
  rw [State.updSheaf_fresh]
  unfold s1
  split
  · exact le_foldl_fresh (fun _ _ => State.le_performPart_fresh) _ _
  · rw [State.updSheaf_fresh]
    exact le_foldl_fresh (fun _ _ => State.le_performPush_fresh) _ _

theorem State.le_commit_fresh {m : Mask} : s.fresh ≤ (s.commit id m).fresh := by
  unfold State.commit
  split
  · exact le_rfl
  · rw [State.updSheaf_fresh]
    exact le_foldl_fresh (fun _ _ => State.le_performEntry_fresh) _ _

/-- What a word's end names is new. -/
theorem State.le_advance_fresh {c : Ctx} {sh : Shape} : s.fresh ≤ (s.advance c sh).fresh := by
  have h : (s.advance c sh).fresh = (s.committedBy c sh).fresh + 1 := by
    unfold State.advance
    rw [State.progress_rest]
    exact congrArg (· + 1) (State.updSheaf_fresh ..)
  have hc : s.fresh ≤ (s.committedBy c sh).fresh := by
    unfold State.committedBy
    split
    · exact State.le_commit_fresh
    · exact le_rfl
  omega

end

/-! ### Fence (R191) -/

section
variable {i : Instr} {s : State} {c : Ctx} {f : Sheaf}

/-- A word that ends a region is held while a load of it has not returned. -/
theorem Runs.returned (r : Runs i s c) (h : (c.shapeOf i).endsRegion = true) {o : Outstanding} (ho : o ∈ c.f.outstanding)
    (hr : o.inRegion = true) : c.lanes.getLsbD o.lane = false := by
  have hheld := r.ready
  unfold wordHeld at hheld
  simp only [Bool.or_eq_false_iff, h, Bool.true_and] at hheld
  obtain ⟨⟨⟨hwaits, -⟩, -⟩, -⟩ := hheld
  unfold State.endWaits regionWaits at hwaits
  simp only [Bool.or_eq_false_iff] at hwaits
  have hany := List.any_eq_false.1 hwaits.1.1 o ho
  rw [hr, Bool.true_and] at hany
  exact Bool.eq_false_iff.2 hany

/-- The synchronisation regions after a closing word (R288). -/
theorem Sheaf.concluded_syncRegion {seq l : Nat} {sh : Shape} (h : closesSync i c.flag = true) (hl : l < 32) :
    ((f.concluded seq i c sh).lane l).syncRegion = if c.act.getLsbD l = true then seq else (f.lane l).syncRegion := by
  have hpark (g : Sheaf) : ((g.parkedBy c sh).lane l).syncRegion = (g.lane l).syncRegion := by
    unfold Sheaf.parkedBy
    split <;> rfl
  have hend (g : Sheaf) : ((g.endedRegion seq c sh).lane l).syncRegion = (g.lane l).syncRegion := by
    unfold Sheaf.endedRegion
    split
    · rw [Sheaf.startRegion_lane]
      split <;> rfl
    · rfl
  unfold Sheaf.concluded
  rw [hpark, hend, Sheaf.closedSync, if_pos h, Sheaf.lane_updLanes]
  by_cases ha : c.act.getLsbD l = true
  · rw [if_pos ⟨hl, ha⟩, if_pos ha]
  · rw [if_neg fun e => ha e.2, if_neg ha]

theorem Sheaf.advanced_syncRegion {sh : Shape} {l : Nat} : ((f.advanced c sh).lane l).syncRegion = (f.lane l).syncRegion := by
  rw [Sheaf.advanced_lane]
  split <;> rfl

variable {y : Bool} {g : BitVec 3} {sc : BitVec 4} {m7 : Bool} {mask : BitVec 7}

theorem Runs.fence_completes (r : Runs (.fence y g sc m7 mask) s c) :
    Completes (.fence y g sc m7 mask) s c c.after fun f z => WritesNothing f z
      ∧ ∃ n, s.fresh ≤ n ∧ ∀ l, l < 32 → (z.lane l).syncRegion = if c.act.getLsbD l = true then n else (f.lane l).syncRegion := by
  obtain ⟨t, f, z, ht, hf, hz, honly, hregs, hgo, hnothing⟩ := r.nothing (execFence.eq_1 y g sc m7 mask s)
  have hx := (execFence.eq_1 y g sc m7 mask s).trans (r.done (by rfl))
  obtain rfl := Host.Outcome.next.inj (ht.symm.trans hx)
  obtain rfl := Option.some.inj (hz.symm.trans (State.conclude_sheaf (State.advance_spec hf).2))
  refine ⟨_, f, _, ht, hf, hz, honly, hregs, hgo, hnothing, (s.advance c (c.shapeOf (.fence y g sc m7 mask))).fresh,
    State.le_advance_fresh, fun l hl => ?_⟩
  rw [Sheaf.concluded_syncRegion (by rfl) hl, Sheaf.advanced_syncRegion]

end

/-! ### Blocks of the window that a word reads at its issue (R432, R195) -/

section
variable {i : Instr} {s : State} {c : Ctx} {u : UnitSt} {w align size : Nat} (r : Runs i s c) {eff : Ctx → State → Eff}
  (hx : exec i s = issueWord i s eff)

theorem Poison.alike_refl (p : Poison) : p.alike p = true := by
  unfold Poison.alike
  rw [beq_self_eq_true]
  rfl

/-- A word is held while a condition that all its active lanes meet is serviced. -/
theorem State.holdForService_all (h : c.act ≠ 0) (q : Poison) : s.holdForService c (c.actLanes.map fun l => (l, q)) = s.updSheaf c.id fun f =>
    { (f.updLanes c.lanes fun _ x => { x with asked := none }) with
      awaiting := f.awaiting ++ [⟨c.lanes, q, .reported, true, c.actLanes.map fun l => (l, q)⟩] } := by
  have hall : (c.actLanes.map fun l => (l, q)).filter (fun x => x.2.alike q) = c.actLanes.map fun l => (l, q) :=
    List.filter_eq_self.2 fun x hx => by
      obtain ⟨l, -, rfl⟩ := List.mem_map.1 hx
      exact Poison.alike_refl q
  obtain ⟨l, rest, hl⟩ := List.exists_cons_of_ne_nil (l := c.actLanes) fun e => by
    have := lowest_eq_some h
    rw [lowest, show maskLanes c.act = [] from e] at this
    cases this
  unfold State.holdForService
  rw [hl, List.map_cons] at hall ⊢
  dsimp only
  rw [hall]

include r hx

theorem Runs.serves {q : Poison} (hF : eff c (s.advance c (c.shapeOf i)) = c.serve s (s.advance c (c.shapeOf i)) q) : Served i s c q := by
  refine ⟨fun h => ?_, fun x h => r.traps hx ?_⟩
  · unfold AwaitsService
    rw [hx, r.issue, hF, Ctx.serve, h, ← State.holdForService_all r.active]
  · rw [hF, Ctx.serve, h]
    rfl

/-- The checks of a block, and a condition of its words, come before the word's own effect. -/
theorem Runs.meets_block {goes : Eff} (hF : eff c (s.advance c (c.shapeOf i)) = match c.block s (s.advance c (c.shapeOf i)) u w align size with
      | some e => e
      | none => goes) :
    (w % align ≠ 0 → TakesTrap i s c (laneTrap .lane c.word c.pc c.act c.act 2 (BitVec.ofNat 64 w)))
    ∧ (w % align = 0 → u.lrec.win < w + size → TakesTrap i s c (laneTrap .lane c.word c.pc c.act c.act 0 (BitVec.ofNat 64 w)))
    ∧ (w % align = 0 → w + size ≤ u.lrec.win → u.winPoisoned w size = true → Served i s c (u.badWords w size))
    ∧ (w % align = 0 → w + size ≤ u.lrec.win → u.winPoisoned w size = false → eff c (s.advance c (c.shapeOf i)) = goes) := by
  unfold Ctx.block checkBlock at hF
  refine ⟨fun h => r.traps hx (hF.trans ?_), fun h1 h2 => r.traps hx (hF.trans ?_), fun h1 h2 h3 => r.serves hx (hF.trans ?_),
    fun h1 h2 h3 => hF.trans ?_⟩
  · rw [if_pos (bne_iff_ne.2 h)]
    rfl
  · rw [if_neg (by simp [h1]), if_pos h2]
    rfl
  · rw [if_neg (by simp [h1]), if_neg (Nat.not_lt.2 h2)]
    dsimp only
    rw [if_pos h3]
  · rw [if_neg (by simp [h1]), if_neg (Nat.not_lt.2 h2)]
    dsimp only
    rw [if_neg (Bool.eq_false_iff.1 h3)]

end

/-! ### Stream binding (R198) -/

/-- A stream register without its tentative pops. -/
def StreamReg.settled (q : StreamReg) : StreamReg := { q with tentative := [] }

section
variable {i : Instr} {s : State} {c : Ctx} {f : Sheaf}

/-- The end of a word settles pops of the stream registers, and changes nothing else of them. -/
theorem Sheaf.concluded_streams_get {seq k : Nat} {sh : Shape} : ∃ test : Nat × StreamElem → Bool,
    (f.concluded seq i c sh).streams.get k = { f.streams.get k with tentative := (f.streams.get k).tentative.filter test } := by
  have h2 (g : Sheaf) : ∃ test : Nat × StreamElem → Bool,
      (g.endedRegion seq c sh).streams.get k = { g.streams.get k with tentative := (g.streams.get k).tentative.filter test } := by
    unfold Sheaf.endedRegion
    split
    · refine ⟨fun t => !(c.lanes &&& g.liveMask).getLsbD t.1, ?_⟩
      have hs : (g.startRegion seq (c.lanes &&& g.liveMask)).streams = (g.settlePops (c.lanes &&& g.liveMask)).streams := by
        unfold Sheaf.startRegion
        rw [Sheaf.updLanes_eq]
      rw [hs]
      exact Store.get_mapValues (u := fun q : StreamReg =>
        { q with tentative := q.tentative.filter fun t => !(c.lanes &&& g.liveMask).getLsbD t.1 }) rfl g.streams k
    · exact ⟨fun _ => true, by rw [List.filter_true]⟩
  obtain ⟨test, h⟩ := h2 (f.closedSync seq i c)
  refine ⟨test, ?_⟩
  unfold Sheaf.concluded
  rw [Sheaf.parkedBy_streams, h, Sheaf.closedSync_streams]

theorem Sheaf.concluded_bound {seq n : Nat} {sh : Shape} {q : StreamReg} (hq : q.tentative = []) :
    (Sheaf.concluded { f with streams := f.streams.set n q } seq i c sh).streams.get n = q := by
  obtain ⟨test, h⟩ := Sheaf.concluded_streams_get (f := { f with streams := f.streams.set n q }) (seq := seq) (i := i) (c := c) (sh := sh) (k := n)
  rw [h, Store.get_set_self, hq, List.filter_nil, ← hq]

theorem Sheaf.concluded_unbound {seq n k : Nat} {sh : Shape} {q : StreamReg} (hk : k ≠ n) :
    ((Sheaf.concluded { f with streams := f.streams.set n q } seq i c sh).streams.get k).settled = (f.streams.get k).settled := by
  obtain ⟨test, h⟩ := Sheaf.concluded_streams_get (f := { f with streams := f.streams.set n q }) (seq := seq) (i := i) (c := c) (sh := sh) (k := k)
  rw [h, Store.get_set_ne _ hk]
  rfl

/-- The register that a record at a window address describes (R198). -/
def UnitSt.streamAt (u : UnitSt) (w : Nat) : StreamReg :=
  let ctl := u.winValue (w + 0x14) 4
  if ctl % 4 = 3 then {} else
    { bound := true, base := BitVec.ofNat 64 (u.winValue w 8), stride := BitVec.ofNat 64 (u.winValue (w + 8) 8)
      count := u.winValue (w + 0x10) 4, kind := ctl % 4, wide := ctl.testBit 2, write := ctl.testBit 3, sp := ctl.testBit 4
      index := BitVec.ofNat 64 (u.winValue (w + 0x18) 8) }

theorem UnitSt.streamAt_tentative {u : UnitSt} {w : Nat} : (u.streamAt w).tentative = [] := by
  unfold UnitSt.streamAt
  dsimp only
  split <;> rfl

/-- A word whose effect binds one stream register. -/
theorem Runs.binds (r : Runs i s c) {eff : Ctx → State → Eff} (hx : exec i s = issueWord i s eff) {n : Nat} {q : StreamReg}
    (hq : q.tentative = []) (hF : eff c (s.advance c (c.shapeOf i))
      = .done ((s.advance c (c.shapeOf i)).updSheaf c.id fun f => { f with streams := f.streams.set n q })) :
    Does i s c fun p f t z => OnlySheaf p t c.id c.unit.job ∧ LanesGo f z c c.after ∧ OnlyLanes f z ∧ z.streams.get n = q
      ∧ ∀ k, k ≠ n → (z.streams.get k).settled = (f.streams.get k).settled := by
  obtain ⟨f, hf⟩ := r.committed_sheaf
  obtain ⟨ha, hs⟩ := State.advance_spec hf
  have hquiet : (f.advanced c (c.shapeOf i)).Quiet
      { f.advanced c (c.shapeOf i) with streams := (f.advanced c (c.shapeOf i)).streams.set n q } := rfl
  refine ⟨_, f, _, hx.trans (r.done hF), hf, State.conclude_sheaf (State.sheaf_updSheaf hs _),
    (ha.trans (State.updSheaf_in ..)).trans (State.conclude_in ..),
    lanesGo_concluded (State.issuing_spec r.issuing).2 (fun _ => .refl _) fun _ _ => rfl,
    ((f.advanced_quiet ..).trans hquiet).trans (Sheaf.concluded_quiet ..), Sheaf.concluded_bound hq, fun k hk => ?_⟩
  refine (Sheaf.concluded_unbound hk).trans ?_
  rw [Sheaf.advanced_streams]

end

/-- Settles O23: a prefetch is charged alone, a fence opens a synchronisation region, and a binding meets its block or binds. -/
theorem prefetchFenceAndStreamBinding : Obligations.PrefetchFenceAndStreamBinding := by
  unfold Obligations.PrefetchFenceAndStreamBinding
  refine ⟨fun y b g a sc m7 mask s c => ⟨fun r => ?_, fun r => ⟨fun o ho hr => r.returned (Bool.or_true _) ho hr, r.fence_completes⟩⟩,
    fun y g n a s c u r hu => ?_⟩
  · exact r.charges (execPrf.eq_1 ..) rfl (.foldl (fun _ _ => .prefetch) _ _)
  · intro w ctl count
    have hunit : (s.advance c (c.shapeOf (.sbind y g n a))).unitOf c.f = u := by
      obtain ⟨f, hf⟩ := r.committed_sheaf
      have h := (State.advance_spec hf).1.rest
      have hun : (s.advance c (c.shapeOf (.sbind y g n a))).unit c.f.unit = some u := by
        rw [h]
        exact hu
      rw [State.unitOf, hun]
      rfl
    obtain ⟨h1, h2, h3, h4⟩ := r.meets_block (execSbind.eq_1 y g n a s) (u := u) (w := w) (align := 32) (size := 32)
      (goes := if 32 ≤ ctl ∨ count = 0 then .emul else .done ((s.advance c (c.shapeOf (.sbind y g n a))).updSheaf c.id fun f =>
        { f with streams := f.streams.set n.toNat (u.streamAt w) })) (by
      dsimp only
      rw [hunit]
      rfl)
    refine ⟨h1, h2, h3, fun ha hb hc => ⟨fun h => ?_, fun h => ?_⟩⟩
    · exact r.binds (execSbind.eq_1 y g n a s) UnitSt.streamAt_tentative ((h4 ha hb hc).trans (if_neg (by omega)))
    · exact r.emulates (execSbind.eq_1 y g n a s) ((h4 ha hb hc).trans (if_pos (by omega)))

end Sys2Proof.Machine
end

section
/-!
PROOFS. The service of faults (O27): what the end of a service makes of the lanes that waited for it, and what retries and the driver's answer
change before it.
-/
namespace Sys2Proof.Machine
open Sys2Proof.Claims

/-! ### Lanes that replay -/

section
variable {s t u : State} {id : Nat} {f z : Sheaf} {m : Mask} {a : Awaiting}

/-- A lane's account of its replays, blank. -/
def LaneSt.unreplayed (x : LaneSt) : LaneSt := { x with replays := 0, stepped := false, failed := [] }

/-- What a rollback leaves stays so as the lanes' account of their replays changes. -/
theorem RolledBack.updLanes {g : Nat → LaneSt → LaneSt} (h : RolledBack f m z) (hg : ∀ l x, (g l x).unreplayed = x.unreplayed) :
    RolledBack f m (z.updLanes m g) := by
  obtain ⟨hframe, hpend, htrap, htraps, hrm, hbp, hclr, hflag, hstream, hlane⟩ := h
  have hl (l : Nat) := Sheaf.lane_updLanes z m g l
  have hz := Sheaf.updLanes_eq z m g
  generalize z.updLanes m g = y at hl hz
  have hf (n l : Nat) : y.laneFlag n l = z.laneFlag n l := by rw [hz]; rfl
  have hp : y.pending = z.pending := by rw [hz]
  have ht : y.trap = z.trap := by rw [hz]
  have hst : y.streams = z.streams := by rw [hz]
  refine ⟨?_, by rw [hp, hpend], by rwa [ht], by rwa [ht], by rw [hz]; exact hrm, by rw [hz]; exact hbp, by rw [hz]; exact hclr,
    fun n l hl => by rw [hf, hflag n l hl], by rwa [hst], fun l h32 => ?_⟩
  · rw [hframe] at hz
    rw [hz]
  · have hlane := hlane l h32
    rw [hl]
    by_cases hm : m.getLsbD l = true
    · rw [if_pos hm] at hlane ⊢
      rw [if_pos ⟨h32, hm⟩]
      have he := hg l (z.lane l)
      have field {α : Type} (get : LaneSt → α) (hget : ∀ x, get x.unreplayed = get x) : get (g l (z.lane l)) = get (z.lane l) := by
        rw [← hget, he, hget]
      rw [field LaneSt.pc fun _ => rfl, field LaneSt.start fun _ => rfl, field LaneSt.limm fun _ => rfl, field LaneSt.xmod fun _ => rfl,
        field LaneSt.sched fun _ => rfl, field LaneSt.hold fun _ => rfl, field LaneSt.life fun _ => rfl, field LaneSt.poisoned fun _ => rfl,
        field LaneSt.alsoMet fun _ => rfl]
      exact hlane
    · rw [if_neg hm] at hlane ⊢
      rw [if_neg fun e => hm e.2]
      exact hlane

/-- The lanes that go on are the same as long as no `EXIT` comes or goes among the others. -/
theorem goingOn_of_rolledBack (h : RolledBack f (goingOn f m) z) : m &&& ~~~z.exiting = goingOn f m := by
  obtain ⟨-, -, -, -, -, -, -, -, -, hlane⟩ := h
  rw [and_not_exiting_eq]
  refine BitVec.eq_of_getLsbD_eq fun l hl => ?_
  have hlane := hlane l hl
  have hz : (goingOn z m).getLsbD l = (m.getLsbD l && (z.lane l).hold != .exit) := by
    rw [goingOn, getLsbD_laneMask, decide_eq_true hl, Bool.true_and]
  have hf : (goingOn f m).getLsbD l = (m.getLsbD l && (f.lane l).hold != .exit) := by
    rw [goingOn, getLsbD_laneMask, decide_eq_true hl, Bool.true_and]
  by_cases hm : (goingOn f m).getLsbD l = true
  · rw [if_pos hm] at hlane
    obtain ⟨-, -, -, -, -, hhold, -⟩ := hlane
    have hml : m.getLsbD l = true := (Bool.and_eq_true_iff.1 (hf ▸ hm)).1
    rw [hz, hm, hhold, hml]
    rfl
  · rw [if_neg hm] at hlane
    rw [hz, hf, hlane]

/-- A service ends with a replay of the lanes' regions (R195, R361). -/
theorem State.serviced_replays (ha : a.inPlace = false) (stepped : Bool) :
    Replays s id f a stepped (s.serviced id f a stepped) := by
  let f1 := f.setAwaiting (f.awaiting.erase a)
  let s1 := s.setSheaf id f1
  let m := a.lanes &&& f.liveMask
  let z1 := (s1.withdrawn f1 (goingOn f1 m)).updLanes (goingOn f1 m) fun _ => LaneSt.rolledBack
  let z2 := z1.updLanes (goingOn f1 m) fun _ x => { x with stepped := stepped, replays := x.replays + 1 }
  let z3 := if stepped && a.poison.kind == .uncorrected
    then z2.updLanes (goingOn f1 m) fun _ x => { x with failed := a.poison :: x.failed } else z2
  have hs1 : s1.sheaf id = some f1 := State.sheaf_setSheaf_self
  have h1 : RolledBack f1 (goingOn f1 m) z1 := rolledBack_withdrawn
  have h2 : RolledBack f1 (goingOn f1 m) z2 := RolledBack.updLanes h1 fun _ _ => rfl
  have h3 : RolledBack f1 (goingOn f1 m) z3 := by
    unfold z3
    split
    · exact RolledBack.updLanes h2 fun _ _ => rfl
    · exact h2
  have hlane (l : Nat) (hl : l < 32) (hm : (goingOn f1 m).getLsbD l = true) : (z2.lane l).stepped = stepped ∧ (z2.lane l).replays = (f.lane l).replays + 1 := by
    have e1 : z1.lane l = (f.lane l).rolledBack := by
      refine (Sheaf.lane_updLanes ..).trans ((if_pos ⟨hl, hm⟩).trans ?_)
      rw [withdrawn_lane]
      rfl
    have e2 : z2.lane l = { z1.lane l with stepped := stepped, replays := (z1.lane l).replays + 1 } :=
      (Sheaf.lane_updLanes ..).trans (if_pos ⟨hl, hm⟩)
    rw [e2, e1]
    exact ⟨rfl, rfl⟩
  have hx : s.serviced id f a stepped = ((s1.setSheaf id z1).updSheaf id fun g => g.updLanes (m &&& ~~~g.exiting) fun _ x =>
      { x with stepped := stepped, replays := x.replays + 1 }).updSheaf id fun g =>
        if stepped && a.poison.kind == .uncorrected then g.updLanes (m &&& ~~~g.exiting) fun _ x => { x with failed := a.poison :: x.failed }
        else g := by
    refine (if_pos (by rw [ha]; rfl)).trans ?_
    unfold State.replay
    rw [State.rollback_eq hs1]
  rw [hx]
  refine ⟨z3, (State.sheaf_updSheaf (State.sheaf_updSheaf State.sheaf_setSheaf_self _) _).trans (congrArg some ?_),
    oneSheaf_trans (oneSheaf_trans (oneSheaf_trans State.setSheaf_oneSheaf State.setSheaf_oneSheaf) State.updSheaf_oneSheaf) State.updSheaf_oneSheaf,
    h3, fun l hl hm => ?_⟩
  · rw [goingOn_of_rolledBack h1, goingOn_of_rolledBack h2]
  · unfold z3
    split
    · rw [Sheaf.lane_updLanes, if_pos ⟨hl, hm⟩]
      exact hlane l hl hm
    · exact hlane l hl hm

/-! ### Words that go on -/

/-- Live lanes carry what was declined of their own access. -/
def Sheaf.declines (live : Mask) (g : Sheaf) (x : Nat × Poison) : Sheaf :=
  if live.getLsbD x.1 then g.updLane x.1 fun y => { y with declined := some x.2 } else g

theorem Sheaf.declines_lane {live : Mask} (met : List (Nat × Poison)) (l : Nat) : (met.foldl (Sheaf.declines live) f).lane l =
    match (if live.getLsbD l = true then met.reverse.find? fun x => x.1 == l else none) with
    | some x => { f.lane l with declined := some x.2 }
    | none => f.lane l := by
  induction met using List.reverseRecOn with
  | nil =>
    rw [List.reverse_nil, List.find?_nil, ite_self]
    rfl
  | append_singleton met x ih =>
    rw [List.foldl_append, List.foldl_cons, List.foldl_nil, List.reverse_append, List.reverse_singleton, List.singleton_append]
    generalize met.foldl (Sheaf.declines live) f = g at ih ⊢
    unfold Sheaf.declines
    by_cases hx : x.1 = l
    · rw [List.find?_cons_of_pos (by simpa using hx), hx]
      by_cases hm : live.getLsbD l = true
      · rw [if_pos hm, if_pos hm, Sheaf.lane_updLane, if_pos rfl, ih]
        split <;> rfl
      · rw [if_neg hm, if_neg hm, ih, if_neg hm]
    · rw [List.find?_cons_of_neg (by simpa using hx), ← ih]
      split
      · rw [Sheaf.lane_updLane, if_neg (Ne.symm hx)]
      · rfl

theorem Sheaf.declines_frame {live : Mask} (met : List (Nat × Poison)) : ∀ f : Sheaf,
    met.foldl (Sheaf.declines live) f = { f with lanes := (met.foldl (Sheaf.declines live) f).lanes } := by
  induction met with
  | nil => exact fun _ => rfl
  | cons x met ih =>
    intro f
    have h1 : Sheaf.declines live f x = { f with lanes := (Sheaf.declines live f x).lanes } := by
      unfold Sheaf.declines
      split <;> rfl
    rw [List.foldl_cons, ih, h1]

/-- A service ends with the word that was held going on (R196). -/
theorem State.serviced_goesOn (ha : a.inPlace = true) (declined : Bool) :
    Claims.GoesOn s id f a declined (s.serviced id f a declined) := by
  let f1 := f.setAwaiting (f.awaiting.erase a)
  have hx : s.serviced id f a declined = if declined then (s.setSheaf id f1).updSheaf id fun g => a.met.foldl (Sheaf.declines f.liveMask) g
      else s.setSheaf id f1 := if_neg (by rw [ha]; decide)
  rw [hx]
  cases declined with
  | false =>
    refine ⟨f1, State.sheaf_setSheaf_self, State.setSheaf_oneSheaf, rfl, fun l _ => ?_⟩
    rw [if_neg (by simp)]
    rfl
  | true =>
    refine ⟨a.met.foldl (Sheaf.declines f.liveMask) f1, State.sheaf_updSheaf State.sheaf_setSheaf_self _,
      oneSheaf_trans State.setSheaf_oneSheaf State.updSheaf_oneSheaf, Sheaf.declines_frame a.met f1, fun l _ => ?_⟩
    rw [Sheaf.declines_lane]
    simp only [true_and]
    rfl

end

/-! ### What comes before the end of a service -/

section
variable {s : State} {id : Nat} {f : Sheaf} {a : Awaiting}

theorem State.healRead_frame {p : Poison} : s.healRead f p =
    { s with memPoison := (s.healRead f p).memPoison, checks := (s.healRead f p).checks, units := (s.healRead f p).units } := by
  unfold State.healRead State.healWords
  induction p.words generalizing s with
  | nil => rfl
  | cons w l ih =>
    rw [List.foldl_cons, ih]
    split
    · unfold State.updUnit
      split <;> rfl
    · rfl

theorem State.writeTables_only (l : List (Nat × Nat)) : s.MemOnly (s.writeTables l) :=
  State.MemOnly.foldl (fun t e => by
    split
    · exact State.store_only ..
    · exact .refl t) l s

/-- The driver takes a reported fault (R360). -/
def Sheaf.asks (f : Sheaf) (a : Awaiting) : Sheaf :=
  { f with awaiting := f.awaiting.map fun x => if x = a then { a with stage := .atDriver } else x }

/-- The service of a reported fault, by its kind. -/
theorem faultService_eq {ok : Bool} (hf : s.sheaf id = some f) (ha : f.awaiting.find? (fun x => x.stage == .reported) = some a) :
    exec (.faultService id ok) s = .next (match a.poison.kind with
      | .notPresent | .highWater => s.setSheaf id (f.asks a)
      | .brokenRemote => s.serviced id f a (!ok)
      | .uncorrected => if ok then (s.healRead f a.poison).serviced id f a false else s.serviced id f a true
      | .race | .unserviceable | .lost => s.serviced id f a true) := by
  have hasks : f.setAwaiting (f.awaiting.map fun x => if x == a then { x with stage := .atDriver } else x) = f.asks a := by
    unfold Sheaf.setAwaiting Sheaf.asks
    refine congrArg (fun l => { f with awaiting := l }) (List.map_congr_left fun x _ => ?_)
    by_cases h : x = a
    · rw [if_pos h, if_pos (beq_iff_eq.2 h), h]
    · rw [if_neg h, if_neg (mt beq_iff_eq.1 h)]
  refine (execFaultService.eq_1 ..).trans (congrArg Host.Outcome.next ?_)
  rw [hf]
  dsimp only
  rw [ha]
  dsimp only
  cases a.poison.kind with
  | notPresent | highWater => exact congrArg (s.setSheaf id) hasks
  | brokenRemote | uncorrected | race | unserviceable | lost => rfl

/-- Whether the driver's answer serves a fault (R359, R360). -/
theorem driverAnswer_eq {mapped : Bool} {hwm : Nat} {tables : List (Nat × Nat)} {x : Context} (hf : s.sheaf id = some f)
    (ha : f.awaiting.find? (fun x => x.stage == .atDriver) = some a) (hc : s.context (s.unitOf f).ctx = some x) :
    exec (.driverAnswer id mapped hwm tables) s = .next (
      if mapped = true ∧ (a.poison.kind = .highWater →
          hwm % 512 = 0 ∧ x.hwm ≤ hwm ∧ x.privByte f a.poison.addr.toNat < hwm ∧ hwm ≤ x.pspan / 32) then
        (if a.poison.kind = .highWater then (s.writeTables tables).updContext (s.unitOf f).ctx fun c => { c with hwm := hwm }
          else s.writeTables tables).serviced id f a false
      else s.serviced id f a true) := by
  refine (execDriverAnswer.eq_1 ..).trans (congrArg Host.Outcome.next ?_)
  rw [hf]
  dsimp only
  rw [ha]
  dsimp only
  rw [hc]
  dsimp only [Option.map_some, Option.getD_some, Context.hwmOk]
  by_cases hk : a.poison.kind = .highWater
  · simp only [hk, beq_self_eq_true, Bool.not_true, Bool.false_or, true_implies, if_true]
    cases mapped with
    | false => rfl
    | true =>
      simp only [Bool.true_and, true_and, Bool.not_eq_true', decide_eq_false_iff_not, ite_not]
  · have hb : (a.poison.kind == PoisonKind.highWater) = false := beq_eq_false_iff_ne.2 hk
    simp only [hb, hk, Bool.not_false, Bool.true_or, Bool.and_true, false_implies, and_true, if_false]
    cases mapped <;> rfl

end

/-- Settles O27: by the kind of the fault, and by whether the driver's answer serves it. -/
theorem faultsAreServiced : Obligations.FaultsAreServiced := by
  unfold Obligations.FaultsAreServiced
  refine ⟨fun s id ok f a hf ha => ?_, fun s id hwm mapped tables f a x hf ha hc => ?_⟩
  · have hx := faultService_eq (ok := ok) hf ha
    intro failed
    have hfail (h : failed) : exec (.faultService id ok) s = .next (s.serviced id f a true) := by
      rw [hx]
      rcases h with h | h | h | ⟨h, hok⟩
      · rw [h]
      · rw [h]
      · rw [h]
      · rw [h, hok]
        rfl
    refine ⟨fun h => ⟨_, hx, ?_⟩, fun hi h => ⟨_, hx, ?_⟩, fun hi h => ⟨_, hfail h, State.serviced_replays hi true⟩,
      fun hi h hok => ⟨_, s.healRead f a.poison, hx, State.healRead_frame, ?_⟩, fun hi h => ⟨_, hx, ?_⟩,
      fun hi h => ⟨_, hfail h, State.serviced_goesOn hi true⟩, fun hi h hok => ⟨_, s.healRead f a.poison, hx, State.healRead_frame, ?_⟩⟩
    · rcases h with h | h
      all_goals
        rw [h]
        exact ⟨State.setSheaf_oneSheaf, State.sheaf_setSheaf_self⟩
    · rw [h]
      exact State.serviced_replays hi (!ok)
    · rw [h, hok]
      exact State.serviced_replays hi false
    · rw [h]
      exact State.serviced_goesOn hi (!ok)
    · rw [h, hok]
      exact State.serviced_goesOn hi false
  · have hx := driverAnswer_eq (mapped := mapped) (hwm := hwm) (tables := tables) hf ha hc
    have ht := State.writeTables_only (s := s) tables
    unfold State.MemOnly at ht
    intro high markOk fine
    refine ⟨fun h hi => ⟨_, hx.trans (congrArg _ (if_neg h)), State.serviced_replays hi true⟩,
      fun h hi => ⟨_, hx.trans (congrArg _ (if_neg h)), State.serviced_goesOn hi true⟩,
      fun h => ⟨_, _, hx.trans (congrArg _ (if_pos h)), ?_, fun k => ?_, fun hi => State.serviced_replays hi false,
        fun hi => State.serviced_goesOn hi false⟩⟩
    · have hu (t : State) (g : Context → Context) : t.updContext (s.unitOf f).ctx g = { t with contexts := (t.updContext (s.unitOf f).ctx g).contexts } := by
        unfold State.updContext
        split <;> rfl
      split
      · rw [hu, ht]
      · have hcon : (s.writeTables tables).contexts = s.contexts := by rw [ht]
        rw [hcon]
        exact ht
    · have hk (k : Nat) : (s.writeTables tables).context k = s.context k := by
        rw [ht]
        rfl
      by_cases hh : a.poison.kind = .highWater
      · rw [if_pos hh, State.context_updContext, hk]
        by_cases he : k = (s.unitOf f).ctx
        · rw [if_pos he, if_pos ⟨he, hh⟩, he, hc]
          rfl
        · rw [if_neg he, if_neg fun e => he e.1]
      · rw [if_neg hh, hk, if_neg fun e => hh e.2]

end Sys2Proof.Machine
end

section
/-!
PROOFS. Translations (O28): what the end of a walk makes of the TLBs and of the loads that wait for its page, what an invalidation drops and
waits for, and what a queued store's part learns of its place.
-/
namespace Sys2Proof.Machine
open Sys2Proof.Claims

/-! ### A record in the error queue (R355, R363) -/

section
variable {s t : State}

theorem State.updContext_frame {ctx : Nat} {g : Context → Context} :
    s.updContext ctx g = { s with contexts := (s.updContext ctx g).contexts } := by
  unfold State.updContext
  split <;> rfl

/-- Only memory and contexts differ. -/
def State.RecordsOnly (s t : State) : Prop := t = { s with mem := t.mem, memPoison := t.memPoison, checks := t.checks, contexts := t.contexts }

theorem State.report_only {r : ErrRec} : s.RecordsOnly (s.report r) := by
  unfold State.report
  split
  · rfl
  · split
    · unfold State.RecordsOnly
      rw [State.updContext_frame]
    · split
      · next t ht =>
        obtain ⟨keys, -, hk⟩ := Except.exists_of_bind_eq_ok ht
        cases hk
        have h := State.store_only s (keys.zip (r.bytes s.nanos))
        unfold State.MemOnly at h
        unfold State.RecordsOnly
        rw [State.updContext_frame, h]
      · rfl

/-! ### The loads that wait for a page (R357) -/

/-- No part of a name waits in a sheaf. -/
def State.Gone (s : State) (id n : Nat) : Prop := ∀ z, s.sheaf id = some z → ∀ x ∈ z.outstanding, x.id ≠ n

theorem State.sheaf_updSheaf_map {id k : Nat} {g : Sheaf → Sheaf} :
    (s.updSheaf id g).sheaf k = if k = id then (s.sheaf k).map g else s.sheaf k := by
  cases h : s.sheaf id with
  | none =>
    rw [show s.updSheaf id g = s by unfold State.updSheaf; rw [h]]
    split
    · next hk => rw [hk, h]; rfl
    · rfl
  | some f =>
    rw [State.updSheaf_eq h, State.sheaf_setSheaf]
    split
    · next hk => rw [hk, h]; rfl
    · rfl

theorem State.Gone.updSheaf {id n k : Nat} {g : Sheaf → Sheaf} (h : s.Gone id n) (hg : ∀ f x, x ∈ (g f).outstanding → x ∈ f.outstanding) :
    (s.updSheaf k g).Gone id n := by
  intro z hz x hx
  rw [State.sheaf_updSheaf_map] at hz
  split at hz
  · obtain ⟨f, hf, rfl⟩ := Option.map_eq_some_iff.1 hz
    exact h f hf x (hg f x hx)
  · exact h z hz x hx

theorem State.Gone.land {id n k : Nat} {o : Outstanding} {p : Poison} (h : s.Gone id n) : (s.land k o (.error p)).Gone id n := by
  rw [State.land_eq]
  refine h.updSheaf fun f x hx => ?_
  rw [Sheaf.landed_error_waits.1] at hx
  exact (List.mem_filter.1 hx).1

/-- What has come home waits no more. -/
theorem State.gone_land {id : Nat} {o : Outstanding} {p : Poison} : (s.land id o (.error p)).Gone id o.id := by
  rw [State.land_eq]
  intro z hz x hx
  rw [State.sheaf_updSheaf_map, if_pos rfl] at hz
  obtain ⟨f, -, rfl⟩ := Option.map_eq_some_iff.1 hz
  rw [Sheaf.landed_error_waits.1] at hx
  exact bne_iff_ne.1 (List.mem_filter.1 hx).2

/-- What every step of a fold keeps holds after it. -/
theorem keeps_foldl {σ α : Type} {P : σ → Prop} {step : σ → α → σ} (hk : ∀ t x, P t → P (step t x)) :
    ∀ (l : List α) (t : σ), P t → P (l.foldl step t) := by
  intro l
  induction l with
  | nil => exact fun t h => h
  | cons y l ih => exact fun t h => ih _ (hk t y h)

/-- What every step of a fold keeps and one of them brings about holds after it. -/
theorem holds_foldl {σ α : Type} {P : σ → Prop} {step : σ → α → σ} (hk : ∀ t x, P t → P (step t x)) {x : α} (hx : ∀ t, P (step t x)) :
    ∀ (l : List α) (t : σ), x ∈ l → P (l.foldl step t) := by
  intro l
  induction l with
  | nil => exact fun t h => absurd h List.not_mem_nil
  | cons y l ih =>
    intro t h
    rcases List.mem_cons.1 h with rfl | h
    · exact keeps_foldl hk l _ (hx t)
    · exact ih _ h

theorem State.mem_sheafList {id : Nat} {f : Sheaf} (h : s.sheaf id = some f) : (id, f) ∈ s.sheafList := by
  unfold State.sheafList
  exact List.mem_filterMap.2 ⟨(id, some f), Store.mem_cells_of_get_eq_some h, rfl⟩

end

section
variable {s : State} {die ctx page : Nat} {kind : PoisonKind}

/-- A walk without a leaf changes sheaves alone. -/
theorem State.failMisses_only : s.failMisses die ctx page kind = { s with sheaves := (s.failMisses die ctx page kind).sheaves } := by
  have hupd (t : State) (id : Nat) (g : Sheaf → Sheaf) (h : t = { s with sheaves := t.sheaves }) :
      t.updSheaf id g = { s with sheaves := (t.updSheaf id g).sheaves } := by
    rw [(State.updSheaf_oneSheaf (s := t) (id := id) (u := g)).2, h]
  unfold State.failMisses
  extract_lets mine hwm hit
  refine keeps_foldl (P := fun t : State => t = { s with sheaves := t.sheaves }) (fun t c h => ?_) mine s rfl
  refine hupd _ _ _ (hupd _ _ _ ?_)
  refine keeps_foldl (P := fun t : State => t = { s with sheaves := t.sheaves }) (fun t o h => ?_) _ t h
  rw [State.land_eq]
  exact hupd _ _ _ h

theorem State.failMisses_gone {id : Nat} {f : Sheaf} {o : Outstanding} (hf : s.sheaf id = some f) (hp : f.place.isSome = true)
    (hd : dieOf f.coreNo = die) (hc : (s.unitOf f).ctx = ctx) (ho : o ∈ f.outstanding) (hk : o.kind = .load)
    (hs : o.space = .g ∨ o.space = .ga) (hpage : (s.vaOf f o.space o.lane o.ea).toNat / 2 ^ 16 = page) :
    (s.failMisses die ctx page kind).Gone id o.id := by
  have hupd (t : State) (k : Nat) (g : Sheaf → Sheaf) (h : t.Gone id o.id) (hg : ∀ f, (g f).outstanding = f.outstanding) :
      (t.updSheaf k g).Gone id o.id := h.updSheaf fun f x hx => hg f ▸ hx
  have hlanes (g : Sheaf) (m : Mask) (u : Nat → LaneSt → LaneSt) : (g.updLanes m u).outstanding = g.outstanding := by rw [Sheaf.updLanes_eq]
  unfold State.failMisses
  extract_lets mine hwm hit
  have hmine : (id, f) ∈ mine := List.mem_filter.2 ⟨State.mem_sheafList hf, by simp [hp, hd, hc]⟩
  have hhit : hit f o.space o.lane o.ea = true := by
    unfold hit State.pageOf
    rw [hpage]
    rcases hs with hs | hs
    all_goals
      rw [hs]
      simp
  refine holds_foldl (P := fun t : State => t.Gone id o.id) (fun t c h => ?_) (x := (id, f)) (fun t => ?_) mine s hmine
  · exact hupd _ _ _ (hupd _ _ _ (keeps_foldl (P := fun t : State => t.Gone id o.id) (fun t _ h => h.land) _ t h)
      fun _ => hlanes ..) fun _ => rfl
  · refine hupd _ _ _ (hupd _ _ _ ?_ fun _ => hlanes ..) fun _ => rfl
    refine holds_foldl (P := fun t : State => t.Gone id o.id) (x := o)
      (step := fun (acc : State) x => acc.land id x (.error ⟨kind, 4, s.vaOf f x.space x.lane x.ea, []⟩))
      (fun t _ h => h.land) (fun t => State.gone_land) _ t ?_
    exact List.mem_filter.2 ⟨ho, by rw [hk, hhit]; rfl⟩

end

section
variable {s : State} {die ctx page : Nat}

/-- A walk reads memory and its context's root. -/
theorem State.walkFrom_misses {l : List Miss} (levels : List (Nat × Nat × Nat)) : ∀ table,
    ({ s with misses := l } : State).walkFrom page levels table = s.walkFrom page levels table := by
  induction levels with
  | nil => exact fun _ => rfl
  | cons x levels ih =>
    intro table
    unfold State.walkFrom
    dsimp only
    rw [ih]
    rfl

theorem State.walk_misses {l : List Miss} : ({ s with misses := l } : State).walk ctx page = s.walk ctx page := by
  unfold State.walk
  rw [show ({ s with misses := l } : State).context ctx = s.context ctx from rfl]
  cases s.context ctx with
  | none => rfl
  | some c => exact State.walkFrom_misses ..

/-- The TLBs once a leaf has entered that of a die. -/
def State.filled (s : State) (die ctx : Nat) (e : DWord) (pages first : Nat) : List TlbEntry :=
  let base := s.tlbs.filter fun t => !(t.ctx == ctx && t.die == die && t.core == none && t.page == first && t.pages == pages)
  let dies := (base.filter fun t => t.core == none && t.die == die).take 16383
  [⟨die, none, ctx, first, pages, e⟩] ++ dies ++ base.filter fun t => !(t.core == none && t.die == die)

/-- A walker ends a waiting miss, by what the walk comes to. -/
theorem tlbWalk_eq (h : Miss.mk die ctx page ∈ (s.misses.filter fun x => x.die == die).take 32) :
    let s1 := { s with misses := s.misses.filter fun x => x != Miss.mk die ctx page }
    exec (.tlbWalk die ctx page) s = .next (match s.walk ctx page with
      | .leaf e pages first => { s1 with tlbs := s1.filled die ctx e pages first }
      | .absent => s1.failMisses die ctx page .notPresent
      | .malformed e => (s1.malformed ctx (BitVec.ofNat 64 (page * 2 ^ 16)) e).failMisses die ctx page .unserviceable) := by
  intro s1
  refine (execTlbWalk.eq_1 ..).trans (congrArg Host.Outcome.next ?_)
  dsimp only
  rw [if_neg (by simpa using h), State.walk_misses]
  cases s.walk ctx page <;> rfl

theorem State.mem_filled {x : TlbEntry} {e : DWord} {pages first : Nat} (h : x ∈ s.filled die ctx e pages first) :
    x ∈ s.tlbs ∨ x = ⟨die, none, ctx, first, pages, e⟩ := by
  unfold State.filled at h
  rcases List.mem_append.1 h with h | h
  · rcases List.mem_append.1 h with h | h
    · exact .inr (List.mem_singleton.1 h)
    · exact .inl (List.mem_filter.1 (List.mem_filter.1 (List.mem_of_mem_take h)).1).1
  · exact .inl (List.mem_filter.1 (List.mem_filter.1 h).1).1

/-- A walk that finds no leaf, or a malformed entry, which is recorded. -/
theorem walk_fails (h : Miss.mk die ctx page ∈ (s.misses.filter fun x => x.die == die).take 32)
    (hw : ∀ e pages first, s.walk ctx page ≠ .leaf e pages first) : ∃ u kind, exec (.tlbWalk die ctx page) s = .next (u.failMisses die ctx page kind)
      ∧ State.RecordsOnly { s with misses := s.misses.filter fun x => x != Miss.mk die ctx page } u := by
  have hx := tlbWalk_eq h
  cases hwalk : s.walk ctx page with
  | leaf e pages first => exact absurd hwalk (hw e pages first)
  | absent =>
    rw [hwalk] at hx
    exact ⟨_, _, hx, rfl⟩
  | malformed e =>
    rw [hwalk] at hx
    exact ⟨_, _, hx, State.report_only⟩

end

/-! ### Invalidations (R358) -/

section
variable {s : State} {ctx first last : Nat}

theorem State.mem_translatedThrough {id : Nat} {f : Sheaf} {e : StoreEntry} {p : StorePart} (hf : s.sheaf id = some f)
    (hc : (s.unitOf f).ctx = ctx) (he : e ∈ f.storeQueue) (hp : p ∈ e.parts) (hs : e.space ≠ .sp) (hphys : p.phys.isSome = true)
    (h1 : p.span.1 ≤ last) (h2 : first < p.span.1 + p.span.2) : (id, e.id, p.lane) ∈ s.translatedThrough ctx first last := by
  unfold State.translatedThrough
  refine List.mem_flatMap.2 ⟨(id, f), State.mem_sheafList hf, ?_⟩
  rw [if_neg (by simp [hc])]
  refine List.mem_flatMap.2 ⟨e, he, List.mem_filterMap.2 ⟨p, hp, if_pos ?_⟩⟩
  simp [hs, hphys, h1, h2]

/-- The invalidations of the same pages. -/
def Invalidation.covers (ctx first last : Nat) (x : Invalidation) : Bool := x.ctx == ctx && x.first == first && x.last == last

theorem tlbInvalidation_begins (h : s.invalidations.find? (Invalidation.covers ctx first last) = none) :
    exec (.tlbInvalidation ctx first last) s = .next { s with
      tlbs := s.tlbs.filter fun t => !(t.ctx == ctx && decide (t.page ≤ last ∧ first < t.page + t.pages))
      invalidations := if (s.translatedThrough ctx first last).isEmpty then s.invalidations
        else s.invalidations ++ [⟨ctx, first, last, s.translatedThrough ctx first last⟩] } := by
  unfold Invalidation.covers at h
  refine (execTlbInvalidation.eq_1 ..).trans (congrArg Host.Outcome.next ?_)
  dsimp only
  rw [h]

theorem tlbInvalidation_again {x : Invalidation} (h : s.invalidations.find? (Invalidation.covers ctx first last) = some x) :
    exec (.tlbInvalidation ctx first last) s = .next (
      if (x.waits.filter s.unperformed).isEmpty then { s with invalidations := s.invalidations.erase x }
      else { s with invalidations := s.invalidations.map fun y => if y == x then { x with waits := x.waits.filter s.unperformed } else y }) := by
  unfold Invalidation.covers at h
  refine (execTlbInvalidation.eq_1 ..).trans (congrArg Host.Outcome.next ?_)
  dsimp only
  rw [h]

end

/-! ### Translations of queued stores (R182, R290) -/

section
variable {s t : State} {id n : Nat} {f : Sheaf} {e : StoreEntry} {p q : StorePart}

theorem foldl_fixed {σ α : Type} {step : σ → α → σ} {t : σ} : ∀ l : List α, (∀ x ∈ l, step t x = t) → l.foldl step t = t := by
  intro l
  induction l with
  | nil => exact fun _ => rfl
  | cons x l ih =>
    intro h
    rw [List.foldl_cons, h x (by simp)]
    exact ih fun y hy => h y (by simp [hy])

/-- Of a fold over a range only one step does anything. -/
theorem foldl_range_one {σ : Type} {step : σ → Nat → σ} {s t : σ} {n k : Nat} (hk : k < n) (h1 : ∀ l, l ≠ k → step s l = s) (h2 : step s k = t)
    (h3 : ∀ l, l ≠ k → step t l = t) : (List.range n).foldl step s = t := by
  obtain ⟨j, rfl⟩ := Nat.exists_eq_add_of_lt hk
  rw [Nat.add_assoc, List.range_add, List.foldl_append, foldl_fixed _ fun l hl => h1 l (List.mem_range.1 hl).ne, List.range_succ_eq_map,
    List.map_cons, List.foldl_cons, Nat.add_zero, h2]
  refine foldl_fixed _ fun l hl => h3 l ?_
  obtain ⟨i, hi, rfl⟩ := List.mem_map.1 hl
  obtain ⟨i, -, rfl⟩ := List.mem_map.1 hi
  omega

/-- A lane without a part of its own in the entry. -/
theorem State.translateEntry_other (hf : s.sheaf id = some f) (he : f.storeQueue.find? (fun x => x.id == n) = some e) (hp : e.parts = [p])
    {l : Nat} (hl : l ≠ p.lane) : s.translateEntry id n l = s := by
  unfold State.translateEntry
  rw [hf]
  dsimp only
  rw [he]
  dsimp only
  rw [hp, List.find?_singleton, if_neg (by simp [Ne.symm hl])]

/-- The entry's part as its lane's turn leaves it. -/
def Sheaf.translates (f : Sheaf) (n : Nat) (p q : StorePart) : Sheaf := f.updEntry n fun x =>
  { x with parts := x.parts.map fun y => if y.lane == p.lane && y.open then q else y }

theorem State.translateEntry_own (hf : s.sheaf id = some f) (he : f.storeQueue.find? (fun x => x.id == n) = some e) (hs : e.stream = none)
    (hp : e.parts = [p]) (ho : p.open = true) (ht : s.translatePart id e.space p = .ok q t) :
    s.translateEntry id n p.lane = t.updSheaf id fun g => g.translates n p q := by
  unfold State.translateEntry
  rw [hf]
  dsimp only
  rw [he]
  dsimp only
  rw [hp, List.find?_singleton, if_pos (by simp [ho])]
  dsimp only
  rw [hs]
  dsimp only
  rw [ht]
  rfl

theorem Sheaf.find_translates (he : f.storeQueue.find? (fun x => x.id == n) = some e) (hp : e.parts = [p]) (ho : p.open = true) :
    (f.translates n p q).storeQueue.find? (fun x => x.id == n) = some { e with parts := [q] } := by
  have hid : e.id = n := by
    have h := List.find?_some he
    exact beq_iff_eq.1 h
  have hfind : ((fun x : StoreEntry => x.id == n) ∘ fun x => if x.id == n then
      { x with parts := x.parts.map fun y => if y.lane == p.lane && y.open then q else y } else x) = fun x => x.id == n := by
    funext x
    dsimp only [Function.comp]
    split <;> rfl
  unfold Sheaf.translates Sheaf.updEntry
  dsimp only
  rw [List.find?_map, hfind, he, Option.map_some, if_pos (by simp [hid]), hp]
  simp [ho]

theorem Sheaf.mem_translates {x : StoreEntry} (h : x ∈ (f.translates n p q).storeQueue) (hx : x.id ≠ n) : x ∈ f.storeQueue := by
  obtain ⟨y, hy, rfl⟩ := List.mem_map.1 h
  split at hx
  · next hid => exact absurd (beq_iff_eq.1 hid) hx
  · next hid => rwa [if_neg hid]

theorem State.translatePart_here {space : Space} {a : Acc} (hf : s.sheaf id = some f)
    (h : s.locate f space p.lane p.ea p.bytes.length .write false = .here a t) (hw : a.watched = false) :
    s.translatePart id space p = .ok { p with phys := some (a.keys.headD 0), span := a.span } t := by
  unfold State.translatePart
  rw [hf]
  dsimp only
  rw [h]
  dsimp only
  rw [hw, State.detect_unwatched]

theorem State.translatePart_bad {space : Space} {x : Poison} (hf : s.sheaf id = some f)
    (h : s.locate f space p.lane p.ea p.bytes.length .write false = .bad x) : s.translatePart id space p = .ok { p with fault := some x } s := by
  unfold State.translatePart
  rw [hf]
  dsimp only
  rw [h]

/-- A queued store of one lane whose part's turn comes. -/
theorem storeTranslated_one (hf : s.sheaf id = some f) (he : f.storeQueue.find? (fun x => x.id == n) = some e) (hs : e.stream = none)
    (hp : e.parts = [p]) (hl : p.lane < 32) (hplace : f.place.isSome = true) (ho : p.open = true) (hq : q.lane = p.lane)
    (ht : s.translatePart id e.space p = .ok q t) (hft : t.sheaf id = some f) :
    exec (.storeTranslated id n) s = .next (t.updSheaf id fun g => g.translates n p q) := by
  refine (execStoreTranslated.eq_1 ..).trans (congrArg Host.Outcome.next ?_)
  rw [hf, Option.any_some, if_neg (by rw [← Option.not_isSome, hplace]; decide)]
  refine foldl_range_one hl (fun l hl => State.translateEntry_other hf he hp hl) (State.translateEntry_own hf he hs hp ho ht) fun l hl => ?_
  exact State.translateEntry_other (State.sheaf_updSheaf hft _) (Sheaf.find_translates he hp ho) rfl (hq ▸ hl)

end

/-- Settles O28: the clauses of a walk, of an invalidation and of a queued store's translation. -/
theorem translationsAreMadeAndDropped : Obligations.TranslationsAreMadeAndDropped := by
  unfold Obligations.TranslationsAreMadeAndDropped
  refine ⟨fun s die ctx page hm => ?_, fun s ctx first last => ?_, fun s id n f e p hf he hs hp hl hplace hphys hfault => ?_⟩
  · by_cases hw : ∃ e pages first, s.walk ctx page = .leaf e pages first
    · obtain ⟨e, pages, first, hw⟩ := hw
      have hx := tlbWalk_eq hm
      rw [hw] at hx
      refine ⟨_, hx, rfl, fun e' pages' first' h => ?_, fun h => absurd hw (h e pages first)⟩
      rw [hw] at h
      cases h
      exact ⟨rfl, List.mem_append_left _ (by simp), fun x hx => State.mem_filled hx⟩
    · have hw : ∀ e pages first, s.walk ctx page ≠ .leaf e pages first := fun e pages first h => hw ⟨e, pages, first, h⟩
      obtain ⟨u, kind, hx, hu⟩ := walk_fails hm hw
      have ht : (u.failMisses die ctx page kind) = _ := State.failMisses_only
      refine ⟨_, hx, ?_, fun e pages first h => absurd h (hw e pages first), fun _ => ⟨?_, fun id f z o hf hz hp hd hc ho hk hs hpage => ?_⟩⟩
      · rw [ht, hu]
      · rw [ht, hu]
      · have hfu : u.sheaf id = some f := by rw [hu]; exact hf
        have hcu : (u.unitOf f).ctx = ctx := by rw [hu]; exact hc
        refine State.failMisses_gone hfu hp hd hcu ho hk hs ?_ z hz
        rcases hs with hs | hs
        all_goals
          rw [hs] at hpage ⊢
          exact hpage
  · intro mine
    refine ⟨fun h => ⟨_, s.translatedThrough ctx first last, tlbInvalidation_begins h, ?_, fun x => ?_, ?_⟩, fun x h => ⟨fun hn => ?_, fun hn => ?_⟩⟩
    · by_cases hw : s.translatedThrough ctx first last = []
      · rw [if_pos hw, hw, List.append_nil]
        rfl
      · rw [if_neg hw, if_neg (by simpa using hw)]
    · rw [List.mem_filter]
      simp [imp_iff_not_or]
    · exact fun id f e p hf hc he hp hs hphys h1 h2 => State.mem_translatedThrough hf hc he hp hs hphys h1 h2
    · rw [tlbInvalidation_again h, if_pos]
      exact List.isEmpty_iff.2 (List.filter_eq_nil_iff.2 fun w hw => by simp [hn w hw])
    · obtain ⟨w, hw, hun⟩ := hn
      rw [tlbInvalidation_again h, if_neg (by simpa using ⟨w.1, w.2.1, w.2.2, hw, hun⟩)]
      have hx : mine x = true := List.find?_some h
      exact ⟨_, { x with waits := x.waits.filter s.unperformed }, rfl, rfl,
        List.mem_map.2 ⟨x, List.mem_of_find?_eq_some h, if_pos (beq_self_eq_true x)⟩, hx, fun w => List.mem_filter⟩
  · have ho : p.open = true := by
      unfold StorePart.open
      rw [hphys, hfault]
      rfl
    intro place
    refine ⟨fun a w h hwatch => ?_, fun q h => ?_⟩
    · have hwf := State.locate_here h
      have hfw : w.sheaf id = some f := by rw [hwf]; exact hf
      have hx := storeTranslated_one (q := { p with phys := some (a.keys.headD 0), span := a.span }) (t := w) hf he hs hp hl hplace ho rfl
        (State.translatePart_here hf h hwatch) hfw
      obtain ⟨hothers, hrest⟩ := State.updSheaf_oneSheaf (s := w) (id := id)
        (u := fun g => g.translates n p { p with phys := some (a.keys.headD 0), span := a.span })
      refine ⟨_, _, hx, State.sheaf_updSheaf hfw _, fun k hk => (hothers k hk).trans (by rw [hwf]; rfl), ?_, rfl, Sheaf.find_translates he hp ho,
        fun x hx hne => Sheaf.mem_translates hx hne⟩
      rw [hrest, hwf]
    · have hx := storeTranslated_one (q := { p with fault := some q }) (t := s) hf he hs hp hl hplace ho rfl
        (State.translatePart_bad hf h) hf
      exact ⟨_, _, hx, State.sheaf_updSheaf hf _, State.updSheaf_oneSheaf, rfl, Sheaf.find_translates he hp ho⟩

end Sys2Proof.Machine
end
